-- ==== Sys2Proof/Word.lean ====
section
/-! DEFINITION. Words, bytes, lanes and tables: the plainest data types of the model (R12, R39). -/

namespace Sys2Proof

/-- One byte of memory (R12). -/
abbrev Byte := BitVec 8
/-- A 32-bit lane value or instruction word (R17, R39). -/
abbrev Word := BitVec 32
/-- A 64-bit value: a register pair, a uniform register, an address (R24, R39). -/
abbrev DWord := BitVec 64
/-- A set of lanes of one gang, bit n for lane n (R27). -/
abbrev LaneMask := BitVec 32
/-- One value for each of the 32 lanes of a gang (R233). -/
abbrev Lanes (α : Type) := Vector α 32
/-- A sparse table in ONE canonical form: keys strictly rising. -/
abbrev Tab (α : Type) := List (Nat × α)
/-- Sparse byte memory: a table of bytes that lists no byte equal to what an unlisted address reads as. -/
abbrev Mem := Tab Byte

/-- The same value in every lane. -/
abbrev Lanes.all {α : Type} (a : α) : Lanes α := Vector.replicate 32 a

end Sys2Proof
end

