-- ==== Sys2Proof/Machine/Tab.lean ====
section
/-! DEFINITION. Tables and byte memory in canonical form, lanes and masks, little-endian numbers (R12, R27). -/

namespace Sys2Proof.Machine

/-! ### Tables -/

/-- The entry of a table at a key. -/
def Tab.find {α : Type} : Tab α → Nat → Option α
  | [], _ => none
  | (k, v) :: t, n => if k = n then some v else Tab.find t n

/-- A table with one entry written. Keys stay strictly rising. -/
def Tab.put {α : Type} : Tab α → Nat → α → Tab α
  | [], n, a => [(n, a)]
  | (k, v) :: t, n, a => if n < k then (n, a) :: (k, v) :: t else if n = k then (n, a) :: t else (k, v) :: Tab.put t n a

/-- A table without the entry at a key. -/
def Tab.drop {α : Type} : Tab α → Nat → Tab α
  | [], _ => []
  | (k, v) :: t, n => if k = n then t else (k, v) :: Tab.drop t n

/-- The entry at a key, or a default. -/
def Tab.getD {α : Type} (t : Tab α) (n : Nat) (d : α) : α := (Tab.find t n).getD d

/-- The entry at a key rewritten, where there is one. -/
def Tab.upd {α : Type} (t : Tab α) (n : Nat) (f : α → α) : Tab α :=
  match Tab.find t n with
  | some a => Tab.put t n (f a)
  | none => t

/-- Keys strictly rising, each above a bound. -/
def Tab.rising {α : Type} : Option Nat → Tab α → Bool
  | _, [] => true
  | lo, (k, _) :: t => (match lo with | none => true | some b => decide (b < k)) && Tab.rising (some k) t

/-! ### Byte memory -/

/-- What an unlisted address reads as: zero (log entry 1). -/
def memDefault : Byte := 0

/-- The byte at an address. -/
def Mem.get (m : Mem) (a : Nat) : Byte := Tab.getD m a memDefault

/-- Memory with one byte written: a byte equal to the default is not listed. -/
def Mem.set (m : Mem) (a : Nat) (b : Byte) : Mem := if b = memDefault then Tab.drop m a else Tab.put m a b

/-- Canonical form: addresses strictly rising, no entry equal to what an unlisted address reads as. -/
def Mem.wf (m : Mem) : Bool := Tab.rising none m && m.all fun p => p.2 != memDefault

/-- The n bytes from an address, as a little-endian number (R12). -/
def Mem.load (m : Mem) (a : Nat) : Nat → Nat
  | 0 => 0
  | n + 1 => (Mem.get m a).toNat + 256 * Mem.load m (a + 1) n

/-- Memory with the n low bytes of a number written little-endian (R12). -/
def Mem.store (m : Mem) (a : Nat) (v : Nat) : Nat → Mem
  | 0 => m
  | n + 1 => Mem.store (Mem.set m a (BitVec.ofNat 8 v)) (a + 1) (v / 256) n

/-- The list of n bytes from an address. -/
def Mem.bytes (m : Mem) (a : Nat) : Nat → List Byte
  | 0 => []
  | n + 1 => Mem.get m a :: Mem.bytes m (a + 1) n

/-- Memory with a list of bytes written from an address. -/
def Mem.write (m : Mem) (a : Nat) : List Byte → Mem
  | [] => m
  | b :: bs => Mem.write (Mem.set m a b) (a + 1) bs

/-- The listed bytes of [a, a + n), moved so that a becomes 0. -/
def Mem.slice (m : Mem) (a n : Nat) : Mem :=
  (m.filter fun p => decide (a ≤ p.1 ∧ p.1 < a + n)).map fun p => (p.1 - a, p.2)

/-- Memory without the listed bytes of [a, a + n): they read as zero. -/
def Mem.clear (m : Mem) (a n : Nat) : Mem := m.filter fun p => !decide (a ≤ p.1 ∧ p.1 < a + n)

/-- Memory with [a, a + n) replaced by the first n bytes of another. -/
def Mem.paste (m : Mem) (a n : Nat) (src : Mem) : Mem :=
  (src.filter fun p => decide (p.1 < n)).foldl (fun acc p => Mem.set acc (a + p.1) p.2) (Mem.clear m a n)

/-! ### Numbers as bytes -/

/-- The n low bytes of a number, little-endian. -/
def leBytes : Nat → Nat → List Byte
  | _, 0 => []
  | v, n + 1 => BitVec.ofNat 8 v :: leBytes (v / 256) n

/-- A list of bytes read as a little-endian number. -/
def leNat : List Byte → Nat
  | [] => 0
  | b :: bs => b.toNat + 256 * leNat bs

/-- The little-endian number in bytes [o, o + n) of a list; bytes past its end read as zero. -/
def field (bs : List Byte) (o n : Nat) : Nat := leNat ((bs.drop o).take n)

/-- Bits [hi:lo] of a number (R12). -/
def bitsOf (v hi lo : Nat) : Nat := (v >>> lo) % 2 ^ (hi + 1 - lo)

/-- Signed value of the low w bits of a number. -/
def sext (v w : Nat) : Int := if v % 2 ^ w < 2 ^ (w - 1) then ((v % 2 ^ w : Nat) : Int) else ((v % 2 ^ w : Nat) : Int) - 2 ^ w

/-- Two's complement encoding of an integer in w bits, as a number (the wrap of R38). -/
def wrapNat (x : Int) (w : Nat) : Nat := (x % 2 ^ w).toNat

/-! ### Lanes -/

/-- The lane numbers 0 to 31 in ascending order. -/
def laneList : List (Fin 32) := List.finRange 32

/-- A lane is in a mask. -/
def inMask (m : LaneMask) (i : Nat) : Bool := m.getLsbD i

/-- The lanes of a mask in ascending order. -/
def lanesOf (m : LaneMask) : List (Fin 32) := laneList.filter fun i => inMask m i

/-- The mask of the lanes at which a test holds. -/
def maskOf (f : Fin 32 → Bool) : LaneMask := laneList.foldl (fun m i => if f i then m ||| (1#32 <<< i.val) else m) 0

/-- The lowest set bit of a mask; 0 when it is empty (R38). -/
def lowest (m : LaneMask) : Nat := ((lanesOf m).head?.map Fin.val).getD 0

/-- The highest set bit of a mask; 0 when it is empty. -/
def highest (m : LaneMask) : Nat := ((lanesOf m).getLast?.map Fin.val).getD 0

/-- How many lanes a mask holds. -/
def laneCount (m : LaneMask) : Nat := (lanesOf m).length

/-- A value for each lane. -/
def lanesFrom {α : Type} (f : Fin 32 → α) : Lanes α := ⟨⟨laneList.map f⟩, by simp [laneList]⟩

/-- Lane values with those of a mask replaced. -/
def Lanes.sel {α : Type} (m : LaneMask) (new old : Lanes α) : Lanes α :=
  lanesFrom fun i => if inMask m i then new[i] else old[i]

/-- One value of a short vector; index taken modulo its length. -/
def vget {α : Type} {n : Nat} [NeZero n] (v : Vector α n) (i : Nat) : α := v[(Fin.ofNat n i)]

/-- A short vector with one value replaced; index taken modulo its length. -/
def vset {α : Type} {n : Nat} [NeZero n] (v : Vector α n) (i : Nat) (a : α) : Vector α n := v.set (Fin.ofNat n i) a

/-- A list with the entry at an index rewritten. -/
def updAt {α : Type} (l : List α) (k : Nat) (f : α → α) : List α := l.modify k f

end Sys2Proof.Machine
end

