-- ==== Sys2Proof/Machine/Num.lean ====
section
/-! DEFINITION. Number formats to the bit and exact values (R38, R110, R316 to R327). A finite value is n x 2^ex with n a natural number
and a sign; `st` says that the real value lies strictly between n and n + 1 units, as the irrational or unending results of
square roots and quotients do. -/

namespace Sys2Proof.Machine

/-! ### Formats -/

/-- The formats of R110, in the order of their codes 0 to 10. -/
inductive Fm where
  | f32 | f64 | f16 | bf16 | t8 | t6 | e4m3 | e5m2 | e3m2 | e2m3 | e2m1
deriving DecidableEq, Repr

/-- The format of an R110 code. -/
def Fm.ofCode : Nat → Option Fm
  | 0 => some .f32 | 1 => some .f64 | 2 => some .f16 | 3 => some .bf16 | 4 => some .t8 | 5 => some .t6
  | 6 => some .e4m3 | 7 => some .e5m2 | 8 => some .e3m2 | 9 => some .e2m3 | 10 => some .e2m1
  | _ => none

/-- Bits of a format in its lane (R110, R316, R320, R323). -/
def Fm.width : Fm → Nat
  | .f32 => 32 | .f64 => 64 | .f16 | .bf16 => 16 | .t8 | .e4m3 | .e5m2 => 8 | .t6 | .e3m2 | .e2m3 => 6 | .e2m1 => 4

/-- Fraction bits (R316, R320). -/
def Fm.fb : Fm → Nat
  | .f32 => 23 | .f64 => 52 | .f16 => 10 | .bf16 => 7 | .e4m3 => 3 | .e5m2 => 2 | .e3m2 => 2 | .e2m3 => 3 | .e2m1 => 1
  | .t8 | .t6 => 0

/-- Exponent bits (R316, R320). -/
def Fm.eb (f : Fm) : Nat := f.width - 1 - f.fb

/-- Exponent bias (R316, R320). -/
def Fm.bias : Fm → Nat
  | .f32 | .bf16 => 127 | .f64 => 1023 | .f16 => 15 | .e4m3 => 7 | .e5m2 => 15 | .e3m2 => 3 | .e2m3 | .e2m1 => 1
  | .t8 | .t6 => 0

/-- IEEE 754 binary formats and BF16 (R316). -/
def Fm.ieee : Fm → Bool
  | .f32 | .f64 | .f16 | .bf16 => true
  | _ => false

/-- Tapered formats (R323). -/
def Fm.tapered : Fm → Bool
  | .t8 | .t6 => true
  | _ => false

/-- The format has infinities (R316, R320). -/
def Fm.hasInf : Fm → Bool
  | .f32 | .f64 | .f16 | .bf16 | .e5m2 => true
  | _ => false

/-- Magnitude code of the largest finite value (R316, R320, R323). -/
def Fm.maxCode : Fm → Nat
  | .f32 => 0x7F7FFFFF | .f64 => 0x7FEFFFFFFFFFFFFF | .f16 => 0x7BFF | .bf16 => 0x7F7F | .t8 => 0x7F | .t6 => 0x1F
  | .e4m3 => 0x7E | .e5m2 => 0x7B | .e3m2 | .e2m3 => 0x1F | .e2m1 => 0x7

/-- Magnitude code of infinity in a format that has one. -/
def Fm.infCode (f : Fm) : Nat := (2 ^ f.eb - 1) * 2 ^ f.fb

/-- The canonical quiet NaN of a format, or NaR (R318); formats without a NaN give +0 (R131, R190). -/
def Fm.qnan : Fm → Nat
  | .f32 => 0x7FC00000 | .f64 => 0x7FF8000000000000 | .f16 => 0x7E00 | .bf16 => 0x7FC0 | .t8 => 0x80 | .t6 => 0x20
  | .e4m3 => 0x7F | .e5m2 => 0x7E | .e3m2 | .e2m3 | .e2m1 => 0

/-- The sign bit of a format as a number. -/
def Fm.signBit (f : Fm) : Nat := 2 ^ (f.width - 1)

/-- A magnitude code with its sign. -/
def Fm.signed (f : Fm) (neg : Bool) (mag : Nat) : Nat := if neg then f.signBit + mag else mag

/-! ### Values -/

/-- A decoded value (R317): a NaN with its sign, whether it signals, and the fraction bits below its quiet bit with their
number; an infinity; or a finite value. -/
inductive Val where
  | nan (neg sig : Bool) (pay bits : Nat)
  | inf (neg : Bool)
  | fin (neg : Bool) (n : Nat) (ex : Int) (st : Bool)
deriving DecidableEq, Repr

/-- The NaN of R318 that comes from no NaN operand. -/
def Val.canonical : Val := .nan false false 0 0

/-- Zero of a sign. -/
def Val.zero (neg : Bool) : Val := .fin neg 0 0 false

/-- An exact integer as a value. -/
def Val.ofInt (x : Int) : Val := .fin (decide (x < 0)) x.natAbs 0 false

def Val.isNan : Val → Bool
  | .nan .. => true
  | _ => false

def Val.isSig : Val → Bool
  | .nan _ s _ _ => s
  | _ => false

def Val.isInf : Val → Bool
  | .inf _ => true
  | _ => false

def Val.isZero : Val → Bool
  | .fin _ n _ st => n == 0 && !st
  | _ => false

def Val.neg : Val → Bool
  | .nan s .. => s
  | .inf s => s
  | .fin s .. => s

/-- The value with its sign inverted. -/
def Val.flip : Val → Val
  | .nan s g p b => .nan (!s) g p b
  | .inf s => .inf (!s)
  | .fin s n e t => .fin (!s) n e t

/-- The value with a sign given. -/
def Val.withSign (neg : Bool) : Val → Val
  | .nan _ g p b => .nan neg g p b
  | .inf _ => .inf neg
  | .fin _ n e t => .fin neg n e t

/-! ### Decoding (R317, R321, R323) -/

/-- decode_fp of R317 for a format with fraction and exponent fields, with the changes of R321. -/
def decodeFp (f : Fm) (code : Nat) : Val :=
  let c := code % 2 ^ f.width
  let s := decide (f.signBit ≤ c)
  let e := bitsOf c (f.width - 2) f.fb
  let fr := c % 2 ^ f.fb
  let small : Val := .fin s fr (1 - (f.bias : Int) - f.fb) false
  let normal : Val := .fin s (2 ^ f.fb + fr) ((e : Int) - f.bias - f.fb) false
  if e = 0 then small
  else if e = 2 ^ f.eb - 1 then
    match f with
    | .e3m2 | .e2m3 | .e2m1 => normal
    | .e4m3 => if fr = 7 then .canonical else normal
    | .e5m2 => if fr = 0 then .inf s else .canonical
    | _ =>
      if fr = 0 then .inf s
      else .nan s (decide (fr < 2 ^ (f.fb - 1))) (fr % 2 ^ (f.fb - 1)) (f.fb - 1)
  else normal

/-- Length of the run of bits equal to b from bit n - 1 of m downward (R38). -/
def runLength (m : Nat) (b : Bool) : Nat → Nat
  | 0 => 0
  | n + 1 => if m.testBit n = b then runLength m b n + 1 else 0

/-- decode_taper of R38 for a magnitude field m of n - 1 bits, m not zero: significand and exponent. -/
def taperMag (m n es : Nat) : Nat × Int :=
  let w := n - 1
  let b := m.testBit (w - 1)
  let run := runLength m b w
  let k : Int := if b then (run : Int) - 1 else -(run : Int)
  let left := w - run - 1
  let rest := m % 2 ^ left
  let e := if es ≤ left then rest >>> (left - es) else rest <<< (es - left)
  let fl := left - es
  (2 ^ fl + rest % 2 ^ fl, (2 ^ es : Nat) * k + (e : Int) - fl)

/-- A tapered code's value; NaR reads as a quiet NaN (R38, R130, R323), whose sign the spec leaves open: the model's is the positive canonical
one (log entry 117). -/
def decodeTaper (f : Fm) (code : Nat) : Val :=
  let n := f.width
  let c := code % 2 ^ n
  let s := decide (f.signBit ≤ c)
  let m := c % 2 ^ (n - 1)
  if m = 0 then if s then .canonical else .zero false
  else
    let r := taperMag m n (if f = .t8 then 2 else 1)
    .fin s r.1 r.2 false

/-- The value of a code (R130, R317, R321, R323). -/
def Fm.decode (f : Fm) (code : Nat) : Val := if f.tapered then decodeTaper f code else decodeFp f code

/-- A subnormal source under FTZ reads as a zero of its sign (R38, R114). -/
def flushSrc (f : Fm) (ftz : Bool) (v : Val) : Val :=
  if ftz && (f == .f16 || f == .bf16 || f == .f32) then
    match v with
    | .fin s n _ _ => if n < 2 ^ f.fb then .zero s else v
    | _ => v
  else v

/-! ### Exact arithmetic on finite values -/

/-- A signed dyadic number n x 2^ex. -/
structure Dy where
  n : Int
  ex : Int
deriving DecidableEq, Repr

def Dy.add (a b : Dy) : Dy :=
  let e := min a.ex b.ex
  ⟨a.n * 2 ^ (a.ex - e).toNat + b.n * 2 ^ (b.ex - e).toNat, e⟩

def Dy.mul (a b : Dy) : Dy := ⟨a.n * b.n, a.ex + b.ex⟩

def Dy.neg (a : Dy) : Dy := ⟨-a.n, a.ex⟩

def Dy.isNeg (a : Dy) : Bool := decide (a.n < 0)

/-- a < b for dyadic numbers. -/
def Dy.lt (a b : Dy) : Bool := (Dy.add a b.neg).isNeg

/-- The dyadic number of a finite value without its sticky part. -/
def Val.dy : Val → Dy
  | .fin s n e _ => ⟨if s then -(n : Int) else n, e⟩
  | _ => ⟨0, 0⟩

/-- A dyadic number as a value; an exact zero takes the sign given (R113). -/
def Dy.val (a : Dy) (zneg : Bool) : Val := .fin (if a.n = 0 then zneg else decide (a.n < 0)) a.n.natAbs a.ex false

/-- Integer square root, by bits from 2^k down. -/
def isqrtGo (n : Nat) : Nat → Nat → Nat
  | 0, r => if (r + 1) * (r + 1) ≤ n then r + 1 else r
  | k + 1, r =>
    let c := r + 2 ^ (k + 1)
    isqrtGo n k (if c * c ≤ n then c else r)

/-- The largest r with r x r at most n. -/
def isqrt (n : Nat) : Nat := isqrtGo n (Nat.log2 n / 2 + 1) 0

/-- Units below which no rounding of the device looks: results of roots and quotients are formed exactly down to here. -/
def deep : Nat := 1200

/-- The quotient of two positive dyadic magnitudes, down to `deep` places (R118). -/
def quotient (neg : Bool) (a b : Dy) : Val :=
  let k := a.ex - b.ex + deep
  let num := a.n.natAbs * 2 ^ k.toNat
  let den := b.n.natAbs * 2 ^ (-k).toNat
  .fin neg (num / den) (-(deep : Int)) (decide (num % den ≠ 0))

/-- a + b√c for dyadic a, b and c ≥ 0, down to `deep` places or finer (R201, R204). -/
def quadratic (a b c : Dy) (zneg : Bool) : Val :=
  let r := Dy.mul (Dy.mul b b) c
  let low := min (min a.ex (r.ex / 2)) (-(deep : Int))
  let an := a.n * 2 ^ (a.ex - low).toNat
  let rn := r.n.natAbs * 2 ^ (r.ex - 2 * low).toNat
  let q := isqrt rn
  let st := decide (q * q ≠ rn)
  let fl : Int := if b.n < 0 then an - q - (if st then 1 else 0) else an + q
  if fl < 0 then .fin true (if st then fl.natAbs - 1 else fl.natAbs) low st
  else if fl = 0 && !st then .zero zneg
  else .fin false fl.natAbs low st

/-- The square root of a dyadic number that is not negative. -/
def rootVal (c : Dy) : Val := quadratic ⟨0, 0⟩ ⟨1, 0⟩ c false

/-- Three-way order of two values that are no NaN, with −0 equal to +0: -1, 0 or 1. -/
def Val.cmp : Val → Val → Int
  | .inf s, .inf t => if s = t then 0 else if s then -1 else 1
  | .inf s, _ => if s then -1 else 1
  | _, .inf t => if t then 1 else -1
  | a, b => let d := Dy.add a.dy b.dy.neg; if d.n < 0 then -1 else if d.n = 0 then 0 else 1

/-- ⌊log2 |x|⌋ of a finite value whose significand is not zero. -/
def Val.exponent : Val → Int
  | .fin _ n e _ => (Nat.log2 n : Int) + e
  | _ => 0

end Sys2Proof.Machine
end

