-- ==== Sys2Proof/Machine/Flags.lean ====
section
/-! DEFINITION. Rounding with its IEEE flags (R38 round and write_dst, R113 to R116, R131, R132, R317), NaN results (R318), and the
destination modifiers (R33). Flags are five bits in the order of R54: INV, DZ, OFL, UFL, INX from the low end. -/

namespace Sys2Proof.Machine

/-- IEEE flags (R54). -/
abbrev FpFlags := BitVec 5

def flagInv : FpFlags := 1
def flagDz : FpFlags := 2
def flagOfl : FpFlags := 4
def flagUfl : FpFlags := 8
def flagInx : FpFlags := 16

/-- A code with the flags that making it raised. -/
structure Rounded where
  code : Nat
  flags : FpFlags
deriving DecidableEq, Repr

/-- The rounding modes of R53. -/
inductive Rm where
  | rne | rtz | rup | rdn | rna
deriving DecidableEq, Repr

/-- The mode of an RM code (R53, R109); codes above 4 name none. -/
def Rm.ofCode : Nat → Option Rm
  | 0 => some .rne | 1 => some .rtz | 2 => some .rup | 3 => some .rdn | 4 => some .rna
  | _ => none

/-- Whether a magnitude q + r/u (0 ≤ r < u) rounds up to q + 1 under a mode (R38). -/
def roundsUp (rm : Rm) (neg : Bool) (q r u : Nat) : Bool :=
  match rm with
  | .rne => decide (u < 2 * r) || (decide (2 * r = u) && decide (q % 2 = 1))
  | .rna => decide (u ≤ 2 * r)
  | .rtz => false
  | .rup => decide (r ≠ 0) && !neg
  | .rdn => decide (r ≠ 0) && neg

/-- n x 2^ex (with a sticky part) rounded to a multiple of 2^g: the multiple and whether it is inexact. -/
def roundGrid (rm : Rm) (neg : Bool) (n : Nat) (ex : Int) (st : Bool) (g : Int) : Nat × Bool :=
  let m := 2 * n + (if st then 1 else 0)
  let e := ex - 1
  let up := (g - e).toNat
  let x := m * 2 ^ (e - g).toNat
  let u := 2 ^ up
  let q := x / u
  let r := x % u
  (if roundsUp rm neg q r u then q + 1 else q, decide (r ≠ 0))

/-- An integral multiple q of 2^g, with q of at most p = fb + 1 bits or 2^p, as a magnitude code of unbounded exponent. -/
def codeOf (f : Fm) (q : Nat) (g : Int) : Nat :=
  let top := 2 ^ (f.fb + 1)
  let q' := if q = top then q / 2 else q
  let g' := if q = top then g + 1 else g
  ((g' + f.fb + f.bias).toNat) * 2 ^ f.fb + (q' - 2 ^ f.fb)

/-- What an overflow of a sign gives under a mode, per IEEE 754; formats without infinity give their largest value (R38,
R131). -/
def overflowMag (f : Fm) (rm : Rm) (neg : Bool) : Nat :=
  if f.hasInf && (match rm with | .rne | .rna => true | .rtz => false | .rup => !neg | .rdn => neg) then f.infCode
  else f.maxCode

/-- round() of R38 for a finite value into a format with fraction and exponent fields. -/
def roundFin (f : Fm) (rm : Rm) (ftz : Bool) (neg : Bool) (n : Nat) (ex : Int) (st : Bool) : Rounded :=
  if n = 0 && !st then ⟨f.signed neg 0, 0⟩
  else
    let emin : Int := 1 - f.bias
    let gmin := emin - f.fb
    let e : Int := if n = 0 then gmin - 4 else (Nat.log2 n : Int) + ex
    let y := roundGrid rm neg n ex st (e - f.fb)
    let tiny := decide (e < emin) && !(decide (e + 1 = emin) && decide (y.1 = 2 ^ (f.fb + 1)))
    if tiny then
      if ftz && (f == .f16 || f == .bf16 || f == .f32) then ⟨f.signed neg 0, flagUfl ||| flagInx⟩
      else
        let z := roundGrid rm neg n ex st gmin
        ⟨f.signed neg z.1, if z.2 then flagUfl ||| flagInx else 0⟩
    else
      let c := codeOf f y.1 (e - f.fb)
      if f.maxCode < c then ⟨f.signed neg (overflowMag f rm neg), flagOfl ||| flagInx⟩
      else ⟨f.signed neg c, if y.2 then flagInx else 0⟩

/-- Order of a finite magnitude against a dyadic one: -1, 0 or 1; a sticky part counts as above. -/
def magCmp (n : Nat) (ex : Int) (st : Bool) (d : Dy) : Int :=
  let r := Dy.add ⟨n, ex⟩ d.neg
  if r.n < 0 then -1 else if r.n = 0 then (if st then 1 else 0) else 1

/-- The magnitude of tapered code c as a dyadic number. -/
def taperVal (f : Fm) (c : Nat) : Dy := let r := taperMag c f.width (if f = .t8 then 2 else 1); ⟨r.1, r.2⟩

/-- The largest tapered code from c downward whose value is at most the magnitude; 0 when there is none. -/
def taperFloor (f : Fm) (n : Nat) (ex : Int) (st : Bool) : Nat → Nat
  | 0 => 0
  | c + 1 => if 0 ≤ magCmp n ex st (taperVal f (c + 1)) then c + 1 else taperFloor f n ex st c

/-- Conversion of a finite value into T8 or T6 (R132). -/
def roundTaper (f : Fm) (rm : Rm) (neg : Bool) (n : Nat) (ex : Int) (st : Bool) : Rounded :=
  if n = 0 && !st then ⟨0, 0⟩
  else if magCmp n ex st (taperVal f f.maxCode) = 1 then ⟨f.signed neg f.maxCode, flagOfl ||| flagInx⟩
  else
    let lo := taperFloor f n ex st f.maxCode
    if lo = 0 then ⟨f.signed neg 1, flagUfl ||| flagInx⟩
    else if magCmp n ex st (taperVal f lo) = 0 then ⟨f.signed neg lo, 0⟩
    else
      let a := taperVal f lo
      let b := taperVal f (lo + 1)
      let half := magCmp (2 * n) ex st (Dy.add a b)
      let up := match rm with
        | .rne => decide (half = 1) || (decide (half = 0) && decide (lo % 2 = 1))
        | .rna => decide (0 ≤ half)
        | .rtz => false
        | .rup => !neg
        | .rdn => neg
      ⟨f.signed neg (if up then lo + 1 else lo), flagInx⟩

/-- nan_result of R318 into an IEEE format or BF16: sign kept, quiet bit set, payload cut or padded at its low end. -/
def nanResult (f : Fm) (neg : Bool) (pay bits : Nat) : Nat :=
  let room := f.fb - 1
  let p := if room ≤ bits then pay >>> (bits - room) else pay <<< (room - bits)
  f.signed neg (f.infCode + 2 ^ (f.fb - 1) + p)

/-- The code of a value in a format with the flags of its conversion (R38, R130 to R132, R318). A signalling NaN has
raised invalid where it was read, and raises nothing here. -/
def roundVal (f : Fm) (rm : Rm) (ftz : Bool) (v : Val) : Rounded :=
  match v with
  | .nan neg _ pay bits =>
    match f with
    | .t8 | .t6 => ⟨f.qnan, 0⟩
    | .e4m3 | .e5m2 => ⟨f.signed neg f.qnan, 0⟩
    | .e3m2 | .e2m3 | .e2m1 => ⟨0, flagInv⟩
    | _ => ⟨nanResult f neg pay bits, 0⟩
  | .inf neg => if f.hasInf then ⟨f.signed neg f.infCode, 0⟩ else ⟨f.signed neg f.maxCode, flagInv⟩
  | .fin neg n ex st => if f.tapered then roundTaper f rm neg n ex st else roundFin f rm ftz neg n ex st

/-! ### Destination modifiers (R33) -/

/-- The SCL field as the exponent k it adds (R33). -/
def scaleOf (scl : BitVec 3) : Int := scl.toInt

/-- A value times 2^k. -/
def Val.scale (k : Int) : Val → Val
  | .fin s n e t => .fin s n (e + k) t
  | v => v

/-- The code of 1.0. -/
def Fm.one (f : Fm) : Nat :=
  match f with
  | .t8 => 0x40
  | .t6 => 0x10
  | _ => f.bias * 2 ^ f.fb

/-- The clamps of R33 on a rounded code. -/
def clampCode (f : Fm) (clp : BitVec 2) (c : Nat) : Nat :=
  let v := f.decode c
  let m := c % f.signBit
  match clp.toNat with
  | 1 => if v.isNan || decide (f.signBit ≤ c) then 0 else if f.one < m then f.one else c
  | 2 => if v.isNan then 0 else if f.one < m then f.signed v.neg f.one else c
  | 3 => if v.isInf then f.signed v.neg f.maxCode else c
  | _ => c

/-- write_dst of R38 for a float result: scale, one rounding, clamp. `.sat` into E5M2 acts in the same way (R131). -/
def writeFloat (f : Fm) (rm : Rm) (ftz : Bool) (clp : BitVec 2) (scl : BitVec 3) (v : Val) : Rounded :=
  let r := roundVal f rm ftz (Val.scale (scaleOf scl) v)
  ⟨clampCode f clp r.code, r.flags⟩

/-- sat of R38: an exact integer clamped to w bits of a signedness. -/
def satInt (x : Int) (w : Nat) (signed : Bool) : Int :=
  let lo : Int := if signed then -(2 ^ (w - 1)) else 0
  let hi : Int := if signed then 2 ^ (w - 1) - 1 else 2 ^ w - 1
  if x < lo then lo else if hi < x then hi else x

/-! ### Arithmetic with special operands (R115, R118, R119) -/

/-- The first NaN of a list of sources, in slot order (R115). -/
def firstNan : List Val → Option Val
  | [] => none
  | v :: vs => if v.isNan then some v else firstNan vs

/-- A result before rounding and the flags that forming it raised. -/
structure Exact where
  val : Val
  flags : FpFlags
deriving DecidableEq, Repr

/-- An invalid operation on operands that are no NaN (R115). -/
def Exact.invalid : Exact := ⟨.canonical, flagInv⟩

/-- The shared head of R118: signalling sources raise invalid, the first NaN source is the result. -/
def withNans (srcs : List Val) (k : Exact) : Exact :=
  let sig : FpFlags := if srcs.any Val.isSig then flagInv else 0
  match firstNan srcs with
  | some v => ⟨v, sig⟩
  | none => k

/-- Exact sum of two values that are no NaN; a zero sum of opposite signs is −0 only under .rdn (R113, R119). -/
def sumVal (rm : Rm) (a b : Val) : Exact :=
  match a, b with
  | .inf s, .inf t => if s = t then ⟨.inf s, 0⟩ else .invalid
  | .inf s, _ => ⟨.inf s, 0⟩
  | _, .inf t => ⟨.inf t, 0⟩
  | _, _ =>
    let z := if a.isZero && b.isZero && a.neg == b.neg then a.neg else rm == .rdn
    ⟨(Dy.add a.dy b.dy).val z, 0⟩

/-- Exact product of two values that are no NaN (R113, R119). -/
def mulVal (a b : Val) : Exact :=
  let s := a.neg != b.neg
  if a.isInf || b.isInf then if a.isZero || b.isZero then .invalid else ⟨.inf s, 0⟩
  else
    let d := Dy.mul a.dy b.dy
    ⟨.fin s d.n.natAbs d.ex false, 0⟩

/-- FADD (R118). -/
def fpAdd (rm : Rm) (a b : Val) : Exact := withNans [a, b] (sumVal rm a b)

/-- FSUB (R118). -/
def fpSub (rm : Rm) (a b : Val) : Exact := withNans [a, b] (sumVal rm a b.flip)

/-- FMUL (R118). -/
def fpMul (a b : Val) : Exact := withNans [a, b] (mulVal a b)

/-- FFMA: 0 x ∞ raises invalid even beside a quiet NaN addend, whose NaN is the result (R119). -/
def fpFma (rm : Rm) (a b c : Val) : Exact :=
  let p := mulVal a b
  if !a.isNan && !b.isNan && p.val.isNan then
    if c.isNan then ⟨c, flagInv⟩ else .invalid
  else withNans [a, b, c] (sumVal rm p.val c)

/-- FDIV (R118, R119). -/
def fpDiv (a b : Val) : Exact :=
  let s := a.neg != b.neg
  withNans [a, b] <|
    if a.isInf then if b.isInf then .invalid else ⟨.inf s, 0⟩
    else if b.isInf then ⟨.zero s, 0⟩
    else if b.isZero then if a.isZero then .invalid else ⟨.inf s, flagDz⟩
    else if a.isZero then ⟨.zero s, 0⟩
    else ⟨quotient s a.dy b.dy, 0⟩

/-- FSQRT (R118, R119). -/
def fpSqrt (a : Val) : Exact :=
  withNans [a] <|
    if a.isZero then ⟨a, 0⟩
    else if a.neg then .invalid
    else if a.isInf then ⟨a, 0⟩
    else ⟨rootVal a.dy, 0⟩

/-- An exact result written to a format: its flags joined with those of the rounding (R118). -/
def Exact.write (x : Exact) (f : Fm) (rm : Rm) (ftz : Bool) (clp : BitVec 2) (scl : BitVec 3) : Rounded :=
  let r := writeFloat f rm ftz clp scl x.val
  ⟨r.code, x.flags ||| r.flags⟩

/-! ### Integral rounding (R125, R133) -/

/-- A finite value rounded to an integer under a mode, with whether it changed. -/
def roundIntegral (rm : Rm) (neg : Bool) (n : Nat) (ex : Int) (st : Bool) : Nat × Bool := roundGrid rm neg n ex st 0

/-- F2I of R133: the integer and the flags. -/
def toInt (rm : Rm) (w : Nat) (signed sat : Bool) (v : Val) : Int × FpFlags :=
  match v with
  | .nan .. => (0, flagInv)
  | .inf neg =>
    let y := satInt (if neg then -(2 ^ 65) else 2 ^ 65) w signed
    (y, if sat then 0 else flagInv)
  | .fin neg n ex st =>
    let r := roundIntegral rm neg n ex st
    let y : Int := if neg then -(r.1 : Int) else r.1
    let z := satInt y w signed
    if z ≠ y then (z, if sat then 0 else flagInv) else (y, if r.2 then flagInx else 0)

/-! ### S20 scales (R325, R189, R343) -/

/-- An S20 code's value: the binary32 value of the code shifted left by 12. -/
def s20Val (c : Nat) : Val := decodeFp .f32 ((c % 2 ^ 20) * 2 ^ 12)

/-- A value rounded into S20, to nearest even on the 11-bit fraction, saturating (R325). -/
def s20Round (v : Val) : Nat :=
  match v with
  | .nan .. => 0x7FC00
  | .inf neg => if neg then 0xFF800 else 0x7F800
  | .fin neg n ex st =>
    if n = 0 && !st then (if neg then 0x80000 else 0)
    else
      let e : Int := if n = 0 then -200 else (Nat.log2 n : Int) + ex
      let g : Int := max (e - 11) (-137)
      let q := (roundGrid .rne neg n ex st g).1
      let mag := if g = -137 then q else
        let q' := if q = 2 ^ 12 then q / 2 else q
        let g' := if q = 2 ^ 12 then g + 1 else g
        (g' + 11 + 127).toNat * 2 ^ 11 + (q' - 2 ^ 11)
      let mag := min mag 0x7F7FF
      if neg then 0x80000 + mag else mag

/-- The smallest S20 value at or above amax / maxfinite(f); 1.0 when amax is 0; the largest S20 value when the quotient
exceeds it (R189, R343). amax is the magnitude n x 2^ex. -/
def s20Up (f : Fm) (amax : Dy) : Nat :=
  if amax.n = 0 then 0x3F800
  else
    let top := (f.decode f.maxCode).dy
    match quotient false amax top with
    | .fin _ n ex st =>
      let e : Int := if n = 0 then -200 else (Nat.log2 n : Int) + ex
      let g : Int := max (e - 11) (-137)
      let q := (roundGrid .rup false n ex st g).1
      let mag := if g = -137 then q else
        let q' := if q = 2 ^ 12 then q / 2 else q
        let g' := if q = 2 ^ 12 then g + 1 else g
        (g' + 11 + 127).toNat * 2 ^ 11 + (q' - 2 ^ 11)
      min mag 0x7F7FF
    | _ => 0x7F7FF

end Sys2Proof.Machine
end

