-- ==== Sys2Proof/Syntax.lean ====
section
/-! DEFINITION. Syntax: the decoded fields of an LNI instruction (R16 to R36) and the one inductive `Instr`, a constructor
for every row of spec/opcode_table.json: first the instructions of the native set, then the hardware's own steps. -/

namespace Sys2Proof

/-- The six word formats of R20. -/
inductive Form where
  | A | B | C | D | E | F
deriving DecidableEq, Repr

/-- Bits of the format (R16): 64, 96 or 128. -/
def Form.bits : Form → Nat
  | .A | .B => 64
  | .C | .D => 96
  | .E | .F => 128

/-- Bytes of an instruction of the format. -/
def Form.bytes (f : Form) : Nat := f.bits / 8

/-- An operand field (R22): its tier with the 8-bit index. What an index names depends on the slot's class (R25). -/
inductive Opnd where
  /-- tier 0b00: main file, or the registers of the slot's class -/
  | main (idx : BitVec 8)
  /-- tier 0b01: operand file -/
  | file (idx : BitVec 8)
  /-- tier 0b10: last-result file -/
  | last (idx : BitVec 8)
  /-- tier 0b11: uniform registers, integers and float constants (R23) -/
  | special (idx : BitVec 8)
deriving DecidableEq, Repr

/-- A source: operand field, last-read bit (R28) and modifier field. In format A bit 0 of the modifier is NGx and bit 1
is ABx (R20, R34). -/
structure Src where
  opnd : Opnd
  lastRead : Bool
  modf : BitVec 12
deriving DecidableEq, Repr

/-- Everything an LNI instruction word carries beside its opcode (R19, R20). Fields that a format lacks are zero. -/
structure Ops where
  form : Form
  /-- GN, guard negate -/
  gn : Bool
  /-- GP, guard predicate; 15 means always -/
  gp : BitVec 4
  /-- LA, lookahead (R30) -/
  la : BitVec 4
  dst : Opnd
  a : Src
  b : Src
  c : Src
  sub : BitVec 7
  clp : BitVec 2
  scl : BitVec 3
  /-- IMM32 (low half) in format D, IMM64 in format F -/
  imm : DWord
deriving DecidableEq, Repr

/-- The privilege levels of R9. -/
inductive Level where
  | user | supervisor | host | firmware
deriving DecidableEq, Repr

/-- A physical core of a device (R226). -/
structure CoreRef where
  dev : Nat
  core : Nat
deriving DecidableEq, Repr

/-- A gang: the chip's key (guest x 1,024 + chip number), the task's key (handle x 2^24 + task number) and %gang. -/
structure GangRef where
  chip : Nat
  task : Nat
  gang : Nat
deriving DecidableEq, Repr

/-- What the host answers to an ATS or PRI request (R286). -/
inductive HostAnswer where
  | mapped (frame : Nat) (r w x : Bool)
  | failed
deriving DecidableEq, Repr

/-- How a host AtomicOp reaches a word (R312): as one unit, or its read and its write apart; each with the request's T bit over the chip's own IDE
stream (R419). -/
inductive HostAtomicPhase where
  | whole (tbit : Bool)
  | readHalf (tbit : Bool)
  | writeHalf (tbit : Bool)
deriving DecidableEq, Repr

/-- The T bit of a request. -/
def HostAtomicPhase.tbit : HostAtomicPhase → Bool
  | .whole t => t
  | .readHalf t => t
  | .writeHalf t => t

/-- Where a host write lands (R312, R286): in a chip's memory, with the request's T bit over the chip's own IDE stream (R419), or in the host half. -/
inductive HostTarget where
  | chip (chip : Nat) (tbit : Bool)
  | hostHalf
deriving DecidableEq, Repr

/-- Whose register a register write names: a chip's own, with the request's T bit where it comes from outside (R419); one of the device; or VF
Enable of the device's PF 0 (R436). -/
inductive RegPlace where
  | chip (chip : Nat) (tbit : Bool)
  | device (dev : Nat)
  | vfEnable (dev : Nat)
deriving DecidableEq, Repr

/-- Outcome of verifying an unlock token (R417, R420). -/
inductive TokenVerdict where
  | accepted | badSignature | otherDevice
deriving DecidableEq, Repr

/-- One constructor for each row of the opcode table. -/
inductive Instr where
  /-- FILL_WORD (R16). A 32-bit fill word is consumed by fetch without an issue slot and has no effect. -/
  | fillWord
  /-- IADD (R87). Adds two integer sources per active lane, wrapping or saturating under .sat. -/
  | iadd (x : Ops)
  /-- ISUB (R87). Subtracts integer source B from source A per active lane. -/
  | isub (x : Ops)
  /-- IADDC (R88). Adds with carry in from and carry out to a predicate register. -/
  | iaddc (x : Ops)
  /-- IMUL (R87). Multiplies integers, keeping the low, high or wide part of the product. -/
  | imul (x : Ops)
  /-- IMIN (R87). Writes the signed or unsigned minimum of two integer sources. -/
  | imin (x : Ops)
  /-- IMAX (R87). Writes the signed or unsigned maximum of two integer sources. -/
  | imax (x : Ops)
  /-- IABS (R87). Writes the absolute value of a signed integer source. -/
  | iabs (x : Ops)
  /-- IMAD (R87). Multiplies two integers and adds a third, in the low, high or wide variant. -/
  | imad (x : Ops)
  /-- SHL (R90). Shifts a source left by an unsigned 32-bit amount. -/
  | shl (x : Ops)
  /-- SHR (R90). Shifts a source right, logically or arithmetically. -/
  | shr (x : Ops)
  /-- ROT (R90). Rotates a source left by the amount modulo its width. -/
  | rot (x : Ops)
  /-- AND (R89). Writes the bitwise AND of two sources. -/
  | and (x : Ops)
  /-- OR (R89). Writes the bitwise OR of two sources. -/
  | or (x : Ops)
  /-- XOR (R89). Writes the bitwise XOR of two sources. -/
  | xor (x : Ops)
  /-- NOT (R89). Writes the bitwise complement of a source. -/
  | not (x : Ops)
  /-- POPC (R90). Writes the number of set bits of a source. -/
  | popc (x : Ops)
  /-- CLZ (R90). Writes the number of leading zero bits of a source. -/
  | clz (x : Ops)
  /-- CTZ (R90). Writes the number of trailing zero bits of a source. -/
  | ctz (x : Ops)
  /-- BREV (R90). Writes a source with its bits reversed across its width. -/
  | brev (x : Ops)
  /-- BFE (R91). Extracts a bit field given by position and length, sign- or zero-extended. -/
  | bfe (x : Ops)
  /-- BFI (R91). Inserts the low bits of B into a bit field of A. -/
  | bfi (x : Ops)
  /-- BTERN_TABLE_BIT7_CLEAR (R92). Bitwise ternary function of three sources by an 8-bit table whose bit 7 is 0 (opcode 0x01E). -/
  | bternTableBit7Clear (x : Ops)
  /-- BTERN_TABLE_BIT7_SET (R92). Bitwise ternary function of three sources by an 8-bit table whose bit 7 is 1 (opcode 0x01F). -/
  | bternTableBit7Set (x : Ops)
  /-- ICMP (R93). Compares two integers and writes the result to a predicate per active lane. -/
  | icmp (x : Ops)
  /-- ISEL (R93). Selects A or B per lane by a predicate. -/
  | isel (x : Ops)
  /-- LEA (R93). Forms a 64-bit address as base plus a shifted extended index. -/
  | lea (x : Ops)
  /-- MOV (R93). Copies a vector source to the destination. -/
  | mov (x : Ops)
  /-- MOVI (R94). Writes an immediate or constant to the destination. -/
  | movi (x : Ops)
  /-- MOVU (R93). Broadcasts a uniform register to every active lane. -/
  | movu (x : Ops)
  /-- ICVT (R93). Converts an integer between types, wrapping or saturating. -/
  | icvt (x : Ops)
  /-- MOVS (R95). Reads or writes a special register such as %fpctl, %fpflag, %mflag or %mode. -/
  | movs (x : Ops)
  /-- PSET (R97). Sets a predicate from whether a source is non-zero. -/
  | pset (x : Ops)
  /-- PLOP (R97). Combines two predicates by AND, OR or XOR with optional inversion. -/
  | plop (x : Ops)
  /-- PMOV (R97). Moves the predicate set to or from a vector register. -/
  | pmov (x : Ops)
  /-- SADD (R98). Adds two uniform values once per bundle. -/
  | sadd (x : Ops)
  /-- SMUL (R98). Multiplies two uniform values once per bundle. -/
  | smul (x : Ops)
  /-- SMOV (R98). Copies a uniform value once per bundle. -/
  | smov (x : Ops)
  /-- SLD (R99). Loads 8 bytes into a uniform register as the lowest active lane's LD.n64. -/
  | sld (x : Ops)
  /-- SCMP (R98). Compares two uniform values and writes a predicate in every active lane. -/
  | scmp (x : Ops)
  /-- BRA (R101). Branches each active lane to a PC-relative target. -/
  | bra (x : Ops)
  /-- CALL (R101). Branches and writes the return address into a register pair. -/
  | call (x : Ops)
  /-- BRX (R101). Branches to the address held in a register pair. -/
  | brx (x : Ops)
  /-- RET (R101). Returns to the address held in a register pair. -/
  | ret (x : Ops)
  /-- EXIT (R103). Ends each active lane once its outstanding results are written. -/
  | exit (x : Ops)
  /-- YIELD (R104). Marks the gang as last choice at the next active-set choice. -/
  | yield (x : Ops)
  /-- NOP (R104). Does nothing. -/
  | nop (x : Ops)
  /-- SHFL (R107). Delivers to each active lane the value of a chosen source lane. -/
  | shfl (x : Ops)
  /-- VOTE (R108). Writes any, all or ballot of a predicate over the active lanes. -/
  | vote (x : Ops)
  /-- MATCH (R108). Writes masks of active lanes holding equal values. -/
  | matchLanes (x : Ops)
  /-- LREDUX (R108). Writes the reduction of a source over the active lanes. -/
  | lredux (x : Ops)
  /-- LPRFX (R108). Writes the inclusive or exclusive running reduction over active lanes. -/
  | lprfx (x : Ops)
  /-- ELECT (R108). Sets a predicate true in the lowest active lane only. -/
  | elect (x : Ops)
  /-- UNIASSERT (R108). Faults NONUNIFORM when a value differs across active lanes. -/
  | uniassert (x : Ops)
  /-- FADD (R118). Adds two floats with one rounding. -/
  | fadd (x : Ops)
  /-- FSUB (R118). Subtracts two floats with one rounding. -/
  | fsub (x : Ops)
  /-- FMUL (R118). Multiplies two floats with one rounding. -/
  | fmul (x : Ops)
  /-- FFMA (R118). Fused multiply-add at any type and rounding mode (opcode 0x098). -/
  | ffma (x : Ops)
  /-- FFMA_F64_SHORT (R118). Binary64 fused multiply-add with round to nearest even in the 64-bit short form (opcode 0x09C). -/
  | ffmaF64Short (x : Ops)
  /-- FDIV (R118). Correctly rounded long-latency float division. -/
  | fdiv (x : Ops)
  /-- FSQRT (R118). Correctly rounded long-latency square root. -/
  | fsqrt (x : Ops)
  /-- FMIN (R120). Writes the IEEE minimum or minimumNumber of two floats. -/
  | fmin (x : Ops)
  /-- FMAX (R120). Writes the IEEE maximum or maximumNumber of two floats. -/
  | fmax (x : Ops)
  /-- FRCP (R121). Approximate reciprocal. -/
  | frcp (x : Ops)
  /-- FRSQ (R121). Approximate reciprocal square root. -/
  | frsq (x : Ops)
  /-- FEX2 (R121). Approximate base-2 exponential. -/
  | fex2 (x : Ops)
  /-- FLG2 (R121). Approximate base-2 logarithm. -/
  | flg2 (x : Ops)
  /-- FSIN (R121). Approximate sine in radians. -/
  | fsin (x : Ops)
  /-- FCOS (R121). Approximate cosine in radians. -/
  | fcos (x : Ops)
  /-- FCMP (R123). Compares two floats and writes a predicate. -/
  | fcmp (x : Ops)
  /-- FCLASS (R124). Writes a one-hot class mask of a float encoding. -/
  | fclass (x : Ops)
  /-- FRND (R125). Rounds a float to an integral value in its own format. -/
  | frnd (x : Ops)
  /-- FGETEXP (R126). Writes the unbiased exponent of a float as an integer. -/
  | fgetexp (x : Ops)
  /-- FLDEXP (R127). Scales a float by a power of two. -/
  | fldexp (x : Ops)
  /-- FCPYS (R128). Copies a float with the sign of another. -/
  | fcpys (x : Ops)
  /-- FCVT (R130). Converts between float, narrow and tapered formats. -/
  | fcvt (x : Ops)
  /-- F2I (R133). Converts a float to an integer type. -/
  | f2i (x : Ops)
  /-- I2F (R134). Converts an integer to a float format. -/
  | i2f (x : Ops)
  /-- FSTAT (R137). Writes the mask of active lanes with chosen flags set, optionally clearing them. -/
  | fstat (x : Ops)
  /-- PKADD (R135). Adds packed pairs of 16-bit floats. -/
  | pkadd (x : Ops)
  /-- PKFMA (R135). Fused multiply-add on packed pairs of 16-bit floats. -/
  | pkfma (x : Ops)
  /-- DOT4 (R136). Adds four products of 8-bit elements to c with one rounding. -/
  | dot4 (x : Ops)
  /-- DOT2 (R136). Adds two products of 16-bit elements to c with one rounding. -/
  | dot2 (x : Ops)
  /-- LD (R145). Loads from a generic address per active lane, all or nothing. -/
  | ld (x : Ops)
  /-- LDS (R145). Loads from a scratchpad offset. -/
  | lds (x : Ops)
  /-- LDC (R145). Loads from the launch image through extent slot 0. -/
  | ldc (x : Ops)
  /-- ST (R145). Stores to a generic address per active lane, all or nothing. -/
  | st (x : Ops)
  /-- STS (R145). Stores to a scratchpad offset. -/
  | sts (x : Ops)
  /-- LDF (R148). Waits for full scratchpad words, reads them and marks them empty unless .keep. -/
  | ldf (x : Ops)
  /-- STF (R148). Writes scratchpad words and marks them full. -/
  | stf (x : Ops)
  /-- TESTF (R148). Writes a word's full/empty bit to a predicate. -/
  | testf (x : Ops)
  /-- ATOM (R152). Atomic read-modify-write at the home for every operation but compare-and-swap (opcode 0x108). -/
  | atom (x : Ops)
  /-- ATOM_CAS (R152). Atomic compare-and-swap of 32, 64 or 128 bits (opcode 0x109). -/
  | atomCas (x : Ops)
  /-- RED (R152). Atomic reduction that returns no value. -/
  | red (x : Ops)
  /-- FENCE (R153). Acquire, release or both at a named scope entry. -/
  | fence (x : Ops)
  /-- IFENCE (R154). Makes earlier stores to code visible to the gang's later fetches. -/
  | ifence (x : Ops)
  /-- AWIN (R155). Converts between a generic address and a window offset. -/
  | awin (x : Ops)
  /-- ISSPACE (R155). Tests whether an address lies in a named space. -/
  | isspace (x : Ops)
  /-- PREF (R156). Prefetch hint into L2 or L1 with no architectural effect. -/
  | pref (x : Ops)
  /-- BAR_INIT (R163). Initialises a barrier object. -/
  | barInit (x : Ops)
  /-- BAR_ARRIVE (R164). Arrives at a barrier with a count and hands each lane the phase token. -/
  | barArrive (x : Ops)
  /-- BAR_EXPECT (R164). Adds expected bytes to a barrier's BYTES. -/
  | barExpect (x : Ops)
  /-- BAR_WAIT (R163). Blocks until the barrier's phase differs from the token. -/
  | barWait (x : Ops)
  /-- BAR_TEST (R163). Writes whether the barrier's phase differs from the token. -/
  | barTest (x : Ops)
  /-- TLWAIT (R160). Blocks until a timeline counter reaches a value, then acquires. -/
  | tlwait (x : Ops)
  /-- TLREAD (R160). Reads a timeline counter into a uniform register. -/
  | tlread (x : Ops)
  /-- SCOPEW (R158). Writes a scope entry's membership from a descriptor and bumps its version. -/
  | scopew (x : Ops)
  /-- SCOPEBIND (R158). Binds the gang to a scope entry's current version. -/
  | scopebind (x : Ops)
  /-- SCOPEQ (R158). Reads a scope entry's state for the gang. -/
  | scopeq (x : Ops)
  /-- SCOPERET (R158). Empties a scope entry and bumps its version. -/
  | scoperet (x : Ops)
  /-- HMK (R166). Builds a tensor handle from a 256-byte descriptor. -/
  | hmk (x : Ops)
  /-- CPY (R168). Checks and queues an asynchronous tensor box copy. -/
  | cpy (x : Ops)
  /-- CPYG (R168). Checks and queues a gathered-row tensor copy. -/
  | cpyg (x : Ops)
  /-- WLD (R175). Queues a load of a compressed weight block into a weight-buffer slot. -/
  | wld (x : Ops)
  /-- WSEL (R177). Queues the latch of a weight slot into the array. -/
  | wsel (x : Ops)
  /-- MMA (R180). Checks and queues a matrix multiply-accumulate command. -/
  | mma (x : Ops)
  /-- MMAM (R180). Checks and queues a moment matrix multiply into a pair tile. -/
  | mmam (x : Ops)
  /-- ACLR (R184). Queues the clearing of accumulator tiles. -/
  | aclr (x : Ops)
  /-- ADRN (R186). Checks and queues a drain of accumulator tiles. -/
  | adrn (x : Ops)
  /-- EPLD (R185). Queues the loading of an epilogue program. -/
  | epld (x : Ops)
  /-- MSAVE (R192). Stops the array and writes its save image. -/
  | msave (x : Ops)
  /-- MRES (R194). Checks a save image and resumes the array from it. -/
  | mres (x : Ops)
  /-- QNT (R195). Checks and queues a quantiser command on the die's quantiser. -/
  | qnt (x : Ops)
  /-- QWAIT (R197). Blocks until earlier quantiser or matrix commands complete. -/
  | qwait (x : Ops)
  /-- MLD (R203). Loads moment pairs into a moment register. -/
  | mld (x : Ops)
  /-- MST (R203). Stores a moment register as MP32 or MP16 pairs. -/
  | mst (x : Ops)
  /-- MSET (R203). Sets a moment register from a mean and a variance. -/
  | mset (x : Ops)
  /-- MMOV (R203). Copies a moment register. -/
  | mmov (x : Ops)
  /-- MADD (R201). Adds two moments under a covariance mode. -/
  | madd (x : Ops)
  /-- MSUB (R201). Subtracts two moments under a covariance mode. -/
  | msub (x : Ops)
  /-- MMUL (R201). Multiplies two moments under a covariance mode. -/
  | mmul (x : Ops)
  /-- MSCL (R201). Scales a moment by a float. -/
  | mscl (x : Ops)
  /-- MFMA (R201). Moment multiply followed by a moment add, each rounded. -/
  | mfma (x : Ops)
  /-- MRELU (R202). Moment-matched ReLU. -/
  | mrelu (x : Ops)
  /-- MEXP (R202). Moment-matched exponential. -/
  | mexp (x : Ops)
  /-- MSIGM (R202). Moment-matched sigmoid. -/
  | msigm (x : Ops)
  /-- MTANH (R202). Moment-matched hyperbolic tangent. -/
  | mtanh (x : Ops)
  /-- MRCP (R202). Moment-matched reciprocal. -/
  | mrcp (x : Ops)
  /-- MCOL (R204). Collapses a moment to a float by mean, variance, deviation, bound or sample. -/
  | mcol (x : Ops)
  /-- TST (R209). Tidal store to a pod address, applied at the target's turn. -/
  | tst (x : Ops)
  /-- TRED (R209). Tidal reduction to a pod address, applied at the target's turn. -/
  | tred (x : Ops)
  /-- TIDE_CLOSE (R211). Closes the chip's open tide and sends close counts to peers. -/
  | tideClose (x : Ops)
  /-- TIDE_WAIT (R212). Blocks until the chip's tide counter passes n, then acquires. -/
  | tideWait (x : Ops)
  /-- TIDE_QUERY (R213). Reads the tide status, optionally clearing SATW and CONF. -/
  | tideQuery (x : Ops)
  /-- RLD (R214). Issues a long-latency remote load from another chip's region. -/
  | rld (x : Ops)
  /-- RATOM (R215). Issues combined mailbox atomics to another chip. -/
  | ratom (x : Ops)
  /-- SEND (R218). Checks a send descriptor and queues a tagged message. -/
  | send (x : Ops)
  /-- ARM (R220). Copies a launch record into a tag's arm table entry. -/
  | arm (x : Ops)
  /-- DISARM (R220). Clears a tag's arm table entry. -/
  | disarm (x : Ops)
  /-- LAUNCH (R222). Places a copy of a launch record in a queue of the issuing chip. -/
  | launch (x : Ops)
  /-- HINT (R223). Gives the scheduler a hint with no architectural effect. -/
  | hint (x : Ops)
  /-- TRAP (R224). Takes the USER_TRAP fault with a code. -/
  | trap (x : Ops)
  /-- TRET (R401). Ends the trap handler once all threads issue it and resumes from the frame. -/
  | tret (x : Ops)
  /-- CSAVE (R224). Writes the gang's state to a gang image. -/
  | csave (x : Ops)
  /-- CREST (R224). Restores a gang image and continues at its address. -/
  | crest (x : Ops)
  /-- SYSR (R225). Reads a system register by index. -/
  | sysr (x : Ops)
  /-- SYSW (R225). Writes a system register by index. -/
  | sysw (x : Ops)
  /-- CAP (R227). Returns a capability list entry's head by identifier or position. -/
  | cap (x : Ops)
  /-- HALT (R228). Stops issue in every subcore and the control core of the core. -/
  | halt (x : Ops)
  /-- EVQ_POP (R229). Removes the oldest completion record from the core's event queue. -/
  | evqPop (x : Ops)
  /-- TREL (R229). Decrements a task's dependence hold count. -/
  | trel (x : Ops)
  /-- BYTE_ABS_DIFF_SUM (R421). Retired opcode 0x381 forwarded under C16 to the Lovage unit, summing byte absolute differences. -/
  | byteAbsDiffSum (x : Ops)
  /-- UNASSIGNED_OPCODE (R60). An instruction word with an unassigned or never-assigned opcode, or a malformed fill word, issues and takes ILLEGAL_ENCODING. -/
  | unassignedOpcode (w : Word)
  /-- RETIRED_OPERATION (R61). A retired opcode other than 0x381 under C16 is forwarded to the Lovage unit and refused with LEGACY_REJECT, or is ILLEGAL_ENCODING elsewhere. -/
  | retiredOperation (k : BitVec 6) (x : Ops)
  /-- RESULT_ARRIVAL (R44). A long-latency result arrives and is written to the name's current register or discarded. -/
  | resultArrival (g : GangRef) (k : Nat)
  /-- REGISTER_ALLOCATION (R46). A stalled allocation is made once a register is freed or a spill completes. -/
  | registerAllocation (g : GangRef) (lanes : LaneMask)
  /-- SPILL_COMPLETE (R47). A spill finishes and its registers return to the pool. -/
  | spillComplete (g : GangRef)
  /-- GANG_REFILL (R47). A spilled gang is refilled in full once the pool can hold its registers. -/
  | gangRefill (g : GangRef)
  /-- BUNDLE_REFORMATION (R235). Every fourth die cycle the subcore re-forms each gang's bundles and its active set. -/
  | bundleReformation (core : CoreRef) (sub : Nat)
  /-- LDF_WAIT_END (R148). A waiting LDF finds all its words full, reads them and empties them. -/
  | ldfWaitEnd (g : GangRef) (lanes : LaneMask)
  /-- BAR_WAIT_END (R163). A blocked BAR.WAIT returns when the phase differs from its token. -/
  | barWaitEnd (g : GangRef) (lanes : LaneMask)
  /-- TLWAIT_END (R160). A blocked TLWAIT returns when its counter reaches the value. -/
  | tlwaitEnd (g : GangRef) (lanes : LaneMask)
  /-- QWAIT_END (R197). A blocked QWAIT returns when the awaited commands have completed. -/
  | qwaitEnd (g : GangRef) (lanes : LaneMask)
  /-- TIDE_WAIT_END (R212). A blocked TIDE.WAIT returns once the turn completes. -/
  | tideWaitEnd (g : GangRef) (lanes : LaneMask)
  /-- TIDE_CLOSE_UNBLOCK (R211). A blocked TIDE.CLOSE of C+1 closes its tide once the counter reaches it. -/
  | tideCloseUnblock (g : GangRef) (lanes : LaneMask)
  /-- MSAVE_DONE (R192). The array reaches its stop point and MSAVE writes the image and unblocks. -/
  | msaveDone (g : GangRef) (lanes : LaneMask)
  /-- MRES_DONE (R194). MRES finishes its wait and restores the array from the image. -/
  | mresDone (g : GangRef) (lanes : LaneMask)
  /-- COPY_START (R170). A queued copy begins reading its source bytes. -/
  | copyStart (core : CoreRef) (k : Nat)
  /-- COPY_BYTE_LANDING (R170). Copied bytes land and counted bytes are subtracted from the barrier's BYTES. -/
  | copyByteLanding (core : CoreRef) (k : Nat) (n : Nat)
  /-- COPY_FOLLOW_ON_ENTRY (R170). A copy's follow-on matrix command enters the matrix queue when it can. -/
  | copyFollowOnEntry (core : CoreRef) (k : Nat)
  /-- COPY_COMPLETE (R170). Every byte of a copy is visible and its counter advances. -/
  | copyComplete (core : CoreRef) (k : Nat)
  /-- WLD_EXECUTE (R175). A queued WLD checks its block and copies it into the weight buffer. -/
  | wldExecute (core : CoreRef)
  /-- WSEL_LATCH (R177). A queued WSEL decompresses a slot into the array and latches its format. -/
  | wselLatch (core : CoreRef)
  /-- MMA_PASS (R181). A queued MMA or MMAM runs its passes into the accumulator tiles. -/
  | mmaPass (core : CoreRef)
  /-- ACLR_EXECUTE (R184). A queued ACLR zeroes its tiles. -/
  | aclrExecute (core : CoreRef)
  /-- EPLD_LOAD (R185). A queued EPLD loads and checks the epilogue program. -/
  | epldLoad (core : CoreRef)
  /-- DRAIN (R187). A queued drain begins after earlier commands and stores tile rows, running the epilogue program. -/
  | drain (core : CoreRef)
  /-- MATRIX_COMMAND_COMPLETE (R161). A matrix command completes and advances its timeline counter. -/
  | matrixCommandComplete (core : CoreRef)
  /-- QNT_EXECUTE (R196). The die's quantiser starts the next queued QNT command. -/
  | qntExecute (dev : Nat) (die : Nat)
  /-- QNT_COMPLETE (R342). A quantiser command finishes and advances its counter, saved or live. -/
  | qntComplete (dev : Nat) (die : Nat)
  /-- LOVAGE_SERVICE (R431). The Lovage unit serves one queued retired operation and returns or rejects it. -/
  | lovageService (dev : Nat) (die : Nat)
  /-- TASK_DISPATCH (R243). The scheduler dispatches a task to a core where it fits, after any scrub. -/
  | taskDispatch (chip : Nat) (handle : Nat) (task : Nat) (core : CoreRef) (base : Nat) (priv : Nat)
  /-- TASK_RETIRE (R245). A task retires once its gangs and engine work are done, freeing its state. -/
  | taskRetire (chip : Nat) (task : Nat)
  /-- TASK_MIGRATION (R252). The scheduler moves a whole task between cores. -/
  | taskMigration (chip : Nat) (task : Nat) (core : CoreRef) (base : Nat)
  /-- SLICE_EXPIRY (R267). A context's slice ends and its tasks are pre-empted at instruction boundaries. -/
  | sliceExpiry (chip : Nat)
  /-- TASK_RESUME (R394). A pre-empted task is placed again and resumed from its saved state. -/
  | taskResume (chip : Nat) (task : Nat) (core : CoreRef) (base : Nat)
  /-- ARRIVAL_HINT_RECEIVE (R268). A device receives a co-scheduling hint and may move its chip's turn. -/
  | arrivalHintReceive (dev : Nat) (chip : Nat) (peer : Nat)
  /-- HINT_AGREEMENT_TIMEOUT (R268). Without agreement within 30,000 cycles each device starts its turn alone. -/
  | hintAgreementTimeout (dev : Nat) (chip : Nat)
  /-- WAIT_BUDGET_EXPIRY (R269). A waiting run reaches WBUDGET and the context is pre-empted with a snapshot. -/
  | waitBudgetExpiry (chip : Nat) (core : CoreRef)
  /-- QTAIL_WRITE (R257). A write of a queue's tail rings its doorbell. -/
  | qtailWrite (chip : Nat) (q : Nat) (value : Nat)
  /-- QUEUE_RESUME (R258). Writing RESUME takes a queue out of error. -/
  | queueResume (chip : Nat) (q : Nat)
  /-- LAUNCH_ACCEPTANCE (R254). A record reaching QHEAD is read, copied and checked, or rejected. -/
  | launchAcceptance (chip : Nat) (q : Nat)
  /-- LAUNCH_TRANSLATION (R261). A launch whose waits are met translates and leases its extents. -/
  | launchTranslation (chip : Nat) (handle : Nat)
  /-- XLFAULT_RETRY (R262). A supervisor write of 1 to XLFAULT retries a held translation. -/
  | xlfaultRetry (chip : Nat)
  /-- XLFAULT_ABORT (R262). A supervisor write of 2 to XLFAULT rejects the held launch with code 5. -/
  | xlfaultAbort (chip : Nat)
  /-- LT_WRITE (R260). A supervisor write to a launch timeline adds its value and removes the oldest gap. -/
  | ltWrite (chip : Nat) (n : Nat) (value : DWord)
  /-- EVENT_RECORD_POST (R263). A waiting completion record is posted to the core's event queue when room exists. -/
  | eventRecordPost (core : CoreRef) (chip : Nat)
  /-- CONTROL_ROUTINE_ENTRY (R265). The control core runs CCENTRY for a context with a non-empty event queue. -/
  | controlRoutineEntry (core : CoreRef) (chip : Nat)
  /-- CONTROL_CORE_LIMIT (R266). A routine exceeding 65,536 cycles stops control-core service for the context. -/
  | controlCoreLimit (core : CoreRef)
  /-- CCSTAT_WRITE (R266). Clearing CCSTAT bits acknowledges them and clearing STOP restarts service. -/
  | ccstatWrite (chip : Nat) (value : DWord)
  /-- CORES_WRITE (R391). A write of CORES schedules the chip on clusters or deschedules it with 0. -/
  | coresWrite (chip : Nat) (value : DWord)
  /-- GRANULE_MIGRATION (R288). The device starts moving an auto-tier granule between memories. -/
  | granuleMigration (chip : Nat) (granule : Nat) (tier : Nat)
  /-- GRANULE_MIGRATION_COMPLETE (R288). A granule move completes and waiting translations proceed. -/
  | granuleMigrationComplete (chip : Nat) (granule : Nat)
  /-- HOST_INVALIDATION (R286). A host invalidation arrives and completes only when any lease on the page ends. -/
  | hostInvalidation (chip : Nat) (page : Nat)
  /-- HOST_ATOMIC_OP (R312). A host AtomicOp is performed at the home according to the page's SYSA bit. -/
  | hostAtomicOp (chip : Nat) (addr : DWord) (op : Nat) (wide : Bool) (value cmp : DWord) (phase : HostAtomicPhase)
  /-- PACKET_DEPARTURE (R358). A packet leaves a fabric interface, translated through the guest's tables onto a plane. -/
  | packetDeparture (k : Nat)
  /-- SEND_OUTBOUND_ENTRY (R219). A SEND leaving the copy queue takes a place in the outbound store. -/
  | sendOutboundEntry (core : CoreRef) (k : Nat)
  /-- SEND_PAYLOAD_READ (R219). A message's payload is read into the outbound store and its counter advances. -/
  | sendPayloadRead (chip : Nat) (k : Nat)
  /-- MESSAGE_DELIVERY (R218). A message is written to its receive slot, or to the inbound log of a descheduled chip, then its flag. -/
  | messageDelivery (k : Nat)
  /-- FIRED_LAUNCH_PLACEMENT (R221). A waiting fired launch is placed once its queue is enabled with room. -/
  | firedLaunchPlacement (chip : Nat) (k : Nat)
  /-- INBOUND_LOG_CONSUME (R218). A chip that runs again consumes its inbound log in order. -/
  | inboundLogConsume (chip : Nat)
  /-- RLD_SERVE (R214). A target serves a remote load once its tide counter reaches the reader's. -/
  | rldServe (k : Nat)
  /-- MAILBOX_ATOMIC_ARRIVAL (R216). A combined mailbox atomic acts at the mailbox word's home. -/
  | mailboxAtomicArrival (k : Nat)
  /-- REMOTE_REPLY_ARRIVAL (R405). An RLD or RATOM reply is written to its result or to a saved pending entry. -/
  | remoteReplyArrival (k : Nat)
  /-- TIDAL_WRITE_ARRIVAL (R384). A tidal write is buffered in its tide's half at the target, or refused when full. -/
  | tidalWriteArrival (k : Nat)
  /-- CLOSE_RECORD_ARRIVAL (R378). A peer's close record with its count arrives at the chip's tide state. -/
  | closeRecordArrival (k : Nat)
  /-- TIDE_TURN (R378). With all closes and counts present the chip applies, flags and completes its turn. -/
  | tideTurn (chip : Nat)
  /-- SAMTAIL_WRITE (R360). A host write of SAMTAIL starts or extends a Samphire command image. -/
  | samtailWrite (dev : Nat) (value : DWord)
  /-- HOLD (R352). Samphire holds all fabric traffic of one guest and drains its packets in flight. -/
  | hold (dev : Nat)
  /-- XFER (R355). Samphire moves a descheduled chip and its state to a target device and slot. -/
  | xfer (dev : Nat)
  /-- WVCT (R354). Samphire writes a virtual chip table entry on every device of a held guest. -/
  | wvct (dev : Nat)
  /-- WRLT (R354). Samphire writes a route label table entry on every device of a held guest. -/
  | wrlt (dev : Nat)
  /-- RELEASE (R352). Samphire lets a held guest's waiting packets leave in order. -/
  | release (dev : Nat)
  /-- LINK_LANE_LOSS (R365). A link loses lanes and retrains, degrades or fails. -/
  | linkLaneLoss (dev : Nat) (plane : Nat) (lanes : Nat)
  /-- LINK_BUFFER_RETIRE (R365). A link retires receive buffer blocks after repeated soft errors. -/
  | linkBufferRetire (dev : Nat) (plane : Nat) (flits : Nat)
  /-- LINK_RETRAIN_COMPLETE (R365). Retraining restores eight lanes and the link returns to up. -/
  | linkRetrainComplete (dev : Nat) (plane : Nat)
  /-- LINK_REPAIR (R365). A repaired link returns to up and its plane is added back by a reverse remap. -/
  | linkRepair (dev : Nat) (plane : Nat)
  /-- MCSET_WRITE (R370). A host write of a multicast set takes effect only for a held guest. -/
  | mcsetWrite (dev : Nat) (n : Nat) (value : DWord)
  /-- GSEL_WRITE (R371). A write of GSEL selects guest and chip and clears ERR. -/
  | gselWrite (dev : Nat) (value : DWord)
  /-- MBXBASE_WRITE (R368). A write of a mailbox base is ignored with TRSTAT.ERR if it would overlap a tidal region. -/
  | mbxbaseWrite (chip : Nat) (n : Nat) (value : DWord)
  /-- MBXSIZE_WRITE (R368). A write of a mailbox size is ignored with TRSTAT.ERR if it would overlap a tidal region. -/
  | mbxsizeWrite (chip : Nat) (n : Nat) (value : DWord)
  /-- RXBASE_WRITE (R368). A write of a receive buffer base is checked against tidal regions. -/
  | rxbaseWrite (chip : Nat) (n : Nat) (value : DWord)
  /-- RXCTL_WRITE (R367). A write of RXCTL enables a tag, sets NSLOT or frees busy slots. -/
  | rxctlWrite (chip : Nat) (n : Nat) (value : DWord)
  /-- TRBASE_WRITE (R375). A staged write of a tidal region base, applied at the next turn. -/
  | trbaseWrite (chip : Nat) (n : Nat) (value : DWord)
  /-- TRWIN_WRITE (R375). A staged write of a tidal region window, applied at the next turn. -/
  | trwinWrite (chip : Nat) (n : Nat) (value : DWord)
  /-- TRCTL_WRITE (R376). A staged write of a tidal region's rule and type, refused when invalid. -/
  | trctlWrite (chip : Nat) (n : Nat) (value : DWord)
  /-- TRFLAG_WRITE (R375). A staged write of a tidal region's flag word address. -/
  | trflagWrite (chip : Nat) (n : Nat) (value : DWord)
  /-- TLOG_WRITE (R385). A host write of the tide log size, releasing held tidal packets on an increase. -/
  | tlogWrite (chip : Nat) (value : DWord)
  /-- MIGRATION_ENABLE (R390). Setting MIGCTL.EN reserves a staging slot and marks every page dirty. -/
  | migrationEnable (chip : Nat) (value : DWord)
  /-- MIGRATION_ROUND (R390). Writing ROUND snapshots the dirty set and copies those pages to staging. -/
  | migrationRound (chip : Nat)
  /-- MIGRATION_ROUND_COMPLETE (R390). A migration round finishes, updates MIGSTAT and interrupts the host. -/
  | migrationRoundComplete (chip : Nat)
  /-- MIGRATION_DISABLE (R390). Clearing MIGCTL.EN stops tracking and frees the staging copy. -/
  | migrationDisable (chip : Nat)
  /-- TRAP_ENTRY (R399). A faulting gang takes a frame, writes its record and image and enters the handler. -/
  | trapEntry (g : GangRef)
  /-- TRAP_HANDLER_ENABLE (R398). Writing TCTL.EN = 1 leases the handler code and frame area. -/
  | trapHandlerEnable (chip : Nat) (value : DWord)
  /-- TRAP_HANDLER_DISABLE (R398). Writing TCTL.EN = 0 ends the lease unless frames are in use. -/
  | trapHandlerDisable (chip : Nat)
  /-- FAULT_RECORD_DELIVERY (R402). A task-ending record is written to the fault queue once it has room. -/
  | faultRecordDelivery (chip : Nat)
  /-- FQHEAD_WRITE (R402). Advancing FQHEAD frees fault queue room for waiting records. -/
  | fqheadWrite (chip : Nat) (value : DWord)
  /-- GEN (R414). Key store command filling an empty slot from Ilcia's generator. -/
  | gen (dev : Nat) (cmd : DWord)
  /-- LOAD (R414). Key store command loading KEYDATA into an empty unprotected slot. -/
  | load (dev : Nat) (cmd : DWord)
  /-- ACTIVATE (R414). Key store command binding a provisioned slot and retiring its predecessor. -/
  | activate (dev : Nat) (cmd : DWord)
  /-- REVOKE (R415). Key store command revoking a slot and stopping the guest's interfaces. -/
  | revoke (dev : Nat) (cmd : DWord)
  /-- ERASE (R414). Key store command emptying a provisioned, drained retiring or revoked slot. -/
  | erase (dev : Nat) (cmd : DWord)
  /-- KEY_REENCRYPT_COMPLETE (R414). Background re-encryption under the new key finishes and DRAIN clears. -/
  | keyReencryptComplete (dev : Nat) (slot : Nat)
  /-- LINK_COUNTER_WARN (R416). A link packet counter reaches 2^47 and the supervisor is interrupted. -/
  | linkCounterWarn (dev : Nat) (slot : Nat)
  /-- LINK_COUNTER_EXHAUSTED (R416). A link packet counter reaches 2^48 and packets wait for a new key. -/
  | linkCounterExhausted (dev : Nat) (slot : Nat)
  /-- LOCK_INTERFACE (R418). TDISP request that begins protected creation of a chip. -/
  | lockInterface (dev : Nat) (slot : Nat)
  /-- PROTECTED_CREATION_COMMIT (R418). Keys are active and the quota zeroed, and the interface becomes CONFIG_LOCKED. -/
  | protectedCreationCommit (dev : Nat) (slot : Nat)
  /-- START_INTERFACE (R418). TDISP request moving a locked interface to RUN. -/
  | startInterface (dev : Nat) (slot : Nat)
  /-- STOP_INTERFACE (R418). TDISP request discarding the chip's state and returning to CONFIG_UNLOCKED. -/
  | stopInterface (dev : Nat) (slot : Nat)
  /-- TDISP_GET_VERSION (R418). TDISP request returning the supported version. -/
  | tdispGetVersion (dev : Nat) (slot : Nat)
  /-- TDISP_GET_CAPABILITIES (R418). TDISP request returning capabilities. -/
  | tdispGetCapabilities (dev : Nat) (slot : Nat)
  /-- GET_DEVICE_INTERFACE_REPORT (R418). TDISP request returning the interface report. -/
  | getDeviceInterfaceReport (dev : Nat) (slot : Nat)
  /-- GET_DEVICE_INTERFACE_STATE (R418). TDISP request returning the interface state. -/
  | getDeviceInterfaceState (dev : Nat) (slot : Nat)
  /-- CONFIGURATION_CHANGE (R418). A change to a locked VF's configuration moves its interface to ERROR. -/
  | configurationChange (dev : Nat) (slot : Nat)
  /-- FUNCTION_RESET (R418). A function reset moves the interface to ERROR and scrubs its cores. -/
  | functionReset (dev : Nat) (slot : Nat)
  /-- SPDM_GET_VERSION (R419). SPDM request returning versions. -/
  | spdmGetVersion (dev : Nat) (request : Nat)
  /-- SPDM_GET_CAPABILITIES (R419). SPDM request returning capabilities. -/
  | spdmGetCapabilities (dev : Nat) (request : Nat)
  /-- NEGOTIATE_ALGORITHMS (R419). SPDM request negotiating the algorithms. -/
  | negotiateAlgorithms (dev : Nat) (request : Nat)
  /-- GET_DIGESTS (R419). SPDM request returning certificate digests. -/
  | getDigests (dev : Nat) (request : Nat)
  /-- GET_CERTIFICATE (R419). SPDM request returning the identity certificate chain. -/
  | getCertificate (dev : Nat) (request : Nat)
  /-- CHALLENGE (R419). SPDM request returning a signed challenge response. -/
  | challenge (dev : Nat) (request : Nat)
  /-- GET_MEASUREMENTS (R419). SPDM request returning signed measurements. -/
  | getMeasurements (dev : Nat) (request : Nat)
  /-- KEY_EXCHANGE (R419). SPDM request starting a secure session. -/
  | keyExchange (dev : Nat) (request : Nat)
  /-- FINISH (R419). SPDM request completing a secure session. -/
  | finish (dev : Nat) (request : Nat)
  /-- DEBUG_UNLOCK_REQUEST (R420). A host write of DBGREQ submits an unlock token, refused during creation. -/
  | debugUnlockRequest (dev : Nat) (addr : DWord)
  /-- DEBUG_TOKEN_VERIFIED (R420). Verification of a submitted unlock token completes and DBGSTAT reports it. -/
  | debugTokenVerified (dev : Nat) (verdict : TokenVerdict)
  /-- CAPCTL_WRITE (R434). A write of a capability control enables or permits an expert control. -/
  | capctlWrite (chip : Nat) (n : Nat) (value : DWord) (level : Level)
  /-- DEVICE_RESET (R436). Reset leaves only BOOTSTAT, PART and SERIAL reachable and starts bring-up. -/
  | deviceReset (dev : Nat)
  /-- BRING_UP_STAGE (R437). Bring-up advances to its next stage, stops on error, or sets READY. -/
  | bringUpStage (dev : Nat) (err : Nat)
  /-- REGISTER_WRITE (R225). A write to a register with no behaviour of its own changes its RW fields. -/
  | registerWrite (place : RegPlace) (index : Nat) (value : DWord) (level : Level)
  /-- CORE_CLOCK_REDUCTION (R7). When arithmetic, fabric and DRAM draw together would pass 2,600 W, the module lowers the core clock. -/
  | coreClockReduction (dev : Nat) (draw : Nat)
  /-- HALTED_CORE_RESUME (R228). Ilcia resumes or resets a core that HALT stopped. -/
  | haltedCoreResume (core : CoreRef) (reset : Bool)
  /-- CHIP_CREATION (R306). A virtual chip or context is created with empty scope entries, a zero tide counter, TIBQ, TLOG and INLOG of 0, and a memory quota. -/
  | chipCreation (chip : Nat) (dev : Nat) (slot : Nat) (quota : Nat) (near : Nat)
  /-- CHIP_DESTRUCTION (R375). A virtual chip is destroyed, which ends its region leases. -/
  | chipDestruction (chip : Nat)
  /-- DELIVERY_ACKNOWLEDGEMENT (R363). A delivery acknowledgement arrives at the sender on VC CTL and marks a packet as received. -/
  | deliveryAcknowledgement (k : Nat)
  /-- ATS_PRI_RESPONSE (R286). The host answers an ATS translation or PRI page request, or fails it, for a held launch. -/
  | atsPriResponse (chip : Nat) (page : Nat) (answer : HostAnswer)
  /-- IDE_KM (R419). An IDE_KM request over SPDM programs the keys of a VF's selective IDE stream. -/
  | ideKm (dev : Nat) (slot : Nat)
  /-- POWER_UNGATE (R413). A unit that was power-gated during a protected context is ungated and written with zeros before any use. -/
  | powerUngate (core : CoreRef)
  /-- LINK_QUEUES_DRAINED (R414). Both ends' queues under a retiring LINK slot have drained, so the slot stops decrypting and DRAIN clears. -/
  | linkQueuesDrained (dev : Nat) (slot : Nat)
  /-- HOST_MEMORY_WRITE (R312). A host write through the host interface lands in device memory at its home under the owner's key and marks the page dirty. -/
  | hostMemoryWrite (place : HostTarget) (addr : DWord) (bytes : List Byte)
  /-- TURN_GIVEN_UP_EARLY (R267). A sliced context with no ready bundle and no dispatchable task gives up its turn before SLICE cycles have passed. -/
  | turnGivenUpEarly (chip : Nat)
deriving DecidableEq, Repr

end Sys2Proof
end

