-- ==== Sys2Proof/Machine/Forms.lean ====
section
/-! DEFINITION. The form of every LNI opcode: its number, lengths, marks, SUB codes and operand slots (R25, R32, R57 to R62, and the
encoding tables of each instruction chapter). Decoding, legality, reading and encoding all follow this one table. -/

namespace Sys2Proof.Machine

/-- Slot classes (R25); `pair` is an accumulator pair-tile slot. -/
inductive Cls where
  | V | P | S | M | A | pair | H | T
deriving DecidableEq, Repr

/-- Modifier kinds of a source slot (R32). -/
inductive Kind where
  | F | I | B | N
deriving DecidableEq, Repr

/-- The type a slot's constants and modifiers are read at (R23, R32): an integer of w bits, a float, or a packed pair. -/
inductive Ty where
  | int (w : Nat) (signed : Bool)
  | fp (f : Fm)
  | pk (f : Fm)
deriving DecidableEq, Repr

/-- An operand slot: its class, modifier kind, type, and the registers it occupies (1, 2 or 4; R24, R140); `uni` marks class U
(R36). -/
structure Slot where
  cls : Cls
  kind : Kind
  ty : Ty
  regs : Nat
  uni : Bool
deriving DecidableEq, Repr

/-- What an operand field holds. -/
inductive Use where
  /-- "—": the field with its modifier and last-read bits is zero (R26, R84) -/
  | none
  /-- a source; in the DST field a source slot SD (R26) -/
  | src (s : Slot)
  /-- a destination, in the DST field -/
  | dst (s : Slot)
  /-- a read-and-write slot DS (R150), in the DST field -/
  | both (s : Slot)
  /-- a format code below the bound, tier 0b00 (R110) -/
  | code (bound : Nat)
  /-- a special register of R52 (R95) -/
  | name
  /-- MOVI's constant: tier 0b11, index 0x40 to 0x7F (R94) -/
  | const (t : Ty)
  /-- TRAP's code: tier 0b11, index 0x40 to 0x5F (R224) -/
  | small
  /-- bits of OFF20 (R100) -/
  | raw
  /-- any bits: a retired operation that the subcore only forwards (R61) -/
  | free
deriving DecidableEq, Repr

/-- Pairing classes (R239). -/
inductive Pair where
  | VA | MEM | X
deriving DecidableEq, Repr

/-- What a form's immediate must satisfy beyond its width (R83, R100, R112, R225). -/
inductive ImmRule where
  | any
  /-- bits above n are zero -/
  | below (n : Nat)
deriving DecidableEq, Repr

/-- The form of an instruction, given its fields. -/
structure OpSpec where
  opc : Nat
  forms : List Form
  /-- mark k (R59) -/
  k : Bool
  /-- mark l -/
  l : Bool
  /-- mark s -/
  s : Bool
  /-- mark d -/
  d : Bool
  pair : Pair
  /-- the SUB code is listed, with the other encoding rules of the instruction -/
  ok : Bool
  dst : Use
  a : Use
  b : Use
  c : Use
  /-- MODA and MODB must be zero in either mode (R105) -/
  plain : Bool
  imm : ImmRule
  /-- the lowest level that may run it (R205) -/
  lv : Level
deriving DecidableEq, Repr

/-! ### Slots -/

def Slot.of (c : Cls) (k : Kind) (t : Ty) (r : Nat := 1) (u : Bool := false) : Slot := ⟨c, k, t, r, u⟩

/-- Registers of an integer or float type (R24, R82, R111). -/
def Ty.regs : Ty → Nat
  | .int w _ => if 32 < w then 2 else 1
  | .fp .f64 => 2
  | _ => 1

/-- The TY codes of R82. -/
def tyOf : Nat → Ty
  | 0 => .int 32 true | 1 => .int 32 false | 2 => .int 64 true | 3 => .int 64 false
  | 4 => .int 16 true | 5 => .int 16 false | 6 => .int 8 true | _ => .int 8 false

/-- The FT codes of R109. -/
def ftOf : Nat → Fm
  | 0 => .f32 | 1 => .f64 | 2 => .f16 | _ => .bf16

def i32 : Ty := .int 32 true
def n32 : Ty := .int 32 false
def n64 : Ty := .int 64 false

/-- A class V slot of a type. -/
def slotV (k : Kind) (t : Ty) (u : Bool := false) : Slot := .of .V k t t.regs u
/-- A 64-bit address or value slot. -/
def slot64 (u : Bool := false) : Slot := .of .V .N n64 2 u
/-- A 32-bit slot of kind N. -/
def slot32 (u : Bool := false) : Slot := .of .V .N n32 1 u
/-- A signed 32-bit offset (R139). -/
def slotOff : Slot := .of .V .I i32
def slotP : Slot := .of .P .N n32
def slotS : Slot := .of .S .N (.int 64 true)
def slotM : Slot := .of .M .N n64
def slotT : Slot := .of .T .N n64
def slotH : Slot := .of .H .N n64
/-- A bit-pattern slot of n registers (stores, atomics). -/
def slotBits (n : Nat) : Slot := .of .V .N (.int (32 * n) false) n

/-! ### SUB fields -/

end Sys2Proof.Machine

namespace Sys2Proof

open Sys2Proof.Machine

/-- Bits [hi:lo] of the SUB field. -/
def Ops.sb (x : Ops) (hi lo : Nat) : Nat := bitsOf x.sub.toNat hi lo

/-- The immediate of a form stands for source B, or for MOVI's source. -/
def Form.hasImm : Form → Bool
  | .D | .F => true
  | _ => false

end Sys2Proof

namespace Sys2Proof.Machine

/-- RM field of R109: a static mode, or .dyn as 5. -/
def rmOk (n : Nat) : Bool := decide (n ≤ 5)

/-! ### The table -/

/-- A form with every mark clear; the fields named by each row are replaced. -/
def OpSpec.row (opc : Nat) (forms : List Form) (pair : Pair) (ok : Bool) (dst a b c : Use) : OpSpec :=
  { opc, forms, k := false, l := false, s := false, d := false, pair, ok, dst, a, b, c, plain := false, imm := .any,
    lv := .user }

def formsACD : List Form := [.A, .C, .D]
def formsAC : List Form := [.A, .C]
def formsBE : List Form := [.B, .E]
def formsADF : List Form := [.A, .D, .F]

/-- Two-source integer arithmetic (R87). -/
def specArith (opc : Nat) (x : Ops) (k s : Bool) : OpSpec :=
  let t := tyOf (x.sb 2 0)
  { OpSpec.row opc formsACD .VA (decide (x.sb 6 3 = 0)) (.dst (slotV .N t)) (.src (slotV .I t)) (.src (slotV .I t)) .none with k, s }

/-- IMUL and IMAD's variants (R87). -/
def mulOk (x : Ops) : Bool :=
  let v := x.sb 4 3
  let ty := x.sb 2 0
  decide (x.sb 6 5 = 0) && decide (v ≤ 2) && !(v == 2 && decide (1 < ty)) && !(v == 1 && decide (4 ≤ ty)) &&
    !(x.clp == 3 && v != 0)

/-- The type of a product's destination (R87). -/
def mulDst (x : Ops) : Ty := if x.sb 4 3 = 2 then .int 64 (x.sb 2 0 == 0) else tyOf (x.sb 2 0)

/-- Shifts (R89). -/
def specShift (opc : Nat) (x : Ops) (k : Bool) (ok : Bool) : OpSpec :=
  let t := tyOf (x.sb 1 0)
  { OpSpec.row opc formsACD .VA ok (.dst (slotV .N t)) (.src (slotV .B t)) (.src (slot32)) .none with k }

/-- Two-source logic (R89). -/
def specLogic (opc : Nat) (x : Ops) : OpSpec :=
  let t := tyOf (x.sb 1 0)
  { OpSpec.row opc formsACD .VA (decide (x.sb 6 2 = 0)) (.dst (slotV .N t)) (.src (slotV .B t)) (.src (slotV .B t)) .none with
    k := true }

/-- One-source bit operations (R89). -/
def specBits (opc : Nat) (x : Ops) (k wide : Bool) : OpSpec :=
  let t := tyOf (x.sb 1 0)
  { OpSpec.row opc formsAC .VA (decide (x.sb 6 2 = 0)) (.dst (slotV .N (if wide then t else n32))) (.src (slotV .B t)) .none .none
    with k }

/-- Uniform instructions (R98). -/
def specUni (opc : Nat) (ok : Bool) (dst b : Use) : OpSpec :=
  { OpSpec.row opc formsADF .X ok dst (.src slotS) b .none with
    k := true, l := opc == 0x026 }

/-- Lane instructions (R105). -/
def specLane (opc : Nat) (ok : Bool) (dst a b : Use) : OpSpec :=
  { OpSpec.row opc formsAC .X ok dst a b .none with plain := true }

/-- Two-source floats (R109, R118). -/
def specF2 (opc : Nat) (x : Ops) (forms : List Form) (ok : Bool) : OpSpec :=
  let t := Ty.fp (ftOf (x.sb 4 3))
  { OpSpec.row opc forms .VA ok (.dst (slotV .N t)) (.src (slotV .F t)) (.src (slotV .F t)) .none with
    d := true, imm := if t == .fp .f16 || t == .fp .bf16 then .below 16 else .any }

/-- One-source floats. -/
def specF1 (opc : Nat) (x : Ops) (ok : Bool) (dst : Ty) : OpSpec :=
  let t := Ty.fp (ftOf (x.sb 4 3))
  OpSpec.row opc formsAC .VA ok (.dst (slotV .N dst)) (.src (slotV .F t)) .none .none

/-- Approximate functions (R121). -/
def specApx (opc : Nat) (x : Ops) (wide : Bool) : OpSpec :=
  { specF1 opc x (decide (x.sb 2 0 = 0) && decide (x.sb 6 5 = 0) && (wide || x.sb 4 3 != 1)) (.fp (ftOf (x.sb 4 3))) with d := true }

/-- Registers of a size code (R144). -/
def szRegs (sz : Nat) : Nat := if sz = 1 then 2 else if sz = 2 then 4 else 1

/-- Bytes of a size code. -/
def szBytes : Nat → Nat
  | 1 => 8 | 2 => 16 | 3 | 4 => 1 | 5 | 6 => 2 | _ => 4

/-- Loads (R144). -/
def specLoad (opc : Nat) (x : Ops) (k wide : Bool) : OpSpec :=
  { OpSpec.row opc formsACD .MEM (decide (x.sb 2 0 ≤ 6) && decide (x.sb 4 3 ≤ 2) && decide (x.sb 6 5 = 0))
      (.dst (slotBits (szRegs (x.sb 2 0)))) (.src (if wide then slot64 else slot32)) (.src slotOff) .none with k, l := true }

/-- Stores (R144). -/
def specStore (opc : Nat) (x : Ops) (k wide : Bool) : OpSpec :=
  let sz := x.sb 2 0
  { OpSpec.row opc formsAC .MEM (decide (sz ≤ 6) && sz != 3 && sz != 5 && decide (x.sb 6 3 = 0))
      (.src (slotBits (szRegs sz))) (.src (if wide then slot64 else slot32)) (.src slotOff) .none with k }

/-- A format-A row of the X class with SUB 0 (R143, R157, R163, R205). -/
def specX (opc : Nat) (ok : Bool) (dst a b : Use) (lv : Level := .user) : OpSpec :=
  { OpSpec.row opc [.A] .X ok dst a b .none with lv }

/-- The binary moment instructions (R198). -/
def specMom (opc : Nat) (x : Ops) (forms : List Form) (c : Use) : OpSpec :=
  OpSpec.row opc forms .VA (x.sb 1 0 == 3 || decide (x.sb 6 2 = 0)) (.dst slotM) (.src slotM) (.src slotM) c

/-- Unary moment instructions (R198). -/
def specMom1 (opc : Nat) (x : Ops) (forms : List Form) : OpSpec :=
  OpSpec.row opc forms .VA (x.sub == 0) (.dst slotM) (.src slotM) .none .none

/-- The element types of TRED (R207) as slot types. -/
def etTy : Nat → Ty
  | 0 => i32 | 1 => n32 | 2 => .fp .f32 | 3 => .fp .bf16 | 4 => .fp .f16 | 5 => .fp .t8 | 6 => .fp .e4m3 | 7 => .fp .e5m2
  | _ => .fp .t6

/-- The type that MOVI's SUB names (R93). -/
def moviTy : Nat → Ty
  | 0 => i32 | 1 => n32 | 2 => .int 64 true | 3 => n64 | 8 => .fp .f32 | _ => .fp .f64

/-- A TY of the integer codes 0 to 3 in SUB[2:0], the other bits zero. -/
def ty03 (x : Ops) : Bool := decide (x.sb 6 2 = 0)

/-- RM legal, VAR zero (R109). -/
def rmVar (x : Ops) : Bool := rmOk (x.sb 2 0) && decide (x.sb 6 5 = 0)

end Sys2Proof.Machine

namespace Sys2Proof

open Sys2Proof.Machine

/-- The form of an LNI instruction; none for what has no word of its own form (fill words, unassigned words, hardware
events). Two points are the model's reading (log entry 108): abs on LEA's index takes it as signed with .u too (R93), and HMK's register offset
is a pair of 64 bits, as its immediate is (R166). -/
def Instr.spec : Instr → Option OpSpec
  | .iadd x => some (specArith 0x001 x true true)
  | .isub x => some (specArith 0x002 x true true)
  | .iaddc x =>
    let t := tyOf (x.sb 1 0)
    some { OpSpec.row 0x003 formsACD .VA (decide (x.sb 2 2 = 0)) (.dst (slotV .N t)) (.src (slotV .N t)) (.src (slotV .N t)) .none with
      k := true }
  | .imul x =>
    let t := tyOf (x.sb 2 0)
    some { OpSpec.row 0x004 formsACD .VA (mulOk x) (.dst (slotV .N (mulDst x))) (.src (slotV .I t)) (.src (slotV .I t)) .none with
      k := true, s := true }
  | .imin x => some (specArith 0x005 x true false)
  | .imax x => some (specArith 0x006 x true false)
  | .shl x => some (specShift 0x007 x true (ty03 x))
  | .shr x => some (specShift 0x008 x true (decide (x.sb 2 2 = 0) && decide (x.sb 6 4 = 0)))
  | .rot x => some (specShift 0x009 x false (ty03 x))
  | .and x => some (specLogic 0x00A x)
  | .or x => some (specLogic 0x00B x)
  | .xor x => some (specLogic 0x00C x)
  | .lea x =>
    some { OpSpec.row 0x00D formsACD .VA (decide (x.sb 6 4 = 0)) (.dst slot64) (.src slot64) (.src slotOff) .none with k := true }
  | .not x => some (specBits 0x00E x true true)
  | .iabs x =>
    let t := tyOf (x.sb 2 0)
    some { OpSpec.row 0x00F formsAC .VA (decide (x.sb 6 3 = 0) && x.sb 0 0 == 0) (.dst (slotV .N t)) (.src (slotV .I t)) .none .none with
      s := true }
  | .popc x => some (specBits 0x010 x false false)
  | .clz x => some (specBits 0x011 x false false)
  | .ctz x => some (specBits 0x012 x false false)
  | .brev x => some (specBits 0x013 x false true)
  | .icvt x =>
    some { OpSpec.row 0x014 formsAC .VA (x.sb 6 6 == 0) (.dst (slotV .N (tyOf (x.sb 2 0)))) (.src (slotV .I (tyOf (x.sb 5 3)))) .none
      .none with s := true }
  | .bfe x => some (specShift 0x015 x false (ty03 x))
  | .icmp x =>
    let t := tyOf (x.sb 2 0)
    some { OpSpec.row 0x016 formsACD .VA (decide (x.sb 5 3 ≤ 5) && x.sb 6 6 == 0) (.dst slotP) (.src (slotV .I t)) (.src (slotV .I t))
      .none with k := true }
  | .mov x => some { specBits 0x017 x true true with k := true }
  | .movi x =>
    let t := moviTy x.sub.toNat
    some { OpSpec.row 0x018 formsADF .VA ([0, 1, 2, 3, 8, 10].contains x.sub.toNat) (.dst (slotV .N t))
      (if x.form.hasImm then .none else .const t) .none .none with
      k := true, imm := if x.form = .F && t.regs == 1 then .below 32 else .any }
  | .movs x =>
    some { OpSpec.row 0x019 [.A] .X (decide (x.sub.toNat ≤ 1)) (if x.sub = 0 then .dst (slot32) else .none) .name
      (if x.sub = 0 then .none else .src (slot32 ((x.a.opnd == .special 5)))) .none with k := true }
  | .movu x =>
    some (OpSpec.row 0x01A [.A] .VA (ty03 x) (.dst (slotV .N (tyOf (x.sb 1 0)))) (.src slotS) .none .none)
  | .imad x =>
    let t := tyOf (x.sb 2 0)
    some { OpSpec.row 0x01B formsBE .VA (mulOk x) (.dst (slotV .N (mulDst x))) (.src (slotV .I t)) (.src (slotV .I t))
      (.src (slotV .I (mulDst x))) with s := true }
  | .bfi x =>
    let t := tyOf (x.sb 1 0)
    some (OpSpec.row 0x01C formsBE .VA (ty03 x) (.dst (slotV .N t)) (.src (slotV .B t)) (.src (slotV .B t)) (.src slot32))
  | .isel x =>
    let t := tyOf (x.sb 1 0)
    some { OpSpec.row 0x01D formsBE .VA (ty03 x) (.dst (slotV .N t)) (.src (slotV .B t)) (.src (slotV .B t)) (.src slotP) with
      k := true }
  | .bternTableBit7Clear _ =>
    some (OpSpec.row 0x01E [.E] .VA true (.dst slot32) (.src (slotV .B n32)) (.src (slotV .B n32)) (.src (slotV .B n32)))
  | .bternTableBit7Set _ =>
    some (OpSpec.row 0x01F [.E] .VA true (.dst slot32) (.src (slotV .B n32)) (.src (slotV .B n32)) (.src (slotV .B n32)))
  | .pset x => some { OpSpec.row 0x020 [.A] .VA (decide (x.sub.toNat ≤ 1)) (.dst slotP) (.src slot32) .none .none with k := true }
  | .plop x =>
    some { OpSpec.row 0x021 [.A] .VA (decide (x.sb 1 0 ≤ 2) && decide (x.sb 6 4 = 0)) (.dst slotP) (.src slotP) (.src slotP) .none with
      k := true }
  | .pmov x =>
    some { OpSpec.row 0x022 [.A] .VA (decide (x.sub.toNat ≤ 1)) (if x.sub = 0 then .dst slot32 else .none)
      (if x.sub = 0 then .none else .src slot32) .none .none with k := true }
  | .sadd x => some (specUni 0x023 (x.sub == 0) (.dst slotS) (.src slotS))
  | .smul x => some (specUni 0x024 (x.sub == 0) (.dst slotS) (.src slotS))
  | .smov x => some { specUni 0x025 (x.sub == 0) (.dst slotS) .none with imm := .below 0 }
  | .sld x => some (specUni 0x026 (x.sub == 0) (.dst slotS) (.src slotS))
  | .scmp x => some (specUni 0x027 (decide (x.sb 3 1 ≤ 5) && decide (x.sb 6 4 = 0)) (.dst slotP) (.src slotS))
  | .bra x =>
    some { OpSpec.row 0x028 [.A, .D] .VA (x.sub == 0) .none (if x.form = .A then .raw else .none) (if x.form = .A then .raw else .none)
      .none with k := true }
  | .call x =>
    some { OpSpec.row 0x029 [.A, .D] .VA (x.sub == 0) (.dst slot64) (if x.form = .A then .raw else .none)
      (if x.form = .A then .raw else .none) .none with k := true }
  | .brx x => some (OpSpec.row 0x02A [.A] .VA (x.sub == 0) .none (.src slot64) .none .none)
  | .ret x => some { OpSpec.row 0x02B [.A] .VA (x.sub == 0) .none (.src slot64) .none .none with k := true }
  | .exit x => some (OpSpec.row 0x02C [.A] .X (x.sub == 0) .none .none .none .none)
  | .yield x => some (OpSpec.row 0x02D [.A] .X (x.sub == 0) .none .none .none .none)
  | .nop x => some { OpSpec.row 0x02E [.A] .VA (x.sub == 0) .none .none .none .none with k := true }
  | .shfl x =>
    let s := slotBits (if x.sb 6 6 = 1 then 2 else 1)
    some (specLane 0x02F (decide (x.sb 5 3 ≤ 5) && x.sb 2 2 == 0) (.dst s) (.src s) (.src slot32))
  | .vote x =>
    some (specLane 0x030 (decide (x.sb 1 0 ≤ 2) && decide (x.sb 6 3 = 0)) (.dst (if x.sb 1 0 = 2 then slot32 else slotP)) (.src slotP)
      .none)
  | .matchLanes x =>
    some (specLane 0x031 (decide (x.sb 6 2 = 0)) (.dst slot32) (.src (slotBits (if x.sb 1 1 = 1 then 2 else 1))) .none)
  | .lredux x =>
    let t := tyOf (x.sb 4 3)
    some (specLane 0x032 (decide (x.sb 2 0 ≤ 5) && decide (x.sb 6 5 = 0)) (.dst (slotV .N t)) (.src (slotV .N t)) .none)
  | .lprfx x =>
    let t := tyOf (x.sb 4 3)
    some (specLane 0x033 (decide (x.sb 2 0 ≤ 5) && x.sb 6 6 == 0) (.dst (slotV .N t)) (.src (slotV .N t)) .none)
  | .elect x => some (specLane 0x034 (x.sub == 0) (.dst slotP) .none .none)
  | .uniassert x =>
    some (specLane 0x035 (decide (x.sub.toNat ≤ 1)) .none (.src { slotBits (if x.sub = 1 then 2 else 1) with uni := true }) .none)
  | .fadd x => some (specF2 0x080 x formsACD (rmVar x))
  | .fsub x => some (specF2 0x081 x formsACD (rmVar x))
  | .fmul x => some (specF2 0x082 x formsACD (rmVar x))
  | .fmin x => some { specF2 0x083 x formsACD (decide (x.sb 2 0 = 0) && x.sb 6 6 == 0) with d := false }
  | .fmax x => some { specF2 0x084 x formsACD (decide (x.sb 2 0 = 0) && x.sb 6 6 == 0) with d := false }
  | .fdiv x => some { specF2 0x085 x formsACD (rmVar x) with l := true }
  | .fsqrt x => some { specF1 0x086 x (rmVar x) (.fp (ftOf (x.sb 4 3))) with l := true, d := true }
  | .frcp x => some (specApx 0x087 x true)
  | .frsq x => some (specApx 0x088 x true)
  | .fex2 x => some (specApx 0x089 x false)
  | .flg2 x => some (specApx 0x08A x false)
  | .fsin x => some (specApx 0x08B x false)
  | .fcos x => some (specApx 0x08C x false)
  | .fcmp x => some { specF2 0x08D x formsACD (x.sb 6 6 == 0) with d := false, dst := .dst slotP }
  | .fclass x => some (specF1 0x08E x (decide (x.sb 2 0 = 0) && decide (x.sb 6 5 = 0)) n32)
  | .frnd x => some { specF1 0x08F x (rmOk (x.sb 2 0) && x.sb 6 6 == 0) (.fp (ftOf (x.sb 4 3))) with d := true }
  | .fgetexp x => some (specF1 0x090 x (decide (x.sb 2 0 = 0) && decide (x.sb 6 5 = 0)) n32)
  | .fcpys x => some { specF2 0x091 x formsAC (decide (x.sb 2 0 = 0) && decide (x.sb 6 5 = 0)) with d := false }
  | .fldexp x => some { specF2 0x092 x formsACD (rmVar x) with b := .src slotOff, imm := .any }
  | .fcvt x =>
    let f := (Fm.ofCode (x.sb 6 3)).getD .f32
    let g := (Fm.ofCode (match x.b.opnd with | .main i => i.toNat | _ => 0)).getD .f32
    some { OpSpec.row 0x093 formsAC .VA (rmOk (x.sb 2 0) && decide (x.sb 6 3 ≤ 10)) (.dst (slotV .N (.fp f))) (.src (slotV .F (.fp g)))
      (.code 11) .none with d := true }
  | .f2i x =>
    let g := (Fm.ofCode (match x.b.opnd with | .main i => i.toNat | _ => 0)).getD .f32
    some { OpSpec.row 0x094 formsAC .VA (rmOk (x.sb 2 0) && x.sb 6 6 == 0) (.dst (slotV .N (tyOf (x.sb 5 3)))) (.src (slotV .F (.fp g)))
      (.code 4) .none with s := true }
  | .i2f x =>
    let g := (Fm.ofCode (match x.b.opnd with | .main i => i.toNat | _ => 0)).getD .f32
    some { OpSpec.row 0x095 formsAC .VA (rmOk (x.sb 2 0) && x.sb 6 6 == 0) (.dst (slotV .N (.fp g))) (.src (slotV .I (tyOf (x.sb 5 3))))
      (.code 4) .none with d := true }
  | .fstat x => some (OpSpec.row 0x096 formsAC .X (decide (x.sub.toNat ≤ 3)) (.dst slot32) (.src (slot32 true)) .none .none)
  | .pkadd x =>
    let t := Ty.pk (if x.sb 3 3 = 1 then .bf16 else .f16)
    some { OpSpec.row 0x097 formsACD .VA (rmOk (x.sb 2 0) && decide (x.sb 6 4 = 0)) (.dst slot32) (.src (slotV .F t)) (.src (slotV .F t))
      .none with d := true }
  | .ffma x =>
    let t := Ty.fp (ftOf (x.sb 4 3))
    some { OpSpec.row 0x098 formsBE .VA (rmVar x) (.dst (slotV .N t)) (.src (slotV .F t)) (.src (slotV .F t)) (.src (slotV .F t)) with
      d := true }
  | .pkfma x =>
    let t := Ty.pk (if x.sb 3 3 = 1 then .bf16 else .f16)
    some { OpSpec.row 0x099 formsBE .VA (rmOk (x.sb 2 0) && decide (x.sb 6 4 = 0)) (.dst slot32) (.src (slotV .F t)) (.src (slotV .F t))
      (.src (slotV .F t)) with d := true }
  | .dot4 x =>
    let e := x.sb 5 3
    let t : Ty := if 3 ≤ e then n32 else .fp (if e = 0 then .e4m3 else if e = 1 then .e5m2 else .t8)
    some { OpSpec.row 0x09A formsBE .VA (rmOk (x.sb 2 0) && decide (e ≤ 4) && !(decide (3 ≤ e) && x.sb 2 0 != 0) && x.sb 6 6 == 0
        && (decide (e < 3) || (x.scl == 0 && x.clp != 1 && x.clp != 2)))
      (.dst slot32) (.src (slotV .N t)) (.src (slotV .N t)) (.src (slotV .N (if 3 ≤ e then i32 else .fp .f32))) with d := true }
  | .dot2 x =>
    let t := Ty.pk (if x.sb 3 3 = 1 then .bf16 else .f16)
    some { OpSpec.row 0x09B formsBE .VA (rmOk (x.sb 2 0) && decide (x.sb 6 4 = 0)) (.dst slot32) (.src (slotV .N t)) (.src (slotV .N t))
      (.src (slotV .N (.fp .f32))) with d := true }
  | .ffmaF64Short _ =>
    let t := Ty.fp .f64
    some (OpSpec.row 0x09C [.B] .VA true (.dst (slotV .N t)) (.src (slotV .F t)) (.src (slotV .F t)) (.src (slotV .F t)))
  | .ld x => some (specLoad 0x100 x true true)
  | .lds x => some (specLoad 0x101 x false false)
  | .ldc x => some (specLoad 0x102 x false false)
  | .ldf x =>
    some { OpSpec.row 0x103 formsAC .MEM (decide (x.sub.toNat ≤ 1)) (.dst slot32) (.src slot32) (.src slotOff) .none with l := true }
  | .st x => some (specStore 0x104 x true true)
  | .sts x => some (specStore 0x105 x false false)
  | .stf x => some (OpSpec.row 0x106 formsAC .MEM (x.sub == 0) (.src slot32) (.src slot32) (.src slotOff) .none)
  | .testf x => some (OpSpec.row 0x107 [.A] .MEM (x.sub == 0) (.dst slotP) (.src slot32) (.src slotOff) .none)
  | .atom x =>
    some { OpSpec.row 0x108 formsAC .MEM (decide (x.sb 3 0 ≤ 11)) (.both (slotBits (x.sb 6 6 + 1))) (.src slot64) (.src (slot32 true))
      .none with k := true, l := true }
  | .atomCas x =>
    let n := if x.sb 0 0 = 1 then 4 else x.sb 3 3 + 1
    some { OpSpec.row 0x109 formsBE .MEM (decide (x.sb 6 4 = 0) && !(x.sb 0 0 == 1 && x.sb 3 3 == 1)) (.both (slotBits n)) (.src slot64)
      (.src (slotBits n)) (.src (slot32 true)) with k := true, l := true }
  | .red x =>
    let w := 32 * (x.sb 6 6 + 1)
    let t : Ty := if x.sb 3 0 = 9 then .fp (if w = 64 then .f64 else .f32) else .int w false
    some (OpSpec.row 0x10A formsAC .MEM (decide (x.sb 3 0 ≤ 11) && x.sb 3 0 != 6 && (x.sb 5 4 == 0 || x.sb 5 4 == 2))
      (.src (slotV .N t)) (.src slot64) (.src (slot32 true)) .none)
  | .fence x => some { specX 0x10B (decide (x.sub.toNat ≤ 2)) .none (.src (slot32 true)) .none with k := true }
  | .ifence x => some (specX 0x10C (x.sub == 0) .none .none .none)
  | .isspace x => some (OpSpec.row 0x10D [.A] .VA (decide (x.sub.toNat ≤ 5)) (.dst slotP) (.src slot64) .none .none)
  | .awin x => some (OpSpec.row 0x10E formsACD .VA (decide (x.sb 6 3 = 0)) (.dst slot64) (.src slot64) (.src slotOff) .none)
  | .pref x => some (OpSpec.row 0x10F [.A, .D] .MEM (decide (x.sub.toNat ≤ 1)) .none (.src slot64) (.src slotOff) .none)
  | .barInit x => some (specX 0x110 (x.sub == 0) .none (.src (slot64 true)) .none)
  | .barArrive x => some (specX 0x111 (x.sub == 0) (.dst slot32) (.src (slot64 true)) (.src (slot32 true)))
  | .barExpect x => some (specX 0x112 (x.sub == 0) .none (.src (slot64 true)) (.src (slot32 true)))
  | .barWait x => some (specX 0x113 (x.sub == 0) .none (.src (slot64 true)) (.src slot32))
  | .barTest x => some (specX 0x114 (x.sub == 0) (.dst slotP) (.src (slot64 true)) (.src slot32))
  | .tlwait x => some { specX 0x115 (x.sub == 0) .none (.src slotT) (.src (slot64 true)) with k := true }
  | .tlread x => some { specX 0x116 (x.sub == 0) (.dst slotS) (.src slotT) .none with k := true }
  | .scopew x => some (specX 0x117 (x.sub == 0) .none (.src (slot32 true)) (.src (slot64 true)))
  | .scopebind x => some (specX 0x118 (x.sub == 0) .none (.src (slot32 true)) .none)
  | .scopeq x => some (specX 0x119 (x.sub == 0) (.dst slotS) (.src (slot32 true)) .none)
  | .scoperet x => some (specX 0x11A (x.sub == 0) .none (.src (slot32 true)) .none)
  | .cpy x =>
    some { OpSpec.row 0x11B formsBE .X (decide (x.sub.toNat ≤ 2)) (.src slotT) (.src slotH) (.src (slot64 true)) .none with k := true }
  | .cpyg x => some (OpSpec.row 0x11C formsBE .X (decide (x.sub.toNat ≤ 2)) (.src slotT) (.src slotH) (.src (slot64 true)) (.src slot32))
  | .hmk x => some (OpSpec.row 0x11D [.A, .F] .X (x.sub == 0) (.dst slotH) (.src (slot64 true)) (.src (slot64 true)) .none)
  | .wld x => some (OpSpec.row 0x180 formsAC .X (x.sub == 0) (.src slotT) (.src (slot32 true)) (.src (slot32 true)) .none)
  | .wsel x => some (specX 0x181 (x.sub == 0) .none (.src (slot32 true)) .none)
  | .mma x =>
    some { OpSpec.row 0x182 formsBE .X (x.sub == 0) (.src (.of .A .N n64)) (.src (slot32 true)) (.src (slot64 true)) (.src slotT) with plain := true }
  | .mmam x =>
    some { OpSpec.row 0x183 formsBE .X (x.sub == 0) (.src (.of .pair .N n64)) (.src (slot32 true)) (.src (slot64 true)) (.src slotT) with plain := true }
  | .aclr x => some (specX 0x184 (decide (x.sb 6 4 = 0)) (.src (.of .A .N n64)) .none .none)
  | .adrn x => some (OpSpec.row 0x185 formsAC .X (x.sub == 0) (.src (.of .A .N n64)) (.src (slot64 true)) (.src (slot64 true)) .none)
  | .epld x => some (specX 0x186 (x.sub == 0) .none (.src (slot32 true)) .none)
  | .msave x => some (specX 0x187 (x.sub == 0) .none (.src (slot64 true)) .none .supervisor)
  | .mres x => some (specX 0x188 (x.sub == 0) .none (.src (slot64 true)) .none .supervisor)
  | .qnt x => some (OpSpec.row 0x189 formsBE .X (x.sub == 0) (.src slotT) (.src (slot64 true)) .none .none)
  | .qwait x => some (specX 0x18A (decide (x.sub.toNat ≤ 2)) .none .none .none)
  | .mld x =>
    some { OpSpec.row 0x200 formsAC .MEM (decide (x.sub.toNat ≤ 1)) (.dst slotM) (.src slot64) (.src slotOff) .none with l := true }
  | .mst x => some (OpSpec.row 0x201 formsAC .MEM (decide (x.sub.toNat ≤ 1)) (.src slotM) (.src slot64) (.src slotOff) .none)
  | .mset x =>
    some (OpSpec.row 0x202 [.A, .D] .VA (x.sub == 0) (.dst slotM) (.src (slotV .F (.fp .f32))) (.src (slotV .F (.fp .f32))) .none)
  | .mmov x => some (specMom1 0x203 x [.A])
  | .madd x => some (specMom 0x204 x formsAC .none)
  | .msub x => some (specMom 0x205 x formsAC .none)
  | .mmul x => some (specMom 0x206 x formsAC .none)
  | .mscl x => some (OpSpec.row 0x207 formsAC .VA (x.sub == 0) (.dst slotM) (.src slotM) (.src (slotV .F (.fp .f32))) .none)
  | .mfma x => some (specMom 0x208 x formsBE (.src slotM))
  | .mrelu x => some (specMom1 0x209 x [.A])
  | .mexp x => some (specMom1 0x20A x [.A])
  | .msigm x => some (specMom1 0x20B x [.A])
  | .mtanh x => some (specMom1 0x20C x [.A])
  | .mrcp x => some (specMom1 0x20D x [.A])
  | .mcol x =>
    let v := x.sb 2 0
    some (OpSpec.row 0x20E formsAC .VA (decide (v ≤ 4) && rmOk (x.sb 5 3) && x.sb 6 6 == 0) (.dst slot32) (.src slotM)
      (if v ≤ 2 then .none else .src (slotV .F (.fp .f32) (v == 3))) .none)
  | .tst x =>
    some (OpSpec.row 0x280 formsAC .MEM (decide (x.sub.toNat ≤ 1)) (.src (slotBits (x.sb 0 0 + 1))) (.src slot64) (.src slotOff) .none)
  | .tred x =>
    let e := x.sb 6 3
    let op := x.sb 2 0
    some (OpSpec.row 0x281 formsAC .MEM (decide (op ≤ 4) && decide (e ≤ 8)) (.src (.of .V .N (etTy e))) (.src slot64) (.src slotOff) .none)
  | .tideClose x => some (specX 0x282 (x.sub == 0) .none (.src (slot64 true)) .none)
  | .tideWait x => some (specX 0x283 (x.sub == 0) .none (.src (slot64 true)) .none)
  | .tideQuery x => some (specX 0x284 (decide (x.sub.toNat ≤ 1)) (.dst slotS) .none .none)
  | .rld x =>
    some { OpSpec.row 0x285 formsAC .MEM (decide (x.sub.toNat ≤ 1)) (.dst (slotBits (x.sb 0 0 + 1))) (.src slot64) (.src slotOff) .none with
      l := true }
  | .ratom x =>
    let n := x.sb 6 6 + 1
    some { OpSpec.row 0x286 formsAC .MEM (decide (x.sb 3 0 ≤ 12)) (.both (slotBits n)) (.src slot64)
      (if x.sb 3 0 = 12 then .src (slotBits n) else .none) .none with l := true }
  | .send x => some { OpSpec.row 0x287 formsAC .X (x.sub == 0) (.src slotT) (.src (slot64 true)) .none .none with k := true }
  | .arm x => some (specX 0x288 (x.sub == 0) .none (.src (slot32 true)) (.src (slot64 true)) .supervisor)
  | .disarm x => some (specX 0x289 (x.sub == 0) .none (.src (slot32 true)) .none .supervisor)
  | .launch x => some { specX 0x28A (x.sub == 0) .none (.src (slot64 true)) (.src (slot32 true)) with k := true }
  | .hint x => some (specX 0x28B (decide (x.sub.toNat ≤ 3)) .none (if x.sub = 3 then .src (slot32 true) else .none) .none)
  | .trap x =>
    some (OpSpec.row 0x28C [.A, .D] .X (x.sub == 0) .none .none (if x.form = .A then .small else .none) .none)
  | .tret x => some (specX 0x28D (x.sub == 0) .none .none .none .supervisor)
  | .csave x => some (specX 0x28E (x.sub == 0) (.dst slotP) (.src (slot64 true)) .none .supervisor)
  | .crest x => some (specX 0x28F (x.sub == 0) .none (.src (slot64 true)) .none .supervisor)
  | .sysr x => some { OpSpec.row 0x290 [.A, .D] .X (x.sub == 0) (.dst slotS) .none (.src (slot32 true)) .none with imm := .below 16 }
  | .sysw x => some { OpSpec.row 0x291 [.A, .D] .X (x.sub == 0) .none (.src (slot64 true)) (.src (slot32 true)) .none with imm := .below 16 }
  | .cap x => some (specX 0x292 (decide (x.sub.toNat ≤ 1)) (.dst slotS) (.src (slot32 true)) .none)
  | .halt x => some (specX 0x293 (x.sub == 0) .none .none .none .firmware)
  | .evqPop x => some { specX 0x294 (decide (x.sub.toNat ≤ 1)) (.dst slot64) .none .none with k := true }
  | .trel x => some { specX 0x295 (x.sub == 0) .none (.src slot64) .none with k := true }
  | .byteAbsDiffSum _ => some (OpSpec.row 0x381 [.A] .X true (.dst slot32) (.src slot32) (.src slot32) .none)
  | .retiredOperation k _ => some (OpSpec.row (0x380 + k.toNat) [.A] .X (k != 1) .free .free .free .none)
  | _ => none

/-- The fields of an LNI instruction. -/
def Instr.ops : Instr → Option Ops
  | .iadd x => some x
  | .isub x => some x
  | .iaddc x => some x
  | .imul x => some x
  | .imin x => some x
  | .imax x => some x
  | .shl x => some x
  | .shr x => some x
  | .rot x => some x
  | .and x => some x
  | .or x => some x
  | .xor x => some x
  | .lea x => some x
  | .not x => some x
  | .iabs x => some x
  | .popc x => some x
  | .clz x => some x
  | .ctz x => some x
  | .brev x => some x
  | .icvt x => some x
  | .bfe x => some x
  | .icmp x => some x
  | .mov x => some x
  | .movi x => some x
  | .movs x => some x
  | .movu x => some x
  | .imad x => some x
  | .bfi x => some x
  | .isel x => some x
  | .bternTableBit7Clear x => some x
  | .bternTableBit7Set x => some x
  | .pset x => some x
  | .plop x => some x
  | .pmov x => some x
  | .sadd x => some x
  | .smul x => some x
  | .smov x => some x
  | .sld x => some x
  | .scmp x => some x
  | .bra x => some x
  | .call x => some x
  | .brx x => some x
  | .ret x => some x
  | .exit x => some x
  | .yield x => some x
  | .nop x => some x
  | .shfl x => some x
  | .vote x => some x
  | .matchLanes x => some x
  | .lredux x => some x
  | .lprfx x => some x
  | .elect x => some x
  | .uniassert x => some x
  | .fadd x => some x
  | .fsub x => some x
  | .fmul x => some x
  | .fmin x => some x
  | .fmax x => some x
  | .fdiv x => some x
  | .fsqrt x => some x
  | .frcp x => some x
  | .frsq x => some x
  | .fex2 x => some x
  | .flg2 x => some x
  | .fsin x => some x
  | .fcos x => some x
  | .fcmp x => some x
  | .fclass x => some x
  | .frnd x => some x
  | .fgetexp x => some x
  | .fcpys x => some x
  | .fldexp x => some x
  | .fcvt x => some x
  | .f2i x => some x
  | .i2f x => some x
  | .fstat x => some x
  | .pkadd x => some x
  | .ffma x => some x
  | .pkfma x => some x
  | .dot4 x => some x
  | .dot2 x => some x
  | .ffmaF64Short x => some x
  | .ld x => some x
  | .lds x => some x
  | .ldc x => some x
  | .ldf x => some x
  | .st x => some x
  | .sts x => some x
  | .stf x => some x
  | .testf x => some x
  | .atom x => some x
  | .atomCas x => some x
  | .red x => some x
  | .fence x => some x
  | .ifence x => some x
  | .isspace x => some x
  | .awin x => some x
  | .pref x => some x
  | .barInit x => some x
  | .barArrive x => some x
  | .barExpect x => some x
  | .barWait x => some x
  | .barTest x => some x
  | .tlwait x => some x
  | .tlread x => some x
  | .scopew x => some x
  | .scopebind x => some x
  | .scopeq x => some x
  | .scoperet x => some x
  | .cpy x => some x
  | .cpyg x => some x
  | .hmk x => some x
  | .wld x => some x
  | .wsel x => some x
  | .mma x => some x
  | .mmam x => some x
  | .aclr x => some x
  | .adrn x => some x
  | .epld x => some x
  | .msave x => some x
  | .mres x => some x
  | .qnt x => some x
  | .qwait x => some x
  | .mld x => some x
  | .mst x => some x
  | .mset x => some x
  | .mmov x => some x
  | .madd x => some x
  | .msub x => some x
  | .mmul x => some x
  | .mscl x => some x
  | .mfma x => some x
  | .mrelu x => some x
  | .mexp x => some x
  | .msigm x => some x
  | .mtanh x => some x
  | .mrcp x => some x
  | .mcol x => some x
  | .tst x => some x
  | .tred x => some x
  | .tideClose x => some x
  | .tideWait x => some x
  | .tideQuery x => some x
  | .rld x => some x
  | .ratom x => some x
  | .send x => some x
  | .arm x => some x
  | .disarm x => some x
  | .launch x => some x
  | .hint x => some x
  | .trap x => some x
  | .tret x => some x
  | .csave x => some x
  | .crest x => some x
  | .sysr x => some x
  | .sysw x => some x
  | .cap x => some x
  | .halt x => some x
  | .evqPop x => some x
  | .trel x => some x
  | .byteAbsDiffSum x => some x
  | .retiredOperation _ x => some x
  | _ => none

end Sys2Proof
end

