-- ==== Sys2Proof/Config.lean ====
section
/-! DEFINITION. What an implementation fixes and the spec does not: constants without a body, so that nothing can be proved of their
values (log entries 4, 6, 7, 10 and 39). -/

namespace Sys2Proof.Config

/-- A free 64-bit value, the n-th one the machine takes (log entry 4). -/
opaque freeValue : Nat → DWord

/-- The 64-bit serial number of a device (R420, R436; log entry 6). -/
opaque serial : Nat → DWord

/-- Key bits made by Ilcia's generator (R414), and payloads of attestation (R419; log entry 6). -/
opaque secret : Nat → DWord

/-- Core cycles that pass at a step beyond one (R8; log entry 7). -/
opaque extraCycles : Nat → Nat

/-- The device's candidate for an approximate result: function number, first and second operand (R121, R189, R202; log
entry 10). The same for the same input on every core. -/
opaque approx : Nat → DWord → DWord → DWord

/-- XTS-AES-256 of a 64-byte line under a key and a tweak, and the AES encryption of a tweak for the race metadata (R410; log entry 6). -/
opaque xts : List DWord → Nat → List Byte → List Byte
opaque tweakBlock : List DWord → Nat → BitVec 128

/-- AES-GCM-256 under a key and a nonce with associated data: the ciphertext, and the tag (R412, R416; log entry 6). -/
opaque gcm : List DWord → Nat → Nat → List (Nat × Byte) → List Byte
opaque gcmTag : List DWord → Nat → Nat → List (Nat × Byte) → BitVec 128

/-- How the fields of a packet stand in its flits (R364, R416; log entry 6). -/
opaque flits : List Nat → List Byte

/-- How race metadata stands beside a line (R299, R410), and the 32 bytes of an inbound buffer entry in the tide log (R384): from their numbers
(log entry 6). -/
opaque raceMeta : List Nat → BitVec 128
opaque tideEntry : List Nat → List Byte

/-- The first guest-physical byte of a chip's tide log and of its inbound log, which Samphire places outside the quota (R371, R374; log entry
6). -/
opaque tideLogAt : Nat → Nat
opaque inboundLogAt : Nat → Nat

/-- What a line decrypts to under a key and a tweak (R410; log entry 6). -/
opaque xtsOpen : List DWord → Nat → List Byte → List Byte

/-- Less 1, the code of the cause table that an interrupt carries whose cause the spec does not name (R395; log entry 39): 0 XLFAULT,
1 a control routine at its limit, 2 a link counter at 2^47, 3 a message's race. -/
opaque noticeCause : Nat → Fin 22

end Sys2Proof.Config
end

