-- ==== Sys2Proof/Machine/State.lean ====
section
/-! DEFINITION. The state of the machine as plain data: the pod with its devices, guests, virtual chips, tasks, gangs and
threads (R1, R39, R233, R243, R356), its faults and refusals, and the state right after reset. -/

namespace Sys2Proof.Machine

/-! ### Threads and gangs -/

/-- Why a bundle is held (R233, R270). The first ten are the wait kinds of the snapshot, 1 to 10 in order; the rest are
waits that no budget is charged for. -/
inductive WaitKind where
  | ldf | barWait | tlwait | qwait | tideWait | tideClose | msaveMres | alloc | queueFull | arrayHeld
  /-- a read or write that waits under R30 rule 4 or 5, or EXIT and CSAVE under rule 6 -/
  | result
  /-- the Lovage unit's reply (R431) -/
  | lovage
  /-- a thread that has issued TRET before the rest of its gang (R401) -/
  | tret
  /-- no trap frame is free (R399) -/
  | frame
  /-- 32 remote loads and atomics are outstanding (R405) -/
  | remote
  /-- EVQ.POP.wait on an empty queue (R229) -/
  | evq
deriving DecidableEq, Repr

/-- A held bundle: the kind, the address or counter waited on, the token or value expected, the instruction that waits,
and the values it read of SA and SB when it issued. -/
structure Wait where
  kind : WaitKind
  addr : DWord
  expect : Word
  instr : Instr
  vals : List (Lanes DWord)
  /-- engine commands that the task had issued when the wait began (R194, R197) -/
  mark : Nat
deriving DecidableEq, Repr

/-- A bundle: threads of one gang at one address that share one state (R235), with its pass count (R238). A re-formation that joins bundles
blocked by one wait instruction keeps the waits of those that joined, with their lanes: each ends when its own condition holds. -/
structure Bundle where
  lanes : LaneMask
  passes : Nat
  wait : Option Wait
  also : List (LaneMask × Wait)
deriving DecidableEq, Repr

/-- A physical register mapped to a vector name: 32 lanes of 32 bits and the live mask (R41). -/
structure VReg where
  live : LaneMask
  data : Lanes Word
deriving DecidableEq, Repr

/-- What a long-latency result is written to. -/
inductive DstName where
  /-- a vector name and the number of registers it occupies (1, 2 or 4) -/
  | vec (name regs : Nat)
  /-- an operand-file name and the number of registers -/
  | oper (name regs : Nat)
  | uni (name : Nat)
  | mom (name : Nat)
  /-- vz: the result is discarded -/
  | sink
deriving DecidableEq, Repr

/-- The kinds of outstanding result: R408 names the remote ones. -/
inductive PendKind where
  | here | rld (wide : Bool) | ratom (wide : Bool)
deriving DecidableEq, Repr

/-- An outstanding long-latency result (R30, R31, R44, R405, R408). -/
structure Pend where
  /-- identity within the gang, for replies -/
  id : Nat
  kind : PendKind
  dst : DstName
  /-- lanes whose result is still to be written -/
  lanes : LaneMask
  /-- lanes whose value has not come yet -/
  missing : LaneMask
  vals : Lanes (BitVec 128)
  /-- IEEE flags that the result raises when it arrives (R116) -/
  flags : Lanes (BitVec 5)
  /-- lanes in which an enabled trap waits for the result (R116) -/
  traps : LaneMask
  /-- window instructions still to issue in each lane (R30) -/
  wleft : Lanes (BitVec 4)
  /-- a window instruction has written the destination (R31) -/
  sup : Bool
  /-- the result has come and has raised its flags; lanes still in their window are written after it (R30 rules 1 and 5, R116) -/
  come : Bool
  pc : DWord
  active : LaneMask
  instr : Instr
  /-- source values for a replay (R401, R407) -/
  repl : List (Lanes (BitVec 128))
deriving DecidableEq, Repr

/-- A tensor handle: a copy of its descriptor (R166). -/
structure Handle where
  base : DWord
  rank : Nat
  esize : Nat
  ext : List Nat
  stride : List DWord
deriving DecidableEq, Repr

/-- A replay that TRET has made due (R401): its lanes, the instruction's address, where the threads go on, the sources and the superseded
bit. -/
structure Replay where
  lanes : LaneMask
  pc : DWord
  back : Lanes DWord
  repl : List (Lanes (BitVec 128))
  sup : Bool
deriving DecidableEq, Repr

/-- What the device keeps of the fault whose handler runs: the instruction's address, the resume address and the active lanes
(R396: TRET reads them from no record). -/
structure FaultMark where
  pc : DWord
  resume : DWord
  active : LaneMask
  /-- scope entries that the handler has bound since (R307) -/
  rebound : BitVec 64
  /-- replays that had not been executed when the fault was taken -/
  again : List Replay
deriving DecidableEq, Repr

/-- A gang: 32 threads with the registers they own or share (R39, R233). -/
structure Gang where
  pc : Lanes DWord
  exited : LaneMask
  bundles : List Bundle
  vmap : Tab VReg
  /-- names that a freed register was given to for an instruction stalled in its allocation, until that instruction writes them (R46) -/
  granted : List Nat
  ofile : Vector (Lanes Word) 8
  /-- the valid entries of l0 to l3 of each lane, l0 first (R29) -/
  last : Lanes (List DWord)
  sreg : Vector DWord 64
  /-- p0 to p14 of each lane, p0 at bit 0 -/
  pred : Lanes (BitVec 15)
  /-- m0 to m31: mean in the low half (R39) -/
  mom : Vector (Lanes DWord) 32
  hand : Vector (Option Handle) 16
  fpctl : Lanes Word
  fpflag : Lanes Word
  mflag : Lanes Word
  /-- scope bindings (R157): none, or a version -/
  bind : Vector (Option (BitVec 24)) 64
  pl : Level
  c16 : Bool
  moments : Bool
  nreg : Nat
  pend : List Pend
  /-- handler mode and the index of its frame (R399) -/
  frame : Option Nat
  /-- remote results whose entries stand in the frame's image, by place (R399, R405); and results with an FP_TRAP of their own, which is
  taken after the handler's return (log entry 14) -/
  saved : List Pend
  /-- the gang's registers stand in its spill area (R47) -/
  spilled : Bool
  /-- YIELD since the gang last entered the active set (R104) -/
  yielded : Bool
  /-- die cycle at which the gang last entered or left its active set (R241, R47) -/
  moved : Nat
  /-- a fault that waits for a free trap frame: its record and the sources for a replay (R399) -/
  waiting : Option (List Byte × List (Lanes (BitVec 128)))
  /-- in handler mode: the fault that led there -/
  mark : Option FaultMark
  /-- instructions that TRET executes once more, in that order -/
  replay : List Replay
  /-- threads whose waiting LDF the orphan test has found beside the one that faulted first, with that LDF's address: their own EMPTY_ORPHAN
  comes when it issues again (R149) -/
  orphaned : List (LaneMask × DWord)
  /-- threads that a handler has made exit, and that wait for their outstanding results as EXIT does (R401, R30 rule 6) -/
  exiting : LaneMask
deriving DecidableEq, Repr

/-! ### Tasks, engines and cores -/

/-- A leased page: its first virtual address, its bytes and where it lies (R261). -/
structure Lease where
  va : Nat
  bytes : Nat
  host : Bool
  frame : Nat
deriving DecidableEq, Repr

/-- An extent: virtual range, access code of R80 and its leased translations (R261, R279). -/
structure Extent where
  base : Nat
  size : Nat
  acc : Nat
  pages : List Lease
deriving DecidableEq, Repr

/-- A weight slot (R175): offset and size in 128-byte units, and format. -/
structure WSlot where
  woff : Nat
  units : Nat
  fmt : Nat
deriving DecidableEq, Repr

/-- A clock of the happens-before relation (R295): how far each agent has been seen. -/
abbrev VClock := Tab Nat

/-- Who issued an engine command: gang number, active lanes, addresses, and the issuing thread's clock (R170, R295). -/
structure IssuedBy where
  gang : Nat
  lanes : LaneMask
  pc : DWord
  /-- the address after the issuing instruction -/
  next : DWord
  clock : VClock
  /-- the command's own number among the agents of the race record, and its clock there: a save releases what it has done (R403) -/
  agent : Nat
  clk : Nat
  /-- the command's number among the operations of its counter, from 1 (R161) -/
  ticket : Nat
  /-- the command's number among the task's engine commands -/
  seq : Nat
deriving DecidableEq, Repr

/-- A matrix queue entry, with the fields of R193. -/
structure MCmd where
  op : Nat
  tile : Nat
  tl : Nat
  count : Nat
  aoff : Nat
  w0 : DWord
  w1 : DWord
  by_ : IssuedBy
deriving DecidableEq, Repr

/-- The matrix command in flight with its counters and partial sums (R181, R193). -/
structure Flight where
  cmd : MCmd
  row : Nat
  dep : Nat
  col : Nat
  kpos : Nat
  pacc : List DWord
  /-- every element or byte is written; the counter has yet to advance (R161, R181) -/
  finished : Bool
  /-- terms of row ROW taken since the row or its resumption began (R340) -/
  taken : Nat
  /-- C0 to C3, read when a drain with a program begins (R187) -/
  cvs : List Word
deriving DecidableEq, Repr

/-- The latched weights (R177): slot, format and the block's bytes. -/
structure Latch where
  slot : Nat
  fmt : Nat
  block : Mem
deriving DecidableEq, Repr

/-- The array state a task owns while it holds the array (R171, R193, R338). -/
structure Arr where
  tiles : Mem
  wbuf : Mem
  slots : Tab WSlot
  latch : Option Latch
  eprog : Option (List Word)
  flight : Option Flight
  queue : List MCmd
deriving DecidableEq, Repr

/-- How far a copy command has come (R170, R406). -/
inductive CopyPhase where
  | queued | moving | landed | entered
deriving DecidableEq, Repr

/-- The four registers of a tidal region (R374). -/
structure Region where
  base : DWord
  win : DWord
  ctl : DWord
  flag : DWord
deriving DecidableEq, Repr

/-- A tensor box copy or a SEND in a core's copy queue (R167, R168, R218, R406). Kind 1 CPY, 2 CPYG, 3 SEND. -/
structure CopyCmd where
  kind : Nat
  chip : Nat
  task : Nat
  tl : Nat
  by_ : IssuedBy
  /-- the 128-byte copy record, or the 32-byte send descriptor -/
  record : List Byte
  handle : Option Handle
  rows : List Nat
  prog : Nat
  phase : CopyPhase
  /-- a copy from pod space: the number of the request whose reply element PROG waits for (R377) -/
  asked : Option Nat
  /-- a copy to pod space: the chips and regions that its elements lay in as it was checked, under whose rules its writes leave (R377, R382) -/
  seen : List (Nat × Region)
deriving DecidableEq, Repr

/-- A QNT command (R195): its 64-byte record and issuer. -/
structure QCmd where
  chip : Nat
  task : Nat
  tl : Nat
  by_ : IssuedBy
  record : List Byte
  running : Bool
deriving DecidableEq, Repr

/-- A Lovage request (R431): opcode number above 0x380, SUB, active lanes, sources. -/
structure LovEntry where
  g : GangRef
  core : Nat
  k : BitVec 6
  x : Ops
  lanes : LaneMask
  bundle : LaneMask
  pc : DWord
  a : Lanes Word
  b : Lanes Word
deriving DecidableEq, Repr

/-- How a saved task of a protected chip is sealed (R412): SEALCNT, the place of its record in the save area, and the tags of its chunks. -/
structure Sealing where
  count : Nat
  place : Nat
  tags : List (BitVec 128)
deriving DecidableEq, Repr

/-- A task (R243, R244). `core` is none while it is pre-empted. -/
structure Task where
  handle : Nat
  num : Nat
  core : Option CoreRef
  base : Nat
  gangs : Tab Gang
  /-- SCRP: scratchpad units of 2,048 bytes -/
  scrp : Nat
  scratch : Mem
  /-- full words of the scratchpad: word index to 1 (R147) -/
  full : Mem
  tl : Vector DWord 8
  /-- operations issued on each counter and not yet complete, oldest first, with those done out of order (R161) -/
  tlq : Vector (List Bool) 8
  extents : List Extent
  image : DWord
  /-- first guest-physical byte of the private backing (R276) -/
  priv : Nat
  arr : Arr
  /-- engine commands that the task has issued (R197) -/
  seq : Nat
  /-- a task-ending fault has been taken (R246) -/
  ended : Bool
  /-- its fault record waits for room in the fault queue (R402) -/
  undelivered : Bool
  /-- the task held the array when it was pre-empted (R409) -/
  heldArray : Bool
  /-- the array, tile and weight-buffer restore still waits (R268) -/
  arrayDue : Bool
  /-- copies and SENDs saved by a pre-emption (R406) -/
  copies : List CopyCmd
  /-- a pre-emption that waits until the trap entry of the task's gangs is complete (R400, R403) -/
  leaving : Bool
  /-- first scratchpad unit of the core that the allocation takes (R243) -/
  spos : Nat
  /-- the seal of a protected chip's saved task (R412) -/
  sealed : Option Sealing
  /-- the place of its launch in acceptance order, by which the race record tells it from another launch's in the same ring entry (R295) -/
  born : Nat
deriving DecidableEq, Repr

/-- One of the four subcores: the four places of the active set and the round-robin pointer among them (R237, R241). -/
structure Subcore where
  active : Vector (Option GangRef) 4
  rr : Nat
deriving DecidableEq, Repr

/-- The control core while it runs a routine (R265). Its registers use lane 0 of a gang record. -/
structure CtrlRun where
  chip : Nat
  gang : Gang
  /-- die cycle at which the routine was entered (R266) -/
  began : Nat
deriving DecidableEq, Repr

/-- A physical core (R1, R171, R263). -/
structure Core where
  diag : Bool
  halted : Bool
  holder : Option (Nat × Nat)
  /-- tasks that wait for the array, in the order in which their matrix instructions issued (R268) -/
  wants : List (Nat × Nat)
  copyq : List CopyCmd
  subs : Vector Subcore 4
  evq : Tab (List DWord)
  evWait : Tab (List DWord)
  ctrl : Option CtrlRun
  /-- the context whose routine ran last (R265) -/
  lastCtx : Nat
  /-- the scrub of R413 is due before the next fetch -/
  scrub : Bool
  /-- a unit was power-gated during a protected context and is to be zeroed when ungated (R413) -/
  gated : Bool
deriving DecidableEq, Repr

/-! ### Launches and queues -/

/-- The launch record of R253. -/
structure LaunchRec where
  image : DWord
  args : DWord
  gtab : DWord
  dtab : DWord
  ntask : Nat
  gangs : Nat
  sig : Nat
  flags : Nat
  aq : Nat
  waits : List (Nat × DWord)
  /-- the reserved bytes are zero and every wait is well formed -/
  clean : Bool
deriving DecidableEq, Repr

/-- A used group table entry (R247). -/
structure Group where
  slot : Nat
  kind : Nat
  scope : Nat
  members : List Nat
deriving DecidableEq, Repr

/-- The message that a fired launch holds its receive-buffer slot for: tag, slot, and its number among the messages the tag has taken (R220,
R367). -/
structure SlotRef where
  tag : Nat
  slot : Nat
  num : Nat
deriving DecidableEq, Repr

/-- Launch states of R258. -/
inductive LState where
  | checked | waiting | translating | running | done | ended | rejected
deriving DecidableEq, Repr

/-- A launch the scheduler holds (R254 to R262). -/
structure Launch where
  record : LaunchRec
  /-- guest address of the ring record, for STATUS -/
  at_ : DWord
  hdr : DWord
  scopes : DWord
  code : Nat
  data : Nat
  descs : List Word
  args : List DWord
  holds : Tab Nat
  groups : List Group
  state : LState
  extents : List Extent
  dispatched : Tab Nat
  retired : Nat
  faulted : Bool
  order : Nat
  /-- the place of the queue's previous record (R253, INORD) -/
  after : Option Nat
  /-- fired by a message (R220, R367) -/
  fired : Option SlotRef
  /-- releases acquired when the launch left waiting (R260) -/
  clock : VClock
  /-- what its retired tasks and their engine commands have done (R259) -/
  made : VClock
  core : CoreRef
deriving DecidableEq, Repr

/-- A host or device queue (R256, R257). -/
structure Queue where
  base : DWord
  en : Bool
  dev : Bool
  prio : Nat
  lg : Nat
  err : Bool
  head : Nat
  tail : Nat
  /-- argument copies and tag of fired launches placed in the ring, by index (R220) -/
  fired : Tab (List DWord × SlotRef)
  /-- release clocks of LAUNCH by ring index (R222) -/
  clocks : Tab VClock
  /-- ring indices of records that a firmware-level context launched (R81) -/
  firm : List Nat
  /-- place in acceptance order of the last record that left QHEAD -/
  last : Option Nat
deriving DecidableEq, Repr

/-- A launch naming a timeline, in acceptance order: its handle, and 0 while it runs, 1 when it is done and held, 2 when it is a gap
(R260). A SEND of the control core stands in the list under a handle of its own (R265). -/
structure LtItem where
  handle : Nat
  state : Nat
  clock : VClock
deriving DecidableEq, Repr

/-- A launch timeline (R257, R260). -/
structure Timeline where
  value : DWord
  items : List LtItem
  clock : VClock
deriving DecidableEq, Repr

/-! ### Chips -/

/-- A scope entry (R157, R306): membership by physical core, host and fabric interfaces, version, group-shaped mark, and
the launch it is tracked for. -/
structure ScopeEntry where
  mask : BitVec 160
  hostif : Bool
  fabif : Bool
  version : BitVec 24
  grp : Bool
  track : Option Nat
deriving DecidableEq, Repr

/-- A buffered write of a tide to one element (R377, R384): source chip, rule and element type of the region
that its sender saw (R382), value. -/
structure TWrite where
  src : Nat
  rule : Nat
  et : Nat
  value : DWord
deriving DecidableEq, Repr

/-- The buffered entry of one element: its width in bytes and its writes in arrival order (R384). -/
structure TElem where
  width : Nat
  writes : List TWrite
deriving DecidableEq, Repr

/-- One half of the inbound buffer (R383): elements by tidal offset, counts received by source, closes received by
source. -/
structure Half where
  elems : Tab TElem
  got : Tab Nat
  closes : Tab Nat
  /-- element writes this chip has addressed to each peer (R378 step 1) -/
  sent : Tab Nat
  /-- writes of the half have spilled to the tide log (R213, R384) -/
  spilled : Bool
deriving DecidableEq, Repr

/-- The tide state of a chip (R210, R213, R374). -/
structure Tide where
  c : DWord
  closed : Bool
  apply : Bool
  eff : Tab Region
  staged : Tab Region
  /-- the translations that region leases hold (R375) -/
  held : Tab (List Lease)
  pend : Bool
  err : Bool
  lost : Bool
  qbase : DWord
  qhead : Nat
  qtail : Nat
  tibq : Nat
  tlog : Nat
  /-- a smaller log size that waits until both halves fit (R385) -/
  tlogDue : Option Nat
  /-- a smaller TIBQ share that waits until both halves fit (R384) -/
  tibqDue : Option Nat
  satw : Bool
  conf : Bool
  now : Half
  next : Half
deriving DecidableEq, Repr

/-- A message (R217, R218). -/
structure Msg where
  src : Nat
  dst : Nat
  tag : Nat
  payload : List Byte
  flag : DWord
  flagv : DWord
  /-- what happens before the flag store (R218, R367) -/
  clock : VClock
deriving DecidableEq, Repr

/-- A place of the outbound store (R219): the message, its payload address until it is read, and who sent it. -/
structure OutMsg where
  msg : Msg
  paddr : DWord
  len : Nat
  read : Bool
  task : Nat
  tl : Nat
  by_ : IssuedBy
deriving DecidableEq, Repr

/-- A tag's receive buffer (R367, R371). -/
structure RxTag where
  base : DWord
  v : Bool
  next : Nat
  drop : Nat
  busy : BitVec 8
  nslot : Nat
  /-- slots whose message has not fired a launch, oldest first (R220) -/
  unfired : List Nat
  /-- messages that the tag has taken, and the number of the one that each busy slot holds -/
  count : Nat
  held : Tab Nat
deriving DecidableEq, Repr

/-- An armed record (R220): its 128 bytes and its argument copy. -/
structure ArmEntry where
  record : List Byte
  args : List DWord
  /-- a firmware-level context armed it (R81) -/
  firm : Bool
deriving DecidableEq, Repr

/-- A fired launch that waits for its queue (R221, R256). -/
structure Fired where
  at_ : SlotRef
  entry : ArmEntry
deriving DecidableEq, Repr

/-- Trap registers (R397). `frames` are the frame indexes in use; `due` holds records that wait for room (R402). -/
structure Trap where
  tcbase : DWord
  tcsize : Nat
  tfbase : DWord
  en : Bool
  lerr : Bool
  tfn : Nat
  frames : List Nat
  code : List Lease
  area : List Lease
  fqbase : DWord
  fqhead : Nat
  fqtail : Nat
  csarea : DWord
  due : List (List Byte × Nat)
deriving DecidableEq, Repr

/-- Migration registers and tracking (R388 to R390). -/
structure Mig where
  en : Bool
  tdev : Nat
  tslot : Nat
  bmp : DWord
  busy : Bool
  fail : Bool
  rounds : Nat
  pages : Nat
  dirty : List Nat
  /-- pages the running round has still to copy -/
  todo : List Nat
  staging : Option Mem
  /-- where the granules of the staging copy lie (R287, R390) -/
  tiers : Tab Nat
deriving DecidableEq, Repr

/-- Control-core registers of a chip (R257, R266). -/
structure CcRegs where
  entry : DWord
  area : DWord
  offs : Nat
  cause : Nat
  limit : Bool
  drop : Bool
  stop : Bool
deriving DecidableEq, Repr

/-- A past access to a byte that a later one may race with (R299, R301). -/
structure PastAccess where
  agent : Nat
  gang : Nat
  clk : Nat
  atomic : Bool
  write : Bool
  handle : Nat
  task : Nat
  gangNo : Nat
deriving DecidableEq, Repr

/-- A synchronising operation as R296 judges it: the core and the task that made it, and the effective set of its entry as it saw it, as
cores and as the tasks that stood in it. -/
structure ScopeView where
  core : Nat
  task : Nat
  mask : BitVec 160
  holds : List Nat
  /-- the set holds the agents of the guest's other chips, which the fabric interface acts for (R304, R306) -/
  pod : Bool
  /-- the operation came from another chip through the fabric interface (R215) -/
  foreign : Bool
deriving DecidableEq, Repr

/-- A release in a byte's release sequence (R296): its clock, and who made it at which effective set. -/
structure Release where
  clock : VClock
  at_ : ScopeView
deriving DecidableEq, Repr

/-- A release fence of a thread in force (R296): its effective set, with the clock at the fence. -/
structure FenceRec where
  at_ : ScopeView
  clock : VClock
deriving DecidableEq, Repr

/-- The happens-before record of a chip (R292 to R301). -/
structure Hb where
  clocks : Tab VClock
  past : Tab (List PastAccess)
  rels : Tab (List Release)
  /-- clocks carried by counter advances, barrier objects, full words and turns, by key -/
  carried : Tab VClock
  /-- release fences in force, by thread -/
  relFence : Tab (List FenceRec)
  /-- releases that atomic reads have observed and a later acquire fence may take, by thread -/
  seen : Tab (List Release)
  /-- threads whose last instruction was FENCE.rel or FENCE.ar (R293) -/
  afterFence : List Nat
  /-- the next number for an engine command's own agent -/
  next : Nat
deriving DecidableEq, Repr

/-- A host AtomicOp that the host interface performs as a read and a write, between the two (R312): its word, width, operation and operands,
and the value read. -/
structure HostHalf where
  addr : DWord
  op : Nat
  wide : Bool
  value : DWord
  cmp : DWord
  old : DWord
deriving DecidableEq, Repr

/-- The seal of a save area's head and snapshot (R412): SEALCNT, the tasks and the snapshot that it covers, and the tags of the two chunks. -/
structure HeadSeal where
  count : Nat
  ntask : Nat
  snap : List Byte
  tags : List (BitVec 128)
deriving DecidableEq, Repr

/-- A host-half page translation (R286). -/
structure AtsEntry where
  answer : HostAnswer
deriving DecidableEq, Repr

/-- What the acceptance of a record has read before a page held it (R254, R262): its handle, the bytes by address, and the record's own
first. -/
structure Reading where
  handle : Nat
  kept : List (Nat × List Byte)
deriving DecidableEq, Repr

/-- A virtual chip: a context (R356). -/
structure Chip where
  guest : Nat
  num : Nat
  dev : Nat
  slot : Nat
  quota : Nat
  nearQuota : Nat
  mem : Mem
  ats : Tab AtsEntry
  overOk : Bool
  overEn : Bool
  scopeOk : Bool
  scopeEn : Bool
  scopes : Vector ScopeEntry 64
  queues : Vector Queue 64
  lt : Vector Timeline 64
  cores : Nat
  sliced : Bool
  slice : DWord
  wbudget : DWord
  snapa : DWord
  xlfault : DWord
  cc : CcRegs
  waitRun : Tab Nat
  mig : Mig
  trap : Trap
  tide : Tide
  mbxBase : Vector DWord 8
  mbxSize : Vector Nat 8
  /-- the translations of each mailbox region's bytes, leased from its declaration on (R278, R366) -/
  mbxHeld : Vector (List Lease) 8
  rx : Tab RxTag
  inlogSize : Nat
  inlog : List Msg
  arm : Tab ArmEntry
  outbound : List OutMsg
  fired : List Fired
  launches : Tab Launch
  tasks : Tab Task
  snap : List Byte
  prot : Bool
  /-- the chip was stopped by a revoked key, a seal failure or an interface error (R412, R415, R418) -/
  stopped : Bool
  /-- reads of the chip's memory return all ones (R415) -/
  revoked : Bool
  moving : List Nat
  tiers : Tab Nat
  hb : Hb
  acceptSeq : Nat
  /-- a sliced context holds its clusters (R267) -/
  turnHeld : Bool
  /-- cycle of die 0 at which its turn began -/
  turnFrom : Nat
  /-- an unsliced context was pre-empted for its waiting budget and does not run yet (R269; log entry 17) -/
  parked : Bool
  /-- host AtomicOps between their read and their write, oldest first (R312) -/
  hostRead : List HostHalf
  /-- how the head and the snapshot of a protected chip's save area are sealed (R412) -/
  headSeal : Option HeadSeal
  /-- the queue that each priority's last dispatch served (R268) -/
  turns : Tab Nat
  /-- the acceptance that is under way at a page, for each queue (R254, R262) -/
  readings : Tab Reading
  /-- host pages requested through PRI and not yet answered (R286) -/
  pri : List Nat
deriving DecidableEq, Repr

/-! ### Fabric, guests, devices -/

/-- What a packet carries (R358, R364). -/
inductive PBody where
  | tidal (tide off width rule et : Nat) (value : DWord)
  | close (tide count : Nat)
  | msg (m : Msg)
  | rld (g : GangRef) (id lane : Nat) (off : Nat) (mailbox wide : Bool) (tide : DWord) (closed : Bool)
  | ratom (g : GangRef) (id : Nat) (lanes : List Nat) (off : Nat) (op : Nat) (ord : Nat) (wide : Bool)
      (vals : List (DWord × DWord)) (clock : VClock) (rels : List Release)
  /-- values by lane, with the releases that the word carried and whether they are acquired -/
  | reply (g : GangRef) (id : Nat) (values : List (Nat × DWord)) (rels : List Release) (acq : Bool)
  /-- a pod-space copy's request for an element, by chip, task, command and request number (R361, R377) -/
  | fetch (chip task seq num : Nat) (off bytes : Nat) (mailbox : Bool) (tide : DWord) (closed : Bool)
  | fetched (chip task seq num : Nat) (bytes : List Byte)
deriving DecidableEq, Repr

/-- What a packet of a protected guest's link is sealed under: the key and the link's packet counter, and the tag in its last flit (R416). -/
structure LinkSeal where
  bits : List DWord
  count : Nat
  tag : BitVec 128
deriving DecidableEq, Repr

/-- A packet: made at its sender's interface, then on a plane in the fabric (R353, R358, R361). -/
structure Packet where
  guest : Nat
  src : Nat
  dst : Nat
  body : PBody
  /-- a write to a collective region: its multicast set, until the packet leaves for the members that stand then (R358, R369) -/
  mset : Option Nat
  left : Bool
  plane : Nat
  /-- a reply's: the plane of its request (R361) -/
  via : Nat
  toDev : Nat
  toSlot : Nat
  /-- past its switch: in the receive buffer of the target device's link, and no longer in that of the switch (R364) -/
  passed : Bool
  delivered : Bool
  /-- refused at its target and held at its sender (R218, R367, R385) -/
  refused : Bool
  /-- delivered, and waiting at its target for the turn that it needs (R214) -/
  standing : Bool
  /-- the value that a remote read returns, once the turn that it must not see has come (R214) -/
  kept : Option Nat
  /-- its seal since it left, on a protected guest's link (R416) -/
  cipher : Option LinkSeal
deriving DecidableEq, Repr

/-- A guest's tables (R357) and its hold (R352). -/
structure Guest where
  vct : Tab DWord
  rlt : Tab DWord
  mcset : Tab DWord
  held : Bool
  /-- held by a remap beside any HOLD (R363) -/
  remap : Bool
  prot : Bool
deriving DecidableEq, Repr

/-- State of a switch-plane link (R365). -/
inductive LinkState where
  | up | degraded | failed
deriving DecidableEq, Repr

/-- A link of a device: working lanes, usable receive buffer in flits, state (R364, R365). -/
structure Link where
  lanes : Nat
  flits : Nat
  state : LinkState
deriving DecidableEq, Repr

/-- A key-store slot (R414, R417). State 0 empty to 4 revoked. -/
structure KeySlot where
  state : Nat
  kind : Nat
  drain : Bool
  guest : Nat
  chipA : Nat
  chipB : Nat
  prot : Bool
  bits : List DWord
deriving DecidableEq, Repr

/-- TDISP interface states (R418); `creating` reads as CONFIG_UNLOCKED. -/
inductive TdiState where
  | unlocked | creating | locked | run | error
deriving DecidableEq, Repr

/-- A TDISP interface (R417, R418). -/
structure Tdi where
  state : TdiState
  reason : Nat
  ide : Bool
deriving DecidableEq, Repr

/-- The answer to a TDISP or SPDM request (R418, R419): a code naming the answer, and its payload. -/
structure Answer where
  request : Nat
  ok : Bool
  payload : List DWord
deriving DecidableEq, Repr

/-- SPDM responder state (R419). -/
structure Spdm where
  version : Bool
  caps : Bool
  algorithms : Bool
  session : Bool
  finished : Bool
  sigIndex : Nat
  answers : List Answer
deriving DecidableEq, Repr

/-- A physical device (R1). Each of its three dies has its own cycle counter (R8). -/
structure Device where
  stage : Nat
  bootErr : Nat
  cycle0 : Nat
  cycle1 : Nat
  cycleIo : Nat
  cores : Tab Core
  quant0 : List QCmd
  quant1 : List QCmd
  lov0 : List LovEntry
  lov1 : List LovEntry
  slots : Tab Nat
  samring : DWord
  samtail : Nat
  samhead : Nat
  gselGuest : Nat
  gselChip : Nat
  gselErr : Bool
  fabErr : Nat
  live : BitVec 16
  links : Tab Link
  keys : Tab KeySlot
  keyData : Vector DWord 8
  ksResult : Nat
  ksBusy : Bool
  dbgReq : DWord
  dbgStat : Nat
  unlocked : Bool
  tdi : Tab Tdi
  sealCnt : Tab Nat
  stagBase : Tab DWord
  linkCtr : Tab Nat
  /-- the lowest counter that the receiver of a LINK slot's link still accepts (R416) -/
  linkSeen : Tab Nat
  /-- LINK slots whose counter has interrupted the supervisor at 2^47 (R416) -/
  warned : List Nat
  spdm : Spdm
  clockLow : Bool
  /-- VF Enable of the SR-IOV capability (R418, R436) -/
  vfEnable : Bool
  hints : List (Nat × Nat)
  hintAgreed : List Nat
deriving DecidableEq, Repr

/-- An interrupt of a supervisor, or a notification of the host (R263, R360, R390, R395): who, and the cause. -/
inductive Irq where
  | supervisor (chip cause : Nat)
  | host (dev cause : Nat)
deriving DecidableEq, Repr

/-- Who issues the next instruction. -/
inductive Issuer where
  /-- the bundle of the gang that holds exactly these lanes -/
  | gang (g : GangRef) (lanes : LaneMask)
  | ctrl (core : CoreRef)
deriving DecidableEq, Repr

/-- The machine. -/
structure State where
  devs : Tab Device
  guests : Tab Guest
  chips : Tab Chip
  hostMem : Mem
  packets : List Packet
  irqs : List Irq
  /-- who issues the instruction that comes next -/
  issuer : Option Issuer
  /-- the model's own: those whom this cycle's choice lets issue after that (R237, R238), in order -/
  due : List Issuer
  /-- the model's own: hardware and host events that happen next, in order -/
  agenda : List Instr
  /-- the model's own: how many free values have been taken -/
  fresh : Nat
deriving DecidableEq, Repr

/-- Why the machine as a whole stops. Every fault of the spec (R395) is a next state; these are not of the spec. -/
inductive Fault where
  /-- Raised by `exec` of an instruction when no bundle and no control routine stands to issue it. Safe: an instruction
  without an issuer has no effect to model. -/
  | noIssuer
deriving DecidableEq, Repr

/-- Why there is no meaning. -/
inductive Refusal where
  /-- An instruction whose arm is not written yet. Safe. -/
  | notModelled (mnemonic : String)
deriving DecidableEq, Repr

/-! ### Reset -/

/-- An interface that nothing has locked (R418). -/
def Tdi.reset : Tdi := ⟨.unlocked, 0, false⟩

/-- A device when it is reset (R436, R437): bring-up stage 0, no core running, key store empty. -/
def Device.reset : Device :=
  { stage := 0, bootErr := 0, cycle0 := 0, cycle1 := 0, cycleIo := 0, cores := [], quant0 := [], quant1 := [], lov0 := [], lov1 := [],
    slots := [], samring := 0, samtail := 0, samhead := 0, gselGuest := 0, gselChip := 0, gselErr := false, fabErr := 0,
    live := 0xFFFF, links := [], keys := [], keyData := Vector.replicate 8 0, ksResult := 0, ksBusy := false, dbgReq := 0,
    dbgStat := 0, unlocked := false, tdi := [], sealCnt := [], stagBase := [], linkCtr := [], linkSeen := [], warned := [],
    spdm := ⟨false, false, false, false, false, 0, []⟩, clockLow := false, vfEnable := false, hints := [], hintAgreed := [] }

/-- The machine right after reset: one device of the pod, in stage 0 of its bring-up (R436), and nothing else. -/
def State.reset : State :=
  { devs := [(0, Device.reset)], guests := [], chips := [], hostMem := [], packets := [], irqs := [], issuer := none, due := [],
    agenda := [], fresh := 0 }

end Sys2Proof.Machine
end

