-- ==== Sys2Proof/Machine/Operands.lean ====
section
/-! DEFINITION. Operand fields: what is legal in them (R21 to R28, R32 to R35, R37 orders 3 and 4, R83, R84), the constants of R23,
and how a source is read for a lane (R24, R38, R42, R140). -/

namespace Sys2Proof.Machine

/-! ### Constants (R23) -/

/-- Values that no format holds exactly, as n x 2^-200 with something below: pi, 1/(2 pi), ln 2, log2 e, 1/sqrt 2. -/
def deepConst (n : Nat) : Val := .fin false n (-200) true

/-- The float constants of indices 0x70 to 0x7F, k being the index less 0x70. -/
def floatConst (f : Fm) (k : Nat) : Nat :=
  let r (v : Val) : Nat := (roundVal f .rne false v).code
  match k with
  | 0 => r (.fin false 1 (-1) false)
  | 1 => r (.fin false 1 (-2) false)
  | 2 => r (.fin false 1 (-3) false)
  | 3 => r (.fin true 1 (-1) false)
  | 4 => r (deepConst 5048344754617993871973410141242436836214643421488662971535368)
  | 5 => r (deepConst 255752132986241185678408580023709873616295664310550962376831)
  | 6 => r (deepConst 1113844574712631719546256151097547306333272293549090750737802)
  | 7 => r (deepConst 2318321547468254865173387471183990171487108758923299108729110)
  | 8 => f.infCode
  | 9 => f.signed true f.infCode
  | 10 => f.qnan
  | 11 => f.maxCode
  | 12 => 2 ^ f.fb
  | 13 => 1
  | 14 => f.signBit
  | _ => r (deepConst 1136276788042180458070828951474823657989790988021617205464301)

/-- The integer that indices 0x40 to 0x6F stand for. -/
def smallInt (idx : Nat) : Int := if idx < 0x60 then (idx : Int) - 0x40 else (idx : Int) - 0x70

/-- The bits that a constant index delivers in a slot of w bits; none where R23 makes it ILLEGAL_OPERAND. -/
def constBits (t : Ty) (w : Nat) (idx : Nat) : Option Nat :=
  if idx < 0x40 || 0x7F < idx then none
  else
    match t with
    | .int _ _ => if idx < 0x70 then some (wrapNat (smallInt idx) w) else none
    | .fp f =>
      if !f.ieee then none
      else if idx < 0x70 then some (roundVal f .rne false (Val.ofInt (smallInt idx))).code
      else some (floatConst f (idx - 0x70))
    | .pk f =>
      let c := if idx < 0x70 then (roundVal f .rne false (Val.ofInt (smallInt idx))).code else floatConst f (idx - 0x70)
      some (c + c * 2 ^ 16)

/-! ### Legality -/

/-- Where an instruction is checked: diagnostic mode, 16-lane mode, MOMENTS, the control core. -/
structure Mode where
  diag : Bool
  c16 : Bool
  moments : Bool
  ctrl : Bool
deriving DecidableEq, Repr

/-- The mode of a plain kernel on a subcore, with moment registers. -/
def Mode.normal : Mode := ⟨false, false, true, false⟩

/-- Diagnostic mode of a kernel with moment registers (R35). -/
def Mode.diagnostic : Mode := ⟨true, false, true, false⟩

/-- A source field of zeros (R84). -/
def Src.zero : Src := ⟨.main 0, false, 0⟩

/-- MODx in diagnostic mode (R35). -/
def permOk (m : BitVec 12) (c16 : Bool) : Bool :=
  let cls := bitsOf m.toNat 11 10
  let seg := bitsOf m.toNat 9 7
  let dist := bitsOf m.toNat 6 2
  decide (m.toNat % 4 = 0) && decide (seg ≤ 5) && decide (dist < 2 ^ seg) && (cls != 0 || (seg == 0 && dist == 0)) && !(cls != 0 && c16)

/-- Neg and abs by kind (R32, R34). -/
def modOk (k : Kind) (m : BitVec 12) : Bool :=
  match k with
  | .F | .I => decide (m.toNat ≤ 3)
  | .B => decide (m.toNat ≤ 1)
  | .N => m == 0

/-- The modifier and last-read bit of a used source (R28, R32 to R35, R105). -/
def srcEnc (md : Mode) (f : Form) (plain : Bool) (s : Slot) (x : Src) : Bool :=
  (if plain then (if f = .A then modOk s.kind x.modf else x.modf == 0)
   else if md.diag && f != .A && f != .B then permOk x.modf md.c16 else modOk s.kind x.modf) &&
  (!x.lastRead || (s.cls == .V && match x.opnd with | .main i => i != 255 | _ => false))

/-- A field's encoding is legal for its use (order 3). -/
def useEnc (md : Mode) (f : Form) (plain : Bool) (u : Use) (x : Src) : Bool :=
  match u with
  | .none => decide (x = Src.zero)
  | .src s => srcEnc md f plain s x
  | .free => true
  | _ => x.modf == 0 && !x.lastRead

/-- The destination modifiers of R33. -/
def dstModOk (sp : OpSpec) (x : Ops) : Bool :=
  (x.clp == 0 && x.scl == 0) || (sp.d && x.scl != 4) || (sp.s && x.clp == 3 && x.scl == 0)

/-- The immediate obeys its rule. -/
def immOk (sp : OpSpec) (x : Ops) : Bool :=
  !x.form.hasImm || (match sp.imm with | .any => true | .below n => decide (x.imm.toNat < 2 ^ n))

/-- Order 3 of R37 for a decoded instruction: form, SUB, modifiers, last-read bits, LA, guard, zero fields. -/
def encOk (md : Mode) (sp : OpSpec) (x : Ops) : Bool :=
  sp.forms.contains x.form && sp.ok && (x.la == 0 || sp.l) && !(x.gp == 15 && x.gn) && dstModOk sp x && immOk sp x &&
  (sp.dst != .none || x.dst == .main 0) &&
  useEnc md x.form sp.plain sp.a x.a &&
  (if x.form.hasImm then decide (x.b = Src.zero) else useEnc md x.form sp.plain sp.b x.b) &&
  useEnc md x.form sp.plain sp.c x.c

/-- A register index of a class V slot (R22, R24, R140). -/
def vIndexOk (ctrl : Bool) (regs : Nat) (i : Nat) : Bool :=
  i == 255 || (decide (i % regs = 0) && decide (i + regs ≤ (if ctrl then 64 else 255)))

/-- A source operand is legal in its slot (order 4, R22 to R25, R140, R265). -/
def srcOk (md : Mode) (s : Slot) (o : Opnd) : Bool :=
  match s.cls, o with
  | .V, .main i => vIndexOk md.ctrl s.regs i.toNat
  | .V, .file i => !md.ctrl && decide (i.toNat % s.regs = 0) && decide (i.toNat + s.regs ≤ 8)
  | .V, .last i => !md.ctrl && s.regs != 4 && decide (i.toNat < 4)
  | .V, .special i =>
    s.regs != 4 && (if i.toNat < 0x40 then !md.ctrl || decide (i.toNat < 16) else (constBits s.ty (32 * s.regs) i.toNat).isSome)
  | .P, .main i => decide (i.toNat ≤ 15)
  | .S, .main i => decide (i.toNat < (if md.ctrl then 16 else 64))
  | .S, .special i => decide (0x40 ≤ i.toNat) && decide (i.toNat ≤ 0x6F)
  | .M, .main i => md.moments && !md.ctrl && decide (i.toNat < 32)
  | .A, .main i => !md.ctrl && decide (i.toNat < 16)
  | .pair, .main i => !md.ctrl && decide (i.toNat < 16) && decide (i.toNat % 2 = 0)
  | .H, .main i => !md.ctrl && decide (i.toNat < 16)
  | .T, .main i => decide (i.toNat < 8)
  | _, _ => false

/-- A destination is legal (R22, R25). -/
def dstOk (md : Mode) (s : Slot) (o : Opnd) : Bool :=
  match s.cls, o with
  | .V, .main i => vIndexOk md.ctrl s.regs i.toNat
  | .V, .file i => !md.ctrl && decide (i.toNat % s.regs = 0) && decide (i.toNat + s.regs ≤ 8)
  | .V, _ => false
  | .P, .main i => decide (i.toNat < 15)
  | .S, .main i => decide (i.toNat < (if md.ctrl then 16 else 64))
  | .P, _ => false
  | .S, _ => false
  | _, o => srcOk md s o

/-- A source field is legal for its use (order 4). -/
def useOpnd (md : Mode) (u : Use) (o : Opnd) : Bool :=
  match u with
  | .src s => srcOk md s o
  | .dst s => dstOk md s o
  | .both s => dstOk md s o
  | .code n => match o with | .main i => decide (i.toNat < n) | _ => false
  | .name => match o with | .special i => decide (i.toNat ≤ 8) | _ => false
  | .const t => match o with | .special i => (constBits t (32 * t.regs) i.toNat).isSome | _ => false
  | .small => match o with | .special i => decide (0x40 ≤ i.toNat) && decide (i.toNat ≤ 0x5F) | _ => false
  | .none => true
  | .raw => true
  | .free => true

/-- Order 4 of R37. -/
def opndOk (md : Mode) (sp : OpSpec) (x : Ops) : Bool :=
  useOpnd md sp.dst x.dst && useOpnd md sp.a x.a.opnd && (x.form.hasImm || useOpnd md sp.b x.b.opnd) && useOpnd md sp.c x.c.opnd

/-! ### Reading -/

/-- perm_lane of R38. -/
def permLane (m : BitVec 12) (i : Nat) : Nat :=
  let S := 2 ^ bitsOf m.toNat 9 7
  let d := bitsOf m.toNat 6 2
  let b := i - i % S
  match bitsOf m.toNat 11 10 with
  | 0 => i
  | 1 => b + (i - b + d) % S
  | 2 => i ^^^ d
  | _ => b + d

/-- A vector name's value in a lane; none where R42 makes the read UNMAPPED_READ. -/
def Gang.vlane (g : Gang) (ctrl : Bool) (name i : Nat) : Option Nat :=
  match Tab.find g.vmap name with
  | some r => if ctrl || inMask r.live i then some (vget r.data i).toNat else none
  | none => if ctrl then some 0 else none

/-- n consecutive vector names from one, as one little-endian value. -/
def Gang.vread (g : Gang) (ctrl : Bool) (name i : Nat) : Nat → Option Nat
  | 0 => some 0
  | n + 1 =>
    match g.vlane ctrl name i, g.vread ctrl (name + 1) i n with
    | some lo, some hi => some (lo + 2 ^ 32 * hi)
    | _, _ => none

/-- n consecutive operand-file registers. -/
def Gang.oread (g : Gang) (name i : Nat) : Nat → Nat
  | 0 => 0
  | n + 1 => (vget (vget g.ofile name) i).toNat + 2 ^ 32 * g.oread (name + 1) i n

/-- The value of an operand for a lane before modifiers (R22 to R25, R29, R42). None is UNMAPPED_READ. -/
def Gang.operand (g : Gang) (ctrl : Bool) (s : Slot) (o : Opnd) (i : Nat) : Option Nat :=
  let w := 32 * s.regs
  match s.cls, o with
  | .V, .main k => if k.toNat = 255 then some 0 else g.vread ctrl k.toNat i s.regs
  | .V, .file k => some (g.oread k.toNat i s.regs)
  | .V, .last k => ((vget g.last i)[k.toNat]?).map fun v => v.toNat % 2 ^ w
  | .V, .special k =>
    if k.toNat < 0x40 then some ((vget g.sreg k.toNat).toNat % 2 ^ w) else some ((constBits s.ty w k.toNat).getD 0)
  | .P, .main k => some (if k.toNat = 15 then 1 else if (vget g.pred i).getLsbD k.toNat then 1 else 0)
  | .S, .main k => some (vget g.sreg k.toNat).toNat
  | .S, .special k => some (wrapNat (smallInt k.toNat) 64)
  | .M, .main k => some (vget (vget g.mom k.toNat) i).toNat
  | _, .main k => some k.toNat
  | _, _ => some 0

/-- Element width of a type (R32). -/
def Ty.width : Ty → Nat
  | .int w _ => w
  | .fp f => f.width
  | .pk _ => 16

/-- Neg and abs of R32 on one element of w bits. -/
def modElem (k : Kind) (w : Nat) (signed : Bool) (neg abs : Bool) (v : Nat) : Nat :=
  let e := v % 2 ^ w
  match k with
  | .F =>
    let a := if abs then e % 2 ^ (w - 1) else e
    if neg then (a + 2 ^ (w - 1)) % 2 ^ w else a
  | .I =>
    let a := if abs && signed && decide (2 ^ (w - 1) ≤ e) then (2 ^ w - e) % 2 ^ w else e
    if neg then (2 ^ w - a) % 2 ^ w else a
  | .B => if neg then 2 ^ w - 1 - e else e
  | .N => e

/-- The modifiers of a source value (R32). -/
def applyMod (s : Slot) (m : BitVec 12) (v : Nat) : Nat :=
  if m.toNat % 4 = 0 then v
  else
    let neg := m.getLsbD 0
    let abs := m.getLsbD 1
    match s.ty with
    | .pk _ => modElem s.kind 16 false neg abs (v % 2 ^ 16) + 2 ^ 16 * modElem s.kind 16 false neg abs (v / 2 ^ 16)
    | .int w sg => modElem s.kind w sg neg abs v
    | .fp f => modElem s.kind f.width false neg abs v

/-- The lane that a source reads (R35, R38). -/
def srcLane (diag : Bool) (f : Form) (x : Src) (i : Nat) : Nat :=
  if diag && f != .A && f != .B then permLane x.modf i else i

/-- read_src of R38. -/
def Gang.readSrc (g : Gang) (ctrl diag : Bool) (f : Form) (s : Slot) (x : Src) (i : Nat) : Option Nat :=
  match x.opnd with
  | .special _ => (g.operand ctrl s x.opnd i).map fun v => if diag then v else applyMod s x.modf v
  | _ => (g.operand ctrl s x.opnd (srcLane diag f x i)).map fun v => if diag then v else applyMod s x.modf v

/-- A binary32 code widened exactly to binary64; a signalling NaN stays one (R94, R112). -/
def widen64 (v : Nat) : Nat :=
  if bitsOf v 30 23 = 255 then (v / 2 ^ 31 % 2) * 2 ^ 63 + 2047 * 2 ^ 52 + (v % 2 ^ 23) * 2 ^ 29
  else (roundVal .f64 .rne false (decodeFp .f32 v)).code

/-- The value an immediate delivers in source B's slot (R83, R98, R112, R135, R139). -/
def immVal (s : Slot) (f : Form) (imm : DWord) : Nat :=
  if f = .F then imm.toNat
  else
    let v := imm.toNat % 2 ^ 32
    match s.ty with
    | .int w sg => if 32 < w && sg then wrapNat (sext v 32) 64 else v
    | .fp .f64 => widen64 v
    | _ => v

/-- A value read at an integer type (R82). -/
def extTy (t : Ty) (v : Nat) : Int :=
  match t with
  | .int w sg => if sg then sext v w else ((v % 2 ^ w : Nat) : Int)
  | _ => (v : Int)

/-- The bits that an integer result of a type writes: reduced to w bits, extended to its registers (R82). -/
def intBits (t : Ty) (x : Int) : Nat :=
  match t with
  | .int w sg =>
    let m := wrapNat x w
    if sg then wrapNat (sext m w) (32 * t.regs) else m
  | _ => wrapNat x 64

/-- write_dst for an integer: wrap, or clamp under .sat (R33, R85). -/
def writeInt (t : Ty) (clp : BitVec 2) (x : Int) : Nat :=
  match t with
  | .int w sg => intBits t (if clp = 3 then satInt x w sg else x)
  | _ => intBits t x

/-! ### System registers (R225) -/

/-- An index lies in [lo, lo + n). -/
def inBlock (idx lo n : Nat) : Bool := decide (lo ≤ idx) && decide (idx < lo + n)

/-- The levels of a register: the lowest that reads it and the lowest that writes it; none where no map defines the index. A
supervisor reads TDISTATE of its own slot only (R417). -/
def regLevels (slot idx : Nat) : Option (Level × Level) :=
  if idx ≤ 3 then some (if idx = 2 then (.supervisor, .supervisor) else (.user, .user))
  else if inBlock idx 0x1000 0x100 then some (.supervisor, .supervisor)
  else if inBlock idx 0x1100 0x40 then some (.user, .supervisor)
  else if inBlock idx 0x1140 3 || idx = 0x1144 then some (.supervisor, .host)
  else if idx = 0x1143 || inBlock idx 0x1145 4 then some (.supervisor, .supervisor)
  else if inBlock idx 0x1150 3 then some (.host, .host)
  else if inBlock idx 0x2000 8 then some (.supervisor, .supervisor)
  else if idx = 0x2008 then some (.supervisor, .host)
  else if inBlock idx 0x3000 0x104 then some (.supervisor, .supervisor)
  else if inBlock idx 0x3110 2 then some (.supervisor, .host)
  else if inBlock idx 0x4000 0x10 || inBlock idx 0x4100 0x200 then some (.supervisor, .supervisor)
  else if inBlock idx 0x4300 3 || inBlock idx 0x4310 4 then some (.host, .host)
  else if inBlock idx 0x4400 0x40 then some (.supervisor, .host)
  else if inBlock idx 0x5020 0x20 then some (if idx = 0x5020 + slot then .supervisor else .host, .host)
  else if inBlock idx 0x5000 2 || inBlock idx 0x5008 0xA || inBlock idx 0x5040 0x40 || inBlock idx 0x5200 0x200 then some (.host, .host)
  else if inBlock idx 0x6000 0x800 then some (.user, .user)
  else if inBlock idx 0x6800 0x80 then some (.supervisor, .supervisor)
  else none

end Sys2Proof.Machine
end

