-- ==== Sys2Proof/WellFormed.lean ====
section
/-! DEFINITION. Well-formed instructions: those that the checks of R37 orders 3 and 4 accept in some mode, with nothing in the fields
that their format does not have. -/

namespace Sys2Proof

open Sys2Proof.Machine

/-- Fields that the format lacks are zero, and the immediate fits it (R20). -/
def Ops.fits (x : Ops) : Bool :=
  match x.form with
  | .A => decide (x.c = Src.zero) && x.clp == 0 && x.scl == 0 && x.imm == 0 && decide (x.a.modf.toNat ≤ 3) &&
      decide (x.b.modf.toNat ≤ 3)
  | .B => x.sub == 0 && x.clp == 0 && x.scl == 0 && x.imm == 0 && x.a.modf == 0 && x.b.modf == 0 && x.c.modf == 0
  | .C => decide (x.c = Src.zero) && x.imm == 0
  | .D => decide (x.b = Src.zero) && decide (x.c = Src.zero) && x.scl == 0 && decide (x.imm.toNat < 2 ^ 32)
  | .E => x.imm == 0
  | .F => decide (x.b = Src.zero) && decide (x.c = Src.zero) && x.scl == 0

/-- Why an instruction is refused before it reads anything (R37 orders 3 and 4). -/
inductive Reject where
  | illegalEncoding | illegalOperand
deriving DecidableEq, Repr

/-- Orders 3 and 4 of R37 in a mode; none is a pass. A fill word passes (R16); an unassigned word does not (R60); a hardware
event has no word. -/
def Instr.check (md : Mode) (i : Instr) : Option Reject :=
  match i.spec, i.ops with
  | some sp, some x => if !encOk md sp x then some .illegalEncoding else if !opndOk md sp x then some .illegalOperand else none
  | _, _ => if i = .fillWord then none else some .illegalEncoding

/-- An instruction that some word stands for and that no check of R37 orders 3 and 4 refuses in both modes. -/
def Instr.wf (i : Instr) : Bool :=
  (match i.ops with | some x => x.fits | none => true) &&
    (i.check Mode.normal == none || i.check Mode.diagnostic == none)

/-- Well-formed instructions. -/
abbrev WellFormed (i : Instr) : Prop := i.wf = true

end Sys2Proof
end

