-- ==== Sys2Proof/Decode.lean ====
section
/-! DEFINITION. Decoding of instruction words, total on any bytes (R16 to R22, R58 to R61), and the encoder from the same tables. -/

namespace Sys2Proof

open Sys2Proof.Machine

/-! ### Fields -/

/-- An operand field of 10 bits: tier in [9:8], index in [7:0] (R22). -/
def opndOf (n : Nat) : Opnd :=
  let i := BitVec.ofNat 8 n
  match n / 256 % 4 with
  | 0 => .main i
  | 1 => .file i
  | 2 => .last i
  | _ => .special i

/-- The 10 bits of an operand field. -/
def opndBits : Opnd → Nat
  | .main i => i.toNat
  | .file i => 256 + i.toNat
  | .last i => 512 + i.toNat
  | .special i => 768 + i.toNat

/-- One bit of a word. -/
def bitAt (n k : Nat) : Bool := n / 2 ^ k % 2 == 1

/-- A Boolean as a bit. -/
def bitNat (b : Bool) : Nat := if b then 1 else 0

/-- w bits of a word from bit k. -/
def bitsAt (n k w : Nat) : Nat := n / 2 ^ k % 2 ^ w

/-- A source read from its operand field, last-read bit and modifier field. -/
def srcOf (n opnd lr modf mw : Nat) : Src :=
  ⟨opndOf (bitsAt n opnd 10), bitAt n lr, BitVec.ofNat 12 (bitsAt n modf mw)⟩

/-- Opcodes whose 64-bit form is format B (R59). -/
def formatB (opc : Nat) : Bool :=
  [0x01B, 0x01C, 0x01D, 0x01E, 0x01F, 0x098, 0x099, 0x09A, 0x09B, 0x09C, 0x109, 0x11B, 0x11C, 0x182, 0x183, 0x189, 0x208].contains opc

/-- The format of a word of LEN code 0 to 2 (R16, R20, R21). -/
def formOf (n : Nat) : Form :=
  match n % 4, bitAt n 31 with
  | 0, _ => if formatB (bitsAt n 2 10) then .B else .A
  | 1, false => .C
  | 1, true => .D
  | _, false => .E
  | _, true => .F

/-- The fields of a word (R19, R20). -/
def fieldsOf (n : Nat) : Ops :=
  let f := formOf n
  let none : Src := Src.zero
  let x : Ops :=
    { form := f, gn := bitAt n 16, gp := BitVec.ofNat 4 (bitsAt n 12 4), la := BitVec.ofNat 4 (bitsAt n 17 4),
      dst := opndOf (bitsAt n 21 10), a := none, b := none, c := none, sub := 0, clp := 0, scl := 0, imm := 0 }
  match f with
  | .A => { x with a := srcOf n 31 51 53 2, b := srcOf n 41 52 55 2, sub := BitVec.ofNat 7 (bitsAt n 57 7) }
  | .B => { x with a := srcOf n 31 61 0 0, b := srcOf n 41 62 0 0, c := srcOf n 51 63 0 0 }
  | .C =>
    { x with a := srcOf n 32 52 64 12, b := srcOf n 42 53 76 12, sub := BitVec.ofNat 7 (bitsAt n 54 7),
             clp := BitVec.ofNat 2 (bitsAt n 61 2), scl := BitVec.ofNat 3 (bitsAt n 88 3) }
  | .D =>
    { x with a := srcOf n 32 42 43 12, sub := BitVec.ofNat 7 (bitsAt n 55 7), clp := BitVec.ofNat 2 (bitsAt n 62 2),
             imm := BitVec.ofNat 64 (bitsAt n 64 32) }
  | .E =>
    { x with a := srcOf n 32 62 65 12, b := srcOf n 42 63 77 12, c := srcOf n 52 64 89 12, sub := BitVec.ofNat 7 (bitsAt n 101 7),
             clp := BitVec.ofNat 2 (bitsAt n 108 2), scl := BitVec.ofNat 3 (bitsAt n 110 3) }
  | .F =>
    { x with a := srcOf n 32 42 43 12, sub := BitVec.ofNat 7 (bitsAt n 55 7), clp := BitVec.ofNat 2 (bitsAt n 62 2),
             imm := BitVec.ofNat 64 (bitsAt n 64 64) }

/-- The reserved fields of R20 are zero. -/
def reservedZero (n : Nat) : Bool :=
  match formOf n with
  | .C => bitAt n 63 == false && bitsAt n 91 5 == 0
  | .E => bitsAt n 113 15 == 0
  | _ => true

/-- The instruction of a major opcode (R59). -/
def ofOpcode (opc : Nat) (x : Ops) : Option Instr :=
  match opc with
  | 0x001 => some (.iadd x)
  | 0x002 => some (.isub x)
  | 0x003 => some (.iaddc x)
  | 0x004 => some (.imul x)
  | 0x005 => some (.imin x)
  | 0x006 => some (.imax x)
  | 0x007 => some (.shl x)
  | 0x008 => some (.shr x)
  | 0x009 => some (.rot x)
  | 0x00A => some (.and x)
  | 0x00B => some (.or x)
  | 0x00C => some (.xor x)
  | 0x00D => some (.lea x)
  | 0x00E => some (.not x)
  | 0x00F => some (.iabs x)
  | 0x010 => some (.popc x)
  | 0x011 => some (.clz x)
  | 0x012 => some (.ctz x)
  | 0x013 => some (.brev x)
  | 0x014 => some (.icvt x)
  | 0x015 => some (.bfe x)
  | 0x016 => some (.icmp x)
  | 0x017 => some (.mov x)
  | 0x018 => some (.movi x)
  | 0x019 => some (.movs x)
  | 0x01A => some (.movu x)
  | 0x01B => some (.imad x)
  | 0x01C => some (.bfi x)
  | 0x01D => some (.isel x)
  | 0x01E => some (.bternTableBit7Clear x)
  | 0x01F => some (.bternTableBit7Set x)
  | 0x020 => some (.pset x)
  | 0x021 => some (.plop x)
  | 0x022 => some (.pmov x)
  | 0x023 => some (.sadd x)
  | 0x024 => some (.smul x)
  | 0x025 => some (.smov x)
  | 0x026 => some (.sld x)
  | 0x027 => some (.scmp x)
  | 0x028 => some (.bra x)
  | 0x029 => some (.call x)
  | 0x02A => some (.brx x)
  | 0x02B => some (.ret x)
  | 0x02C => some (.exit x)
  | 0x02D => some (.yield x)
  | 0x02E => some (.nop x)
  | 0x02F => some (.shfl x)
  | 0x030 => some (.vote x)
  | 0x031 => some (.matchLanes x)
  | 0x032 => some (.lredux x)
  | 0x033 => some (.lprfx x)
  | 0x034 => some (.elect x)
  | 0x035 => some (.uniassert x)
  | 0x080 => some (.fadd x)
  | 0x081 => some (.fsub x)
  | 0x082 => some (.fmul x)
  | 0x083 => some (.fmin x)
  | 0x084 => some (.fmax x)
  | 0x085 => some (.fdiv x)
  | 0x086 => some (.fsqrt x)
  | 0x087 => some (.frcp x)
  | 0x088 => some (.frsq x)
  | 0x089 => some (.fex2 x)
  | 0x08A => some (.flg2 x)
  | 0x08B => some (.fsin x)
  | 0x08C => some (.fcos x)
  | 0x08D => some (.fcmp x)
  | 0x08E => some (.fclass x)
  | 0x08F => some (.frnd x)
  | 0x090 => some (.fgetexp x)
  | 0x091 => some (.fcpys x)
  | 0x092 => some (.fldexp x)
  | 0x093 => some (.fcvt x)
  | 0x094 => some (.f2i x)
  | 0x095 => some (.i2f x)
  | 0x096 => some (.fstat x)
  | 0x097 => some (.pkadd x)
  | 0x098 => some (.ffma x)
  | 0x099 => some (.pkfma x)
  | 0x09A => some (.dot4 x)
  | 0x09B => some (.dot2 x)
  | 0x09C => some (.ffmaF64Short x)
  | 0x100 => some (.ld x)
  | 0x101 => some (.lds x)
  | 0x102 => some (.ldc x)
  | 0x103 => some (.ldf x)
  | 0x104 => some (.st x)
  | 0x105 => some (.sts x)
  | 0x106 => some (.stf x)
  | 0x107 => some (.testf x)
  | 0x108 => some (.atom x)
  | 0x109 => some (.atomCas x)
  | 0x10A => some (.red x)
  | 0x10B => some (.fence x)
  | 0x10C => some (.ifence x)
  | 0x10D => some (.isspace x)
  | 0x10E => some (.awin x)
  | 0x10F => some (.pref x)
  | 0x110 => some (.barInit x)
  | 0x111 => some (.barArrive x)
  | 0x112 => some (.barExpect x)
  | 0x113 => some (.barWait x)
  | 0x114 => some (.barTest x)
  | 0x115 => some (.tlwait x)
  | 0x116 => some (.tlread x)
  | 0x117 => some (.scopew x)
  | 0x118 => some (.scopebind x)
  | 0x119 => some (.scopeq x)
  | 0x11A => some (.scoperet x)
  | 0x11B => some (.cpy x)
  | 0x11C => some (.cpyg x)
  | 0x11D => some (.hmk x)
  | 0x180 => some (.wld x)
  | 0x181 => some (.wsel x)
  | 0x182 => some (.mma x)
  | 0x183 => some (.mmam x)
  | 0x184 => some (.aclr x)
  | 0x185 => some (.adrn x)
  | 0x186 => some (.epld x)
  | 0x187 => some (.msave x)
  | 0x188 => some (.mres x)
  | 0x189 => some (.qnt x)
  | 0x18A => some (.qwait x)
  | 0x200 => some (.mld x)
  | 0x201 => some (.mst x)
  | 0x202 => some (.mset x)
  | 0x203 => some (.mmov x)
  | 0x204 => some (.madd x)
  | 0x205 => some (.msub x)
  | 0x206 => some (.mmul x)
  | 0x207 => some (.mscl x)
  | 0x208 => some (.mfma x)
  | 0x209 => some (.mrelu x)
  | 0x20A => some (.mexp x)
  | 0x20B => some (.msigm x)
  | 0x20C => some (.mtanh x)
  | 0x20D => some (.mrcp x)
  | 0x20E => some (.mcol x)
  | 0x280 => some (.tst x)
  | 0x281 => some (.tred x)
  | 0x282 => some (.tideClose x)
  | 0x283 => some (.tideWait x)
  | 0x284 => some (.tideQuery x)
  | 0x285 => some (.rld x)
  | 0x286 => some (.ratom x)
  | 0x287 => some (.send x)
  | 0x288 => some (.arm x)
  | 0x289 => some (.disarm x)
  | 0x28A => some (.launch x)
  | 0x28B => some (.hint x)
  | 0x28C => some (.trap x)
  | 0x28D => some (.tret x)
  | 0x28E => some (.csave x)
  | 0x28F => some (.crest x)
  | 0x290 => some (.sysr x)
  | 0x291 => some (.sysw x)
  | 0x292 => some (.cap x)
  | 0x293 => some (.halt x)
  | 0x294 => some (.evqPop x)
  | 0x295 => some (.trel x)
  | 0x381 => some (.byteAbsDiffSum x)
  | o => if 0x380 ≤ o ∧ o ≤ 0x3BF then some (.retiredOperation (BitVec.ofNat 6 (o - 0x380)) x) else none

/-! ### Decoding -/

/-- Bytes that the first word's LEN gives an instruction (R16). -/
def lengthOf (w : Nat) : Nat :=
  match w % 4 with
  | 0 => 8
  | 1 => 12
  | 2 => 16
  | _ => 4

/-- The instruction whose bits are n, its first word at the low end. A word that R21 or R60 leaves without a meaning is an
unassigned word by its first 32 bits. -/
def decodeBits (n : Nat) : Instr :=
  let w := n % 2 ^ 32
  if w % 4 = 3 then if w = 3 then .fillWord else .unassignedOpcode (BitVec.ofNat 32 w)
  else if reservedZero n then (ofOpcode (bitsAt n 2 10) (fieldsOf n)).getD (.unassignedOpcode (BitVec.ofNat 32 w))
  else .unassignedOpcode (BitVec.ofNat 32 w)

/-- Decoding of bytes: the instruction and what follows it; none where the bytes end before the instruction does. -/
def decode (bs : List Byte) : Option (Instr × List Byte) :=
  let len := lengthOf (leNat (bs.take 4))
  if bs.length < 4 ∨ bs.length < len then none
  else some (decodeBits (leNat (bs.take len)), bs.drop len)

/-! ### Encoding -/

/-- The head that every format shares, but for LEN and X (R19). -/
def headBits (opc : Nat) (x : Ops) : Nat :=
  4 * opc + 2 ^ 12 * x.gp.toNat + 2 ^ 16 * bitNat x.gn + 2 ^ 17 * x.la.toNat + 2 ^ 21 * opndBits x.dst

/-- The word of an opcode with fields (R20). -/
def encodeFields (opc : Nat) (x : Ops) : Nat :=
  headBits opc x +
  match x.form with
  | .A =>
    2 ^ 31 * opndBits x.a.opnd + 2 ^ 41 * opndBits x.b.opnd + 2 ^ 51 * bitNat x.a.lastRead + 2 ^ 52 * bitNat x.b.lastRead +
      2 ^ 53 * x.a.modf.toNat + 2 ^ 55 * x.b.modf.toNat + 2 ^ 57 * x.sub.toNat
  | .B =>
    2 ^ 31 * opndBits x.a.opnd + 2 ^ 41 * opndBits x.b.opnd + 2 ^ 51 * opndBits x.c.opnd + 2 ^ 61 * bitNat x.a.lastRead +
      2 ^ 62 * bitNat x.b.lastRead + 2 ^ 63 * bitNat x.c.lastRead
  | .C =>
    1 + 2 ^ 32 * opndBits x.a.opnd + 2 ^ 42 * opndBits x.b.opnd + 2 ^ 52 * bitNat x.a.lastRead + 2 ^ 53 * bitNat x.b.lastRead +
      2 ^ 54 * x.sub.toNat + 2 ^ 61 * x.clp.toNat + 2 ^ 64 * x.a.modf.toNat + 2 ^ 76 * x.b.modf.toNat + 2 ^ 88 * x.scl.toNat
  | .D =>
    1 + 2 ^ 31 + 2 ^ 32 * opndBits x.a.opnd + 2 ^ 42 * bitNat x.a.lastRead + 2 ^ 43 * x.a.modf.toNat + 2 ^ 55 * x.sub.toNat +
      2 ^ 62 * x.clp.toNat + 2 ^ 64 * x.imm.toNat
  | .E =>
    2 + 2 ^ 32 * opndBits x.a.opnd + 2 ^ 42 * opndBits x.b.opnd + 2 ^ 52 * opndBits x.c.opnd + 2 ^ 62 * bitNat x.a.lastRead +
      2 ^ 63 * bitNat x.b.lastRead + 2 ^ 64 * bitNat x.c.lastRead + 2 ^ 65 * x.a.modf.toNat + 2 ^ 77 * x.b.modf.toNat +
      2 ^ 89 * x.c.modf.toNat + 2 ^ 101 * x.sub.toNat + 2 ^ 108 * x.clp.toNat + 2 ^ 110 * x.scl.toNat
  | .F =>
    2 + 2 ^ 31 + 2 ^ 32 * opndBits x.a.opnd + 2 ^ 42 * bitNat x.a.lastRead + 2 ^ 43 * x.a.modf.toNat + 2 ^ 55 * x.sub.toNat +
      2 ^ 62 * x.clp.toNat + 2 ^ 64 * x.imm.toNat

/-- The bits of an instruction, first word at the low end; none for what has no word (hardware events). -/
def encodeBits (i : Instr) : Option Nat :=
  match i.spec, i.ops with
  | some sp, some x => some (encodeFields sp.opc x)
  | _, _ =>
    match i with
    | .fillWord => some 3
    | .unassignedOpcode w => some w.toNat
    | _ => none

/-- Bytes of an instruction (R16). -/
def Instr.bytes (i : Instr) : Nat :=
  match i.ops with
  | some x => x.form.bytes
  | none =>
    match i with
    | .unassignedOpcode w => lengthOf w.toNat
    | _ => 4

/-- The bytes of an instruction as they stand in memory (R12, R17). -/
def encode (i : Instr) : Option (List Byte) := (encodeBits i).map fun n => leBytes n i.bytes

/-- The instruction that the decoder reads from an instruction whose bits are w, the bits above nbits being zero. -/
def decodeTableWord (nbits w : Nat) : Option Instr := (decode (leBytes (w % 2 ^ nbits) 16)).map Prod.fst

end Sys2Proof
end

