-- ==== Sys2Proof/Machine/Access.lean ====
section
/-! DEFINITION. Reaching the parts of State; where an address lies and which accesses it grants (R274 to R286); bytes of memory; scopes
(R304 to R309) and the happens-before record with exact race detection (R292 to R301). -/

namespace Sys2Proof.Machine

/-! ### Parts of the state -/

/-- A core nothing has used. -/
def Core.idle : Core :=
  { diag := false, halted := false, holder := none, copyq := [], subs := Vector.replicate 4 ⟨Vector.replicate 4 none, 0⟩, evq := [], evWait := [],
    ctrl := none, wants := [], lastCtx := 0, scrub := false, gated := false }

def State.chip? (s : State) (k : Nat) : Option Chip := Tab.find s.chips k

def State.updChip (s : State) (k : Nat) (f : Chip → Chip) : State := { s with chips := Tab.upd s.chips k f }

def State.dev? (s : State) (d : Nat) : Option Device := Tab.find s.devs d

def State.updDev (s : State) (d : Nat) (f : Device → Device) : State := { s with devs := Tab.upd s.devs d f }

def State.task? (s : State) (k t : Nat) : Option Task := (s.chip? k).bind fun c => Tab.find c.tasks t

def State.updTask (s : State) (k t : Nat) (f : Task → Task) : State :=
  s.updChip k fun c => { c with tasks := Tab.upd c.tasks t f }

def State.gang? (s : State) (g : GangRef) : Option Gang := (s.task? g.chip g.task).bind fun t => Tab.find t.gangs g.gang

def State.updGang (s : State) (g : GangRef) (f : Gang → Gang) : State :=
  s.updTask g.chip g.task fun t => { t with gangs := Tab.upd t.gangs g.gang f }

def State.core (s : State) (c : CoreRef) : Core := ((s.dev? c.dev).map fun d => Tab.getD d.cores c.core Core.idle).getD Core.idle

def State.updCore (s : State) (c : CoreRef) (f : Core → Core) : State :=
  s.updDev c.dev fun d => { d with cores := Tab.put d.cores c.core (f (Tab.getD d.cores c.core Core.idle)) }

/-- The gang record of an issuer: a gang, or the control core's own (R265). -/
def State.gangOf (s : State) : Issuer → Option Gang
  | .gang g _ => s.gang? g
  | .ctrl c => (s.core c).ctrl.map CtrlRun.gang

def State.updGangOf (s : State) (w : Issuer) (f : Gang → Gang) : State :=
  match w with
  | .gang g _ => s.updGang g f
  | .ctrl c => s.updCore c fun k => { k with ctrl := k.ctrl.map fun r => { r with gang := f r.gang } }

/-- The chip an issuer runs for. -/
def State.chipOf (s : State) : Issuer → Option Nat
  | .gang g _ => some g.chip
  | .ctrl c => (s.core c).ctrl.map CtrlRun.chip

/-- The core an issuer runs on. -/
def State.coreOf (s : State) : Issuer → Option CoreRef
  | .gang g _ => (s.task? g.chip g.task).bind Task.core
  | .ctrl c => some c

/-- A task's key within its chip. -/
def taskKey (handle num : Nat) : Nat := handle * 2 ^ 24 + num

/-- A chip's key: guest and virtual chip number. -/
def chipKey (guest num : Nat) : Nat := guest * 1024 + num

/-- The compute die of a core (R226). -/
def dieOf (core : Nat) : Nat := core / 80

/-- The core cluster of a core (R226). -/
def clusterOf (core : Nat) : Nat := core / 8

/-- The die's cycle counter (R8). -/
def State.cycle (s : State) (c : CoreRef) : Nat :=
  match s.dev? c.dev with
  | some d => if dieOf c.core = 0 then d.cycle0 else d.cycle1
  | none => 0

/-- A free value and the state that has taken it (log entry 4). -/
def State.free (s : State) : DWord × State := (Config.freeValue s.fresh, { s with fresh := s.fresh + 1 })

/-- Free values in place of doublewords that cannot be read. -/
def State.freeWords (s : State) : Nat → List DWord × State
  | 0 => ([], s)
  | n + 1 =>
    let a := s.free
    let r := State.freeWords a.2 n
    (a.1 :: r.1, r.2)

/-! ### Device tables (R282 to R285) -/

/-- A leaf that a walk reached: page frame, size and permissions, SYSA, TIER and where its entry lies. -/
structure Leaf where
  frame : Nat
  size : Nat
  r : Bool
  w : Bool
  x : Bool
  sysa : Bool
  tier : Nat
  entry : Nat
deriving DecidableEq, Repr

/-- The walk from a table at a guest-physical address through the levels left: shift and index bits of each (R283). -/
def Chip.walkFrom (c : Chip) (va : Nat) : List (Nat × Nat) → Nat → Option Leaf
  | [], _ => none
  | (shift, bits) :: rest, table =>
    let at_ := table + 8 * (va / 2 ^ shift % 2 ^ bits)
    let e := if c.revoked then 2 ^ 64 - 1 else Mem.load c.mem at_ 8
    let frame := bitsOf e 47 16 * 65536
    if c.quota < table + 8 * 2 ^ bits then none
    else if e % 2 = 0 || bitsOf e 60 48 != 0 || bitsOf e 15 7 != 0 then none
    else if bitsOf e 1 1 = 1 then
      if frame % 2 ^ shift != 0 || decide (c.quota < frame + 2 ^ shift) then none
      else
        some ⟨frame, 2 ^ shift, e.testBit 2, e.testBit 3, e.testBit 4, e.testBit 61, bitsOf e 63 62, at_⟩
    else if bitsOf e 6 2 != 0 || bitsOf e 63 61 != 0 then none
    else c.walkFrom va rest frame

/-- The walk of a device-half address (R283, R285). -/
def Chip.walk (c : Chip) (va : Nat) : Option Leaf := c.walkFrom (va % 2 ^ 49) [(35, 14), (29, 6), (21, 8), (16, 5)] 0

/-- The device half of R274. -/
def deviceHalf (a : Nat) : Bool := decide (0x8000000000000000 ≤ a) && decide (a < 0x8002000000000000)

/-- The host half of R274. -/
def hostHalf (a : Nat) : Bool := decide (a < 2 ^ 63)

/-! ### Where an address lies -/

/-- Kinds of access with the grants they need (R279). -/
inductive Acc where
  | read | write | both | fetch
deriving DecidableEq, Repr

/-- An access code grants an access (R80, R279). -/
def accGrants (need : Acc) (acc : Nat) : Bool :=
  match need with
  | .read => acc == 0 || acc == 2 || acc == 3
  | .write => acc == 1 || acc == 2
  | .both => acc == 2
  | .fetch => acc == 3

/-- Where a byte lies: device memory of a chip (with whether its races are detected), host memory, or a task's scratchpad. -/
inductive Place where
  | dram (chip addr : Nat) (raced : Bool)
  | host (addr : Nat)
  | scratch (chip task off : Nat)
deriving DecidableEq, Repr

/-- A byte among the release sequences: its own number in its kind of memory. -/
def placeKey : Place → Nat
  | .dram _ a _ => a * 3
  | .scratch _ t o => (t * 2 ^ 19 + o) * 3 + 1
  | .host a => a * 3 + 2

def scratchBase : Nat := 0xFFFFF00000000000
def privateBase : Nat := 0xFFFFF20000000000
def clusterBase : Nat := 0xFFFFF10000000000
def podBase : Nat := 0xFFFFF80000000000
def scratchSize : Nat := 0x80000
def privateSize : Nat := 0x8000
def clusterSize : Nat := 0x8000000
def podSize : Nat := 0x40000000000

/-- An address lies in a window. -/
def inWin (base size a : Nat) : Bool := decide (base ≤ a) && decide (a < base + size)

/-- The byte of a leased page. -/
def leasePlace (chip : Nat) (ps : List Lease) (a : Nat) : Option Place :=
  match ps.find? fun p => decide (p.va ≤ a) && decide (a < p.va + p.bytes) with
  | some p => some (if p.host then .host (p.frame + (a - p.va)) else .dram chip (p.frame + (a - p.va)) true)
  | none => none

/-- The byte through a list of extents (R279). -/
def extentPlace (chip : Nat) (es : List Extent) (need : Acc) (a : Nat) : Option Place :=
  match es.find? fun e => decide (e.base ≤ a) && decide (a < e.base + e.size) && accGrants need e.acc with
  | some e => leasePlace chip e.pages a
  | none => none

/-- A cluster-window offset's task and byte (R277). -/
def Chip.clusterPlace (c : Chip) (key : Nat) (t : Task) (o : Nat) : Option Place :=
  match Tab.find c.launches t.handle with
  | none => none
  | some l =>
    let gdem := bitsOf l.hdr.toNat 23 16
    match [0, 1, 2, 3].find? fun j => decide (gdem / 4 ^ j % 4 = 3) with
    | none => none
    | some slot =>
      match l.groups.find? fun g => decide (g.slot = slot) && g.members.contains t.num with
      | none => none
      | some g =>
        match g.members[o / 2 ^ 19]? with
        | none => none
        | some m =>
          match Tab.find c.tasks (taskKey t.handle m) with
          | some u => if o % 2 ^ 19 < u.scrp * 2048 then some (.scratch key (taskKey t.handle m) (o % 2 ^ 19)) else none
          | none => none

/-- The byte at an address for a thread of a task: windows, then extents, then in handler mode the handler code and frame
area (R275 to R279, R399). None is EXTENT. -/
def Chip.place (c : Chip) (key : Nat) (t : Task) (gang : Nat) (handler : Bool) (lane : Nat) (need : Acc) (a : Nat) : Option Place :=
  if inWin scratchBase scratchSize a then
    if a - scratchBase < t.scrp * 2048 then some (.scratch key (taskKey t.handle t.num) (a - scratchBase)) else none
  else if inWin privateBase privateSize a then
    some (.dram key (t.priv + (gang * 32 + lane) * privateSize + (a - privateBase)) false)
  else if inWin clusterBase clusterSize a then c.clusterPlace key t (a - clusterBase)
  else if !(hostHalf a || deviceHalf a) then none
  else
    match extentPlace key t.extents need a with
    | some p => some p
    | none =>
      if handler then
        let inCode := decide (c.trap.tcbase.toNat ≤ a) && decide (a < c.trap.tcbase.toNat + 65536 * c.trap.tcsize)
        let inArea := decide (c.trap.tfbase.toNat ≤ a) && decide (a < c.trap.tfbase.toNat + 65536 * (c.trap.tfn + 1))
        if inCode && need == .read then leasePlace key c.trap.code a
        else if inArea && need != .fetch then leasePlace key c.trap.area a
        else none
      else none

/-- The byte for the control core: CCAREA and the queue rings, through the device tables or ATS (R265). -/
def Chip.ctrlPlace (c : Chip) (key : Nat) (a : Nat) : Option Place :=
  let inArea := decide (c.cc.area.toNat ≤ a) && decide (a < c.cc.area.toNat + 65536)
  let inRing := c.queues.toList.any fun q => q.en && decide (q.base.toNat ≤ a) && decide (a < q.base.toNat + 128 * 2 ^ q.lg)
  if inArea || inRing then
    if deviceHalf a then (c.walk a).map fun l => .dram key (l.frame + a % l.size) true
    else
      match Tab.find c.ats (a / 4096) with
      | some ⟨.mapped f _ _ _⟩ => some (.host (f + a % 4096))
      | _ => none
  else none

/-- The byte at an address for a lane of an issuer. -/
def State.place (s : State) (w : Issuer) (lane : Nat) (need : Acc) (a : Nat) : Option Place :=
  match w with
  | .gang g _ =>
    match s.chip? g.chip, s.task? g.chip g.task, s.gang? g with
    | some c, some t, some k => c.place g.chip t g.gang k.frame.isSome lane need a
    | _, _, _ => none
  | .ctrl r =>
    match (s.core r).ctrl with
    | some run => (s.chip? run.chip).bind fun c => c.ctrlPlace run.chip a
    | none => none

/-! ### Bytes -/

def State.readByte (s : State) : Place → Byte
  | .dram k a _ => match s.chip? k with | some c => if c.revoked then 0xFF else Mem.get c.mem a | none => 0
  | .host a => Mem.get s.hostMem a
  | .scratch k t o => match s.task? k t with | some u => Mem.get u.scratch o | none => 0

/-- The page of a guest-physical byte is dirty from now on while tracking is on (R388). -/
def Chip.touch (c : Chip) (a : Nat) : Chip :=
  if c.mig.en && !c.mig.dirty.contains (a / 65536) then { c with mig := { c.mig with dirty := (a / 65536) :: c.mig.dirty } } else c

def State.writeByte (s : State) (p : Place) (b : Byte) : State :=
  match p with
  | .dram k a _ => s.updChip k fun c => if c.revoked then c else { c.touch a with mem := Mem.set c.mem a b }
  | .host a => { s with hostMem := Mem.set s.hostMem a b }
  | .scratch k t o => s.updTask k t fun u => { u with scratch := Mem.set u.scratch o b }

/-- The places of n bytes from an address; none when some byte is refused. -/
def State.places (s : State) (w : Issuer) (lane : Nat) (need : Acc) (a : Nat) : Nat → Option (List Place)
  | 0 => some []
  | n + 1 =>
    match s.place w lane need a, s.places w lane need (a + 1) n with
    | some p, some ps => some (p :: ps)
    | _, _ => none

/-- The little-endian value of bytes. -/
def State.readPlaces (s : State) : List Place → Nat
  | [] => 0
  | p :: ps => (s.readByte p).toNat + 256 * s.readPlaces ps

/-- The bytes at places. -/
def State.bytesAt (s : State) (ps : List Place) : List Byte := ps.map s.readByte

/-- Bytes written little-endian at places. -/
def State.writePlaces (s : State) : List Place → Nat → State
  | [], _ => s
  | p :: ps, v => State.writePlaces (s.writeByte p (BitVec.ofNat 8 v)) ps (v / 256)

/-- A list of bytes written at places. -/
def State.writeBytes (s : State) : List Place → List Byte → State
  | p :: ps, b :: bs => State.writeBytes (s.writeByte p b) ps bs
  | _, _ => s

/-! ### Scopes (R157, R304 to R309) -/

/-- Cores as a 160-bit mask. -/
abbrev CoreMask := BitVec 160

/-- The cores of the clusters that CORES names (R257, R306). -/
def clusterCores (clusters : Nat) : CoreMask :=
  (List.range 20).foldl (fun m k => if clusters.testBit k then m ||| (0xFF#160 <<< (8 * k)) else m) 0

/-- The context's cores, those that its tasks have yet to leave among them (R400). -/
def Chip.coreMask (c : Chip) : CoreMask :=
  c.tasks.foldl (fun m t => match t.2.leaving, t.2.core with | true, some r => m ||| (1#160 <<< r.core) | _, _ => m) (clusterCores (c.cores % 2 ^ 20))

/-- The cores of one die. -/
def dieMask (die : Nat) : CoreMask := BitVec.ofNat 160 ((2 ^ 80 - 1) * 2 ^ (80 * die))

/-- Effective set of a scope entry as seen from a core (R296, R304, R306). -/
def Chip.scopeSet (c : Chip) (e core : Nat) : CoreMask :=
  match e with
  | 0 => 1#160 <<< core
  | 1 => c.coreMask &&& (0xFF#160 <<< (8 * clusterOf core))
  | 2 => c.coreMask &&& dieMask (dieOf core)
  | 3 => c.coreMask
  | 4 => c.coreMask
  | _ => (vget c.scopes e).mask &&& c.coreMask

/-- The first condition of R307 that fails for a use of an entry, as its detail code; none when the use passes R159. -/
def Chip.scopeFail (c : Chip) (g : Gang) (e core : Nat) : Option Nat :=
  match vget g.bind e with
  | none => some 1
  | some v =>
    if v ≠ (vget c.scopes e).version then some 2
    else if (c.scopeSet e core).getLsbD core then none
    else some 3

/-- The narrowest named scope that holds two cores (R305); the law `Chip.narrowScope_holds` says that it does. -/
def narrowScope (a b : Nat) : Nat :=
  if a = b then 0 else if clusterOf a = clusterOf b then 1 else if dieOf a = dieOf b then 2 else 3

/-- The member tasks of the group that an entry is tracked for (R250): all that a group-shaped entry holds at its version, though the
member's core changes or the member retires (R309, log entry 104). -/
def Chip.trackedTasks (c : Chip) (e : Nat) : List Nat :=
  match (vget c.scopes e).track with
  | none => []
  | some h =>
    match Tab.find c.launches h with
    | none => []
    | some l => (l.groups.filter fun g => g.scope = e).flatMap fun g => g.members.map (taskKey h)

/-- An operation at an entry as R296 judges it. -/
def Chip.scopeView (c : Chip) (e core task : Nat) : ScopeView :=
  let mask := c.scopeSet e core
  let here := c.tasks.filterMap fun t => match t.2.core with | some k => if mask.getLsbD k.core then some t.1 else none | none => none
  { core, task, mask, holds := here ++ if e < 5 then [] else (c.trackedTasks e).filter fun t => !here.contains t,
    pod := e == 4 || (decide (5 ≤ e) && (vget c.scopes e).fabif), foreign := false }

/-- A mailbox atomic of another chip, at the guest's pod (R215, R305). -/
def ScopeView.ofPod : ScopeView := { core := 0, task := 0, mask := 0, holds := [], pod := true, foreign := true }

/-- The agent of another operation lies in the effective set of an operation as that operation saw it (R296). What comes from another chip
sees every agent of the pod. -/
def ScopeView.admits (v a : ScopeView) : Bool := v.foreign || if a.foreign then v.pod else v.mask.getLsbD a.core || v.holds.contains a.task

/-! ### Happens-before (R292 to R301) -/

/-- Join of two clocks. -/
def VClock.join (a b : VClock) : VClock := b.foldl (fun m p => Tab.put m p.1 (max (Tab.getD m p.1 0) p.2)) a

/-- The name of a chip's agent on the other chips of its guest (R305). A chip's own agents lie below 2^400. -/
def agentAbroad (chip agent : Nat) : Nat := (chip + 1) * 2 ^ 400 + agent

/-- A clock of a chip as the other chips hold it. -/
def VClock.abroad (k : VClock) (chip : Nat) : VClock := k.foldl (fun m p => Tab.put m (if p.1 < 2 ^ 400 then agentAbroad chip p.1 else p.1) p.2) []

/-- A clock from another chip as a chip holds it. -/
def VClock.home (k : VClock) (chip : Nat) : VClock :=
  k.foldl (fun m p => Tab.put m (if p.1 / 2 ^ 400 = chip + 1 then p.1 % 2 ^ 400 else p.1) p.2) []

/-- What the race record knows a task by: its key, and the launch that it belongs to, since a later launch in the same ring entry has tasks with
the same keys (R295). -/
def Task.self (t : Task) (key : Nat) : Nat := t.born * 2 ^ 64 + key

/-- The race agent of a thread, by what the record knows its task by. -/
def threadAgent (task gang lane : Nat) : Nat := (task * 32 + gang) * 32 + lane

/-- The race identity of a gang: its threads and engine commands never race with one another (R294). -/
def gangAgent (task gang : Nat) : Nat := task * 32 + gang

/-- A control core as an agent of the race record, with the engine commands that it issues (R292, R294). -/
def ctrlAgent (core : Nat) : Nat := 2 ^ 300 + core

/-- An engine command as an agent of the race record (R292). -/
def engineAgent (n : Nat) : Nat := 2 ^ 301 + n

/-- The task number that stands for the control core in a command it issued. -/
def ctrlTask : Nat := 2 ^ 48

/-- The agent that issued an engine command (R170, R294): a control core, or the lowest lane of a task's bundle. -/
def State.issuerAgent (s : State) (chip task : Nat) (b : IssuedBy) : Nat :=
  if task = ctrlTask then ctrlAgent b.gang
  else threadAgent (((s.task? chip task).map fun t => t.self task).getD task) b.gang (lowest b.lanes)

/-- A thread's clock; its own part starts at 1. -/
def Hb.clock (h : Hb) (agent : Nat) : VClock :=
  match Tab.find h.clocks agent with
  | some k => k
  | none => [(agent, 1)]

/-- What an access is made by: the agent, its gang and the names a record carries. -/
structure Actor where
  agent : Nat
  gang : Nat
  clk : Nat
  clock : VClock
  handle : Nat
  task : Nat
  gangNo : Nat
deriving DecidableEq, Repr

/-- Two accesses race (R292, R299): another gang, a write among them, not both atomic, and no order. -/
def races (a : Actor) (atomic write : Bool) (p : PastAccess) : Bool :=
  p.gang != a.gang && (write || p.write) && !(atomic && p.atomic) && decide (Tab.getD a.clock p.agent 0 < p.clk)

/-- The detail code of R301 for a race of an access with a past one. -/
def raceDetail (write : Bool) (p : PastAccess) : Nat := if p.write then (if write then 1 else 2) else 3

/-- The first past access that one byte's access races with. -/
def Hb.clash (h : Hb) (a : Actor) (atomic write : Bool) (addr : Nat) : Option PastAccess :=
  (Tab.getD h.past addr []).find? (races a atomic write)

/-- The record after an access to a byte. A new access of an agent stands for its older one of the same sort, and a plain write for all
that its own gang did before it: what races with those races with it too. -/
def Hb.note (h : Hb) (a : Actor) (atomic write : Bool) (addr : Nat) : Hb :=
  let old := (Tab.getD h.past addr []).filter fun p =>
    !(p.agent == a.agent && p.atomic == atomic && p.write == write) &&
    !(write && !atomic && p.gang == a.gang && decide (p.clk ≤ Tab.getD a.clock p.agent 0))
  let new : PastAccess := ⟨a.agent, a.gang, a.clk, atomic, write, a.handle, a.task, a.gangNo⟩
  { h with past := Tab.put h.past addr (new :: old) }

/-- The lowest racing byte of an access to places, with the past access it meets. -/
def State.findRace (s : State) (a : Actor) (atomic write : Bool) (addr : Nat) : List Place → Option (Nat × PastAccess)
  | [] => none
  | p :: ps =>
    match (match p with
      | .dram k x true => (s.chip? k).bind fun c => c.hb.clash a atomic write x
      | _ => none) with
    | some q => some (addr, q)
    | none => State.findRace s a atomic write (addr + 1) ps

/-- The race record after an access to places. -/
def State.noteAccess (s : State) (a : Actor) (atomic write : Bool) (ps : List Place) : State :=
  ps.foldl (fun s p =>
    match p with
    | .dram k x true => s.updChip k fun c => { c with hb := c.hb.note a atomic write x }
    | _ => s) s

/-- The actor of a thread. -/
def State.actor (s : State) (g : GangRef) (lane : Nat) : Actor :=
  match s.chip? g.chip, s.task? g.chip g.task with
  | some c, some t =>
    let agent := threadAgent (t.self g.task) g.gang lane
    let k := c.hb.clock agent
    ⟨agent, gangAgent (t.self g.task) g.gang, Tab.getD k agent 1, k, t.handle, t.num, g.gang⟩
  | _, _ => let agent := threadAgent g.task g.gang lane; ⟨agent, gangAgent g.task g.gang, 1, [(agent, 1)], 0, 0, g.gang⟩

/-- The clock a thread publishes, and the record in which its later accesses count as later. -/
def Hb.publish (h : Hb) (agent : Nat) : VClock × Hb :=
  let k := h.clock agent
  (k, { h with clocks := Tab.put h.clocks agent (Tab.put k agent (Tab.getD k agent 1 + 1)) })

/-- A thread takes a clock in: everything in it happens before what the thread does next. -/
def Hb.acquire (h : Hb) (agent : Nat) (k : VClock) : Hb := { h with clocks := Tab.put h.clocks agent (VClock.join (h.clock agent) k) }

/-- A release at a key of `carried`. -/
def Hb.releaseTo (h : Hb) (agent key : Nat) : Hb :=
  let p := h.publish agent
  { p.2 with carried := Tab.put p.2.carried key (VClock.join (Tab.getD p.2.carried key []) p.1) }

/-- An acquire from a key of `carried`. -/
def Hb.acquireFrom (h : Hb) (agent key : Nat) : Hb := h.acquire agent (Tab.getD h.carried key [])

/-- A release and an acquire meet (R296): each agent lies in the effective set of the other's entry as that operation saw it. -/
def Release.meets (r : Release) (v : ScopeView) : Bool := v.admits r.at_ && r.at_.admits v

/-- What an acquire takes in of some releases (R296). -/
def admitted (rs : List Release) (v : ScopeView) : VClock := (rs.filter fun r => r.meets v).foldl (fun k r => VClock.join k r.clock) []

/-- The releases whose sequences the bytes of a location carry. -/
def Hb.sequence (h : Hb) (addrs : List Nat) : List Release :=
  addrs.foldl (fun rs a => rs ++ (Tab.getD h.rels a []).filter fun r => !rs.contains r) []

/-- A write puts its releases at every byte of a location; a read-modify-write keeps what each byte carries (R296). -/
def Hb.putReleases (h : Hb) (addrs : List Nat) (new : List Release) (keeps : Bool) : Hb :=
  { h with rels := addrs.foldl (fun t a => Tab.put t a (new ++ if keeps then Tab.getD t a [] else [])) h.rels }

/-- What an atomic step does at a location (R293, R296). -/
structure AtomicStep where
  read : Bool := false
  write : Bool := false
  /-- a read-modify-write, which goes on the release sequence -/
  keeps : Bool := false
  /-- the entry of an acquire -/
  acq : Option ScopeView := none
  /-- the entry of a release -/
  rel : Option ScopeView := none

/-- An atomic step of a thread on the bytes of a location (R293, R296): reads join `seen` and, as an acquire, the thread's clock; writes
carry the releases of earlier fences and, as a release, their own. -/
def Hb.atomicStep (h : Hb) (agent : Nat) (addrs : List Nat) (k : AtomicStep) : Hb :=
  let seq := h.sequence addrs
  let seen := Tab.getD h.seen agent []
  let h := if k.read then { h with seen := Tab.put h.seen agent (seq.filter (fun r => !seen.contains r) ++ seen) } else h
  let h := match k.acq with
    | some v => h.acquire agent (admitted seq v)
    | none => h
  if k.write then
    let fences : List Release := (Tab.getD h.relFence agent []).map fun f => ⟨f.clock, f.at_⟩
    match k.rel with
    | some v =>
      let p := h.publish agent
      p.2.putReleases addrs (⟨p.1, v⟩ :: fences) k.keeps
    | none => h.putReleases addrs fences k.keeps
  else h

/-- A plain write ends the release sequences of the bytes it touches. -/
def Hb.plainWrite (h : Hb) (addrs : List Nat) : Hb :=
  { h with rels := addrs.foldl (fun t a => Tab.drop t a) h.rels }

/-- A fence of a thread (R153, R296). -/
def Hb.fence (h : Hb) (agent : Nat) (v : ScopeView) (acq rel : Bool) : Hb :=
  let h := if acq then h.acquire agent (admitted (Tab.getD h.seen agent []) v) else h
  if rel then
    let p := h.publish agent
    { p.2 with relFence := Tab.put p.2.relFence agent (⟨v, p.1⟩ :: (Tab.getD p.2.relFence agent []).filter fun f => f.at_ != v) }
  else h

/-- The threads of a task's gangs, as agents. -/
def taskAgents (task : Nat) (gangs : List Nat) : List Nat := gangs.flatMap fun g => (List.range 32).map (threadAgent task g)

/-- An acquire of the operations 1 to v of a counter (R160): their keys lie between two bounds. -/
def Hb.acquireBetween (h : Hb) (agent lo hi : Nat) : Hb :=
  h.acquire agent ((h.carried.filter fun e => decide (lo ≤ e.1) && decide (e.1 ≤ hi) && e.1 % 8 == 0).foldl
    (fun k e => VClock.join k e.2) [])

/-! Keys of `carried`. -/

/-- Advance k of counter n of a task. -/
def keyTl (task n k : Nat) : Nat := ((task * 8 + n) * 2 ^ 64 + k) * 8
/-- A barrier object or full/empty word in a task's scratchpad. -/
def keyScratch (task off : Nat) : Nat := (task * 2 ^ 20 + off) * 8 + 1
/-- Completion of the matrix and quantiser commands of a task, for QWAIT (R197): which 0 quantiser, 1 matrix. -/
def keyQ (task which : Nat) : Nat := (task * 2 + which) * 8 + 3
/-- Turns of the chip (R211, R212). -/
def keyTide (n : Nat) : Nat := n * 8 + 4
/-- What a task's accesses release where it leaves a core (R252, R394, R403). -/
def keyMove (task : Nat) : Nat := task * 8 + 2

/-- A full/empty word is emptied: a later observation meets the fill that comes after (R148). -/
def Hb.emptied (h : Hb) (key : Nat) : Hb := { h with carried := Tab.drop h.carried key }

/-- An entry of `carried` is of a task's counters or of its matrix and quantiser commands. -/
def ofCommands (task key : Nat) : Bool := (key % 8 == 0 && key / 2 ^ 70 == task) || (key % 8 == 3 && key / 16 == task)

/-- What the completed engine commands of a task have done. -/
def Hb.commandsOf (h : Hb) (task : Nat) : VClock := (h.carried.filter fun e => ofCommands task e.1).foldl (fun k e => VClock.join k e.2) []

/-- What a task's threads and its completed engine commands have done, as one clock (R259). -/
def Hb.ofTask (h : Hb) (t : Task) (key : Nat) : VClock :=
  VClock.join ((taskAgents (t.self key) (t.gangs.map Prod.fst)).foldl (fun k a => VClock.join k (h.clock a)) []) (h.commandsOf key)

/-- Nothing is carried by the counters, the scratchpad and the moves of a task that is gone or not yet there. -/
def Hb.dropTask (h : Hb) (key : Nat) : Hb :=
  let scratch (p : Nat) : Bool := p % 3 == 1 && p / 3 / 2 ^ 19 == key
  { h with carried := h.carried.filter fun e => !(ofCommands key e.1 || (e.1 % 8 == 1 && e.1 / 8 / 2 ^ 20 == key) ||
             (e.1 % 8 == 2 && e.1 / 8 == key) || (e.1 % 8 == 7 && e.1 / 2 ^ 54 == key)),
           rels := h.rels.filter fun e => !scratch e.1 }

/-- A release for every access of a task where it leaves its core: its threads', its completed engine commands' and what those under way have
done (R252 step 2, R403 step 7). The scope is `narrowScope` of the two cores for a migration and POD for a pre-emption: either holds both
cores, so that the acquire always meets it. -/
def Hb.leaveCore (h : Hb) (t : Task) (key : Nat) (under : VClock) : Hb :=
  let h := (taskAgents (t.self key) (t.gangs.map Prod.fst)).foldl (fun h a => h.releaseTo a (keyMove key)) h
  { h with carried := Tab.put h.carried (keyMove key) (VClock.join (VClock.join (Tab.getD h.carried (keyMove key) []) (h.commandsOf key)) under) }

/-- The acquire of every thread of a task on its new core (R252 step 5, R394). -/
def Hb.enterCore (h : Hb) (t : Task) (key : Nat) : Hb :=
  (taskAgents (t.self key) (t.gangs.map Prod.fst)).foldl (fun h a => h.acquireFrom a (keyMove key)) h

end Sys2Proof.Machine
end

