-- ==== Sys2Proof/Machine/Ops.lean ====
section
/-! DEFINITION. What every instruction shares: writing destinations (R29, R41, R42, R44), the register pool (R45, R46), the gang image
(R48, R407, R408), taking a fault with its record (R395 to R402), and issue with the checks of R37 and the waits of R30. -/

namespace Sys2Proof.Machine

/-- What a meaning answers. -/
abbrev Ans := Host.Outcome State Fault Refusal

/-! ### Registers -/

/-- The subcore of a gang (R243). -/
def subOf (base gang : Nat) : Nat := (gang + base) % 4

/-- Registers of the pool that a gang holds or has reserved (R40, R45 to R47): what it has mapped, and without overcommit at
least its N. -/
def Gang.held (g : Gang) (more : Bool) : Nat :=
  if g.exited = BitVec.allOnes 32 || g.spilled then 0
  else (if more then g.vmap.length else max g.vmap.length g.nreg) + (if g.moments then 64 else 0)

/-- A gang's reservation (R45). -/
def Gang.reserve (g : Gang) : Nat := g.nreg + (if g.moments then 64 else 0)

/-- The reservations of the gangs resident on a subcore (R45). -/
def State.reservedOn (s : State) (core : CoreRef) (sub : Nat) : Nat :=
  s.chips.foldl (fun n c => c.2.tasks.foldl (fun m t =>
    if t.2.core = some core then
      t.2.gangs.foldl (fun k p => if subOf t.2.base p.1 = sub && p.2.exited != BitVec.allOnes 32 then k + p.2.reserve else k) m
    else m) n) 0

/-- The gangs of a context on a subcore count for what they have mapped alone: register overcommit is on, or what is reserved there is more
than the pool, as it may be after overcommit was turned off (R45, R46, R435). -/
def State.loose (s : State) (c : Chip) (core : CoreRef) (sub : Nat) : Bool := c.overEn || decide (2048 < s.reservedOn core sub)

/-- A task's share of a subcore's pool. -/
def Task.heldOn (t : Task) (more : Bool) (core : CoreRef) (sub : Nat) : Nat :=
  if t.core = some core then
    t.gangs.foldl (fun n p => if subOf t.base p.1 = sub then n + p.2.held more else n) 0
  else 0

/-- Registers of a subcore's pool that are taken. -/
def State.poolUsed (s : State) (core : CoreRef) (sub : Nat) : Nat :=
  s.chips.foldl (fun n c => let more := s.loose c.2 core sub; c.2.tasks.foldl (fun m t => m + t.2.heldOn more core sub) n) 0

/-- The names among n from k that a gang has not mapped. -/
def Gang.unmapped (g : Gang) (k : Nat) : Nat → Nat
  | 0 => 0
  | n + 1 => (if (Tab.find g.vmap k).isNone then 1 else 0) + g.unmapped (k + 1) n

/-- A mapping with a zero live mask where there was none (R41 step 1, R44). -/
def Gang.mapName (g : Gang) (k : Nat) : Nat → Gang
  | 0 => g
  | n + 1 =>
    (if (Tab.find g.vmap k).isNone then { g with vmap := Tab.put g.vmap k ⟨0, Lanes.all 0⟩ } else g).mapName (k + 1) n

/-- Lanes of n names written from one (R41). -/
def Gang.writeV (g : Gang) (k : Nat) (m : LaneMask) (v : Lanes Nat) : Nat → Gang
  | 0 => g
  | n + 1 =>
    let r := Tab.getD g.vmap k ⟨0, Lanes.all 0⟩
    let r' : VReg := ⟨r.live ||| m, Lanes.sel m (v.map (BitVec.ofNat 32)) r.data⟩
    ({ g with vmap := Tab.put g.vmap k r' }).writeV (k + 1) m (v.map (· / 2 ^ 32)) n

/-- Lanes of n operand-file registers written. -/
def Gang.writeO (g : Gang) (k : Nat) (m : LaneMask) (v : Lanes Nat) : Nat → Gang
  | 0 => g
  | n + 1 =>
    ({ g with ofile := vset g.ofile k (Lanes.sel m (v.map (BitVec.ofNat 32)) (vget g.ofile k)) }).writeO (k + 1) m
      (v.map (· / 2 ^ 32)) n

/-- Where a destination operand is written. -/
def dstName (s : Slot) (o : Opnd) : DstName :=
  match s.cls, o with
  | .V, .main k => if k.toNat = 255 then .sink else .vec k.toNat s.regs
  | .V, .file k => .oper k.toNat s.regs
  | .S, .main k => .uni k.toNat
  | .M, .main k => .mom k.toNat
  | _, _ => .sink

/-- The index of a destination, 255 for the sink (R408). -/
def DstName.index : DstName → Nat
  | .vec k _ => k
  | .oper k _ => k
  | .uni k => k
  | .mom k => k
  | .sink => 255

/-- Values written to a destination name in the lanes of a mask. -/
def Gang.writeName (g : Gang) (d : DstName) (m : LaneMask) (v : Lanes Nat) : Gang :=
  match d with
  | .vec k n => g.writeV k m v n
  | .oper k n => g.writeO k m v n
  | .uni k => { g with sreg := vset g.sreg k (BitVec.ofNat 64 (vget v (lowest m))) }
  | .mom k => { g with mom := vset g.mom k (Lanes.sel m (v.map (BitVec.ofNat 64)) (vget g.mom k)) }
  | .sink => g

/-- One predicate of the lanes of a mask written. -/
def Gang.writeP (g : Gang) (k : Nat) (m : LaneMask) (v : Lanes Bool) : Gang :=
  { g with pred := lanesFrom fun i =>
      if inMask m i then
        let p := g.pred[i]
        if v[i] then p ||| (1#15 <<< k) else p &&& ~~~(1#15 <<< k)
      else g.pred[i] }

/-- The last-result file shifts in the lanes of a mask (R29). -/
def Gang.shiftLast (g : Gang) (m : LaneMask) (v : Lanes Nat) : Gang :=
  { g with last := lanesFrom fun i => if inMask m i then (BitVec.ofNat 64 v[i] :: g.last[i]).take 4 else g.last[i] }

/-- The slot of a use that is written. -/
def Use.writeSlot : Use → Option Slot
  | .dst s => some s
  | .both s => some s
  | _ => Option.none

/-- A wait that blocks the active threads (R233); the others are stalls at issue of the whole bundle (R236). -/
def WaitKind.blocks : WaitKind → Bool
  | .ldf | .barWait | .tlwait | .qwait | .tideWait | .tideClose | .msaveMres | .lovage | .tret => true
  | _ => false

/-- The lanes of a bundle whose wait is its own, not one that joined it. -/
def Bundle.own (b : Bundle) : LaneMask := b.lanes &&& ~~~(b.also.foldl (fun m p => m ||| p.1) 0)

/-- The waits of a blocked bundle, each with its lanes. -/
def Bundle.parts (b : Bundle) : List (LaneMask × Wait) := match b.wait with | some w => (b.own, w) :: b.also | none => []

/-- The name that an instruction blocked in a wait is to write (R44). -/
def Wait.dest (w : Wait) : DstName :=
  match w.kind.blocks, w.instr.spec, w.instr.ops with
  | true, some sp, some x => (sp.dst.writeSlot.map fun t => dstName t x.dst).getD .sink
  | _, _, _ => .sink

/-- A vector name is among those of a destination. -/
def DstName.covers (d : DstName) (k : Nat) : Bool := match d with | .vec n r => decide (n ≤ k) && decide (k < n + r) | _ => false

/-- A register awaits a result of the gang, outstanding or of an instruction blocked in a wait, or it has been given to an instruction that is
to write it, so that an empty live mask does not free it (R43, R44, R46). -/
def Gang.awaits (g : Gang) (k : Nat) : Bool :=
  g.granted.contains k || (g.pend.any fun p => p.dst.covers k) || g.bundles.any fun b => b.parts.any fun p => p.2.dest.covers k

/-- Lanes of n names released by a last-read (R28, R42). -/
def Gang.release (g : Gang) (k : Nat) (m : LaneMask) : Nat → Gang
  | 0 => g
  | n + 1 =>
    (match Tab.find g.vmap k with
     | none => g
     | some r =>
       let live := r.live &&& ~~~m
       if live = 0 && !g.awaits k then { g with vmap := Tab.drop g.vmap k }
       else { g with vmap := Tab.put g.vmap k { r with live := live } }).release (k + 1) m n

/-- Registers that nothing keeps are freed: zero live mask and no result awaited (R42, R44). -/
def Gang.sweep (g : Gang) : Gang := { g with vmap := g.vmap.filter fun p => p.2.live != 0 || g.awaits p.1 }

/-! ### Outstanding results (R30, R44) -/

/-- The names that two destinations share. -/
def DstName.meets (a b : DstName) : Bool :=
  match a, b with
  | .vec k n, .vec j m => decide (k < j + m) && decide (j < k + n)
  | .oper k n, .oper j m => decide (k < j + m) && decide (j < k + n)
  | .uni k, .uni j => k == j
  | .mom k, .mom j => k == j
  | _, _ => false

/-- The name a source operand reads. -/
def srcName (s : Slot) (o : Opnd) : DstName :=
  match s.cls, o with
  | .V, .special k => if k.toNat < 64 then .uni k.toNat else .sink
  | _, _ => dstName s o

/-- A write of a name in lanes discards the results that it supersedes (R30 rule 2; log entry 121). A uniform register is the gang's, so
that a write by any bundle discards every earlier result for it (R98, R99). -/
def Gang.supersede (g : Gang) (d : DstName) (m : LaneMask) : Gang :=
  { g with pend := g.pend.map fun p =>
      if p.dst.meets d then
        match p.dst with
        | .uni _ => { p with lanes := 0, sup := true }
        | _ => if p.lanes &&& m != 0 then { p with lanes := p.lanes &&& ~~~m, sup := true } else p
      else p }

/-- Lanes of an outstanding result whose window has ended. -/
def Pend.past (p : Pend) : LaneMask := maskOf fun i => inMask p.lanes i && p.wleft[i] == 0

/-- An instruction of lanes that reads or writes a name waits once the window of one of those lanes has ended (R30 rule 4). A bundle with no
lane of an outstanding SLD waits for nothing and sees the destination as it stands (R99; log entry 123). -/
def Gang.mustWait (g : Gang) (m : LaneMask) (ds : List DstName) : Bool :=
  g.pend.any fun p => ds.any (fun d => p.dst.meets d) && p.past &&& m != 0

/-- The instruction can raise IEEE flags late (R30 rule 5, R54). -/
def lateFlags : Instr → Bool
  | .fdiv _ | .fsqrt _ => true
  | _ => false

/-- The instruction waits for every outstanding result of its threads (R30 rule 6, R224): EXIT; CSAVE of a whole gang; CREST; and TRET in a
handler, which nothing of the handler's outlives (log entry 31). -/
def waitsAll (g : Gang) (active : LaneMask) : Instr → Bool
  | .exit _ | .crest _ => true
  | .csave _ => active == ~~~g.exited
  | .tret _ => g.frame.isSome
  | _ => false

/-- The bundle that holds a lane. -/
def Gang.bundleOf (g : Gang) (i : Nat) : Option Bundle := g.bundles.find? fun b => inMask b.lanes i

/-- The lanes of a mask that wait for every result of theirs (R30 rule 6, R224): they stand in an instruction that does, or a handler has made
them exit (R401). -/
def Gang.closing (g : Gang) (m : LaneMask) : LaneMask :=
  maskOf fun i => inMask m i && (inMask g.exiting i || match g.bundleOf i with
    | some b => (match b.wait with | some w => w.kind == .result && waitsAll g b.lanes w.instr | none => false)
    | none => false)

/-- The lanes in which a result that has come may be written now: all of its lanes once the window of each has ended (R30 rule 1, R405),
and before that those whose threads wait in EXIT or CSAVE (R30 rule 6). A result of a uniform register is written whole. -/
def Gang.landing (g : Gang) (p : Pend) : LaneMask :=
  if p.missing ≠ 0 then 0
  else
    let last := g.closing p.lanes
    if (p.past ||| last) = p.lanes then p.lanes else match p.dst with | .uni _ => 0 | _ => last

/-- A result arrives: every value of it has come, and its flags or some lanes of it are still to be written. -/
def Gang.mayArrive (g : Gang) (p : Pend) : Bool := p.missing == 0 && (!p.come || p.lanes == 0 || g.landing p != 0)

/-- Lanes of an outstanding result written; none are where it is discarded. -/
def Gang.writePend (g : Gang) (p : Pend) (m : LaneMask) : Gang := if m = 0 then g else g.writeName p.dst m (p.vals.map BitVec.toNat)

/-- The arrival of a result: its flags are raised once, lanes that may be written are written, and an entry that has lanes left stays (R30,
R41, R44, R116). -/
def Gang.arrive (g : Gang) (p : Pend) : Gang :=
  let m := g.landing p
  let rest := p.lanes &&& ~~~m
  let left : Pend := { p with lanes := rest, flags := Lanes.all 0, come := true }
  let pend := if rest = 0 then g.pend.filter fun q => q.id != p.id else g.pend.map fun q => if q.id = p.id then left else q
  let g := ({ g with pend } : Gang).writePend p m
  let g := { g with fpflag := lanesFrom fun i => g.fpflag[i] ||| (p.flags[i]).setWidth 32 }
  g.sweep

/-- A result is written or discarded at once, whatever is left of its windows (R30 rule 6, R399). -/
def Gang.settle (g : Gang) (p : Pend) : Gang :=
  let g := ({ g with pend := g.pend.filter fun q => q.id != p.id } : Gang).writePend p p.lanes
  let g := { g with fpflag := lanesFrom fun i => g.fpflag[i] ||| (p.flags[i]).setWidth 32 }
  g.sweep

/-! ### Gang images (R48, R407, R408) -/

/-- Bytes of a number as a list of n. -/
def le (n v : Nat) : List Byte := leBytes v n

/-- n zero bytes. -/
def zeros (n : Nat) : List Byte := List.replicate n 0

/-- Free bytes. -/
def State.freeBytes (s : State) (n : Nat) : List Byte × State :=
  let r := s.freeWords ((n + 7) / 8)
  ((r.1.flatMap fun w => le 8 w.toNat).take n, r.2)

/-- A list of 32-bit lanes. -/
def laneWords (v : Lanes Word) : List Byte := v.toList.flatMap fun x => le 4 x.toNat

/-- The payload format of a spilled register: FMT and payload (R48). A dead lane is 0 in a raw payload too, for which the rule states nothing
(log entry 107). -/
def spillPayload (r : VReg) : Nat × List Byte :=
  let vals : List Nat := laneList.map fun i : Fin 32 => if inMask r.live i then (r.data[i]).toNat else 0
  let live : List Nat := (lanesOf r.live).map fun i : Fin 32 => (r.data[i]).toNat
  let base := live.headD 0
  let deltas : List Int := laneList.map fun i : Fin 32 => if inMask r.live i then sext (wrapNat (((r.data[i]).toNat : Int) - base) 32) 32 else 0
  let fits (n : Nat) : Bool := deltas.all fun d => decide (-(2 ^ (n - 1)) ≤ d) && decide (d < 2 ^ (n - 1))
  if live.all (· == 0) then (0, [])
  else if live.all (· == base) then (1, le 4 base)
  else if fits 8 then (2, le 4 base ++ deltas.flatMap fun d => le 1 (wrapNat d 8))
  else if fits 16 then (3, le 4 base ++ deltas.flatMap fun d => le 2 (wrapNat d 16))
  else (4, vals.flatMap fun v => le 4 v)

/-- One spill record (R48). -/
def spillRecord (kind name : Nat) (r : VReg) : List Byte :=
  let p := spillPayload r
  le 1 name ++ le 1 p.1 ++ le 1 kind ++ le 1 0 ++ le 4 r.live.toNat ++ p.2

/-- The records of a gang with the end record (R47, R48), in an order that the rule leaves open: vectors ascending, then the mean and the
variance of each moment register (log entry 107). -/
def Gang.records (g : Gang) : List Byte :=
  (g.vmap.flatMap fun p => spillRecord 0 p.1 p.2) ++
  (if g.moments then
    (List.range 32).flatMap fun k =>
      let m := vget g.mom k
      spillRecord 1 k ⟨BitVec.allOnes 32, m.map fun v : DWord => v.setWidth 32⟩ ++
      spillRecord 2 k ⟨BitVec.allOnes 32, m.map fun v : DWord => (v >>> 32).setWidth 32⟩
   else []) ++
  [0, 0, 0xFF, 0, 0, 0, 0, 0]

/-- A handle's 256-byte descriptor (R166). -/
def Handle.bytes (h : Handle) : List Byte :=
  le 8 h.base.toNat ++ le 1 h.rank ++ le 1 h.esize ++ zeros 6 ++ ((List.range 14).flatMap fun k => le 4 (h.ext.getD k 0)) ++ zeros 8 ++
  ((List.range 14).flatMap fun k => le 8 (h.stride.getD k 0).toNat) ++ zeros 64

/-- The descriptor of R166 as a handle; none when it breaks a condition. -/
def handleOf (bs : List Byte) : Option Handle :=
  let rank := field bs 8 1
  let esize := field bs 9 1
  let ext := (List.range 14).map fun k => field bs (0x10 + 4 * k) 4
  let stride := (List.range 14).map fun k => BitVec.ofNat 64 (field bs (0x50 + 8 * k) 8)
  let ok := decide (1 ≤ rank) && decide (rank ≤ 14) && decide (esize ≤ 4) && decide (field bs 0 8 % 2 ^ esize = 0) &&
    field bs 0xA 6 == 0 && field bs 0x48 8 == 0 && field bs 0xC0 64 == 0 &&
    (List.range 14).all fun k =>
      if k < rank then decide (1 ≤ ext.getD k 0) && decide ((stride.getD k 0).toNat % 2 ^ esize = 0)
      else ext.getD k 0 == 0 && stride.getD k 0 == 0
  if ok then some ⟨BitVec.ofNat 64 (field bs 0 8), rank, esize, ext, stride⟩ else none

/-- A pending entry of R408. A result that is superseded in some of its lanes only goes on in the others; one superseded in all of them keeps
its lanes with SUP set, and is discarded. -/
def Pend.bytes (p : Pend) : List Byte :=
  let kind := match p.kind with | .here => 0 | .rld false => 1 | .rld true => 2 | .ratom false => 3 | .ratom true => 4
  le 1 p.dst.index ++ le 1 kind ++ le 1 ((if p.missing = 0 then 1 else 0) + (if p.lanes = 0 then 2 else 0)) ++ [0] ++
  le 4 (if p.lanes = 0 then p.active else p.lanes).toNat ++
  le 16 (laneList.foldl (fun n i => n + p.wleft[i].toNat * 2 ^ (4 * i.val)) 0) ++ (p.vals.toList.flatMap fun v => le 8 v.toNat)

/-- Level codes of R56. -/
def levelCode : Level → Nat
  | .user => 0 | .supervisor => 1 | .host => 2 | .firmware => 3

def levelOf : Nat → Level
  | 0 => .user | 1 => .supervisor | 2 => .host | _ => .firmware

/-- A lane-sized list of 128-bit sources, padded to 512 bytes. -/
def replBytes (v : Lanes (BitVec 128)) : List Byte := v.toList.flatMap fun x => le 16 x.toNat

/-- The gang image of R407: predicates as given, handler mode and frame, the CSAVE mark, and REPL. -/
def Gang.image (g : Gang) (pcs : Lanes DWord) (pred : Lanes (BitVec 15)) (hmode : Option Nat) (csave : Bool)
    (repl : List (Lanes (BitVec 128))) : List Byte :=
  let remote := (g.pend.filter fun p => p.kind != .here).take 32
  let flags := (if g.moments then 1 else 0) + (if g.c16 then 2 else 0) + (if hmode.isSome then 4 else 0) + (if csave then 8 else 0)
  le 4 0x47490001 ++ le 1 g.nreg ++ le 1 flags ++ le 1 (levelCode g.pl) ++ le 1 remote.length ++ le 4 g.exited.toNat ++
  le 16 (laneList.foldl (fun n i => n + g.last[i].length * 2 ^ (4 * i.val)) 0) ++ le 2 (hmode.getD 0) ++ zeros 34 ++
  (pcs.toList.flatMap fun p => le 8 p.toNat) ++ laneWords g.fpctl ++ laneWords g.fpflag ++ laneWords g.mflag ++
  (pred.toList.flatMap fun p => le 2 p.toNat) ++ (g.sreg.toList.flatMap fun v => le 8 v.toNat) ++
  (g.bind.toList.flatMap fun b => match b with | some v => le 4 (2 ^ 31 + v.toNat) | none => le 4 0) ++
  (g.hand.toList.flatMap fun h => match h with | some d => d.bytes | none => zeros 256) ++
  (g.ofile.toList.flatMap laneWords) ++
  ((List.range 4).flatMap fun k => g.last.toList.flatMap fun l => le 8 (l.getD k 0).toNat) ++
  (let es := remote.flatMap Pend.bytes; es ++ zeros (8960 - es.length)) ++
  (let rs := (repl.take 3).flatMap replBytes; rs ++ zeros (1536 - rs.length)) ++ g.records

/-- Register records read back into a gang (R48): fuel bounds their number. None is a bad record: a FMT or KIND that the rule does not name, a
NAME that no register has, or no end record (log entry 107). -/
def readRecords (bs : List Byte) : Nat → Gang → Option Gang
  | 0, _ => none
  | fuel + 1, g =>
    let name := field bs 0 1
    let fmt := field bs 1 1
    let kind := field bs 2 1
    let live := BitVec.ofNat 32 (field bs 4 4)
    let base := field bs 8 4
    if 4 < fmt || ((kind = 1 || kind = 2) && 31 < name) then none
    else if kind = 0xFF then some g
    else
      let v (i : Fin 32) : Nat :=
        if !inMask live i then 0
        else match fmt with
          | 0 => 0
          | 1 => base
          | 2 => wrapNat ((base : Int) + sext (field bs (12 + i.val) 1) 8) 32
          | 3 => wrapNat ((base : Int) + sext (field bs (12 + 2 * i.val) 2) 16) 32
          | _ => field bs (8 + 4 * i.val) 4
      let size := match fmt with | 0 => 8 | 1 => 12 | 2 => 44 | 3 => 76 | _ => 136
      let vals : Lanes Word := lanesFrom fun i => BitVec.ofNat 32 (v i)
      match kind with
      | 0 => if name = 255 then none else readRecords (bs.drop size) fuel { g with vmap := Tab.put g.vmap name ⟨live, vals⟩ }
      | 1 =>
        readRecords (bs.drop size) fuel { g with mom := vset g.mom name (lanesFrom fun i =>
          ((vget g.mom name)[i] &&& 0xFFFFFFFF00000000) ||| (vals[i]).setWidth 64) }
      | 2 =>
        readRecords (bs.drop size) fuel { g with mom := vset g.mom name (lanesFrom fun i =>
          ((vget g.mom name)[i] &&& 0xFFFFFFFF) ||| ((vals[i]).setWidth 64 <<< 32)) }
      | _ => none

/-- A pending entry read back (R405, R408). -/
def pendOf (bs : List Byte) (id : Nat) : Option Pend :=
  let kind := field bs 1 1
  if kind = 0 || 4 < kind then none
  else
    let wide := kind % 2 == 0
    let lanes := BitVec.ofNat 32 (field bs 4 4)
    let name := field bs 0 1
    let sup := field bs 2 1 / 2 % 2 == 1
    some { id, kind := if kind ≤ 2 then .rld wide else .ratom wide,
           dst := if name = 255 then .sink else .vec name (if wide then 2 else 1), lanes := if sup then 0 else lanes,
           missing := if field bs 2 1 % 2 = 1 then 0 else lanes,
           vals := lanesFrom fun i => BitVec.ofNat 128 (field bs (24 + 8 * i.val) 8), flags := Lanes.all 0, traps := 0,
           wleft := lanesFrom fun i => BitVec.ofNat 4 (field bs 8 16 / 2 ^ (4 * i.val)), sup, come := false,
           pc := 0, active := lanes, instr := .fillWord, repl := [] }

/-- Running threads of a gang as bundles: by address, and by half under C16 (R235, R242). -/
def bundlesOf (c16 : Bool) (running : LaneMask) (pc : Lanes DWord) : List Bundle :=
  (lanesOf running).foldl (fun bs i =>
    let same (b : Bundle) : Bool :=
      pc[i] == vget pc (lowest b.lanes) && (!c16 || decide (lowest b.lanes / 16 = i.val / 16))
    if bs.any same then bs.map fun b => if same b then { b with lanes := b.lanes ||| (1#32 <<< i.val) } else b
    else bs ++ [⟨1#32 <<< i.val, 0, none, []⟩]) []

/-- The lanes of some replays. -/
def replayLanes (rs : List Replay) : LaneMask := rs.foldl (fun m r => m ||| r.lanes) 0

/-- The threads of a gang that run on: those that a handler has made exit run in a handler alone (R399, R401). -/
def Gang.runs (g : Gang) : LaneMask := ~~~g.exited &&& (if g.frame.isSome then BitVec.allOnes 32 else ~~~g.exiting)

/-- Bundles of some threads of a gang, by address; a replay is one by itself, and threads of a later replay wait for it. -/
def Gang.bundlesIn (g : Gang) (m : LaneMask) : List Bundle :=
  (match g.replay with | r :: _ => if r.lanes &&& m = 0 then [] else [⟨r.lanes &&& m, 0, none, []⟩] | [] => []) ++
    bundlesOf g.c16 (m &&& ~~~(replayLanes g.replay)) g.pc

/-- The bundles of a gang that has stopped at instruction boundaries (R399 step 1): formed from its addresses alone, no wait left. -/
def Gang.formed (g : Gang) : List Bundle := g.bundlesIn g.runs

/-- What CREST and TRET take from an image into a gang (R224, R401, R407). None when the magic, NREGS or MOMENTS differ or a
record is bad. -/
def Gang.restore (g : Gang) (bs : List Byte) : Option Gang :=
  if field bs 0 4 ≠ 0x47490001 || field bs 4 1 ≠ g.nreg || (field bs 5 1 % 2 == 1) ≠ g.moments then none
  else
    let pcs : Lanes DWord := lanesFrom fun i => BitVec.ofNat 64 (field bs (0x40 + 8 * i.val) 8)
    let words (o : Nat) : Lanes Word := lanesFrom fun i => BitVec.ofNat 32 (field bs (o + 4 * i.val) 4)
    let exited := BitVec.ofNat 32 (field bs 8 4)
    let lrv (i : Nat) : Nat := field bs 0xC 16 / 2 ^ (4 * i) % 16
    let n := min (field bs 7 1) 32
    let base : Gang :=
      { g with
        pc := pcs, exited,
        fpctl := words 0x140, fpflag := words 0x1C0, mflag := words 0x240,
        pred := lanesFrom fun i => BitVec.ofNat 15 (field bs (0x2C0 + 2 * i.val) 2),
        sreg := Vector.ofFn fun k : Fin 64 => BitVec.ofNat 64 (field bs (0x300 + 8 * k.val) 8),
        bind := Vector.ofFn fun k : Fin 64 =>
          let v := field bs (0x500 + 4 * k.val) 4
          if v < 2 ^ 31 then none else some (BitVec.ofNat 24 v),
        hand := Vector.ofFn fun k : Fin 16 => handleOf ((bs.drop (0x600 + 256 * k.val)).take 256),
        ofile := Vector.ofFn fun k : Fin 8 => words (0x1600 + 128 * k.val),
        last := lanesFrom fun i => (List.range (min (lrv i) 4)).map fun k => BitVec.ofNat 64 (field bs (0x1A00 + 256 * k + 8 * i.val) 8),
        pend := (List.range n).filterMap fun k => pendOf ((bs.drop (0x1E00 + 280 * k)).take 280) k,
        bundles := bundlesOf g.c16 (~~~exited) pcs, vmap := [], granted := [], spilled := false }
    readRecords (bs.drop 0x4700) 512 base

/-! ### Taking a fault (R395 to R402) -/

/-- What a fault says beside whose it is: cause, detail, faulting lanes, ADDR, XD, DEFER, SUP. -/
structure Trouble where
  cause : Nat
  detail : Nat := 0
  lanes : LaneMask
  addr : DWord := 0
  xd : List Byte := []
  deferred : Bool := false
  sup : Bool := false
deriving DecidableEq, Repr

def cIllegalEncoding : Nat := 1
def cIllegalOperand : Nat := 2
def cFetchBoundary : Nat := 3
def cUnmappedRead : Nat := 4
def cExtent : Nat := 5
def cExtentRange : Nat := 6
def cMisalign : Nat := 7
def cMmrace : Nat := 8
def cStaleScope : Nat := 9
def cNvar : Nat := 10
def cBadRho : Nat := 11
def cNonuniform : Nat := 12
def cBarrierMismatch : Nat := 13
def cEmptyOrphan : Nat := 14
def cWaitBudget : Nat := 15
def cTideOverflow : Nat := 16
def cTideConflict : Nat := 17
def cFpTrap : Nat := 18
def cPriv : Nat := 19
def cUserTrap : Nat := 20
def cLegacyReject : Nat := 21
def cEngineFault : Nat := 22

/-- The cause's fate is to end the task at once (R395). -/
def endsTask (cause : Nat) : Bool := cause == cExtent || cause == cEngineFault

/-- The 64 bytes of a fault record (R396). -/
def faultRecord (t : Trouble) (nest ends eng : Bool) (active : LaneMask) (gang handle task : Nat) (pc resume : DWord) : List Byte :=
  le 4 (t.cause + 256 * t.detail + 2 ^ 16 * bitNat t.sup + 2 ^ 17 * bitNat t.deferred + 2 ^ 18 * bitNat nest + 2 ^ 19 * bitNat ends +
    2 ^ 20 * bitNat eng) ++
  le 4 t.lanes.toNat ++ le 4 active.toNat ++ [0] ++ le 1 gang ++ le 2 handle ++ le 8 pc.toNat ++ le 8 resume.toNat ++ le 8 t.addr.toNat ++
  le 4 task ++ (t.xd ++ zeros (20 - t.xd.length))

/-- Where the device reaches a generic address for a chip: tables or ATS; a read under R254 needs the page to grant it. Its accesses
lie outside race detection. -/
def Chip.vaPlace (c : Chip) (key : Nat) (granted : Bool) (a : Nat) : Option Place :=
  if deviceHalf a then
    match c.walk a with
    | some l => if granted && !l.r then none else some (.dram key (l.frame + a % l.size) false)
    | none => none
  else if hostHalf a then
    match Tab.find c.ats (a / 4096) with
    | some ⟨.mapped f r _ _⟩ => if granted && !r then none else some (.host (f + a % 4096))
    | _ => none
  else none

/-- A write that is no atomic ends the release sequence of a byte (R296). -/
def State.endSequence (s : State) (p : Place) : State :=
  match p with
  | .dram k _ _ => s.updChip k fun c => { c with hb := c.hb.plainWrite [placeKey p] }
  | _ => s

/-- Bytes that the device writes for a chip; a byte whose address has no translation is not written (log entry 20). -/
def State.devWrite (s : State) (chip a : Nat) : List Byte → State
  | [] => s
  | b :: bs =>
    let s := match (s.chip? chip).bind fun c => c.vaPlace chip false (a % 2 ^ 64) with
      | some p => (s.writeByte p b).endSequence p
      | none => s
    State.devWrite s chip (a + 1) bs

/-- Every page of a range is dirty while tracking is on (R388). -/
def Chip.touchRange (c : Chip) (a n : Nat) : Chip :=
  if n = 0 then c else (List.range ((a + n - 1) / 65536 + 1 - a / 65536)).foldl (fun c k => c.touch (a + 65536 * k)) c

/-- Bytes written to guest-physical memory of a chip, with its dirty pages (R388). -/
def Chip.writeMem (c : Chip) (a : Nat) (bs : List Byte) : Chip := { c.touchRange a bs.length with mem := Mem.write c.mem a bs }

/-- A record goes to the fault queue when it has room and none waits before it, and the supervisor is interrupted; it waits otherwise
(R402). -/
def State.deliverFault (s : State) (chip : Nat) (bs : List Byte) (task : Nat) : State × Bool :=
  match s.chip? chip with
  | none => (s, false)
  | some c =>
    let unread := (c.trap.fqtail + 64 - c.trap.fqhead) % 64
    if unread < 63 && c.trap.due.isEmpty then
      let t := (s.devWrite chip (c.trap.fqbase.toNat + 64 * c.trap.fqtail) bs).updChip chip fun c =>
        { c with trap := { c.trap with fqtail := (c.trap.fqtail + 1) % 64 } }
      ({ t with irqs := t.irqs ++ [.supervisor chip (field bs 0 1)] }, true)
    else (s.updChip chip fun c => { c with trap := { c.trap with due := c.trap.due ++ [(bs, task)] } }, false)

/-- A task that a fault ends (R246): nothing issues, results are discarded, commands not started are discarded; the record goes
to the fault queue (R402). -/
def State.endTask (s : State) (chip task : Nat) (record : List Byte) : State :=
  match s.chip? chip with
  | none => s
  | some _ =>
    let d := s.deliverFault chip record task
    let s := d.1.updTask chip task fun t =>
      { t with ended := true, undelivered := !d.2,
               gangs := t.gangs.map fun p => (p.1, { p.2 with pend := [], waiting := none, bundles := p.2.formed }),
               arr := { t.arr with queue := [] } }
    let s : State := match (s.task? chip task).bind Task.core with
      | some k => s.updCore k fun (r : Core) => { r with copyq := r.copyq.filter fun (q : CopyCmd) => !(q.chip == chip && q.task == task && q.phase == .queued) }
      | none => s
    { s with devs := s.devs.map fun (p : Nat × Device) => (p.1, { p.2 with
               quant0 := p.2.quant0.filter fun q => !(q.chip == chip && q.task == task && !q.running),
               quant1 := p.2.quant1.filter fun q => !(q.chip == chip && q.task == task && !q.running) }) }

/-- The lowest frame that is free (R399 step 2). -/
def Trap.freeFrame (t : Trap) : Option Nat := (List.range (t.tfn + 1)).find? fun k => !t.frames.contains k

/-- The fabric's traffic for a gang with its results renumbered (R405). -/
def State.renumber (s : State) (g : GangRef) (f : Nat → Nat) : State :=
  { s with packets := s.packets.map fun p =>
      match p.body with
      | .rld r id lane off mb wide tide closed => if r = g then { p with body := .rld r (f id) lane off mb wide tide closed } else p
      | .ratom r id lanes off op ord wide vals clock rels => if r = g then { p with body := .ratom r (f id) lanes off op ord wide vals clock rels } else p
      | .reply r id values rels acq => if r = g then { p with body := .reply r (f id) values rels acq } else p
      | _ => p }

/-- The remote results of a gang, numbered by their places in its image (R405, R408). -/
def Gang.remote (g : Gang) : List Pend :=
  ((g.pend.filter fun p => p.kind != .here).take 32).mapIdx fun k p => { p with id := k }

/-- The place in the image that an outstanding remote result takes. -/
def Gang.remotePlace (g : Gang) (id : Nat) : Nat :=
  (((g.pend.filter fun p => p.kind != .here).take 32).findIdx? fun p => p.id == id).getD id

/-- Step 1 of R399: every bundle stops at an instruction boundary, and the results are written or discarded but for those of RLD and RATOM,
and for one with an FP_TRAP of its own, which comes when the handler has returned (log entry 14). -/
def Gang.stop (g : Gang) : Gang :=
  let g := (g.pend.filter fun p => p.kind == .here && p.traps == 0).foldl Gang.settle g
  ({ g with bundles := g.formed, granted := [] } : Gang).sweep

/-- The results of a gang whose own FP_TRAP waits for a handler's return, numbered after those of an image. -/
def Gang.trapping (g : Gang) : List Pend := (g.pend.filter fun p => p.kind == .here && p.traps != 0).mapIdx fun k p => { p with id := 32 + k }

/-- The threads still to be struck by EMPTY_ORPHAN without those whose fault is taken (R149). -/
def struckOut (os : List (LaneMask × DWord)) (m : LaneMask) : List (LaneMask × DWord) :=
  (os.map fun o => (o.1 &&& ~~~m, o.2)).filter fun o => o.1 != 0

/-- Entry to the handler of a gang whose record is made, through a free frame (R399). -/
def State.enterHandler (s : State) (g : GangRef) (record : List Byte) (repl : List (Lanes (BitVec 128))) (frame : Nat) : State :=
  match s.chip? g.chip, s.gang? g with
  | some c, some k =>
    let k := k.stop
    let image := k.image k.pc k.pred none false repl
    let image := image.take 0x1C ++ le 2 frame ++ image.drop 0x1E
    let va := c.trap.tfbase.toNat + 65536 * frame
    let c := match leasePlace g.chip c.trap.area va with
      | some (.dram _ a _) => (c.writeMem a record).writeMem (a + 0x40) image
      | _ => c
    let c := { c with trap := { c.trap with frames := frame :: c.trap.frames } }
    let running := ~~~k.exited
    let pcs : Lanes DWord := lanesFrom fun i => if inMask running i then c.trap.tcbase else k.pc[i]
    let sreg := vset (vset k.sreg 62 (BitVec.ofNat 64 va)) 63 (BitVec.ofNat 64 (field record 0 4))
    let q := { k with pc := pcs, pl := .supervisor, fpctl := Lanes.all 0, sreg, bundles := bundlesOf k.c16 running pcs,
                      frame := some frame, waiting := none, pend := [], saved := k.remote ++ k.trapping, replay := [],
                      orphaned := if field record 0 1 = cEmptyOrphan then struckOut k.orphaned (BitVec.ofNat 32 (field record 4 4)) else k.orphaned,
                      mark := some ⟨BitVec.ofNat 64 (field record 0x10 8), BitVec.ofNat 64 (field record 0x18 8), BitVec.ofNat 32 (field record 8 4), 0, k.replay⟩ }
    ((s.renumber g k.remotePlace).updChip g.chip fun _ => c).updGang g fun _ => q
  | _, _ => s

/-- A fault of a gang whose record is made: the handler, a wait for a frame, or the task's end (R395, R399, R402). -/
def State.faultGang (s : State) (g : GangRef) (t : Trouble) (active : LaneMask) (pc resume : DWord)
    (repl : List (Lanes (BitVec 128))) : State :=
  match s.chip? g.chip, s.task? g.chip g.task, s.gang? g with
  | some c, some k, some q =>
    let nest := q.frame.isSome
    let rec_ (ends : Bool) := faultRecord t nest ends false active g.gang k.handle k.num pc resume
    if nest || !c.trap.en || endsTask t.cause then s.endTask g.chip g.task (rec_ true)
    else
      match c.trap.freeFrame with
      | some n => s.enterHandler g (rec_ false) repl n
      | none => s.updGang g fun q => { q.stop with waiting := some (rec_ false, repl) }
  | _, _, _ => s

/-- A control routine ends. One of a protected context whose tasks have left its core is the last of the context there, and the scrub is due
(R413). -/
def State.endRoutine (s : State) (r : CoreRef) : State :=
  match (s.core r).ctrl with
  | none => s
  | some run =>
    let last := ((s.chip? run.chip).map fun c => c.prot && !(c.tasks.any fun t => t.2.core == some r)).getD false
    s.updCore r fun k => { k with ctrl := none, scrub := k.scrub || last, gated := k.gated || last }

/-- A fault on the control core stops its service for the context (R266). -/
def State.faultCtrl (s : State) (r : CoreRef) (cause : Nat) (pc : DWord) : State :=
  match (s.core r).ctrl with
  | none => s
  | some run =>
    let s := s.updChip run.chip fun c =>
      { c with cc := { c.cc with stop := true, cause, offs := (pc.toNat - c.cc.area.toNat) % 65536 } }
    let s := s.endRoutine r
    { s with irqs := s.irqs ++ [.supervisor run.chip cause] }

/-- The sticky flags of 32 lanes as the XD stream of R396: five bits for each active lane. -/
def flagStream (active : LaneMask) (f : Lanes FpFlags) : List Byte :=
  le 20 ((lanesOf active).foldl (fun n i => n + f[i].toNat * 2 ^ (5 * i.val)) 0)

/-- A deferred FP_TRAP of an outstanding result (R31, R116): the record's particulars. -/
def Pend.trouble (p : Pend) : Trouble :=
  { cause := cFpTrap, lanes := p.traps, xd := flagStream p.active p.flags, deferred := true, sup := p.sup }

/-- A blocked bundle of some waits. -/
def Bundle.ofParts (passes : Nat) (ps : List (LaneMask × Wait)) : Bundle :=
  match ps.filter fun p => p.1 != 0 with
  | [] => ⟨0, passes, none, []⟩
  | p :: rest => ⟨rest.foldl (fun m q => m ||| q.1) p.1, passes, some p.2, rest⟩

/-- A bundle without some lanes. -/
def Bundle.minus (b : Bundle) (m : LaneMask) : Bundle :=
  match b.wait with
  | none => { b with lanes := b.lanes &&& ~~~m }
  | some _ => Bundle.ofParts b.passes (b.parts.map fun p => (p.1 &&& ~~~m, p.2))

/-- A bundle of a gang rewritten: its lanes taken out of every bundle, and new bundles put in. -/
def Gang.rebundle (g : Gang) (lanes : LaneMask) (new : List Bundle) : Gang :=
  { g with bundles := (g.bundles.map fun b => b.minus lanes).filter (fun b => b.lanes != 0) ++
      new.filter fun b => b.lanes != 0 }

/-- The replay that the bundle of these lanes makes (R401). -/
def Gang.replaying (g : Gang) (lanes : LaneMask) : Option Replay :=
  match g.replay with
  | r :: _ => if r.lanes = lanes then some r else none
  | [] => none

/-- The threads of a replay that is done go on at the addresses of the image (R401); the next replay is due. -/
def Gang.endReplay (g : Gang) (r : Replay) : Gang :=
  let g := { g with pc := Lanes.sel r.lanes r.back g.pc, replay := g.replay.drop 1 }
  let m := (r.lanes ||| replayLanes (g.replay.take 1)) &&& g.runs
  g.rebundle m (g.bundlesIn m)

/-- A fault of an instruction that TRET replays names the address at which its threads go on and keeps the superseded bit. One found after
issue ends the replay, for its threads then stand past it; one found at issue leaves it due, at the instruction (R396, R401; log entry 26). -/
def State.faultOfReplay (s : State) (w : Issuer) (t : Trouble) (resume : DWord) (repl : List (Lanes (BitVec 128))) :
    State × Trouble × DWord × List (Lanes (BitVec 128)) :=
  match w with
  | .ctrl _ => (s, t, resume, repl)
  | .gang g lanes =>
    match (s.gang? g).bind fun q => q.replaying lanes with
    | some r =>
      let s := if t.deferred || t.cause == cUserTrap then s.updGang g fun q => q.endReplay r else s
      (s, { t with sup := r.sup }, vget r.back (lowest lanes), if t.deferred then r.repl else repl)
    | none => (s, t, resume, repl)

/-- The deferred FP_TRAP of an outstanding result is taken (R31, R116). -/
def State.takeDeferred (s : State) (g : GangRef) (p : Pend) : State :=
  let at_ := ((s.gang? g).map fun q => vget q.pc (lowest p.traps)).getD 0
  (s.updGang g fun q => { q with pend := q.pend.filter fun r => r.id != p.id }).faultGang g p.trouble p.active p.pc at_ p.repl

/-- Two issuers are bundles of one gang. -/
def Issuer.together : Issuer → Issuer → Bool
  | .gang g _, .gang h _ => g == h
  | _, _ => false

/-- TAKING A FAULT: the one operation every instruction's fault goes through. An outstanding result of the gang that holds a
deferred FP_TRAP is the earlier instruction and faults first; the present one then counts as not issued (log entry 14). What was to issue beside it in the same cycle does not (R400). -/
def State.takeFault (s : State) (w : Issuer) (t : Trouble) (active : LaneMask) (pc resume : DWord)
    (repl : List (Lanes (BitVec 128))) : State :=
  let s : State := { s with issuer := none, due := s.due.filter fun o => !Issuer.together o w }
  match w with
  | .ctrl r => s.faultCtrl r t.cause pc
  | .gang g _ =>
    match (s.gang? g).bind fun q => q.pend.find? fun p => p.traps != 0 with
    | some p => s.takeDeferred g p
    | none =>
      let f := s.faultOfReplay w t resume repl
      f.1.faultGang g f.2.1 active pc f.2.2.1 f.2.2.2

/-! ### Issue -/

/-- What an instruction's meaning sees of its issue: who issues, the mode, lanes, addresses and source values per slot. -/
structure Ctx where
  w : Issuer
  i : Instr
  sp : OpSpec
  x : Ops
  g : Gang
  core : CoreRef
  chip : Nat
  md : Mode
  /-- the bundle's lanes -/
  lanes : LaneMask
  /-- lanes whose guard is true (R27) -/
  active : LaneMask
  pc : DWord
  next : DWord
  /-- values of DST as a source, SA, SB and SC -/
  vd : Lanes Nat
  va : Lanes Nat
  vb : Lanes Nat
  vc : Lanes Nat

/-- What a meaning answers when it completes. -/
structure Out where
  s : State
  /-- the value DST receives in each active lane -/
  dst : Option (Lanes Nat) := none
  /-- IEEE and moment flags that the active lanes raise -/
  flags : Lanes FpFlags := Lanes.all 0
  mflags : Lanes (BitVec 3) := Lanes.all 0
  /-- where the active lanes go next, when not to the next instruction -/
  jump : Option (Lanes DWord) := none
  /-- the result comes later (R30), with the lanes whose value is still to come -/
  late : Option (PendKind × LaneMask) := none

/-- How a meaning ends. -/
inductive Res where
  | ok (o : Out)
  /-- a precise fault without effect -/
  | trap (t : Trouble)
  /-- the active lanes wait, without effect -/
  | wait (k : WaitKind) (addr : DWord) (expect : Word)
  /-- the instruction has made its whole next state itself -/
  | whole (s : State)

/-- Who issues and the address it stands at. -/
def State.issuing (s : State) : Option (Issuer × Gang × CoreRef × Nat × LaneMask) :=
  match s.issuer with
  | none => none
  | some w =>
    match s.gangOf w, s.coreOf w, s.chipOf w with
    | some g, some c, some k => some (w, g, c, k, match w with | .gang _ l => l | .ctrl _ => 1)
    | _, _, _ => none

/-- The guard of each lane (R27). -/
def guardMask (g : Gang) (x : Ops) (lanes : LaneMask) : LaneMask :=
  if x.gp = 15 then lanes
  else maskOf fun i => inMask lanes i && ((g.pred[i]).getLsbD x.gp.toNat != x.gn)

/-- The slot of a use that is read as a source. -/
def Use.readSlot : Use → Option Slot
  | .src s => some s
  | .both s => some s
  | _ => Option.none

/-- Names that an instruction reads or writes (R30 rule 4). -/
def namesOf (sp : OpSpec) (x : Ops) : List DstName :=
  let one (u : Use) (o : Opnd) : List DstName := match u with
    | .src s => [srcName s o]
    | .dst s => [dstName s o]
    | .both s => [dstName s o]
    | _ => []
  one sp.dst x.dst ++ one sp.a x.a.opnd ++ (if x.form.hasImm then [] else one sp.b x.b.opnd) ++ one sp.c x.c.opnd

/-- The rho register that a moment instruction reads under CV = 3 (R198, R199). -/
def rhoNames (i : Instr) (x : Ops) : List DstName :=
  match i with
  | .madd _ | .msub _ | .mmul _ | .mfma _ => if x.sb 1 0 = 3 then [.uni (x.sb 6 2)] else []
  | _ => []

/-- Values of one field in the active lanes, none where a lane's read is UNMAPPED_READ. -/
def readUse (g : Gang) (md : Mode) (f : Form) (u : Use) (x : Src) (m : LaneMask) : Lanes (Option Nat) :=
  match u.readSlot with
  | none => Lanes.all (some 0)
  | some s => lanesFrom fun i => if inMask m i then g.readSrc md.ctrl md.diag f s x i else some 0

/-- The lanes of a mask whose read failed. -/
def missingLanes (m : LaneMask) (v : Lanes (Option Nat)) : LaneMask := maskOf fun i => inMask m i && v[i].isNone

/-- The lowest lane whose class U value differs from the lowest active lane's; lanes without a value are left to
UNMAPPED_READ (R36, R37). -/
def differing (u : Use) (m : LaneMask) (v : Lanes (Option Nat)) : Option Nat :=
  match u.readSlot with
  | some s =>
    if s.uni then
      match (lanesOf m).filterMap fun i => v[i] with
      | [] => none
      | first :: _ => ((lanesOf m).find? fun i => match v[i] with | some x => x != first | none => false).map Fin.val
    else none
  | none => none

/-- The source lane of SHFL (R107). -/
def shflLane (mode S i x : Nat) : Nat :=
  let b := i - i % S
  match mode with
  | 0 => b + x % S
  | 1 => if i - b < x then i else i - x
  | 2 => if b + S - i ≤ x then i else i + x
  | _ => b + ((i - b) ^^^ (x % S))

/-- What SHFL reads for each active lane: SA in the lane that SB selects (R107). A lane whose SB is unmapped is named by that. -/
def shflReads (g : Gang) (md : Mode) (x : Ops) (active : LaneMask) (b : Lanes (Option Nat)) : Lanes (Option Nat) :=
  let S0 := 2 ^ (5 - x.sb 5 3)
  let S := if g.c16 && S0 == 32 then 16 else S0
  let slot := slotBits (if x.sb 6 6 = 1 then 2 else 1)
  lanesFrom fun i =>
    match inMask active i, b[i] with
    | true, some n => g.readSrc md.ctrl md.diag x.form slot x.a (shflLane (x.sb 1 0) S i.val n)
    | _, _ => some 0

/-- The instruction waits for late IEEE flags (R30 rule 5, R96, R137): a read of %fpflag by MOVS or FSTAT. No long-latency
instruction sets a flag of %mflag. -/
def waitsFlags (i : Instr) : Bool :=
  match i with
  | .movs x => x.sub == 0 && x.a.opnd == .special 7
  | .fstat x => !x.sub.getLsbD 1
  | _ => false

/-- The instruction is allowed where it was fetched: C16 for retired operations, the control core's own subset (R61, R62). -/
def placeOk (md : Mode) (i : Instr) (sp : OpSpec) : Bool :=
  match i with
  | .byteAbsDiffSum _ | .retiredOperation .. => md.c16 && !md.ctrl
  | .evqPop _ | .trel _ => md.ctrl
  | _ => !md.ctrl || sp.k

/-- On the control core CPY's SA is the address of a tensor descriptor (R265). -/
def ctrlSpec (md : Mode) (i : Instr) (sp : OpSpec) : OpSpec :=
  match i with
  | .cpy _ => if md.ctrl then { sp with a := .src (slot64 true) } else sp
  | _ => sp

/-- The mode an issuer's instructions are checked in. -/
def modeOf (s : State) (w : Issuer) (g : Gang) (core : CoreRef) : Mode :=
  ⟨(s.core core).diag, g.c16, g.moments, match w with | .ctrl _ => true | .gang .. => false⟩

/-- SCOPEW and SCOPERET need the context's scope-write permission (R157). -/
def State.scopeWriteOk (s : State) (chip : Nat) (i : Instr) : Bool :=
  match i with
  | .scopew _ | .scoperet _ => ((s.chip? chip).map Chip.scopeEn).getD false
  | _ => true

/-- The sources of a replay: those that REPL holds, and the rest as read (R401). -/
def againValues (again : Option Replay) (sp : OpSpec) (d a b c : Lanes (Option Nat)) :
    Lanes (Option Nat) × Lanes (Option Nat) × Lanes (Option Nat) × Lanes (Option Nat) :=
  match again with
  | none => (d, a, b, c)
  | some r =>
    let v (k : Nat) (old : Lanes (Option Nat)) : Lanes (Option Nat) :=
      match r.repl[k]? with
      | some w => w.map fun x => some x.toNat
      | none => old
    match sp.dst with
    | .src _ | .both _ => (v 0 d, v 1 a, v 2 b, c)
    | _ => (d, v 0 a, v 1 b, v 2 c)

/-- How the checks before a meaning end. -/
inductive Pre where
  | noIssuer
  | trap (w : Issuer) (t : Trouble) (active : LaneMask) (pc resume : DWord)
  | wait (w : Issuer)
  | idle (c : Ctx)
  | go (c : Ctx)

/-- The values of DST as a source, SA, SB and SC in each lane, none where a lane's read is UNMAPPED_READ. -/
structure Reads where
  d : Lanes (Option Nat)
  a : Lanes (Option Nat)
  b : Lanes (Option Nat)
  c : Lanes (Option Nat)

/-- What an issue reads of its sources. -/
def readAll (g : Gang) (md : Mode) (i : Instr) (sp : OpSpec) (x : Ops) (active : LaneMask) (again : Option Replay) : Reads :=
  let d := readUse g md x.form sp.dst ⟨x.dst, false, 0⟩ active
  let b := if x.form.hasImm then (match sp.b.readSlot with | some t => Lanes.all (some (immVal t x.form x.imm)) | none => Lanes.all (some 0))
    else readUse g md x.form sp.b x.b active
  let a := match i with | .shfl _ => shflReads g md x active b | _ => readUse g md x.form sp.a x.a active
  let c := readUse g md x.form sp.c x.c active
  let r := againValues again sp d a b c
  ⟨r.1, r.2.1, r.2.2.1, r.2.2.2⟩

/-- The context of an issue with what it reads. -/
def ctxOf (s : State) (i : Instr) (sp0 : OpSpec) (x : Ops) (w : Issuer) (g : Gang) (core : CoreRef) (chip : Nat) (lanes : LaneMask) :
    Ctx × Reads :=
  let md := modeOf s w g core
  let sp := ctrlSpec md i sp0
  let pc := vget g.pc (lowest lanes)
  let again := g.replaying lanes
  let active := if again.isSome then lanes else guardMask g x lanes
  let r := readAll g md i sp x active again
  ({ w, i, sp, x, g, core, chip, md, lanes, active, pc, next := pc + BitVec.ofNat 64 x.form.bytes, vd := lanesFrom fun k => r.d[k].getD 0,
     va := lanesFrom fun k => r.a[k].getD 0, vb := lanesFrom fun k => r.b[k].getD 0, vc := lanesFrom fun k => r.c[k].getD 0 }, r)

/-- An issue waits for results of its gang (R30 rules 4 to 6). -/
def Ctx.mustWait (c : Ctx) : Bool :=
  c.g.mustWait c.active (namesOf c.sp c.x ++ rhoNames c.i c.x) ||
    (waitsFlags c.i && c.g.pend.any fun p => lateFlags p.instr && !p.come && p.active &&& c.active != 0) ||
    (waitsAll c.g c.active c.i && c.g.pend.any fun p => (p.lanes ||| (if p.traps != 0 then p.active else 0)) &&& c.active != 0)

/-- The index of the system register that SYSR or SYSW names (R225), where order 5 knows it: IMM32, or SB when every active lane reads one
value. Any other SB is left to orders 6 and 7 (log entry 129). -/
def Ctx.regIndex (c : Ctx) (r : Reads) : Option Nat :=
  if c.x.form.hasImm then some c.x.imm.toNat
  else match (lanesOf c.active).map fun i => r.b[i] with
    | some v :: rest => if rest.all (· == some v) then some v else none
    | _ => none

/-- SYSR or SYSW of a register above the gang's level, which order 5 of R37 finds (R9, R205, R225). -/
def Ctx.regPriv (c : Ctx) (s : State) (r : Reads) : Bool :=
  let slot := ((s.chip? c.chip).map Chip.slot).getD 0
  let low (level : Level × Level → Level) : Bool :=
    match (c.regIndex r).bind (regLevels slot) with
    | some l => decide (levelCode c.g.pl < levelCode (level l))
    | none => false
  match c.i with
  | .sysr _ => low Prod.fst
  | .sysw _ => low Prod.snd
  | _ => false

/-- Orders 3 to 7 of R37 with the waits of R30, for an issue with what it reads. Where slots of class U differ in several ways, the lowest lane
of all is named (R36; log entry 123). -/
def Ctx.checks (c : Ctx) (s : State) (r : Reads) : Pre :=
  let stop (cause : Nat) (m : LaneMask) (addr : DWord) : Pre := .trap c.w { cause, lanes := m, addr } c.active c.pc c.next
  if !(encOk c.md c.sp c.x && placeOk c.md c.i c.sp) then stop cIllegalEncoding c.lanes 0
  else if !opndOk c.md c.sp c.x then stop cIllegalOperand c.lanes 0
  else if decide ((levelCode c.g.pl) < levelCode c.sp.lv) || !s.scopeWriteOk c.chip c.i || c.regPriv s r then stop cPriv c.lanes 0
  else if c.active = 0 then .idle c
  else if c.mustWait then .wait c.w
  else if (c.g.replaying c.lanes).isSome then .go c
  else
    match ([differing c.sp.a c.active r.a, differing c.sp.b c.active r.b, differing c.sp.c c.active r.c].filterMap id).min? with
    | some n => stop cNonuniform c.active (BitVec.ofNat 64 n)
    | none =>
      let gone := missingLanes c.active r.d ||| missingLanes c.active r.a ||| missingLanes c.active r.b ||| missingLanes c.active r.c
      if gone ≠ 0 then stop cUnmappedRead gone 0 else .go c

/-- The checks before the meaning of an LNI instruction with its fields. -/
def prologue (s : State) (i : Instr) (sp : OpSpec) (x : Ops) : Pre :=
  match s.issuing with
  | none => .noIssuer
  | some (w, g, core, chip, lanes) =>
    let q := ctxOf s i sp x w g core chip lanes
    q.1.checks s q.2

/-- Pass count of the bundle that holds some of the lanes. -/
def Gang.passesOf (g : Gang) (lanes : LaneMask) : Nat :=
  (g.bundles.filter fun b => b.lanes &&& lanes != 0).foldl (fun n b => max n b.passes) 0

/-- A gang may issue at all: its task has not ended, it waits for no frame and it is not spilled. -/
def State.mayIssue (s : State) (r : GangRef) : Bool :=
  match s.task? r.chip r.task, s.gang? r with
  | some t, some q => !t.ended && q.waiting.isNone && !q.spilled
  | _, _ => false

/-- The bundle of a gang with exactly these lanes. -/
def State.bundle (s : State) (r : GangRef) (lanes : LaneMask) : Option Bundle := (s.gang? r).bind fun q => q.bundles.find? fun b => b.lanes == lanes

/-- A chosen bundle still stands ready as it was chosen. -/
def State.stillDue (s : State) : Issuer → Bool
  | .gang r lanes => s.mayIssue r && (match s.bundle r lanes with | some b => b.wait.isNone | none => false) &&
      (match (s.task? r.chip r.task).bind Task.core with | some k => !(s.core k).halted | none => false)
  | .ctrl r => (s.core r).ctrl.isSome && !(s.core r).halted

/-- After the issue of one bundle of a pair the other issues, in the same cycle: nothing falls between the two (R43, R238). -/
def State.handOver (s : State) (w : Issuer) : State :=
  match s.due.find? (Issuer.together w) with
  | some o => { s with issuer := if s.stillDue o then some o else none, due := s.due.filter fun p => p != o }
  | none => { s with issuer := none }

/-- A task that waits for the array of its core takes it in issue order (R268). -/
def State.wantArray (s : State) (w : Issuer) (k : WaitKind) : State :=
  match w with
  | .gang g _ =>
    match k == .arrayHeld, (s.task? g.chip g.task).bind Task.core with
    | true, some r => s.updCore r fun c => { c with wants := if c.wants.contains (g.chip, g.task) then c.wants else c.wants ++ [(g.chip, g.task)] }
    | _, _ => s
  | .ctrl _ => s

/-- A bundle stalls at issue as it stands (R236). -/
def State.stall (s : State) (w : Issuer) (lanes : LaneMask) (k : Wait) : State :=
  ((s.wantArray w k.kind).updGangOf w fun g => g.rebundle lanes [⟨lanes, g.passesOf lanes, some k, []⟩]).handOver w

/-- Registers a destination still needs from the pool. -/
def needRegs (g : Gang) (d : DstName) : Nat :=
  match d with
  | .vec k n => g.unmapped k n
  | _ => 0

/-- What a gang takes of the pool beyond what it holds when it maps n registers more (R45). -/
def Gang.growth (g : Gang) (more : Bool) (n : Nat) : Nat :=
  ({ g with vmap := g.vmap ++ (List.range n).map fun k => (1000 + k, (⟨0, Lanes.all 0⟩ : VReg)) }).held more - g.held more

/-- The allocations that stand stalled on a subcore, in the order in which the pool serves them (log entry 124): what each takes of the pool, and
whether it is that of one bundle (R46). -/
def State.stalledOn (s : State) (core : CoreRef) (sub : Nat) (r : GangRef) (lanes : LaneMask) : List (Nat × Bool) :=
  s.chips.flatMap fun c =>
    let more := s.loose c.2 core sub
    c.2.tasks.flatMap fun t =>
      if t.2.core = some core then
        t.2.gangs.flatMap fun g =>
          if subOf t.2.base g.1 = sub then
            g.2.bundles.filterMap fun b =>
              match b.wait with
              | some k => if k.kind = .alloc then some (g.2.growth more k.expect.toNat, r == ⟨c.1, t.1, g.1⟩ && b.lanes == lanes) else none
              | none => none
          else []
      else []

/-- Registers of the pool that stalled allocations take as soon as they are free, and that no later one gets before them (R46). -/
def State.owed (s : State) (core : CoreRef) (sub : Nat) (r : GangRef) (lanes : LaneMask) : Nat :=
  let used := s.poolUsed core sub
  ((s.stalledOn core sub r lanes).takeWhile fun k => !k.2).foldl (fun n k => if used + n + k.1 ≤ 2048 then n + k.1 else n) 0

/-- The pool can give a gang n registers more (R45, R46). The control core's names are not renamed. -/
def State.poolHas (s : State) (w : Issuer) (n : Nat) : Bool :=
  match w with
  | .ctrl _ => true
  | .gang g lanes =>
    match s.chip? g.chip, s.task? g.chip g.task, s.gang? g with
    | some c, some t, some q =>
      match t.core with
      | some core =>
        let sub := subOf t.base g.gang
        decide (n = 0) || decide (s.poolUsed core sub + s.owed core sub g lanes + q.growth (s.loose c core sub) n ≤ 2048)
      | none => false
    | _, _, _ => false

/-- A stalled allocation is made: the names that the instruction writes are mapped and kept for it, and it can issue again (R41, R46). -/
def Gang.grant (g : Gang) (lanes : LaneMask) : Gang :=
  match g.bundles.find? fun b => b.lanes == lanes with
  | some b =>
    match b.wait.bind fun k => (k.instr.spec.bind fun sp => k.instr.ops.bind fun x => sp.dst.writeSlot.map fun t => dstName t x.dst) with
    | some (.vec k n) => { g.mapName k n with granted := (List.range n).map (k + ·) ++ g.granted }
    | _ => g
  | none => g

/-- The names of a destination are no longer kept for a stalled instruction. -/
def Gang.ungrant (g : Gang) (d : DstName) : Gang :=
  match d with
  | .vec k n => { g with granted := g.granted.filter fun j => !(decide (k ≤ j) && decide (j < k + n)) }
  | _ => g

/-- Traps of the flags that lanes raise (R53, R116). -/
def trapLanes (g : Gang) (active : LaneMask) (f : Lanes FpFlags) : LaneMask :=
  maskOf fun i => inMask active i && (f[i] &&& ((g.fpctl[i] >>> 8).setWidth 5) != 0)

/-- Releases of the last-read bits of a source (R28, R42). -/
def Gang.lastRead (g : Gang) (u : Use) (x : Src) (m : LaneMask) : Gang :=
  match u, x.opnd with
  | .src s, .main k => if x.lastRead && k.toNat != 255 then g.release k.toNat m s.regs else g
  | _, _ => g

/-- The bundles after an issue: one for each next address (R235 step 2), pass counts reset (R238 step 5). -/
def Gang.advance (g : Gang) (lanes active : LaneMask) (next : DWord) (jump : Option (Lanes DWord)) : Gang :=
  let pcs : Lanes DWord := lanesFrom fun i =>
    if !inMask lanes i then g.pc[i]
    else match jump with
      | some j => if inMask active i then j[i] else next
      | none => next
  match g.replaying lanes with
  | some r => g.endReplay r
  | none => ({ g with pc := pcs }).rebundle lanes (bundlesOf g.c16 (lanes &&& ~~~g.exited) pcs)

/-- Windows count an instruction of the bundle's threads (R30). -/
def Gang.countWindow (g : Gang) (lanes : LaneMask) : Gang :=
  { g with pend := g.pend.map fun p =>
      { p with wleft := lanesFrom fun i => if inMask lanes i && p.wleft[i] != 0 then p.wleft[i] - 1 else p.wleft[i] } }

/-- An identity that no outstanding result of the gang has; in handler mode none that a saved entry has (R405). -/
def Gang.freshId (g : Gang) : Nat := g.pend.foldl (fun n p => max n (p.id + 1)) (if g.frame.isSome then 32 else 0)

/-- The sources of an instruction as REPL holds them (R401, R407). -/
def Ctx.repl (c : Ctx) : List (Lanes (BitVec 128)) :=
  let w (v : Lanes Nat) : Lanes (BitVec 128) := v.map (BitVec.ofNat 128)
  match c.sp.dst with
  | .src _ | .both _ => [w c.vd, w c.va, w c.vb]
  | _ => [w c.va, w c.vb, w c.vc]

/-- The instruction is a replay whose result a later one has superseded (R31, R401). -/
def Ctx.superseded (c : Ctx) : Bool := ((c.g.replaying c.lanes).map Replay.sup).getD false

/-- The name that the destination of an issue writes; a superseded replay writes none. -/
def Ctx.destName (c : Ctx) : DstName :=
  if c.superseded then .sink
  else match c.sp.dst.writeSlot with
    | some t => dstName t c.x.dst
    | none => .sink

/-- The destination is a predicate. -/
def Ctx.writesP (c : Ctx) : Bool := match c.sp.dst with | .dst t => t.cls == Cls.P && !c.superseded | _ => false

/-- The destination is of class V, and the result enters the last-result file (R29). -/
def Ctx.writesV (c : Ctx) : Bool := match c.sp.dst.writeSlot with | some t => t.cls == Cls.V && !c.superseded | none => false

/-- Bits of the destination. -/
def Ctx.destBits (c : Ctx) : Nat := match c.sp.dst.writeSlot with | some t => if t.cls == Cls.V then 32 * t.regs else 128 | none => 128

/-- Releases of the last-read bits of an issue's sources (R28, R42). On the control core, whose names are not renamed, the bits have no
effect (R265). -/
def Ctx.releases (c : Ctx) (g : Gang) : Gang :=
  if c.md.ctrl || ((c.g.replaying c.lanes).isSome && lateFlags c.i) then g
  else ((g.lastRead c.sp.a c.x.a c.active).lastRead c.sp.b c.x.b c.active).lastRead c.sp.c c.x.c c.active

/-- A destination written now: a predicate, or a name with the last-result file (R29, R30 rule 2, R41). -/
def Ctx.writeNow (c : Ctx) (g : Gang) (v : Lanes Nat) : Gang :=
  if c.writesP then g.writeP (match c.x.dst with | .main k => k.toNat | _ => 0) c.active (v.map (· != 0))
  else
    let g := (g.supersede c.destName c.active).writeName c.destName c.active v
    if c.writesV then g.shiftLast c.active v else g

/-- A destination whose result is outstanding (R30, R44), with the trap enables that it read at issue (R96). -/
def Ctx.writeLate (c : Ctx) (g : Gang) (v : Lanes Nat) (flags : Lanes FpFlags) (kind : PendKind) (missing : LaneMask) : Gang :=
  let g := g.supersede c.destName c.active
  let g := match c.destName with | .vec k n => g.mapName k n | _ => g
  { g with pend := g.pend ++ [
      ({ id := g.freshId, kind := kind, dst := c.destName, lanes := c.active, missing := missing, vals := v.map (BitVec.ofNat 128), flags := flags,
         traps := trapLanes g c.active flags, wleft := Lanes.all (if (c.g.replaying c.lanes).isSome then 0 else c.x.la), sup := c.superseded, come := false,
         pc := c.pc, active := c.active, instr := c.i, repl := c.repl } : Pend)] }

/-- The sticky flags of an instruction that is not outstanding (R54, R55, R115). -/
def Ctx.raise (c : Ctx) (g : Gang) (o : Out) : Gang :=
  { g with fpflag := lanesFrom fun i => if inMask c.active i then g.fpflag[i] ||| (o.flags[i]).setWidth 32 else g.fpflag[i],
           mflag := lanesFrom fun i => if inMask c.active i then g.mflag[i] ||| (o.mflags[i]).setWidth 32 else g.mflag[i] }

/-- The effects of a completed instruction on its gang: windows, releases, destination, flags, addresses. A name that is both last-read
and written holds the result (R28, R42 and the program of 18_prog_pod_send; log entry 18). -/
def Ctx.retireGang (c : Ctx) (g : Gang) (o : Out) : Gang :=
  let g := if (c.g.replaying c.lanes).isSome then g else g.countWindow c.lanes
  let g := c.releases g
  let g := match o.dst.map (fun v => v.map (· % 2 ^ c.destBits)), o.late with
    | some v, none => c.writeNow g v
    | some v, some (kind, missing) => c.writeLate g v o.flags kind missing
    | none, _ => g
  let g := if o.dst.isSome then g.ungrant c.destName else g
  let g := if o.late.isSome then g else c.raise g o
  g.advance c.lanes c.active c.next o.jump

/-- The threads of an issue no longer stand directly after a fence (R293), but for those whose FENCE this is. -/
def Ctx.leaveFence (c : Ctx) (s : State) : State :=
  let stay : LaneMask := match c.i with | .fence x => if x.sub = 1 then 0 else c.active | _ => 0
  let left := c.lanes &&& ~~~stay
  let gone (a : Nat) : Bool := match c.w with
    | .ctrl r => a == ctrlAgent r.core && left != 0
    | .gang r _ =>
      let task := ((s.task? r.chip r.task).map fun t => t.self r.task).getD r.task
      a / 32 == gangAgent task r.gang && inMask left (a % 32)
  s.updChip c.chip fun k => { k with hb := { k.hb with afterFence := k.hb.afterFence.filter fun a => !gone a } }

/-- The pool has the registers that the destination of an issue still needs (R41, R46). -/
def Ctx.room (c : Ctx) (s : State) : Bool := s.poolHas c.w (needRegs c.g c.destName)

/-- An issue stalls in the allocation of its destination (R46). -/
def Ctx.stallAlloc (c : Ctx) (s : State) : State :=
  s.stall c.w c.lanes ⟨.alloc, 0, BitVec.ofNat 32 (needRegs c.g c.destName), c.i, [], 0⟩

/-- The state after a completed instruction. -/
def Ctx.finish (c : Ctx) (o : Out) : State := ((c.leaveFence o.s).updGangOf c.w fun g => c.retireGang g o).handOver c.w

/-- Retirement of an instruction whose meaning has completed: pool, FP_TRAP, then every effect (R41, R46, R116). -/
def Ctx.retire (c : Ctx) (s : State) (o : Out) : State :=
  let traps := trapLanes c.g c.active o.flags
  if o.dst.isSome && !c.room s then c.stallAlloc s
  else if traps ≠ 0 && o.late.isNone then
    s.takeFault c.w { cause := cFpTrap, lanes := traps, xd := flagStream c.active o.flags } c.active c.pc c.next []
  else c.finish o

/-- An instruction none of whose lanes is active: only the addresses and windows move (R27). A replay stands in no window. -/
def Ctx.pass (c : Ctx) (s : State) : State :=
  ((c.leaveFence s).updGangOf c.w fun g =>
    (if (c.g.replaying c.lanes).isSome then g else g.countWindow c.lanes).advance c.lanes 0 c.next none).handOver c.w

/-- Engine commands that the task of an issue has issued. -/
def Ctx.issued (c : Ctx) (s : State) : Nat := match c.w with | .gang g _ => ((s.task? g.chip g.task).map Task.seq).getD 0 | .ctrl _ => 0

/-- The names that an issue is to write are mapped, and kept from now on for its result (R44). -/
def Ctx.reserveDest (c : Ctx) (g : Gang) : Gang :=
  match c.destName with
  | .vec k n => (g.mapName k n).ungrant c.destName
  | _ => g

/-- The active lanes wait. Under a blocking wait the other lanes of the bundle go on (R235 step 2), but not beside a request to the Lovage unit,
whose bundle issues nothing until the reply (R431); a destination is allocated now, as at any issue (R44, R46). -/
def Ctx.hold (c : Ctx) (s : State) (k : WaitKind) (addr : DWord) (expect : Word) : State :=
  let wait : Wait := ⟨k, addr, expect, c.i, [c.va.map (BitVec.ofNat 64), c.vb.map (BitVec.ofNat 64)], c.issued s⟩
  if !k.blocks then s.stall c.w c.lanes wait
  else if !c.room s then c.stallAlloc s
  else
    let m := if k = .lovage then c.lanes else c.active
    let rest := c.lanes &&& ~~~m
    (s.updGangOf c.w fun g =>
      let n := g.passesOf c.lanes
      (((c.reserveDest g).countWindow rest).advance rest 0 c.next none).rebundle m [⟨m, n, some wait, []⟩]).handOver c.w

/-- A fault of an instruction whose checks have passed: after one that is found late, or after TRAP, the threads stand past it
(R224, R396, R401). -/
def Ctx.fault (c : Ctx) (s : State) (t : Trouble) : State :=
  let first := ((s.gangOf c.w).map fun g => g.pend.any fun p => p.traps != 0).getD false
  let past := (t.deferred || t.cause == cUserTrap) && !first && (c.g.replaying c.lanes).isNone
  (if past then c.pass s else s).takeFault c.w t c.active c.pc c.next (if t.deferred then c.repl else [])

/-- ISSUE of an LNI instruction: the checks, the meaning, and what follows from its answer. `saved` holds the values of SA and SB
that a waiting instruction read when it first issued. -/
def issueWith (saved : List (Lanes DWord)) (s : State) (i : Instr) (x : Ops) (body : Ctx → State → Res) : Ans :=
  match i.spec with
  | none => .fault .noIssuer
  | some sp =>
    match prologue s i sp x with
    | .noIssuer => .fault .noIssuer
    | .trap w t active pc next => .next (s.takeFault w t active pc next [])
    | .wait w => .next (s.stall w (match w with | .gang _ l => l | .ctrl _ => 1) ⟨.result, 0, 0, i, [], 0⟩)
    | .idle c => .next (c.pass s)
    | .go c =>
      let c := match saved with
        | [a, b] => { c with va := a.map BitVec.toNat, vb := b.map BitVec.toNat }
        | _ => c
      match body c s with
      | .ok o => .next (c.retire s o)
      | .trap t => .next (c.fault s t)
      | .wait k addr expect => .next (c.hold s k addr expect)
      | .whole t => .next t

/-- Issue with the sources read now. -/
def issue (s : State) (i : Instr) (x : Ops) (body : Ctx → State → Res) : Ans := issueWith [] s i x body

/-! ### Shapes of meanings -/

/-- A value for each active lane, without another effect. -/
def Ctx.value (c : Ctx) (s : State) (f : Fin 32 → Nat) : Res :=
  .ok { s, dst := some (lanesFrom fun i => if inMask c.active i then f i else 0) }

/-- A condition for each active lane. -/
def Ctx.test (c : Ctx) (s : State) (f : Fin 32 → Bool) : Res := c.value s fun i => if f i then 1 else 0

/-- A float result with its flags for each active lane. -/
def Ctx.floats (c : Ctx) (s : State) (f : Fin 32 → Rounded) : Res :=
  let r : Lanes Rounded := lanesFrom fun i => if inMask c.active i then f i else ⟨0, 0⟩
  .ok { s, dst := some (r.map Rounded.code), flags := r.map Rounded.flags }

/-- As `floats`, for a long-latency instruction. -/
def Ctx.floatsLate (c : Ctx) (s : State) (f : Fin 32 → Rounded) : Res :=
  let r : Lanes Rounded := lanesFrom fun i => if inMask c.active i then f i else ⟨0, 0⟩
  .ok { s, dst := some (r.map Rounded.code), flags := r.map Rounded.flags, late := some (.here, 0) }

/-- One value for the bundle, from its lowest active lane (R98, R143). -/
def Ctx.once (c : Ctx) (v : Lanes Nat) : Nat := vget v (lowest c.active)

/-- A fault of all active lanes. -/
def Ctx.trap (c : Ctx) (cause : Nat) (addr : DWord := 0) : Res := .trap { cause, lanes := c.active, addr }

end Sys2Proof.Machine
end

