-- ==== Sys2Proof/Machine/Float.lean ====
section
/-! DEFINITION. Floating-point instructions but the approximate functions: arithmetic, minimum and maximum, comparison, classification,
integral values, conversions, packed pairs and dot products, FSTAT (R109 to R137). -/

namespace Sys2Proof.Machine

/-! ### Sources and modes -/

/-- FTZ of a lane (R53, R114). -/
def Ctx.ftz (c : Ctx) (i : Fin 32) : Bool := (c.g.fpctl[i]).getLsbD 13

/-- rm_of: the static mode of an RM code, or the lane's dynamic mode for .dyn (R38, R113). -/
def Ctx.rm (c : Ctx) (code : Nat) (i : Fin 32) : Rm :=
  if code = 5 then (Rm.ofCode ((c.g.fpctl[i]).toNat % 8)).getD .rne else (Rm.ofCode code).getD .rne

/-- fsrc: a source read at a format with R114. -/
def Ctx.fsrc (c : Ctx) (f : Fm) (i : Fin 32) (v : Nat) : Val := flushSrc f (c.ftz i) (f.decode v)

/-- The FT of an instruction (R109). -/
def opsFt (x : Ops) : Fm := ftOf (x.sb 4 3)

/-- The result of an operation at its format, under its RM and modifiers (R113, R118). -/
def Ctx.put (c : Ctx) (f : Fm) (i : Fin 32) (e : Exact) : Rounded :=
  e.write f (c.rm (c.x.sb 2 0) i) (c.ftz i) c.x.clp c.x.scl

/-! ### Basic arithmetic (R118, R119) -/

/-- FADD (R118). -/
def execFadd (x : Ops) (s : State) : Ans :=
  issue s (.fadd x) x fun c s =>
    let f := (opsFt x)
    c.floats s fun i => c.put f i (fpAdd (c.rm (x.sb 2 0) i) (c.fsrc f i c.va[i]) (c.fsrc f i c.vb[i]))

/-- FSUB (R118). -/
def execFsub (x : Ops) (s : State) : Ans :=
  issue s (.fsub x) x fun c s =>
    let f := (opsFt x)
    c.floats s fun i => c.put f i (fpSub (c.rm (x.sb 2 0) i) (c.fsrc f i c.va[i]) (c.fsrc f i c.vb[i]))

/-- FMUL (R118). -/
def execFmul (x : Ops) (s : State) : Ans :=
  issue s (.fmul x) x fun c s =>
    let f := (opsFt x)
    c.floats s fun i => c.put f i (fpMul (c.fsrc f i c.va[i]) (c.fsrc f i c.vb[i]))

/-- FFMA at a format (R118). -/
def fmaAt (f : Fm) (c : Ctx) (s : State) : Res :=
  c.floats s fun i => c.put f i (fpFma (c.rm (c.x.sb 2 0) i) (c.fsrc f i c.va[i]) (c.fsrc f i c.vb[i]) (c.fsrc f i c.vc[i]))

/-- FFMA (R118). -/
def execFfma (x : Ops) (s : State) : Ans := issue s (.ffma x) x (fmaAt (opsFt x))

/-- FFMA, the binary64 short form (R118): FFMA.f64.rne. -/
def execFfmaF64Short (x : Ops) (s : State) : Ans := issue s (.ffmaF64Short x) x (fmaAt .f64)

/-- FDIV (R118). -/
def execFdiv (x : Ops) (s : State) : Ans :=
  issue s (.fdiv x) x fun c s =>
    let f := (opsFt x)
    c.floatsLate s fun i => c.put f i (fpDiv (c.fsrc f i c.va[i]) (c.fsrc f i c.vb[i]))

/-- FSQRT (R118). -/
def execFsqrt (x : Ops) (s : State) : Ans :=
  issue s (.fsqrt x) x fun c s =>
    let f := (opsFt x)
    c.floatsLate s fun i => c.put f i (fpSqrt (c.fsrc f i c.va[i]))

/-! ### Minimum and maximum (R120) -/

/-- Order in which −0 lies below +0. -/
def minOrder (a b : Val) : Bool := decide (a.cmp b < 0) || (decide (a.cmp b = 0) && a.neg && !b.neg)

/-- FMIN and FMAX's choice between two codes, unchanged and not rounded (R113, R120). -/
def minMax (f : Fm) (wantMax num : Bool) (a b : Nat) (va vb : Val) : Rounded :=
  let sig : FpFlags := if va.isSig || vb.isSig then flagInv else 0
  let nan : Rounded :=
    match firstNan [va, vb] with
    | some v => ⟨(roundVal f .rne false v).code, sig⟩
    | none => ⟨f.qnan, sig⟩
  if va.isNan && vb.isNan then nan
  else if va.isNan then if num then ⟨b, sig⟩ else nan
  else if vb.isNan then if num then ⟨a, sig⟩ else nan
  else if minOrder vb va then ⟨if wantMax then a else b, 0⟩
  else ⟨if wantMax then b else a, 0⟩

/-- The code that a flushed source stands for (R114). -/
def flushedCode (f : Fm) (ftz : Bool) (v : Nat) : Nat :=
  match flushSrc f ftz (f.decode v) with
  | .fin s 0 _ _ => f.signed s 0
  | _ => v % 2 ^ f.width

/-- FMIN and FMAX of a lane (log entry 11: an operand flushed under R114 is returned as the zero it reads as). -/
def Ctx.minMax (c : Ctx) (wantMax : Bool) (s : State) : Res :=
  let f := (opsFt c.x)
  c.floats s fun i =>
    Sys2Proof.Machine.minMax f wantMax (c.x.sb 5 5 == 1) (flushedCode f (c.ftz i) c.va[i]) (flushedCode f (c.ftz i) c.vb[i])
      (c.fsrc f i c.va[i]) (c.fsrc f i c.vb[i])

/-- FMIN (R120). -/
def execFmin (x : Ops) (s : State) : Ans := issue s (.fmin x) x fun c s => c.minMax false s

/-- FMAX (R120). -/
def execFmax (x : Ops) (s : State) : Ans := issue s (.fmax x) x fun c s => c.minMax true s

/-! ### Comparison and classification (R123, R124) -/

/-- The conditions of FCMP (R123). -/
def floatCond (n : Nat) (a b : Val) : Bool :=
  let un := a.isNan || b.isNan
  let k := a.cmp b
  match n with
  | 0 => !un && decide (k = 0)
  | 1 => un || decide (k ≠ 0)
  | 2 => !un && decide (k < 0)
  | 3 => !un && decide (k ≤ 0)
  | 4 => !un && decide (0 < k)
  | 5 => !un && decide (0 ≤ k)
  | 6 => un
  | _ => !un

/-- FCMP (R123). -/
def execFcmp (x : Ops) (s : State) : Ans :=
  issue s (.fcmp x) x fun c s =>
    let f := (opsFt x)
    c.floats s fun i =>
      let a := c.fsrc f i c.va[i]
      let b := c.fsrc f i c.vb[i]
      let inv := a.isSig || b.isSig || (x.sb 5 5 == 1 && (a.isNan || b.isNan))
      ⟨bitNat (floatCond (x.sb 2 0) a b), if inv then flagInv else 0⟩

/-- The class bit of an encoding (R124). -/
def classBit (f : Fm) (code : Nat) : Nat :=
  match f.decode code with
  | .nan _ sig _ _ => if sig then 0 else 1
  | .inf neg => if neg then 2 else 9
  | .fin neg n _ _ =>
    if n = 0 then (if neg then 5 else 6)
    else if n < 2 ^ f.fb then (if neg then 4 else 7)
    else (if neg then 3 else 8)

/-- FCLASS (R124). -/
def execFclass (x : Ops) (s : State) : Ans := issue s (.fclass x) x fun c s => c.value s fun i => 2 ^ classBit (opsFt x) c.va[i]

/-! ### Integral values, exponents and signs (R125 to R128) -/

/-- FRND's exact result (R125): integral, with the sign of the source. -/
def integralOf (rm : Rm) (exactFlag : Bool) (v : Val) : Exact :=
  withNans [v] <|
    match v with
    | .fin neg n ex st =>
      let r := roundIntegral rm neg n ex st
      ⟨.fin neg r.1 0 false, if exactFlag && r.2 then flagInx else 0⟩
    | w => ⟨w, 0⟩

/-- FRND (R125). -/
def execFrnd (x : Ops) (s : State) : Ans :=
  issue s (.frnd x) x fun c s =>
    let f := (opsFt x)
    c.floats s fun i => c.put f i (integralOf (c.rm (x.sb 2 0) i) (x.sb 5 5 == 1) (c.fsrc f i c.va[i]))

/-- FGETEXP (R126). -/
def execFgetexp (x : Ops) (s : State) : Ans :=
  issue s (.fgetexp x) x fun c s =>
    let f := (opsFt x)
    c.floats s fun i =>
      let v := c.fsrc f i c.va[i]
      match v with
      | .fin .. => if v.isZero then ⟨0x80000000, flagInv⟩ else ⟨wrapNat v.exponent 32, 0⟩
      | _ => ⟨0x7FFFFFFF, flagInv⟩

/-- FLDEXP (R127). -/
def execFldexp (x : Ops) (s : State) : Ans :=
  issue s (.fldexp x) x fun c s =>
    let f := (opsFt x)
    c.floats s fun i =>
      let v := c.fsrc f i c.va[i]
      -- beyond this exponent every value of every format over- or underflows in the same way
      let n := max (-10000) (min 10000 (sext c.vb[i] 32))
      c.put f i (withNans [v] ⟨if v.isZero then v else v.scale n, 0⟩)

/-- FCPYS (R128). -/
def execFcpys (x : Ops) (s : State) : Ans :=
  issue s (.fcpys x) x fun c s =>
    let f := (opsFt x)
    c.value s fun i => c.va[i] % f.signBit + (c.vb[i] / f.signBit % 2) * f.signBit

/-! ### Conversions (R129 to R134) -/

/-- The format code that the SB field of a conversion holds (R110). -/
def opsFmtB (x : Ops) : Fm := (Fm.ofCode (opndBits x.b.opnd)).getD .f32

/-- FCVT (R130 to R132). -/
def execFcvt (x : Ops) (s : State) : Ans :=
  issue s (.fcvt x) x fun c s =>
    let f := (Fm.ofCode (x.sb 6 3)).getD .f32
    let g := (opsFmtB x)
    c.floats s fun i =>
      let v := c.fsrc g i c.va[i]
      c.put f i (withNans [v] ⟨v, 0⟩)

/-- F2I (R133). -/
def execF2i (x : Ops) (s : State) : Ans :=
  issue s (.f2i x) x fun c s =>
    let t := tyOf (x.sb 5 3)
    let g := (opsFmtB x)
    c.floats s fun i =>
      let sg := match t with | .int _ sg => sg | _ => false
      let r := toInt (c.rm (x.sb 2 0) i) t.width sg (x.clp == 3) (c.fsrc g i c.va[i])
      ⟨intBits t r.1, r.2⟩

/-- I2F (R134). -/
def execI2f (x : Ops) (s : State) : Ans :=
  issue s (.i2f x) x fun c s =>
    c.floats s fun i => c.put (opsFmtB x) i ⟨Val.ofInt (extTy (tyOf (x.sb 5 3)) c.va[i]), 0⟩

/-! ### Packed pairs and dot products (R135, R136) -/

/-- Both halves of a packed result; the flags of both are joined (R135). -/
def bothHalves (f : Nat → Rounded) : Rounded := ⟨(f 0).code + 2 ^ 16 * (f 1).code, (f 0).flags ||| (f 1).flags⟩

/-- Half h of a packed lane. -/
def half (v h : Nat) : Nat := v / 2 ^ (16 * h) % 2 ^ 16

/-- The format of a packed instruction (R135). -/
def opsPkFm (x : Ops) : Fm := if x.sb 3 3 = 1 then .bf16 else .f16

/-- PKADD (R135). -/
def execPkadd (x : Ops) (s : State) : Ans :=
  issue s (.pkadd x) x fun c s =>
    let f := (opsPkFm x)
    c.floats s fun i => bothHalves fun h =>
      c.put f i (fpAdd (c.rm (x.sb 2 0) i) (c.fsrc f i (half c.va[i] h)) (c.fsrc f i (half c.vb[i] h)))

/-- PKFMA (R135). -/
def execPkfma (x : Ops) (s : State) : Ans :=
  issue s (.pkfma x) x fun c s =>
    let f := (opsPkFm x)
    c.floats s fun i => bothHalves fun h =>
      c.put f i (fpFma (c.rm (x.sb 2 0) i) (c.fsrc f i (half c.va[i] h)) (c.fsrc f i (half c.vb[i] h)) (c.fsrc f i (half c.vc[i] h)))

/-- The exact sum of terms that are no NaN: none when both infinities meet. -/
def sumTerms (rm : Rm) (vs : List Val) : Option Val :=
  let pos := vs.any fun v => v.isInf && !v.neg
  let neg := vs.any fun v => v.isInf && v.neg
  if pos && neg then none
  else if pos then some (.inf false)
  else if neg then some (.inf true)
  else
    -- a zero sum takes its terms' sign when they agree, and otherwise that of R113
    let allNeg := vs.all Val.neg
    let allPos := vs.all fun v => !v.neg
    let z := if allNeg then true else if allPos then false else rm == .rdn
    some ((vs.foldl (fun d v => Dy.add d v.dy) ⟨0, 0⟩).val z)

/-- The exact result of a dot product with its flags (R136). A signalling NaN raises invalid as c only, as R136's pseudocode has it; R115 says that
of every operand (log entry 118). -/
def dotVal (rm : Rm) (xs ys : List Val) (d : Val) : Exact :=
  let sig : FpFlags := if d.isSig then flagInv else 0
  if d.isNan then ⟨d, sig⟩
  else if xs.any Val.isNan || ys.any Val.isNan then ⟨.canonical, 0⟩
  else
    let ps := List.zipWith mulVal xs ys
    if ps.any fun p => p.val.isNan then .invalid
    else
      match sumTerms rm (d :: ps.map Exact.val) with
      | none => .invalid
      | some v => ⟨v, 0⟩

/-- DOT4 (R136). -/
def execDot4 (x : Ops) (s : State) : Ans :=
  issue s (.dot4 x) x fun c s =>
    let e := x.sb 5 3
    let elems (v : Nat) : List Nat := (List.range 4).map fun k => v / 2 ^ (8 * k) % 256
    if 3 ≤ e then
      let ext (n : Nat) : Int := if e = 3 then sext n 8 else (n : Int)
      c.value s fun i =>
        let p := (List.zipWith (fun a b => ext a * ext b) (elems c.va[i]) (elems c.vb[i])).foldl (· + ·) 0
        writeInt i32 x.clp (sext c.vc[i] 32 + p)
    else
      let f : Fm := if e = 0 then .e4m3 else if e = 1 then .e5m2 else .t8
      c.floats s fun i =>
        c.put .f32 i (dotVal (c.rm (x.sb 2 0) i) ((elems c.va[i]).map f.decode) ((elems c.vb[i]).map f.decode) (c.fsrc .f32 i c.vc[i]))

/-- DOT2 (R136): FTZ does not apply to the elements. -/
def execDot2 (x : Ops) (s : State) : Ans :=
  issue s (.dot2 x) x fun c s =>
    let f := (opsPkFm x)
    let elems (v : Nat) : List Val := (List.range 2).map fun k => f.decode (half v k)
    c.floats s fun i => c.put .f32 i (dotVal (c.rm (x.sb 2 0) i) (elems c.va[i]) (elems c.vb[i]) (c.fsrc .f32 i c.vc[i]))

/-! ### Flag status (R137) -/

/-- FSTAT (R137). -/
def execFstat (x : Ops) (s : State) : Ans :=
  issue s (.fstat x) x fun c s =>
    let mom := x.sb 1 1 == 1
    let sel : Word := BitVec.ofNat 32 (c.once c.va) &&& (if mom then 7 else 0x1F)
    let flag (g : Gang) (i : Fin 32) : Word := if mom then g.mflag[i] else g.fpflag[i]
    let m := maskOf fun i => inMask c.active i && (flag c.g i &&& sel) != 0
    let clear (g : Gang) : Gang :=
      let v : Lanes Word := lanesFrom fun i => if inMask c.active i then flag g i &&& ~~~sel else flag g i
      if mom then { g with mflag := v } else { g with fpflag := v }
    let bits := if c.g.c16 then m.toNat / 2 ^ (16 * (lowest c.lanes / 16)) % 2 ^ 16 else m.toNat
    let s' := if x.sb 0 0 = 1 then s.updGangOf c.w clear else s
    c.value s' fun _ => bits

end Sys2Proof.Machine
end

