-- ==== Sys2Proof/Machine/Approx.lean ====
section
/-! DEFINITION. Functions that the spec bounds and does not fix: FRCP, FRSQ, FEX2, FLG2, FSIN and FCOS (R121, R122). The exact value is
enclosed in fixed point; the device's own candidate (Config.approx, log entry 10) is taken where it keeps the bound, and the value
rounded to nearest even where it does not. -/

namespace Sys2Proof.Machine

/-! ### Fixed point: integers in units of 2^-1024 -/

/-- Fraction bits of the fixed point. -/
def fxBits : Nat := 1024

/-- A dyadic number in fixed point, rounded down. -/
def fx (d : Dy) : Int :=
  let k := d.ex + fxBits
  d.n * 2 ^ k.toNat / 2 ^ (-k).toNat

/-- Product and quotient in fixed point, rounded down. -/
def fxMul (a b : Int) : Int := a * b / 2 ^ fxBits
def fxDiv (a b : Int) : Int := a * 2 ^ fxBits / b

/-- An interval of fixed-point numbers that holds a real number. -/
structure Iv where
  lo : Int
  hi : Int
deriving DecidableEq, Repr

def Iv.ofDy (d : Dy) : Iv := ⟨fx d, -fx d.neg⟩
def Iv.ofInt (n : Int) : Iv := ⟨n * 2 ^ fxBits, n * 2 ^ fxBits⟩
def Iv.add (a b : Iv) : Iv := ⟨a.lo + b.lo, a.hi + b.hi⟩
def Iv.neg (a : Iv) : Iv := ⟨-a.hi, -a.lo⟩
def Iv.sub (a b : Iv) : Iv := a.add b.neg

def Iv.mul (a b : Iv) : Iv :=
  let ps := [fxMul a.lo b.lo, fxMul a.lo b.hi, fxMul a.hi b.lo, fxMul a.hi b.hi]
  ⟨ps.foldl min (fxMul a.lo b.lo), ps.foldl max (fxMul a.lo b.lo) + 1⟩

/-- Reciprocal of an interval that does not hold 0. -/
def Iv.inv (a : Iv) : Iv :=
  let one : Int := 2 ^ (2 * fxBits)
  ⟨one / a.hi - 1, one / a.lo + 1⟩

def Iv.div (a b : Iv) : Iv := a.mul b.inv

/-- Square root of an interval that is not negative. -/
def Iv.sqrt (a : Iv) : Iv :=
  ⟨isqrt ((max a.lo 0).toNat * 2 ^ fxBits), isqrt ((max a.hi 0).toNat * 2 ^ fxBits) + 1⟩

/-- A series: terms added, each made from the one before and its number. -/
def series (step : Int → Nat → Int) (pick : Int → Nat → Int) : Nat → Nat → Int → Int → Int
  | 0, _, _, acc => acc
  | n + 1, k, t, acc => series step pick n (k + 1) (step t k) (acc + pick t k)

/-- e^r for a fixed-point r of magnitude at most 1; off by fewer than 2^12 units. -/
def expSmall (r : Int) : Int := series (fun t k => fxMul t r / (k + 1)) (fun t _ => t) 190 0 (2 ^ fxBits) 0

/-- 2 atanh z for a fixed-point z of [0, 1/3]; off by fewer than 2^12 units. -/
def atanh2 (z : Int) : Int := 2 * series (fun t _ => fxMul t (fxMul z z)) (fun t k => t / (2 * k + 1)) 340 0 z 0

/-- ln 2. -/
def fxLn2 : Int := atanh2 (2 ^ fxBits / 3)

/-- arctan (1/n). -/
def atanInv (n : Int) : Int :=
  series (fun t _ => -t / (n * n)) (fun t k => t / (2 * k + 1)) 240 0 (2 ^ fxBits / n) 0

/-- π, by Machin's formula. -/
def fxPi : Int := 16 * atanInv 5 - 4 * atanInv 239

def piIv : Iv := ⟨fxPi - 2 ^ 14, fxPi + 2 ^ 14⟩

/-- e^x of one fixed-point number, enclosed. -/
def expAt (x : Int) : Iv :=
  let n := x / fxLn2
  if n < -1000 then ⟨0, 2 ^ 26⟩
  else if 700 < n then ⟨2 ^ (fxBits + 700), 2 ^ (fxBits + 700)⟩
  else
    let v := expSmall (x - n * fxLn2)
    let v := if 0 ≤ n then v * 2 ^ n.toNat else v / 2 ^ (-n).toNat
    let e : Int := 2 ^ (26 + n.toNat)
    ⟨max (v - e) 0, v + e⟩

def Iv.exp (a : Iv) : Iv := ⟨(expAt a.lo).lo, (expAt a.hi).hi⟩

/-- log2 of a positive dyadic number. -/
def log2Iv (d : Dy) : Iv :=
  let k := Nat.log2 d.n.natAbs
  let m := fx ⟨d.n, -(k : Int)⟩
  let one : Int := 2 ^ fxBits
  let l := fxDiv (atanh2 (fxDiv (m - one) (m + one))) fxLn2 + ((k : Int) + d.ex) * one
  ⟨l - 2 ^ 16, l + 2 ^ 16⟩

/-- Sine and cosine of one fixed-point angle. -/
def sinCos (x : Int) : Iv × Iv :=
  let q := fxPi / 2
  let k := x / q
  let r := x - k * q
  let e : Int := 2 ^ 16 + k.natAbs * 2 ^ 16
  let sq := fxMul r r
  let sn := series (fun t n => -(fxMul t sq) / ((2 * n + 2) * (2 * n + 3))) (fun t _ => t) 130 0 r 0
  let cs := series (fun t n => -(fxMul t sq) / ((2 * n + 1) * (2 * n + 2))) (fun t _ => t) 130 0 (2 ^ fxBits) 0
  let S : Iv := ⟨sn - e, sn + e⟩
  let C : Iv := ⟨cs - e, cs + e⟩
  match (k % 4).toNat with
  | 0 => (S, C)
  | 1 => (C, S.neg)
  | 2 => (S.neg, C.neg)
  | _ => (C.neg, S)

/-- An enclosed irrational number as a value: its magnitude rounded down, with something below. -/
def Iv.val (a : Iv) : Val :=
  if 0 ≤ a.lo then .fin false a.lo.toNat (-(fxBits : Int)) true
  else if a.hi ≤ 0 then .fin true (-a.hi).toNat (-(fxBits : Int)) true
  else .fin (decide (a.hi < -a.lo)) 0 (-(fxBits : Int)) true

/-! ### Bounds -/

/-- What a result must keep of its exact value (R121, R202). -/
inductive Bound where
  /-- units in the last place -/
  | ulps (n : Nat)
  /-- an absolute distance of 2^e -/
  | absolute (e : Int)
  /-- a relative distance of 2^e -/
  | relative (e : Int)
  /-- a neighbour in the format, or the value itself -/
  | faithful
  /-- any value of magnitude at most 1 -/
  | unit
deriving DecidableEq, Repr

/-- Magnitude of a dyadic number. -/
def Dy.abs (a : Dy) : Dy := ⟨a.n.natAbs, a.ex⟩

/-- One unit in the last place of a format at the magnitude of a value. -/
def ulpAt (f : Fm) (v : Val) : Dy :=
  let e := match v with | .fin _ 0 .. => (1 - (f.bias : Int)) | _ => v.exponent
  ⟨1, max (e - f.fb) (1 - (f.bias : Int) - f.fb)⟩

/-- A code of a format keeps a bound about an exact value. -/
def Bound.keeps (b : Bound) (f : Fm) (exact : Val) (c : Nat) : Bool :=
  let v := f.decode c
  let dist := (Dy.add v.dy exact.dy.neg).abs
  let within (d : Dy) : Bool := !d.lt dist
  match v with
  | .fin .. =>
    match b with
    | .ulps n => within (Dy.mul ⟨n, 0⟩ (ulpAt f exact))
    | .absolute e => within ⟨1, e⟩
    | .relative e => within (Dy.mul ⟨1, e⟩ exact.dy.abs)
    | .faithful => c == (roundVal f .rdn false exact).code || c == (roundVal f .rup false exact).code
    | .unit => !(Dy.lt ⟨1, 0⟩ v.dy.abs)
  | _ => false

/-- The device's choice for an exact value under a bound. -/
def approxCode (fn : Nat) (a b : DWord) (bound : Bound) (f : Fm) (exact : Val) : Nat :=
  let c := (Config.approx fn a b).toNat % 2 ^ f.width
  if bound.keeps f exact c then c else (roundVal f .rne false exact).code

/-! ### The six functions -/

/-- What a function gives: a result that is not approximate, or an exact value and the bound about it. -/
inductive Apx where
  | given (e : Exact)
  | near (exact : Val) (b : Bound)
deriving DecidableEq, Repr

/-- The bound of a format: 16-bit formats are faithful (R121). -/
def boundFor (f : Fm) (b32 : Bound) : Bound :=
  match f with
  | .f32 => b32
  | .f64 => .relative (-30)
  | _ => .faithful

/-- The significand and exponent of a finite value with an odd significand. -/
def oddPart (n : Nat) (ex : Int) : Nat → Nat × Int
  | 0 => (n, ex)
  | k + 1 => if n % 2 = 0 && n != 0 then oddPart (n / 2) (ex + 1) k else (n, ex)

/-- FRCP (R121, R122). -/
def rcpOf (f : Fm) (v : Val) : Apx :=
  match v with
  | .nan .. => .given (withNans [v] ⟨v, 0⟩)
  | .inf s => .given ⟨.zero s, 0⟩
  | .fin s n ex _ =>
    if n = 0 then .given ⟨.inf s, flagDz⟩
    else
      let (o, k) := oddPart n ex 64
      if o = 1 && decide (1 - (f.bias : Int) ≤ -k) then .given ⟨.fin s 1 (-k) false, 0⟩
      else .near (quotient s ⟨1, 0⟩ ⟨n, ex⟩) (boundFor f (.ulps 1))

/-- FRSQ (R121, R122). -/
def rsqOf (f : Fm) (v : Val) : Apx :=
  match v with
  | .nan .. => .given (withNans [v] ⟨v, 0⟩)
  | .inf s => .given (if s then .invalid else ⟨.zero false, 0⟩)
  | .fin s n ex _ =>
    if n = 0 then .given ⟨.inf s, flagDz⟩
    else if s then .given .invalid
    else
      let (o, k) := oddPart n ex 64
      if o = 1 && k % 2 == 0 then .given ⟨.fin false 1 (-(k / 2)) false, 0⟩
      else
        let m := if k % 2 = 0 then o else 2 * o
        let e := if k % 2 = 0 then k else k - 1
        .near (.fin false (isqrt (2 ^ 400 / m)) (-200 - e / 2) true) (boundFor f (.ulps 2))

/-- FEX2 (R121, R122). -/
def ex2Of (f : Fm) (v : Val) : Apx :=
  match v with
  | .nan .. => .given (withNans [v] ⟨v, 0⟩)
  | .inf s => .given ⟨if s then .zero false else .inf false, 0⟩
  | .fin s n ex _ =>
    if n = 0 then .given ⟨.fin false 1 0 false, 0⟩
    else
      let x := fx ⟨if s then -(n : Int) else n, ex⟩
      let k := max (-400) (min 400 (x / 2 ^ fxBits))
      let r := x - x / 2 ^ fxBits * 2 ^ fxBits
      if r = 0 && decide (-400 < k) && decide (k < 400) then
        if decide (1 - (f.bias : Int) ≤ k) && decide (k ≤ f.bias) then .given ⟨.fin false 1 k false, 0⟩
        else .near (.fin false 1 k false) (boundFor f (.ulps 2))
      else .near (.fin false (expSmall (fxMul r fxLn2) - 2 ^ 14).toNat (k - fxBits) true) (boundFor f (.ulps 2))

/-- FLG2 (R121, R122). -/
def lg2Of (f : Fm) (v : Val) : Apx :=
  match v with
  | .nan .. => .given (withNans [v] ⟨v, 0⟩)
  | .inf s => .given (if s then .invalid else ⟨.inf false, 0⟩)
  | .fin s n ex _ =>
    if n = 0 then .given ⟨.inf true, flagDz⟩
    else if s then .given .invalid
    else
      let (o, k) := oddPart n ex 64
      if o = 1 then .given ⟨Val.ofInt k, 0⟩
      else
        let d : Dy := ⟨n, ex⟩
        let inner := !(d.lt ⟨1, -1⟩) && !(Dy.lt ⟨2, 0⟩ d)
        .near (log2Iv d).val (boundFor f (if inner then .absolute (-22) else .ulps 2))

/-- FSIN and FCOS (R121, R122). -/
def trigOf (cosine : Bool) (f : Fm) (v : Val) : Apx :=
  match v with
  | .nan .. => .given (withNans [v] ⟨v, 0⟩)
  | .inf _ => .given .invalid
  | .fin s n ex _ =>
    if n = 0 then .given ⟨if cosine then .fin false 1 0 false else .zero s, 0⟩
    else
      let d : Dy := ⟨if s then -(n : Int) else n, ex⟩
      let r := sinCos (fx d)
      .near (if cosine then r.2 else r.1).val (boundFor f (if Dy.lt ⟨512, 0⟩ d.abs then .unit else .absolute (-22)))

/-- The result of an approximate function with its flags and modifiers (R33, R121, R122): beyond the table, overflow, underflow or
plain inexactness. How SCL acts is the model's reading: R122's exact cases come before scaling, and the bound is about the exact value times
2^k (log entry 119). -/
def Apx.write (a : Apx) (fn : Nat) (src : Nat) (f : Fm) (ftz : Bool) (clp : BitVec 2) (scl : BitVec 3) : Rounded :=
  match a with
  | .given e => e.write f .rne ftz clp scl
  | .near v b =>
    let k := scaleOf scl
    let v := v.scale k
    let b := match b with | .absolute e => Bound.absolute (e + k) | b => b
    let r := roundVal f .rne false v
    if r.flags &&& flagOfl != 0 then ⟨clampCode f clp r.code, flagOfl ||| flagInx⟩
    else
      let c := approxCode fn (BitVec.ofNat 64 src) (BitVec.ofInt 64 k) b f v
      if c % f.signBit < 2 ^ f.fb then
        ⟨clampCode f clp (if ftz && f != .f64 then f.signed (f.decode c).neg 0 else c), flagUfl ||| flagInx⟩
      else ⟨clampCode f clp c, flagInx⟩

/-- An approximate function of a lane. What it gives depends on the source's bits in the format alone (R111, R121). -/
def Ctx.approx (c : Ctx) (s : State) (fn : Nat) (g : Fm → Val → Apx) : Res :=
  let f := opsFt c.x
  c.floats s fun i => (g f (c.fsrc f i c.va[i])).write fn (c.va[i] % 2 ^ f.width) f (c.ftz i) c.x.clp c.x.scl

/-- FRCP (R121). -/
def execFrcp (x : Ops) (s : State) : Ans := issue s (.frcp x) x fun c s => c.approx s (0 + (x.sb 4 3) * 8) rcpOf

/-- FRSQ (R121). -/
def execFrsq (x : Ops) (s : State) : Ans := issue s (.frsq x) x fun c s => c.approx s (1 + (x.sb 4 3) * 8) rsqOf

/-- FEX2 (R121). -/
def execFex2 (x : Ops) (s : State) : Ans := issue s (.fex2 x) x fun c s => c.approx s (2 + (x.sb 4 3) * 8) ex2Of

/-- FLG2 (R121). -/
def execFlg2 (x : Ops) (s : State) : Ans := issue s (.flg2 x) x fun c s => c.approx s (3 + (x.sb 4 3) * 8) lg2Of

/-- FSIN (R121). -/
def execFsin (x : Ops) (s : State) : Ans := issue s (.fsin x) x fun c s => c.approx s (4 + (x.sb 4 3) * 8) (trigOf false)

/-- FCOS (R121). -/
def execFcos (x : Ops) (s : State) : Ans := issue s (.fcos x) x fun c s => c.approx s (5 + (x.sb 4 3) * 8) (trigOf true)

end Sys2Proof.Machine
end

