-- ==== Sys2Proof/Machine/Integer.lean ====
section
/-! DEFINITION. Integer arithmetic, shifts, logic, bit fields, compare, select, address, moves, special registers, predicates and
uniform instructions (R82 to R98). SLD stands with the loads. -/

namespace Sys2Proof.Machine

/-! ### Integer arithmetic (R87, R88) -/

/-- An integer result of two sources at a type (R87). -/
def arith2 (t : Ty) (f : Int → Int → Int) (c : Ctx) (s : State) : Res :=
  c.value s fun i => writeInt t c.x.clp (f (extTy t c.va[i]) (extTy t c.vb[i]))

/-- IADD (R87). -/
def execIadd (x : Ops) (s : State) : Ans := issue s (.iadd x) x (arith2 (tyOf (x.sb 2 0)) (· + ·))

/-- ISUB (R87). -/
def execIsub (x : Ops) (s : State) : Ans := issue s (.isub x) x (arith2 (tyOf (x.sb 2 0)) (· - ·))

/-- IMIN (R87). -/
def execImin (x : Ops) (s : State) : Ans := issue s (.imin x) x (arith2 (tyOf (x.sb 2 0)) min)

/-- IMAX (R87). -/
def execImax (x : Ops) (s : State) : Ans := issue s (.imax x) x (arith2 (tyOf (x.sb 2 0)) max)

/-- IABS (R87). -/
def execIabs (x : Ops) (s : State) : Ans :=
  issue s (.iabs x) x fun c s =>
    let t := tyOf (x.sb 2 0)
    c.value s fun i => writeInt t x.clp ((extTy t c.va[i]).natAbs : Int)

/-- The part of an exact product that a variant keeps (R87). -/
def productPart (variant : Nat) (w : Nat) (q : Int) : Int := if variant = 1 then q / 2 ^ w else q

/-- IMUL (R87). -/
def execImul (x : Ops) (s : State) : Ans :=
  issue s (.imul x) x fun c s =>
    let t := tyOf (x.sb 2 0)
    c.value s fun i => writeInt (mulDst x) x.clp (productPart (x.sb 4 3) t.width (extTy t c.va[i] * extTy t c.vb[i]))

/-- IMAD (R87). -/
def execImad (x : Ops) (s : State) : Ans :=
  issue s (.imad x) x fun c s =>
    let t := tyOf (x.sb 2 0)
    c.value s fun i =>
      writeInt (mulDst x) x.clp (productPart (x.sb 4 3) t.width (extTy t c.va[i] * extTy t c.vb[i]) + extTy (mulDst x) c.vc[i])

/-- IADDC (R88): the sum to DST and its carry to p[C], both at retirement. -/
def execIaddc (x : Ops) (s : State) : Ans :=
  issue s (.iaddc x) x fun c s =>
    let w := (tyOf (x.sb 1 0)).width
    let k := x.sb 6 4
    let sum (i : Fin 32) : Nat :=
      c.va[i] % 2 ^ w + c.vb[i] % 2 ^ w + (if x.sb 3 3 = 1 && (c.g.pred[i]).getLsbD k then 1 else 0)
    let s' := s.updGangOf c.w fun g => g.writeP k c.active (lanesFrom fun i => decide (2 ^ w ≤ sum i))
    c.value s' fun i => sum i % 2 ^ w

/-! ### Shifts, logic and bit fields (R89 to R92) -/

/-- A bit-pattern result of SA and SB in w bits. -/
def bits2 (w : Nat) (f : Nat → Nat → Nat) (c : Ctx) (s : State) : Res := c.value s fun i => f (c.va[i] % 2 ^ w) c.vb[i] % 2 ^ w

/-- A bit-pattern result of SA in w bits. -/
def bits1 (w : Nat) (f : Nat → Nat) (c : Ctx) (s : State) : Res := c.value s fun i => f (c.va[i] % 2 ^ w)

/-- The operand width of the integer codes 0 to 3 (R82). -/
def opsW03 (x : Ops) : Nat := (tyOf (x.sb 1 0)).width

/-- SHL's result (R90). -/
def shlBits (w a n : Nat) : Nat := if w ≤ n then 0 else (a * 2 ^ n) % 2 ^ w

/-- SHR's result, logical or arithmetic (R90). -/
def shrBits (arith : Bool) (w a n : Nat) : Nat :=
  if arith then wrapNat (sext a w / 2 ^ min n w) w else if w ≤ n then 0 else a / 2 ^ n

/-- ROT's result (R90). -/
def rotBits (w a n : Nat) : Nat := (a * 2 ^ (n % w)) % 2 ^ w + a / 2 ^ (w - n % w)

/-- SHL (R90). -/
def execShl (x : Ops) (s : State) : Ans := issue s (.shl x) x (bits2 (opsW03 x) (shlBits (opsW03 x)))

/-- SHR (R90). -/
def execShr (x : Ops) (s : State) : Ans := issue s (.shr x) x (bits2 (opsW03 x) (shrBits (x.sb 3 3 == 1) (opsW03 x)))

/-- ROT (R90). -/
def execRot (x : Ops) (s : State) : Ans := issue s (.rot x) x (bits2 (opsW03 x) (rotBits (opsW03 x)))

/-- AND (R89). -/
def execAnd (x : Ops) (s : State) : Ans := issue s (.and x) x (bits2 (opsW03 x) (· &&& ·))

/-- OR (R89). -/
def execOr (x : Ops) (s : State) : Ans := issue s (.or x) x (bits2 (opsW03 x) (· ||| ·))

/-- XOR (R89). -/
def execXor (x : Ops) (s : State) : Ans := issue s (.xor x) x (bits2 (opsW03 x) (· ^^^ ·))

/-- NOT (R89). -/
def execNot (x : Ops) (s : State) : Ans := issue s (.not x) x (bits1 (opsW03 x) fun a => 2 ^ opsW03 x - 1 - a)

/-- Set bits among the low n of a number. -/
def popCount (a : Nat) : Nat → Nat
  | 0 => 0
  | n + 1 => a % 2 + popCount (a / 2) n

/-- Leading zero bits of the low n bits of a number. -/
def leadZeros (a : Nat) : Nat → Nat
  | 0 => 0
  | n + 1 => if a.testBit n then 0 else leadZeros a n + 1

/-- Trailing zero bits of the low n bits of a number. -/
def trailZeros (a : Nat) : Nat → Nat
  | 0 => 0
  | n + 1 => if a % 2 = 1 then 0 else trailZeros (a / 2) n + 1

/-- The low n bits of a number in reverse order. -/
def reverseBits (a : Nat) : Nat → Nat
  | 0 => 0
  | n + 1 => (a % 2) * 2 ^ n + reverseBits (a / 2) n

/-- POPC (R90). -/
def execPopc (x : Ops) (s : State) : Ans := issue s (.popc x) x (bits1 (opsW03 x) fun a => popCount a (opsW03 x))

/-- CLZ (R90). -/
def execClz (x : Ops) (s : State) : Ans := issue s (.clz x) x (bits1 (opsW03 x) fun a => leadZeros a (opsW03 x))

/-- CTZ (R90). -/
def execCtz (x : Ops) (s : State) : Ans := issue s (.ctz x) x (bits1 (opsW03 x) fun a => trailZeros a (opsW03 x))

/-- BREV (R90). -/
def execBrev (x : Ops) (s : State) : Ans := issue s (.brev x) x (bits1 (opsW03 x) fun a => reverseBits a (opsW03 x))

/-- The field that BFE extracts (R91): bits at or above w read as the extension of a. -/
def extractField (signed : Bool) (w a ctl : Nat) : Int :=
  let pos := ctl % 256
  let len := ctl / 256 % 256
  let ext : Int := if signed then sext a w else (a : Int)
  if len = 0 then 0
  else
    let v := wrapNat (ext / 2 ^ pos) len
    if signed then sext v len else (v : Int)

/-- BFE (R91). -/
def execBfe (x : Ops) (s : State) : Ans :=
  issue s (.bfe x) x fun c s =>
    let w := opsW03 x
    c.value s fun i => wrapNat (extractField (x.sb 0 0 == 0) w (c.va[i] % 2 ^ w) c.vb[i]) w

/-- BFI's result (R91). -/
def insertField (w a b ctl : Nat) : Nat :=
  let pos := ctl % 256
  let len := ctl / 256 % 256
  let mask := ((2 ^ len - 1) * 2 ^ pos) % 2 ^ w
  let put := (b % 2 ^ len * 2 ^ pos) % 2 ^ w
  (a &&& (2 ^ w - 1 - mask)) ||| put

/-- BFI (R91). -/
def execBfi (x : Ops) (s : State) : Ans :=
  issue s (.bfi x) x fun c s =>
    let w := opsW03 x
    c.value s fun i => insertField w (c.va[i] % 2 ^ w) (c.vb[i] % 2 ^ w) c.vc[i]

/-- The ternary function of a table over the low n bits (R92). -/
def ternary (tab a b d : Nat) : Nat → Nat
  | 0 => 0
  | n + 1 =>
    (if tab.testBit (bitNat (a.testBit n) + 2 * bitNat (b.testBit n) + 4 * bitNat (d.testBit n)) then 2 ^ n else 0) + ternary tab a b d n

/-- BTERN with table bit 7 clear (R92). -/
def execBternTableBit7Clear (x : Ops) (s : State) : Ans :=
  issue s (.bternTableBit7Clear x) x fun c s => c.value s fun i => ternary x.sub.toNat c.va[i] c.vb[i] c.vc[i] 32

/-- BTERN with table bit 7 set (R92). -/
def execBternTableBit7Set (x : Ops) (s : State) : Ans :=
  issue s (.bternTableBit7Set x) x fun c s => c.value s fun i => ternary (128 + x.sub.toNat) c.va[i] c.vb[i] c.vc[i] 32

/-! ### Compare, select, address and moves (R93, R94) -/

/-- The conditions of ICMP and SCMP (R93). -/
def intCond (n : Nat) (a b : Int) : Bool :=
  match n with
  | 0 => decide (a = b)
  | 1 => decide (a ≠ b)
  | 2 => decide (a < b)
  | 3 => decide (a ≤ b)
  | 4 => decide (b < a)
  | _ => decide (b ≤ a)

/-- ICMP (R93). -/
def execIcmp (x : Ops) (s : State) : Ans :=
  issue s (.icmp x) x fun c s =>
    let t := tyOf (x.sb 2 0)
    c.test s fun i => intCond (x.sb 5 3) (extTy t c.va[i]) (extTy t c.vb[i])

/-- ISEL (R93). -/
def execIsel (x : Ops) (s : State) : Ans :=
  issue s (.isel x) x fun c s => c.value s fun i => (if c.vc[i] ≠ 0 then c.va[i] else c.vb[i])

/-- LEA (R93). -/
def execLea (x : Ops) (s : State) : Ans :=
  issue s (.lea x) x fun c s =>
    c.value s fun i =>
      let b : Int := if x.sb 3 3 = 1 then ((c.vb[i] % 2 ^ 32 : Nat) : Int) else sext c.vb[i] 32
      wrapNat ((c.va[i] : Int) + b * 2 ^ x.sb 2 0) 64

/-- MOV (R93). -/
def execMov (x : Ops) (s : State) : Ans := issue s (.mov x) x fun c s => c.value s fun i => c.va[i]

/-- What MOVI delivers (R94). -/
def moviBits (x : Ops) : Nat :=
  let t := moviTy x.sub.toNat
  if x.form.hasImm then immVal (slotV .N t) x.form x.imm
  else (constBits t (32 * t.regs) (opndBits x.a.opnd % 256)).getD 0

/-- MOVI (R94). -/
def execMovi (x : Ops) (s : State) : Ans := issue s (.movi x) x fun c s => c.value s fun _ => moviBits x

/-- MOVU (R93). -/
def execMovu (x : Ops) (s : State) : Ans := issue s (.movu x) x fun c s => c.value s fun i => c.va[i] % 2 ^ opsW03 x

/-- ICVT (R93). -/
def execIcvt (x : Ops) (s : State) : Ans :=
  issue s (.icvt x) x fun c s => c.value s fun i => writeInt (tyOf (x.sb 2 0)) x.clp (extTy (tyOf (x.sb 5 3)) c.va[i])

/-! ### Special registers (R52 to R56, R95, R96) -/

/-- MODE as MOVS reads it (R56). -/
def modeWord (s : State) (c : Ctx) : Nat :=
  let prot := ((s.chip? c.chip).map Chip.prot).getD false
  128 * bitNat c.md.diag + 64 * bitNat c.g.c16 + 32 * bitNat c.g.moments + 16 * bitNat prot + levelCode c.g.pl

/-- A special register's value in a lane (R52). -/
def specialValue (s : State) (c : Ctx) (n : Nat) (i : Fin 32) : Nat :=
  match n with
  | 0 => if c.md.ctrl then 0 else i.val
  | 1 => match c.w with | .gang r _ => r.gang | .ctrl _ => 0
  | 2 => match c.w with | .gang r _ => ((s.task? r.chip r.task).map Task.num).getD 0 | .ctrl _ => 0
  | 3 => c.chip % 1024
  | 4 => ((s.chip? c.chip).map fun k => k.tide.c.toNat % 2 ^ 32).getD 0
  | 5 => modeWord s c
  | 6 => (c.g.fpctl[i]).toNat
  | 7 => (c.g.fpflag[i]).toNat
  | _ => (c.g.mflag[i]).toNat

/-- What a write of %fpctl leaves there (R53). -/
def fpctlWrite (old v : Word) : Word :=
  (v &&& 0x3F00) ||| (if 4 < (v &&& 7).toNat then old &&& 7 else v &&& 7)

/-- The writable registers of MOVS other than %mode, in the active lanes (R53 to R55). -/
def Gang.writeSpecial (g : Gang) (n : Nat) (m : LaneMask) (v : Lanes Nat) : Gang :=
  let w : Lanes Word := v.map (BitVec.ofNat 32)
  match n with
  | 6 => { g with fpctl := lanesFrom fun i => if inMask m i then fpctlWrite g.fpctl[i] w[i] else g.fpctl[i] }
  | 7 => { g with fpflag := lanesFrom fun i => if inMask m i then w[i] &&& 0x1F else g.fpflag[i] }
  | 8 => { g with mflag := lanesFrom fun i => if inMask m i then w[i] &&& 7 else g.mflag[i] }
  | _ => g

/-- MOVS (R95). The PRIV of a write of %mode, which SB decides, comes with the effect and names the active lanes (log entry 128). -/
def execMovs (x : Ops) (s : State) : Ans :=
  issue s (.movs x) x fun c s =>
    let n := opndBits x.a.opnd % 256
    if x.sub = 0 then c.value s (specialValue s c n)
    else if n = 5 then
      let diag := (c.once c.vb).testBit 7
      if diag = c.md.diag then .ok { s }
      else if c.g.pl = .firmware then .ok { s := s.updCore c.core fun k => { k with diag } }
      else c.trap cPriv
    else .ok { s := s.updGangOf c.w fun g => g.writeSpecial n c.active c.vb }

/-! ### Predicates (R97) -/

/-- PSET (R97). -/
def execPset (x : Ops) (s : State) : Ans := issue s (.pset x) x fun c s => c.test s fun i => (c.va[i] != 0) != (x.sb 0 0 == 1)

/-- PLOP (R97). -/
def execPlop (x : Ops) (s : State) : Ans :=
  issue s (.plop x) x fun c s =>
    c.test s fun i =>
      let a := (c.va[i] == 1) != (x.sb 2 2 == 1)
      let b := (c.vb[i] == 1) != (x.sb 3 3 == 1)
      match x.sb 1 0 with
      | 0 => a && b
      | 1 => a || b
      | _ => a != b

/-- PMOV (R97). -/
def execPmov (x : Ops) (s : State) : Ans :=
  issue s (.pmov x) x fun c s =>
    if x.sub = 0 then c.value s fun i => (c.g.pred[i]).toNat
    else .ok { s := s.updGangOf c.w fun g =>
      { g with pred := lanesFrom fun i => if inMask c.active i then BitVec.ofNat 15 c.va[i] else g.pred[i] } }

/-! ### Uniform instructions (R98) -/

/-- SADD (R98). -/
def execSadd (x : Ops) (s : State) : Ans :=
  issue s (.sadd x) x fun c s => c.value s fun _ => (c.once c.va + c.once c.vb) % 2 ^ 64

/-- SMUL (R98). -/
def execSmul (x : Ops) (s : State) : Ans :=
  issue s (.smul x) x fun c s => c.value s fun _ => (c.once c.va * c.once c.vb) % 2 ^ 64

/-- SMOV (R98). -/
def execSmov (x : Ops) (s : State) : Ans := issue s (.smov x) x fun c s => c.value s fun _ => c.once c.va

/-- SCMP (R98). -/
def execScmp (x : Ops) (s : State) : Ans :=
  issue s (.scmp x) x fun c s =>
    let v (n : Nat) : Int := if x.sb 0 0 = 1 then (n : Int) else sext n 64
    c.test s fun _ => intCond (x.sb 3 1) (v (c.once c.va)) (v (c.once c.vb))

end Sys2Proof.Machine
end

