-- ==== Sys2Proof/Machine/Control.lean ====
section
/-! DEFINITION. Branches, calls, EXIT and the retirement of gangs with the EMPTY_ORPHAN test, YIELD, NOP, and the words that have no
meaning (R16, R60, R100 to R104, R149, R234, R246). -/

namespace Sys2Proof.Machine

/-! ### Full/empty words a bundle waits for (R147 to R149) -/

/-- A scratchpad word is full (R147). -/
def Task.wordFull (t : Task) (off : Nat) : Bool := Mem.get t.full (off / 4) != 0

/-- The scratchpad offset a lane of a waiting LDF names, from the values it read at issue (R139). -/
def Wait.offset (k : Wait) (i : Nat) : Nat :=
  match k.vals with
  | [a, b] => wrapNat (((vget a i).toNat : Int) + sext (vget b i).toNat 32) 32
  | _ => 0

/-- A wait of some lanes is in LDF on a word that is empty. -/
def Task.emptyPart (t : Task) (p : LaneMask × Wait) : Bool := p.2.kind == .ldf && (lanesOf p.1).any fun i => !t.wordFull (p.2.offset i.val)

/-- The lanes of a bundle that wait in LDF on a word that is empty. -/
def Task.emptyLanes (t : Task) (b : Bundle) : LaneMask := (b.parts.filter t.emptyPart).foldl (fun m p => m ||| p.1) 0

/-- A bundle waits in LDF on a word that is empty. -/
def Task.emptyWait (t : Task) (b : Bundle) : Bool := t.emptyLanes b != 0

/-- A gang has retired (R234). -/
def Gang.retired (g : Gang) : Bool := g.exited == BitVec.allOnes 32

/-- The bundles that EMPTY_ORPHAN strikes in a gang of a task (R149). -/
def Task.orphans (t : Task) (n : Nat) (g : Gang) : List Bundle :=
  let others := t.gangs.all fun p => p.1 == n || p.2.retired
  let own := (g.bundles.foldl (fun m b => m ||| t.emptyLanes b) g.exited) == BitVec.allOnes 32
  if others && own && !g.retired then g.bundles.filter t.emptyWait else []

/-- The EMPTY_ORPHAN test of a task, made whenever a gang retires, a thread exits or a bundle begins to wait in LDF (R246). The first
bundle that it strikes faults now, and the others when they issue again after the handler (R149, R399). -/
def State.orphanTest (s : State) (chip task : Nat) : State :=
  match s.task? chip task with
  | none => s
  | some t =>
    if t.ended then s
    else
      match t.gangs.findSome? fun p => match t.orphans p.1 p.2 with | b :: bs => some (p.1, p.2, b, bs) | [] => none with
      | none => s
      | some (n, g, b, bs) =>
        let pc := vget g.pc (lowest b.lanes)
        let addr := match b.wait with | some k => scratchBase + k.offset (lowest b.lanes) | none => 0
        let len := match b.wait with | some k => k.instr.bytes | none => 8
        let struck := (b :: bs).map fun b => (b.lanes, vget g.pc (lowest b.lanes))
        (s.updGang ⟨chip, task, n⟩ fun q => { q with orphaned := q.orphaned ++ struck }).takeFault (.gang ⟨chip, task, n⟩ b.lanes)
          { cause := cEmptyOrphan, lanes := b.lanes, addr := BitVec.ofNat 64 addr } b.lanes pc (pc + BitVec.ofNat 64 len) []

/-! ### Branches (R100, R101) -/

/-- The word offset of BRA and CALL: OFF20 in the 64-bit form, IMM32 in the D form (R100). -/
def branchOffset (x : Ops) : Int :=
  if x.form = .A then sext (opndBits x.a.opnd + 1024 * opndBits x.b.opnd) 20 else sext x.imm.toNat 32

/-- The target of BRA and CALL. -/
def Ctx.target (c : Ctx) : DWord := c.pc + BitVec.ofInt 64 (4 * branchOffset c.x)

/-- BRA (R101). -/
def execBra (x : Ops) (s : State) : Ans := issue s (.bra x) x fun c s => .ok { s, jump := some (Lanes.all c.target) }

/-- CALL (R101). -/
def execCall (x : Ops) (s : State) : Ans :=
  issue s (.call x) x fun c s =>
    .ok { s, dst := some (lanesFrom fun i => if inMask c.active i then c.next.toNat else 0), jump := some (Lanes.all c.target) }

/-- BRX and RET: to the address that each lane holds; a misaligned one is MISALIGN for its lanes and nobody branches (R101). -/
def indirect (c : Ctx) (s : State) : Res :=
  let bad := maskOf fun i => inMask c.active i && c.va[i] % 4 != 0
  if bad ≠ 0 then .trap { cause := cMisalign, lanes := bad, addr := BitVec.ofNat 64 (vget c.va (lowest bad)) }
  else .ok { s, jump := some (c.va.map (BitVec.ofNat 64)) }

/-- BRX (R101). -/
def execBrx (x : Ops) (s : State) : Ans := issue s (.brx x) x indirect

/-- RET (R101). On the control core a target of 0 ends the routine (R265). -/
def execRet (x : Ops) (s : State) : Ans :=
  issue s (.ret x) x fun c s =>
    if c.md.ctrl && c.once c.va == 0 then .whole { s.endRoutine c.core with issuer := none }
    else indirect c s

/-! ### EXIT, YIELD, NOP (R103, R104, R234) -/

/-- Lanes of a gang exit (R103): their live bits clear, empty registers are freed; the last exit retires the gang (R234). -/
def Gang.exitLanes (g : Gang) (m : LaneMask) : Gang :=
  let exited := g.exited ||| m
  let vmap := (g.vmap.map fun p => (p.1, { p.2 with live := p.2.live &&& ~~~m })).filter fun p => p.2.live != 0 || g.awaits p.1
  { g with exited := exited, vmap := if exited = BitVec.allOnes 32 then [] else vmap }

/-- Threads that a handler has made exit do so once they await no result (R401, R30 rule 6). -/
def Gang.settleExits (g : Gang) : Gang :=
  let held := g.pend.foldl (fun m p => m ||| p.lanes ||| if p.traps != 0 then p.active else 0) 0
  let m := g.exiting &&& ~~~held
  if g.frame.isSome || m = 0 then g else { g.exitLanes m with exiting := g.exiting &&& ~~~m }

/-- EXIT (R103), with the orphan test that a thread's exit prompts (R246). -/
def execExit (x : Ops) (s : State) : Ans :=
  match issue s (.exit x) x fun c s => .ok { s := s.updGangOf c.w fun g => g.exitLanes c.active } with
  | .next t =>
    match s.issuer with
    | some (.gang g _) => .next (t.orphanTest g.chip g.task)
    | _ => .next t
  | o => o

/-- YIELD (R104): last choice at the next choice of active set. -/
def execYield (x : Ops) (s : State) : Ans :=
  issue s (.yield x) x fun c s => .ok { s := s.updGangOf c.w fun g => { g with yielded := true } }

/-- NOP (R104). -/
def execNop (x : Ops) (s : State) : Ans := issue s (.nop x) x fun _ s => .ok { s }

/-! ### Words without a meaning (R16, R60) -/

/-- FILL_WORD (R16): fetch consumes it; the threads stand at the next word. No window counts it (R30), and it stands between no
fence and its access (R293). -/
def execFillWord (s : State) : Ans :=
  match s.issuing with
  | none => .fault .noIssuer
  | some (w, g, _, _, lanes) =>
    .next (s.updGangOf w fun k => { k with pc := lanesFrom fun i => if inMask lanes i then g.pc[i] + 4 else g.pc[i] })

/-- UNASSIGNED_OPCODE (R21, R60): ILLEGAL_ENCODING, naming the lanes that the guard bits of the first word select. -/
def execUnassignedOpcode (w : Word) (s : State) : Ans :=
  match s.issuing with
  | none => .fault .noIssuer
  | some (who, g, _, _, lanes) =>
    let pc := vget g.pc (lowest lanes)
    let gp := bitsOf w.toNat 15 12
    let active := if gp = 15 then lanes else maskOf fun i => inMask lanes i && ((g.pred[i]).getLsbD gp != w.getLsbD 16)
    .next (s.takeFault who { cause := cIllegalEncoding, lanes } active pc (pc + BitVec.ofNat 64 (lengthOf w.toNat)) [])

end Sys2Proof.Machine
end

