-- ==== Sys2Proof/Machine/Fetch.lean ====
section
/-! DEFINITION. Fetching an instruction's bytes: blocks of 32 bytes (R18), extent slot 0, the handler code range (R399), and the control
core's area (R265). -/

namespace Sys2Proof.Machine

/-- Where a code byte lies for an issuer; none is the EXTENT of order 2 (R37, R399). -/
def State.codePlace (s : State) (w : Issuer) (a : Nat) : Option Place :=
  match w with
  | .gang g _ =>
    match s.chip? g.chip, s.task? g.chip g.task, s.gang? g with
    | some c, some t, some k =>
      if k.frame.isSome then
        if c.trap.tcbase.toNat ≤ a ∧ a < c.trap.tcbase.toNat + 65536 * c.trap.tcsize then leasePlace g.chip c.trap.code a else none
      else extentPlace g.chip (t.extents.take 1) .fetch a
    | _, _, _ => none
  | .ctrl r =>
    match (s.core r).ctrl with
    | some run =>
      match s.chip? run.chip with
      | some c => if c.cc.area.toNat ≤ a ∧ a < c.cc.area.toNat + 65536 then c.ctrlPlace run.chip a else none
      | none => none
    | none => none

/-- The n code bytes from an address; none where one of them may not be fetched. -/
def State.codeBytes (s : State) (w : Issuer) (a : Nat) : Nat → Option (List Byte)
  | 0 => some []
  | n + 1 =>
    match s.codePlace w a, s.codeBytes w (a + 1) n with
    | some p, some bs => some (s.readByte p :: bs)
    | _, _ => none

/-- What a fetch gives (orders 1 and 2 of R37), with the instruction's bytes where its first word could be read. -/
inductive Fetched where
  | instr (i : Instr) (bytes : Nat)
  | boundary (bytes : Nat)
  | extent (bytes : Option Nat)
deriving DecidableEq, Repr

/-- The instruction at an address. -/
def State.fetch (s : State) (w : Issuer) (a : Nat) : Fetched :=
  match s.codeBytes w a 4 with
  | none => .extent none
  | some head =>
    let len := lengthOf (leNat head)
    if 32 < a % 32 + len then .boundary len
    else
      match s.codeBytes w a len with
      | none => .extent (some len)
      | some bs =>
        match decode bs with
        | some (i, _) => .instr i len
        | none => .extent (some len)

/-- The next instruction at or after an address, fill words passed over; the bound is more than an extent of the device half can hold (R293). -/
def State.nextReal (s : State) (w : Issuer) (a : Nat) : Nat → Option Instr
  | 0 => none
  | n + 1 =>
    match s.fetch w a with
    | .instr .fillWord _ => s.nextReal w (a + 4) n
    | .instr i _ => some i
    | _ => none

/-- The lanes of an issue whose next instruction is an acquire fence with a true guard: their loads are fence-bound (R293). -/
def State.fenceAhead (s : State) (w : Issuer) (g : Gang) (active : LaneMask) (a : Nat) : LaneMask :=
  match s.nextReal w a (2 ^ 47) with
  | some (.fence x) => if x.sub = 2 then 0 else guardMask g x active
  | _ => 0

end Sys2Proof.Machine
end

