-- ==== Sys2Proof/Machine/Memory.lean ====
section
/-! DEFINITION. Loads and stores, full/empty words, atomics and reductions, fences and code, windows and prefetch, and the uniform load
(R99, R138 to R156), with the race checks of R292 to R301. -/

namespace Sys2Proof.Machine

/-! ### Addresses and checks -/

/-- The generic address of a lane (R139). -/
def Ctx.ea (c : Ctx) (i : Fin 32) : Nat := wrapNat ((c.va[i] : Int) + sext c.vb[i] 32) 64

/-- The 32-bit offset of a lane (R139). -/
def Ctx.off (c : Ctx) (i : Fin 32) : Nat := wrapNat ((c.va[i] : Int) + sext c.vb[i] 32) 32

/-- The address of a scratchpad offset. -/
def Ctx.scratchAddr (c : Ctx) (i : Fin 32) : Nat := scratchBase + c.off i

/-- Places of each lane's bytes, or the first failing check of R142 steps 2 and 3. -/
def Ctx.reach (c : Ctx) (s : State) (m : LaneMask) (need : Acc) (n : Nat) (addr : Fin 32 → Nat) : Except Trouble (Lanes (List Place)) :=
  let bad := maskOf fun i => inMask m i && addr i % n != 0
  if bad ≠ 0 then .error { cause := cMisalign, lanes := bad, addr := BitVec.ofNat 64 (vget (lanesFrom addr) (lowest bad)) }
  else
    let ps : Lanes (Option (List Place)) := lanesFrom fun i => if inMask m i then s.places c.w i.val need (addr i) n else some []
    let out := maskOf fun i => inMask m i && ps[i].isNone
    if out ≠ 0 then .error { cause := cExtent, lanes := out, addr := BitVec.ofNat 64 (vget (lanesFrom addr) (lowest out)) }
    else .ok (ps.map (·.getD []))

/-- What the race record knows a lane of an issue as. The control core is an agent of its own (R292). -/
def Ctx.actor (c : Ctx) (s : State) (i : Fin 32) : Actor :=
  match c.w with
  | .gang g _ => s.actor g i.val
  | .ctrl r =>
    let agent := ctrlAgent r.core
    let k := ((s.chip? c.chip).map fun h => h.hb.clock agent).getD [(agent, 1)]
    ⟨agent, agent, Tab.getD k agent 1, k, 0, 0, 0⟩

/-- The other writer's names in an MMRACE record (R301, R396). -/
def PastAccess.xd (p : PastAccess) : List Byte := le 4 p.task ++ le 2 p.handle ++ le 1 p.gangNo

/-- MMRACE of the lanes of an access, if any of them races (R299 to R301). -/
def Ctx.raceOf (c : Ctx) (s : State) (atomic write : Fin 32 → Bool) (m : LaneMask) (addr : Fin 32 → Nat)
    (ps : Lanes (List Place)) : Option Trouble :=
  let hits : Lanes (Option (Nat × Bool × PastAccess)) := lanesFrom fun i =>
    if inMask m i then (s.findRace (c.actor s i) (atomic i) (write i) (addr i) ps[i]).map fun h => (h.1, write i, h.2) else none
  let lanes := maskOf fun i => hits[i].isSome
  match hits.toList.filterMap id with
  | [] => none
  | h :: hs =>
    let low := hs.foldl (fun (a : Nat × Bool × PastAccess) b => if b.1 < a.1 then b else a) h
    let d := raceDetail low.2.1 low.2.2
    some { cause := cMmrace, detail := d, lanes, addr := BitVec.ofNat 64 low.1, xd := if d = 3 then [] else low.2.2.xd, deferred := true }

/-- The record of an access by the lanes of a mask. -/
def Ctx.noteAll (c : Ctx) (s : State) (atomic write : Fin 32 → Bool) (m : LaneMask) (ps : Lanes (List Place)) : State :=
  (lanesOf m).foldl (fun s i => s.noteAccess (c.actor s i) (atomic i) (write i) ps[i]) s

/-- A change of the chip's happens-before record. -/
def Ctx.hb (c : Ctx) (s : State) (f : Hb → Hb) : State := s.updChip c.chip fun k => { k with hb := f k.hb }

/-- An atomic step of each lane of a mask at its own places (R293, R296). -/
def Ctx.atomicAll (c : Ctx) (s : State) (m : LaneMask) (ps : Lanes (List Place)) (k : AtomicStep) : State :=
  (lanesOf m).foldl (fun s i => c.hb s fun h => h.atomicStep (c.actor s i).agent (ps[i].map placeKey) k) s

/-- A plain store ends the release sequences of its words. -/
def Ctx.endSequences (c : Ctx) (s : State) (m : LaneMask) (ps : Lanes (List Place)) : State :=
  c.hb s fun h => h.plainWrite ((lanesOf m).flatMap fun i => ps[i].map placeKey)

/-! ### Loads and stores (R144, R145) -/

/-- A loaded value extended by its size code (R144). -/
def loadExt (sz v : Nat) : Nat :=
  match sz with
  | 3 => wrapNat (sext v 8) 32
  | 5 => wrapNat (sext v 16) 32
  | _ => v

/-- A fence-bound access may be: to device memory, of at most 8 bytes (R293). -/
def fenceable (n : Nat) (ps : List Place) : Bool :=
  decide (n ≤ 8) && ps.all fun p => match p with | .dram .. => true | _ => false

/-- The lanes whose load stands directly before a fence, and is atomic by that (R293). -/
def Ctx.boundLoad (c : Ctx) (s : State) (n : Nat) (ps : Lanes (List Place)) (i : Fin 32) : Bool :=
  inMask (s.fenceAhead c.w c.g c.active c.next.toNat) i && fenceable n ps[i]

/-- The lanes whose store stands directly after a fence, and is atomic by that (R293). -/
def Ctx.boundStore (c : Ctx) (s : State) (n : Nat) (mayBind : Bool) (ps : Lanes (List Place)) (i : Fin 32) : Bool :=
  mayBind && (((s.chip? c.chip).map fun k => k.hb.afterFence).getD []).contains (c.actor s i).agent && fenceable n ps[i]

/-- A load from addresses with its places known: race check, record, values. LD alone can be fence-bound (R293). -/
def Ctx.loadFrom (c : Ctx) (s : State) (mayBind : Bool) (n : Nat) (addr : Fin 32 → Nat) (ps : Lanes (List Place)) (val : Nat → Nat) : Res :=
  let bound (i : Fin 32) : Bool := mayBind && c.boundLoad s n ps i
  match c.raceOf s bound (fun _ => false) c.active addr ps with
  | some t => .trap t
  | none =>
    let v : Lanes Nat := lanesFrom fun i => if inMask c.active i then val (s.readPlaces ps[i]) else 0
    let s := c.noteAll s bound (fun _ => false) c.active ps
    let s := c.atomicAll s (maskOf fun i => inMask c.active i && bound i) ps { read := true }
    .ok { s, dst := some v, late := some (.here, 0) }

/-- A load of a size code from addresses. -/
def Ctx.load (c : Ctx) (s : State) (addr : Fin 32 → Nat) : Res :=
  let sz := c.x.sb 2 0
  match c.reach s c.active .read (szBytes sz) addr with
  | .error t => .trap t
  | .ok ps => c.loadFrom s true (szBytes sz) addr ps (loadExt sz)

/-- Low bytes stored in ascending lane order, with the checks before them. -/
def Ctx.storeTo (c : Ctx) (s : State) (n : Nat) (addr : Fin 32 → Nat) (val : Fin 32 → Nat) (mayBind : Bool) : Res :=
  match c.reach s c.active .write n addr with
  | .error t => .trap t
  | .ok ps =>
    let bound := c.boundStore s n mayBind ps
    match c.raceOf s bound (fun _ => true) c.active addr ps with
    | some t => .trap t
    | none =>
      let s := c.endSequences s c.active ps
      let s := (lanesOf c.active).foldl (fun s i =>
        let s := s.writePlaces ps[i] (val i)
        let s := s.noteAccess (c.actor s i) (bound i) true ps[i]
        if bound i then c.hb s fun h => h.atomicStep (c.actor s i).agent (ps[i].map placeKey) { write := true } else s) s
      .ok { s }

/-- LD (R145). -/
def execLd (x : Ops) (s : State) : Ans := issue s (.ld x) x fun c s => c.load s c.ea

/-- LDS (R145). -/
def execLds (x : Ops) (s : State) : Ans := issue s (.lds x) x fun c s => c.load s c.scratchAddr

/-- LDC (R145): the launch image, inside extent slot 0. -/
def execLdc (x : Ops) (s : State) : Ans :=
  issue s (.ldc x) x fun c s =>
    let sz := x.sb 2 0
    let n := szBytes sz
    let task := match c.w with | .gang g _ => s.task? g.chip g.task | .ctrl _ => none
    let base := (task.map fun t => t.image.toNat).getD 0
    let addr (i : Fin 32) : Nat := (base + c.off i) % 2 ^ 64
    let bad := maskOf fun i => inMask c.active i && addr i % n != 0
    if bad ≠ 0 then .trap { cause := cMisalign, lanes := bad, addr := BitVec.ofNat 64 (vget (lanesFrom addr) (lowest bad)) }
    else
      let ex := ((task.map fun t => t.extents.take 1).getD [])
      let ps : Lanes (List (Option Place)) := lanesFrom fun i =>
        if inMask c.active i then (List.range n).map fun k => extentPlace c.chip ex .read (addr i + k) else []
      let out := maskOf fun i => ps[i].any (·.isNone)
      if out ≠ 0 then .trap { cause := cExtent, lanes := out, addr := BitVec.ofNat 64 (vget (lanesFrom addr) (lowest out)) }
      else c.loadFrom s false n addr (ps.map fun l => l.filterMap id) (loadExt sz)

/-- ST (R145). -/
def execSt (x : Ops) (s : State) : Ans :=
  issue s (.st x) x fun c s => c.storeTo s (szBytes (x.sb 2 0)) c.ea (fun i => c.vd[i]) true

/-- STS (R145). -/
def execSts (x : Ops) (s : State) : Ans :=
  issue s (.sts x) x fun c s => c.storeTo s (szBytes (x.sb 2 0)) c.scratchAddr (fun i => c.vd[i]) false

/-- SLD (R98, R99): the lowest active lane's LD.n64, atomic (R293). -/
def execSld (x : Ops) (s : State) : Ans :=
  issue s (.sld x) x fun c s =>
    let m : LaneMask := 1#32 <<< lowest c.active
    let a := (c.once c.va + c.once c.vb) % 2 ^ 64
    match c.reach s m .read 8 fun _ => a with
    | .error t => .trap t
    | .ok ps =>
      match c.raceOf s (fun _ => true) (fun _ => false) m (fun _ => a) ps with
      | some t => .trap t
      | none =>
        let p := vget ps (lowest c.active)
        let v := s.readPlaces p
        let s := c.noteAll s (fun _ => true) (fun _ => false) m ps
        let s := c.hb s fun h => h.atomicStep (c.actor s (Fin.ofNat 32 (lowest c.active))).agent (p.map placeKey) { read := true }
        .ok { s, dst := some (Lanes.all v), late := some (.here, 0) }

/-! ### Full/empty words (R147 to R149) -/

/-- The task a place of scratchpad belongs to. -/
def scratchOf : List Place → Option (Nat × Nat)
  | .scratch _ t o :: _ => some (t, o)
  | _ => none

/-- LDF once its words may be full: values, and empty words unless .keep (R148). A bundle that the orphan test has found beside another
takes its own fault here (R149). -/
def Ctx.ldf (c : Ctx) (s : State) : Res :=
  match c.reach s c.active .read 4 c.scratchAddr with
  | .error t => .trap t
  | .ok ps =>
    let full (i : Fin 32) : Bool :=
      match scratchOf ps[i] with
      | some (t, o) => ((s.task? c.chip t).map fun u => u.wordFull o).getD false
      | none => false
    if c.g.frame.isNone && c.g.orphaned.any fun o => o.2 == c.pc && o.1 &&& c.active != 0 then
      c.trap cEmptyOrphan (BitVec.ofNat 64 (c.scratchAddr (Fin.ofNat 32 (lowest c.active))))
    else if !(lanesOf c.active).all full then
      .wait .ldf (BitVec.ofNat 64 (c.scratchAddr (Fin.ofNat 32 (lowest c.active)))) 0
    else
      let v : Lanes Nat := lanesFrom fun i => if inMask c.active i then s.readPlaces ps[i] else 0
      let s := (lanesOf c.active).foldl (fun s i =>
        match scratchOf ps[i] with
        | some (t, o) => c.hb s fun h => h.acquireFrom (c.actor s i).agent (keyScratch t (o / 4 * 4))
        | none => s) (c.atomicAll s c.active ps { read := true })
      let s := if c.x.sub ≠ 0 then s else (lanesOf c.active).foldl (fun s i =>
        match scratchOf ps[i] with
        | some (t, o) => (c.hb s fun h => h.emptied (keyScratch t (o / 4 * 4))).updTask c.chip t fun u => { u with full := Mem.set u.full (o / 4) 0 }
        | none => s) s
      .ok { s, dst := some v, late := some (.here, 0) }

/-- LDF (R148), with the orphan test made when a bundle begins to wait (R149, R246). -/
def execLdf (x : Ops) (s : State) : Ans :=
  match issue s (.ldf x) x Ctx.ldf with
  | .next t =>
    match s.issuer with
    | some (.gang g _) => .next (t.orphanTest g.chip g.task)
    | _ => .next t
  | o => o

/-- STF (R148). -/
def execStf (x : Ops) (s : State) : Ans :=
  issue s (.stf x) x fun c s =>
    match c.reach s c.active .write 4 c.scratchAddr with
    | .error t => .trap t
    | .ok ps =>
      let s := (lanesOf c.active).foldl (fun s i =>
        match scratchOf ps[i] with
        | some (t, o) =>
          let s := c.hb s fun h => h.releaseTo (c.actor s i).agent (keyScratch t (o / 4 * 4))
          let s := s.writePlaces ps[i] c.vd[i]
          s.updTask c.chip t fun u => { u with full := Mem.set u.full (o / 4) 1 }
        | none => s) s
      .ok { s := c.atomicAll s c.active ps { write := true } }

/-- TESTF (R148). -/
def execTestf (x : Ops) (s : State) : Ans :=
  issue s (.testf x) x fun c s =>
    match c.reach s c.active .read 4 c.scratchAddr with
    | .error t => .trap t
    | .ok ps =>
      let bit (i : Fin 32) : Bool :=
        match scratchOf ps[i] with
        | some (t, o) => ((s.task? c.chip t).map fun u => u.wordFull o).getD false
        | none => false
      let s := (lanesOf c.active).foldl (fun s i =>
        match scratchOf ps[i], bit i with
        | some (t, o), true => c.hb s fun h => h.acquireFrom (c.actor s i).agent (keyScratch t (o / 4 * 4))
        | _, _ => s) s
      c.test (c.atomicAll s c.active ps { read := true }) bit

/-! ### Atomics and reductions (R150 to R152) -/

/-- The new value of an atomic operation of w bits (R151). -/
def atomicOp (op w old v : Nat) : Nat :=
  match op with
  | 0 => (old + v) % 2 ^ w
  | 1 => if sext old w ≤ sext v w then old else v
  | 2 => if sext old w ≤ sext v w then v else old
  | 3 => old &&& v
  | 4 => old ||| v
  | 5 => old ^^^ v
  | 6 => v
  | 7 => if v ≤ old then 0 else old + 1
  | 8 => if old = 0 || decide (v < old) then v else old - 1
  | 9 =>
    let f : Fm := if w = 64 then .f64 else .f32
    ((fpAdd .rne (f.decode old) (f.decode v)).write f .rne false 0 0).code
  | 10 => min old v
  | _ => max old v

/-- A scope entry named by an instruction is not bound, not current, or without the issuing core: STALE_SCOPE with the detail of R307
(R142 step 1, R159). -/
def Ctx.scopeTrouble (c : Ctx) (s : State) (e : Nat) : Option Trouble :=
  if 63 < e then none
  else
    match (s.chip? c.chip).bind fun k => k.scopeFail c.g e c.core.core with
    | some d => some { cause := cStaleScope, detail := d, lanes := c.active, addr := BitVec.ofNat 64 e }
    | none => none

/-- A scope index above 63 names no entry: ILLEGAL_OPERAND, a fault of the instruction's own (R142 step 4, R150). -/
def Ctx.scopeIndex (c : Ctx) (e : Nat) : Option Trouble := if 63 < e then some { cause := cIllegalOperand, lanes := c.active } else none

/-- The task of an issue, as scopes know it. -/
def Ctx.scopeTask (c : Ctx) : Nat := match c.w with | .gang g _ => g.task | .ctrl _ => ctrlTask

/-- A use of an entry as R296 judges it. -/
def Ctx.scopeView (c : Ctx) (s : State) (e : Nat) : ScopeView :=
  ((s.chip? c.chip).map fun k => k.scopeView e c.core.core c.scopeTask).getD
    { core := c.core.core, task := c.scopeTask, mask := 0, holds := [], pod := false, foreign := false }

/-- One lane's read-modify-write (R152): n bytes at its places, a new value from the old one (none writes nothing). -/
def State.rmw (s : State) (ps : List Place) (new : Nat → Option Nat) : Nat × Option Nat × State :=
  let old := s.readPlaces ps
  match new old with
  | some v => (old, some v, s.writePlaces ps v)
  | none => (old, none, s)

/-- The lanes whose step writes: the steps of one instruction see one another in ascending lane order (R152). -/
def Ctx.writers (c : Ctx) (s : State) (ps : Lanes (List Place)) (new : Fin 32 → Nat → Option Nat) : LaneMask :=
  ((lanesOf c.active).foldl (fun (r : State × LaneMask) i =>
    let q := r.1.rmw ps[i] (new i)
    (q.2.2, if q.2.1.isSome then r.2 ||| (1#32 <<< i.val) else r.2)) (s, 0)).2

/-- Atomic read-modify-writes of the active lanes in ascending order: n bytes at each address, a new value from the old one (none
writes nothing), at a scope entry with an ORD (R152). The fetched values come back for ATOM. -/
def Ctx.atomics (c : Ctx) (s : State) (n scope ord : Nat) (new : Fin 32 → Nat → Option Nat) (fetch : Bool) : Res :=
  match c.scopeTrouble s scope with
  | some t => .trap t
  | none =>
    let addr (i : Fin 32) : Nat := c.va[i]
    match c.reach s c.active .both n addr with
    | .error t => .trap t
    | .ok ps =>
      match c.scopeIndex scope with
      | some t => .trap t
      | none =>
        match c.raceOf s (fun _ => true) (fun i => inMask (c.writers s ps new) i) c.active addr ps with
        | some t => .trap t
        | none =>
          let v := c.scopeView s scope
          let acq := if ord.testBit 0 then some v else none
          let rel := if ord.testBit 1 then some v else none
          let r := (lanesOf c.active).foldl (fun (r : State × Lanes Nat) i =>
            let q := r.1.rmw ps[i] (new i)
            let a := c.actor q.2.2 i
            let s := q.2.2.noteAccess a true q.2.1.isSome ps[i]
            let s := c.hb s fun h => h.atomicStep a.agent (ps[i].map placeKey) { read := true, write := q.2.1.isSome, keeps := true, acq, rel }
            (s, vset r.2 i.val q.1)) (s, Lanes.all 0)
          if fetch then .ok { s := r.1, dst := some r.2, late := some (.here, 0) } else .ok { s := r.1 }

/-- ATOM but for compare-and-swap (R152). -/
def execAtom (x : Ops) (s : State) : Ans :=
  issue s (.atom x) x fun c s =>
    let w := 32 * (x.sb 6 6 + 1)
    c.atomics s (w / 8) (c.once c.vb) (x.sb 5 4) (fun i old => some (atomicOp (x.sb 3 0) w old c.vd[i])) true

/-- ATOM.cas and .cas128 (R152). -/
def execAtomCas (x : Ops) (s : State) : Ans :=
  issue s (.atomCas x) x fun c s =>
    let n := if x.sb 0 0 = 1 then 16 else 4 * (x.sb 3 3 + 1)
    c.atomics s n (c.once c.vc) (x.sb 2 1) (fun i old => if old = c.vd[i] then some c.vb[i] else none) true

/-- RED (R152). -/
def execRed (x : Ops) (s : State) : Ans :=
  issue s (.red x) x fun c s =>
    let w := 32 * (x.sb 6 6 + 1)
    c.atomics s (w / 8) (c.once c.vb) (x.sb 5 4) (fun i old => some (atomicOp (x.sb 3 0) w old c.vd[i])) false

/-! ### Fences and code (R153, R154) -/

/-- FENCE (R153). -/
def execFence (x : Ops) (s : State) : Ans :=
  issue s (.fence x) x fun c s =>
    let e := c.once c.va
    match c.scopeTrouble s e, c.scopeIndex e with
    | some t, _ => .trap t
    | none, some t => .trap t
    | none, none =>
      let v := c.scopeView s e
      let rel := x.sub != 1
      .ok { s := (lanesOf c.active).foldl (fun s i =>
        let a := (c.actor s i).agent
        c.hb s fun h =>
          let h := h.fence a v (x.sub != 2) rel
          if rel then { h with afterFence := a :: h.afterFence.filter (· != a) } else h) s }

/-- IFENCE (R154): every fetch of the model already reads what memory holds (log entry 12). -/
def execIfence (x : Ops) (s : State) : Ans := issue s (.ifence x) x fun _ s => .ok { s }

/-! ### Windows and prefetch (R155, R156, R275) -/

/-- Base and size of a window code (R155, R275). -/
def windowOf : Nat → Nat × Nat
  | 0 => (scratchBase, scratchSize)
  | 1 => (privateBase, privateSize)
  | 2 => (clusterBase, clusterSize)
  | _ => (podBase, podSize)

/-- AWIN (R155). -/
def execAwin (x : Ops) (s : State) : Ans :=
  issue s (.awin x) x fun c s =>
    let w := windowOf (x.sb 1 0)
    c.value s fun i =>
      let a := c.ea i
      if x.sb 2 2 = 0 then if inWin w.1 w.2 a then a - w.1 else 2 ^ 64 - 1
      else if a < w.2 then w.1 + a else 2 ^ 64 - 1

/-- ISSPACE (R155). -/
def execIsspace (x : Ops) (s : State) : Ans :=
  issue s (.isspace x) x fun c s =>
    c.test s fun i =>
      let a := c.va[i]
      match x.sub.toNat with
      | 4 => hostHalf a
      | 5 => deviceHalf a
      | n => let w := windowOf n; inWin w.1 w.2 a

/-- PREF (R156): no architectural effect. -/
def execPref (x : Ops) (s : State) : Ans := issue s (.pref x) x fun _ s => .ok { s }

end Sys2Proof.Machine
end

