-- ==== Sys2Proof/Machine/Sync.lean ====
section
/-! DEFINITION. Barrier objects, timeline counters, scope-table instructions, and the ends of waits (R157 to R165, R304 to R309). -/

namespace Sys2Proof.Machine

/-! ### Ends of waits -/

/-- An event that the state does not allow: it does not happen, and the machine stands as it stood (log entry 95). -/
def notEnabled (s : State) : Ans := .next s

/-- The state after an event where it can happen. -/
def State.after (s : State) (e : State → Ans) : State := match e s with | .next t => t | _ => s

/-- The waiting bundle of a gang with exactly these lanes, blocked by one wait alone. -/
def State.waiting (s : State) (g : GangRef) (lanes : LaneMask) (kind : WaitKind) : Option Wait :=
  match (s.bundle g lanes).map Bundle.parts with
  | some [p] => if p.2.kind = kind then some p.2 else none
  | _ => none

/-- The bundle of these lanes is free to issue. -/
def Gang.unwait (g : Gang) (lanes : LaneMask) : Gang :=
  { g with bundles := g.bundles.map fun b => if b.lanes = lanes then { b with wait := none, also := [] } else b }

/-- Lanes of a blocked bundle are free to issue, as a bundle of their own (R235 step 2). -/
def Gang.freed (g : Gang) (m : LaneMask) : Gang :=
  if g.bundles.any fun b => b.lanes == m then g.unwait m else g.rebundle m [⟨m, g.passesOf m, none, []⟩]

/-- A gang with lanes of a wait freed, about to complete the instruction that waits. Nothing else issues beside it. -/
def State.released (s : State) (g : GangRef) (m : LaneMask) : State :=
  { s.updGang g (fun q => q.freed m) with issuer := some (.gang g m), due := [] }

/-- Lanes of a gang that stand in a wait. -/
def State.stands (s : State) (g : GangRef) (p : LaneMask × Wait) : Bool :=
  ((s.gang? g).map fun q => q.bundles.any fun b => b.parts.contains p).getD false

/-- The end of one wait of a bundle, where it can end: the instruction completes with the values it read when it issued. -/
def State.endPart (s : State) (g : GangRef) (body : Wait → Ctx → State → Res) (p : LaneMask × Wait) : Option State :=
  match p.2.instr.ops with
  | none => none
  | some x =>
    match issueWith p.2.vals (s.released g p.1) p.2.instr x (body p.2) with
    | .next u => if (u.waiting g p.1 p.2.kind).isSome then none else some { u with issuer := s.issuer, due := s.due }
    | _ => none

/-- Bundles of these lanes that are free to issue at one address become one (R235 step 4). -/
def Gang.together (g : Gang) (ended : List LaneMask) : Gang :=
  (ended.foldl (fun as m => let a := vget g.pc (lowest m); if as.contains a then as else as ++ [a]) []).foldl (fun g a =>
    let ms := ended.filter fun m => vget g.pc (lowest m) == a && g.bundles.any fun b => b.lanes == m && b.wait.isNone
    let m := ms.foldl (· ||| ·) 0
    if ms.length < 2 then g else g.rebundle m [⟨m, g.passesOf m, none, []⟩]) g

/-- The end of the waits of a blocked bundle: each that can end does so, with its own lanes and values, and those that end together stay one
bundle (R235 step 4). Where none can, the event does not happen yet; nor in a gang that may not issue (R246, R399, R402). -/
def State.endWait (s : State) (g : GangRef) (lanes : LaneMask) (kind : WaitKind) (mine : Instr → Bool)
    (body : Wait → Ctx → State → Res) : Ans :=
  match s.mayIssue g, s.bundle g lanes with
  | true, some b =>
    let r := (b.parts.filter fun p => p.2.kind == kind && mine p.2.instr).foldl (fun (r : State × List LaneMask) p =>
      if r.1.stands g p then
        match r.1.endPart g body p with
        | some u => (u, r.2 ++ [p.1])
        | none => r
      else r) (s, [])
    match r.2 with
    | [] => notEnabled s
    | [_] => .next r.1
    | ended => .next (r.1.updGang g fun q => q.together ended)
  | _, _ => notEnabled s

/-- Any instruction. -/
def anyInstr (_ : Instr) : Bool := true

/-- LDF_WAIT_END (R148). -/
def execLdfWaitEnd (g : GangRef) (lanes : LaneMask) (s : State) : Ans := s.endWait g lanes .ldf anyInstr fun _ => Ctx.ldf

/-! ### Barrier objects (R162 to R165) -/

/-- A barrier object's fields. -/
structure BarObj where
  v : Bool
  phase : Nat
  bytes : Int
  count : Nat
  arrived : Nat
deriving DecidableEq, Repr

/-- The object in 128 bits (R162). -/
def BarObj.ofNat (n : Nat) : BarObj := ⟨n.testBit 127, bitsOf n 126 96, sext (bitsOf n 95 64) 32, bitsOf n 63 32, n % 2 ^ 32⟩

def BarObj.toNat (b : BarObj) : Nat :=
  bitNat b.v * 2 ^ 127 + b.phase % 2 ^ 31 * 2 ^ 96 + wrapNat b.bytes 32 * 2 ^ 64 + b.count % 2 ^ 32 * 2 ^ 32 + b.arrived % 2 ^ 32

/-- complete_if_done of R164. -/
def BarObj.settle (b : BarObj) : BarObj :=
  if b.v && b.count != 0 && b.arrived == b.count && decide (b.bytes = 0) then
    { b with phase := (b.phase + 1) % 2 ^ 31, arrived := 0, count := 0 }
  else b

/-- An arrival of k lanes with count n; none is BARRIER_MISMATCH (R164). -/
def BarObj.arrive (b : BarObj) (k n : Nat) : Option BarObj :=
  if !b.v || n == 0 then none
  else if b.count ≠ 0 && b.count ≠ n then none
  else if n < b.arrived + k then none
  else some ({ b with count := n, arrived := b.arrived + k }).settle

/-- BAR.EXPECT (R164). -/
def BarObj.expect (b : BarObj) (n : Nat) : Option BarObj :=
  if !b.v || decide (2 ^ 31 ≤ b.bytes + n) then none else some ({ b with bytes := b.bytes + n }).settle

/-- BAR.EXPECT of k active lanes, one after another (R143, R164); none when one of them is a BARRIER_MISMATCH. -/
def BarObj.expects (b : BarObj) (n : Nat) : Nat → Option BarObj
  | 0 => some b
  | k + 1 => (b.expect n).bind fun b' => b'.expects n k

/-- A counted byte lands (R164). -/
def BarObj.landOne (b : BarObj) : BarObj := ({ b with bytes := sext (wrapNat (b.bytes - 1) 32) 32 }).settle

/-- n counted bytes land one after another, and complete_if_done() runs after each (R164, R170). -/
def BarObj.land (b : BarObj) : Nat → BarObj
  | 0 => b
  | n + 1 => b.landOne.land n

/-- The key of `carried` for one phase of an object (R165). -/
def barKey (p : Place) (phase : Nat) : Nat :=
  match p with
  | .dram _ a _ => (a * 2 ^ 31 + phase) * 8 + 6
  | .scratch _ t o => ((t * 2 ^ 20 + o) * 2 ^ 31 + phase) * 8 + 7
  | .host _ => 0

/-- The clocks of an object's earlier phases are no longer its own (BAR.INIT). -/
def Hb.dropBar (h : Hb) (p : Place) : Hb :=
  { h with carried := h.carried.filter fun e => !(e.1 % 8 == barKey p 0 % 8 && e.1 / 2 ^ 34 == barKey p 0 / 2 ^ 34) }

/-- A barrier address lies in scratchpad, the cluster window or device memory (R162). -/
def barSpace (a : Nat) : Bool := inWin scratchBase scratchSize a || inWin clusterBase clusterSize a || deviceHalf a

/-- The places of a barrier object, or the failing check of R142. -/
def Ctx.barReach (c : Ctx) (s : State) (need : Acc) (a : Nat) : Except Trouble (List Place) :=
  if a % 16 ≠ 0 then .error { cause := cMisalign, lanes := c.active, addr := BitVec.ofNat 64 a }
  else
    match barSpace a, s.places c.w (lowest c.active) need a 16 with
    | true, some ps => .ok ps
    | _, _ => .error { cause := cExtent, lanes := c.active, addr := BitVec.ofNat 64 a }

/-- A BAR instruction on its object: reach it, check for races, and act on its fields (R162 to R165). -/
def Ctx.bar (c : Ctx) (s : State) (need : Acc) (f : State → BarObj → List Place → Res) : Res :=
  let a := c.once c.va
  match c.barReach s need a with
  | .error t => .trap t
  | .ok ps =>
    match c.raceOf s (fun _ => true) (fun _ => need != .read) c.active (fun _ => a) (Lanes.all ps) with
    | some t => .trap t
    | none =>
      let t := c.noteAll s (fun _ => true) (fun _ => need != .read) c.active (Lanes.all ps)
      f (c.atomicAll t c.active (Lanes.all ps) { read := need != .write, write := need != .read, keeps := need == .both })
        (BarObj.ofNat (s.readPlaces ps)) ps

/-- The first place of an object. -/
def headPlace (ps : List Place) : Place := (ps.head?).getD (.host 0)

/-- BAR.INIT (R163). -/
def execBarInit (x : Ops) (s : State) : Ans :=
  issue s (.barInit x) x fun c s =>
    c.bar s .write fun s _ ps => .ok { s := c.hb (s.writePlaces ps (2 ^ 127)) fun h => h.dropBar (headPlace ps) }

/-- BAR.ARRIVE (R163 to R165). -/
def execBarArrive (x : Ops) (s : State) : Ans :=
  issue s (.barArrive x) x fun c s =>
    c.bar s .both fun s b ps =>
      match b.arrive (laneCount c.active) (c.once c.vb) with
      | none => c.trap cBarrierMismatch (BitVec.ofNat 64 (c.once c.va))
      | some b' =>
        let s := s.writePlaces ps b'.toNat
        let s := (lanesOf c.active).foldl (fun s i => c.hb s fun h => h.releaseTo (c.actor s i).agent (barKey (headPlace ps) b.phase)) s
        c.value s fun _ => b.phase

/-- BAR.EXPECT (R164): each active lane adds the bytes (R143; log entry 13). -/
def execBarExpect (x : Ops) (s : State) : Ans :=
  issue s (.barExpect x) x fun c s =>
    let n := c.once c.vb
    match c.barReach s .both (c.once c.va) with
    | .error t => .trap t
    | .ok _ =>
      if 2 ^ 31 ≤ n then c.trap cIllegalOperand
      else
        c.bar s .both fun s b ps =>
          match b.expects n (laneCount c.active) with
          | none => c.trap cBarrierMismatch (BitVec.ofNat 64 (c.once c.va))
          | some b' => .ok { s := s.writePlaces ps b'.toNat }

/-- Lanes take in the arrivals of the phase their token names (R165). -/
def Ctx.barAcquire (c : Ctx) (s : State) (m : LaneMask) (ps : List Place) : State :=
  (lanesOf m).foldl (fun s i => c.hb s fun h => h.acquireFrom (c.actor s i).agent (barKey (headPlace ps) (c.vb[i] % 2 ^ 31))) s

/-- BAR.WAIT on its object (R163). -/
def Ctx.barWait (c : Ctx) (s : State) : Res :=
  c.bar s .read fun s b ps =>
    if (lanesOf c.active).all fun i => c.vb[i] != b.phase then .ok { s := c.barAcquire s c.active ps }
    else .wait .barWait (BitVec.ofNat 64 (c.once c.va)) (BitVec.ofNat 32 (c.once c.vb))

/-- BAR.WAIT (R163). -/
def execBarWait (x : Ops) (s : State) : Ans := issue s (.barWait x) x Ctx.barWait

/-- BAR_WAIT_END (R163). -/
def execBarWaitEnd (g : GangRef) (lanes : LaneMask) (s : State) : Ans := s.endWait g lanes .barWait anyInstr fun _ => Ctx.barWait

/-- BAR.TEST (R163). -/
def execBarTest (x : Ops) (s : State) : Ans :=
  issue s (.barTest x) x fun c s =>
    c.bar s .read fun s b ps =>
      let yes := maskOf fun i => inMask c.active i && c.vb[i] != b.phase
      c.test (c.barAcquire s yes ps) fun i => inMask yes i

/-! ### Timeline counters (R160, R161) -/

/-- A timeline counter of an issuer: its task's, or on the control core the context's launch timeline (R265). -/
def Ctx.counter (c : Ctx) (s : State) (n : Nat) : Nat :=
  match c.w with
  | .gang g _ => ((s.task? g.chip g.task).map fun t => (vget t.tl n).toNat).getD 0
  | .ctrl _ => ((s.chip? c.chip).map fun k => (vget k.lt n).value.toNat).getD 0

/-- A counter advances over the operations that are complete in issue order (R161). -/
def Task.advance (t : Task) (n : Nat) : Task :=
  let q := vget t.tlq n
  let d := q.takeWhile id
  { t with tlq := vset t.tlq n (q.drop d.length), tl := vset t.tl n (vget t.tl n + BitVec.ofNat 64 d.length) }

/-- The operation of a counter with a ticket is complete (R161). -/
def Task.finish (t : Task) (n ticket : Nat) : Task :=
  ({ t with tlq := vset t.tlq n ((vget t.tlq n).set (ticket - (vget t.tl n).toNat - 1) true) }).advance n

/-- A task with one more operation issued on a counter, and its ticket (R161). -/
def Task.enlist (t : Task) (n : Nat) : Nat × Task :=
  ((vget t.tl n).toNat + (vget t.tlq n).length + 1, { t with tlq := vset t.tlq n (vget t.tlq n ++ [false]) })

/-- TLWAIT on its counter (R160): the acquire takes in every advance up to the value. -/
def Ctx.tlwait (c : Ctx) (s : State) : Res :=
  let n := opndBits c.x.a.opnd % 8
  let v := c.once c.vb
  if v ≤ c.counter s n then
    let f (a : Nat) (h : Hb) : Hb :=
      match c.w with
      | .gang g _ => h.acquireBetween a (keyTl g.task n 1) (keyTl g.task n v)
      | .ctrl _ => h.acquire a ((((s.chip? c.chip).map fun k => (vget k.lt n).clock).getD []))
    .ok { s := if v = 0 then s else (lanesOf c.active).foldl (fun s i => c.hb s (f (c.actor s i).agent)) s }
  else .wait .tlwait (BitVec.ofNat 64 n) (BitVec.ofNat 32 v)

/-- TLWAIT (R160). -/
def execTlwait (x : Ops) (s : State) : Ans := issue s (.tlwait x) x Ctx.tlwait

/-- TLWAIT_END (R160). -/
def execTlwaitEnd (g : GangRef) (lanes : LaneMask) (s : State) : Ans := s.endWait g lanes .tlwait anyInstr fun _ => Ctx.tlwait

/-- TLREAD (R160). -/
def execTlread (x : Ops) (s : State) : Ans :=
  issue s (.tlread x) x fun c s => c.value s fun _ => c.counter s (opndBits x.a.opnd % 8)

/-! ### The scope table (R157 to R159, R304 to R309) -/

/-- The entry after a write of its membership: mark and tracking cleared, version up by one (R158). -/
def ScopeEntry.rewrite (e : ScopeEntry) (mask : CoreMask) (hostif fabif : Bool) : ScopeEntry :=
  { mask, hostif, fabif, version := e.version + 1, grp := false, track := none }

/-- Every gang of a context loses its binding to an entry (R158). -/
def Chip.unbindAll (c : Chip) (e : Nat) : Chip :=
  { c with tasks := c.tasks.map fun t => (t.1, { t.2 with gangs := t.2.gangs.map fun g => (g.1, { g.2 with bind := vset g.2.bind e none }) }) }

/-- The handler has bound an entry (R307). -/
def FaultMark.rebind (m : FaultMark) (e : Nat) : FaultMark := { m with rebound := m.rebound ||| (1#64 <<< e) }

/-- A scope entry rewritten by an issuing gang, which is bound to the new version (R158). -/
def Ctx.writeScope (c : Ctx) (s : State) (e : Nat) (mask : CoreMask) (hostif fabif : Bool) : State :=
  match s.chip? c.chip with
  | none => s
  | some k =>
    let n := (vget k.scopes e).rewrite mask hostif fabif
    let k := { k with scopes := vset k.scopes e n }
    let k := if n.version = 0 then k.unbindAll e else k
    (s.updChip c.chip fun _ => k).updGangOf c.w fun g => { g with bind := vset g.bind e (some n.version), mark := g.mark.map (·.rebind e) }

/-- The bytes of a record that the bundle names once, through its lowest active lane, or the failing check of R142 steps 2 and 3. -/
def Ctx.recordAt (c : Ctx) (s : State) (a align n : Nat) : Except Trouble (List Place) :=
  if a % align ≠ 0 then .error { cause := cMisalign, lanes := c.active, addr := BitVec.ofNat 64 a }
  else
    match s.places c.w (lowest c.active) .read a n with
    | none => .error { cause := cExtent, lanes := c.active, addr := BitVec.ofNat 64 a }
    | some ps => .ok ps

/-- The plain read of a record once for the bundle, by its lowest active lane (R142, R143). -/
def Ctx.record (c : Ctx) (s : State) (a align n : Nat) : Except Trouble (State × List Byte) :=
  match c.recordAt s a align n with
  | .error t => .error t
  | .ok ps =>
    let m : LaneMask := 1#32 <<< lowest c.active
    match c.raceOf s (fun _ => false) (fun _ => false) m (fun _ => a) (Lanes.all ps) with
    | some t => .error t
    | none => .ok (c.noteAll s (fun _ => false) (fun _ => false) m (Lanes.all ps), s.bytesAt ps)

/-- SCOPEW (R158, R306): the index is looked at after the descriptor's address (R142 step 4). -/
def execScopew (x : Ops) (s : State) : Ans :=
  issue s (.scopew x) x fun c s =>
    let e := c.once c.va
    match c.recordAt s (c.once c.vb) 64 64 with
    | .error t => .trap t
    | .ok _ =>
      if e < 5 || 63 < e then c.trap cIllegalOperand
      else
        match c.record s (c.once c.vb) 64 64 with
        | .error t => .trap t
        | .ok (s, bs) =>
          let mask : CoreMask := BitVec.ofNat 160 (field bs 0 20)
          let ag := field bs 0x14 1
          let own := ((s.chip? c.chip).map Chip.coreMask).getD 0
          if mask = 0 || mask &&& ~~~own != 0 || decide (3 < ag) || field bs 0x15 43 != 0 then c.trap cIllegalOperand
          else .ok { s := c.writeScope s e mask (ag.testBit 0) (ag.testBit 1) }

/-- SCOPERET (R158). -/
def execScoperet (x : Ops) (s : State) : Ans :=
  issue s (.scoperet x) x fun c s =>
    let e := c.once c.va
    if e < 5 || 63 < e then c.trap cIllegalOperand else .ok { s := c.writeScope s e 0 false false }

/-- SCOPEBIND (R158). -/
def execScopebind (x : Ops) (s : State) : Ans :=
  issue s (.scopebind x) x fun c s =>
    let e := c.once c.va
    if 63 < e then c.trap cIllegalOperand
    else
      let v := ((s.chip? c.chip).map fun k => (vget k.scopes e).version).getD 0
      .ok { s := s.updGangOf c.w fun g => { g with bind := vset g.bind e (some v), mark := g.mark.map (·.rebind e) } }

/-- SCOPEQ's word (R158). -/
def scopeWord (k : Chip) (g : Gang) (e core : Nat) : Nat :=
  let n := vget k.scopes e
  let b := vget g.bind e
  let set := k.scopeSet e core
  bitNat b.isSome * 2 ^ 51 + bitNat (set.getLsbD core) * 2 ^ 50 + bitNat n.grp * 2 ^ 49 +
    bitNat (if e < 5 then set == 0 else n.mask == 0) * 2 ^ 48 + (b.getD 0).toNat * 2 ^ 24 + n.version.toNat

/-- SCOPEQ (R158). -/
def execScopeq (x : Ops) (s : State) : Ans :=
  issue s (.scopeq x) x fun c s =>
    let e := c.once c.va
    if 63 < e then c.trap cIllegalOperand
    else c.value s fun _ => ((s.chip? c.chip).map fun k => scopeWord k c.g e c.core.core).getD 0

end Sys2Proof.Machine
end

