-- ==== Sys2Proof/Machine/Engine.lean ====
section
/-! DEFINITION. What the engines share: who issued a command (R170, R295), counters (R161), engine faults (R173, R300, R396), launch
timelines (R260), and who holds a core's array (R171, R268). -/

namespace Sys2Proof.Machine

/-- A list with the entries that a test names rewritten. -/
def mapIf {α : Type} (p : α → Bool) (f : α → α) (l : List α) : List α := l.map fun a => if p a then f a else a

/-! ### Launch timelines (R260) -/

/-- Advances at the head of a timeline's list are applied while their launches are done (R260 steps 1 and 2). -/
def Timeline.drain : List LtItem → DWord → VClock → Timeline
  | [], v, k => ⟨v, [], k⟩
  | i :: is, v, k => if i.state = 1 then Timeline.drain is (v + 1) (VClock.join k i.clock) else ⟨v, i :: is, k⟩

/-- A launch of a timeline ends as done (1) or leaves a gap (2). -/
def Timeline.close (t : Timeline) (handle state : Nat) (clock : VClock) : Timeline :=
  Timeline.drain (t.items.map fun i => if i.handle = handle && i.state = 0 then { i with state, clock } else i) t.value t.clock

/-- A supervisor write: add the value, remove the oldest gap (R260 step 4). -/
def Timeline.write (t : Timeline) (v : DWord) : Timeline :=
  let items := match t.items.span fun i => i.state != 2 with
    | (before, _ :: rest) => before ++ rest
    | (before, []) => before
  Timeline.drain items (t.value + v) t.clock

/-! ### Issuers and counters -/

/-- The identity of a command that an instruction issues, on a counter if it names one. The issue stands in the issuing thread's
program order (R295). -/
def Ctx.issueBy (c : Ctx) (s : State) (counter : Option Nat) : IssuedBy × State :=
  let lane := lowest c.active
  let a := c.actor s (Fin.ofNat 32 lane)
  let num := ((s.chip? c.chip).map fun k => k.hb.next).getD 0
  let gang := match c.w with
    | .ctrl r => r.core
    | .gang .. => a.gangNo
  let by_ : IssuedBy := ⟨gang, c.active, c.pc, c.next, a.clock, engineAgent num, 1, 0, 0⟩
  let s := c.hb s fun h => { (h.publish a.agent).2 with next := num + 1 }
  match c.w with
  | .gang g _ =>
    match s.task? g.chip g.task with
    | some t =>
      let e := match counter with | some n => t.enlist n | none => (0, t)
      ({ by_ with ticket := e.1, seq := t.seq }, s.updTask g.chip g.task fun _ => { e.2 with seq := t.seq + 1 })
    | none => (by_, s)
  | .ctrl _ =>
    match counter with
    | some n => ({ by_ with ticket := ctrlTask + num },
        s.updChip c.chip fun k => { k with lt := vset k.lt n { vget k.lt n with items := (vget k.lt n).items ++ [⟨ctrlTask + num, 0, []⟩] } })
    | none => (by_, s)

/-- The actor of an engine command (R292, R294): one of the issuing gang's, or of the control core's. -/
def State.engineActor (s : State) (chip task : Nat) (b : IssuedBy) : Actor :=
  let t := s.task? chip task
  let self := (t.map fun t => t.self task).getD task
  ⟨b.agent, if task = ctrlTask then ctrlAgent b.gang else gangAgent self b.gang, b.clk, b.clock, (t.map Task.handle).getD 0, (t.map Task.num).getD 0, b.gang⟩

/-- What a completed command carries to those who see it: its issuer's past and its own accesses. -/
def IssuedBy.result (b : IssuedBy) : VClock := VClock.join b.clock [(b.agent, b.clk)]

/-- A command whose accesses until now have been released, as its task leaves its core (R403): what it does after is later. -/
def IssuedBy.onward (b : IssuedBy) : IssuedBy := { b with clk := b.clk + 1 }

/-- A clock joined to what a key carries. -/
def Hb.carry (h : Hb) (key : Nat) (k : VClock) : Hb :=
  { h with carried := Tab.put h.carried key (VClock.join (Tab.getD h.carried key []) k) }

/-- A command on a counter completes (R161): the counter advances, saved or live, in issue order. -/
def State.finishOp (s : State) (chip task n : Nat) (b : IssuedBy) : State :=
  if task = ctrlTask then
    s.updChip chip fun k => { k with lt := vset k.lt n ((vget k.lt n).close b.ticket 1 b.result) }
  else
    let s := s.updTask chip task fun t => t.finish n b.ticket
    s.updChip chip fun k => { k with hb := { k.hb with carried := Tab.put k.hb.carried (keyTl task n b.ticket) b.result } }

/-! ### Engine faults (R173, R300, R396) -/

/-- A fault of a command that a control routine issued stops the control core's service for the context, as a fault of the routine does
(R266). -/
def State.stopService (s : State) (chip : Nat) (b : IssuedBy) (t : Trouble) : State :=
  match s.chip? chip with
  | none => s
  | some c =>
    let r : CoreRef := ⟨c.dev, b.gang⟩
    let s := s.updChip chip fun c => { c with cc := { c.cc with stop := true, cause := t.cause, offs := (b.pc.toNat + 65536 - c.cc.area.toNat % 65536) % 65536 } }
    let s := if ((s.core r).ctrl.map CtrlRun.chip) = some chip then s.endRoutine r else s
    { s with irqs := s.irqs ++ [.supervisor chip t.cause] }

/-- A fault of an engine command ends its task at once; the record names the instruction that issued it. -/
def State.engineFault (s : State) (chip task : Nat) (b : IssuedBy) (t : Trouble) : State :=
  if task = ctrlTask then s.stopService chip b t
  else
  match s.task? chip task with
  | none => s
  | some k =>
    if k.ended then s
    else
      let nest := ((Tab.find k.gangs b.gang).map fun g => g.frame.isSome).getD false
      s.endTask chip task (faultRecord { t with lanes := b.lanes } nest true true b.lanes b.gang k.handle k.num b.pc b.next)

/-- The race of an engine access, if there is one (R300). -/
def State.engineRace (s : State) (chip task : Nat) (b : IssuedBy) (write : Bool) (addr : Nat) (ps : List Place) : Option Trouble :=
  match s.findRace (s.engineActor chip task b) false write addr ps with
  | some (a, p) =>
    let d := raceDetail write p
    some { cause := cMmrace, detail := d, lanes := b.lanes, addr := BitVec.ofNat 64 a, xd := if d = 3 then [] else p.xd }
  | none => none

/-- Bytes that an engine writes at places: a write that is no atomic (R296, R310). -/
def State.engineWrite (s : State) (ps : List Place) (bs : List Byte) : State := ps.foldl State.endSequence (s.writeBytes ps bs)

/-! ### The array's holder (R171, R268) -/

/-- The core a task runs on. -/
def State.taskCore (s : State) (chip task : Nat) : Option CoreRef := (s.task? chip task).bind Task.core

/-- A task has the array, or takes it where it is free and nothing still waits to be restored for another. -/
def State.holdArray (s : State) (core : CoreRef) (chip task : Nat) : Option State :=
  match (s.core core).holder with
  | some h => if h = (chip, task) then some s else none
  | none => some (s.updCore core fun k => { k with holder := some (chip, task) })

/-- Commands in the matrix queue, the one executing included (R171). -/
def Arr.depth (a : Arr) : Nat := a.queue.length + (if a.flight.isSome then 1 else 0)

/-- A change of a task's array state. -/
def State.updArr (s : State) (chip task : Nat) (f : Arr → Arr) : State := s.updTask chip task fun t => { t with arr := f t.arr }

/-- The task of an issue; matrix instructions do not exist on the control core (R62). -/
def Ctx.ownTask (c : Ctx) (s : State) : Option (Nat × Nat × Task) :=
  match c.w with
  | .gang g _ => (s.task? g.chip g.task).map fun t => (g.chip, g.task, t)
  | .ctrl _ => none

/-- Bytes of the issuing task's scratchpad allocation. -/
def Ctx.scratchBytes (c : Ctx) (s : State) : Nat := ((c.ownTask s).map fun t => t.2.2.scrp * 2048).getD 0

/-- A range lies in an allocation of some bytes. -/
def rangeIn (alloc off len : Nat) : Bool := decide (off + len ≤ alloc)

/-- EXTENT_RANGE of a scratchpad range: the first byte past the allocation (R281, R395). -/
def scratchRangeAddr (alloc off : Nat) : DWord := BitVec.ofNat 64 (scratchBase + max off alloc)

/-- MSAVE. -/
def isMsave : Instr → Bool
  | .msave _ => true
  | _ => false

/-- MRES. -/
def isMres : Instr → Bool
  | .mres _ => true
  | _ => false

/-- An MRES of the task waits for the array: the queue takes no command until it has restored its own, which fill up to 16 places (R171, R194;
log entry 15). -/
def Task.mresWaits (t : Task) : Bool :=
  t.gangs.any fun g => g.2.bundles.any fun b => b.parts.any fun p => isMres p.2.instr && p.2.kind == .msaveMres

/-- A matrix command enters the queue of the core's array under the stalls of R171. -/
def Ctx.enqueue (c : Ctx) (s : State) (counter : Option Nat) (mk : IssuedBy → MCmd) : Res :=
  match c.ownTask s with
  | none => .trap { cause := cIllegalEncoding, lanes := c.active }
  | some (chip, task, t) =>
    match s.holdArray c.core chip task with
    | none => .wait .arrayHeld 0 0
    | some u =>
      if t.arrayDue then .wait .arrayHeld 0 0
      else if 16 ≤ t.arr.depth || t.mresWaits then .wait .queueFull 0 0
      else
        let r := c.issueBy u counter
        .ok { s := r.2.updArr chip task fun a => { a with queue := a.queue ++ [mk r.1] } }

end Sys2Proof.Machine
end

