-- ==== Sys2Proof/Machine/Lovage.lean ====
section
/-! DEFINITION. The Lovage unit of a die: retired operations of sixteen-lane gangs, and its answers (R61, R421, R431, R432). -/

namespace Sys2Proof.Machine

/-- The Lovage queue of a die. -/
def Device.lov (d : Device) (die : Nat) : List LovEntry := if die = 0 then d.lov0 else d.lov1

def Device.setLov (d : Device) (die : Nat) (q : List LovEntry) : Device := if die = 0 then { d with lov0 := q } else { d with lov1 := q }

/-- A retired operation of a subcore goes to its die's unit once its destination has its register, and its bundle waits for the reply (R46,
R431). -/
def Ctx.forward (c : Ctx) (s : State) (k : BitVec 6) : Res :=
  match c.w with
  | .ctrl _ => c.trap cIllegalEncoding
  | .gang g _ =>
    let die := dieOf c.core.core
    let q := ((s.dev? c.core.dev).map fun d => d.lov die).getD []
    if !c.room s then .wait .alloc 0 (BitVec.ofNat 32 (needRegs c.g c.destName))
    else if 256 ≤ q.length || 4 ≤ (q.filter fun e => e.core == c.core.core).length then .wait .queueFull 0 0
    else
      let e : LovEntry :=
        { g, core := c.core.core, k, x := c.x, lanes := c.active, bundle := c.lanes, pc := c.pc, a := c.va.map (BitVec.ofNat 32),
          b := c.vb.map (BitVec.ofNat 32) }
      .whole ((c.hold s .lovage 0 0).updDev c.core.dev fun d => d.setLov die (d.lov die ++ [e]))

/-- The sum of the four bytes' absolute differences (R421). -/
def byteAbsDiff (a b : Nat) : Nat :=
  (List.range 4).foldl (fun n k => n + ((a / 256 ^ k % 256 : Nat) - (b / 256 ^ k % 256 : Nat) : Int).natAbs) 0

/-- What the unit answers: the sum, or LEGACY_REJECT (R432). -/
def Ctx.served (k : BitVec 6) (c : Ctx) (s : State) : Res :=
  if k = 1 && c.x.sub = 0 then c.value s fun i => byteAbsDiff c.va[i] c.vb[i]
  else c.trap cLegacyReject (BitVec.ofNat 64 (0x380 + k.toNat))

/-- BYTE_ABS_DIFF_SUM (R421). -/
def execByteAbsDiffSum (x : Ops) (s : State) : Ans := issue s (.byteAbsDiffSum x) x fun c s => c.forward s 1

/-- RETIRED_OPERATION (R61, R431). -/
def execRetiredOperation (k : BitVec 6) (x : Ops) (s : State) : Ans := issue s (.retiredOperation k x) x fun c s => c.forward s k

/-- An entry's instruction. -/
def LovEntry.instr (e : LovEntry) : Instr := if e.k = 1 then .byteAbsDiffSum e.x else .retiredOperation e.k e.x

/-- A request that has left the queue is answered; one whose bundle no longer waits for it is dropped. -/
def State.serveLovage (s : State) (e : LovEntry) : State :=
  match s.waiting e.g e.bundle .lovage with
  | some w => if w.instr = e.instr then s.after fun s => s.endWait e.g e.bundle .lovage anyInstr fun _ => Ctx.served e.k else s
  | none => s

/-- The oldest request of a die leaves its unit's queue, and is answered. -/
def State.lovageStep (s : State) (dev die : Nat) : State :=
  match ((s.dev? dev).map fun d => d.lov die).getD [] with
  | e :: rest => (s.updDev dev fun d => d.setLov die rest).serveLovage e
  | [] => s

/-- LOVAGE_SERVICE (R431, R432): the oldest request of a die. -/
def execLovageService (dev die : Nat) (s : State) : Ans := if 1 < die then notEnabled s else .next (s.lovageStep dev die)

/-- Requests of a die are answered in arrival order until a gang has none there; the bound is their number. -/
def State.serveUntil (s : State) (dev die : Nat) (g : GangRef) : Nat → State
  | 0 => s
  | n + 1 =>
    if (((s.dev? dev).map fun d => d.lov die).getD []).any fun e => e.g == g then (s.lovageStep dev die).serveUntil dev die g n else s

/-- Every request of a gang that stops is answered first, and with it those before it (R431, R432). -/
def State.answerLovage (s : State) (g : GangRef) : State :=
  match s.taskCore g.chip g.task with
  | none => s
  | some core => s.serveUntil core.dev (dieOf core.core) g 256

end Sys2Proof.Machine
end

