-- ==== Sys2Proof/Machine/Matrix.lean ====
section
/-! DEFINITION. The matrix engine: formats, compressed weight blocks, the checks and sums of passes, and the instructions that place
commands in the queue, with the steps that execute them (R171 to R184, R328 to R331, R335 to R341). -/

namespace Sys2Proof.Machine

/-! ### Operand formats (R174) -/

/-- Bits of an element of a matrix format code. -/
def matBits (f : Nat) : Nat :=
  if f ≤ 4 then 8 else if f ≤ 7 then 6 else if f ≤ 9 then 4 else if f ≤ 11 then 16 else if f = 13 then 64 else 32

/-- Bytes of a row of 128 elements. -/
def matRow (f : Nat) : Nat := 16 * matBits f

/-- The code's class is integer. -/
def matInt (f : Nat) : Bool := f == 3 || f == 4 || f == 9

/-- The exact value of an element's bits. -/
def matVal (f v : Nat) : Val :=
  match f with
  | 0 => Fm.t8.decode v
  | 1 => Fm.e4m3.decode v
  | 2 => Fm.e5m2.decode v
  | 3 => Val.ofInt (sext v 8)
  | 4 => Val.ofInt (v % 256 : Nat)
  | 5 => Fm.t6.decode v
  | 6 => Fm.e3m2.decode v
  | 7 => Fm.e2m3.decode v
  | 8 => Fm.e2m1.decode v
  | 9 => Val.ofInt (sext v 4)
  | 10 => Fm.bf16.decode v
  | 11 => Fm.f16.decode v
  | 12 => Fm.f32.decode v
  | _ => Fm.f64.decode v

/-- Code j of w bits in the stream that starts at byte a of memory (R324). -/
def streamCode (m : Mem) (a w j : Nat) : Nat := Mem.load m (a + w * j / 8) 10 / 2 ^ (w * j % 8) % 2 ^ w

/-- The matrix code of an R110 code (R196). -/
def matOfFmt : Nat → Nat
  | 4 => 0 | 5 => 5 | 6 => 1 | 7 => 2 | 8 => 6 | 9 => 7 | _ => 8

/-! ### Compressed weight blocks (R176) -/

/-- A group: its scale as an S20 code and its 32 element codes. -/
structure WGroup where
  scale : Nat
  codes : List Nat
deriving DecidableEq, Repr

/-- Elements of a group: masked ones take the next code, the others are 0. -/
def unmask (m : Mem) (a w mask : Nat) : List Nat → Nat → List Nat
  | [], _ => []
  | c :: cs, j => if mask.testBit c then streamCode m a w j :: unmask m a w mask cs (j + 1) else 0 :: unmask m a w mask cs j

/-- The group at a byte position and the position after it; none when it breaks R176. -/
def groupAt (m : Mem) (p fmt : Nat) (sc dense : Bool) : Option (WGroup × Nat) :=
  let raw := Mem.load m p 3
  let p1 := if sc then p + 3 else p
  let mask := if dense then 2 ^ 32 - 1 else Mem.load m p1 4
  let p2 := if dense then p1 else p1 + 4
  let w := matBits fmt
  let n := (List.range 32).foldl (fun k c => if mask.testBit c then k + 1 else k) 0
  let bytes := (n * w + 7) / 8
  let pad := if bytes = 0 then 0 else Mem.get m (p2 + bytes - 1) |>.toNat / 2 ^ (8 - (8 * bytes - n * w))
  if (sc && decide (2 ^ 20 ≤ raw)) || (8 * bytes != n * w && pad != 0) then none
  else some (⟨if sc then raw else 0x3F800, unmask m p2 w mask (List.range 32) 0⟩, p2 + bytes)

/-- n groups from a position, and the position after them. -/
def groupsFrom (m : Mem) (fmt : Nat) (sc dense : Bool) : Nat → Nat → Option (List WGroup × Nat)
  | 0, p => some ([], p)
  | n + 1, p =>
    match groupAt m p fmt sc dense with
    | none => none
    | some (g, q) =>
      match groupsFrom m fmt sc dense n q with
      | none => none
      | some (gs, r) => some (g :: gs, r)

/-- The header of a block at a byte position: FMT, FLAGS, LEN; none when it breaks R176. -/
def blockHead (m : Mem) (p : Nat) : Option (Nat × Nat × Nat) :=
  let fmt := Mem.load m p 1
  let fl := Mem.load m (p + 1) 1
  let len := Mem.load m (p + 4) 4
  if fmt ≤ 14 && decide (fl ≤ 3) && !(fl.testBit 0 && decide (9 < fmt)) && Mem.load m (p + 2) 2 == 0 && Mem.load m (p + 8) 8 == 0 &&
      decide (16 ≤ len) && decide (len ≤ 2 ^ 21) && len % 4 == 0 then some (fmt, fl, len)
  else none

/-- The 512 groups of a block at a byte position, n and j rising; none when it breaks R176. -/
def blockGroups (m : Mem) (p : Nat) : Option (List WGroup) :=
  match blockHead m p with
  | none => none
  | some (fmt, fl, len) =>
    match groupsFrom m fmt (fl.testBit 0) (fl.testBit 1) 512 (p + 16) with
    | none => none
    | some (gs, e) => if e ≤ p + len && decide (p + len ≤ e + 3) && Mem.load m e (p + len - e) == 0 then some gs else none

/-! ### Queueing weights (R175, R177) -/

/-- WLD (R175). -/
def execWld (x : Ops) (s : State) : Ans :=
  issue s (.wld x) x fun c s =>
    let off := c.once c.va
    let ctl := c.once c.vb
    let tl := opndBits x.dst % 8
    if 2 ^ 20 ≤ ctl then c.trap cIllegalOperand
    else if off % 4 ≠ 0 then c.trap cMisalign (BitVec.ofNat 64 (scratchBase + off))
    else c.enqueue s (some tl) fun b => ⟨0, bitsOf ctl 5 0, tl, 0, off, BitVec.ofNat 64 ctl, 0, b⟩

/-- WSEL (R177). -/
def execWsel (x : Ops) (s : State) : Ans :=
  issue s (.wsel x) x fun c s =>
    let n := c.once c.va
    if 63 < n then c.trap cIllegalOperand else c.enqueue s none fun b => ⟨1, n, 0, 0, 0, 0, 0, b⟩

/-! ### The matrix command word (R178 to R180) -/

/-- Fields of an MCW (R179). -/
structure Mcw where
  spl : Nat
  keep : Bool
  mw : Bool
  cv : Nat
  as_ : Bool
  ovw : Bool
  nt : Nat
  d : Nat
  slot : Nat
  afmt : Nat
  astr : Nat
  m : Nat
  clean : Bool
deriving DecidableEq, Repr

/-- The fields of a command word. -/
def Mcw.of (w : Nat) : Mcw :=
  { spl := bitsOf w 63 48, keep := w.testBit 45, mw := w.testBit 44, cv := bitsOf w 43 42, as_ := w.testBit 41, ovw := w.testBit 40,
    nt := bitsOf w 39 38 + 1, d := bitsOf w 37 34 + 1, slot := bitsOf w 33 28, afmt := bitsOf w 27 24, astr := bitsOf w 23 8,
    m := bitsOf w 7 0, clean := bitsOf w 47 46 == 0 }

/-- Tile width of a command (R180). -/
def Mcw.width (c : Mcw) (moment : Bool) : Nat := if moment || c.afmt == 13 then 2 else 1

/-- The checks of R180 in their order: the cause and the address of the first that fails. -/
def mcwFault (alloc : Nat) (c : Mcw) (aoff tile : Nat) (moment : Bool) : Option (Nat × DWord) :=
  let w := c.width moment
  let bad := !c.clean || c.m == 0 || decide (128 < c.m) ||
    (if moment then c.afmt != 14 || decide (1 < c.cv) || (c.cv == 1 && c.mw) else decide (13 < c.afmt) || c.mw || c.cv != 0) ||
    (c.as_ && decide (9 < c.afmt)) || (c.keep && (decide (1 < c.d) || decide (1 < c.nt))) || (w == 2 && tile % 2 == 1) ||
    decide (16 < tile + w * c.nt) || (!c.keep && decide (64 < c.slot + c.nt * c.d))
  let alen := 4 * c.astr * (c.m - 1) + c.d * matRow c.afmt
  let slen := 40 * ((4 * c.d * c.m + 15) / 16)
  if bad then some (cIllegalOperand, 0)
  else if aoff % 4 ≠ 0 then some (cMisalign, BitVec.ofNat 64 (scratchBase + aoff))
  else if !rangeIn alloc aoff alen then some (cExtentRange, scratchRangeAddr alloc aoff)
  else if c.as_ && !rangeIn alloc (8 * c.spl) slen then some (cExtentRange, scratchRangeAddr alloc (8 * c.spl))
  else none

/-- MMA and MMAM at issue (R178 to R180). -/
def Ctx.mma (c : Ctx) (s : State) (moment : Bool) : Res :=
  let aoff := c.once c.va
  let w := c.once c.vb
  let tile := opndBits c.x.dst % 256
  let tl := opndBits c.x.c.opnd % 8
  match mcwFault (c.scratchBytes s) (Mcw.of w) aoff tile moment with
  | some (cause, a) => c.trap cause a
  | none => c.enqueue s (some tl) fun b => ⟨if moment then 3 else 2, tile, tl, 0, aoff, BitVec.ofNat 64 w, 0, b⟩

/-- MMA (R180). -/
def execMma (x : Ops) (s : State) : Ans := issue s (.mma x) x fun c s => c.mma s false

/-- MMAM (R180). -/
def execMmam (x : Ops) (s : State) : Ans := issue s (.mmam x) x fun c s => c.mma s true

/-- ACLR (R184). -/
def execAclr (x : Ops) (s : State) : Ans :=
  issue s (.aclr x) x fun c s =>
    let tile := opndBits x.dst % 256
    let n := x.sb 3 0 + 1
    if 16 < tile + n then c.trap cIllegalOperand else c.enqueue s none fun b => ⟨4, tile, 0, n, 0, 0, 0, b⟩

/-! ### Sums (R181, R182, R328 to R331) -/

/-- The exact product of values, a NaN for a NaN operand or 0 x ∞. -/
def mulNan (a b : Val) : Val := if a.isNan || b.isNan then .canonical else (mulVal a b).val

/-- The exact sum of values, a NaN for a NaN operand or ∞ − ∞. -/
def addNan (a b : Val) : Val := if a.isNan || b.isNan then .canonical else (sumVal .rne a b).val

/-- A term truncated towards zero to units of 2^u. -/
def truncTo (u : Int) (v : Val) : Int :=
  match v with
  | .fin s n ex _ =>
    let k := ex - u
    let q := n * 2 ^ k.toNat / 2 ^ (-k).toNat
    if s then -(q : Int) else q
  | _ => 0

/-- A shift right with truncation of the magnitude. -/
def shiftTo0 (x : Int) (k : Nat) : Int := if x < 0 then -((x.natAbs / 2 ^ k : Nat) : Int) else ((x.natAbs / 2 ^ k : Nat) : Int)

/-- What has been taken of an element's terms: marks, anchor and sum (R330). -/
structure Pacc where
  nan : Bool
  pinf : Bool
  ninf : Bool
  anch : Int
  sum : Int
deriving DecidableEq, Repr

/-- The partial sum that holds nothing. -/
def Pacc.zero : Pacc := ⟨false, false, false, 0, 0⟩

/-- An entry of the save image read as a float pass's partial sum (R330). -/
def Pacc.ofNat (n : Nat) : Pacc := ⟨n.testBit 63, n.testBit 62, n.testBit 61, sext (bitsOf n 59 48) 12, sext (n % 2 ^ 48) 48⟩

/-- The largest exponent of the finite nonzero terms. -/
def topExp (ts : List Val) : Option Int :=
  ts.foldl (fun m t =>
    if t.isNan || t.isInf || t.isZero then m
    else match m with
      | some e => some (max e t.exponent)
      | none => some t.exponent) none

/-- A partial sum as an entry of the save image (R330). -/
def Pacc.toNat (p : Pacc) : Nat :=
  bitNat p.nan * 2 ^ 63 + bitNat p.pinf * 2 ^ 62 + bitNat p.ninf * 2 ^ 61 + wrapNat p.anch 12 * 2 ^ 48 + wrapNat p.sum 48

/-- Terms added to what has been taken (R328 steps 2 and 3, R331). -/
def Pacc.add (p : Pacc) (ts : List Val) : Pacc :=
  let p : Pacc := { p with nan := p.nan || ts.any Val.isNan, pinf := p.pinf || ts.any fun t => t.isInf && !t.neg,
                           ninf := p.ninf || ts.any fun t => t.isInf && t.neg }
  match topExp ts with
  | none => p
  | some er =>
    let e := if p.sum = 0 then er else max p.anch er
    let old := shiftTo0 p.sum (e - p.anch).toNat
    { p with anch := e, sum := ts.foldl (fun a t => if t.isNan || t.isInf then a else a + truncTo (e - 39) t) old }

/-- acc of a float pass into binary32: the element's previous value and what was taken (R181, R328 step 4). -/
def Pacc.into (p : Pacc) (x : Val) : Nat :=
  let f := Fm.f32
  let pi := p.pinf || (x.isInf && !x.neg)
  let ni := p.ninf || (x.isInf && x.neg)
  if p.nan || x.isNan || (pi && ni) then f.qnan
  else if pi then f.infCode
  else if ni then f.signed true f.infCode
  else (roundVal f .rne false (addNan x ((Dy.mk p.sum (p.anch - 39)).val false))).code

/-- acc of an FP64 pass: one rounding of the exact sum (R181). -/
def accF64 (x : Val) (ts : List Val) : Nat :=
  let v := ts.foldl addNan x
  let v := if ts.any Val.isNan then Val.canonical else v
  if v.isNan then Fm.f64.qnan else (roundVal .f64 .rne false v).code

/-- The latched weights in use: format, whether the groups carry scales, and the groups. -/
structure Weights where
  fmt : Nat
  scaled : Bool
  groups : Array WGroup

/-- Weight W[k][n] in its format, and its scale as a value. -/
def Weights.at_ (w : Weights) (k n : Nat) : Nat × Val :=
  let g := w.groups.getD (4 * n + k / 32) ⟨0x3F800, []⟩
  (g.codes.getD (k % 32) 0, s20Val g.scale)

/-- The weights that a latch holds. -/
def Latch.weights (l : Latch) : Option Weights :=
  (blockGroups l.block 0).map fun gs => ⟨l.fmt, (Mem.load l.block 1 1).testBit 0, gs.toArray⟩

/-- Element k of depth block d of activation row m (R181). -/
def actBits (mem : Mem) (aoff : Nat) (c : Mcw) (m d k : Nat) : Nat :=
  streamCode mem (aoff + 4 * c.astr * m + d * matRow c.afmt) (matBits c.afmt) k

/-- Scale i of the plane at a byte (R326). -/
def planeScale (mem : Mem) (base i : Nat) : Nat := streamCode mem (base + 40 * (i / 16)) 20 (i % 16)

/-- The scale of an activation: its plane's, or 1. -/
def actScale (mem : Mem) (c : Mcw) (m d k : Nat) : Val :=
  if c.as_ then s20Val (planeScale mem (8 * c.spl) (m * 4 * c.d + 4 * d + k / 32)) else Val.ofInt 1

/-- Pairings that R181 accepts. -/
def fmixOk (c : Mcw) (moment : Bool) (wf : Nat) : Bool :=
  if moment then (if c.mw then wf == 14 else decide (wf ≤ 12))
  else if c.afmt = 13 then wf == 13 else decide (wf ≤ 12)

/-- The terms that an element takes: integers of an integer pass, values of a float or FP64 pass, or those of the mean and of the variance. -/
inductive Terms where
  | ints (ts : List Int)
  | floats (ts : List Val)
  | wide (ts : List Val)
  | moments (ms vs : List Val)

/-- Terms k of the list of one element, with depth block d of row m and column n (R181, R182). A source variance that is NaN or negative makes
its term NaN in both halves. -/
def passTerms (mem : Mem) (cmd : MCmd) (c : Mcw) (moment : Bool) (w : Weights) (row d n : Nat) (ks : List Nat) : Terms :=
  let act (k : Nat) : Nat := actBits mem cmd.aoff c row d k
  if moment then
    let terms := ks.map fun k =>
      let a := act k
      let mu := Fm.bf16.decode (a % 2 ^ 16)
      let va := Fm.bf16.decode (a / 2 ^ 16)
      let wk := w.at_ k n
      if va.isNan || (va.neg && !va.isZero) then (Val.canonical, Val.canonical)
      else if c.mw then
        let mw := Fm.bf16.decode (wk.1 % 2 ^ 16)
        let vw := Fm.bf16.decode (wk.1 / 2 ^ 16)
        (mulNan mu mw, addNan (addNan (mulNan (mulNan mu mu) vw) (mulNan (mulNan mw mw) va)) (mulNan va vw))
      else
        let wv := mulNan (matVal w.fmt wk.1) wk.2
        let sd : Val := if c.cv = 1 then Fm.f32.decode (roundVal .f32 .rne false (fpSqrt va).val).code else va
        (mulNan mu wv, if c.cv = 1 then mulNan wv sd else mulNan va (mulNan wv wv))
    .moments (terms.map Prod.fst) (terms.map Prod.snd)
  else if matInt c.afmt && matInt w.fmt && !c.as_ && !w.scaled then
    let v (f b : Nat) : Int := match matVal f b with | .fin s m e _ => (if s then -(m : Int) else m) * 2 ^ e.toNat | _ => 0
    .ints (ks.map fun k => v c.afmt (act k) * v w.fmt (w.at_ k n).1)
  else
    let terms := ks.map fun k =>
      let wk := w.at_ k n
      mulNan (mulNan (matVal c.afmt (act k)) (actScale mem c row d k)) (mulNan (matVal w.fmt wk.1) wk.2)
    if c.afmt = 13 then .wide terms else .floats terms

/-- What has been taken of an element's terms, as entries of the save image (R330). -/
def Terms.partial_ (p0 p1 : DWord) : Terms → DWord × DWord
  | .ints ts => (BitVec.ofNat 64 (wrapNat ((p0.toNat : Int) + ts.foldl (· + ·) 0) 32), 0)
  | .floats ts => (BitVec.ofNat 64 ((Pacc.ofNat p0.toNat).add ts).toNat, 0)
  | .wide _ => (0, 0)
  | .moments ms vs => (BitVec.ofNat 64 ((Pacc.ofNat p0.toNat).add ms).toNat, BitVec.ofNat 64 ((Pacc.ofNat p1.toNat).add vs).toNat)

/-- acc(): the new words of an element's tile, or of its pair of tiles, from its old ones and what was taken before (R181, R182, R331). -/
def Terms.into (p0 p1 : DWord) (x0 x1 : Nat) : Terms → Nat × Option Nat
  | .ints ts => (wrapNat ((x0 : Int) + (p0.toNat % 2 ^ 32 : Nat) + ts.foldl (· + ·) 0) 32, none)
  | .floats ts => (((Pacc.ofNat p0.toNat).add ts).into (Fm.f32.decode x0), none)
  | .wide ts =>
    let y := accF64 (Fm.f64.decode (x0 + 2 ^ 32 * x1)) ts
    (y % 2 ^ 32, some (y / 2 ^ 32))
  | .moments ms vs =>
    (((Pacc.ofNat p0.toNat).add ms).into (Fm.f32.decode x0), some (((Pacc.ofNat p1.toNat).add vs).into (Fm.f32.decode x1)))

/-- Terms from one on, up to another. -/
def termRange (lo hi : Nat) : List Nat := (List.range hi).filter fun k => decide (lo ≤ k)

/-- Half cycles per row of a format (R174). -/
def matHalves (f : Nat) : Nat :=
  if f ≤ 4 then 2 else if f ≤ 9 then 1 else if f ≤ 11 then 4 else if f = 13 then 256 else 16

/-- Half cycles per row of a pass: those of the slower format (R174). -/
def passHalves (c : Mcw) (wf : Nat) : Nat := max (matHalves c.afmt) (matHalves wf)

/-- Terms of a row that a pass takes in each cycle (R340): all where a stop comes only at a row's end. -/
def passTaken (c : Mcw) (wf : Nat) : Nat := if c.afmt = 13 then 128 else min 128 (256 / passHalves c wf)

/-- Byte of element (m, n) of a tile (R338). -/
def tileByte (tile m n : Nat) : Nat := tile * 65536 + (m * 128 + n) * 4

/-- One row of a pass (R181). -/
def passRow (mem : Mem) (a : Arr) (f : Flight) (c : Mcw) (moment : Bool) (w : Weights) : Mem :=
  let width := c.width moment
  let t := f.cmd.tile + width * f.col
  let fresh := c.ovw && f.dep == 0
  (List.range 128).foldl (fun (tiles : Mem) n =>
    let x0 := if fresh then 0 else Mem.load a.tiles (tileByte t f.row n) 4
    let x1 := if fresh || width == 1 then 0 else Mem.load a.tiles (tileByte (t + 1) f.row n) 4
    let y := (passTerms mem f.cmd c moment w f.row f.dep n (termRange f.kpos 128)).into (f.pacc.getD n 0) (f.pacc.getD (128 + n) 0) x0 x1
    let tiles := Mem.store tiles (tileByte t f.row n) y.1 4
    match y.2 with
    | some v => Mem.store tiles (tileByte (t + 1) f.row n) v 4
    | none => tiles) a.tiles

/-- A flight stopped within a row: KPOS and PACC hold what has been taken of it (R330, R340). -/
def Flight.stopped (f : Flight) (mem : Mem) (w : Option Weights) : Flight :=
  match f.taken, w with
  | 0, _ => f
  | _, none => { f with taken := 0 }
  | n, some w =>
    let c := Mcw.of f.cmd.w0.toNat
    let sums := (List.range 128).map fun j =>
      (passTerms mem f.cmd c (f.cmd.op == 3) w f.row f.dep j (termRange f.kpos (f.kpos + n))).partial_ (f.pacc.getD j 0) (f.pacc.getD (128 + j) 0)
    { f with kpos := f.kpos + n, taken := 0, pacc := sums.map Prod.fst ++ sums.map Prod.snd }

/-- The loop nest's next point after a row (R181): row fastest, then depth, then column. -/
def Flight.step (f : Flight) (c : Mcw) : Flight :=
  let f := { f with kpos := 0, pacc := [], taken := 0 }
  if f.row + 1 < c.m then { f with row := f.row + 1 }
  else if f.dep + 1 < c.d then { f with row := 0, dep := f.dep + 1 }
  else if f.col + 1 < c.nt then { f with row := 0, dep := 0, col := f.col + 1 }
  else { f with finished := true }

/-! ### The steps that execute commands -/

/-- The task that holds a core's array. One that a fault has ended still finishes the command that runs (R246). -/
def State.holderOf (s : State) (core : CoreRef) : Option (Nat × Nat × Task) :=
  match (s.core core).holder with
  | some (k, t) => (s.task? k t).bind fun u => if u.core = some core && !u.arrayDue then some (k, t, u) else none
  | none => none

/-- A command that has run whole: it stands in flight, finished, until it completes. -/
def MCmd.done (m : MCmd) : Flight := ⟨m, 0, 0, 0, 0, [], true, 0, []⟩

/-- A command at its beginning (R181, R187). -/
def MCmd.begun (m : MCmd) : Flight := ⟨m, 0, 0, 0, 0, [], false, 0, []⟩

/-- The head of the queue of an idle array, when it has one of some operations. -/
def Arr.ready (a : Arr) (ops : List Nat) : Option (MCmd × List MCmd) :=
  match a.flight, a.queue with
  | none, m :: rest => if ops.contains m.op then some (m, rest) else none
  | _, _ => none

/-- Matrix commands of a task below a number are outstanding (R194, R197). -/
def Task.matrixBusy (t : Task) (below : Nat) : Bool :=
  t.arr.queue.any (fun m => decide (m.by_.seq < below)) || (t.arr.flight.map fun f => decide (f.cmd.by_.seq < below)).getD false

/-- ENGINE_FAULT with a detail of R173. -/
def State.matrixFault (s : State) (chip task : Nat) (m : MCmd) (detail : Nat) (addr : DWord) : State :=
  (s.engineFault chip task m.by_ { cause := cEngineFault, detail, lanes := m.by_.lanes, addr }).updArr chip task fun a => { a with flight := none, queue := [] }

/-- The address of a command's scratchpad operand. -/
def MCmd.addr (m : MCmd) : DWord := BitVec.ofNat 64 (scratchBase + m.aoff)

/-- Slots of two ranges in 128-byte units overlap. -/
def WSlot.meets (a b : WSlot) : Bool := decide (a.woff < b.woff + b.units) && decide (b.woff < a.woff + a.units)

/-- WLD_EXECUTE (R175). -/
def execWldExecute (core : CoreRef) (s : State) : Ans :=
  match s.holderOf core with
  | none => notEnabled s
  | some (k, t, u) =>
    match u.arr.ready [0] with
    | none => notEnabled s
    | some (m, rest) =>
      let alloc := u.scrp * 2048
      let woff := bitsOf m.w0.toNat 19 6
      let fail (d : Nat) : Ans := .next (s.matrixFault k t m d m.addr)
      if !rangeIn alloc m.aoff 16 then fail 3
      else
        match blockHead u.scratch m.aoff with
        | none => fail 2
        | some (fmt, _, len) =>
          if !rangeIn alloc m.aoff len || decide (2 ^ 21 < 128 * woff + len) then fail 3
          else if (blockGroups u.scratch m.aoff).isNone then fail 2
          else
            let slot : WSlot := ⟨woff, (len + 127) / 128, fmt⟩
            .next (s.updArr k t fun a =>
              { a with wbuf := Mem.paste a.wbuf (128 * woff) len (Mem.slice u.scratch m.aoff len),
                       slots := Tab.put (a.slots.filter fun e => !(e.2.meets slot)) m.tile slot,
                       queue := rest, flight := some m.done })

/-- The latch of a valid slot (R177). -/
def Arr.latchSlot (a : Arr) (n : Nat) : Option Latch :=
  (Tab.find a.slots n).map fun e => ⟨n, e.fmt, Mem.slice a.wbuf (128 * e.woff) (128 * e.units)⟩

/-- WSEL_LATCH (R177). -/
def execWselLatch (core : CoreRef) (s : State) : Ans :=
  match s.holderOf core with
  | none => notEnabled s
  | some (k, t, u) =>
    match u.arr.ready [1] with
    | none => notEnabled s
    | some (m, rest) =>
      match u.arr.latchSlot m.tile with
      | none => .next (s.matrixFault k t m 1 0)
      | some l => .next (s.updArr k t fun a => { a with latch := some l, queue := rest, flight := some m.done })

/-- ACLR_EXECUTE (R184). -/
def execAclrExecute (core : CoreRef) (s : State) : Ans :=
  match s.holderOf core with
  | none => notEnabled s
  | some (k, t, u) =>
    match u.arr.ready [4] with
    | none => notEnabled s
    | some (m, rest) =>
      .next (s.updArr k t fun a =>
        { a with tiles := Mem.clear a.tiles (65536 * m.tile) (65536 * m.count), queue := rest, flight := some m.done })

/-- The first fault among the passes of a command from its present one on, as a detail code: a failing command writes nothing, so that its later
passes are looked at too (R173, R181). -/
def Arr.passFault (a : Arr) (f : Flight) : Option Nat :=
  let c := Mcw.of f.cmd.w0.toNat
  let moment := f.cmd.op == 3
  if c.keep then
    match a.latch with
    | none => some 7
    | some l => if !fmixOk c moment l.fmt then some 4 else if l.weights.isNone then some 2 else none
  else
    (termRange (f.col * c.d + f.dep) (c.nt * c.d)).findSome? fun k =>
      match a.latchSlot (c.slot + k) with
      | none => some 1
      | some l => if !fmixOk c moment l.fmt then some 4 else if l.weights.isNone then some 2 else none

/-- The latch of the pass at which a flight stands (R177, R181, R194): its slot is loaded when the pass begins. -/
def Arr.passLatch (a : Arr) (f : Flight) : Option Latch :=
  let c := Mcw.of f.cmd.w0.toNat
  let slot := c.slot + f.col * c.d + f.dep
  if !c.keep && ((f.row == 0 && f.kpos == 0 && f.taken == 0) || (a.latch.map Latch.slot) != some slot) then a.latchSlot slot else a.latch

/-- Row ROW of a pass is finished: its elements stand in the tiles, and the loop nest goes on (R181). -/
def Arr.endRow (a : Arr) (mem : Mem) (f : Flight) (c : Mcw) (w : Weights) : Arr × Flight :=
  let a := { a with tiles := passRow mem a f c (f.cmd.op == 3) w }
  (a, f.step c)

/-- One cycle's terms, or one row, or the two rows that a pass at half a cycle each takes together, of the pass at which a flight stands, with
its latch (R177, R181, R340); or the detail code of the fault. -/
def Task.runRow (u : Task) (a : Arr) (f : Flight) : Except Nat Arr :=
  let c := Mcw.of f.cmd.w0.toNat
  match a.passFault f with
  | some d => .error d
  | none =>
    match a.passLatch f with
    | none => .error (if c.keep then 7 else 1)
    | some l =>
      match l.weights with
      | none => .error 2
      | some w =>
        let a := { a with latch := some l }
        let n := passTaken c l.fmt
        if f.kpos + f.taken + n < 128 then .ok { a with flight := some { f with taken := f.taken + n } }
        else
          let r := a.endRow u.scratch f c w
          let r := if passHalves c l.fmt = 1 && f.row % 2 = 0 && decide (f.row + 1 < c.m) then r.1.endRow u.scratch r.2 c w else r
          .ok { r.1 with flight := some r.2 }

/-- The array as a stop leaves it (R192, R340, R341): a pass stands at its term or row with its partial sums, and an idle array whose queue is
full has begun the first command. -/
def Task.stopArr (u : Task) : Arr :=
  let a := u.arr
  match a.flight, a.queue with
  | some f, _ => { a with flight := some (f.stopped u.scratch ((a.passLatch f).bind Latch.weights)) }
  | none, m :: rest => if 15 < a.queue.length then { a with flight := some m.begun, queue := rest } else a
  | none, [] => a

/-- The array can be stopped now (R192): no WLD, latch, clear or program load is under way, nor stands first in a full queue. -/
def Arr.mayStop (a : Arr) : Bool :=
  match a.flight, a.queue with
  | some f, _ => !f.finished
  | none, m :: _ => a.queue.length ≤ 15 || m.op == 2 || m.op == 3 || m.op == 5
  | none, [] => true

/-- MMA_PASS (R181): one row, or a cycle within it, of the pass of an MMA or MMAM; the first takes the command from the queue. -/
def execMmaPass (core : CoreRef) (s : State) : Ans :=
  match s.holderOf core with
  | none => notEnabled s
  | some (k, t, u) =>
    let at_ : Option (Flight × List MCmd) :=
      match u.arr.flight with
      | some f => if (f.cmd.op == 2 || f.cmd.op == 3) && !f.finished then some (f, u.arr.queue) else none
      | none => (u.arr.ready [2, 3]).map fun (m, rest) => (m.begun, rest)
    match at_ with
    | none => notEnabled s
    | some (f, rest) =>
      match u.runRow { u.arr with queue := rest } f with
      | .error d => .next (s.matrixFault k t f.cmd d f.cmd.addr)
      | .ok a => .next (s.updArr k t fun _ => a)

/-- A command names a counter (R161). -/
def MCmd.counts (m : MCmd) : Bool := m.op == 0 || m.op == 2 || m.op == 3 || m.op == 5

/-- MATRIX_COMMAND_COMPLETE (R161, R181). -/
def execMatrixCommandComplete (core : CoreRef) (s : State) : Ans :=
  match s.holderOf core with
  | none => notEnabled s
  | some (k, t, u) =>
    match u.arr.flight with
    | some f =>
      if f.finished then
        let s := s.updArr k t fun a => { a with flight := none }
        let s := if f.cmd.counts then s.finishOp k t f.cmd.tl f.cmd.by_ else s
        .next (s.updChip k fun c => { c with hb := c.hb.carry (keyQ t 1) f.cmd.by_.result })
      else notEnabled s
    | none => notEnabled s

end Sys2Proof.Machine
end

