-- ==== Sys2Proof/Machine/Drain.lean ====
section
/-! DEFINITION. The epilogue program and drains, and the saving and resuming of the array (R185 to R194, R339 to R341, R348). -/

namespace Sys2Proof.Machine

/-! ### Epilogue instructions (R188, R189) -/

/-- Fields of an epilogue word (R188). -/
structure EIns where
  op : Nat
  d : Nat
  a : Nat
  b : Nat
  c : Nat
  imm : Nat
deriving DecidableEq, Repr

def EIns.of (w : Nat) : EIns := ⟨bitsOf w 31 27, bitsOf w 26 24, bitsOf w 23 20, bitsOf w 19 16, bitsOf w 15 12, bitsOf w 11 0⟩

/-- How many of the sources EA, EB, EC an instruction uses. -/
def EIns.sources (e : EIns) : Nat :=
  match e.op with
  | 0 | 1 | 3 | 4 | 10 => 2
  | 2 | 7 | 14 => 3
  | 5 | 6 | 8 | 9 | 11 | 12 => 1
  | 13 => if e.imm % 8 = 5 || e.imm % 8 = 6 then 2 else 1
  | _ => 0

/-- The largest value of EIMM that an instruction's own use allows. -/
def EIns.immTop (e : EIns) : Nat :=
  match e.op with
  | 8 => 63
  | 9 | 10 | 12 => 15
  | 11 | 13 => 7
  | _ => 0

/-- An epilogue word that R188 permits. -/
def EIns.ok (e : EIns) : Bool :=
  let n := e.sources
  let used := [e.a, e.b, e.c].take n
  let k := used.contains 14
  decide (e.op ≤ 15) && ([e.a, e.b, e.c].drop n).all (· == 15) &&
    (if k then e.immTop == 0 else decide (e.imm ≤ e.immTop)) && !((e.op == 13 || e.op == 15) && e.d != 0) &&
    !((e.op == 9 || e.op == 10) && !(decide (4 ≤ e.imm) && decide (e.imm ≤ 10))) &&
    !(e.op == 12 && (e.imm == 1 || decide (10 < e.imm))) && !(e.op == 11 && decide (4 < e.imm))

/-- The words that EPLD loads: up to and including EEND (R185); none where there is no EEND or a word is not permitted. -/
def programOf : List Word → Option (List Word)
  | [] => none
  | w :: ws =>
    let e := EIns.of w.toNat
    if !e.ok then none else if e.op = 15 then some [w] else (programOf ws).map (w :: ·)

/-- Words that EPLD loads: up to and including an EEND, or 32 (R185). -/
def loadedWords (ws : List Word) : Nat := min 32 (((ws.findIdx? fun w => (EIns.of w.toNat).op == 15).map (· + 1)).getD 32)

/-- The 128 bytes at an image offset that EPLD is checked over lie in extent slot 0 (R185). -/
def Task.epldReach (t : Task) (chip off : Nat) : Bool :=
  (List.range 128).all fun k => (extentPlace chip (t.extents.take 1) .read ((t.image.toNat + off) % 2 ^ 64 + k)).isSome

/-- EPLD at issue (R185): an image offset checked as LDC is, over 128 bytes. -/
def execEpld (x : Ops) (s : State) : Ans :=
  issue s (.epld x) x fun c s =>
    let off := c.once c.va
    match c.ownTask s with
    | none => c.trap cIllegalEncoding
    | some (chip, _, t) =>
      let a := (t.image.toNat + off) % 2 ^ 64
      if off % 64 ≠ 0 then c.trap cMisalign (BitVec.ofNat 64 a)
      else if !t.epldReach chip off then
        c.trap cExtent (BitVec.ofNat 64 a)
      else c.enqueue s none fun b => ⟨6, 0, 0, 0, off, 0, 0, b⟩

/-- EPLD_LOAD (R185). -/
def execEpldLoad (core : CoreRef) (s : State) : Ans :=
  match s.holderOf core with
  | none => notEnabled s
  | some (k, t, u) =>
    match u.arr.ready [6] with
    | none => notEnabled s
    | some (m, rest) =>
      let a := (u.image.toNat + m.aoff) % 2 ^ 64
      let all := (List.range 128).filterMap fun j => extentPlace k (u.extents.take 1) .read (a + j)
      let bs := s.bytesAt all
      let ws : List Word := (List.range 32).map fun j => BitVec.ofNat 32 (field bs (4 * j) 4)
      let ps := all.take (4 * loadedWords ws)
      match s.engineRace k t m.by_ false a ps with
      | some r => .next ((s.engineFault k t m.by_ r).updArr k t fun a => { a with flight := none, queue := [] })
      | none =>
        match programOf ws with
        | none => .next (s.matrixFault k t m 5 (BitVec.ofNat 64 a))
        | some p =>
          .next ((s.noteAccess (s.engineActor k t m.by_) false false ps).updArr k t fun a =>
            { a with eprog := some p, queue := rest, flight := some m.done })

/-! ### Drain words (R186) -/

/-- Fields of the two drain words. -/
structure Dw where
  o1 : Nat
  os : Nat
  o0 : Nat
  m : Nat
  sqv : Bool
  kind : Nat
  clr : Bool
  ep : Bool
  tl : Nat
  cvb : Nat
  clean : Bool
deriving DecidableEq, Repr

def Dw.of (w0 w1 : Nat) : Dw :=
  { o1 := bitsOf w0 61 43, os := bitsOf w0 42 27, o0 := bitsOf w0 26 8, m := bitsOf w0 7 0, sqv := w1.testBit 26,
    kind := bitsOf w1 25 24, clr := w1.testBit 23, ep := w1.testBit 22, tl := bitsOf w1 21 19, cvb := bitsOf w1 18 0,
    clean := bitsOf w0 63 62 == 0 && bitsOf w1 63 27 == 0 }

/-- The checks of R186 in order. -/
def Dw.fault (alloc : Nat) (d : Dw) (tile : Nat) : Option (Nat × DWord) :=
  let b := if 2 ≤ d.kind then 1024 else 512
  if !d.clean || d.m == 0 || decide (128 < d.m) || (d.sqv && d.kind != 3) || (decide (2 ≤ d.kind) && tile % 2 == 1) then
    some (cIllegalOperand, 0)
  else if d.o0 % 4 ≠ 0 then some (cMisalign, BitVec.ofNat 64 (scratchBase + d.o0))
  else if d.os % 4 ≠ 0 then some (cMisalign, BitVec.ofNat 64 (scratchBase + d.o0))
  else if d.cvb % 4 ≠ 0 then some (cMisalign, BitVec.ofNat 64 (scratchBase + d.cvb))
  else if !d.ep && !rangeIn alloc d.o0 (d.os * (d.m - 1) + b) then some (cExtentRange, scratchRangeAddr alloc d.o0)
  else if d.ep && !rangeIn alloc d.cvb 2048 then some (cExtentRange, scratchRangeAddr alloc d.cvb)
  else none

/-- ADRN at issue (R186). Bytes 4 to 7 of its queue entry hold O0 (log entry 126). -/
def execAdrn (x : Ops) (s : State) : Ans :=
  issue s (.adrn x) x fun c s =>
    let w0 := c.once c.va
    let w1 := c.once c.vb
    let tile := opndBits x.dst % 256
    let d := Dw.of w0 w1
    match d.fault (c.scratchBytes s) tile with
    | some (cause, a) => c.trap cause a
    | none => c.enqueue s (some d.tl) fun b => ⟨5, tile, d.tl, 0, d.o0, BitVec.ofNat 64 w0, BitVec.ofNat 64 w1, b⟩

/-! ### One row of a drain (R187 to R191) -/

/-- Row registers e0 to e7 by column, with IN and VIN, and C0 to C3 as the drain read them when it began. -/
structure ERow where
  regs : List (List Nat)
  inp : List Nat
  vin : List Nat
  cvs : List Word

/-- C0 to C3 in scratchpad (R186, R187). -/
def Dw.vectors (d : Dw) (mem : Mem) : List Word := (List.range 512).map fun n => BitVec.ofNat 32 (Mem.load mem (d.cvb + 4 * n) 4)

/-- A source of an epilogue instruction at a column (R188). -/
def ERow.src (r : ERow) (imm code n : Nat) : Nat :=
  if code ≤ 7 then (r.regs.getD code []).getD n 0
  else if code = 8 then r.inp.getD n 0
  else if code = 9 then r.vin.getD n 0
  else if code ≤ 13 then (r.cvs.getD (128 * (code - 10) + n) 0).toNat
  else if code = 14 then imm * 2 ^ 20
  else 0

/-- A binary32 result of the epilogue processor (R190). -/
def epRound (e : Exact) : Nat := if e.val.isNan then Fm.f32.qnan else (roundVal .f32 .rne false e.val).code

/-- EGELU's exact value for a finite a (R189): 0.5a(1 + tanh u) is a / (1 + e^(−2u)). -/
def geluIv (a : Dy) : Iv :=
  let x := Iv.ofDy a
  let cube := (x.mul x).mul x
  let k : Iv := ⟨2 ^ fxBits * 44715 / 1000000, 2 ^ fxBits * 44715 / 1000000 + 1⟩
  let u := (((Iv.ofInt 2).div piIv).sqrt).mul (x.add (k.mul cube))
  x.div ((Iv.ofInt 1).add ((u.add u).neg.exp))

/-- EGELU (R189, log entry 10). -/
def egelu (a : Nat) : Nat :=
  let v := Fm.f32.decode a
  if v.isNan then Fm.f32.qnan
  else if 0 ≤ v.cmp (Val.ofInt 8) then a
  else if v.cmp (Val.ofInt (-8)) ≤ 0 then 0
  else
    let exact := (geluIv v.dy).val
    let top := if Dy.lt ⟨1, 0⟩ v.dy.abs then v.dy.abs else ⟨1, 0⟩
    let c := (Config.approx 64 (BitVec.ofNat 64 a) 0).toNat % 2 ^ 32
    let cv := Fm.f32.decode c
    let near := !cv.isNan && !cv.isInf && !(Dy.lt (Dy.mul ⟨1, -12⟩ top) (Dy.add cv.dy exact.dy.neg).abs)
    if near then c else (roundVal .f32 .rne false exact).code

/-- The quotient that EQNT codes (R189, R190). -/
def quantCode (f : Fm) (a b : Val) : Nat :=
  let q := (fpDiv a b).val
  if q.isNan then f.qnan else clampCode f 3 (roundVal f .rne false q).code

/-- The largest finite magnitude of a list of values, as a dyadic number. -/
def amaxOf (vs : List Val) : Dy := vs.foldl (fun m v => if v.isNan || v.isInf then m else if m.lt v.dy.abs then v.dy.abs else m) ⟨0, 0⟩

/-- The scale of a block as an S20 code (R189, R343). -/
def blockScale (f : Fm) (vs : List Val) : Nat := s20Up f (amaxOf vs)

/-- The value an arithmetic epilogue instruction gives a column (R189). EBLK is done by blocks. -/
def EIns.value (e : EIns) (a b c : Nat) : Nat :=
  let f := Fm.f32
  let va := f.decode a
  let vb := f.decode b
  let vc := f.decode c
  let g := (Fm.ofCode e.imm).getD .f32
  let canon (x : Nat) : Nat := if (f.decode x).isNan then f.qnan else x
  match e.op with
  | 0 => epRound (fpAdd .rne va vb)
  | 1 => epRound (fpMul va vb)
  | 2 => epRound (fpFma .rne va vb vc)
  | 3 => canon (minMax f true true a b va vb).code
  | 4 => canon (minMax f false true a b va vb).code
  | 5 => if va.isNan then f.qnan else if 0 < va.cmp (.zero false) then a else 0
  | 6 => egelu a
  | 7 =>
    if va.isNan || vb.isNan || vc.isNan then f.qnan
    else
      let m := (minMax f true true a b va vb).code
      (minMax f false true m c (f.decode m) vc).code
  | 8 => epRound ⟨va.scale (sext (e.imm % 64) 6), 0⟩
  | 10 => quantCode g va vb
  | 11 => epRound (integralOf ((Rm.ofCode e.imm).getD .rne) false va)
  | 12 => if va.isNan then (roundVal g .rne false .canonical).code else (roundVal g .rne false va).code
  | 14 => if c ≠ 0 then a else b
  | _ => 0

/-- A byte list written to scratchpad. -/
def putBits (m : Mem) (base w : Nat) (codes : List Nat) : Mem :=
  let n := codes.foldr (fun c acc => c % 2 ^ w + 2 ^ w * acc) 0
  Mem.write m base (leBytes n ((codes.length * w + 7) / 8))

/-- 20 bits of a scale plane written (R326). -/
def setScale (m : Mem) (base i code : Nat) : Mem :=
  let bit := 20 * (i % 16)
  let a := base + 40 * (i / 16) + bit / 8
  let old := Mem.load m a 4
  let sh := bit % 8
  Mem.store m a (old - bitsOf old (sh + 19) sh * 2 ^ sh + code % 2 ^ 20 * 2 ^ sh) 4

/-- ESTR (R191). -/
def estr (mem : Mem) (d : Dw) (row layout : Nat) (a b : List Nat) : Mem :=
  let at_ := d.o0 + d.os * row
  let bf (v : Nat) : Nat := let x := Fm.f32.decode v; (roundVal .bf16 .rne false (if x.isNan then .canonical else x)).code
  match layout with
  | 0 => putBits mem at_ 8 a
  | 1 => putBits mem at_ 16 a
  | 2 => putBits mem at_ 32 a
  | 3 => putBits mem at_ 4 a
  | 4 => putBits mem at_ 6 a
  | 5 => putBits mem at_ 32 ((a.zip b).map fun p => bf p.1 + 2 ^ 16 * bf p.2)
  | 6 => putBits mem at_ 64 ((a.zip b).map fun p => p.1 + 2 ^ 32 * p.2)
  | _ => (List.range 4).foldl (fun m j => setScale m d.o1 (4 * row + j) (s20Round (Fm.f32.decode (a.getD (32 * j) 0)))) mem

/-- Bytes of an ESTR layout at the main output (R191). -/
def estrBytes : Nat → Nat
  | 0 => 128 | 1 => 256 | 2 => 512 | 3 => 64 | 4 => 96 | 5 => 512 | 6 => 1024 | _ => 0

/-- The columns. -/
def columns : List Nat := List.range 128

/-- The program run on a row. -/
def runProgram (d : Dw) (row : Nat) : List Word → ERow → Mem → Mem
  | [], _, mem => mem
  | w :: ws, r, mem =>
    let e := EIns.of w.toNat
    if e.op = 15 then mem
    else if e.op = 13 then
      runProgram d row ws r (estr mem d row (e.imm % 8) (columns.map (r.src e.imm e.a)) (columns.map (r.src e.imm e.b)))
    else
      let a := columns.map (r.src e.imm e.a)
      let vals :=
        if e.op = 9 then
          let f := (Fm.ofCode e.imm).getD .f32
          columns.map fun n => blockScale f (((a.drop (n / 32 * 32)).take 32).map Fm.f32.decode) * 2 ^ 12
        else columns.map fun n => e.value (a.getD n 0) (r.src e.imm e.b n) (r.src e.imm e.c n)
      runProgram d row ws { r with regs := r.regs.set e.d vals } mem

/-- IN and VIN of a row, with the column vectors (R187). -/
def drainRow (a : Arr) (d : Dw) (cvs : List Word) (tile row : Nat) : ERow :=
  let w (t n : Nat) : Nat := Mem.load a.tiles (tileByte t row n) 4
  let sq (v : Nat) : Nat := let x := Fm.f32.decode v; epRound (fpMul x x)
  { regs := List.replicate 8 []
    inp := columns.map fun n =>
      match d.kind with
      | 1 => (roundVal .f32 .rne false (Val.ofInt (sext (w tile n) 32))).code
      | 2 => epRound ⟨Fm.f64.decode (w tile n + 2 ^ 32 * w (tile + 1) n), 0⟩
      | _ => w tile n
    vin := columns.map fun n => if d.kind = 3 then (if d.sqv then sq (w (tile + 1) n) else w (tile + 1) n) else 0
    cvs }

/-- A row stored without a program (R187). -/
def plainRow (a : Arr) (d : Dw) (tile row : Nat) (mem : Mem) : Mem :=
  let w (t n : Nat) : Nat := Mem.load a.tiles (tileByte t row n) 4
  let at_ := d.o0 + d.os * row
  if 2 ≤ d.kind then
    let hi := if d.kind = 3 then (drainRow a d [] tile row).vin else columns.map (w (tile + 1))
    putBits mem at_ 64 (columns.map fun n => w tile n + 2 ^ 32 * hi.getD n 0)
  else putBits mem at_ 32 (columns.map (w tile))

/-- The checks a drain with a program makes before it writes (R187): the detail that fails. -/
def drainCheck (alloc : Nat) (a : Arr) (d : Dw) : Option Nat :=
  if !d.ep then none
  else
    match a.eprog with
    | none => some 5
    | some p =>
      let ls := (p.map fun w => EIns.of w.toNat).filter fun e => e.op == 13
      let big := ls.foldl (fun m e => max m (estrBytes (e.imm % 8))) 0
      let scale := ls.any fun e => e.imm % 8 == 7
      if !rangeIn alloc d.o0 (d.os * (d.m - 1) + big) then some 6
      else if scale && !rangeIn alloc d.o1 (40 * ((4 * d.m + 15) / 16)) then some 6
      else none

/-- DRAIN (R187): one row; the first takes the command from the queue, reads C0 to C3 and makes its checks. A drain that MRES has placed reads
them anew. -/
def execDrain (core : CoreRef) (s : State) : Ans :=
  match s.holderOf core with
  | none => notEnabled s
  | some (k, t, u) =>
    let at_ : Option (Flight × List MCmd) :=
      match u.arr.flight with
      | some f => if f.cmd.op == 5 && !f.finished then some (f, u.arr.queue) else none
      | none => (u.arr.ready [5]).map fun (m, rest) => (m.begun, rest)
    match at_ with
    | none => notEnabled s
    | some (f, rest) =>
      let d := Dw.of f.cmd.w0.toNat f.cmd.w1.toNat
      match drainCheck (u.scrp * 2048) u.arr d with
      | some n => .next (s.matrixFault k t f.cmd n f.cmd.addr)
      | none =>
        let cvs := if d.ep && f.cvs.isEmpty then d.vectors u.scratch else f.cvs
        let mem := if d.ep then runProgram d f.row (u.arr.eprog.getD []) (drainRow u.arr d cvs f.cmd.tile f.row) u.scratch
          else plainRow u.arr d f.cmd.tile f.row u.scratch
        let last := decide (d.m ≤ f.row + 1)
        let n := if 2 ≤ d.kind then 2 else 1
        .next (s.updTask k t fun v =>
          { v with scratch := mem,
                   arr := { u.arr with queue := rest, flight := some { f with row := f.row + 1, finished := last, cvs },
                                       tiles := if last && d.clr then Mem.clear u.arr.tiles (65536 * f.cmd.tile) (65536 * n) else u.arr.tiles } })

/-! ### The save image (R192 to R194, R340) -/

/-- A queue entry of 32 bytes (R193). Bytes 4 to 7 hold AOFF, the slot of WSEL, or O0 of ADRN, whose SA word is the first drain word's at 8 to 15 (log
entry 126). -/
def MCmd.bytes (m : MCmd) : List Byte :=
  let aoff := if m.op = 1 then m.tile else m.aoff
  le 1 m.op ++ le 1 m.tile ++ le 1 m.tl ++ le 1 m.count ++ le 4 aoff ++ le 8 m.w0.toNat ++ le 8 m.w1.toNat ++ le 8 m.by_.pc.toNat

/-- The array image of 4,096 bytes (R193). -/
def Arr.image (a : Arr) : List Byte :=
  let f := a.flight
  let g (p : Flight → Nat) : Nat := (f.map p).getD 0
  le 4 0x4D580001 ++ le 4 ((if f.isSome then 1 else 0) + (if a.eprog.isSome then 2 else 0)) ++ le 2 (g Flight.row) ++ le 1 (g Flight.dep) ++
  le 1 (g Flight.col) ++ le 2 (g Flight.kpos) ++ le 1 ((a.latch.map Latch.slot).getD 255) ++ le 1 a.queue.length ++
  ((f.map fun x => x.cmd.bytes).getD (zeros 32)) ++ zeros 16 ++
  ((List.range 256).flatMap fun n => le 8 ((f.bind fun x => x.pacc[n]?).getD 0).toNat) ++
  (let q := (a.queue.take 15).flatMap MCmd.bytes; q ++ zeros (480 - q.length)) ++ zeros 32 ++
  (let p := ((a.eprog.getD []).take 32).flatMap fun w => le 4 w.toNat; p ++ zeros (128 - p.length)) ++
  ((List.range 64).flatMap fun n =>
    match Tab.find a.slots n with
    | some e => le 8 (e.woff + 2 ^ 14 * e.units + 2 ^ 29 * e.fmt + 2 ^ 33)
    | none => zeros 8) ++ zeros 832

/-- A queue entry's own issue checks (R194), in an allocation of some bytes and with the reach of EPLD. -/
def entryOk (alloc : Nat) (epld : Nat → Bool) (bs : List Byte) : Bool :=
  let op := field bs 0 1
  let tile := field bs 1 1
  let tl := field bs 2 1
  let aoff := field bs 4 4
  let w0 := field bs 8 8
  let w1 := field bs 16 8
  decide (tl ≤ 7) &&
  match op with
  | 0 => decide (tile ≤ 63) && aoff % 4 == 0 && decide (w0 < 2 ^ 20)
  | 1 => decide (tile ≤ 63)
  | 2 => decide (tile ≤ 15) && (mcwFault alloc (Mcw.of w0) aoff tile false).isNone
  | 3 => decide (tile ≤ 15) && (mcwFault alloc (Mcw.of w0) aoff tile true).isNone
  | 4 => decide (tile + field bs 3 1 ≤ 16) && decide (1 ≤ field bs 3 1)
  | 5 => decide (tile ≤ 15) && ((Dw.of w0 w1).fault alloc tile).isNone
  | 6 => aoff % 64 == 0 && epld aoff
  | _ => false

/-- Counters within the bounds of their command (R194); a command with ACT that is no pass and no drain has none (log entry 131). -/
def boundsOk (bs : List Byte) (row dep col kpos : Nat) : Bool :=
  let c := Mcw.of (field bs 8 8)
  match field bs 0 1 with
  | 2 | 3 => decide (row < c.m) && decide (dep < c.d) && decide (col < c.nt) && decide (kpos ≤ 127)
  | 5 => decide (row < (Dw.of (field bs 8 8) (field bs 16 8)).m) && dep == 0 && col == 0 && kpos == 0
  | _ => false

/-- The image passes the checks of R194 and R330 (log entry 131). -/
def imageOk (alloc : Nat) (epld : Nat → Bool) (bs : List Byte) : Bool :=
  let fl := field bs 4 4
  let nq := field bs 0xF 1
  let lslot := field bs 0xE 1
  field bs 0 4 == 0x4D580001 && decide (fl ≤ 3) && field bs 0x30 16 == 0 && field bs 0xA20 32 == 0 && field bs 0xCC0 832 == 0 &&
  decide (nq ≤ 15) && (decide (lslot ≤ 63) || lslot == 255) &&
  ((List.range 256).all fun n => !(field bs (0x40 + 8 * n) 8).testBit 60) &&
  ((List.range 64).all fun n => decide (field bs (0xAC0 + 8 * n) 8 < 2 ^ 34)) &&
  ((List.range nq).all fun n => entryOk alloc epld ((bs.drop (0x840 + 32 * n)).take 32)) &&
  (fl % 2 == 0 || (entryOk alloc epld ((bs.drop 0x10).take 32) &&
    boundsOk ((bs.drop 0x10).take 32) (field bs 8 2) (field bs 0xA 1) (field bs 0xB 1) (field bs 0xC 2)))

/-- A saved entry as a command again: the issuer is who restores it, at the saved address; on its counter it takes the oldest
operation that is not complete and that no other command stands for (log entry 15). -/
def Task.adopt (t : Task) (taken : List (Nat × Nat)) (by_ : IssuedBy) (bs : List Byte) : MCmd × Task × List (Nat × Nat) :=
  let tl := field bs 2 1 % 8
  let m : MCmd := { op := field bs 0 1, tile := field bs 1 1, tl := tl, count := field bs 3 1, aoff := field bs 4 4,
                    w0 := BitVec.ofNat 64 (field bs 8 8), w1 := BitVec.ofNat 64 (field bs 16 8),
                    by_ := { by_ with pc := BitVec.ofNat 64 (field bs 24 8) } }
  if !m.counts then (m, t, taken)
  else
    let q := vget t.tlq tl
    let base := (vget t.tl tl).toNat
    match (List.range q.length).find? fun k => !(q.getD k true) && !taken.contains (tl, base + k + 1) with
    | some k => ({ m with by_ := { m.by_ with ticket := base + k + 1 } }, t, (tl, base + k + 1) :: taken)
    | none => let e := t.enlist tl; ({ m with by_ := { m.by_ with ticket := e.1 } }, e.2, (tl, e.1) :: taken)

/-- Several entries restored in order. -/
def Task.adoptAll (t : Task) (taken : List (Nat × Nat)) (by_ : IssuedBy) : List (List Byte) → List MCmd × Task × List (Nat × Nat)
  | [] => ([], t, taken)
  | bs :: rest =>
    let r := t.adopt taken by_ bs
    let q := Task.adoptAll r.2.1 r.2.2 by_ rest
    (r.1 :: q.1, q.2.1, q.2.2)

/-- The operations of a task's counters that commands still stand for. -/
def State.ticketsHeld (s : State) (chip task : Nat) : List (Nat × Nat) :=
  let own := ((s.task? chip task).map fun t =>
    ((t.arr.flight.map Flight.cmd).toList ++ t.arr.queue).filterMap fun m => if m.counts then some (m.tl, m.by_.ticket) else none).getD []
  let copies := s.devs.flatMap fun d => d.2.cores.flatMap fun k =>
    k.2.copyq.filterMap fun q => if q.chip == chip && q.task == task then some (q.tl, q.by_.ticket) else none
  let quants := s.devs.flatMap fun d => (d.2.quant0 ++ d.2.quant1).filterMap fun q =>
    if q.chip == chip && q.task == task then some (q.tl, q.by_.ticket) else none
  own ++ copies ++ quants

/-- The array restored from a checked image (R194 steps 1 to 4). An LSLOT that names an invalid slot latches nothing (log entry 131). -/
def Task.restoreArr (t : Task) (taken : List (Nat × Nat)) (by_ : IssuedBy) (bs : List Byte) : Task :=
  let nq := field bs 0xF 1
  let fl := field bs 4 4
  let slots : Tab WSlot := (List.range 64).filterMap fun n =>
    let v := field bs (0xAC0 + 8 * n) 8
    if v.testBit 33 then some (n, ⟨bitsOf v 13 0, bitsOf v 28 14, bitsOf v 32 29⟩) else none
  let entries := (if fl % 2 = 1 then [(bs.drop 0x10).take 32] else []) ++ (List.range nq).map fun n => (bs.drop (0x840 + 32 * n)).take 32
  let r := t.adoptAll taken by_ entries
  let flight : Option Flight :=
    if fl % 2 = 1 then
      r.1.head?.map fun m => ⟨m, field bs 8 2, field bs 0xA 1, field bs 0xB 1, field bs 0xC 2,
        (List.range 256).map fun n => BitVec.ofNat 64 (field bs (0x40 + 8 * n) 8), false, 0, []⟩
    else none
  let queue := if fl % 2 = 1 then r.1.drop 1 else r.1
  let a : Arr := { r.2.1.arr with slots := slots,
                                  eprog := if fl / 2 % 2 = 1 then some ((List.range 32).map fun n => BitVec.ofNat 32 (field bs (0xA40 + 4 * n) 4)) else none,
                                  flight := flight, queue := queue ++ r.2.1.arr.queue }
  { r.2.1 with arr := { a with latch := if field bs 0xE 1 = 255 then none else a.latchSlot (field bs 0xE 1) } }

/-- The places of the image that MSAVE and MRES name. -/
def Ctx.imageReach (c : Ctx) (s : State) (need : Acc) : Except Trouble (List Place) :=
  let a := c.once c.va
  if a % 256 ≠ 0 then .error { cause := cMisalign, lanes := c.active, addr := BitVec.ofNat 64 a }
  else
    match s.places c.w (lowest c.active) need a 4096 with
    | some ps => .ok ps
    | none => .error { cause := cExtent, lanes := c.active, addr := BitVec.ofNat 64 a }

/-- The access of an image by the issuing thread: its race check and record. -/
def Ctx.imageAccess (c : Ctx) (s : State) (write : Bool) (ps : List Place) : Except Trouble State :=
  let m : LaneMask := 1#32 <<< lowest c.active
  match c.raceOf s (fun _ => false) (fun _ => write) m (fun _ => c.once c.va) (Lanes.all ps) with
  | some t => .error t
  | none => .ok (c.noteAll s (fun _ => false) (fun _ => write) m (Lanes.all ps))

/-- MSAVE once the array can stop: at a term or row of a pass, at a row of a drain, or between commands (R192, R340, R341). -/
def Ctx.msave (c : Ctx) (s : State) : Res :=
  match c.imageReach s .write, c.ownTask s with
  | .error t, _ => .trap t
  | .ok ps, some (chip, task, u) =>
    match s.holdArray c.core chip task with
    | none => .wait .arrayHeld 0 0
    | some v =>
      if u.arrayDue then .wait .arrayHeld 0 0
      else if !u.arr.mayStop then .wait .msaveMres (BitVec.ofNat 64 (c.once c.va)) 0
      else
        match c.imageAccess v true ps with
        | .error t => .trap t
        | .ok v => .ok { s := (c.endSequences (v.writeBytes ps u.stopArr.image) (1#32 <<< lowest c.active) (Lanes.all ps)).updArr chip task fun a => { a with flight := none, queue := [] } }
  | .ok _, none => c.trap cIllegalEncoding

/-- MSAVE (R192). -/
def execMsave (x : Ops) (s : State) : Ans := issue s (.msave x) x Ctx.msave

/-- MSAVE_DONE (R192). -/
def execMsaveDone (g : GangRef) (lanes : LaneMask) (s : State) : Ans := s.endWait g lanes .msaveMres isMsave fun _ => Ctx.msave

/-- MRES once no matrix command of the task is outstanding (R194): none enters the queue while it waits. -/
def Ctx.mres (c : Ctx) (s : State) : Res :=
  match c.imageReach s .read, c.ownTask s with
  | .error t, _ => .trap t
  | .ok ps, some (chip, task, u) =>
    match s.holdArray c.core chip task with
    | none => .wait .arrayHeld 0 0
    | some v =>
      if u.arrayDue then .wait .arrayHeld 0 0
      else if u.arr.depth ≠ 0 then .wait .msaveMres (BitVec.ofNat 64 (c.once c.va)) 0
      else
        match c.imageAccess v false ps with
        | .error t => .trap t
        | .ok v =>
          let bs := s.bytesAt ps
          if !imageOk (u.scrp * 2048) (u.epldReach chip) bs then c.trap cIllegalOperand
          else
            let r := c.issueBy v none
            .ok { s := r.2.updTask chip task fun t => t.restoreArr (s.ticketsHeld chip task) r.1 bs }
  | .ok _, none => c.trap cIllegalEncoding

/-- MRES (R194). -/
def execMres (x : Ops) (s : State) : Ans := issue s (.mres x) x Ctx.mres

/-- MRES_DONE (R194). -/
def execMresDone (g : GangRef) (lanes : LaneMask) (s : State) : Ans := s.endWait g lanes .msaveMres isMres fun _ => Ctx.mres

end Sys2Proof.Machine
end

