-- ==== Sys2Proof/Machine/Save.lean ====
section
/-! DEFINITION. The context save area as bytes, and its seal (R405 to R409, R412). -/

namespace Sys2Proof.Machine

/-! ### The save area (R407 to R409) -/

/-- A saved copy or SEND entry of 576 bytes. -/
def CopyCmd.saved (q : CopyCmd) : List Byte :=
  le 1 q.kind ++ le 1 q.tl ++ zeros 2 ++ le 4 q.by_.lanes.toNat ++ le 8 q.prog ++ le 8 q.by_.pc.toNat ++ zeros 40 ++
  (q.record.take 128 ++ zeros (128 - q.record.length)) ++ (match q.handle with | some h => h.bytes | none => zeros 256) ++
  (let r := (q.rows.take 32).flatMap (le 4); r ++ zeros (128 - r.length))

/-- The records of a gang as they are saved: a spilled gang's stand in its spill area (R47, R403). The image gives them either way. -/
def Gang.savedImage (g : Gang) : List Byte :=
  let repl := match g.replay with | r :: _ => r.repl | [] => []
  g.image g.pc g.pred g.frame false repl

/-- The full/empty bits of a scratchpad, word 0 at bit 0. -/
def Task.fullBytes (t : Task) : List Byte :=
  (List.range (t.scrp * 64)).map fun k => BitVec.ofNat 8 ((List.range 8).foldl (fun n i => n + (if Mem.get t.full (8 * k + i) != 0 then 2 ^ i else 0)) 0)

/-- The fields of a task record at their offsets (R409). The head's fields after FLAGS stand in the order R409 names them. -/
def Task.record (t : Task) (m : Mem) (at_ : Nat) : Mem :=
  let head := le 4 0x54410001 ++ le 4 (bitNat t.heldArray) ++ le 4 t.handle ++ le 4 t.num ++ le 4 t.gangs.length ++ le 4 t.base ++ le 4 t.scrp ++
    le 4 t.copies.length
  let m := Mem.write m at_ head
  let m := Mem.write m (at_ + 0x40) (t.tl.toList.flatMap fun v => le 8 v.toNat)
  let m := Mem.write m (at_ + 0x100) (if t.heldArray then t.arr.image else zeros 4096)
  let m := Mem.write m (at_ + 0x1100) ((t.copies.take 64).flatMap CopyCmd.saved)
  let m := Mem.paste m (at_ + 0x10000) 0x100000 t.arr.tiles
  let m := Mem.paste m (at_ + 0x110000) 0x200000 t.arr.wbuf
  let m := Mem.paste m (at_ + 0x310000) (t.scrp * 2048) t.scratch
  let m := Mem.write m (at_ + 0x390000) t.fullBytes
  t.gangs.foldl (fun m g => Mem.write m (at_ + 0x3A0000 + 65536 * g.1) g.2.savedImage) m

/-- The records of saved tasks. -/
def saveRecords (m : Mem) : Nat → List Task → Mem
  | _, [] => m
  | k, t :: ts => saveRecords (t.record m (0x10000 + 0x5A0000 * k)) (k + 1) ts

/-- The head of the save area, for a number of saved tasks and a protected chip's snapshot, and the snapshot at its place (R270, R409). -/
def Chip.saveHead (c : Chip) (ntask : Nat) (snap : List Byte) : Mem :=
  let kept := c.prot && !snap.isEmpty
  let head := le 4 0x43530001 ++ le 4 ntask ++ le 2 c.num ++ le 2 (bitNat c.prot + 2 * bitNat kept) ++ zeros 4 ++ le 8 (if kept then 0x2000 else 0)
  Mem.write (Mem.write [] 0 head) 0x2000 (if kept then snap.drop 64 else [])

/-- THE CONTEXT SAVE AREA of a chip, as bytes from CSAREA (R409): a view of its pre-empted tasks. A protected chip's is stored sealed
(R412); these are the bytes that the seal covers. -/
def Chip.saveArea (c : Chip) : Mem :=
  let ts := (c.tasks.filter fun t => t.2.core.isNone).map Prod.snd
  saveRecords (c.saveHead ts.length c.snap) 0 ts

/-! ### Sealing (R412) -/

/-- A protected chip's SEAL key on its device. -/
def Device.sealKey (d : Device) (guest num : Nat) : List DWord :=
  ((d.keys.find? fun e => e.2.kind == 3 && e.2.state == 2 && e.2.guest == guest && e.2.chipA == num).map fun e => e.2.bits).getD []

/-- The nonce and the associated data of a chunk: chunk index and SEALCNT; guest, chip number and SEALCNT. -/
def sealIv (chunk count : Nat) : Nat := chunk % 2 ^ 32 + count % 2 ^ 64 * 2 ^ 32
def sealAad (guest num count : Nat) : Nat := guest + num * 2 ^ 16 + count * 2 ^ 32

/-- The chunk of the save area at which the record of the saved task with a place begins (R409). -/
def chunkOf (place : Nat) : Nat := (0x10000 + 0x5A0000 * place) / 4096

/-- The tags of a task's chunks under a key (R412): STAGBASE holds them by chunk index. -/
def Task.tags (t : Task) (key : List DWord) (guest num count place : Nat) : List (BitVec 128) :=
  let m := t.record [] 0
  (List.range (0x5A0000 / 4096)).map fun k =>
    Config.gcmTag key (sealIv (chunkOf place + k) count) (sealAad guest num count) (Mem.slice m (4096 * k) 4096)

/-- The tags of the head's chunk and of the snapshot's under a key (R412). -/
def Chip.headTags (c : Chip) (key : List DWord) (count ntask : Nat) (snap : List Byte) : List (BitVec 128) :=
  [0, 2].map fun k => Config.gcmTag key (sealIv k count) (sealAad c.guest c.num count) (Mem.slice (c.saveHead ntask snap) (4096 * k) 4096)

/-- The save area of a protected chip as memory holds it: each chunk under the SEAL key (R412). -/
def State.sealedChunk (s : State) (c : Chip) (k : Nat) : List Byte :=
  match s.dev? c.dev with
  | some d =>
    let count := Tab.getD d.sealCnt c.slot 0
    Config.gcm (d.sealKey c.guest c.num) (sealIv k count) (sealAad c.guest c.num count) (Mem.slice c.saveArea (4096 * k) 4096)
  | none => []

/-- A saved task sealed under the present SEALCNT. -/
def State.sealTask (s : State) (chip key place : Nat) : State :=
  match (s.chip? chip).bind fun c => (s.dev? c.dev).map fun d => (c, d) with
  | some (c, d) =>
    let count := Tab.getD d.sealCnt c.slot 0
    s.updTask chip key fun t => { t with sealed := some ⟨count, place, t.tags (d.sealKey c.guest c.num) c.guest c.num count place⟩ }
  | none => s

/-- The head and the snapshot of a chip's save area sealed under the present SEALCNT (R412). -/
def State.sealHead (s : State) (chip : Nat) : State :=
  match (s.chip? chip).bind fun c => (s.dev? c.dev).map fun d => (c, d) with
  | some (c, d) =>
    let count := Tab.getD d.sealCnt c.slot 0
    let n := (c.tasks.filter fun t => t.2.core.isNone).length
    s.updChip chip fun k => { k with headSeal := some ⟨count, n, c.snap, c.headTags (d.sealKey c.guest c.num) count n c.snap⟩ }
  | none => s

/-- The save of a protected chip is sealed: its head and snapshot, and every saved task (R412). -/
def State.sealChip (s : State) (chip : Nat) : State :=
  match s.chip? chip with
  | some c =>
    if c.prot then ((c.tasks.filter fun t => t.2.core.isNone).mapIdx fun k t => (k, t.1)).foldl (fun s p => s.sealTask chip p.2 p.1) (s.sealHead chip)
    else s
  | none => s

/-- A write to a saved task is sealed too: a pending entry, or a counter's advance (R405, R406, R412). -/
def State.resealTask (s : State) (chip key : Nat) : State :=
  match (s.task? chip key).bind Task.sealed with
  | some z => s.sealTask chip key z.place
  | none => s

/-- Every chunk that a saved task's resumption reads passes its check against the present SEALCNT (R412): of the head, of the snapshot, and of its
record. -/
def State.sealHolds (s : State) (c : Chip) (t : Task) : Bool :=
  !c.prot || match c.headSeal, t.sealed, s.dev? c.dev with
    | some h, some z, some d =>
      let count := Tab.getD d.sealCnt c.slot 0
      let key := d.sealKey c.guest c.num
      h.count == count && h.tags == c.headTags key count h.ntask h.snap &&
        z.count == count && z.tags == t.tags key c.guest c.num count z.place
    | _, _, _ => false

end Sys2Proof.Machine
end

