-- ==== Sys2Proof/Machine/Quant.lean ====
section
/-! DEFINITION. The quantiser and QWAIT (R195 to R197, R310, R342, R343), and the byte ranges that an engine command names (R281). -/

namespace Sys2Proof.Machine

/-! ### Ranges in a task's extents -/

/-- The place of a byte that lies in a task's extents; windows lie in none (R279). -/
def Task.extPlace (t : Task) (chip : Nat) (need : Acc) (a : Nat) : Option Place :=
  if hostHalf a || deviceHalf a then extentPlace chip t.extents need a else none

/-- The places of n bytes from an address, or the first byte that is refused (R281). -/
def Task.range (t : Task) (chip : Nat) (need : Acc) (a : Nat) : Nat → Except Nat (List Place)
  | 0 => .ok []
  | n + 1 =>
    match t.extPlace chip need (a % 2 ^ 64) with
    | none => .error (a % 2 ^ 64)
    | some p =>
      match t.range chip need (a + 1) n with
      | .ok ps => .ok (p :: ps)
      | .error e => .error e

/-- Several ranges in order. -/
def Task.ranges (t : Task) (chip : Nat) (need : Acc) : List (Nat × Nat) → Except Nat (List (Nat × List Place))
  | [] => .ok []
  | (a, n) :: rest =>
    match t.range chip need a n with
    | .error e => .error e
    | .ok ps =>
      match t.ranges chip need rest with
      | .ok qs => .ok ((a, ps) :: qs)
      | .error e => .error e

/-! ### The record (R195) -/

/-- The fields of a quantiser record. -/
structure QRec where
  src : Nat
  dst : Nat
  spla : Nat
  rows : Nat
  cols : Nat
  sstr : Nat
  dstr : Nat
  sfmt : Nat
  dfmt : Nat
  block : Bool
deriving DecidableEq, Repr

def QRec.of (bs : List Byte) : QRec :=
  { src := field bs 0 8, dst := field bs 8 8, spla := field bs 0x10 8, rows := field bs 0x18 4, cols := field bs 0x1C 4,
    sstr := field bs 0x20 8, dstr := field bs 0x28 8, sfmt := field bs 0x30 1, dfmt := field bs 0x31 1, block := field bs 0x32 1 == 1 }

/-- The windows that a quantiser address may not lie in (R195 step 2). -/
def qBanned (a : Nat) : Bool := inWin scratchBase scratchSize a || inWin clusterBase clusterSize a || inWin podBase podSize a

/-- Step 2 of R195. SPLA is of plain mode alone (log entry 132). -/
def QRec.ok (q : QRec) (bs : List Byte) : Bool :=
  let n := if q.block then 128 else 65536
  decide (1 ≤ q.rows) && decide (q.rows ≤ n) && decide (32 ≤ q.cols) && decide (q.cols ≤ n) && q.cols % 32 == 0 &&
    (q.sfmt == 0 || q.sfmt == 2 || q.sfmt == 3) && decide (4 ≤ q.dfmt) && decide (q.dfmt ≤ 10) && decide (field bs 0x32 1 ≤ 1) &&
    field bs 0x33 13 == 0 && !qBanned q.src && !qBanned q.dst && (q.block || !qBanned q.spla)

def QRec.srcFm (q : QRec) : Fm := (Fm.ofCode q.sfmt).getD .f32
def QRec.dstFm (q : QRec) : Fm := (Fm.ofCode q.dfmt).getD .t8

/-- Source rows as ranges. -/
def QRec.sources (q : QRec) : List (Nat × Nat) := (List.range q.rows).map fun i => (q.src + q.sstr * i, q.cols * (q.srcFm.width / 8))

/-- Scales that plain mode writes. -/
def QRec.scales (q : QRec) : Nat := q.rows * q.cols / 32

/-- Bytes of a row of codes. -/
def QRec.rowBytes (q : QRec) : Nat := q.cols * q.dstFm.width / 8

/-- Output ranges: rows and then the scale plane, as far as its scales go (log entry 132), or the compressed block at its largest (R195 step 3). -/
def QRec.outputs (q : QRec) : List (Nat × Nat) :=
  if q.block then [(q.dst, 16 + 512 * (3 + 4 + 4 * q.dstFm.width))]
  else ((List.range q.rows).map fun i => (q.dst + q.dstr * i, q.rowBytes)) ++ [(q.spla, (20 * q.scales + 7) / 8)]

/-! ### Issue -/

/-- A quantiser queue of a die. -/
def Device.quant (d : Device) (die : Nat) : List QCmd := if die = 0 then d.quant0 else d.quant1

def Device.setQuant (d : Device) (die : Nat) (q : List QCmd) : Device := if die = 0 then { d with quant0 := q } else { d with quant1 := q }

/-- QNT (R195). -/
def execQnt (x : Ops) (s : State) : Ans :=
  issue s (.qnt x) x fun c s =>
    match c.ownTask s with
    | none => .trap { cause := cIllegalEncoding, lanes := c.active }
    | some (chip, task, t) =>
      match c.record s (c.once c.va) 64 64 with
      | .error e => .trap e
      | .ok (s, bs) =>
        let q := QRec.of bs
        if !q.ok bs then c.trap cIllegalOperand
        else
          match t.ranges chip .read q.sources, t.ranges chip .write q.outputs with
          | .error a, _ => c.trap cExtentRange (BitVec.ofNat 64 a)
          | _, .error a => c.trap cExtentRange (BitVec.ofNat 64 a)
          | .ok _, .ok _ =>
            let die := dieOf c.core.core
            let queue := ((s.dev? c.core.dev).map fun d => d.quant die).getD []
            let tl := opndBits x.dst % 8
            if 256 ≤ queue.length then .wait .queueFull (BitVec.ofNat 64 tl) 0
            else
              let r := c.issueBy s (some tl)
              .ok { s := r.2.updDev c.core.dev fun d => d.setQuant die (d.quant die ++ [⟨chip, task, tl, r.1, bs, false⟩]) }

/-! ### Execution (R196, R343) -/

/-- Code j of a row's bytes at a format of whole bytes. -/
def rowCode (bs : List Byte) (f : Fm) (j : Nat) : Nat := field bs (j * (f.width / 8)) (f.width / 8)

/-- A block of 32 source elements: its scale and codes. An infinite element saturates, a NaN element is a NaN quotient. -/
def quantBlock (f : Fm) (vs : List Val) : Nat × List Nat :=
  let sc := blockScale f vs
  (sc, vs.map fun v => quantCode f v (s20Val sc))

/-- The blocks of a row. -/
def QRec.rowBlocks (q : QRec) (bs : List Byte) : List (Nat × List Nat) :=
  (List.range (q.cols / 32)).map fun j => quantBlock q.dstFm ((List.range 32).map fun c => q.srcFm.decode (rowCode bs q.srcFm (32 * j + c)))

/-- Codes packed into bytes (R324). -/
def packCodes (w : Nat) (codes : List Nat) : List Byte :=
  leBytes (codes.foldr (fun c acc => c % 2 ^ w + 2 ^ w * acc) 0) ((codes.length * w + 7) / 8)

/-- One group of a compressed block with SC = 1 and DENSE = 0 (R176). -/
def packGroup (w : Nat) (g : Nat × List Nat) : List Byte :=
  let mask := ((g.2.take 32).foldr (fun c acc => (if c = 0 then 0 else 1) + 2 * acc) 0)
  le 3 g.1 ++ le 4 mask ++ packCodes w (g.2.filter (· != 0))

/-- The compressed block of R176 from columns of up to four groups. -/
def packBlock (dfmt w : Nat) (cols : List (List (Nat × List Nat))) : List Byte :=
  let groups := (List.range 128).flatMap fun n => (List.range 4).flatMap fun j =>
    packGroup w (((cols.getD n []).getD j (0x3F800, List.replicate 32 0)))
  let len := 16 + groups.length
  let pad := (4 - len % 4) % 4
  le 1 (matOfFmt dfmt) ++ [1] ++ zeros 2 ++ le 4 (len + pad) ++ zeros 8 ++ groups ++ zeros pad

/-- What a command writes: byte lists by address, given the source rows and the old bytes of the scale plane. -/
def QRec.results (q : QRec) (rows : List (List Byte)) (plane : List Byte) : List (Nat × List Byte) :=
  let blocks := rows.map q.rowBlocks
  if q.block then [(q.dst, packBlock q.dfmt q.dstFm.width blocks)]
  else
    let codes := (List.range q.rows).map fun i =>
      (q.dst + q.dstr * i, packCodes q.dstFm.width ((blocks.getD i []).flatMap Prod.snd))
    let scales := blocks.flatMap fun b => b.map Prod.fst
    let image := ((List.range scales.length).foldl (fun m i => setScale m 0 i (scales.getD i 0)) (Mem.write [] 0 plane))
    codes ++ [(q.spla, Mem.bytes image 0 plane.length)]

/-- The first race of accesses to ranges, by an engine command. -/
def State.engineRaces (s : State) (chip task : Nat) (b : IssuedBy) (write : Bool) : List (Nat × List Place) → Option Trouble
  | [] => none
  | (a, ps) :: rest =>
    match s.engineRace chip task b write a ps with
    | some t => some t
    | none => State.engineRaces s chip task b write rest

/-- The record of accesses by an engine command. -/
def State.engineNotes (s : State) (chip task : Nat) (b : IssuedBy) (write : Bool) (rs : List (Nat × List Place)) : State :=
  rs.foldl (fun s r => s.noteAccess (s.engineActor chip task b) false write r.2) s

/-- A running command leaves its die's quantiser. -/
def State.quantPop (s : State) (dev die : Nat) : State := s.updDev dev fun d => d.setQuant die (d.quant die).tail

/-- QNT_EXECUTE (R196, R342): the next command starts and reads its source. -/
def execQntExecute (dev die : Nat) (s : State) : Ans :=
  match (s.dev? dev).map fun d => d.quant die with
  | some (q :: rest) =>
    if q.running || 1 < die then notEnabled s
    else
      match s.task? q.chip q.task with
      | none => notEnabled s
      | some t =>
        match t.ranges q.chip .read (QRec.of q.record).sources with
        | .error _ => notEnabled s
        | .ok rs =>
          match s.engineRaces q.chip q.task q.by_ false rs with
          | some e => .next ((s.quantPop dev die).engineFault q.chip q.task q.by_ e)
          | none =>
            .next ((s.engineNotes q.chip q.task q.by_ false rs).updDev dev fun d => d.setQuant die ({ q with running := true } :: rest))
  | _ => notEnabled s

/-- QNT_COMPLETE (R196, R342): the outputs are written and the counter advances, saved or live. -/
def execQntComplete (dev die : Nat) (s : State) : Ans :=
  match (s.dev? dev).map fun d => d.quant die with
  | some (q :: _) =>
    match s.task? q.chip q.task with
    | none => notEnabled s
    | some t =>
      let r := QRec.of q.record
      match q.running && decide (die ≤ 1), t.ranges q.chip .read r.sources, t.ranges q.chip .write r.outputs with
      | true, .ok rs, .ok os =>
        let plane := (os.getLast?.map fun o => s.bytesAt o.2).getD []
        let outs := r.results (rs.map fun p => s.bytesAt p.2) plane
        let ws := (outs.zip os).map fun p => (p.1.1, p.2.2.take p.1.2.length, p.1.2)
        let hit := s.engineRaces q.chip q.task q.by_ true (ws.map fun w => (w.1, w.2.1))
        match hit with
        | some e => .next ((s.quantPop dev die).engineFault q.chip q.task q.by_ e)
        | none =>
          let s := s.engineNotes q.chip q.task q.by_ true (ws.map fun w => (w.1, w.2.1))
          let s := ws.foldl (fun s w => s.engineWrite w.2.1 w.2.2) s
          let s := ((s.quantPop dev die).finishOp q.chip q.task q.tl q.by_).resealTask q.chip q.task
          .next (s.updChip q.chip fun c => { c with hb := c.hb.carry (keyQ q.task 0) q.by_.result })
      | _, _, _ => notEnabled s
  | _ => notEnabled s

/-! ### QWAIT (R197) -/

/-- Quantiser commands of a task below a number are outstanding. -/
def State.quantBusy (s : State) (chip task below : Nat) : Bool :=
  s.devs.any fun d => (d.2.quant0 ++ d.2.quant1).any fun q => q.chip == chip && q.task == task && decide (q.by_.seq < below)

/-- QWAIT with the number of commands that had been issued when it was first reached. -/
def Ctx.qwait (mark : Option Nat) (c : Ctx) (s : State) : Res :=
  match c.ownTask s with
  | none => .trap { cause := cIllegalEncoding, lanes := c.active }
  | some (chip, task, t) =>
    let below := mark.getD t.seq
    let k := c.x.sub.toNat % 4
    if (k != 1 && s.quantBusy chip task below) || (k != 0 && t.matrixBusy below) then .wait .qwait 0 0
    else
      let take (h : Hb) (a : Nat) : Hb :=
        let h := if k = 1 then h else h.acquireFrom a (keyQ task 0)
        if k = 0 then h else h.acquireFrom a (keyQ task 1)
      .ok { s := (lanesOf c.active).foldl (fun s i => c.hb s fun h => take h (c.actor s i).agent) s }

/-- QWAIT (R197). -/
def execQwait (x : Ops) (s : State) : Ans := issue s (.qwait x) x (Ctx.qwait none)

/-- QWAIT_END (R197). -/
def execQwaitEnd (g : GangRef) (lanes : LaneMask) (s : State) : Ans :=
  s.endWait g lanes .qwait anyInstr fun w => Ctx.qwait (some w.mark)

end Sys2Proof.Machine
end

