-- ==== Sys2Proof/Machine/Lease.lean ====
section
/-! DEFINITION. Translating and leasing ranges (R261, R282 to R286), the device's own accesses to a chip's memory, and what pages are held. -/

namespace Sys2Proof.Machine

/-- A leaf's permissions grant an access (R285): execute needs R and X. -/
def Leaf.grants (l : Leaf) (need : Acc) : Bool :=
  match need with
  | .read => l.r
  | .write => l.w
  | .both => l.r && l.w
  | .fetch => l.r && l.x

/-- The granule of 2 MiB of a guest-physical byte (R282). -/
def granuleOf (a : Nat) : Nat := a / 2 ^ 21

/-- A range of guest-physical bytes meets a granule that is being moved (R288). -/
def Chip.movingIn (c : Chip) (a n : Nat) : Bool := c.moving.any fun g => decide (g * 2 ^ 21 < a + n) && decide (a < (g + 1) * 2 ^ 21)

/-- Why a page cannot be reached yet: it is missing or denied, or PRI has failed (R262); its granule is moving (R288); or the host's answer has
not come (R286). -/
inductive NoLease where
  | page (va : Nat)
  | moving
  | asking (va : Nat)
deriving DecidableEq, Repr

/-- The lease of the page at an address, and the address after the page (R261 steps 2 and 3). -/
def Chip.leasePage (c : Chip) (need : Acc) (va : Nat) : Except NoLease (Lease × Nat) :=
  if deviceHalf va then
    match c.walk va with
    | some l =>
      let first := va - va % l.size
      if !l.grants need then .error (.page va)
      else if c.movingIn l.frame l.size then .error .moving
      else .ok (⟨first, l.size, false, l.frame⟩, first + l.size)
    | none => .error (.page va)
  else if hostHalf va then
    match Tab.find c.ats (va / 4096) with
    | some ⟨.mapped f r w x⟩ =>
      if (Leaf.mk f 4096 r w x false 0 0).grants need then .ok (⟨va - va % 4096, 4096, true, f⟩, va - va % 4096 + 4096) else .error (.page va)
    | some ⟨.failed⟩ => .error (.page va)
    | none => .error (.asking va)
  else .error (.page va)

/-- Leases of the pages from one address to another, up to the first that cannot be leased, and why; fuel bounds the pages. -/
def Chip.leaseFrom (c : Chip) (need : Acc) (va stop : Nat) : Nat → List Lease × Option NoLease
  | 0 => ([], none)
  | n + 1 =>
    if stop ≤ va then ([], none)
    else
      match c.leasePage need va with
      | .error e => ([], some e)
      | .ok p =>
        let r := c.leaseFrom need p.2 stop n
        (p.1 :: r.1, r.2)

/-- The pages of a range that can be leased, those that cannot left out; fuel bounds the pages. -/
def Chip.leaseSome (c : Chip) (need : Acc) (va stop : Nat) : Nat → List Lease
  | 0 => []
  | n + 1 =>
    if stop ≤ va then []
    else
      match c.leasePage need va with
      | .error _ => c.leaseSome need (va - va % 65536 + 65536) stop n
      | .ok p => p.1 :: c.leaseSome need p.2 stop n

/-- Leases of a range. -/
def Chip.leaseRange (c : Chip) (need : Acc) (va len : Nat) : Except NoLease (List Lease) :=
  if len = 0 then .ok []
  else
    match c.leaseFrom need va (va + len) (len / 4096 + 2) with
    | (ls, none) => .ok ls
    | (_, some e) => .error e

/-- A host page is requested through PRI (R286). -/
def Chip.ask (c : Chip) (va : Nat) : Chip := { c with pri := if c.pri.contains (va / 4096) then c.pri else c.pri ++ [va / 4096] }

/-! ### Frames and tables -/

/-- Two ranges of bytes meet. -/
def rangesMeet (a n b m : Nat) : Bool := decide (0 < n) && decide (0 < m) && decide (a < b + m) && decide (b < a + n)

/-- Guest-physical ranges of a device-half range as the device tables stand; unmapped pages give none. Fuel bounds the pages. -/
def Chip.framesFrom (c : Chip) (va stop : Nat) : Nat → List (Nat × Nat)
  | 0 => []
  | n + 1 =>
    if stop ≤ va then []
    else
      match (if deviceHalf va then c.walk va else none) with
      | some l =>
        let next := va - va % l.size + l.size
        (l.frame + va % l.size, min next stop - va) :: c.framesFrom next stop n
      | none => c.framesFrom (va - va % 65536 + 65536) stop n

def Chip.frames (c : Chip) (va len : Nat) : List (Nat × Nat) := c.framesFrom va (va + len) (len / 65536 + 2)

/-- Two device-half ranges share device bytes: by address, or by what the tables map. -/
def Chip.shareBytes (c : Chip) (a n b m : Nat) : Bool :=
  rangesMeet a n b m || (c.frames a n).any fun f => (c.frames b m).any fun g => rangesMeet f.1 f.2 g.1 g.2

/-- The guest-physical bytes of a range under its leases. -/
def clipLeases (base size : Nat) (ls : List Lease) : List (Nat × Nat) :=
  ls.filterMap fun l =>
    let lo := max base l.va
    let hi := min (base + size) (l.va + l.bytes)
    if l.host || hi ≤ lo then none else some (l.frame + (lo - l.va), hi - lo)

/-- The levels of the device tables: shift and index bits (R283). -/
def tableLevels : List (Nat × Nat) := [(35, 14), (29, 6), (21, 8), (16, 5)]

/-- The device tables that a table reaches, itself included (R283), from the bytes that memory lists. -/
def Chip.tablesFrom (c : Chip) : List (Nat × Nat) → Nat → List (Nat × Nat)
  | [], _ => []
  | (_, bits) :: rest, table =>
    (table, 8 * 2 ^ bits) ::
      (Mem.slice c.mem table (8 * 2 ^ bits)).flatMap fun p =>
        let e := Mem.load c.mem (table + p.1) 8
        if p.1 % 8 = 0 && e % 4 == 1 then c.tablesFrom rest (bitsOf e 47 16 * 65536) else []

/-- The leaves that a table reaches: frame, size and TIER (R284). -/
def Chip.leavesFrom (c : Chip) : List (Nat × Nat) → Nat → List (Nat × Nat × Nat)
  | [], _ => []
  | (shift, bits) :: rest, table =>
    (Mem.slice c.mem table (8 * 2 ^ bits)).flatMap fun p =>
      let e := Mem.load c.mem (table + p.1) 8
      let frame := bitsOf e 47 16 * 65536
      if p.1 % 8 ≠ 0 || e % 2 = 0 then [] else if bitsOf e 1 1 = 1 then [(frame, 2 ^ shift, bitsOf e 63 62)] else c.leavesFrom rest frame

/-- The TIER that the tables give a granule: of the first of its pages that names one; 0 where none does (R287). -/
def Chip.wantedTier (c : Chip) (granule : Nat) : Nat :=
  (((c.leavesFrom tableLevels 0).filter fun l => l.2.2 != 0 && rangesMeet l.1 l.2.1 (granule * 2 ^ 21) (2 ^ 21)).head?.map fun l => l.2.2).getD 0

/-- The access that an ACC code needs of each page (R80, R285). -/
def accNeed : Nat → Acc
  | 0 => .read | 1 => .write | 2 => .both | _ => .fetch

/-- The device sets A, and under a write lease D, in the entry of each leased page (R284, R285), and marks its page dirty (R388). -/
def Chip.markLeases (c : Chip) (write : Bool) (ls : List Lease) : Chip :=
  ls.foldl (fun c l =>
    if l.host then c
    else match c.walk l.va with
      | none => c
      | some f =>
        let old := Mem.get c.mem f.entry
        { c.touch f.entry with mem := Mem.set c.mem f.entry (old ||| (if write then 0x60 else 0x20)) }) c

/-- Leases of a chip: of its launches, its trap ranges, its mailboxes and its regions. -/
def Chip.leases (c : Chip) (withRegions : Bool) : List Lease :=
  (c.launches.flatMap fun l => l.2.extents.flatMap Extent.pages) ++ (if c.trap.en then c.trap.code ++ c.trap.area else []) ++
    c.mbxHeld.toList.flatten ++ (if withRegions then c.tide.held.flatMap Prod.snd else [])

/-- Pages under a write lease: extents with ACC 1 or 2, and the frame area (R376, R398). -/
def Chip.writeLeases (c : Chip) : List Lease :=
  (c.launches.flatMap fun l => (l.2.extents.filter fun e => e.acc == 1 || e.acc == 2).flatMap Extent.pages) ++
    (if c.trap.en then c.trap.area else [])

/-! ### The device's own accesses -/

/-- A byte that an earlier read has kept. -/
def keptByte (kept : List (Nat × List Byte)) (a : Nat) : Option Byte :=
  kept.findSome? fun p => if decide (p.1 ≤ a) && decide (a < p.1 + p.2.length) then p.2[a - p.1]? else none

/-- Bytes read for a chip beside those that were kept: the bytes up to the first that cannot be read, and why (R254, R262). -/
def State.readFrom (s : State) (chip : Nat) (kept : List (Nat × List Byte)) (a : Nat) : Nat → List Byte × Option NoLease
  | 0 => ([], none)
  | n + 1 =>
    let b : Except NoLease Byte :=
      match keptByte kept a with
      | some b => .ok b
      | none =>
        match (s.chip? chip).bind fun c => c.vaPlace chip true (a % 2 ^ 64) with
        | some p => .ok (s.readByte p)
        | none =>
          let asked := ((s.chip? chip).map fun c => (Tab.find c.ats (a / 4096)).isSome).getD true
          .error (if hostHalf a && !asked then .asking a else .page a)
    match b with
    | .error e => ([], some e)
    | .ok b =>
      let r := State.readFrom s chip kept (a + 1) n
      (b :: r.1, r.2)

/-- A read of n bytes that goes on from what was kept: the bytes, or why it stops; and what is kept after it. -/
def State.readOn (s : State) (chip : Nat) (kept : List (Nat × List Byte)) (a n : Nat) : Except NoLease (List Byte) × List (Nat × List Byte) :=
  let r := s.readFrom chip kept a n
  let kept := if r.1.isEmpty then kept else (a, r.1) :: kept
  match r.2 with
  | none => (.ok r.1, kept)
  | some e => (.error e, kept)

/-- The places of n bytes that the device reaches; the error is the page that fails. -/
def Chip.vaPlaces (c : Chip) (key : Nat) (granted : Bool) (a : Nat) : Nat → Except Nat (List Place)
  | 0 => .ok []
  | n + 1 =>
    match c.vaPlace key granted (a % 2 ^ 64) with
    | none => .error (a % 2 ^ 64)
    | some p =>
      match c.vaPlaces key granted (a + 1) n with
      | .ok ps => .ok (p :: ps)
      | .error e => .error e

/-- Bytes that the device reads for a chip. -/
def State.devRead (s : State) (chip a n : Nat) : Except Nat (List Byte) :=
  match s.chip? chip with
  | none => .error a
  | some c =>
    match c.vaPlaces chip true a n with
    | .ok ps => .ok (s.bytesAt ps)
    | .error e => .error e

/-- Bytes written at the places of leased pages. -/
def State.leaseWrite (s : State) (chip : Nat) (ls : List Lease) (a : Nat) : List Byte → State
  | [] => s
  | b :: bs =>
    let s := match leasePlace chip ls a with
      | some p => s.writeByte p b
      | none => s
    State.leaseWrite s chip ls (a + 1) bs

/-- A store of the device that is a release at the guest's pod: an acquire that reads it joins its clock (R259, R296, R378). -/
def State.releaseStore (s : State) (chip a : Nat) (bs : List Byte) (clock : VClock) : State :=
  (s.devWrite chip a bs).updChip chip fun c =>
    match c.vaPlaces chip false a bs.length with
    | .ok ps => { c with hb := c.hb.putReleases (ps.map placeKey) [⟨clock, ScopeView.ofPod⟩] false }
    | .error _ => c

/-- Bytes read through leased pages. -/
def State.leaseRead (s : State) (chip : Nat) (ls : List Lease) (a n : Nat) : List Byte :=
  (List.range n).map fun k => match leasePlace chip ls (a + k) with | some p => s.readByte p | none => 0

/-- The places of n bytes for an engine: a task's scratchpad or extents, or what the control core reaches (R218, R265). -/
def State.enginePlaces (s : State) (chip task : Nat) (need : Acc) (a : Nat) : Nat → Except Nat (List Place)
  | 0 => .ok []
  | n + 1 =>
    let p : Option Place :=
      if task = ctrlTask then (s.chip? chip).bind fun c => c.ctrlPlace chip a
      else
        match s.task? chip task with
        | none => none
        | some t =>
          if inWin scratchBase scratchSize a then
            if a - scratchBase < t.scrp * 2048 then some (.scratch chip task (a - scratchBase)) else none
          else t.extPlace chip need a
    match p with
    | none => .error a
    | some p =>
      match s.enginePlaces chip task need (a + 1) n with
      | .ok ps => .ok (p :: ps)
      | .error e => .error e

end Sys2Proof.Machine
end

