-- ==== Sys2Proof/Machine/Pod.lean ====
section
/-! DEFINITION. Pod addresses, regions and packets, and the pod instructions TST, TRED, TIDE.CLOSE, TIDE.WAIT, TIDE.QUERY, RLD and RATOM
(R206 to R216, R278, R356 to R361, R369, R374, R377). -/

namespace Sys2Proof.Machine

/-! ### Pod addresses (R278) -/

/-- A decoded pod address. -/
structure PodAddr where
  vchip : Nat
  mailbox : Bool
  off : Nat
deriving DecidableEq, Repr

def podOf (a : Nat) : Option PodAddr :=
  if inWin podBase podSize a then
    let o := a - podBase
    some ⟨o / 2 ^ 32 % 1024, o.testBit 31, o % 2 ^ 31⟩
  else none

/-- A guest's virtual chip entry (R354). -/
def State.vctEntry (s : State) (guest n : Nat) : DWord := ((Tab.find s.guests guest).map fun g => Tab.getD g.vct n 0).getD 0

/-- A chip number names a chip of the guest's pod. -/
def State.inPod (s : State) (guest n : Nat) : Bool := (s.vctEntry guest n).getLsbD 31

/-- The chips of a guest's pod, rising (R379). -/
def State.peers (s : State) (guest : Nat) : List Nat :=
  ((Tab.find s.guests guest).map fun g => (g.vct.filter fun e => e.2.getLsbD 31).map Prod.fst).getD []

/-- A chip of a guest's pod by its number. -/
def State.podChip (s : State) (guest n : Nat) : Option Chip := if s.inPod guest n then s.chip? (chipKey guest n) else none

/-! ### Regions (R366, R374) -/

def Region.valid (r : Region) : Bool := r.ctl.getLsbD 63
/-- Bytes of a region. -/
def Region.size (r : Region) : Nat := bitsOf r.win.toNat 47 32 * 65536
/-- Tidal-space offset of the first byte. -/
def Region.off (r : Region) : Nat := bitsOf r.win.toNat 30 16 * 65536
def Region.rule (r : Region) : Nat := bitsOf r.ctl.toNat 2 0
def Region.et (r : Region) : Nat := bitsOf r.ctl.toNat 7 4
def Region.anchor (r : Region) : Int := sext (bitsOf r.ctl.toNat 43 32) 12
def Region.mc (r : Region) : Bool := r.ctl.getLsbD 14
def Region.mset (r : Region) : Nat := bitsOf r.ctl.toNat 13 8

/-- The valid region that holds a tidal offset. -/
def regionAt (t : Tab Region) (off : Nat) : Option (Nat × Region) :=
  t.find? fun e => e.2.valid && decide (e.2.off ≤ off) && decide (off < e.2.off + e.2.size)

/-- The device-half address of a mailbox-space offset (R366). -/
def Chip.mailbox (c : Chip) (off : Nat) : Option Nat :=
  let r := off / 2 ^ 28
  if r < 8 && decide (off % 2 ^ 28 < vget c.mbxSize r) then some ((vget c.mbxBase r).toNat + off % 2 ^ 28) else none

/-- The members of a multicast set (R369). -/
def setMembers (w : DWord) : List Nat :=
  (List.range (bitsOf w.toNat 29 20 + 1)).map fun i => bitsOf w.toNat 9 0 + i * (bitsOf w.toNat 19 10 + 1)

/-- The members of a guest's set, none where it is not valid (R370). -/
def Guest.members (g : Guest) (n : Nat) : List Nat :=
  let w := Tab.getD g.mcset n 0
  if w.getLsbD 63 then setMembers w else []

/-- The chips that a write to a region of a chip goes to. -/
def State.regionTargets (s : State) (guest vchip : Nat) (r : Region) : List Nat :=
  if r.mc then ((Tab.find s.guests guest).map fun g => g.members r.mset).getD [vchip] else [vchip]

/-- The region that a pod address reaches. -/
def State.tidalAt (s : State) (guest : Nat) (a : Nat) : Option (PodAddr × Region) :=
  match podOf a with
  | none => none
  | some p =>
    if p.mailbox then none
    else match (s.podChip guest p.vchip).bind fun c => regionAt c.tide.eff p.off with
      | some (_, r) => some (p, r)
      | none => none

/-- A pod address reaches a mailbox word. -/
def State.mailboxAt (s : State) (guest : Nat) (a : Nat) : Option PodAddr :=
  match podOf a with
  | none => none
  | some p => if p.mailbox && ((s.podChip guest p.vchip).bind fun c => c.mailbox p.off).isSome then some p else none

/-! ### Tidal writes (R207 to R209, R377) -/

/-- Bytes of an element type's container (R207). -/
def etBytes (e : Nat) : Nat := if e ≤ 2 then 4 else if e ≤ 4 then 2 else 1

/-- A packet of VC TIDE. -/
def PBody.isTidal : PBody → Bool
  | .tidal .. => true
  | _ => false

/-- The interface of a chip holds writes to a target (R385). -/
def State.heldTo (s : State) (guest src dst : Nat) : Bool :=
  s.packets.any fun p => p.guest == guest && p.src == src && p.dst == dst && p.refused && p.body.isTidal

/-- A packet at its sender's interface. -/
def Packet.new (guest src dst : Nat) (body : PBody) : Packet :=
  { guest, src, dst, body, mset := none, left := false, plane := 0, via := 0, toDev := 0, toSlot := 0, passed := false, delivered := false,
    refused := false, standing := false, kept := none, cipher := none }

/-- The half of a tide state in which writes of the open tide are counted, with its number (R211, R383). -/
def Tide.openTide (t : Tide) : Nat := if t.closed then t.c.toNat + 1 else t.c.toNat

def Tide.updOpen (t : Tide) (f : Half → Half) : Tide := if t.closed then { t with next := f t.next } else { t with now := f t.now }

/-- An element write that a half's chip has addressed to a peer is counted (R378 step 1). -/
def Half.count (h : Half) (d : Nat) : Half := { h with sent := Tab.put h.sent d (Tab.getD h.sent d 0 + 1) }

/-- ONE ELEMENT WRITE of a chip to a region that it saw at another: one packet of the chip's open tide, which counts once towards each chip
that it goes to (R209, R377, R378). A collective region's packet keeps its multicast set, whose members it goes to as it leaves (R358). -/
def State.tidalWrite (s : State) (chip vchip : Nat) (r : Region) (off width : Nat) (value : DWord) : State :=
  match s.chip? chip with
  | none => s
  | some c =>
    let p := Packet.new c.guest c.num vchip (.tidal c.tide.openTide off width r.rule r.et value)
    let s : State := { s with packets := s.packets ++ [{ p with mset := if r.mc then some r.mset else none }] }
    s.updChip chip fun k => { k with tide := k.tide.updOpen fun h => (s.regionTargets c.guest vchip r).foldl Half.count h }

/-- The lanes of a pod access whose address is misaligned or reaches nothing (R206). -/
def Ctx.podReach {α : Type} (c : Ctx) (n : Nat) (addr : Fin 32 → Nat) (at_ : Nat → Option α) : Except Trouble (Lanes (Option α)) :=
  let bad := maskOf fun i => inMask c.active i && addr i % n != 0
  let v : Lanes (Option α) := lanesFrom fun i => if inMask c.active i then at_ (addr i) else none
  let out := maskOf fun i => inMask c.active i && v[i].isNone
  if bad ≠ 0 then .error { cause := cMisalign, lanes := bad, addr := BitVec.ofNat 64 (vget (lanesFrom addr) (lowest bad)) }
  else if out ≠ 0 then .error { cause := cExtent, lanes := out, addr := BitVec.ofNat 64 (vget (lanesFrom addr) (lowest out)) }
  else .ok v

/-- The guest and chip number of an issue. -/
def Ctx.guest (c : Ctx) : Nat := c.chip / 1024

/-- A tidal store or reduction: the checks, the stall at a held interface, and the element writes in lane order. -/
def Ctx.tidal (c : Ctx) (s : State) (n : Nat) (ok : Region → Bool) (write : State → PodAddr → Region → Nat → State) : Res :=
  let guest := c.guest
  match c.podReach n c.ea (s.tidalAt guest) with
  | .error t => .trap t
  | .ok v =>
    let bad := maskOf fun i => inMask c.active i && !((v[i].map fun p => ok p.2).getD false)
    if bad ≠ 0 then .trap { cause := cIllegalOperand, lanes := bad }
    else
      let targets (i : Fin 32) : List Nat := (v[i].map fun p => s.regionTargets guest p.1.vchip p.2).getD []
      match (lanesOf c.active).find? fun i => (targets i).any fun d => s.heldTo guest (c.chip % 1024) d with
      | some i => .wait .queueFull (BitVec.ofNat 64 (c.ea i)) 0
      | none =>
        .ok { s := (lanesOf c.active).foldl (fun s i => match v[i] with | some p => write s p.1 p.2 c.vd[i] | none => s) s }

/-- TST (R207 to R209). -/
def execTst (x : Ops) (s : State) : Ans :=
  issue s (.tst x) x fun c s =>
    let wide := x.sb 0 0 = 1
    c.tidal s (if wide then 8 else 4) (fun r => r.rule == 0 || r.rule == 6) fun s p r v =>
      let s := s.tidalWrite c.chip p.vchip r p.off 4 (BitVec.ofNat 64 (v % 2 ^ 32))
      if wide then s.tidalWrite c.chip p.vchip r (p.off + 4) 4 (BitVec.ofNat 64 (v / 2 ^ 32)) else s

/-- TRED (R207 to R209). -/
def execTred (x : Ops) (s : State) : Ans :=
  issue s (.tred x) x fun c s =>
    let op := x.sb 2 0
    let e := x.sb 6 3
    let n := etBytes e
    c.tidal s n (fun r => r.rule == op + 1 && r.et == e && (decide (op < 3) || decide (e ≤ 1))) fun s p r v =>
      s.tidalWrite c.chip p.vchip r p.off n (BitVec.ofNat 64 (v % 2 ^ (8 * n)))

/-! ### Closing, waiting, querying (R210 to R213) -/

/-- A tidal copy of a chip that an actor's clock has seen issued has bytes still to hand over (R211). -/
def State.copiesBefore (s : State) (chip : Nat) (k : VClock) : Bool :=
  let queued := (s.devs.flatMap fun d => d.2.cores.flatMap fun co => co.2.copyq) ++
    ((s.chip? chip).map fun c => c.tasks.flatMap fun t => t.2.copies).getD []
  queued.any fun q =>
    q.chip == chip && q.kind != 3 && q.phase != .landed && q.phase != .entered &&
    (q.handle.map fun h => inWin podBase podSize h.base.toNat).getD false && field q.record 0 4 % 4 == 1 &&
    (let a := s.issuerAgent chip q.task q.by_
     decide (Tab.getD q.by_.clock a 1 + 1 ≤ Tab.getD k a 0))

/-- Tide C closes: the close records leave for every peer, and the closing threads release (R211, R378 step 1). -/
def Ctx.closeTide (c : Ctx) (s : State) : State :=
  match s.chip? c.chip with
  | none => s
  | some k =>
    let n := k.tide.c.toNat
    let made := (s.peers k.guest).map fun p => Packet.new k.guest k.num p (.close n (Tab.getD k.tide.now.sent p 0))
    let s : State := { s with packets := s.packets ++ made }
    let s := s.updChip c.chip fun k => { k with tide := { k.tide with closed := true } }
    (lanesOf c.active).foldl (fun s i => c.hb s fun h => h.releaseTo (c.actor s i).agent (keyTide n)) s

/-- TIDE.CLOSE by its table (R211). -/
def Ctx.tideClose (c : Ctx) (s : State) : Res :=
  match s.chip? c.chip with
  | none => .ok { s }
  | some k =>
    let n := c.once c.va
    let now := k.tide.c.toNat
    let waits : Res := .wait .tideClose (BitVec.ofNat 64 n) (BitVec.ofNat 32 n)
    if n < now then .ok { s }
    else if n = now then
      if k.tide.closed then .ok { s }
      else if (lanesOf c.active).any fun i => s.copiesBefore c.chip (c.actor s i).clock then waits
      else .ok { s := c.closeTide s }
    else if n = now + 1 && k.tide.closed then waits
    else c.trap cIllegalOperand

/-- TIDE.CLOSE (R211). -/
def execTideClose (x : Ops) (s : State) : Ans := issue s (.tideClose x) x Ctx.tideClose

/-- TIDE_CLOSE_UNBLOCK (R211). -/
def execTideCloseUnblock (g : GangRef) (lanes : LaneMask) (s : State) : Ans := s.endWait g lanes .tideClose anyInstr fun _ => Ctx.tideClose

/-- The clocks that the closes of tides 0 to n released. -/
def Hb.closesUpTo (h : Hb) (n : Nat) : VClock :=
  (h.carried.filter fun e => e.1 % 8 == 4 && decide (e.1 / 8 ≤ n)).foldl (fun k e => VClock.join k e.2) []

/-- TIDE.WAIT (R212). -/
def Ctx.tideWait (c : Ctx) (s : State) : Res :=
  match s.chip? c.chip with
  | none => .ok { s }
  | some k =>
    let n := c.once c.va
    if n < k.tide.c.toNat then
      .ok { s := (lanesOf c.active).foldl (fun s i => c.hb s fun h => h.acquire (c.actor s i).agent (h.closesUpTo n)) s }
    else .wait .tideWait (BitVec.ofNat 64 n) (BitVec.ofNat 32 n)

/-- TIDE.WAIT (R212). -/
def execTideWait (x : Ops) (s : State) : Ans := issue s (.tideWait x) x Ctx.tideWait

/-- TIDE_WAIT_END (R212). -/
def execTideWaitEnd (g : GangRef) (lanes : LaneMask) (s : State) : Ans := s.endWait g lanes .tideWait anyInstr fun _ => Ctx.tideWait

/-- Bytes of the entries in both halves (R384). -/
def Tide.entryBytes (t : Tide) : Nat := 32 * (t.now.elems.length + t.next.elems.length)

/-- Capacity of both halves (R384). -/
def Tide.capacity (t : Tide) : Nat := t.tibq * 4096 + t.tlog * 65536

/-- TIDE.QUERY's word (R213). -/
def tideWord (t : Tide) (peers : List Nat) : Nat :=
  bitNat t.closed * 2 ^ 63 + bitNat t.apply * 2 ^ 62 + bitNat (t.now.spilled || t.next.spilled) * 2 ^ 61 + bitNat t.satw * 2 ^ 60 +
    bitNat t.conf * 2 ^ 59 + ((peers.filter fun p => (Tab.find t.now.closes p).isNone).length % 2048) * 2 ^ 32 + t.c.toNat % 2 ^ 32

/-- TIDE.QUERY (R213). -/
def execTideQuery (x : Ops) (s : State) : Ans :=
  issue s (.tideQuery x) x fun c s =>
    match s.chip? c.chip with
    | none => .ok { s }
    | some k =>
      let w := tideWord k.tide (s.peers k.guest)
      let s := if x.sub = 1 then s.updChip c.chip fun k => { k with tide := { k.tide with satw := false, conf := false } } else s
      c.value s fun _ => w

/-! ### Remote loads and mailbox atomics (R214 to R216, R405) -/

/-- A gang already has 32 remote results outstanding (R405). -/
def Gang.remoteFull (g : Gang) : Bool := decide (32 ≤ (g.pend.filter fun p => p.kind != .here).length)

/-- RLD (R214): one request for each lane. -/
def execRld (x : Ops) (s : State) : Ans :=
  issue s (.rld x) x fun c s =>
    let wide := x.sb 0 0 = 1
    let reach (a : Nat) : Option PodAddr := match s.tidalAt c.guest a with | some p => some p.1 | none => s.mailboxAt c.guest a
    match c.podReach (if wide then 8 else 4) c.ea reach, c.w with
    | .error t, _ => .trap t
    | .ok _, .ctrl _ => c.trap cIllegalEncoding
    | .ok v, .gang g _ =>
      if c.g.remoteFull then .wait .remote 0 0
      else
        let tide := ((s.chip? c.chip).map fun k => k.tide.c).getD 0
        let closed := ((s.chip? c.chip).map fun k => k.tide.closed).getD false
        let made := (lanesOf c.active).filterMap fun i => v[i].map fun p =>
          Packet.new c.guest (c.chip % 1024) p.vchip (.rld g c.g.freshId i.val p.off p.mailbox wide tide closed)
        .ok { s := { s with packets := s.packets ++ made }, dst := some (Lanes.all 0), late := some (.rld wide, c.active) }

/-- The lanes of each atomic that leaves the core: combined by address, or one by one (R216). -/
def ratomGroups (combine : Bool) (addr : Fin 32 → Nat) : List (Fin 32) → List (Nat × List (Fin 32)) → List (Nat × List (Fin 32))
  | [], acc => acc
  | i :: is, acc =>
    if combine && acc.any fun g => g.1 == addr i then
      ratomGroups combine addr is (acc.map fun g => if g.1 = addr i then (g.1, g.2 ++ [i]) else g)
    else ratomGroups combine addr is (acc ++ [(addr i, [i])])

/-- Operations whose lanes are reduced into one atomic (R216). -/
def ratomCombines (op : Nat) : Bool := op ≤ 6 || op == 10 || op == 11

/-- The releases that an atomic of a thread puts on its word: its own at the guest's pod, and its fences' in force (R293, R296, R305). -/
def Hb.toPod (h : Hb) (agent : Nat) (rel : Bool) (view : ScopeView) : List Release :=
  (if rel then [⟨h.clock agent, view⟩] else []) ++ (Tab.getD h.relFence agent []).map fun f => ⟨f.clock, f.at_⟩

/-- Releases as another chip holds them: those at an entry that holds the guest's other chips. -/
def releasesAbroad (chip : Nat) (rs : List Release) : List Release :=
  (rs.filter fun r => r.at_.pod).map fun r => ⟨r.clock.abroad chip, ScopeView.ofPod⟩

/-- RATOM (R215, R216). A release publishes the issuing thread's past with the request. -/
def execRatom (x : Ops) (s : State) : Ans :=
  issue s (.ratom x) x fun c s =>
    let wide := x.sb 6 6 = 1
    let op := x.sb 3 0
    let ord := x.sb 5 4
    let addr (i : Fin 32) : Nat := c.va[i]
    match c.podReach (if wide then 8 else 4) addr (s.mailboxAt c.guest), c.w with
    | .error t, _ => .trap t
    | .ok _, .ctrl _ => c.trap cIllegalEncoding
    | .ok v, .gang g _ =>
      if c.g.remoteFull then .wait .remote 0 0
      else
        let s := (ratomGroups (ratomCombines op) addr (lanesOf c.active) []).foldl (fun s gr =>
          match gr.2.head? with
          | none => s
          | some i =>
            match v[i] with
            | none => s
            | some p =>
              let past := gr.2.foldl (fun k j => VClock.join k (c.actor s j).clock) []
              let rels := gr.2.flatMap fun j => ((s.chip? c.chip).map fun k => k.hb.toPod (c.actor s j).agent (ord.testBit 1) (k.scopeView 4 c.core.core g.task)).getD []
              let rels := if c.chip % 1024 = p.vchip then rels else releasesAbroad c.chip rels
              let s := if ord.testBit 1 then gr.2.foldl (fun s j => c.hb s fun h => (h.publish (c.actor s j).agent).2) s else s
              let vals := gr.2.map fun j => (BitVec.ofNat 64 c.vd[j], BitVec.ofNat 64 c.vb[j])
              let body := PBody.ratom g c.g.freshId (gr.2.map Fin.val) p.off op ord wide vals (if c.chip % 1024 = p.vchip then past else past.abroad c.chip) rels
              { s with packets := s.packets ++ [Packet.new c.guest (c.chip % 1024) p.vchip body] }) s
        .ok { s, dst := some (Lanes.all 0), late := some (.ratom wide, c.active) }

end Sys2Proof.Machine
end

