-- ==== Sys2Proof/Machine/Fabric.lean ====
section
/-! DEFINITION. Packets in the fabric: departure, discard, arrival and acknowledgement (R214, R216, R352, R353, R358 to R364, R383 to R385,
R405, R416), and the turn of a tide (R332, R333, R378 to R382). -/

namespace Sys2Proof.Machine

/-! ### Channels, planes, order -/

/-- The virtual channel of a packet (R364). -/
def PBody.vc : PBody → Nat
  | .rld .. => 0 | .ratom .. => 0 | .fetch .. => 0 | .reply .. => 1 | .fetched .. => 1 | .tidal .. => 2 | .msg _ => 3 | .close .. => 4

/-- The hash of R361. -/
def Packet.hash (p : Packet) : Nat :=
  let o (off : Nat) (mb : Bool) : Nat :=
    let x := p.dst * 2 ^ 32 + bitNat mb * 2 ^ 31 + off
    bitsOf x 9 6 ^^^ bitsOf x 13 10 ^^^ bitsOf x 17 14 ^^^ (p.dst % 16)
  match p.body with
  | .tidal _ off .. => o off false
  | .rld _ _ _ off mb .. => o off mb
  | .ratom _ _ _ off .. => o off true
  | .msg _ => p.src % 16 ^^^ (p.dst % 16)
  | .close .. => p.src % 16 ^^^ (p.dst % 16)
  | .fetch _ _ _ _ off _ mb .. => o off mb
  | .reply .. => p.via
  | .fetched .. => p.via

/-- The set bit of a mask with a rank. -/
def rankBit (m : BitVec 16) (rank : Nat) : Option Nat := ((List.range 16).filter fun k => m.getLsbD k)[rank]?

/-- The plane a packet leaves on (R361); none when no plane works. -/
def Packet.choose (p : Packet) (live planes : BitVec 16) : Option Nat :=
  let m := live &&& planes
  let n := ((List.range 16).filter fun k => m.getLsbD k).length
  if n = 0 then none else rankBit m (p.hash % n)

/-- Two packets belong to one flow: sender, target and channel. A write to a multicast set that has not left goes to any target. -/
def Packet.sameFlow (p q : Packet) : Bool :=
  p.guest == q.guest && p.src == q.src && p.body.vc == q.body.vc && (p.dst == q.dst || p.mset.isSome || q.mset.isSome)

/-- The device of a chip of a guest. -/
def State.devOf (s : State) (guest n : Nat) : Nat := ((s.chip? (chipKey guest n)).map Chip.dev).getD 0

/-- A packet is discarded and counted (R358, R359, R371). -/
def State.countDiscard (s : State) (dev : Nat) : State := s.updDev dev fun d => { d with fabErr := (d.fabErr + 1) % 2 ^ 32 }

/-- The task that waits for a reply ends with ENGINE_FAULT, NOROUTE (R359). The fault has no DEFER: RESUME is the address after the RLD or
RATOM (R396). -/
def State.noRoute (s : State) (g : GangRef) (id : Nat) : State :=
  match s.task? g.chip g.task, s.gang? g with
  | some t, some q =>
    if t.ended then s
    else
      let p := (q.pend ++ q.saved).find? fun p => p.id == id
      let active := (p.map Pend.active).getD 0
      let pc := (p.map Pend.pc).getD 0
      let next := pc + BitVec.ofNat 64 ((p.map fun p => p.instr.bytes).getD 16)
      s.endTask g.chip g.task (faultRecord { cause := cEngineFault, detail := 16, lanes := active } q.frame.isSome true false active g.gang
        t.handle t.num pc next)
  | _, _ => s

/-- A packet taken out of the fabric's list. -/
def State.dropPacket (s : State) (k : Nat) : State := { s with packets := s.packets.eraseIdx k }

/-- The copy command of a task with a number, in its core's queue or saved. -/
def State.copyBySeq (s : State) (chip task seq : Nat) : Option CopyCmd :=
  let here := s.devs.flatMap fun d => d.2.cores.flatMap fun k => k.2.copyq
  let saved := ((s.task? chip task).map Task.copies).getD []
  (here ++ saved).find? fun q => q.chip == chip && q.task == task && q.by_.seq == seq && q.kind != 3

/-- The fate of a packet that translation or delivery discards: counted, and a remote read or atomic and its reply end the task that waits
for them (R359, R371, R377). -/
def State.discarded (s : State) (p : Packet) (dev : Nat) : State :=
  let s := s.countDiscard dev
  let copy (chip task seq : Nat) : State :=
    match s.copyBySeq chip task seq with
    | some q => s.engineFault chip task q.by_ { cause := cEngineFault, detail := 16, lanes := q.by_.lanes }
    | none => s
  match p.body with
  | .rld g id .. => s.noRoute g id
  | .ratom g id .. => s.noRoute g id
  | .reply g id .. => s.noRoute g id
  | .fetch chip task seq .. => copy chip task seq
  | .fetched chip task seq .. => copy chip task seq
  | _ => s

/-- A packet discarded from the fabric's list. -/
def State.discard (s : State) (k : Nat) (p : Packet) (dev : Nat) : State := (s.dropPacket k).discarded p dev

/-! ### Targets that cannot take a packet -/

/-- A half has room for an element's entry (R384). -/
def Tide.room (t : Tide) (h : Half) (off : Nat) : Bool :=
  (Tab.find h.elems off).isSome || decide (64 * (h.elems.length + 1) ≤ t.capacity)

/-- A chip has no cores (R391). -/
def Chip.descheduled (c : Chip) : Bool := c.cores % 2 ^ 20 == 0

/-- A message as an entry of the inbound log: a 32-byte head, and the payload rounded up to 32 bytes (R367). -/
def Msg.logEntry (m : Msg) : List Byte :=
  le 2 m.src ++ le 1 m.tag ++ zeros 1 ++ le 4 m.payload.length ++ le 8 m.flag.toNat ++ le 8 m.flagv.toNat ++ zeros 8 ++ m.payload ++
    zeros ((32 - m.payload.length % 32) % 32)

/-- The inbound log of a chip as bytes, oldest entry first (R218, R367). -/
def Chip.logBytes (c : Chip) : List Byte := c.inlog.flatMap Msg.logEntry

/-- A tag nothing has declared. -/
def RxTag.reset : RxTag :=
  { base := 0, v := false, next := 0, drop := 0, busy := 0, nslot := 0, unfired := [], count := 0, held := [] }

/-- A chip can take a message now: its log has room, or its tag's next slot is free, or the tag drops it (R218, R367). -/
def Chip.takes (c : Chip) (m : Msg) : Bool :=
  if c.descheduled then decide (c.logBytes.length + m.logEntry.length ≤ c.inlogSize * 32)
  else
    let r := Tab.getD c.rx m.tag RxTag.reset
    c.inlog.isEmpty && (if r.v then !r.busy.getLsbD r.next else r.base != 0)

/-- The half of a tide state for tide n (R383). -/
def Tide.half (t : Tide) (n : Nat) : Option Half := if n = t.c.toNat then some t.now else if n = t.c.toNat + 1 then some t.next else none

def Tide.setHalf (t : Tide) (n : Nat) (h : Half) : Tide := if n = t.c.toNat then { t with now := h } else { t with next := h }

/-- A chip's state lets a packet land. -/
def Chip.accepts (c : Chip) (p : Packet) : Bool :=
  match p.body with
  | .tidal n off .. => match c.tide.half n with | some h => c.tide.room h off | none => true
  | .msg m => c.takes m
  | _ => true

/-! ### Departure -/

/-- The key-store slot of a protected guest's virtual link on a device, in a state (R416). -/
def Device.linkSlot (d : Device) (guest src dst state : Nat) : Option Nat :=
  (d.keys.find? fun e => e.2.kind == 2 && e.2.guest == guest && e.2.chipA == src && e.2.chipB == dst && e.2.state == state).map Prod.fst

/-- A packet travels a virtual link that carries AES-GCM: one between two chips of a protected guest (R416). -/
def State.sealedLink (s : State) (p : Packet) : Bool := ((Tab.find s.guests p.guest).map Guest.prot).getD false && p.src != p.dst

/-- What the link key lets a packet of a device do: 0 wait, 1 leave, 2 be discarded; with the counter's slot. -/
def State.linkGate (s : State) (dev : Nat) (p : Packet) : Nat × Option Nat :=
  if !s.sealedLink p then (1, none)
  else
    match s.dev? dev with
    | none => (1, none)
    | some d =>
      match d.linkSlot p.guest p.src p.dst 2 with
      | some k => (if Tab.getD d.linkCtr k 0 < 2 ^ 48 then 1 else 0, some k)
      | none => (if (d.linkSlot p.guest p.src p.dst 4).isSome then 2 else 0, none)

/-- The nonce under which a packet is sealed (R416): the counter, then the chip numbers of source and target. -/
def Packet.nonce (p : Packet) (count : Nat) : Nat := count % 2 ^ 64 + p.src % 1024 * 2 ^ 64 + p.dst % 1024 * 2 ^ 80

/-- What a packet carries, as numbers: its kind and its fields in their order. -/
def PBody.words : PBody → List Nat
  | .tidal n off width rule et v => [0, n, off, width, rule, et, v.toNat]
  | .close n count => [1, n, count]
  | .msg m => [2, m.src, m.dst, m.tag, m.flag.toNat, m.flagv.toNat] ++ m.payload.map BitVec.toNat
  | .rld g id lane off mb wide tide closed => [3, g.task, g.gang, id, lane, off, bitNat mb, bitNat wide, tide.toNat, bitNat closed]
  | .ratom g id lanes off op ord wide vals _ _ =>
    [4, g.task, g.gang, id, off, op, ord, bitNat wide] ++ lanes ++ vals.flatMap fun v => [v.1.toNat, v.2.toNat]
  | .reply g id vs _ acq => [5, g.task, g.gang, id, bitNat acq] ++ vs.flatMap fun v => [v.1, v.2.toNat]
  | .fetch _ task seq num off bytes mb tide closed => [6, task, seq, num, off, bytes, bitNat mb, tide.toNat, bitNat closed]
  | .fetched _ task seq num bs => [7, task, seq, num] ++ bs.map BitVec.toNat

/-- The tag of a packet under a LINK key and its link's counter (R416). How a packet's fields stand in its flits is the device's own (log
entry 6). -/
def Packet.tag (p : Packet) (bits : List DWord) (count : Nat) : BitVec 128 :=
  Config.gcmTag bits (p.nonce count) p.guest ((Config.flits p.body.words).mapIdx fun k b => (k, b))

/-- The seal of the next packet under a LINK slot (R416). -/
def Device.sealFor (d : Device) (slot : Nat) (p : Packet) : LinkSeal :=
  let bits := ((Tab.find d.keys slot).map KeySlot.bits).getD []
  let count := Tab.getD d.linkCtr slot 0
  ⟨bits, count, p.tag bits count⟩

/-- The LINK slot of a device under which a packet's tag verifies: it is bound to the packet's link, active or retiring, holds the key of the
seal, and the tag that it gives the packet is the one in its last flit (R414, R416). -/
def Device.opens (d : Device) (p : Packet) (q : LinkSeal) : Option Nat :=
  (d.keys.find? fun e => e.2.kind == 2 && e.2.guest == p.guest && e.2.chipA == p.src && e.2.chipB == p.dst && (e.2.state == 2 || e.2.state == 3) &&
    e.2.bits == q.bits && p.tag e.2.bits q.count == q.tag).map Prod.fst

/-- The target's interface takes a packet of a sealed link: no end's key is revoked (R415), its tag verifies, and its counter is above the last
that was accepted under the key (R416; log entry 122). -/
def State.unseals (s : State) (p : Packet) : Bool :=
  !s.sealedLink p || ((s.linkGate (s.devOf p.guest p.src) p).1 != 2 &&
    match p.cipher, s.dev? p.toDev with
    | some q, some d => (d.opens p q).any fun k => decide (Tab.getD d.linkSeen k 0 ≤ q.count)
    | _, _ => false)

/-- A packet's counter is the last that its receiver has accepted (R416). -/
def State.accept (s : State) (p : Packet) : State :=
  match p.cipher, s.dev? p.toDev with
  | some q, some d =>
    match d.opens p q with
    | some k => s.updDev p.toDev fun d => { d with linkSeen := Tab.put d.linkSeen k (q.count + 1) }
    | none => s
  | _, _ => s

/-- Packets in flight stand first, in the order in which they left. -/
def State.depart (s : State) (p : Packet) : State :=
  { s with packets := s.packets.filter Packet.left ++ [p] ++ s.packets.filter fun q => !q.left }

/-- Packets stand at their sender's interface again, before those of their flows that have not left (R362). -/
def State.backAtSender (s : State) (ps : List Packet) : State :=
  { s with packets := s.packets.filter Packet.left ++ ps.map (fun p => { p with left := false, passed := false, cipher := none }) ++
      s.packets.filter fun q => !q.left }

/-- A message that its target has taken, or that is discarded, frees its place in the outbound store (R219). -/
def Chip.freeOutbound (c : Chip) (m : Msg) : Chip :=
  { c with outbound := match c.outbound.findIdx? fun o => o.read && o.msg == m with | some i => c.outbound.eraseIdx i | none => c.outbound }

/-- The place of a packet's message is free. -/
def State.freePlace (s : State) (p : Packet) : State :=
  match p.body with
  | .msg m => s.updChip (chipKey p.guest p.src) fun c => c.freeOutbound m
  | _ => s

/-- Flits of a packet: its head, and 64 bytes in each data flit (R364; log entry 109). -/
def PBody.flits : PBody → Nat
  | .tidal .. => 2
  | .close .. => 1
  | .msg m => 1 + (m.payload.length + 63) / 64
  | .rld .. => 1
  | .fetch .. => 1
  | .ratom _ _ lanes .. => 1 + (16 * lanes.length + 63) / 64
  | .reply _ _ values .. => 1 + (8 * values.length + 63) / 64
  | .fetched _ _ _ _ bs => 1 + (bs.length + 63) / 64

/-- A link that works whole: 8 lanes and 2,048 flits (R364, R365). -/
def Link.whole : Link := ⟨8, 2048, .up⟩

def Device.link (d : Device) (plane : Nat) : Link := Tab.getD d.links plane Link.whole

/-- Flits of a channel in the receive buffer at one end of a device's link on a plane: the device's own, or the one that the switch keeps for
the other direction (R364; log entry 140). -/
def State.bufferUse (s : State) (dev plane vc : Nat) (atSwitch : Bool) : Nat :=
  (s.packets.filter fun p => p.left && !p.delivered && p.plane == plane && p.body.vc == vc &&
    (if atSwitch then !p.passed && s.devOf p.guest p.src == dev else p.passed && p.toDev == dev)).foldl (fun n p => n + p.body.flits) 0

/-- The receive buffer at an end of a link has credits of a packet's channel: its own reserve of 64 flits, or what the other channels' reserves
leave (R364). A packet longer than what a link has left goes through an empty channel flit by flit. -/
def State.credits (s : State) (dev plane vc flits : Nat) (atSwitch : Bool) : Bool :=
  let use (v : Nat) : Nat := s.bufferUse dev plane v atSwitch
  let total := ((s.dev? dev).map fun d => (d.link plane).flits).getD 2048
  use vc == 0 || decide ((List.range 6).foldl (fun n v => n + max 64 (use v + if v = vc then flits else 0)) 0 ≤ total)

/-- The packet at a place moves on from its switch, where the target's link has credits and no earlier packet of its channel, plane and pair of
devices still stands there (R362, R364). -/
def State.passAt (s : State) (k : Nat) : State :=
  match s.packets[k]? with
  | none => s
  | some p =>
    let behind := (s.packets.take k).any fun q => q.left && !q.passed && q.plane == p.plane && q.body.vc == p.body.vc && q.toDev == p.toDev &&
      s.devOf q.guest q.src == s.devOf p.guest p.src
    if p.left && !p.passed && !behind && s.credits p.toDev p.plane p.body.vc p.body.flits false then
      { s with packets := s.packets.modify k fun q => { q with passed := true } }
    else s

/-- Every packet that can moves on from its switch, in the order in which they left. -/
def State.passOn (s : State) : State := (List.range s.packets.length).foldl State.passAt s

/-- The packets that one at its sender's interface goes out as: to each member of its multicast set as that stands now, or to its target
(R358, R369; log entry 138). -/
def State.copiesOf (s : State) (p : Packet) : List Packet :=
  match p.mset with
  | none => [p]
  | some m => (((Tab.find s.guests p.guest).map fun g => g.members m).getD []).map fun d => { p with dst := d, mset := none }

/-- A chip's state lets a packet leave that its target has refused, or a message: none leaves that would be refused again (R218, R353, R367,
R385). -/
def State.mayLeave (s : State) (p : Packet) : Bool :=
  match p.body with
  | .msg m => ((s.chip? (chipKey p.guest p.dst)).map fun c => c.takes m).getD true
  | _ => !p.refused || ((s.chip? (chipKey p.guest p.dst)).map fun c => c.accepts p).getD true

/-- A packet that no longer stands in the list leaves its sender's interface, translated, or is discarded (R358, R361, R416); none where it has
to wait. -/
def State.leave (s : State) (p : Packet) : Option State :=
  let g := Tab.find s.guests p.guest
  let dev := s.devOf p.guest p.src
  let v := s.vctEntry p.guest p.dst
  let label := (g.map fun g => Tab.getD g.rlt (bitsOf v.toNat 9 0) 0).getD 0
  if !s.mayLeave p then none
  else if !v.getLsbD 31 || !label.getLsbD 31 then some ((s.discarded p dev).freePlace p)
  else
    let live := ((s.dev? dev).map Device.live).getD 0
    let gate := s.linkGate dev p
    match p.choose live (BitVec.ofNat 16 (bitsOf label.toNat 25 10)) with
    | none => none
    | some plane =>
      if gate.1 = 0 then none
      else if gate.1 = 2 then some ((s.discarded p dev).freePlace p)
      else if !s.credits dev plane p.body.vc p.body.flits true then none
      else
        let cipher := match gate.2, s.dev? dev with | some slot, some d => some (d.sealFor slot p) | _, _ => none
        let s := match gate.2 with
          | some slot => s.updDev dev fun d => { d with linkCtr := Tab.put d.linkCtr slot (Tab.getD d.linkCtr slot 0 + 1) }
          | none => s
        some (s.depart { p with left := true, passed := false, refused := false, plane, toDev := bitsOf label.toNat 9 0,
                                toSlot := bitsOf v.toNat 25 21, cipher })

/-- PACKET_DEPARTURE (R353, R358, R361, R364, R369, R416): the packet leaves, to each member of a multicast set. -/
def execPacketDeparture (k : Nat) (s : State) : Ans :=
  match s.packets[k]? with
  | none => notEnabled s
  | some p =>
    let held := ((Tab.find s.guests p.guest).map fun g => g.held || g.remap).getD false
    let behind := (s.packets.take k).any fun q => !q.left && q.sameFlow p
    if p.left || held || behind then notEnabled s
    else
      match (s.copiesOf p).foldlM State.leave (s.passOn.dropPacket k) with
      | some t => .next t
      | none => notEnabled s

/-! ### Arrival -/

/-- How a packet's arrival stands. -/
inductive Landing where
  | no
  /-- delivered to no chip of the guest: discarded by the target's interface (R358) -/
  | lost (p : Packet) (s : State)
  | at_ (p : Packet) (chip : Nat) (c : Chip)

/-- A packet's plane has failed at its sender's or its target's device (R365). -/
def State.cut (s : State) (p : Packet) : Bool :=
  let dead (dev : Nat) : Bool := ((s.dev? dev).map fun d => (d.link p.plane).state == .failed).getD false
  dead p.toDev || dead (s.devOf p.guest p.src)

/-- A packet in flight reaches its target's interface when its link's buffer has taken it (R364) and no earlier one of its channel, plane and pair
of devices is still to be delivered (R362), over a link that works. One that no slot of its chip takes, or that its link does not unseal, is
discarded (R358, R415, R416). -/
def State.landing (s : State) (k : Nat) (ok : PBody → Bool) : Landing :=
  match s.passOn.packets[k]? with
  | none => .no
  | some p =>
    let dev (q : Packet) : Nat := s.devOf q.guest q.src
    let behind := (s.packets.take k).any fun q =>
      q.left && !q.delivered && q.plane == p.plane && q.body.vc == p.body.vc && q.toDev == p.toDev && dev q == dev p
    if !p.left || !p.passed || p.delivered || !ok p.body || behind || s.cut p then .no
    else
      let key := chipKey p.guest p.dst
      let lost : Landing := .lost p ((s.discard k p p.toDev).freePlace p)
      match (s.dev? p.toDev).bind fun d => Tab.find d.slots p.toSlot, s.chip? key with
      | some h, some c => if h = key && s.unseals p then .at_ p key c else lost
      | _, _ => lost

/-- A packet has been delivered; its counter counts from its first arrival (R416). A remote read may stand at its target from then on. -/
def State.received (s : State) (k : Nat) (standing : Bool) : State :=
  match s.packets[k]? with
  | none => s
  | some p =>
    let t := if p.delivered then s else s.accept p
    { t with packets := t.packets.modify k fun q => { q with delivered := true, standing } }

/-- A packet has been delivered. -/
def State.delivered (s : State) (k : Nat) : State := s.received k false

/-- A PACKET THAT ITS TARGET REFUSES stands at its sender's interface again, and with it, behind it, every later packet of its flow that is still
under way: the sender's interface holds them in order (R218, R367, R385). -/
def State.refuse (s : State) (k : Nat) (p : Packet) : State :=
  let later (q : Packet) : Bool := q.left && !q.delivered && q.sameFlow p
  let rest := s.packets.drop (k + 1)
  let s := { s with packets := s.packets.take k ++ rest.filter fun q => !later q }
  s.backAtSender (({ p with refused := true } :: rest.filter later).map fun q => { q with refused := true })

/-- TIDAL_WRITE_ARRIVAL (R383 to R385). -/
def execTidalWriteArrival (k : Nat) (s : State) : Ans :=
  match s.landing k PBody.isTidal with
  | .no => notEnabled s
  | .lost _ t => .next t
  | .at_ p key c =>
    match p.body with
    | .tidal n off width rule et value =>
      if !c.accepts p then .next (s.refuse k p)
      else
        match c.tide.half n with
        | none => .next (s.delivered k)
        | some h =>
          let e : TElem := Tab.getD h.elems off ⟨width, []⟩
          let spills := (Tab.find h.elems off).isNone && decide (c.tide.tibq * 4096 < 32 * (c.tide.now.elems.length + c.tide.next.elems.length + 1))
          let h : Half := { h with elems := Tab.put h.elems off { e with writes := e.writes ++ [⟨p.src, rule, et, value⟩] },
                                   got := Tab.put h.got p.src (Tab.getD h.got p.src 0 + 1), spilled := h.spilled || spills }
          .next ((s.delivered k).updChip key fun c => { c with tide := c.tide.setHalf n h })
    | _ => notEnabled s

/-- CLOSE_RECORD_ARRIVAL (R378 step 2). -/
def execCloseRecordArrival (k : Nat) (s : State) : Ans :=
  match s.landing k (fun b => match b with | .close .. => true | _ => false) with
  | .no => notEnabled s
  | .lost _ t => .next t
  | .at_ p key c =>
    match p.body with
    | .close n count =>
      match c.tide.half n with
      | none => .next (s.delivered k)
      | some h => .next ((s.delivered k).updChip key fun c => { c with tide := c.tide.setHalf n { h with closes := Tab.put h.closes p.src count } })
    | _ => notEnabled s

/-- The places of a word of a chip's tidal or mailbox space (R278): under the chip's own leases, which a mailbox has of the pages that were
mapped as it was declared. -/
def Chip.podPlaces (c : Chip) (key off n : Nat) (mailbox : Bool) : Option (List Place) :=
  if mailbox then
    match c.mailbox off with
    | some a =>
      let held := vget c.mbxHeld (off / 2 ^ 28)
      let ps := (List.range n).filterMap fun j => match leasePlace key held (a + j) with | some p => some p | none => c.vaPlace key false (a + j)
      if ps.length = n then some ps else none
    | none => none
  else
    match regionAt c.tide.eff off with
    | some (r, reg) =>
      let ls := Tab.getD c.tide.held r []
      let ps := (List.range n).filterMap fun j => leasePlace key ls (reg.base.toNat + (off - reg.off) + j)
      if ps.length = n then some ps else none
    | none => none

/-- A reply at its maker's interface, on the plane of its request (R361). -/
def replyTo (p : Packet) (body : PBody) : Packet := { Packet.new p.guest p.dst p.src body with via := p.plane }

/-- A request that reads remotely: RLD's, or a copy's (R214, R377). -/
def PBody.isRead : PBody → Bool
  | .rld .. => true
  | .fetch .. => true
  | _ => false

/-- Where a remote read reads: offset, bytes, mailbox space; and the tide of its reader, with whether that was closed. -/
def PBody.reads : PBody → Option (Nat × Nat × Bool × DWord × Bool)
  | .rld _ _ _ off mb wide tide closed => some (off, if wide then 8 else 4, mb, tide, closed)
  | .fetch _ _ _ _ off n mb tide closed => some (off, n, mb, tide, closed)
  | _ => none

/-- The answer to a remote read. -/
def Packet.answer (p : Packet) (v : Nat) : List Packet :=
  match p.body with
  | .rld g id lane .. => [replyTo p (.reply g id [(lane, BitVec.ofNat 64 v)] [] false)]
  | .fetch chip task seq num _ n .. => [replyTo p (.fetched chip task seq num (le n v))]
  | _ => []

/-- A remote read is served: the bytes as they stand, or those it has kept. A word that no longer lies in a region, or whose page is gone,
gives a free value (log entries 4 and 20). -/
def State.serveRead (s : State) (k : Nat) (p : Packet) (key : Nat) (c : Chip) : State :=
  match p.body.reads with
  | none => s
  | some (off, n, mb, _, _) =>
    let r : Nat × State :=
      match p.kept, c.podPlaces key off n mb with
      | some v, _ => (v, s)
      | none, some ps => (s.readPlaces ps, s)
      | none, none => let f := s.freeBytes n; (field f.1 0 n, f.2)
    let t := r.2.received k false
    { t with packets := t.packets ++ p.answer r.1 }

/-- RLD_SERVE (R214): a request whose turn at the target is still to come stands there; it is served once the target's counter has reached
its reader's. -/
def execRldServe (k : Nat) (s : State) : Ans :=
  let due (p : Packet) (c : Chip) : Bool := match p.body.reads with | some (_, _, _, tide, _) => decide (tide ≤ c.tide.c) | none => false
  match s.landing k PBody.isRead with
  | .lost _ t => .next t
  | .at_ p key c =>
    if due p c then .next (s.serveRead k p key c)
    else .next (s.received k true)
  | .no =>
    match s.packets[k]? with
    | some p =>
      match p.standing, s.chip? (chipKey p.guest p.dst) with
      | true, some c => if due p c then .next (s.serveRead k p (chipKey p.guest p.dst) c) else notEnabled s
      | _, _ => notEnabled s
    | none => notEnabled s

/-- Before a turn of a chip, the remote reads on their way to it that must not see the turn keep what stands now: those that were issued
before their reader's close of the tide, and those issued after it at the turn that follows (R214). -/
def State.keepReads (s : State) (key : Nat) (c : Chip) : State :=
  { s with packets := s.packets.map fun p =>
      match p.body.reads with
      | some (off, n, mb, tide, closed) =>
        if p.guest == c.guest && p.dst == c.num && (!p.delivered || p.standing) && p.kept.isNone && !mb &&
            (tide.toNat + bitNat closed) == c.tide.c.toNat then
          match c.podPlaces key off n false with
          | some ps => { p with kept := some (s.readPlaces ps) }
          | none => p
        else p
      | none => p }

/-- The steps of an atomic's lanes at a mailbox word, in lane order (R151, R215, R216): the values fetched and the last value. -/
def mailboxSteps (op w : Nat) : List (Nat × DWord × DWord) → Nat → List (Nat × DWord) × Nat
  | [], old => ([], old)
  | (lane, v, new) :: rest, old =>
    let x := v.toNat % 2 ^ w
    let next := if op = 12 then (if old = x then new.toNat % 2 ^ w else old) else atomicOp op w old x
    let r := mailboxSteps op w rest next
    ((lane, BitVec.ofNat 64 old) :: r.1, r.2)

/-- An atomic at a mailbox writes its word: a compare and swap does where some lane's comparison succeeds (R152, R292). -/
def mailboxWrites (op w : Nat) (vals : List (DWord × DWord)) (got : List (Nat × DWord)) : Bool :=
  op != 12 || (got.zip vals).any fun e => e.1.2.toNat == e.2.1.toNat % 2 ^ w

/-- A byte of memory as a thread's access, which race detection sees. -/
def Place.tracked : Place → Place
  | .dram k a _ => .dram k a true
  | p => p

/-- The actor of a mailbox atomic at the word's home (R292, R299): the issuing thread, by its name there. -/
def State.podActor (s : State) (p : Packet) (g : GangRef) (lane : Nat) (clock : VClock) : Actor :=
  let a := s.actor g lane
  if p.src = p.dst then { a with clock, clk := Tab.getD clock a.agent 1 }
  else
    let name := agentAbroad g.chip a.agent
    { a with agent := name, gang := agentAbroad g.chip a.gang, clk := Tab.getD clock name 1, clock := clock.home (chipKey p.guest p.dst) }

/-- The lanes of an outstanding result without some that its race takes away; none where no lane is left. -/
def Pend.spare (p : Pend) (m : LaneMask) : Option Pend :=
  if p.active &&& ~~~m = 0 then none
  else some { p with lanes := p.lanes &&& ~~~m, missing := p.missing &&& ~~~m, active := p.active &&& ~~~m, traps := p.traps &&& ~~~m }

/-- An atomic of another thread races with an access to its word that nothing orders with it: the threads of the packet take MMRACE, deferred, and
the others of the instruction go on (R299 to R301, R396; log entry 139). In handler mode it ends the task, with NEST (R399). -/
def State.podRace (s : State) (k : Nat) (g : GangRef) (id : Nat) (m : LaneMask) (write : Bool) (a : Nat) (e : PastAccess) : State :=
  let s := s.dropPacket k
  match s.gang? g with
  | none => s
  | some q =>
    match (q.pend ++ q.saved).find? fun e => e.id == id with
    | none => s
    | some r =>
      let d := raceDetail write e
      let t : Trouble := { cause := cMmrace, detail := d, lanes := m, addr := BitVec.ofNat 64 a, xd := if d = 3 then [] else e.xd, deferred := true, sup := r.sup }
      let without (l : List Pend) : List Pend := l.filterMap fun e => if e.id == id then e.spare m else some e
      (s.updGang g fun q => { q with pend := without q.pend, saved := without q.saved }).faultGang g t m r.pc (r.pc + BitVec.ofNat 64 r.instr.bytes) r.repl

/-- A gang whose fault waits for a frame, or that stands on no core, takes its next fault later (R399, R402). -/
def State.gangBusy (s : State) (g : GangRef) : Bool :=
  (((s.gang? g).map fun q => q.waiting.isSome).getD false) || (((s.task? g.chip g.task).map fun t => t.core.isNone).getD false)

/-- MAILBOX_ATOMIC_ARRIVAL (R215, R216, R296, R299, R305): the steps at the home, which go on the word's release sequence. -/
def execMailboxAtomicArrival (k : Nat) (s : State) : Ans :=
  match s.landing k (fun b => match b with | .ratom .. => true | _ => false) with
  | .no => notEnabled s
  | .lost _ t => .next t
  | .at_ p key c =>
    match p.body with
    | .ratom g id lanes off op ord wide vals clock rels =>
      let n := if wide then 8 else 4
      match c.podPlaces key off n true with
      | none =>
        let r := lanes.foldl (fun (a : List (Nat × DWord) × State) l => let f := a.2.free; (a.1 ++ [(l, if wide then f.1 else f.1 &&& 0xFFFFFFFF)], f.2)) ([], s)
        let t := r.2.delivered k
        .next { t with packets := t.packets ++ [replyTo p (.reply g id r.1 [] false)] }
      | some ps =>
        let ps := ps.map Place.tracked
        let actor := s.podActor p g (lanes.headD 0) clock
        let r := mailboxSteps op (8 * n) (lanes.zip vals) (s.readPlaces ps)
        let write := mailboxWrites op (8 * n) vals r.1
        match s.findRace actor true write (podBase + p.dst * 2 ^ 32 + 2 ^ 31 + off) ps with
        | some (a, e) => if s.gangBusy g then notEnabled s else .next (s.podRace k g id (maskOf fun i => lanes.contains i.val) write a e)
        | none =>
          let t := (if write then (s.delivered k).writePlaces ps r.2 else s.delivered k).noteAccess actor true write ps
          let addrs := ps.map placeKey
          let seq := c.hb.sequence addrs
          let mine := if p.src = p.dst then rels else rels.map fun r => { r with clock := r.clock.home key }
          let t := if write then t.updChip key fun c => { c with hb := c.hb.putReleases addrs mine true } else t
          let seen := if p.src = p.dst then seq else releasesAbroad key seq
          .next { t with packets := t.packets ++ [replyTo p (.reply g id r.1 seen (ord % 2 == 1))] }
    | _ => notEnabled s

/-- The values of a reply in an outstanding result. -/
def Pend.fill (p : Pend) (vals : List (Nat × DWord)) : Pend :=
  vals.foldl (fun p e =>
    { p with missing := p.missing &&& ~~~(1#32 <<< e.1), vals := p.vals.set (Fin.ofNat 32 e.1) (e.2.setWidth 128) }) p

/-- The frame's entry of a remote result takes a reply's values, and FULL when none is missing (R405). -/
def State.fillFrame (s : State) (g : GangRef) (frame : Nat) (p : Pend) (vals : List (Nat × DWord)) : State :=
  match s.chip? g.chip with
  | none => s
  | some c =>
    let base := c.trap.tfbase.toNat + 65536 * frame + 0x40 + 0x1E00 + 280 * p.id
    let s := vals.foldl (fun s e => s.leaseWrite g.chip c.trap.area (base + 24 + 8 * e.1) (le 8 e.2.toNat)) s
    if p.missing = 0 then
      let old := (s.leaseRead g.chip c.trap.area (base + 2) 1).headD 0
      s.leaseWrite g.chip c.trap.area (base + 2) [old ||| 1]
    else s

/-- DELIVERY_ACKNOWLEDGEMENT (R363). -/
def execDeliveryAcknowledgement (k : Nat) (s : State) : Ans :=
  match s.packets[k]? with
  | some p => if p.delivered && !p.standing then .next (s.dropPacket k) else notEnabled s
  | none => notEnabled s

/-! ### The turn (R378 to R382) -/

/-- The format of a float element type (R207). -/
def etFm : Nat → Fm
  | 2 => .f32 | 3 => .bf16 | 4 => .f16 | 5 => .t8 | 6 => .e4m3 | 7 => .e5m2 | _ => .t6

/-- Marks and value of an exact or windowed sum: NaN, positive and negative infinity or overflow, saturated, units. -/
structure Acc96 where
  nan : Bool
  pos : Bool
  neg : Bool
  sat : Bool
  sum : Int
deriving DecidableEq, Repr

/-- One contribution of R332: units of 2^-24, overflow marks at 2^71. -/
def Acc96.addExact (a : Acc96) (v : Val) : Acc96 :=
  match v with
  | .nan .. => { a with nan := true }
  | .inf s => if s then { a with neg := true } else { a with pos := true }
  | .fin .. =>
    let d := v.dy
    let n := a.sum + d.n * 2 ^ (d.ex + 24).toNat / 2 ^ (-(d.ex + 24)).toNat
    { a with sum := n, pos := a.pos || decide (2 ^ 95 ≤ n), neg := a.neg || decide (n ≤ -(2 ^ 95)) }

/-- One contribution of R333: truncated to units of 2^(A-111), saturating at 2^(A+16). -/
def Acc96.addWindow (anchor : Int) (a : Acc96) (v : Val) : Acc96 :=
  match v with
  | .nan .. => { a with nan := true }
  | .inf s => if s then { a with neg := true } else { a with pos := true }
  | .fin .. =>
    if a.sat then a
    else
      let t := truncTo (anchor - 111) v
      let n := a.sum + t
      let top : Int := 2 ^ 127
      if top ≤ t || top ≤ n then { a with sat := true, sum := top - 1 }
      else if t ≤ -top || n ≤ -top then { a with sat := true, sum := -top }
      else { a with sum := n }

/-- A sum encoded at the home (R332, R333): marks first, then one rounding. -/
def Acc96.encode (f : Fm) (unit : Int) (a : Acc96) : Nat :=
  if a.nan || (a.pos && a.neg) then f.qnan
  else if a.pos || a.neg then (roundVal f .rne false (.inf a.neg)).code
  else (roundVal f .rne false (.fin (decide (a.sum < 0)) a.sum.natAbs unit false)).code

/-- The result of SUM with whether the window saturated (R332, R333, R380). -/
def sumElem (et : Nat) (anchor : Int) (contribs : List Nat) (old : Nat) : Nat × Bool :=
  if et ≤ 1 then ((contribs.foldl (· + ·) old) % 2 ^ 32, false)
  else
    let f := etFm et
    let vs := (contribs ++ [old]).map f.decode
    let zero : Acc96 := ⟨false, false, false, false, 0⟩
    if et ≤ 3 then
      let a := vs.foldl (Acc96.addWindow anchor) zero
      (a.encode f (anchor - 111), a.sat)
    else ((vs.foldl Acc96.addExact zero).encode f (-24), false)

/-- The least or greatest of the values (R380). -/
def extremeElem (et : Nat) (wantMax : Bool) (vals : List Nat) : Nat :=
  let better (a b : Nat) : Bool :=
    match et with
    | 0 => if wantMax then decide (sext a 32 < sext b 32) else decide (sext b 32 < sext a 32)
    | 1 => if wantMax then decide (a < b) else decide (b < a)
    | _ => if wantMax then minOrder ((etFm et).decode a) ((etFm et).decode b) else minOrder ((etFm et).decode b) ((etFm et).decode a)
  let use := if et ≤ 1 then vals else vals.filter fun v => !((etFm et).decode v).isNan
  match use with
  | [] => (etFm et).qnan
  | v :: vs => vs.foldl (fun a b => if better a b then b else a) v

/-- The writes of an element in the order in which they are combined: by source chip, and each source's in its program order. The switches
give every member of a collective region one combination, so that all commit the same bits in window mode too (R369; log entry 110). -/
def combined (ws : List TWrite) : List TWrite :=
  let srcs := (ws.map TWrite.src).eraseDups
  let order := srcs.foldl (fun l x => (l.filter fun y => decide (y < x)) ++ [x] ++ l.filter fun y => decide (x < y)) []
  order.flatMap fun x => ws.filter fun w => w.src == x

/-- The applied write of LAST and UNIQUE: the last of the highest source chip. -/
def lastWrite (ws : List TWrite) : Option TWrite :=
  ws.foldl (fun (a : Option TWrite) w => match a with | some b => if b.src ≤ w.src then some w else some b | none => some w) none

/-- The region still has the rule and the type under which a write was sent (R382). -/
def TWrite.suits (w : TWrite) (r : Region) : Bool := r.rule == w.rule && r.et == w.et

/-- A conflict record (R381). -/
def conflictRecord (n off region kind win other : Nat) : List Byte :=
  le 8 n ++ le 4 off ++ le 1 region ++ le 1 kind ++ le 2 win ++ le 2 other ++ zeros 14

/-- What step 3 finds: the state, records in order, and whether a window saturated. -/
structure Turn where
  s : State
  records : List (List Byte)
  satw : Bool

/-- One element of the turn (R380, R382). -/
def Turn.elem (chip : Nat) (n : Nat) (t : Turn) (e : Nat × TElem) : Turn :=
  match t.s.chip? chip with
  | none => t
  | some c =>
    let reg := regionAt c.tide.eff e.1
    let num := (reg.map Prod.fst).getD 0xFF
    let fits (w : TWrite) : Bool := (reg.map fun r => w.suits r.2).getD false
    let bad := e.2.writes.filter fun w => !fits w
    let good := e.2.writes.filter fits
    let t := { t with records := t.records ++ bad.map fun w => conflictRecord n e.1 num 2 w.src 0 }
    match reg, good, c.podPlaces chip e.1 ((reg.map fun r => etBytes r.2.et).getD e.2.width) false with
    | some (_, r), w :: ws, some ps =>
      let old := t.s.readPlaces ps
      let vals := (combined (w :: ws)).map fun x => x.value.toNat
      let put (v : Nat) : Turn := { t with s := t.s.writePlaces ps v }
      match r.rule with
      | 1 =>
        let x := sumElem r.et r.anchor vals old
        let t := put x.1
        if x.2 then { t with satw := true, records := t.records ++ [conflictRecord n e.1 num 3 0 0] } else t
      | 2 => put (extremeElem r.et false (vals ++ [old]))
      | 3 => put (extremeElem r.et true (vals ++ [old]))
      | 4 => put (vals.foldl (· &&& ·) old)
      | 5 => put (vals.foldl (· ||| ·) old)
      | _ =>
        match lastWrite (w :: ws) with
        | none => t
        | some win =>
          let t := put win.value.toNat
          let others := ((w :: ws).filter fun x => x.src != win.src).map TWrite.src
          match others with
          | [] => t
          | o :: os => if r.rule = 6 then { t with records := t.records ++ [conflictRecord n e.1 num 1 win.src (os.foldl min o)] } else t
    | _, _, _ => t

/-- Records reach the conflict queue; a full queue drops one and sets LOST (R381). -/
def State.conflict (s : State) (chip : Nat) (r : List Byte) : State :=
  match s.chip? chip with
  | none => s
  | some c =>
    if (c.tide.qtail + 128 - c.tide.qhead) % 128 = 127 then s.updChip chip fun c => { c with tide := { c.tide with lost := true } }
    else
      let s := s.devWrite chip (c.tide.qbase.toNat + 32 * c.tide.qtail) r
      let s := s.updChip chip fun c => { c with tide := { c.tide with qtail := (c.tide.qtail + 1) % 128, conf := true } }
      { s with irqs := s.irqs ++ [.supervisor chip cTideConflict] }

/-- An empty half. -/
def Half.empty : Half := { elems := [], got := [], closes := [], sent := [], spilled := false }

/-- Leases of the valid regions of a table (R375). A granule that is being moved may be under one (R288). -/
def Chip.regionLeases (c : Chip) (t : Tab Region) : Tab (List Lease) :=
  let still : Chip := { c with moving := [] }
  t.filterMap fun e =>
    if e.2.valid then match still.leaseRange .both e.2.base.toNat e.2.size with | .ok ls => some (e.1, ls) | .error _ => some (e.1, [])
    else none

/-- Two declarations of a region name the same pages. -/
def Region.samePages (a b : Region) : Bool := a.valid && b.valid && a.base == b.base && a.size == b.size

/-- Staged declarations take effect (R375, R378 step 5). A region that stays valid on its pages keeps their translation (R289). -/
def Chip.applyStaged (c : Chip) : Chip :=
  let old := c.tide.held
  let held := (c.regionLeases c.tide.staged).map fun e =>
    match Tab.find c.tide.eff e.1, Tab.find c.tide.staged e.1 with
    | some a, some b => if a.samePages b then (e.1, Tab.getD old e.1 e.2) else e
    | _, _ => e
  let c := held.foldl (fun c e => c.markLeases false e.2) c
  { c with tide := { c.tide with eff := c.tide.staged, held, pend := false } }

/-- Regions that received a write of the half (R378 step 4). -/
def Chip.written (c : Chip) : List Region :=
  (c.tide.eff.filter fun r => r.2.valid && c.tide.now.elems.any fun e => decide (r.2.off ≤ e.1) && decide (e.1 < r.2.off + r.2.size)).map Prod.snd

/-- A granule under a region lease is being moved: step 3 of a turn waits for it (R375). -/
def Chip.regionMoves (c : Chip) : Bool := c.tide.held.any fun e => e.2.any fun l => !l.host && c.movingIn l.frame l.bytes

/-- Step 2 of the turn is done (R378, R379). -/
def State.turnReady (s : State) (c : Chip) : Bool :=
  c.tide.closed && ((s.peers c.guest).all fun p =>
    match Tab.find c.tide.now.closes p with
    | some n => Tab.getD c.tide.now.got p 0 == n
    | none => false) && !c.regionMoves

/-- A half holds no more than a capacity gives it (R384). -/
def Tide.fitsIn (t : Tide) (tibq tlog : Nat) : Bool :=
  let cap := tibq * 4096 + tlog * 65536
  decide (64 * t.now.elems.length ≤ cap) && decide (64 * t.next.elems.length ≤ cap)

/-- A smaller share or log takes effect once both halves fit (R384, R385). -/
def Tide.shrink (t : Tide) : Tide :=
  let t := match t.tlogDue with
    | some n => if t.fitsIn t.tibq n then { t with tlog := n, tlogDue := none } else t
    | none => t
  match t.tibqDue with
  | some n => if t.fitsIn n t.tlog then { t with tibq := n, tibqDue := none } else t
  | none => t

/-- Steps 3 to 5 of the turn of tide C. A flag store is a release at POD of what the closes of the tide released (R378). -/
def State.turn (s : State) (chip : Nat) (c : Chip) : State :=
  let n := c.tide.c.toNat
  let s := s.keepReads chip c
  let t := c.tide.now.elems.foldl (Turn.elem chip n) ⟨s, [], false⟩
  let s := c.written.foldl (fun s r => if r.flag = 0 then s else s.releaseStore chip r.flag.toNat (le 8 (n + 1)) (c.hb.closesUpTo n)) t.s
  let s := t.records.foldl (fun s r => s.conflict chip r) s
  s.updChip chip fun c =>
    let c := if c.tide.pend then c.applyStaged else c
    let tide : Tide :=
      { c.tide with c := c.tide.c + 1, closed := false, apply := false, now := c.tide.next, next := Half.empty, satw := c.tide.satw || t.satw }
    { c with tide := tide.shrink }

/-- TIDE_TURN (R213, R375, R378): step 3 begins once step 2 is done, and steps 3 to 5 complete, when no granule that they write is being
moved. -/
def execTideTurn (chip : Nat) (s : State) : Ans :=
  match s.chip? chip with
  | none => notEnabled s
  | some c =>
    if c.tide.apply then (if c.regionMoves then notEnabled s else .next (s.turn chip c))
    else if s.turnReady c then .next (s.updChip chip fun c => { c with tide := { c.tide with apply := true } })
    else notEnabled s

end Sys2Proof.Machine
end

