-- ==== Sys2Proof/Machine/Copy.lean ====
section
/-! DEFINITION. Tensor handles and tensor copies: HMK, CPY, CPYG and the copy engine (R166 to R170, R183, R281, R294, R310, R377, R406). -/

namespace Sys2Proof.Machine

/-! ### Records and boxes (R167, R169) -/

/-- The fields of a copy record. -/
structure CopyRec where
  out : Bool
  bar : Bool
  fmm : Bool
  spoff : Nat
  bara : Nat
  orig : List Int
  box : List Nat
  mcw : Nat
  aoff : Nat
  op : Nat
  tile : Nat
  tl : Nat
deriving DecidableEq, Repr

def CopyRec.of (bs : List Byte) : CopyRec :=
  let ctl := field bs 0 4
  { out := ctl.testBit 0, bar := ctl.testBit 2, fmm := ctl.testBit 3, spoff := field bs 4 4, bara := field bs 8 8,
    orig := (List.range 14).map fun k => sext (field bs (0x10 + 4 * k) 4) 32,
    box := (List.range 14).map fun k => field bs (0x48 + 2 * k) 2,
    mcw := field bs 0x68 8, aoff := field bs 0x70 4, op := field bs 0x74 1, tile := field bs 0x75 1, tl := field bs 0x76 1 }

/-- A copy's tensor side, as its elements need it: the handle, the record, and the row indices of CPYG. -/
structure Box where
  h : Handle
  r : CopyRec
  rows : Option (List Nat)

/-- Bytes of an element. -/
def Box.es (b : Box) : Nat := 2 ^ b.h.esize

/-- Elements of the box (R168). -/
def Box.count (b : Box) : Nat :=
  match b.rows with
  | some rs => rs.length * b.r.box.getD 0 0
  | none => (b.r.box.take b.h.rank).foldl (· * ·) 1

/-- Box position of element j, dimension 0 innermost. -/
def boxPos : List Nat → Nat → List Nat
  | [], _ => []
  | n :: ns, j => j % n :: boxPos ns (j / n)

/-- Tensor coordinates of element j (R169). -/
def Box.coords (b : Box) (j : Nat) : List Int :=
  match b.rows with
  | some rs =>
    let n := b.r.box.getD 0 1
    [b.r.orig.getD 0 0 + ((j % n : Nat) : Int), ((rs.getD (j / n) 0 : Nat) : Int)]
  | none => (b.r.orig.zip (boxPos (b.r.box.take b.h.rank) j)).map fun p => p.1 + (p.2 : Int)

/-- The address of element j; none out of bounds. -/
def Box.elem (b : Box) (j : Nat) : Option Nat :=
  let cs := b.coords j
  if (cs.zip b.h.ext).all fun p => decide (0 ≤ p.1) && decide (p.1 < (p.2 : Int)) then
    some (wrapNat ((b.h.base.toNat : Int) + (cs.zip b.h.stride).foldl (fun n p => n + p.1 * p.2.toInt) 0) 64)
  else none

/-- The tensor side lies in pod space (R168). -/
def Box.tidal (b : Box) : Bool := inWin podBase podSize b.h.base.toNat

/-! ### HMK (R166) -/

/-- HMK (R166). -/
def execHmk (x : Ops) (s : State) : Ans :=
  issue s (.hmk x) x fun c s =>
    match c.record s ((c.once c.va + c.once c.vb) % 2 ^ 64) 64 256 with
    | .error t => .trap t
    | .ok (s, bs) =>
      match handleOf bs with
      | none => c.trap cIllegalOperand
      | some h => .ok { s := s.updGangOf c.w fun g => { g with hand := vset g.hand (opndBits x.dst % 16) (some h) } }

/-! ### Issue (R167, R168) -/

/-- Step 2 of R168 on the record and the box. -/
def Box.fieldsOk (b : Box) (bs : List Byte) : Bool :=
  let ctl := field bs 0 4
  decide (ctl < 16) && ctl % 4 ≤ 1 && field bs 0x64 4 == 0 && !(b.r.fmm && b.r.out) &&
    ((List.range 14).all fun k => if k < b.h.rank then b.r.box.getD k 0 != 0 else b.r.box.getD k 0 == 0) &&
    (match b.rows with
     | some _ => b.h.rank == 2 && b.r.box.getD 1 0 == 1 && b.r.orig.getD 1 0 == 0
     | none => true)

/-- The follow-on command's own fields (R183). -/
def CopyRec.followOk (r : CopyRec) (bs : List Byte) : Bool :=
  decide (r.op ≤ 1) && decide (r.tile ≤ 15) && decide (r.tl ≤ 7) && field bs 0x77 9 == 0

/-- The in-bounds elements' addresses, in box order. -/
def Box.addrs (b : Box) : List Nat := (List.range b.count).filterMap b.elem

/-- A tidal copy's conditions at step 2 (R377). -/
def State.tidalCopyOk (s : State) (guest : Nat) (b : Box) : Bool :=
  decide (2 ≤ b.h.esize) &&
    (!b.r.out || b.addrs.all fun a => match s.tidalAt guest a with | some (_, r) => r.rule == 0 || r.rule == 6 | none => true)

/-- The first byte of the tensor side that the direction may not reach (R168 step 5, R281). -/
def State.copyRefused (s : State) (c : Ctx) (b : Box) (t : Task) : Option Nat :=
  let need : Acc := if b.r.out then .write else .read
  let bad (a : Nat) : Option Nat :=
    if b.tidal then
      if (s.tidalAt c.guest a).isSome || (!b.r.out && (s.mailboxAt c.guest a).isSome) then none else some a
    else if c.md.ctrl then
      match s.enginePlaces c.chip ctrlTask need a b.es with
      | .ok _ => none
      | .error e => some e
    else match t.range c.chip need a b.es with
      | .ok _ => none
      | .error e => some e
  (b.addrs.filterMap bad).head?

/-- The task of a context on a core whose allocation holds a range of the core's scratchpad, and the allocation's first byte: what SPOFF names
for a control routine's copy (R265; log entry 112). -/
def State.coreScratch (s : State) (chip : Nat) (core : CoreRef) (off len : Nat) : Option (Nat × Nat) :=
  match s.chip? chip with
  | none => none
  | some c =>
    (c.tasks.find? fun t => t.2.core == some core && decide (t.2.spos * 2048 ≤ off) && decide (off + len ≤ (t.2.spos + t.2.scrp) * 2048)).map
      fun t => (t.1, t.2.spos * 2048)

/-- The checks of R168 from step 2 on, in their order. -/
def Ctx.copyFault (c : Ctx) (s : State) (b : Box) (bs : List Byte) (t : Task) : Option Trouble :=
  let trap (cause : Nat) (a : Nat) : Option Trouble := some { cause, lanes := c.active, addr := BitVec.ofNat 64 a }
  let bytes := b.count * b.es
  let alloc := if c.md.ctrl then (if (s.coreScratch c.chip c.core b.r.spoff bytes).isSome then scratchSize else 0) else c.scratchBytes s
  let follow := if b.r.fmm then mcwFault alloc (Mcw.of b.r.mcw) b.r.aoff b.r.tile (b.r.op == 1) else none
  if !b.fieldsOk bs then trap cIllegalOperand 0
  else if b.tidal && !s.tidalCopyOk c.guest b then trap cIllegalOperand 0
  else if b.r.fmm && (c.md.ctrl || !b.r.followOk bs) then trap cIllegalOperand 0
  else
    match follow with
    | some (cause, a) => trap cause a.toNat
    | none =>
      if b.r.spoff % b.es ≠ 0 then trap cMisalign (scratchBase + b.r.spoff)
      else if !rangeIn alloc b.r.spoff bytes then trap cExtentRange (scratchRangeAddr alloc b.r.spoff).toNat
      else
        match s.copyRefused c b t with
        | some a => trap (if c.md.ctrl then cExtent else cExtentRange) a
        | none =>
          if b.r.bar then match c.barReach s .both b.r.bara with | .error e => some e | .ok _ => none
          else none

/-- The lowest pod address of a copy .out whose target interface is held (R385). -/
def State.copyHeld (s : State) (chip : Nat) (b : Box) : Option Nat :=
  if b.tidal && b.r.out then
    b.addrs.find? fun a => match s.tidalAt (chip / 1024) a with
      | some (p, r) => (s.regionTargets (chip / 1024) p.vchip r).any fun d => s.heldTo (chip / 1024) (chip % 1024) d
      | none => false
  else none

/-- The chips and regions in which a copy .out to pod space was found to lie: its writes leave under their rules (R206, R208, R377, R382). -/
def State.regionsSeen (s : State) (chip : Nat) (b : Box) : List (Nat × Region) :=
  if b.tidal && b.r.out then (b.addrs.filterMap fun a => (s.tidalAt (chip / 1024) a).map fun p => (p.1.vchip, p.2)).eraseDups else []

/-- A command joins a core's copy queue (R168). -/
def Ctx.queueCopy (c : Ctx) (s : State) (kind : Nat) (bs : List Byte) (h : Option Handle) (rows : List Nat) (seen : List (Nat × Region)) : Res :=
  let tl := opndBits c.x.dst % 8
  if 64 ≤ (s.core c.core).copyq.length then .wait .queueFull (BitVec.ofNat 64 tl) 0
  else
    let r := c.issueBy s (some tl)
    let task := match c.w with | .gang g _ => g.task | .ctrl _ => ctrlTask
    .ok { s := r.2.updCore c.core fun k => { k with copyq := k.copyq ++ [⟨kind, c.chip, task, tl, r.1, bs, h, rows, 0, .queued, none, seen⟩] } }

/-- The task whose extents and scratchpad a copy reaches: the issuer's; the control core has none of either (R265). -/
def Ctx.copyTask (c : Ctx) (s : State) : Task :=
  ((c.ownTask s).map fun t => t.2.2).getD
    { handle := 0, num := 0, core := none, base := 0, gangs := [], scrp := 0, scratch := [], full := [], tl := Vector.replicate 8 0,
      tlq := Vector.replicate 8 [], extents := [], image := 0, priv := 0,
      arr := { tiles := [], wbuf := [], slots := [], latch := none, eprog := none, flight := none, queue := [] },
      seq := 0, ended := false, undelivered := false, heldArray := false, arrayDue := false, copies := [], leaving := false, spos := 0,
      sealed := none, born := 0 }

/-- The handle an instruction names; on the control core SA is the address of a tensor descriptor, which is read (R265). -/
def Ctx.handle (c : Ctx) (s : State) : Except Trouble (State × Option Handle) :=
  if c.md.ctrl then
    match c.record s (c.once c.va) 64 256 with
    | .error t => .error t
    | .ok (s, bs) => .ok (s, handleOf bs)
  else .ok (s, vget c.g.hand (opndBits c.x.a.opnd % 16))

/-- CPY and CPYG (R168). -/
def Ctx.copy (c : Ctx) (s : State) (kind : Nat) (rows : Option (List Nat)) : Res :=
  match c.record s (c.once c.vb) 64 128 with
  | .error t => .trap t
  | .ok (s, bs) =>
    match c.handle s with
    | .error t => .trap t
    | .ok (_, none) => c.trap cIllegalOperand
    | .ok (s, some h) =>
      let b : Box := ⟨h, CopyRec.of bs, rows⟩
      let t := c.copyTask s
      match c.copyFault s b bs t with
      | some e => .trap e
      | none =>
        match s.copyHeld c.chip b with
        | some a => .wait .queueFull (BitVec.ofNat 64 a) 0
        | none => c.queueCopy s kind bs (some h) (rows.getD []) (s.regionsSeen c.chip b)

/-- CPY (R168). -/
def execCpy (x : Ops) (s : State) : Ans := issue s (.cpy x) x fun c s => c.copy s 1 none

/-- CPYG (R168, R169): the active lanes' rows in ascending lane order. -/
def execCpyg (x : Ops) (s : State) : Ans :=
  issue s (.cpyg x) x fun c s => c.copy s 2 (some ((lanesOf c.active).map fun i => c.vc[i]))

/-! ### The copy engine (R169, R170) -/

/-- The box of a queued copy. -/
def CopyCmd.toBox (q : CopyCmd) : Option Box := q.handle.map fun h => ⟨h, CopyRec.of q.record, if q.kind = 2 then some q.rows else none⟩

/-- The command at a place of a core's copy queue. -/
def State.copyAt (s : State) (core : CoreRef) (k : Nat) : Option CopyCmd := (s.core core).copyq[k]?

def State.setCopy (s : State) (core : CoreRef) (k : Nat) (f : CopyCmd → CopyCmd) : State :=
  s.updCore core fun r => { r with copyq := updAt r.copyq k f }

def State.dropCopy (s : State) (core : CoreRef) (k : Nat) : State :=
  s.updCore core fun r => { r with copyq := r.copyq.eraseIdx k }

/-- COPY_START (R170). -/
def execCopyStart (core : CoreRef) (k : Nat) (s : State) : Ans :=
  match s.copyAt core k with
  | some q => if q.kind != 3 && q.phase == .queued then .next (s.setCopy core k fun q => { q with phase := .moving }) else notEnabled s
  | none => notEnabled s

/-- The scratchpad side of a copy: whose it is, and the offset of SPOFF in it. -/
def State.copySide (s : State) (core : CoreRef) (q : CopyCmd) (b : Box) : Option (Nat × Nat) :=
  if q.task = ctrlTask then (s.coreScratch q.chip core b.r.spoff (b.count * b.es)).map fun t => (t.1, b.r.spoff - t.2) else some (q.task, b.r.spoff)

/-- Bytes put into the scratchpad side. -/
def State.sideWrite (s : State) (chip : Nat) (side : Nat × Nat) (o : Nat) (bs : List Byte) : State :=
  s.updTask chip side.1 fun t => { t with scratch := Mem.write t.scratch (side.2 + o) bs }

/-- The region in which a copy to pod space was found to have an address. -/
def CopyCmd.regionOf (q : CopyCmd) (a : Nat) : Option (PodAddr × Region) :=
  match podOf a with
  | none => none
  | some p => (q.seen.find? fun e => e.1 == p.vchip && decide (e.2.off ≤ p.off) && decide (p.off < e.2.off + e.2.size)).map fun e => (p, e.2)

/-- One element of a copy moves, or races (R169, R300, R377). None of the error: it cannot move now, as an element that is read through the
fabric (log entry 111). -/
def State.moveElem (s : State) (core : CoreRef) (q : CopyCmd) (b : Box) (j : Nat) : Except (Option Trouble) State :=
  match s.copySide core q b, b.elem j with
  | none, _ => .error none
  | some side, none => if b.r.out then .ok s else .ok (s.sideWrite q.chip side (j * b.es) (zeros b.es))
  | some side, some a =>
    match s.task? q.chip side.1 with
    | none => .error none
    | some t =>
      let at_ := side.2 + j * b.es
      let guest := q.chip / 1024
      if b.tidal then
        if b.r.out then
          match q.regionOf a with
          | none => .ok s
          | some (p, r) =>
            let ds := s.regionTargets guest p.vchip r
            if ds.any fun d => s.heldTo guest (q.chip % 1024) d then .error none
            else
              .ok ((List.range (b.es / 4)).foldl (fun s i =>
                s.tidalWrite q.chip p.vchip r (p.off + 4 * i) 4 (BitVec.ofNat 64 (Mem.load t.scratch (at_ + 4 * i) 4))) s)
        else .error none
      else
        let need : Acc := if b.r.out then .write else .read
        match (if q.task = ctrlTask then s.enginePlaces q.chip ctrlTask need a b.es else t.range q.chip need a b.es) with
        | .error _ => .error none
        | .ok ps =>
          match s.engineRace q.chip q.task q.by_ b.r.out a ps with
          | some e => .error (some e)
          | none =>
            let s := s.noteAccess (s.engineActor q.chip q.task q.by_) false b.r.out ps
            if b.r.out then .ok (s.engineWrite ps (Mem.bytes t.scratch at_ b.es))
            else .ok (s.sideWrite q.chip side (j * b.es) (s.bytesAt ps))

/-- The request for the element that a copy from pod space reads next (R361, R377). -/
def State.askElem (s : State) (q : CopyCmd) (b : Box) : Option (State × Nat) :=
  match b.tidal && !b.r.out && q.asked.isNone, (b.elem q.prog).bind podOf, s.chip? q.chip with
  | true, some p, some c =>
    let num := s.fresh
    let body := PBody.fetch q.chip q.task q.by_.seq num p.off b.es p.mailbox c.tide.c c.tide.closed
    some ({ s with packets := s.packets ++ [Packet.new c.guest c.num p.vchip body], fresh := s.fresh + 1 }, num)
  | _, _, _ => none

/-- n elements from one on: the state, how many moved, and the race that stopped them. -/
def State.moveElems (s : State) (core : CoreRef) (q : CopyCmd) (b : Box) : Nat → Nat → State × Nat × Option Trouble
  | _, 0 => (s, 0, none)
  | j, n + 1 =>
    match s.moveElem core q b j with
    | .ok s =>
      let r := State.moveElems s core q b (j + 1) n
      (r.1, r.2.1 + 1, r.2.2)
    | .error e => (s, 0, e)

/-- The places of a copy's barrier object. -/
def State.barPlaces (s : State) (q : CopyCmd) (a : Nat) : Option (List Place) :=
  if q.task = ctrlTask then (match s.enginePlaces q.chip ctrlTask .both a 16 with | .ok ps => some ps | .error _ => none) else
  s.places (.gang ⟨q.chip, q.task, q.by_.gang⟩ q.by_.lanes) (lowest q.by_.lanes) .both a 16

/-- Counted bytes land in a barrier's phase, which carries the copy's accesses, and so does the next one where the phase completes (R164,
R165, R170). -/
def State.landBytes (s : State) (q : CopyCmd) (b : Box) (n : Nat) : State :=
  if !b.r.bar || n = 0 then s
  else
    match s.barPlaces q b.r.bara with
    | none => s
    | some ps =>
      let o := BarObj.ofNat (s.readPlaces ps)
      let o' := o.land n
      let carry (h : Hb) (phase : Nat) : Hb := h.carry (barKey (headPlace ps) phase) q.by_.result
      (s.writePlaces ps o'.toNat).updChip q.chip fun c =>
        { c with hb := if o'.phase = o.phase then carry c.hb o.phase else carry (carry c.hb o.phase) o'.phase }

/-- A copy's progress after n more elements: a follow-on command waits for the array in issue order (R268). -/
def State.copyOn (s : State) (core : CoreRef) (q : CopyCmd) (b : Box) (n : Nat) : State :=
  let prog := q.prog + n
  let s := s.updCore core fun r =>
    { r with copyq := r.copyq.map fun p => if p = q then { q with prog, asked := none, phase := if prog = b.count then .landed else .moving } else p }
  if prog = b.count && b.r.fmm && (s.core core).holder.isSome && (s.core core).holder != some (q.chip, q.task) then
    s.wantArray (.gang ⟨q.chip, q.task, q.by_.gang⟩ 0) .arrayHeld
  else s

/-- Elements of 1 or 2 bytes after place j that share the 4-byte word of the one before them: they land with it, since a fetch sees a word whole,
old or new (R154; log entry 136). Fuel bounds them. -/
def Box.inWord (b : Box) (j : Nat) : Nat → Nat
  | 0 => 0
  | n + 1 =>
    match b.elem (j - 1), b.elem j with
    | some x, some y => if decide (b.es < 4) && decide (j < b.count) && x / 4 == y / 4 then 1 + b.inWord (j + 1) n else 0
    | _, _ => 0

/-- COPY_BYTE_LANDING (R169, R170): n elements, or as many as can move, land in box order, with those that share the last one's word. A copy from
pod space asks for its next element where it has none to move. Every byte of the box counts in BYTES, those of elements that R169 skips with the
rest (log entry 127). -/
def execCopyByteLanding (core : CoreRef) (k n : Nat) (s : State) : Ans :=
  match s.copyAt core k with
  | none => notEnabled s
  | some q =>
    match q.toBox with
    | none => notEnabled s
    | some b =>
      if q.phase != .moving || q.kind == 3 || n == 0 then notEnabled s
      else
        let n := min n (b.count - q.prog)
        let r := s.moveElems core q b q.prog (n + b.inWord (q.prog + n) 3)
        let t := r.1.landBytes q b (r.2.1 * b.es)
        match r.2.2 with
        | some e => .next ((t.dropCopy core k).engineFault q.chip q.task q.by_ e)
        | none =>
          if r.2.1 ≠ 0 then .next (t.copyOn core q b r.2.1)
          else
            match s.askElem q b with
            | some (u, num) => .next (u.setCopy core k fun q => { q with asked := some num })
            | none => notEnabled s

/-- The element that a copy from pod space asked for lands; a reply to a request that the copy no longer waits for changes nothing (R377,
R406). -/
def State.landFetched (s : State) (chip task seq num : Nat) (bs : List Byte) : State :=
  s.devs.foldl (fun s d => d.2.cores.foldl (fun s k =>
    match k.2.copyq.find? fun q => q.chip == chip && q.task == task && q.by_.seq == seq && q.asked == some num with
    | some q =>
      let core : CoreRef := ⟨d.1, k.1⟩
      match q.toBox with
      | some b =>
        match s.copySide core q b with
        | some side => ((s.sideWrite chip side (q.prog * b.es) bs).landBytes q b b.es).copyOn core q b 1
        | none => s
      | none => s
    | none => s) s) s

/-- REMOTE_REPLY_ARRIVAL (R377, R405): an acquire takes what the word's releases carry. -/
def execRemoteReplyArrival (k : Nat) (s : State) : Ans :=
  match s.landing k (fun b => match b with | .reply .. => true | .fetched .. => true | _ => false) with
  | .no => notEnabled s
  | .lost _ t => .next t
  | .at_ p key c =>
    match p.body with
    | .fetched chip task seq num bs => .next ((s.delivered k).landFetched chip task seq num bs)
    | .reply g id vals rels acq =>
      let t := s.delivered k
      let core := ((s.taskCore g.chip g.task).map CoreRef.core).getD 0
      let view := if p.src = p.dst then c.scopeView 4 core g.task else ScopeView.ofPod
      let rels := if p.src = p.dst then rels else rels.map fun r => { r with clock := r.clock.home key }
      let sync (h : Hb) (lane : Nat) : Hb :=
        let a := threadAgent (((s.task? g.chip g.task).map fun t => t.self g.task).getD g.task) g.gang lane
        let seen := Tab.getD h.seen a []
        let h := if rels.isEmpty then h else { h with seen := Tab.put h.seen a (rels.filter (fun r => !seen.contains r) ++ seen) }
        if acq then h.acquire a (admitted rels view) else h
      let t := t.updChip key fun c => { c with hb := vals.foldl (fun h v => sync h v.1) c.hb }
      match s.gang? g with
      | none => .next t
      | some q =>
        if q.pend.any fun e => e.id == id then
          .next ((t.updGang g fun q => { q with pend := q.pend.map fun e => if e.id = id then e.fill vals else e }).resealTask g.chip g.task)
        else
          match q.frame, q.saved.find? fun e => e.id == id with
          | some f, some e =>
            .next ((t.fillFrame g f (e.fill vals) vals).updGang g fun q => { q with saved := q.saved.map fun e => if e.id = id then e.fill vals else e })
          | _, _ => .next t
    | _ => notEnabled s

/-- COPY_FOLLOW_ON_ENTRY (R170 step 2). -/
def execCopyFollowOnEntry (core : CoreRef) (k : Nat) (s : State) : Ans :=
  match s.copyAt core k with
  | none => notEnabled s
  | some q =>
    let r := CopyRec.of q.record
    match q.phase == .landed && r.fmm, s.task? q.chip q.task, s.holdArray core q.chip q.task with
    | true, some t, some u =>
      if t.arrayDue || t.ended || t.mresWaits || decide (16 ≤ t.arr.depth) then notEnabled s
      else
        let num := ((s.chip? q.chip).map fun c => c.hb.next).getD 0
        let e := t.enlist r.tl
        let by_ : IssuedBy := { q.by_ with ticket := e.1, seq := t.seq, clock := q.by_.result, agent := engineAgent num, clk := 1 }
        let cmd : MCmd := ⟨if r.op = 1 then 3 else 2, r.tile, r.tl, 0, r.aoff, BitVec.ofNat 64 r.mcw, 0, by_⟩
        let u := u.updTask q.chip q.task fun _ => { e.2 with seq := t.seq + 1, arr := { e.2.arr with queue := e.2.arr.queue ++ [cmd] } }
        let u := u.updChip q.chip fun c => { c with hb := { c.hb with next := num + 1 } }
        .next (u.setCopy core k fun q => { q with phase := .entered })
    | _, _, _ => notEnabled s

/-- COPY_COMPLETE (R170 step 3). The follow-on command of a task that a fault has ended has not started, and is discarded (R246). -/
def execCopyComplete (core : CoreRef) (k : Nat) (s : State) : Ans :=
  match s.copyAt core k with
  | none => notEnabled s
  | some q =>
    let ended := ((s.task? q.chip q.task).map Task.ended).getD false
    if q.kind != 3 && (q.phase == .entered || (q.phase == .landed && (!(CopyRec.of q.record).fmm || ended))) then
      .next ((s.dropCopy core k).finishOp q.chip q.task q.tl q.by_)
    else notEnabled s

end Sys2Proof.Machine
end

