-- ==== Sys2Proof/Machine/Launch.lean ====
section
/-! DEFINITION. Launch records and images, acceptance, translation, completion, queues, timelines and completion records (R78 to R81, R220,
R247, R248, R250, R251, R253 to R264, R286, R367). -/

namespace Sys2Proof.Machine

/-! ### Records and images (R78 to R81, R253) -/

/-- The fields of a launch record. -/
def LaunchRec.of (bs : List Byte) : LaunchRec :=
  { image := BitVec.ofNat 64 (field bs 0 8), args := BitVec.ofNat 64 (field bs 8 8), gtab := BitVec.ofNat 64 (field bs 16 8),
    dtab := BitVec.ofNat 64 (field bs 24 8), ntask := field bs 0x20 4, gangs := field bs 0x24 1, sig := field bs 0x25 1,
    flags := field bs 0x26 1, aq := field bs 0x27 1,
    waits := (List.range 4).filterMap fun k =>
      if field bs (0x39 + 16 * k) 1 % 2 = 1 then some (field bs (0x38 + 16 * k) 1, BitVec.ofNat 64 (field bs (0x30 + 16 * k) 8)) else none,
    clean := field bs 0x28 8 == 0 && field bs 0x70 8 == 0 &&
      (List.range 4).all fun k => decide (field bs (0x38 + 16 * k) 1 ≤ 63) && decide (field bs (0x39 + 16 * k) 1 ≤ 1) &&
        field bs (0x3A + 16 * k) 6 == 0 }

/-- The conditions of R253 that the record alone decides: code 1 of R255, checked at issue and at acceptance. -/
def LaunchRec.ok (r : LaunchRec) : Bool :=
  r.clean && r.image.toNat % 256 == 0 && r.gtab.toNat % 64 == 0 && r.dtab.toNat % 8 == 0 && decide (1 ≤ r.ntask) &&
    decide (r.ntask ≤ 16777216) && decide (1 ≤ r.gangs) && decide (r.gangs ≤ 32) && (decide (r.sig ≤ 63) || r.sig == 0xFF) &&
    decide (r.flags < 8)

/-- Fields of the kernel header word (R79). -/
def hdrNregs (h : Nat) : Nat := bitsOf h 43 36
def hdrMoments (h : Nat) : Bool := h.testBit 35
def hdrC16 (h : Nat) : Bool := h.testBit 34
def hdrScrp (h : Nat) : Nat := bitsOf h 32 24
def hdrGdem (h : Nat) : Nat := bitsOf h 23 16
def hdrArgw (h : Nat) : Nat := bitsOf h 15 6
def hdrArgd (h : Nat) : Nat := bitsOf h 5 0
/-- Physical registers that a gang reserves (R45). -/
def hdrReserve (h : Nat) : Nat := hdrNregs h + (if hdrMoments h then 64 else 0)

/-- Extent descriptor n of an image's first 128 bytes (R80). -/
def imageDesc (bs : List Byte) (n : Nat) : Nat := field bs (0x20 + 4 * n) 4

/-- R81 on an image's first 128 bytes: DIAGK is 0 unless a firmware-level context launches it. -/
def imageHeadOk (firm : Bool) (bs : List Byte) : Bool :=
  let h := field bs 0 8
  bitsOf h 63 48 == 0x4C56 && bitsOf h 47 44 == 1 && hdrNregs h != 0 && decide (hdrScrp h ≤ 256) && decide (hdrArgw h ≤ 512) &&
    decide (hdrArgd h ≤ 32) && decide (hdrArgd h ≤ hdrArgw h) && field bs 0x18 8 == 0 && field bs 0x60 32 == 0 &&
    imageDesc bs 0 == 0xE0000000 && (firm || !h.testBit 33) &&
    (List.range 16).all fun n =>
      let d := imageDesc bs n
      bitsOf d 28 20 == 0 && (n == 0 || !d.testBit 31 || (decide (bitsOf d 9 0 < hdrArgw h) && decide (bitsOf d 19 10 < hdrArgw h)))

/-! ### What fits a core (R45, R243, R248) -/

/-- The admission limit of a subcore (R45). -/
def admitLimit (more : Bool) : Nat := if more then 3072 else 2048

/-- Tasks of one launch that an empty core holds at once: base subcores that follow one another spread their gangs evenly. -/
def tasksPerCore (more : Bool) (h gangs : Nat) : Nat :=
  let fits (k : Nat) : Bool :=
    let n := (k * gangs + 3) / 4
    decide (n ≤ 16) && decide (n * hdrReserve h ≤ admitLimit more) && decide (k * hdrScrp h ≤ 256)
  ((List.range 65).filter fun k => fits k).foldl max 0

/-- Bytes of a task's private backing: 32 KiB for each thread and a spill area for each gang (R47, R276). -/
def backingBytes (gangs reserve : Nat) : Nat := gangs * (32 * privateSize + 136 * reserve + 8)

/-- The backing of a task. -/
def Task.backing (t : Task) : Nat := backingBytes t.gangs.length (((t.gangs.head?).map fun g => g.2.reserve).getD 0)

/-- Cores of the context. -/
def Chip.coreCount (c : Chip) : Nat := 8 * ((List.range 20).filter fun k => c.cores.testBit k).length

/-! ### The group table (R247, R248) -/

/-- A used entry: offset, members, slot, kind, scope and whether the reserved bytes are zero. -/
structure GroupRow where
  moff : Nat
  nmem : Nat
  slot : Nat
  kind : Nat
  scope : Nat
  clean : Bool

def groupRows (bs : List Byte) : List GroupRow :=
  ((List.range 256).map fun k =>
    let e := (bs.drop (16 * k)).take 16
    (⟨field e 0 4, field e 4 4, field e 8 1, field e 9 1, field e 10 1, field e 11 5 == 0⟩ : GroupRow)).filter fun r => r.nmem != 0

/-- A strictly rising list of numbers below a bound. -/
def risingBelow (n : Nat) : List Nat → Bool
  | [] => true
  | [a] => decide (a < n)
  | a :: b :: rest => decide (a < b) && risingBelow n (b :: rest)

/-- The conditions of R248 and R304 on one entry with its members. -/
def GroupRow.ok (r : GroupRow) (members : List Nat) (hdr scopes ntask perCore cores : Nat) : Bool :=
  r.clean && decide (r.slot ≤ 3) && decide (1024 ≤ r.moff) && r.kind != 0 && r.kind == hdrGdem hdr / 4 ^ r.slot % 4 &&
    risingBelow ntask members && members.length == r.nmem &&
    (r.scope == 0xFF || (decide (5 ≤ r.scope) && decide (r.scope ≤ 63) && scopes.testBit r.scope)) &&
    (r.kind != 1 || decide (r.nmem ≤ perCore * cores)) && (r.kind != 3 || (decide (r.nmem ≤ 8 * perCore) && decide (8 ≤ cores)))

/-- No task is in two groups of one slot, and no two groups name one scope (R248). -/
def groupsApart : List Group → Bool
  | [] => true
  | g :: gs =>
    (gs.all fun k => (g.slot != k.slot || !(g.members.any fun m => k.members.contains m)) && (g.scope == 0xFF || g.scope != k.scope)) &&
      groupsApart gs

/-! ### Acceptance (R254, R255) -/

/-- What a read keeps: the bytes read so far, by address. -/
abbrev Kept := List (Nat × List Byte)

/-- How a record fares: a page cannot be read yet, a reason to reject it, or an accepted launch. -/
inductive Verdict where
  | miss (why : NoLease) (kept : Kept)
  | reject (code : Nat)
  | pass (l : Launch)

/-- The members of group rows, or why they cannot be read, with what was kept. Above NTASK members no list can be distinct and in range
(R248). -/
def State.groupMembers (s : State) (chip base ntask : Nat) : List GroupRow → Kept → Except NoLease (List (GroupRow × List Nat)) × Kept
  | [], kept => (.ok [], kept)
  | r :: rest, kept =>
    match (if r.nmem ≤ ntask then s.readOn chip kept (base + 4 * r.moff) (4 * r.nmem) else (.ok [], kept)) with
    | (.error e, kept) => (.error e, kept)
    | (.ok bs, kept) =>
      match State.groupMembers s chip base ntask rest kept with
      | (.error e, kept) => (.error e, kept)
      | (.ok ms, kept) => (.ok ((r, (List.range (bs.length / 4)).map fun k => field bs (4 * k) 4) :: ms), kept)

/-- Doublewords of a list of bytes. -/
def dwords (bs : List Byte) : List DWord := (List.range (bs.length / 8)).map fun k => BitVec.ofNat 64 (field bs (8 * k) 8)

/-- The argument copy of an image: read now, or for a fired launch the copy made at ARM (R254). -/
def State.argCopy (s : State) (chip : Nat) (r : LaunchRec) (argw : Nat) (given : Option (List DWord)) (kept : Kept) :
    Except NoLease (List DWord × State) × Kept :=
  match given with
  | some l =>
    let more := s.freeWords (argw - l.length)
    (.ok ((l.take argw) ++ more.1, more.2), kept)
  | none =>
    match s.readOn chip kept r.args.toNat (8 * argw) with
    | (.ok bs, kept) => (.ok (dwords bs, s), kept)
    | (.error e, kept) => (.error e, kept)

/-- The conditions of R253 that the image's header decides: ARGS where arguments are taken, GTAB where no group is demanded. -/
def LaunchRec.fits (r : LaunchRec) (h : Nat) : Bool := (hdrArgw h == 0 || r.args.toNat % 64 == 0) && (hdrGdem h != 0 || r.gtab == 0)

/-- The record passes the checks that R255 marks "issue": its own, and those of the header where the device can read it (log entry 113). -/
def State.issueOk (s : State) (chip : Nat) (r : LaunchRec) : Bool :=
  r.ok && match s.devRead chip r.image.toNat 8 with | .ok h => r.fits (field h 0 8) | .error _ => true

/-- An accepted launch (R254, R258). -/
def Chip.accepted (c : Chip) (handle : Nat) (at_ : DWord) (r : LaunchRec) (img hold : List Byte) (args : List DWord) (groups : List Group)
    (fired : Option SlotRef) : Launch :=
  let q := vget c.queues (handle / 1024)
  { record := r, at_, hdr := BitVec.ofNat 64 (field img 0 8), scopes := BitVec.ofNat 64 (field img 8 8), code := field img 0x10 4,
    data := field img 0x14 4, descs := (List.range 16).map fun n => BitVec.ofNat 32 (imageDesc img n), args,
    holds := (List.range r.ntask).filterMap fun k =>
      if r.flags % 2 = 1 && field hold (2 * k) 2 != 0 then some (k, field hold (2 * k) 2) else none,
    groups, state := .waiting, extents := [], dispatched := [], retired := 0, faulted := false, order := c.acceptSeq, after := q.last, fired,
    clock := Tab.getD q.clocks (handle % 1024) [], made := [], core := ⟨c.dev, 0⟩ }

/-- The checks of a record whose image and arguments are read (R254 steps 2 and 3, R255). -/
def State.judgeBody (s : State) (chip : Nat) (c : Chip) (handle : Nat) (at_ : DWord) (r : LaunchRec) (img : List Byte) (args : List DWord)
    (fired : Option SlotRef) (kept : Kept) : Verdict :=
  let h := field img 0 8
  match (if r.flags % 2 = 1 then s.readOn chip kept r.dtab.toNat (2 * r.ntask) else (.ok [], kept)) with
  | (.error e, kept) => .miss e kept
  | (.ok hold, kept) =>
    let per := tasksPerCore c.overEn h r.gangs
    if per = 0 then .reject 3
    else
      match (if r.gtab = 0 then (.ok [], kept) else s.readOn chip kept r.gtab.toNat 4096) with
      | (.error e, kept) => .miss e kept
      | (.ok tab, kept) =>
        match s.groupMembers chip r.gtab.toNat r.ntask (groupRows tab) kept with
        | (.error e, kept) => .miss e kept
        | (.ok ms, _) =>
          let groups := ms.map fun g => (⟨g.1.slot, g.1.kind, g.1.scope, g.2⟩ : Group)
          if (ms.all fun g => g.1.ok g.2 h (field img 8 8) r.ntask per c.coreCount) && groupsApart groups then
            .pass (c.accepted handle at_ r img hold args groups fired)
          else .reject 4

/-- Acceptance of a record (R254, R255): its own bytes, image head, arguments, hold counts, group table, in that order. What was read before a
page held the record is not read again (R262). -/
def State.judge (s : State) (chip : Nat) (c : Chip) (handle : Nat) (at_ : DWord) (bs : List Byte)
    (fired : Option (List DWord × SlotRef)) (firm : Bool) (kept : Kept) : Verdict × State :=
  let r := LaunchRec.of bs
  if !r.ok then (.reject 1, s)
  else
    match s.readOn chip kept r.image.toNat 128 with
    | (.error e, kept) => (.miss e kept, s)
    | (.ok img, kept) =>
      let h := field img 0 8
      if !r.fits h then (.reject 1, s)
      else if !imageHeadOk firm img then (.reject 2, s)
      else
        match s.argCopy chip r (hdrArgw h) (fired.map Prod.fst) kept with
        | (.error e, kept) => (.miss e kept, s)
        | (.ok (args, t), kept) => (t.judgeBody chip c handle at_ r img args (fired.map Prod.snd) kept, t)

/-! ### Completion (R259, R260, R263, R367) -/

/-- A completion record reaches a context's event queue on a core, or waits (R263). -/
def Core.post (k : Core) (chip : Nat) (r : DWord) : Core :=
  let q := Tab.getD k.evq chip []
  let w := Tab.getD k.evWait chip []
  if q.length < 64 && w.isEmpty then { k with evq := Tab.put k.evq chip (q ++ [r]) }
  else { k with evWait := Tab.put k.evWait chip (w ++ [r]) }

/-- The word of a completion record. -/
def eventWord (handle kind task : Nat) : DWord := BitVec.ofNat 64 (handle * 2 ^ 48 + kind * 2 ^ 44 + task % 2 ^ 32)

/-- A receive slot stops being busy where it still holds the message of a launch that has ended (R367): software may have freed it, and a
later message may hold it. -/
def Chip.freeSlot (c : Chip) (m : SlotRef) : Chip :=
  { c with rx := Tab.upd c.rx m.tag fun r =>
      if Tab.find r.held m.slot = some m.num then { r with busy := r.busy &&& ~~~(1#8 <<< m.slot), held := Tab.drop r.held m.slot } else r }

/-- The code of a final state in STATUS. -/
def LState.code : LState → Nat
  | .done => 1
  | .rejected => 2
  | .ended => 3
  | _ => 0

/-- A launch reaches a final state (R259): lease, STATUS, slot, timeline, record, queue; tracking ends (R251). -/
def State.complete (s : State) (chip handle : Nat) (final : LState) (reason : Nat) : State :=
  match (s.chip? chip).bind fun c => Tab.find c.launches handle with
  | none => s
  | some l =>
    let s := s.updChip chip fun c => { c with launches := Tab.drop c.launches handle }
    let status := final.code * 2 ^ 56 + reason * 2 ^ 48 + l.retired % 2 ^ 32
    let s := s.releaseStore chip (l.at_.toNat + 0x78) (le 8 status) (VClock.join l.clock l.made)
    let s := s.updChip chip fun c =>
      let c := match l.fired with | some m => c.freeSlot m | none => c
      let n := l.record.sig
      let lt := if n ≤ 63 then vset c.lt n ((vget c.lt n).close handle (if final == .done then 1 else 2) (VClock.join l.clock l.made)) else c.lt
      let q := handle / 1024
      let queues := if final == .done then c.queues else vset c.queues q { vget c.queues q with err := true }
      let scopes := c.scopes.map fun e : ScopeEntry => if e.track = some handle then { e with track := none } else e
      { c with lt, queues, scopes }
    if l.record.flags.testBit 1 && final != .rejected then s.updCore l.core fun k => k.post chip (eventWord handle 3 0) else s

/-- A record that is rejected at acceptance: it has a place among the launches for its completion (R258, R260). -/
def State.rejectRecord (s : State) (chip handle : Nat) (at_ : DWord) (bs : List Byte) (fired : Option SlotRef) (code : Nat) : State :=
  let r := LaunchRec.of bs
  let s := s.updChip chip fun c =>
    let l : Launch :=
      { record := r, at_, hdr := 0, scopes := 0, code := 0, data := 0, descs := [], args := [], holds := [], groups := [], state := .rejected,
        extents := [], dispatched := [], retired := 0, faulted := false, order := c.acceptSeq, after := none, fired, clock := [], made := [], core := ⟨c.dev, 0⟩ }
    { c with launches := Tab.put c.launches handle l }
  s.complete chip handle .rejected code

/-- A launch takes its place in the list of the timeline it names (R260). -/
def Chip.nameTimeline (c : Chip) (r : LaunchRec) (handle : Nat) : Chip :=
  if r.sig ≤ 63 then { c with lt := vset c.lt r.sig { vget c.lt r.sig with items := (vget c.lt r.sig).items ++ [⟨handle, 0, []⟩] } } else c

/-- QHEAD advances past a record (R258). -/
def Chip.advanceHead (c : Chip) (q : Nat) : Chip :=
  let k := vget c.queues q
  let idx := k.head
  { c with queues := vset c.queues q { k with head := (idx + 1) % 2 ^ k.lg, fired := Tab.drop k.fired idx, clocks := Tab.drop k.clocks idx, firm := k.firm.filter (· != idx),
                                              last := some c.acceptSeq },
           readings := Tab.drop c.readings q, acceptSeq := c.acceptSeq + 1 }

/-- A launch of an earlier record of the ring still has the entry at an index (R258: the entry may be reused once it is freed). -/
def Chip.entryHeld (c : Chip) (q idx : Nat) : Bool := (Tab.find c.launches (q * 1024 + idx)).isSome

/-- The interrupt of a supervisor for a notice whose cause the table of R395 does not name (log entry 39). -/
def State.notice (s : State) (chip n : Nat) : State := { s with irqs := s.irqs ++ [.supervisor chip (1 + (Config.noticeCause n).val)] }

/-- XLFAULT names a page and a handle, and the supervisor is interrupted (R262). -/
def State.holdLaunch (s : State) (chip handle va : Nat) : State :=
  (s.updChip chip fun c => { c with xlfault := BitVec.ofNat 64 (va / 65536 * 65536 + handle) }).notice chip 0

/-- A page that a launch cannot reach yet (R262, R286, R288): XLFAULT where no other launch is held, a PRI request, or a wait. -/
def State.reachLater (s : State) (chip handle : Nat) (why : NoLease) : State :=
  match why with
  | .page va => if ((s.chip? chip).map fun c => c.xlfault == 0).getD false then s.holdLaunch chip handle va else s
  | .asking va => s.updChip chip fun c => c.ask va
  | .moving => s

/-- LAUNCH_ACCEPTANCE (R254, R255, R258, R262). -/
def execLaunchAcceptance (chip q : Nat) (s : State) : Ans :=
  match s.chip? chip with
  | none => notEnabled s
  | some c =>
    let k := vget c.queues q
    let idx := k.head
    let handle := q * 1024 + idx
    let heldHere := c.xlfault.toNat % 65536 == handle && c.xlfault != 0
    if 63 < q || !k.en || k.err || k.head == k.tail || heldHere || c.entryHeld q idx then notEnabled s
    else
      let at_ := k.base.toNat + 128 * idx
      let f := Tab.find k.fired idx
      let kept := match Tab.find c.readings q with | some g => if g.handle = handle then g.kept else [] | none => []
      let later (why : NoLease) (kept : Kept) : Ans :=
        .next ((s.updChip chip fun c => { c with readings := Tab.put c.readings q ⟨handle, kept⟩ }).reachLater chip handle why)
      match s.readOn chip kept at_ 128 with
      | (.error e, kept) => later e kept
      | (.ok bs, kept) =>
        let v := s.judge chip c handle (BitVec.ofNat 64 at_) bs f (k.firm.contains idx) kept
        let enter (s : State) : State := s.updChip chip fun c => (c.advanceHead q).nameTimeline (LaunchRec.of bs) handle
        match v.1 with
        | .miss e kept => later e kept
        | .reject code => .next ((enter s).rejectRecord chip handle (BitVec.ofNat 64 at_) bs (f.map Prod.snd) code)
        | .pass l => .next ((enter v.2).updChip chip fun c => { c with launches := Tab.put c.launches handle l })

/-! ### Translation (R251, R261, R262, R285, R373) -/

/-- The ranges of a launch: slot, base, size, ACC (R80, R261 step 1). -/
def Launch.ranges (l : Launch) : List (Nat × Nat × Nat × Nat) :=
  (0, l.record.image.toNat, 0x80 + l.code + l.data, 3) ::
  (List.range 16).filterMap fun n =>
    let d := (l.descs.getD n 0).toNat
    if n ≠ 0 && d.testBit 31 then
      some (n, (l.args.getD (bitsOf d 9 0) 0).toNat, (l.args.getD (bitsOf d 19 10) 0).toNat, bitsOf d 30 29)
    else none

/-- Regions valid in the effective or the staged table (R375). -/
def Tide.anyRegions (t : Tide) : List Region := ((t.eff ++ t.staged).map Prod.snd).filter Region.valid

/-- A range touches what no table decodes (R274: the two halves lie one after the other), or writes the bytes of a tidal region at any address
(R373): code 5. -/
def Chip.rangeBarred (c : Chip) (base size acc : Nat) : Bool :=
  (decide (0 < size) && decide (0x8002000000000000 < base + size)) ||
    ((acc == 1 || acc == 2) && c.tide.anyRegions.any fun r => c.shareBytes base size r.base.toNat r.size)

/-- A range with the pages that it has leased already goes on from the page after them (R262). -/
def Chip.leaseOn (c : Chip) (need : Acc) (va len : Nat) (got : List Lease) : List Lease × Option NoLease :=
  if len = 0 then ([], none)
  else
    let from_ := match got.getLast? with | some l => l.va + l.bytes | none => va
    let r := c.leaseFrom need from_ (va + len) (len / 4096 + 2)
    (got ++ r.1, r.2)

/-- The leases of a launch's ranges beside those it has, up to the first page that cannot be leased, and why. -/
def Chip.leaseAll (c : Chip) : List (Nat × Nat × Nat × Nat) → List Extent → List Extent × Option NoLease
  | [], _ => ([], none)
  | (_, b, n, acc) :: rest, got =>
    let r := c.leaseOn (accNeed acc) b n ((got.head?.map Extent.pages).getD [])
    let e : Extent := ⟨b, n, acc, r.1⟩
    match r.2 with
    | some why => ([e], some why)
    | none =>
      let t := c.leaseAll rest (got.drop 1)
      (e :: t.1, t.2)

/-- Bytes of the device-half pages that ranges cover, each page once (R255 code 6). -/
def pageBytes (es : List Extent) : Nat :=
  ((es.flatMap Extent.pages).filter fun p => !p.host).foldl (fun (a : List Nat × Nat) p =>
    if a.1.contains p.va then a else (p.va :: a.1, a.2 + p.bytes)) ([], 0) |>.2

/-- No other launch shapes an entry: none that runs is tracked by it, and none that is being translated names it (R251). -/
def Chip.scopeFree (c : Chip) (handle scope : Nat) : Bool :=
  (match (vget c.scopes scope).track with | some h => h == handle | none => true) &&
    !(c.launches.any fun o => o.1 != handle && o.2.state == .translating && o.2.groups.any fun g => g.scope == scope)

/-- Every condition for leaving waiting (R258): waits, INORD, and group-shaped scopes (R251). -/
def Chip.launchReady (c : Chip) (handle : Nat) (l : Launch) : Bool :=
  (l.record.waits.all fun w => decide (w.2 ≤ (vget c.lt w.1).value)) &&
  (!l.record.flags.testBit 2 || !(c.launches.any fun o => some o.2.order == l.after)) &&
  l.groups.all fun g => g.scope == 0xFF || c.scopeFree handle g.scope

/-- The write of R250 for each group that names a scope. -/
def Chip.shapeScopes (c : Chip) (handle : Nat) (groups : List Group) : Chip :=
  groups.foldl (fun c g =>
    if g.scope = 0xFF then c
    else
      let e := { (vget c.scopes g.scope).rewrite 0 false false with grp := true, track := some handle }
      let c := { c with scopes := vset c.scopes g.scope e }
      if e.version = 0 then c.unbindAll g.scope else c) c

/-! ### Tiers (R1, R287, R288) -/

/-- Bytes of a tier of a device: 96 GiB near each die, 1 TiB far (R1, R4). -/
def tierBytes (tier : Nat) : Nat := if tier = 3 then 2 ^ 40 else 96 * 2 ^ 30

/-- Bytes of a granule of a quota: the last one may be part of 2 MiB. -/
def granuleBytes (quota granule : Nat) : Nat := min (2 ^ 21) (quota - granule * 2 ^ 21)

/-- Bytes of a quota in a tier, by where its granules lie. A granule that no tier is listed for lies in far memory. -/
def bytesInTier (quota : Nat) (tiers : Tab Nat) (tier : Nat) : Nat :=
  let near (t : Nat) : Nat := tiers.foldl (fun n g => if g.2 = t then n + granuleBytes quota g.1 else n) 0
  if tier = 3 then quota - near 1 - near 2 else near tier

/-- Bytes of a chip in a tier. -/
def Chip.inTier (c : Chip) (tier : Nat) : Nat := bytesInTier c.quota c.tiers tier

/-- Bytes in use of a device's tier, those of one chip left out. The staging copy of a chip that may move there has its place too (R390). -/
def State.tierUse (s : State) (dev tier : Nat) (but : Option Nat) : Nat :=
  s.chips.foldl (fun n c =>
    if but = some c.1 then n
    else n + (if c.2.dev = dev then c.2.inTier tier else 0) + (if c.2.mig.en && c.2.mig.tdev == dev then bytesInTier c.2.quota c.2.mig.tiers tier else 0)) 0

/-- Room that a device's tier has for some bytes more. -/
def State.tierRoom (s : State) (dev tier more : Nat) : Bool := decide (s.tierUse dev tier none + more ≤ tierBytes tier)

/-- Near memory of a die takes a granule of a chip: within the chip's near quota and the die's memory. -/
def State.nearRoom (s : State) (c : Chip) (tier granule : Nat) : Bool :=
  let n := granuleBytes c.quota granule
  decide (c.inTier 1 + c.inTier 2 + n ≤ c.nearQuota) && s.tierRoom c.dev tier n

/-- A private backing lies in a granule: it stands under its launch's lease (R276). -/
def Chip.granuleBacks (c : Chip) (granule : Nat) : Bool := c.tasks.any fun t => rangesMeet t.2.priv t.2.backing (granule * 2 ^ 21) (2 ^ 21)

/-- A lease but a region's covers a granule (R276, R288). -/
def Chip.granuleLeased (c : Chip) (granule : Nat) : Bool :=
  ((c.leases false).any fun l => !l.host && rangesMeet l.frame l.bytes (granule * 2 ^ 21) (2 ^ 21)) || c.granuleBacks granule

/-- A granule that no lease covers is placed by its pages' TIER (R287): in the near memory that it names while there is room, else in far
memory. It stays where it lies where far memory has no room for it either (R1). -/
def State.placeGranule (s : State) (chip granule tier : Nat) : State :=
  match s.chip? chip with
  | none => s
  | some c =>
    if tier = 0 || c.granuleLeased granule || Tab.getD c.tiers granule 3 == tier then s
    else
      let d : Chip := { c with tiers := Tab.drop c.tiers granule }
      let far := s.updChip chip fun _ => d
      if tier ≠ 3 && far.nearRoom d tier granule then s.updChip chip fun c => { c with tiers := Tab.put c.tiers granule tier }
      else if far.tierRoom c.dev 3 0 then far
      else s

/-- Granules of leased device pages with their TIER as the tables stand. -/
def Chip.granulesOf (c : Chip) (ls : List Lease) : List (Nat × Nat) :=
  ls.flatMap fun l =>
    if l.host then []
    else
      let tier := ((c.walk l.va).map Leaf.tier).getD 0
      if tier = 0 then [] else (List.range ((l.bytes + 2 ^ 21 - 1) / 2 ^ 21)).map fun k => (l.frame / 2 ^ 21 + k, tier)

/-- A launch with its ranges leased runs (R258, R261): extent table built, scopes shaped. -/
def Chip.startLaunch (c : Chip) (handle : Nat) (l : Launch) (es : List Extent) : Chip :=
  let c := c.shapeScopes handle l.groups
  { c with launches := Tab.put c.launches handle { l with state := .running, extents := es } }

/-- A launch's bytes meet the private backing of a task (R276; log entry 16). -/
def Chip.meetsBacking (c : Chip) (es : List Extent) : Bool :=
  es.any fun e => (clipLeases e.base e.size e.pages).any fun f => c.tasks.any fun t => rangesMeet f.1 f.2 t.2.priv t.2.backing

/-- The pages that a launch has leased beside those it had: each with whether its lease is one to write. -/
def newPages : List Extent → List Extent → List (Bool × Lease)
  | _, [] => []
  | old, e :: es =>
    ((e.pages.drop ((old.head?.map fun o => o.pages.length).getD 0)).map fun p => (e.acc == 1 || e.acc == 2, p)) ++ newPages (old.drop 1) es

/-- A LAUNCH TAKES LEASES (R261): the granules of the new pages are placed by their TIER (R287), the entries of those pages get A, and D under a
write lease (R284, R285), and the launch has the pages from now on. -/
def State.takeLeases (s : State) (chip handle : Nat) (l : Launch) (es : List Extent) : State :=
  match s.chip? chip with
  | none => s
  | some c =>
    let new := newPages l.extents es
    let s := (c.granulesOf (new.map Prod.snd)).foldl (fun s g => s.placeGranule chip g.1 g.2) s
    s.updChip chip fun c =>
      let c := new.foldl (fun c p => c.markLeases p.1 [p.2]) c
      { c with launches := Tab.put c.launches handle { l with extents := es } }

/-- LAUNCH_TRANSLATION (R258, R261, R262). -/
def execLaunchTranslation (chip handle : Nat) (s : State) : Ans :=
  match s.chip? chip with
  | none => notEnabled s
  | some c =>
    match Tab.find c.launches handle with
    | none => notEnabled s
    | some l =>
      let first := l.state == .waiting
      if !(l.state == .translating || (first && c.launchReady handle l)) then notEnabled s
      else
        let l := if first then
            { l with state := .translating, clock := l.record.waits.foldl (fun k w => VClock.join k (vget c.lt w.1).clock) l.clock }
          else l
        let s1 := s.updChip chip fun c => { c with launches := Tab.put c.launches handle l }
        if c.xlfault ≠ 0 then (if first then .next s1 else notEnabled s)
        else if l.ranges.any fun r => decide (2 ^ 64 < r.2.1 + r.2.2.1) then .next (s1.complete chip handle .rejected 6)
        else if l.ranges.any fun r => c.rangeBarred r.2.1 r.2.2.1 r.2.2.2 then .next (s1.complete chip handle .rejected 5)
        else
          match c.leaseAll l.ranges l.extents with
          | (es, some why) => .next ((s.takeLeases chip handle l es).reachLater chip handle why)
          | (es, none) =>
            let t := s.takeLeases chip handle l es
            if c.quota < pageBytes es then .next (t.complete chip handle .rejected 6)
            else if c.meetsBacking es then .next t
            else .next (t.updChip chip fun c => c.startLaunch handle l es)

/-- XLFAULT is cleared and the held translation goes on from the failed page, which is asked for anew in the host half (R262). -/
def execXlfaultRetry (chip : Nat) (s : State) : Ans :=
  match s.chip? chip with
  | some c =>
    let page := c.xlfault.toNat / 65536 * 16
    .next (s.updChip chip fun c =>
      { c with xlfault := 0, ats := if c.xlfault = 0 then c.ats else c.ats.filter fun e => !(e.2 == ⟨.failed⟩ && e.1 / 16 == page / 16) })
  | none => notEnabled s

/-- XLFAULT_ABORT (R254, R262): the held launch is rejected with code 5. -/
def execXlfaultAbort (chip : Nat) (s : State) : Ans :=
  match s.chip? chip with
  | none => notEnabled s
  | some c =>
    if c.xlfault = 0 then .next s
    else
      let handle := c.xlfault.toNat % 65536
      let s := s.updChip chip fun c => { c with xlfault := 0 }
      match Tab.find c.launches handle with
      | some _ => .next (s.complete chip handle .rejected 5)
      | none =>
        let q := handle / 1024
        let k := vget c.queues q
        let at_ := k.base.toNat + 128 * (handle % 1024)
        let kept := ((Tab.find c.readings q).map Reading.kept).getD []
        let bs := match (s.readOn chip kept at_ 128).1 with | .ok bs => bs | .error _ => le 0x25 0 ++ [0xFF] ++ zeros 90
        let f := Tab.find k.fired (handle % 1024)
        let s := s.updChip chip fun c => (c.advanceHead q).nameTimeline (LaunchRec.of bs) handle
        .next (s.rejectRecord chip handle (BitVec.ofNat 64 at_) bs (f.map Prod.snd) 5)

/-! ### Queues (R256 to R258) -/

/-- The records that a write of a queue's tail hands over: those from the old tail on, wrapping. -/
def Queue.handed (k : Queue) (tail : Nat) : List Nat :=
  let size := if k.lg = 0 then 1024 else 2 ^ k.lg
  (List.range ((tail + size - k.tail % size) % size)).map fun j => (k.tail + j) % size

/-- A write of a queue's tail (R256, R257), ignored where the scheduler produces. The records that it hands over are a firmware-level context's
where the writer is one (R81). -/
def Queue.writeTail (k : Queue) (value : Nat) (firm : Bool) : Queue :=
  if k.dev then k
  else
    let tail := value % 1024 % (if k.lg = 0 then 1024 else 2 ^ k.lg)
    let new := k.handed tail
    let others := k.firm.filter fun i => !new.contains i
    { k with tail, firm := if firm then new ++ others else others }

/-- QTAIL_WRITE (R256, R257): the supervisor's doorbell. -/
def execQtailWrite (chip q value : Nat) (s : State) : Ans :=
  match s.chip? chip with
  | none => notEnabled s
  | some _ =>
    if 63 < q then notEnabled s
    else .next (s.updChip chip fun c => { c with queues := vset c.queues q ((vget c.queues q).writeTail value false) })

/-- QUEUE_RESUME (R258). -/
def execQueueResume (chip q : Nat) (s : State) : Ans :=
  if 63 < q then notEnabled s
  else
    match s.chip? chip with
    | some c => .next (s.updChip chip fun _ => { c with queues := vset c.queues q { vget c.queues q with err := false } })
    | none => notEnabled s

/-- A queue that LAUNCH and fired launches may enter (R222, R257). -/
def Queue.open_ (k : Queue) : Bool := k.en && k.dev

/-- A queue with no room for another record (R256, R258). -/
def Chip.queueFull (c : Chip) (q : Nat) : Bool :=
  let k := vget c.queues q
  (k.tail + 1) % 2 ^ k.lg == k.head || c.entryHeld q k.tail

/-- A record enters the ring of a queue at QTAIL (R222, R256). -/
def State.enqueueRecord (s : State) (chip q : Nat) (bs : List Byte) (fired : Option (List DWord × SlotRef)) (firm : Bool) (clock : VClock) : State :=
  match s.chip? chip with
  | none => s
  | some c =>
    let k := vget c.queues q
    let s := s.devWrite chip (k.base.toNat + 128 * k.tail) bs
    s.updChip chip fun c =>
      let k := vget c.queues q
      let marks := match fired with | some f => Tab.put k.fired k.tail f | none => Tab.drop k.fired k.tail
      let k := { k with tail := (k.tail + 1) % 2 ^ k.lg, clocks := Tab.put k.clocks k.tail clock, fired := marks,
                          firm := if firm then k.tail :: k.firm else k.firm.filter (· != k.tail) }
      { c with queues := vset c.queues q k }

/-- LT_WRITE (R257, R260 step 4). -/
def execLtWrite (chip n : Nat) (value : DWord) (s : State) : Ans :=
  if 63 < n then notEnabled s
  else
    match s.chip? chip with
    | some c => .next (s.updChip chip fun _ => { c with lt := vset c.lt n ((vget c.lt n).write value) })
    | none => notEnabled s

/-- EVENT_RECORD_POST (R263). -/
def execEventRecordPost (core : CoreRef) (chip : Nat) (s : State) : Ans :=
  let k := s.core core
  match Tab.getD k.evWait chip [] with
  | [] => notEnabled s
  | r :: rest =>
    let q := Tab.getD k.evq chip []
    if 64 ≤ q.length then notEnabled s
    else .next (s.updCore core fun k => { k with evq := Tab.put k.evq chip (q ++ [r]), evWait := Tab.put k.evWait chip rest })

/-! ### ATS, invalidation, granules (R286 to R288) -/

/-- ATS_PRI_RESPONSE (R286). -/
def execAtsPriResponse (chip page : Nat) (answer : HostAnswer) (s : State) : Ans :=
  match s.chip? chip with
  | none => notEnabled s
  | some c =>
    if 2 ^ 51 ≤ page || (c.leases true).any fun l => l.host && l.va == page * 4096 then notEnabled s
    else .next (s.updChip chip fun c =>
      { c with ats := Tab.put c.ats page ⟨answer⟩, pri := c.pri.filter (· != page) })

/-- HOST_INVALIDATION (R261, R286): complete only when no lease covers the page. -/
def execHostInvalidation (chip page : Nat) (s : State) : Ans :=
  match s.chip? chip with
  | none => notEnabled s
  | some c =>
    if (c.leases true).any fun l => l.host && l.va == page * 4096 then notEnabled s
    else .next (s.updChip chip fun c => { c with ats := Tab.drop c.ats page })

/-- GRANULE_MIGRATION (R287, R288): only a granule that no lease covers but a region's. Its pages' TIER names the only tier that it may move to,
but far memory where the near memory named has no room; an automatic one may lie in any. -/
def execGranuleMigration (chip granule tier : Nat) (s : State) : Ans :=
  match s.chip? chip with
  | none => notEnabled s
  | some c =>
    let want := c.wantedTier granule
    let d : Chip := { c with tiers := Tab.drop c.tiers granule }
    let t := s.updChip chip fun _ => d
    let room := if tier = 3 then t.tierRoom c.dev 3 0 else t.nearRoom d tier granule
    let wanted := want == 0 || tier == want || (tier == 3 && !t.nearRoom d want granule)
    if c.granuleLeased granule || c.moving.contains granule || tier = 0 || 3 < tier || c.quota ≤ granule * 2 ^ 21 ||
        Tab.getD c.tiers granule 3 == tier || !wanted || !room then notEnabled s
    else
      let tiers := if tier = 3 then Tab.drop c.tiers granule else Tab.put c.tiers granule tier
      .next (s.updChip chip fun c => { c with moving := granule :: c.moving, tiers })

/-- GRANULE_MIGRATION_COMPLETE (R288). -/
def execGranuleMigrationComplete (chip granule : Nat) (s : State) : Ans :=
  match s.chip? chip with
  | none => notEnabled s
  | some c =>
    if c.moving.contains granule then .next (s.updChip chip fun c => { c with moving := c.moving.filter (· != granule) })
    else notEnabled s

end Sys2Proof.Machine
end

