-- ==== Sys2Proof/Machine/Message.lean ====
section
/-! DEFINITION. Messages and launches that instructions start: SEND with its outbound store, delivery, the inbound log, ARM, DISARM, fired
launches, LAUNCH and HINT (R217 to R223, R256, R366, R367). -/

namespace Sys2Proof.Machine

/-! ### SEND (R217 to R219) -/

/-- The fields of a send descriptor. -/
structure SendRec where
  paddr : Nat
  len : Nat
  vchip : Nat
  tag : Nat
  flag : Nat
  flagv : Nat
deriving DecidableEq, Repr

def SendRec.of (bs : List Byte) : SendRec := ⟨field bs 0 8, field bs 8 4, field bs 0xC 2, field bs 0xE 1, field bs 0x10 8, field bs 0x18 8⟩

/-- The conditions of R217 on the fields. -/
def State.sendOk (s : State) (guest : Nat) (bs : List Byte) : Bool :=
  let r := SendRec.of bs
  r.paddr % 8 == 0 && !inWin podBase podSize r.paddr && decide (r.len ≤ 4096) && r.len % 8 == 0 && decide (r.vchip < 1024) &&
    s.inPod guest r.vchip && field bs 0xF 1 == 0 &&
    (r.flag == 0 || (r.flag % 8 == 0 && match s.mailboxAt guest r.flag with | some p => p.vchip == r.vchip | none => false))

/-- SEND (R217, R218). For a control routine a payload outside what it may read is EXTENT (R265). -/
def execSend (x : Ops) (s : State) : Ans :=
  issue s (.send x) x fun c s =>
    match c.record s (c.once c.va) 32 32 with
    | .error t => .trap t
    | .ok (s, bs) =>
      let r := SendRec.of bs
      let task := match c.w with | .gang g _ => g.task | .ctrl _ => ctrlTask
      if !s.sendOk c.guest bs then c.trap cIllegalOperand
      else
        match s.enginePlaces c.chip task .read r.paddr r.len with
        | .error a => c.trap (if c.md.ctrl then cExtent else cExtentRange) (BitVec.ofNat 64 a)
        | .ok _ => c.queueCopy s 3 bs none [] []

/-- SEND_OUTBOUND_ENTRY (R219): the first SEND of a chip in a core's copy queue takes a place in the chip's outbound store. -/
def execSendOutboundEntry (core : CoreRef) (k : Nat) (s : State) : Ans :=
  match s.copyAt core k with
  | none => notEnabled s
  | some q =>
    let earlier := ((s.core core).copyq.take k).any fun p => p.kind == 3 && p.chip == q.chip
    match s.chip? q.chip with
    | none => notEnabled s
    | some c =>
      if q.kind != 3 || earlier || 16 ≤ c.outbound.length then notEnabled s
      else
        let r := SendRec.of q.record
        let m : OutMsg :=
          { msg := ⟨c.num, r.vchip, r.tag, [], BitVec.ofNat 64 r.flag, BitVec.ofNat 64 r.flagv, []⟩, paddr := BitVec.ofNat 64 r.paddr,
            len := r.len, read := false, task := q.task, tl := q.tl, by_ := q.by_ }
        .next ((s.dropCopy core k).updChip q.chip fun c => { c with outbound := c.outbound ++ [m] })

/-- What happens before a message's flag store, as its target holds it (R218, R367). -/
def OutMsg.past (o : OutMsg) (chip : Nat) : VClock := if o.msg.dst = chip % 1024 then o.by_.result else o.by_.result.abroad chip

/-- SEND_PAYLOAD_READ (R218, R219): the payload stands in the store, the counter advances, and the message stands at the interface. A
control routine's payload that its area no longer holds is a free value. -/
def execSendPayloadRead (chip k : Nat) (s : State) : Ans :=
  match s.chip? chip with
  | none => notEnabled s
  | some c =>
    match c.outbound[k]? with
    | none => notEnabled s
    | some o =>
      if o.read || (c.outbound.take k).any fun p => !p.read && p.msg.dst == o.msg.dst then notEnabled s
      else
        let read (s : State) (bs : List Byte) : State :=
          let m := { o.msg with payload := bs, clock := o.past chip }
          let s := s.updChip chip fun c => { c with outbound := updAt c.outbound k fun o => { o with msg := m, read := true } }
          let s : State := { s with packets := s.packets ++ [Packet.new c.guest c.num m.dst (.msg m)] }
          s.finishOp chip o.task o.tl o.by_
        match s.enginePlaces chip o.task .read o.paddr.toNat o.len with
        | .error _ => let f := s.freeBytes o.len; .next (read f.2 f.1)
        | .ok ps =>
          match s.engineRace chip o.task o.by_ false o.paddr.toNat ps with
          | some e =>
            .next ((s.updChip chip fun c => { c with outbound := c.outbound.eraseIdx k }).engineFault chip o.task o.by_ e)
          | none => .next (read (s.noteAccess (s.engineActor chip o.task o.by_) false false ps) (s.bytesAt ps))

/-! ### Delivery (R218, R220, R367) -/

/-- A message of a slot fires a launch of an armed record (R220): doubleword 0 of its arguments is the payload's address. -/
def Chip.fire (c : Chip) (tag slot : Nat) (e : ArmEntry) : Chip :=
  let r := Tab.getD c.rx tag RxTag.reset
  let at_ := r.base + BitVec.ofNat 64 (4096 * slot)
  { c with fired := c.fired ++ [⟨⟨tag, slot, Tab.getD r.held slot 0⟩, { e with args := e.args.set 0 at_ }⟩] }

/-- A receive buffer whose next slot a message takes (R367). -/
def RxTag.take (r : RxTag) : RxTag :=
  { r with busy := r.busy ||| (1#8 <<< r.next), next := (r.next + 1) % (r.nslot + 1), count := r.count + 1, held := Tab.put r.held r.next r.count }

/-- The flag store of a message: an exchange with release at the guest's pod, which race detection does not see (R218, R367). -/
def State.storeFlag (s : State) (chip : Nat) (m : Msg) : State :=
  match (if m.flag = 0 then none else podOf m.flag.toNat), s.chip? chip with
  | some p, some c =>
    match c.podPlaces chip p.off 8 true with
    | some ps =>
      let k := if m.src = chip % 1024 then m.clock else m.clock.home chip
      (s.writePlaces ps m.flagv.toNat).updChip chip fun c => { c with hb := c.hb.putReleases (ps.map placeKey) [⟨k, ScopeView.ofPod⟩] true }
    | none => s
  | _, _ => s

/-- A message reaches its tag's receive buffer: payload, flag, launch, in that order; or the tag drops it (R218, R367). -/
def State.deliver (s : State) (chip : Nat) (m : Msg) : State :=
  match s.chip? chip with
  | none => s
  | some c =>
    let r := Tab.getD c.rx m.tag RxTag.reset
    if !r.v then s.updChip chip fun c => { c with rx := Tab.put c.rx m.tag { r with drop := min 255 (r.drop + 1) } }
    else
      let s := s.devWrite chip (r.base.toNat + 4096 * r.next) m.payload
      (s.storeFlag chip m).updChip chip fun c =>
        match Tab.find c.arm m.tag with
        | some e => ({ c with rx := Tab.put c.rx m.tag r.take }).fire m.tag r.next e
        | none => { c with rx := Tab.put c.rx m.tag { r.take with unfired := r.unfired ++ [r.next] } }

/-- MESSAGE_DELIVERY (R218, R219, R367): into the receive buffer, or into the inbound log of a descheduled chip, and its place in the sender's
store is free; or it is held at its sender. -/
def execMessageDelivery (k : Nat) (s : State) : Ans :=
  match s.landing k (fun b => match b with | .msg _ => true | _ => false) with
  | .no => notEnabled s
  | .lost _ t => .next t
  | .at_ p key c =>
    match p.body with
    | .msg m =>
      if !c.takes m then .next (s.refuse k p)
      else if c.descheduled then .next (((s.delivered k).freePlace p).updChip key fun c => { c with inlog := c.inlog ++ [m] })
      else .next (((s.delivered k).freePlace p).deliver key m)
    | _ => notEnabled s

/-- INBOUND_LOG_CONSUME (R218): the oldest entry of a chip that runs again. -/
def execInboundLogConsume (chip : Nat) (s : State) : Ans :=
  match s.chip? chip with
  | none => notEnabled s
  | some c =>
    match c.inlog with
    | [] => notEnabled s
    | m :: rest =>
      let open_ : Chip := { c with inlog := [] }
      if c.descheduled || !open_.takes m then notEnabled s
      else .next ((s.updChip chip fun c => { c with inlog := rest }).deliver chip m)

/-! ### ARM, DISARM, fired launches (R220, R221) -/

/-- The argument copy that ARM makes (R254): what cannot be read is a free value. -/
def State.armArgs (s : State) (chip : Nat) (r : LaunchRec) : List DWord × State :=
  match s.devRead chip r.image.toNat 8 with
  | .error _ => s.freeWords 512
  | .ok h =>
    let argw := hdrArgw (field h 0 8)
    match s.devRead chip r.args.toNat (8 * argw) with
    | .ok bs => (dwords bs, s)
    | .error _ => s.freeWords argw

/-- ARM (R220, R221): the checks that R255 marks "issue" (log entry 113). A tag above 255 is ILLEGAL_OPERAND (log entry 134). -/
def execArm (x : Ops) (s : State) : Ans :=
  issue s (.arm x) x fun c s =>
    match c.record s (c.once c.vb) 64 128 with
    | .error t => .trap t
    | .ok (s, bs) =>
      let tag := c.once c.va
      let r := LaunchRec.of bs
      match s.chip? c.chip with
      | none => c.trap cIllegalOperand
      | some k =>
        if 255 < tag || !s.issueOk c.chip r || 63 < r.aq || !(vget k.queues r.aq).open_ then c.trap cIllegalOperand
        else
          let a := s.armArgs c.chip r
          let e : ArmEntry := ⟨bs, a.1, c.g.pl == .firmware⟩
          .ok { s := a.2.updChip c.chip fun k =>
            let waiting := (Tab.getD k.rx tag RxTag.reset).unfired
            let k := { k with arm := Tab.put k.arm tag e, rx := Tab.upd k.rx tag fun r => { r with unfired := [] } }
            waiting.foldl (fun k slot => k.fire tag slot e) k }

/-- DISARM (R220; log entry 134). -/
def execDisarm (x : Ops) (s : State) : Ans :=
  issue s (.disarm x) x fun c s =>
    let tag := c.once c.va
    if 255 < tag then c.trap cIllegalOperand
    else .ok { s := s.updChip c.chip fun k => { k with arm := Tab.drop k.arm tag } }

/-- FIRED_LAUNCH_PLACEMENT (R221, R256). -/
def execFiredLaunchPlacement (chip k : Nat) (s : State) : Ans :=
  match s.chip? chip with
  | none => notEnabled s
  | some c =>
    match c.fired[k]? with
    | none => notEnabled s
    | some f =>
      let q := field f.entry.record 0x27 1
      let u := vget c.queues q
      if (c.fired.take k).any (fun e => e.at_.tag == f.at_.tag) || !u.open_ || u.err || c.queueFull q then notEnabled s
      else
        let s := s.updChip chip fun c => { c with fired := c.fired.eraseIdx k }
        .next (s.enqueueRecord chip q f.entry.record (some (f.entry.args, f.at_)) f.entry.firm [])

/-! ### LAUNCH and HINT (R222, R223) -/

/-- LAUNCH (R222): a release at virtual chip scope of the launching threads. -/
def execLaunch (x : Ops) (s : State) : Ans :=
  issue s (.launch x) x fun c s =>
    match c.record s (c.once c.va) 64 128 with
    | .error t => .trap t
    | .ok (s, bs) =>
      let q := c.once c.vb
      match s.chip? c.chip with
      | none => c.trap cIllegalOperand
      | some k =>
        if 63 < q then c.trap cIllegalOperand
        else if !(vget k.queues q).open_ then c.trap cPriv
        else if !s.issueOk c.chip (LaunchRec.of bs) then c.trap cIllegalOperand
        else if k.queueFull q then .wait .queueFull (BitVec.ofNat 64 q) 0
        else
          let past := (lanesOf c.active).foldl (fun k i => VClock.join k (c.actor s i).clock) []
          let s := (lanesOf c.active).foldl (fun s i => c.hb s fun h => (h.publish (c.actor s i).agent).2) s
          .ok { s := s.enqueueRecord c.chip q bs none (c.g.pl == .firmware) past }

/-- HINT (R223): no architectural effect. -/
def execHint (x : Ops) (s : State) : Ans := issue s (.hint x) x fun _ s => .ok { s }

end Sys2Proof.Machine
end

