-- ==== Sys2Proof/Machine/Task.lean ====
section
/-! DEFINITION. Tasks: dispatch, retirement, migration, pre-emption and its save area, resumption, slices, hints, the waiting budget and
its snapshot, bundles and active sets, spills, results and trap entry (R44 to R48, R233 to R252, R267 to R270, R276, R391, R394, R399 to
R409). -/

namespace Sys2Proof.Machine

/-! ### What stands on a core (R243, R45) -/

/-- The tasks that stand on a core: chip, key, task. -/
def State.tasksOn (s : State) (core : CoreRef) : List (Nat × Nat × Task) :=
  s.chips.flatMap fun c => (c.2.tasks.filter fun t => t.2.core == some core).map fun t => (c.1, t.1, t.2)

/-- Gangs of a task that hold a residency slot of a subcore (R234). -/
def Task.residents (t : Task) (sub : Nat) : List Gang := (t.gangs.filter fun p => subOf t.base p.1 == sub && !p.2.retired).map Prod.snd

/-- Tasks fit one core together, but for their scratchpad ranges (R243). -/
def coreFits (more : Bool) (ts : List Task) : Bool :=
  (List.range 4).all fun k =>
    let gs := ts.flatMap fun t => t.residents k
    decide (gs.length ≤ 16) && decide (gs.foldl (fun n g => n + g.reserve) 0 ≤ admitLimit more)

/-- The tasks of a core: those that stand there and those placed there in the same step. -/
def State.beside (s : State) (core : CoreRef) (placed : List Task) : List Task :=
  ((s.tasksOn core).map fun x => x.2.2) ++ placed.filter fun p => p.core == some core

/-- The lowest place for a scratchpad allocation of some units beside others: one contiguous range (R243; log entry 52). -/
def scratchPlace (ts : List Task) (n : Nat) : Option Nat :=
  let free (p : Nat) : Bool := decide (p + n ≤ 256) && ts.all fun t => !rangesMeet p n t.spos t.scrp
  (0 :: ts.map fun t => t.spos + t.scrp).foldl (fun best p =>
    if free p && (match best with | some b => decide (p < b) | none => true) then some p else best) none

/-- A task with a core fits there beside those that stand there and those placed in the same step; its mapped registers are in the
pool. Only one context's tasks stand on a core at a time (R267), and a scrub that is due comes first (R413). -/
def State.roomFor (s : State) (chip : Nat) (c : Chip) (placed : List Task) (t : Task) : Bool :=
  match t.core with
  | none => false
  | some core =>
    let ts : List Task := t :: s.beside core placed
    decide (core.dev = c.dev) && (clusterCores (c.cores % 2 ^ 20)).getLsbD core.core && !(s.core core).scrub &&
      (s.tasksOn core).all (fun x => x.1 == chip) && coreFits c.overEn ts &&
      (List.range 4).all fun k => decide (ts.foldl (fun (n : Nat) u => n + u.heldOn c.overEn core k) 0 ≤ 2048)

/-- A task at a place: core, base subcore and scratchpad range. Its gangs enter the core now, by the cycle count of the core's own die (R8). -/
def State.stand (s : State) (t : Task) (core : CoreRef) (base spos : Nat) : Task :=
  { t with core := some core, base, spos, gangs := t.gangs.map fun g => (g.1, { g.2 with moved := s.cycle core }) }

/-- A task seated on a core beside those placed in the same step, where it fits (R243). -/
def State.seat (s : State) (chip : Nat) (c : Chip) (placed : List Task) (t : Task) (core : CoreRef) (base : Nat) : Option Task :=
  match scratchPlace (s.beside core placed) t.scrp with
  | none => none
  | some p => let u := s.stand t core base p; if s.roomFor chip c placed u then some u else none

/-! ### Groups (R249 to R251) -/

/-- Kinds that place their members together (R249). -/
def Group.binds (g : Group) : Bool := g.kind == 1 || g.kind == 3

/-- The tasks that are placed together with some: one round for each group reaches them all. -/
def Launch.closure (l : Launch) (ts : List Nat) : List Nat :=
  let gs := l.groups.filter Group.binds
  gs.foldl (fun ts _ => gs.foldl (fun ts g => if g.members.any ts.contains then ts ++ g.members.filter (fun m => !ts.contains m) else ts) ts) ts

/-- Two tasks must share a core cluster. -/
def Launch.sameCluster (l : Launch) (a b : Nat) : Bool := l.groups.any fun g => g.kind == 3 && g.members.contains a && g.members.contains b

/-- A placed task stands where its cluster groups let it beside other placed tasks. -/
def Launch.clusterOk (l : Launch) (others : List Task) (t : Task) : Bool :=
  others.all fun p => p.num == t.num || !l.sameCluster p.num t.num ||
    (match p.core, t.core with | some a, some b => clusterOf a.core == clusterOf b.core | _, _ => false)

/-- Tracked scopes hold the cores of their groups' member tasks (R250, R309). -/
def Chip.retrack (c : Chip) : Chip :=
  { c with scopes := Vector.ofFn fun k : Fin 64 =>
      let e := c.scopes[k]
      match e.track.bind fun h => (Tab.find c.launches h).bind fun l => (l.groups.find? fun g => g.scope == k.val).map fun g => (h, g) with
      | none => e
      | some (h, g) =>
        { e with mask := c.tasks.foldl (fun m t =>
            match t.2.core with
            | some r => if t.2.handle = h && g.members.contains t.2.num then m ||| (1#160 <<< r.core) else m
            | none => m) 0 } }

/-! ### Dispatch (R243, R244, R249, R268, R276) -/

/-- A chip may run tasks now (R267, R391, R412, R418). -/
def Chip.onTurn (c : Chip) : Bool := !c.descheduled && !c.stopped && !c.parked && (!c.sliced || c.turnHeld)

/-- A task of a running launch is neither dispatched nor held (R260). -/
def Launch.freeTask (l : Launch) (k : Nat) : Bool := (Tab.find l.dispatched k).isNone && Tab.getD l.holds k 0 == 0

/-- The lowest dispatchable task of a launch: it and those placed with it are free. -/
def Launch.nextTask (l : Launch) : Option Nat :=
  if l.state = .running then (List.range l.record.ntask).find? fun k => (l.closure [k]).all l.freeTask else none

/-- How far behind the queue that a priority's last dispatch served a queue stands in the rotation (R268). -/
def Chip.turnOf (c : Chip) (prio q : Nat) : Nat := (q + 63 - Tab.getD c.turns prio 63) % 64

/-- The order of R268: no queue of higher priority has a dispatchable task, no queue of its priority has the turn before it, and no older
launch of the queue has one. -/
def Chip.servedNext (c : Chip) (handle task : Nat) : Bool :=
  let prio (h : Nat) : Nat := (vget c.queues (h / 1024)).prio
  let turn (h : Nat) : Nat := c.turnOf (prio h) (h / 1024)
  match Tab.find c.launches handle with
  | none => false
  | some l => l.nextTask == some task && c.launches.all fun o => o.2.nextTask.isNone || decide (prio o.1 < prio handle) ||
      (prio o.1 == prio handle && (decide (turn handle < turn o.1) || (turn handle == turn o.1 && decide (l.order ≤ o.2.order))))

/-- A dispatch served a queue (R268). -/
def Chip.tookTurn (c : Chip) (handle : Nat) : Chip :=
  { c with turns := Tab.put c.turns (vget c.queues (handle / 1024)).prio (handle / 1024) }

/-- A gang at task start (R39, R244). -/
def Chip.newGang (c : Chip) (l : Launch) : Gang :=
  let h := l.hdr.toNat
  let pc : Lanes DWord := Lanes.all (l.record.image + 0x80)
  { pc, exited := 0, bundles := bundlesOf (hdrC16 h) (BitVec.allOnes 32) pc, vmap := [], granted := [], ofile := Vector.replicate 8 (Lanes.all 0),
    last := Lanes.all [], sreg := Vector.ofFn fun k : Fin 64 => if k.val < hdrArgd h then l.args.getD k.val 0 else 0,
    pred := Lanes.all 0, mom := Vector.replicate 32 (Lanes.all 0), hand := Vector.replicate 16 none, fpctl := Lanes.all 0,
    fpflag := Lanes.all 0, mflag := Lanes.all 0,
    bind := Vector.ofFn fun k : Fin 64 => if l.scopes.getLsbD k.val then some (c.scopes[k]).version else none,
    pl := .user, c16 := hdrC16 h, moments := hdrMoments h, nreg := hdrNregs h, pend := [], frame := none, saved := [], spilled := false,
    yielded := false, moved := 0, waiting := none, mark := none, replay := [], orphaned := [],
    exiting := 0 }

/-- Array state that nothing has used (R39, R175). -/
def Arr.empty : Arr := { tiles := [], wbuf := [], slots := [], latch := none, eprog := none, flight := none, queue := [] }

/-- A task at its start (R244), before it has a place. -/
def Chip.newTask (c : Chip) (l : Launch) (handle num priv : Nat) : Task :=
  { handle, num, core := none, base := 0, gangs := (List.range l.record.gangs).map fun k => (k, c.newGang l), scrp := hdrScrp l.hdr.toNat,
    scratch := [], full := [], tl := Vector.replicate 8 0, tlq := Vector.replicate 8 [], extents := l.extents, image := l.record.image,
    priv, arr := Arr.empty, seq := 0, ended := false, undelivered := false, heldArray := false, arrayDue := false, copies := [],
    leaving := false, spos := 0, sealed := none, born := l.order }

/-- Base subcores for m tasks, each of which puts one gang more on r subcores from its base on than on the others, within what the subcores
take of these; none when there are none. `fuel` is at least m + 4. -/
def arcs (r : Nat) : Nat → Nat → Nat → List Nat → Option (List Nat)
  | _, _, 0, _ => some []
  | 0, _, _ + 1, _ => none
  | fuel + 1, b, m + 1, slack =>
    if 3 < b then none
    else
      let covers (k : Nat) : Bool := decide ((k + 4 - b) % 4 < r)
      let here := if (List.range 4).all fun k => !covers k || slack.getD k 0 != 0 then
          (arcs r fuel b m (slack.mapIdx fun k n => if covers k then n - 1 else n)).map (b :: ·)
        else none
      match here with
      | some bs => some bs
      | none => arcs r fuel (b + 1) (m + 1) slack

/-- Base subcores for as many tasks of some gangs each as subcores with room for so many gangs take, up to a bound (R243). -/
def basesFor (gangs : Nat) (room : List Nat) (most : Nat) : List Nat :=
  ((List.range (most + 1)).reverse.findSome? fun m =>
    let q := gangs / 4
    if room.all fun n => decide (q * m ≤ n) then arcs (gangs % 4) (m + 4) 0 m (room.map fun n => n - q * m) else none).getD []

/-- Base subcores for as many tasks like one as a core takes beside those there (R45, R243). -/
def State.seatsOn (s : State) (chip : Nat) (c : Chip) (placed : List Task) (t : Task) (core : CoreRef) : List Nat :=
  let ts := s.beside core placed
  let g := (t.gangs.head?).map Prod.snd
  let reserve := (g.map Gang.reserve).getD 1
  let held := (g.map fun g => g.held c.overEn).getD 0
  let room (k : Nat) : Nat :=
    let gs := ts.flatMap fun u => u.residents k
    min (16 - gs.length) (min ((admitLimit c.overEn - gs.foldl (fun n g => n + g.reserve) 0) / reserve)
      (if held = 0 then 16 else (2048 - ts.foldl (fun (n : Nat) u => n + u.heldOn c.overEn core k) 0) / held))
  let gap (p : Nat) : Nat := (ts.foldl (fun e u => if p < u.spos + u.scrp then min e (max p u.spos) else e) 256) - p
  let gaps := (0 :: ts.map fun u => u.spos + u.scrp).eraseDups.map gap
  let blocks := if t.scrp = 0 then 64 else gaps.foldl (fun n x => n + x / t.scrp) 0
  if (s.tasksOn core).all (fun x => x.1 == chip) then basesFor t.gangs.length ((List.range 4).map room) (min 64 blocks) else []

/-- A core and a base subcore. -/
abbrev Seat := CoreRef × Nat

/-- Tasks that must share a core cluster, as parts: a task with the parts that it joins. -/
def Launch.joinPart (l : Launch) (parts : List (List Nat)) (k : Nat) : List (List Nat) :=
  let p := parts.partition fun part => part.any fun j => l.sameCluster j k
  (k :: p.1.flatten) :: p.2

/-- Each part takes seats of one cluster, a cluster that the part is bound to where it is bound to one. -/
def seatParts (bound : List Nat → Option Nat) : List (List Nat) → List (List Seat) → Option (List (Nat × Seat) × List (List Seat))
  | [], cs => some ([], cs)
  | p :: ps, cs =>
    (List.range cs.length).findSome? fun k =>
      let here := cs.getD k []
      if (match bound p with | some b => b == k | none => true) && decide (p.length ≤ here.length) then
        (seatParts bound ps (cs.set k (here.drop p.length))).map fun r => (p.zip here ++ r.1, r.2)
      else none

/-- Tasks take their seats one after another. -/
def State.seatAll (s : State) (chip : Nat) (c : Chip) : List Task → List (Task × Seat) → Option (List Task)
  | placed, [] => some placed
  | placed, (t, at_) :: rest =>
    match s.seat chip c placed t at_.1 at_.2 with
    | some u => State.seatAll s chip c (placed ++ [u]) rest
    | none => none

/-- Places for tasks alike beside the one that has its place (R249: all in one step or none): each core takes as many as it can, cluster by
cluster, so that places are found whenever there are some. -/
def State.spread (s : State) (chip : Nat) (c : Chip) (l : Launch) (first : Task) (rest : List Task) : Option (List Task) :=
  match rest with
  | [] => some [first]
  | _ =>
    let nums := rest.map Task.num
    let seats (k : Nat) : List Seat := (List.range 8).flatMap fun j =>
      let core : CoreRef := ⟨c.dev, 8 * k + j⟩
      if c.cores.testBit k && !(s.core core).scrub then (s.seatsOn chip c [first] first core).map fun b => (core, b) else []
    let parts := nums.foldl l.joinPart []
    let bound (p : List Nat) : Option Nat := if p.any fun k => l.sameCluster first.num k then first.core.map fun r => clusterOf r.core else none
    let single (p : List Nat) : Bool := p.length == 1 && (bound p).isNone
    match seatParts bound (parts.filter fun p => !single p) ((List.range 20).map seats) with
    | none => none
    | some r =>
      let ones := (parts.filter single).flatten
      let left := r.2.flatten
      if left.length < ones.length then none
      else
        let at_ := r.1 ++ ones.zip left
        s.seatAll chip c [first] (rest.filterMap fun t => (at_.find? fun e => e.1 == t.num).map fun e => (t, e.2))

/-- The array of a core is free, and no task placed in the same step is to have it. -/
def State.arrayFree (s : State) (placed : List Task) (core : CoreRef) : Bool :=
  (s.core core).holder.isNone && !(placed.any fun p => p.heldArray && p.core == some core)

/-- Every core and base subcore, numbered, in the order in which a task looks for its place: one that held an array looks where the array is free
first (R268). -/
def State.places4 (s : State) (c : Chip) (placed : List Task) (t : Task) : List Nat :=
  if t.heldArray then
    let p := (List.range 640).partition fun k => s.arrayFree placed ⟨c.dev, k / 4⟩
    p.1 ++ p.2
  else List.range 640

/-- Places for tasks that differ in the gangs or registers that they still have: every core and base subcore is tried for each. -/
def State.fitAll (s : State) (chip : Nat) (c : Chip) (l : Launch) : List Task → List Task → Option (List Task)
  | placed, [] => some placed
  | placed, t :: ts =>
    (s.places4 c placed t).findSome? fun k =>
      match s.seat chip c placed t ⟨c.dev, k / 4⟩ (k % 4) with
      | some u => if l.clusterOk placed u then State.fitAll s chip c l (placed ++ [u]) ts else none
      | none => none

/-- Guest-physical bytes in use: the device tables, what launches, the trap handler, mailboxes and tidal regions hold, and private backings. -/
def Chip.usedBytes (c : Chip) : List (Nat × Nat) :=
  (c.tasks.map fun t => (t.2.priv, t.2.backing)) ++ c.tablesFrom tableLevels 0 ++
    (c.launches.flatMap fun l => l.2.extents.flatMap fun e => clipLeases e.base e.size e.pages) ++
    (if c.trap.en then
      clipLeases c.trap.tcbase.toNat (65536 * c.trap.tcsize) c.trap.code ++ clipLeases c.trap.tfbase.toNat (65536 * (c.trap.tfn + 1)) c.trap.area
    else []) ++
    (c.mbxHeld.toList.flatten ++ c.tide.held.flatMap Prod.snd).filterMap fun l => if l.host then none else some (l.frame, l.bytes)

/-- A backing lies in the quota and meets nothing that is in use, nor a granule that is being moved (R276, R288; log entry 16). -/
def Chip.backingFree (c : Chip) (t : Task) : Bool :=
  decide (t.priv % 65536 = 0) && decide (t.priv + t.backing ≤ c.quota) && !c.movingIn t.priv t.backing &&
    c.usedBytes.all fun r => !rangesMeet t.priv t.backing r.1 r.2

/-- The lowest place from an address on where a backing is free, on 64 KiB pages; the address itself when there is none. -/
def Chip.nextBacking (c : Chip) (t : Task) (from_ : Nat) : Nat :=
  let up (a : Nat) : Nat := (a + 65535) / 65536 * 65536
  let ends := (c.usedBytes.map fun r => r.1 + r.2) ++ c.moving.map fun g => (g + 1) * 2 ^ 21
  ((up from_ :: (ends.map up).filter fun a => decide (from_ ≤ a)).foldl (fun best a =>
    if c.backingFree { t with priv := a } && (match best with | some b => decide (a < b) | none => true) then some a else best) none).getD (up from_)

/-- Private backings one after another. -/
def Chip.assignPriv (c : Chip) : Nat → List Task → List Task
  | _, [] => []
  | from_, t :: ts =>
    let a := c.nextBacking t from_
    { t with priv := a } :: c.assignPriv (a + t.backing) ts

/-- The threads of a task that starts acquire what its launch acquired (R260). -/
def Hb.start (h : Hb) (t : Task) (key : Nat) (k : VClock) : Hb :=
  if k.isEmpty then h else (taskAgents (t.self key) (t.gangs.map Prod.fst)).foldl (fun h a => h.acquire a k) h

/-- A new task enters its chip: zeroed backing, clocks, count. -/
def Chip.enterTask (c : Chip) (handle : Nat) (t : Task) : Chip :=
  let key := taskKey handle t.num
  let c := { c.touchRange t.priv t.backing with mem := Mem.clear c.mem t.priv t.backing }
  let past := ((Tab.find c.launches handle).map Launch.clock).getD []
  { c with tasks := Tab.put c.tasks key t, hb := (c.hb.dropTask key).start t key past,
           launches := Tab.upd c.launches handle fun l => { l with dispatched := Tab.put l.dispatched t.num 1 } }

/-- TASK_DISPATCH (R243, R244, R249, R268, R276): the task, and in the same step those of its barrier and cluster groups. -/
def execTaskDispatch (chip handle task : Nat) (core : CoreRef) (base priv : Nat) (s : State) : Ans :=
  match s.chip? chip with
  | none => notEnabled s
  | some c =>
    match Tab.find c.launches handle with
    | none => notEnabled s
    | some l =>
      let rest := ((l.closure [task]).filter fun m => m != task).map fun m => c.newTask l handle m 0
      if !(c.onTurn && decide (base < 4) && c.servedNext handle task) then notEnabled s
      else
        match (s.seat chip c [] (c.newTask l handle task priv) core base).bind fun first => s.spread chip c l first rest with
        | none => notEnabled s
        | some ts =>
          let ts := match ts with | t :: more => t :: c.assignPriv (priv + t.backing) more | [] => []
          if !(ts.all c.backingFree) then notEnabled s
          else .next (s.updChip chip fun c => ((ts.foldl (fun c t => c.enterTask handle t) c).tookTurn handle).retrack)

/-! ### Retirement (R245, R246, R259, R263) -/

/-- Nothing that a task issued is under way (R245). -/
def State.taskQuiet (s : State) (chip key : Nat) (t : Task) : Bool :=
  let copies := s.devs.any fun d => d.2.cores.any fun k => k.2.copyq.any fun q => q.chip == chip && q.task == key
  let reads := ((s.chip? chip).map fun c => c.outbound.any fun o => !o.read && o.task == key).getD false
  !copies && !reads && (t.copies.isEmpty || t.ended) && t.arr.queue.isEmpty && t.arr.flight.isNone && !s.quantBusy chip key (t.seq + 1)

/-- A gang of a task issues no more: no issuer and no chosen bundle is of the task. -/
def State.forget (s : State) (chip key : Nat) : State :=
  let of (w : Issuer) : Bool := match w with | .gang g _ => g.chip == chip && g.task == key | .ctrl _ => false
  { s with issuer := (match s.issuer with | some w => if of w then none else some w | none => none), due := s.due.filter fun w => !of w }

/-- A subcore without the gangs of a task: their places in the active set are free. -/
def Subcore.without (b : Subcore) (chip key : Nat) : Subcore :=
  { b with active := b.active.map fun g => match g with | some r => if r.chip = chip ∧ r.task = key then none else some r | none => none }

/-- The latch as MRES restores it: the slot decompressed again (R194). -/
def Arr.relatch (a : Arr) : Arr := { a with latch := a.latch.bind fun k => a.latchSlot k.slot }

/-- A task still waits for the array of a core: its restore is due, a matrix instruction of it is stalled, or a follow-on command has landed
(R268). -/
def State.wantsArray (s : State) (core : CoreRef) (chip key : Nat) : Bool :=
  match s.task? chip key with
  | none => false
  | some t =>
    t.core == some core && !t.ended && (t.arrayDue ||
      (t.gangs.any fun g => g.2.bundles.any fun b => match b.wait with | some w => w.kind == .arrayHeld | none => false) ||
      (s.core core).copyq.any fun q => q.chip == chip && q.task == key && q.phase == .landed && (CopyRec.of q.record).fmm)

/-- The array of a core is free: the first of those that wait for it takes it, and one whose restore was due is restored (R268, R394). -/
def State.freeArray (s : State) (core : CoreRef) : State :=
  if (s.core core).holder.isSome then s
  else
    match (s.core core).wants.find? fun w => s.wantsArray core w.1 w.2 with
    | none => s.updCore core fun k => { k with wants := [] }
    | some (chip, key) =>
      (s.updTask chip key fun t => if t.arrayDue then { t with arrayDue := false, arr := t.arr.relatch } else t).updCore core fun k =>
        { k with holder := some (chip, key), wants := (k.wants.dropWhile fun w => w != (chip, key)).drop 1 }

/-- A task leaves its core: its gangs, its hold of the array, and when it was its context's last there the run of waiting cycles (R269) and, of a
protected context, the scrub that is due (R413).
Which units the device had power-gated until then is its own affair: any may have been. -/
def State.leaveCore (s : State) (chip key : Nat) (core : CoreRef) (prot : Bool) : State :=
  let last := (s.tasksOn core).all fun t => t.1 != chip || t.2.1 == key
  let s := if last then s.updChip chip fun c => { c with waitRun := Tab.drop c.waitRun core.core } else s
  (s.updCore core fun k =>
    { k with holder := if k.holder = some (chip, key) then none else k.holder, subs := k.subs.map fun b => b.without chip key,
             wants := k.wants.filter (fun w => w != (chip, key)), scrub := k.scrub || (prot && last), gated := k.gated || prot }).forget chip key

/-- What a core that a protected context has left holds is zero (R413). Registers, scratchpad, tiles and the array's units stand with their task
and have gone with it. -/
def Core.scrubbed (k : Core) : Core :=
  { k with holder := none, wants := [], copyq := [], subs := Core.idle.subs, scrub := false }

/-- The scrubs that are due are done (R413). -/
def State.scrubCores (s : State) : State :=
  { s with devs := s.devs.map fun d => (d.1, { d.2 with cores := d.2.cores.map fun k =>
      (k.1, if k.2.scrub && k.2.ctrl.isNone && k.2.copyq.isEmpty && (s.tasksOn ⟨d.1, k.1⟩).isEmpty then k.2.scrubbed else k.2) }) }

/-- TASK_RETIRE (R245, R246, R259, R263). -/
def execTaskRetire (chip task : Nat) (s : State) : Ans :=
  match s.chip? chip, s.task? chip task with
  | some c, some t =>
    let done := t.gangs.all fun g => g.2.retired
    if !((done || t.ended) && !(t.ended && t.undelivered) && s.taskQuiet chip task t && (t.core.isSome || t.ended)) then notEnabled s
    else
      match Tab.find c.launches t.handle with
      | none => notEnabled s
      | some l =>
        let core := t.core.getD l.core
        let frames := t.gangs.filterMap fun g => g.2.frame
        let s := match t.core with | some r => s.leaveCore chip task r c.prot | none => s
        let s := s.updChip chip fun c =>
          let l' := { l with made := VClock.join l.made (c.hb.ofTask t task), retired := l.retired + 1, faulted := l.faulted || t.ended, core }
          ({ c with tasks := Tab.drop c.tasks task, hb := c.hb.dropTask task, launches := Tab.put c.launches t.handle l',
                    trap := { c.trap with frames := c.trap.frames.filter fun f => !frames.contains f } }).retrack
        let s := s.freeArray core
        let s := if l.record.flags.testBit 1 then s.updCore core fun k => k.post chip (eventWord t.handle (if t.ended then 2 else 1) t.num) else s
        if l.retired + 1 = l.record.ntask then .next (s.complete chip t.handle (if l.faulted || t.ended then .ended else .done) 0) else .next s
  | _, _ => notEnabled s

/-! ### Pre-emption (R403 to R406) -/

/-- Steps 1 and 2 of a save for a gang (R399 step 1, R403): the Lovage unit's answers come (R432), a deferred FP_TRAP among its results is taken
first (R400), and the gang stops. -/
def State.settleGang (s : State) (g : GangRef) : State :=
  let s := s.answerLovage g
  let s := match (s.gang? g).bind fun q => q.pend.find? fun p => p.traps != 0 with
    | some p => s.takeDeferred g p
    | none => s
  s.updGang g fun q => if q.waiting.isSome then q else q.stop

/-- Tasks of which a gang is in its trap entry: it waits for a frame, and their save waits with it (R400). -/
def Chip.entering (c : Chip) (keys : List Nat) : Bool :=
  keys.any fun k => ((Tab.find c.tasks k).map fun t => t.gangs.any fun g => g.2.waiting.isSome).getD false

/-- Payload reads under way complete (R406). -/
def State.finishReads (s : State) (chip : Nat) : Nat → State
  | 0 => s
  | n + 1 =>
    match (s.chip? chip).bind fun c => c.outbound.findIdx? fun o => !o.read with
    | none => s
    | some k => match execSendPayloadRead chip k s with | .next t => State.finishReads t chip n | _ => s

/-- The array of a task comes to a place where it can stop (R161, R192): a command all of whose results stand completes, and so does a load, a
latch or a clear that a full queue begins with. -/
def State.settleArray (s : State) (core : CoreRef) (chip key : Nat) : State :=
  if (s.core core).holder = some (chip, key) then
    let s := s.after (execMatrixCommandComplete core)
    if ((s.task? chip key).map fun t => t.arr.mayStop).getD true then s
    else ((((s.after (execWldExecute core)).after (execWselLatch core)).after (execAclrExecute core)).after (execEpldLoad core)).after
      (execMatrixCommandComplete core)
  else s

/-- A copy, array state or quantiser command of a task whose accesses until now are released as the task leaves its core (R403 step 7). -/
def CopyCmd.onward (q : CopyCmd) : CopyCmd := if q.phase = .queued then q else { q with by_ := q.by_.onward }
def Arr.onward (a : Arr) : Arr := { a with flight := a.flight.map fun f => { f with cmd := { f.cmd with by_ := f.cmd.by_.onward } } }
def QCmd.onward (chip key : Nat) (q : QCmd) : QCmd := if q.chip = chip && q.task = key && q.running then { q with by_ := q.by_.onward } else q

/-- What the engine commands of a task that are under way have done (R403 step 7). -/
def State.underWay (s : State) (chip key : Nat) : VClock :=
  let copies := (s.devs.flatMap fun d => d.2.cores.flatMap fun k =>
    k.2.copyq.filter fun q => q.chip == chip && q.task == key && q.phase != .queued).map CopyCmd.by_
  let pass := match (s.task? chip key).bind fun t => t.arr.flight with | some f => [f.cmd.by_] | none => []
  let quants := (s.devs.flatMap fun d => (d.2.quant0 ++ d.2.quant1).filter fun q => q.chip == chip && q.task == key && q.running).map QCmd.by_
  (copies ++ pass ++ quants).foldl (fun k b => VClock.join k b.result) []

/-- A task whose gangs have stopped is saved and leaves its core (R403 steps 3 to 8). -/
def State.saveTask (s : State) (chip key : Nat) : State :=
  match s.chip? chip, s.taskCore chip key with
  | some c, some core =>
    let s := s.settleArray core chip key
    let mine (q : CopyCmd) : Bool := q.chip == chip && q.task == key
    let k := s.core core
    let holds := k.holder == some (chip, key)
    let under := s.underWay chip key
    let s := s.updTask chip key fun t =>
      { t with core := none, copies := t.copies ++ (k.copyq.filter mine).map (fun q => { q.onward with asked := none }),
               arr := (if holds then t.stopArr else t.arr).onward, heldArray := t.arrayDue || holds, arrayDue := false, leaving := false }
    let quants (d : Device) : Device := { d with quant0 := d.quant0.map (QCmd.onward chip key), quant1 := d.quant1.map (QCmd.onward chip key) }
    let s : State := { s with devs := s.devs.map fun d => (d.1, quants d.2) }
    let s := s.updChip chip fun c =>
      { c with hb := match Tab.find c.tasks key with | some t => c.hb.leaveCore t key under | none => c.hb }
    let s := s.updCore core fun k => { k with copyq := k.copyq.filter fun q => !mine q }
    (s.leaveCore chip key core c.prot).freeArray core
  | _, _ => s

/-- The tasks of a chip that stand on a core. -/
def Chip.placed (c : Chip) : List Nat := (c.tasks.filter fun t => t.2.core.isSome).map Prod.fst

/-- Tasks of a chip are pre-empted (R403, R412): their gangs stop; where one of them is in its trap entry the save of all waits until that is
complete (R400); a protected chip's seal counter rises before the save. -/
def State.preempt (s : State) (chip : Nat) (keys : List Nat) : State :=
  let mark (s : State) : State := keys.foldl (fun s k => s.updTask chip k fun t => { t with leaving := true }) s
  match s.chip? chip with
  | none => s
  | some c =>
    if keys.isEmpty then s
    else if c.entering keys then mark s
    else
      let t := keys.foldl (fun s k => (((s.task? chip k).map Task.gangs).getD []).foldl (fun s g => s.settleGang ⟨chip, k, g.1⟩) s) s
      match t.chip? chip with
      | none => t
      | some d =>
        if d.entering keys then mark t
        else
          let t := if d.prot then t.updDev d.dev fun v => { v with sealCnt := Tab.put v.sealCnt d.slot (Tab.getD v.sealCnt d.slot 0 + 1) } else t
          let t := t.finishReads chip (d.outbound.length + 1)
          ((keys.foldl (fun s k => s.saveTask chip k) t).updChip chip Chip.retrack).sealChip chip

/-- The save of a chip's leaving tasks, once no trap entry of theirs is under way (R400). -/
def State.finishLeaving (s : State) (chip : Nat) : State :=
  match s.chip? chip with
  | none => s
  | some c =>
    let keys := (c.tasks.filter fun t => t.2.leaving).map Prod.fst
    if keys.isEmpty || c.entering keys then s else s.preempt chip keys

/-- The whole context is pre-empted; waiting runs restart at 0 (R269, R404). -/
def State.preemptChip (s : State) (chip : Nat) : State :=
  let keys := ((s.chip? chip).map Chip.placed).getD []
  (s.preempt chip keys).updChip chip fun c => { c with waitRun := [] }

/-! ### Turns (R267) -/

/-- A context has work for a turn: a task to run or one to dispatch. -/
def Chip.hasWork (c : Chip) : Bool := c.tasks.any (fun t => !t.2.ended) || c.launches.any fun l => l.2.nextTask.isSome

/-- Sliced contexts that share clusters with one, in rotation order from the one after it. -/
def State.rivals (s : State) (chip : Nat) (c : Chip) : List Nat :=
  let all := (s.chips.filter fun o => o.1 != chip && o.2.dev == c.dev && o.2.sliced && (c.cores &&& o.2.cores) % 2 ^ 20 != 0).map Prod.fst
  all.filter (fun k => decide (chip < k)) ++ all.filter fun k => decide (k < chip)

/-- A sliced context starts its turn when no context that shares its clusters holds one. Its beginning is the cycle count of die 0 (log entry
114). -/
def State.startTurn (s : State) (chip : Nat) : State :=
  match s.chip? chip with
  | none => s
  | some c =>
    if c.descheduled || c.stopped || !c.sliced || (s.rivals chip c).any fun k => ((s.chip? k).map Chip.turnHeld).getD false then s
    else s.updChip chip fun c => { c with turnHeld := true, turnFrom := s.cycle ⟨c.dev, 0⟩ }

/-- The contexts that wait for clusters, in rotation order, those with work first: the next of them takes the turn (R267). -/
def State.passTurn (s : State) (order : List Nat) : State :=
  let work (k : Nat) : Bool := ((s.chip? k).map Chip.hasWork).getD false
  (order.filter work ++ order.filter fun k => !work k).foldl (fun s k => s.startTurn k) s

/-! ### Stopping a chip (R412, R413, R415, R418) -/

/-- What a chip has on its device's cores and in its queues is gone without being saved; the cores that it stood on are to be scrubbed (R413). -/
def State.clearCores (s : State) (chip : Nat) : State :=
  match s.chip? chip with
  | none => s
  | some c =>
    let s := c.placed.foldl (fun s k => match s.taskCore chip k with | some r => (s.leaveCore chip k r true).updTask chip k fun t => { t with core := none } | none => s) s
    let s := s.updDev c.dev fun d =>
      { d with quant0 := d.quant0.filter fun q => q.chip != chip, quant1 := d.quant1.filter fun q => q.chip != chip,
               cores := d.cores.map fun k =>
                 let runs := (k.2.ctrl.map CtrlRun.chip) == some chip
                 (k.1, { k.2 with copyq := k.2.copyq.filter fun q => q.chip != chip, ctrl := if runs then none else k.2.ctrl,
                                  scrub := k.2.scrub || runs, gated := k.2.gated || runs }) }
    let isMine (w : Issuer) : Bool := match w with | .ctrl r => r.dev == c.dev && (s.core r).ctrl.isNone | .gang g _ => g.chip == chip
    let s : State := { s with issuer := (match s.issuer with | some w => if isMine w then none else some w | none => none), due := s.due.filter fun w => !isMine w }
    c.placed.foldl (fun s k => match (Tab.find c.tasks k).bind Task.core with | some r => s.freeArray r | none => s) s

/-- The contexts that wait for clusters that a chip held in its turn take theirs: it has stopped, or is no longer there (R267). -/
def State.leaveTurn (s : State) (chip : Nat) (old : Chip) : State := if old.turnHeld then s.passTurn (s.rivals chip old) else s

/-- A chip is stopped and its cores scrubbed (R415, R418); its turn passes on (R267). -/
def State.stopChip (s : State) (chip : Nat) : State :=
  match s.chip? chip with
  | none => s
  | some c =>
    ((s.clearCores chip).updChip chip fun d =>
      { d with stopped := true, turnHeld := false, tasks := d.tasks.filter fun t => !c.placed.contains t.1 }).leaveTurn chip c

/-- The interface of a slot. -/
def Device.iface (d : Device) (slot : Nat) : Tdi := Tab.getD d.tdi slot Tdi.reset

def State.setTdi (s : State) (dev slot : Nat) (t : Tdi) : State := s.updDev dev fun d => { d with tdi := Tab.put d.tdi slot t }

/-- An interface in CONFIG_LOCKED or RUN moves to ERROR with a reason, and its chip is stopped (R418). -/
def State.tdiError (s : State) (dev slot reason : Nat) : State :=
  match s.dev? dev with
  | none => s
  | some d =>
    let t := d.iface slot
    if t.state = .locked || t.state = .run then
      let s := s.setTdi dev slot { t with state := .error, reason }
      match Tab.find d.slots slot with
      | some key => s.stopChip key
      | none => s
    else s

/-! ### Resumption (R252, R267, R268, R394) -/

/-- A saved task stands on a core again (R252 steps 3 and 5, R394): its threads acquire what its accesses have released. -/
def State.loadTask (s : State) (chip key : Nat) (t : Task) : State :=
  match t.core with
  | none => s
  | some core =>
    let free := (s.core core).holder.isNone
    let s := s.updTask chip key fun u =>
      { u with core := some core, base := t.base, spos := t.spos, gangs := u.gangs.map fun g => (g.1, { g.2 with moved := s.cycle core }), copies := [],
               heldArray := false, arrayDue := u.heldArray && !free, arr := if u.heldArray && free then u.arr.relatch else u.arr, sealed := none }
    let s := s.updChip chip fun c => { c with hb := c.hb.enterCore t key }
    s.updCore core fun k =>
      { k with copyq := k.copyq ++ t.copies, holder := if t.heldArray && free then some (chip, key) else k.holder,
               wants := if t.heldArray && !free then k.wants ++ [(chip, key)] else k.wants }

/-- A task that held an array is placed where the array is free, when some core that fits has it free (R268). -/
def State.arrayPlaceOk (s : State) (chip : Nat) (c : Chip) (l : Launch) (t : Task) : Bool :=
  match t.core with
  | none => false
  | some core =>
    !t.heldArray || (s.core core).holder.isNone ||
      (List.range 640).all fun k =>
        match s.seat chip c [] t ⟨c.dev, k / 4⟩ (k % 4) with
        | some u => !l.clusterOk [] u || (s.core ⟨c.dev, k / 4⟩).holder.isSome
        | none => true

/-- The saved tasks that resume with one (R249). -/
def Chip.savedWith (c : Chip) (l : Launch) (t : Task) : List (Nat × Task) :=
  c.tasks.filter fun u => u.2.handle == t.handle && u.2.num != t.num && u.2.core.isNone && !u.2.ended && (l.closure [t.num]).contains u.2.num

/-- Places for saved tasks beside the one that has its place (R249, R394): as for new ones, or, where they differ or one held an array (R268), by
trying all. -/
def State.placeAll (s : State) (chip : Nat) (c : Chip) (l : Launch) (first : Task) (rest : List Task) : Option (List Task) :=
  match (if rest.any Task.heldArray then none else s.spread chip c l first rest) with
  | some ts => some ts
  | none => s.fitAll chip c l [first] rest

/-- Tasks with their places stand there again. -/
def State.loadAll (s : State) (chip : Nat) (ts : List Task) : State :=
  (ts.foldl (fun s u => s.loadTask chip (taskKey u.handle u.num) u) s).updChip chip Chip.retrack

/-- TASK_RESUME (R249, R267, R268, R394, R412): a saved task of a protected chip that fails its seal stops the chip. -/
def execTaskResume (chip task : Nat) (core : CoreRef) (base : Nat) (s : State) : Ans :=
  match s.chip? chip, s.task? chip task with
  | some c, some t =>
    match Tab.find c.launches t.handle with
    | none => notEnabled s
    | some l =>
      let others := (c.savedWith l t).map Prod.snd
      let stand := (c.tasks.filter fun u => u.2.handle == t.handle && u.2.core.isSome).map Prod.snd
      if t.core.isSome || t.ended || !c.onTurn || 4 ≤ base then notEnabled s
      else
        match s.seat chip c [] t core base with
        | none => notEnabled s
        | some first =>
          if !l.clusterOk stand first || !s.arrayPlaceOk chip c l first then notEnabled s
          else
            match s.placeAll chip c l first others with
            | none => notEnabled s
            | some ts => .next (if (t :: others).all (s.sealHolds c) then s.loadAll chip ts else s.tdiError c.dev c.slot 2)
  | _, _ => notEnabled s

/-- The tasks that move with one to another core cluster: the whole of its cluster-kind groups (R252). -/
def Launch.movesWith (l : Launch) (num : Nat) : List Nat :=
  let gs := l.groups.filter fun g => g.kind == 3
  gs.foldl (fun ts _ => gs.foldl (fun ts g => if g.members.any ts.contains then ts ++ g.members.filter (fun m => !ts.contains m) else ts) ts) [num]

/-- TASK_MIGRATION (R252): a whole task moves; a cluster-kind member moves within its cluster, or with its whole group. -/
def execTaskMigration (chip task : Nat) (core : CoreRef) (base : Nat) (s : State) : Ans :=
  match s.chip? chip, s.task? chip task with
  | some c, some t =>
    match t.core, Tab.find c.launches t.handle with
    | some old, some l =>
      let with_ : List Nat := if clusterOf core.core = clusterOf old.core then [t.num] else l.movesWith t.num
      let keys := (with_.map (taskKey t.handle)).filter fun k => match Tab.find c.tasks k with | some u => u.core.isSome && !u.ended | none => false
      if t.ended || !c.onTurn || 4 ≤ base || core = old || c.entering keys then notEnabled s
      else
        let v := s.preempt chip keys
        match v.chip? chip, v.task? chip task with
        | some d, some u =>
          let rest := (keys.filter fun k => k != task).filterMap fun k => Tab.find d.tasks k
          if (u :: rest).any fun w => w.ended || w.core.isSome then notEnabled s
          else
            match (v.seat chip d [] u core base).bind fun first => if v.arrayPlaceOk chip d l first then v.placeAll chip d l first rest else none with
            | some ts => .next (v.loadAll chip ts)
            | none => notEnabled s
        | _, _ => notEnabled s
    | _, _ => notEnabled s
  | _, _ => notEnabled s

/-! ### Slices and turns (R267, R268) -/

/-- A turn ends: the tasks are pre-empted and the next context with work takes the clusters (R267). -/
def State.endTurn (s : State) (chip : Nat) : State :=
  match s.chip? chip with
  | none => s
  | some c =>
    let s := (s.preemptChip chip).updChip chip fun c => { c with turnHeld := false }
    let work (k : Nat) : Bool := ((s.chip? k).map Chip.hasWork).getD false
    s.passTurn (((s.rivals chip c).filter work) ++ [chip])

/-- No gang of the chip's tasks is in its trap entry, which a pre-emption waits for (R400). -/
def Chip.mayLeave (c : Chip) : Bool := !c.entering c.placed

/-- SLICE_EXPIRY (R267): SLICE is measured by the cycle count of die 0, whatever clusters the context holds (log entry 114). -/
def execSliceExpiry (chip : Nat) (s : State) : Ans :=
  match s.chip? chip with
  | some c =>
    if c.sliced && c.turnHeld && c.mayLeave && decide (c.turnFrom + c.slice.toNat ≤ s.cycle ⟨c.dev, 0⟩) then .next (s.endTurn chip) else notEnabled s
  | none => notEnabled s

/-- A bundle of a chip's task on a core can issue: its threads run. -/
def Chip.readyOn (c : Chip) (core : CoreRef) : Bool :=
  c.tasks.any fun t => t.2.core == some core && !t.2.ended && t.2.gangs.any fun g => g.2.waiting.isNone && g.2.bundles.any fun b => b.wait.isNone

/-- TURN_GIVEN_UP_EARLY (R267). -/
def execTurnGivenUpEarly (chip : Nat) (s : State) : Ans :=
  match s.chip? chip with
  | some c =>
    let ready := c.tasks.any fun t => match t.2.core with | some r => c.readyOn r | none => false
    let next := (s.rivals chip c).any fun k => ((s.chip? k).map Chip.hasWork).getD false
    if c.sliced && c.turnHeld && c.mayLeave && !ready && !(c.launches.any fun l => l.2.nextTask.isSome) && next then .next (s.endTurn chip)
    else notEnabled s
  | none => notEnabled s

/-- ARRIVAL_HINT_RECEIVE (R268): the device agrees; hints change timing only. -/
def execArrivalHintReceive (dev chip peer : Nat) (s : State) : Ans :=
  match s.dev? dev, s.chip? chip with
  | some _, some c =>
    if c.dev ≠ dev then notEnabled s
    else .next (s.updDev dev fun d =>
      { d with hints := if d.hints.contains (chip, peer) then d.hints else d.hints ++ [(chip, peer)],
               hintAgreed := if d.hintAgreed.contains chip then d.hintAgreed else d.hintAgreed ++ [chip] })
  | _, _ => notEnabled s

/-- HINT_AGREEMENT_TIMEOUT (R268): the device starts its turn alone. -/
def execHintAgreementTimeout (dev chip : Nat) (s : State) : Ans :=
  match s.dev? dev with
  | some d =>
    if d.hints.any fun h => h.1 == chip then
      .next (s.updDev dev fun d => { d with hints := d.hints.filter fun h => h.1 != chip, hintAgreed := d.hintAgreed.filter fun k => k != chip })
    else notEnabled s
  | none => notEnabled s

/-- A chip has other clusters: it keeps its turn, or takes one, where no context that shares them holds one, and the contexts that share the
clusters that it had take theirs (R267). -/
def State.turnsAfter (s : State) (chip : Nat) (old : Chip) : State :=
  match s.chip? chip with
  | none => s
  | some c =>
    let free := !((s.rivals chip c).any fun k => ((s.chip? k).map Chip.turnHeld).getD false)
    let keeps := c.sliced && old.sliced && old.turnHeld && free && c.cores != 0
    let s := s.updChip chip fun c => { c with turnHeld := keeps }
    let s := if keeps then s else s.startTurn chip
    let s := if c.sliced && !((s.chip? chip).map Chip.turnHeld).getD false then s.preemptChip chip else s
    s.passTurn (s.rivals chip old)

/-- CORES_WRITE (R257, R267, R391, R418): a protected chip takes cores in state RUN only, and a stopped one, or one whose interface is
creating, takes none. Tasks on cores that the write takes away are pre-empted with those placed together with them. -/
def State.writeCores (s : State) (chip : Nat) (value : DWord) : State :=
  match s.chip? chip with
  | none => s
  | some c =>
    let cores := value.toNat % 2 ^ 20
    let tdi := ((s.dev? c.dev).map fun d => Tab.getD d.tdi c.slot Tdi.reset).getD Tdi.reset
    if cores != 0 && (c.stopped || tdi.state == .creating || (c.prot && tdi.state != .run)) then s
    else
      let keep := clusterCores cores
      let gone := c.tasks.filter fun t => match t.2.core with | some r => !keep.getLsbD r.core | none => false
      let with_ := c.tasks.filter fun t => t.2.core.isSome && (gone.any fun g => g.1 == t.1 ||
        (g.2.handle == t.2.handle && ((Tab.find c.launches g.2.handle).map fun l => (l.closure [g.2.num]).contains t.2.num).getD false))
      let s := if cores = 0 then s.preemptChip chip else s.preempt chip (with_.map Prod.fst)
      let s := s.updChip chip fun c =>
        { c with cores, sliced := value.getLsbD 20, parked := false, waitRun := c.waitRun.filter fun w => keep.getLsbD w.1 }
      s.turnsAfter chip c

/-- CORES_WRITE (R391). -/
def execCoresWrite (chip : Nat) (value : DWord) (s : State) : Ans :=
  match s.chip? chip with
  | some _ => .next (s.writeCores chip value)
  | none => notEnabled s

/-! ### The waiting budget (R269, R270) -/

/-- The wait kind of a snapshot entry; 0 is none of them. -/
def WaitKind.code : WaitKind → Nat
  | .ldf => 1 | .barWait => 2 | .tlwait => 3 | .qwait => 4 | .tideWait => 5 | .tideClose => 6 | .msaveMres => 7 | .alloc => 8
  | .queueFull => 9 | .arrayHeld => 10
  | .result => 0 | .lovage => 0 | .tret => 0 | .frame => 0 | .remote => 0 | .evq => 0

/-- A bundle stands in a charged wait (R269). -/
def Bundle.charged (b : Bundle) : Bool := match b.wait with | some w => w.kind.code != 0 | none => false

/-- The SEND of a task that waits at the head of a core's copy queue for a place in the chip's outbound store, a charged wait (R219). -/
def State.sendWaits (s : State) (chip : Nat) (c : Chip) (core : CoreRef) : Option CopyCmd :=
  if c.outbound.length < 16 then none else (s.core core).copyq.find? fun q => q.kind == 3 && q.chip == chip && q.task != ctrlTask

/-- A core's cycle is a waiting cycle of a context (R269). -/
def State.waitingOn (s : State) (chip : Nat) (c : Chip) (core : CoreRef) : Bool :=
  c.onTurn && !c.readyOn core && ((s.sendWaits chip c core).isSome ||
    c.tasks.any fun t => t.2.core == some core && !t.2.ended && t.2.gangs.any fun g => g.2.bundles.any Bundle.charged)

/-- The entry of a SEND that waits for an outbound place (R219, R270). -/
def Task.sendEntry (t : Task) (q : CopyCmd) : List Byte :=
  le 1 9 ++ le 1 q.by_.gang ++ le 1 ((t.core.map CoreRef.core).getD 0) ++ le 1 (subOf t.base q.by_.gang) ++ le 4 t.num ++
    le 8 (q.by_.pc - t.image).toNat ++ le 8 q.tl ++ le 4 q.by_.lanes.toNat ++ le 4 0

/-- The 32-byte entry of a blocked bundle of a gang. -/
def Task.bundleEntry (t : Task) (n : Nat) (g : Gang) (b : Bundle) : List Byte :=
  match b.wait with
  | some w =>
    le 1 w.kind.code ++ le 1 n ++ le 1 ((t.core.map CoreRef.core).getD 0) ++ le 1 (subOf t.base n) ++ le 4 t.num ++
      le 8 (vget g.pc (lowest b.lanes) - t.image).toNat ++ le 8 w.addr.toNat ++ le 4 b.lanes.toNat ++ le 4 w.expect.toNat
  | none => []

/-- The entries of a task in gang order: those of a gang's blocked bundles, and that of its SEND that waits for an outbound place (R219). -/
def Task.snapEntries (t : Task) (send : Option CopyCmd) : List (List Byte) :=
  t.gangs.flatMap fun g => ((g.2.bundles.filter Bundle.charged).map fun b => t.bundleEntry g.1 g.2 b) ++
    match send with
    | some q => if q.by_.gang = g.1 then [t.sendEntry q] else []
    | none => []

/-- The snapshot of a context (R270): the head, and the entries in core and gang order. -/
def State.snapshot (s : State) (chip : Nat) (c : Chip) (core : CoreRef) : List Byte × List (List Byte) :=
  let es := ((List.range 160).flatMap fun k =>
    let r : CoreRef := ⟨c.dev, k⟩
    let send := s.sendWaits chip c r
    c.tasks.flatMap fun t => if t.2.core = some r && !t.2.ended then t.2.snapEntries (send.filter fun q => q.task == t.1) else []).take 126
  (le 4 0x534E0001 ++ le 2 c.num ++ le 2 es.length ++ le 8 (s.cycle core) ++ le 2 core.core ++ zeros 46, es)

/-- A bundle is blocked by a held tidal interface (R385). -/
def Bundle.tideHeld (b : Bundle) : Bool :=
  match b.wait with
  | some w => w.kind == .queueFull && inWin podBase podSize w.addr.toNat
  | none => false

/-- The host's bytes at SNAPA: device memory through the tables, or host memory itself. -/
def State.snapWrite (s : State) (chip a : Nat) (bs : List Byte) : State :=
  if deviceHalf a then s.devWrite chip a bs else if hostHalf a then { s with hostMem := Mem.write s.hostMem a bs } else s

/-- WAIT_BUDGET_EXPIRY (R269, R270, R385): the lowest core whose run has reached the budget. -/
def execWaitBudgetExpiry (chip : Nat) (core : CoreRef) (s : State) : Ans :=
  match s.chip? chip with
  | none => notEnabled s
  | some c =>
    let spent (k : Nat) : Bool := decide (0 < c.wbudget.toNat) && decide (c.wbudget.toNat ≤ Tab.getD c.waitRun k 0)
    if core.dev ≠ c.dev || !spent core.core || (List.range core.core).any spent || !c.mayLeave then notEnabled s
    else
      let held := c.tasks.any fun t => t.2.core.isSome && t.2.gangs.any fun g => g.2.bundles.any Bundle.tideHeld
      let p := s.snapshot chip c core
      let head := if c.prot then p.1.take 6 ++ zeros 2 ++ p.1.drop 8 else p.1
      let s := s.snapWrite chip c.snapa.toNat (if c.prot then head else head ++ p.2.flatten)
      let s := (s.updChip chip fun c => { c with snap := p.1 ++ p.2.flatten }).preemptChip chip
      let s := if c.turnHeld then s.endTurn chip else s.updChip chip fun c => { c with parked := true }
      .next { s with irqs := s.irqs ++ [.host c.dev (if held then cTideOverflow else cWaitBudget)] }

/-! ### Bundles and active sets (R235, R241, R242) -/

/-- Two bundles stand at one address in one state: both run, or both are blocked by one wait. One that is stalled at issue joins none (R235 step
3, R236; log entry 115). -/
def Gang.alike (g : Gang) (a b : Bundle) : Bool :=
  let half (m : LaneMask) : Nat := lowest m / 16
  vget g.pc (lowest a.lanes) == vget g.pc (lowest b.lanes) && (!g.c16 || half a.lanes == half b.lanes) &&
    (g.replaying a.lanes).isNone && (g.replaying b.lanes).isNone &&
    (match a.wait, b.wait with
     | none, none => true
     | some v, some w => v.kind.blocks && v.kind != .lovage && v.kind == w.kind && v.instr == w.instr
     | _, _ => false)

/-- One bundle of two (R238 step 5: the higher count), whose waits stay with their lanes. -/
def Bundle.merge (a b : Bundle) : Bundle :=
  match a.wait with
  | none => ⟨a.lanes ||| b.lanes, max a.passes b.passes, none, []⟩
  | some _ => Bundle.ofParts (max a.passes b.passes) (a.parts ++ b.parts)

/-- A bundle joins the first of a list that is like it. -/
def Gang.joinBundle (g : Gang) (b : Bundle) : List Bundle → List Bundle
  | [] => [b]
  | a :: rest => if g.alike a b then a.merge b :: rest else a :: g.joinBundle b rest

/-- Re-formation of a gang's bundles (R235 step 1). -/
def Gang.reform (g : Gang) : Gang := { g with bundles := g.bundles.foldl (fun bs b => g.joinBundle b bs) [] }

/-- A gang may be in the active set (R241). -/
def Gang.eligible (g : Gang) : Bool := !g.spilled && !g.retired && g.waiting.isNone && g.bundles.any fun b => b.wait.isNone

/-- The resident gangs of a subcore. -/
def State.residents (s : State) (core : CoreRef) (sub : Nat) : List (GangRef × Gang) :=
  (s.tasksOn core).flatMap fun t => (t.2.2.gangs.filter fun g => subOf t.2.2.base g.1 == sub && !g.2.retired).map fun g => (⟨t.1, t.2.1, g.1⟩, g.2)

/-- A gang put into a list by how long it has waited, those that left after YIELD last (R104, R241). Of two that have waited equally long the one
of the lower chip, task and gang is first (log entry 135). -/
def waitOrder (x : GangRef × Gang) : List (GangRef × Gang) → List (GangRef × Gang)
  | [] => [x]
  | y :: rest =>
    if x.2.yielded == y.2.yielded then (if x.2.moved < y.2.moved then x :: y :: rest else y :: waitOrder x rest)
    else if y.2.yielded then x :: y :: rest else y :: waitOrder x rest

/-- The first free place of an active set takes a gang. -/
def enterSet (a : Vector (Option GangRef) 4) (g : GangRef) : Vector (Option GangRef) 4 :=
  match (List.range 4).find? fun k => (vget a k).isNone with
  | some k => vset a k (some g)
  | none => a

/-- The members that stay at a choice of the active set (R104, R241): one that is not eligible leaves, and one that has been there for 1,024
cycles where an eligible gang is outside; then those that have yielded leave as far as such gangs need their places. -/
def State.stayers (s : State) (a : Vector (Option GangRef) 4) (gs : List (GangRef × Gang)) (now : Nat) : Vector (Option GangRef) 4 :=
  let okay (g : GangRef) : Bool := gs.any fun x => x.1 == g && x.2.eligible
  let outside := (gs.filter fun x => x.2.eligible && !a.contains (some x.1)).length
  let old (g : GangRef) : Bool := ((s.gang? g).map fun q => decide (q.moved + 1024 ≤ now)).getD false
  let keep (f : GangRef → Bool) (a : Vector (Option GangRef) 4) : Vector (Option GangRef) 4 :=
    a.map fun g => match g with | some r => if f r then some r else none | none => none
  let a := keep (fun g => okay g && !(decide (0 < outside) && old g)) a
  let free := (a.toList.filter Option.isNone).length
  let yields := (a.toList.filterMap id).filter fun g => ((s.gang? g).map Gang.yielded).getD false
  let out := yields.take (outside - free)
  keep (fun g => !out.contains g) a

/-- BUNDLE_REFORMATION (R235 step 1, R241). -/
def execBundleReformation (core : CoreRef) (sub : Nat) (s : State) : Ans :=
  let now := s.cycle core
  if now % 4 ≠ 0 || 3 < sub then notEnabled s
  else
    let s := (s.residents core sub).foldl (fun s g => s.updGang g.1 Gang.reform) s
    let a := (vget (s.core core).subs sub).active
    let stay := s.stayers a (s.residents core sub) now
    let left := (a.toList.filterMap id).filter fun g => !stay.contains (some g)
    let s := left.foldl (fun s g => s.updGang g fun q => { q with moved := now }) s
    let s := (stay.toList.filterMap id).foldl (fun s g => s.updGang g fun q => { q with yielded := false }) s
    let queue := ((s.residents core sub).filter fun x => x.2.eligible && !stay.contains (some x.1)).foldl (fun l x => waitOrder x l) []
    let enter := (queue.take (stay.toList.filter Option.isNone).length).map Prod.fst
    let s := enter.foldl (fun s g => s.updGang g fun q => { q with moved := now, yielded := false }) s
    .next (s.updCore core fun k => { k with subs := vset k.subs sub { vget k.subs sub with active := enter.foldl enterSet stay } })

/-! ### The register pool (R46 to R48) -/

/-- REGISTER_ALLOCATION (R46): the stalled instruction has its registers and can issue again. -/
def execRegisterAllocation (g : GangRef) (lanes : LaneMask) (s : State) : Ans :=
  match s.waiting g lanes .alloc with
  | some w => if s.poolHas (.gang g lanes) w.expect.toNat then .next (s.updGang g fun q => (q.grant lanes).unwait lanes) else notEnabled s
  | none => notEnabled s

/-- Guest-physical place and size of a gang's spill area (R47, R276). -/
def Task.spillArea (t : Task) (gang : Nat) : Nat × Nat :=
  let n := 136 * ((t.gangs.head?.map fun g => g.2.reserve).getD 0) + 8
  (t.priv + t.gangs.length * 32 * privateSize + gang * n, n)

/-- A gang awaits a long-latency result (R30): a bundle of it waits in LDF or for the Lovage unit, or it has one outstanding. -/
def Gang.awaiting (g : Gang) : Bool :=
  !g.pend.isEmpty || g.bundles.any fun b => match b.wait with | some w => w.kind == .ldf || w.kind == .lovage | none => false

/-- A gang of a subcore that may be spilled (R47). -/
def State.mayspill (s : State) (core : CoreRef) (sub : Nat) (x : GangRef × Gang) : Bool :=
  !(vget (s.core core).subs sub).active.contains (some x.1) && !x.2.awaiting && !x.2.spilled && !x.2.retired

/-- An allocation on a subcore is stalled and finds no registers still (R46). -/
def State.poolShort (s : State) (gs : List (GangRef × Gang)) : Bool :=
  gs.any fun x => x.2.bundles.any fun b =>
    match b.wait with | some w => w.kind == .alloc && !s.poolHas (.gang x.1 b.lanes) w.expect.toNat | none => false

/-- A bad spill or refill record (R48). -/
def State.spillFault (s : State) (g : GangRef) : State :=
  match s.task? g.chip g.task, s.gang? g with
  | some t, some q =>
    let pc := vget q.pc (lowest (~~~q.exited))
    s.endTask g.chip g.task (faultRecord { cause := cEngineFault, detail := 17, lanes := ~~~q.exited } q.frame.isSome true false (~~~q.exited) g.gang
      t.handle t.num pc pc)
  | _, _ => s

/-- SPILL_COMPLETE (R47, R48): the gang that has been drowsy longest. Where its records are more than the area takes, its task ends (log entry
116). -/
def execSpillComplete (g : GangRef) (s : State) : Ans :=
  match s.chip? g.chip, s.task? g.chip g.task, s.gang? g with
  | some c, some t, some q =>
    match t.core with
    | none => notEnabled s
    | some core =>
      let sub := subOf t.base g.gang
      let gs := s.residents core sub
      let first := gs.all fun x => !s.mayspill core sub x || decide (q.moved ≤ x.2.moved)
      if !(c.overEn && s.poolShort gs && s.mayspill core sub (g, q) && first) then notEnabled s
      else
        let area := t.spillArea g.gang
        if area.2 < q.records.length then .next (s.spillFault g)
        else .next ((s.updChip g.chip fun c => c.writeMem area.1 q.records).updGang g fun q => { q with spilled := true })
  | _, _, _ => notEnabled s

/-- GANG_REFILL (R47, R48). -/
def execGangRefill (g : GangRef) (s : State) : Ans :=
  match s.chip? g.chip, s.task? g.chip g.task, s.gang? g with
  | some c, some t, some q =>
    match t.core with
    | none => notEnabled s
    | some core =>
      let sub := subOf t.base g.gang
      let need := ({ q with spilled := false }).held (s.loose c core sub)
      if !q.spilled || 2048 < s.poolUsed core sub + s.owed core sub g 0 + need then notEnabled s
      else
        let area := t.spillArea g.gang
        match readRecords (Mem.bytes c.mem area.1 area.2) 512 { q with vmap := [], spilled := false } with
        | some q' => .next (s.updGang g fun _ => q')
        | none => .next (s.spillFault g)
  | _, _, _ => notEnabled s

/-! ### Results and trap entry (R30, R44, R116, R399) -/

/-- Threads of a gang that a handler has made exit do so where no result of theirs is left, with the orphan test (R246, R401). -/
def State.settleExits (s : State) (g : GangRef) : State :=
  if ((s.gang? g).map Gang.exiting).getD 0 = 0 then s else (s.updGang g Gang.settleExits).orphanTest g.chip g.task

/-- RESULT_ARRIVAL (R30, R44, R116): the k-th outstanding result of a gang. -/
def execResultArrival (g : GangRef) (k : Nat) (s : State) : Ans :=
  match s.gang? g, (s.task? g.chip g.task).bind Task.core with
  | some q, some _ =>
    match q.pend[k]? with
    | none => notEnabled s
    | some p =>
      if !q.mayArrive p || q.waiting.isSome then notEnabled s
      else if p.traps ≠ 0 then .next (s.takeDeferred g p)
      else .next ((s.updGang g fun q => q.arrive p).settleExits g)
  | _, _ => notEnabled s

/-- TRAP_ENTRY (R399 step 2, R400): a gang that waits for a frame takes the lowest that is free, and a save that has waited for it follows.
Where traps are off by then, the record ends the task (R402). -/
def execTrapEntry (g : GangRef) (s : State) : Ans :=
  match s.chip? g.chip, s.gang? g with
  | some c, some q =>
    match q.waiting, c.trap.freeFrame, c.trap.en with
    | some (record, _), _, false => .next ((s.endTask g.chip g.task (record.take 2 ++ [record.getD 2 0 ||| 8] ++ record.drop 3)).finishLeaving g.chip)
    | some (record, repl), some n, true => .next (((s.forget g.chip g.task).enterHandler g record repl n).finishLeaving g.chip)
    | _, _, _ => notEnabled s
  | _, _ => notEnabled s

end Sys2Proof.Machine
end

