-- ==== Sys2Proof/Machine/System.lean ====
section
/-! DEFINITION. Traps, gang images, capabilities, HALT, the control core's instructions and routines, and the trap
handler's enabling (R224, R227 to R229, R263 to R266, R397, R398, R401, R402, R433 to R435). -/

namespace Sys2Proof.Machine

/-! ### TRAP and TRET (R224, R401) -/

/-- TRAP (R224): USER_TRAP with the code in the record. -/
def execTrap (x : Ops) (s : State) : Ans :=
  issue s (.trap x) x fun c _ =>
    let code := if x.form = .A then opndBits x.b.opnd % 256 - 0x40 else x.imm.toNat % 2 ^ 32
    c.trap cUserTrap (BitVec.ofNat 64 code)

/-- Lanes of a gang that have issued TRET and wait for the rest. -/
def Gang.inTret (g : Gang) : LaneMask :=
  g.bundles.foldl (fun m b => match b.wait with | some w => if w.kind = .tret then m ||| b.lanes else m | none => m) 0

/-- Remote results as the image gives them back: what the image cannot hold comes from the device's own record (R405), and so does the kind of the
destination where the handler has left its index. -/
def patchPend (saved : List Pend) (p : Pend) : Pend :=
  match saved.find? fun o => o.id == p.id with
  | some o =>
    { p with pc := o.pc, active := o.active, instr := o.instr, repl := o.repl, missing := if p.missing = 0 then 0 else o.missing &&& p.lanes,
             dst := if o.dst.index = p.dst.index then o.dst else p.dst }
  | none => p

/-- The outstanding results of a gang that returns from its handler: those of the image, and those whose own FP_TRAP is still to come (R405, log
entry 14). -/
def returned (saved image : List Pend) : List Pend := image.map (patchPend saved) ++ saved.filter fun p => p.kind == .here

/-- The replays that were due when a handler was entered and still are: in the lanes that the image leaves at their instruction (R401). -/
def Gang.standing (g : Gang) (rs : List Replay) : List Replay :=
  (rs.map fun r => { r with lanes := maskOf fun i => inMask r.lanes i && !inMask g.exited i &&
      (match rs.find? fun o => inMask o.lanes i with | some o => o.pc == g.pc[i] | none => false) }).filter fun r => r.lanes != 0

/-- The replays that are left where threads skip the one that they stand at. -/
def skipReplay : List Replay → LaneMask → List Replay
  | [], _ => []
  | r :: rs, m => (if r.lanes &&& ~~~m = 0 then [] else [{ r with lanes := r.lanes &&& ~~~m }]) ++ skipReplay rs (m &&& ~~~r.lanes)

/-- What TRET does to the gang restored from its frame: ACTION 0 with DEFER replays, 1 skips, 2 exits, which waits as EXIT does (R401). -/
def Gang.act (g : Gang) (mark : FaultMark) (action : Nat) (deferred sup : Bool) (repl : List (Lanes (BitVec 128))) : Gang :=
  let m := mark.active &&& ~~~g.exited
  let due := g.standing mark.again
  let g : Gang :=
    match action with
    | 0 =>
      if deferred && m != 0 then
        { g with pc := Lanes.sel m (Lanes.all mark.pc) g.pc, replay := ⟨m, mark.pc, g.pc, repl, sup⟩ :: due }
      else { g with replay := due }
    | 1 =>
      if deferred then { g with replay := due }
      else { g with pc := Lanes.sel m (Lanes.all mark.resume) g.pc, replay := skipReplay due m }
    | _ =>
      ({ g with exiting := g.exiting ||| m,
                replay := (due.map fun r => { r with lanes := r.lanes &&& ~~~m }).filter fun r => r.lanes != 0 } : Gang).settleExits
  { g with bundles := g.formed }

/-- The device's own record that a return brings back with the image: what the handler has bound (R307; log entry 125), and the threads that
EMPTY_ORPHAN has still to strike, where they stand at the LDF that waited (R149). -/
def Gang.bringBack (g r : Gang) (mark : FaultMark) : Gang :=
  { r with bind := Vector.ofFn fun k : Fin 64 => if mark.rebound.getLsbD k.val then g.bind[k] else r.bind[k],
           orphaned := (g.orphaned.map fun o => (o.1 &&& maskOf fun i => r.pc[i] == o.2, o.2)).filter fun o => o.1 != 0 }

/-- The sources that REPL holds in an image (R407). -/
def replOf (image : List Byte) : List (Lanes (BitVec 128)) :=
  (List.range 3).map fun k => lanesFrom fun i => BitVec.ofNat 128 (field image (0x4100 + 512 * k + 16 * i.val) 16)

/-- TRET once every thread has issued it (R401). -/
def Ctx.tret (c : Ctx) (s : State) (g : GangRef) (frame : Nat) : Res :=
  match s.chip? g.chip, c.g.mark with
  | some k, some mark =>
    let base := k.trap.tfbase.toNat + 65536 * frame
    let head := s.leaseRead g.chip k.trap.area base 64
    let image := s.leaseRead g.chip k.trap.area (base + 0x40) 61568
    let cause := field head 0 4
    let action := field head 0xC 1
    match c.g.restore image with
    | none => c.trap cIllegalOperand
    | some r =>
      let need := r.vmap.length - c.g.vmap.length
      if 2 < action then c.trap cIllegalOperand
      else if !s.poolHas c.w need then .wait .alloc 0 (BitVec.ofNat 32 need)
      else
        let r : Gang := { r with pl := levelOf (field image 6 1 % 4), frame := none, saved := [], mark := none, pend := returned c.g.saved r.pend }
        let r := c.g.bringBack (r.act mark action (cause.testBit 17) (cause.testBit 16) (replOf image)) mark
        let s := (c.leaveFence s).renumber g fun id => if 32 ≤ id then 2 ^ 40 else id
        let s := s.updChip g.chip fun k => { k with trap := { k.trap with frames := k.trap.frames.filter fun f => f != frame } }
        let s := (s.updGang g fun _ => r).orphanTest g.chip g.task
        .whole { s with issuer := r.replay.head?.map fun p => .gang g p.lanes }
  | _, _ => c.trap cIllegalOperand

/-- TRET (R224, R401). -/
def execTret (x : Ops) (s : State) : Ans :=
  issue s (.tret x) x fun c s =>
    match c.w, c.g.frame with
    | .gang g _, some frame => if c.g.inTret ||| c.active = ~~~c.g.exited then c.tret s g frame else .wait .tret 0 0
    | _, _ => c.trap cIllegalOperand

/-! ### CSAVE and CREST (R224, R407) -/

/-- Places of a list of bytes that the issuing thread names; a byte it may not reach is EXTENT. -/
def Ctx.span (c : Ctx) (s : State) (need : Acc) (a n : Nat) : Except Trouble (List Place) :=
  match s.places c.w (lowest c.active) need a n with
  | some ps => .ok ps
  | none => .error { cause := cExtent, lanes := c.active, addr := BitVec.ofNat 64 a }

/-- CSAVE (R224). -/
def execCsave (x : Ops) (s : State) : Ans :=
  issue s (.csave x) x fun c s =>
    let a := c.once c.va
    if c.active ≠ ~~~c.g.exited then c.trap cIllegalOperand
    else if a % 256 ≠ 0 then c.trap cMisalign (BitVec.ofNat 64 a)
    else
      let d := match x.dst with | .main k => k.toNat | _ => 0
      let marked := c.g.writeP d c.active (Lanes.all true)
      let pcs : Lanes DWord := Lanes.sel c.active (Lanes.all c.next) c.g.pc
      let bytes := c.g.image pcs marked.pred c.g.frame true []
      match c.span s .write a bytes.length with
      | .error t => .trap t
      | .ok ps =>
        match c.imageAccess s true ps with
        | .error t => .trap t
        | .ok s => .ok { s := s.writeBytes ps bytes, dst := some (Lanes.all 0) }

/-- Bytes that the register records of an image take; none when they pass the end of what was read. -/
def recordsLength : Nat → List Byte → Option Nat
  | 0, _ => some 0
  | n + 1, bs =>
    let fmt := field bs 1 1
    let size := match fmt with | 0 => 8 | 1 => 12 | 2 => 44 | 3 => 76 | _ => 136
    if bs.length < 8 then none
    else if field bs 2 1 = 0xFF || 4 < fmt then some 8
    else if bs.length < size then none
    else (recordsLength n (bs.drop size)).map fun m => m + size

/-- The places that a thread reaches from an address up to the first it does not, at most n. -/
def Ctx.readable (c : Ctx) (s : State) (a : Nat) : Nat → List Place
  | 0 => []
  | n + 1 => match s.place c.w (lowest c.active) .read a with
    | some p => p :: c.readable s (a + 1) n
    | none => []

/-- What CREST puts in the place of a gang, from the image read into it: the level, and results of the image that have come. Local results that
threads of other bundles still await are written nowhere, and raise their flags and traps (R116; log entry 31). -/
def Gang.rebuilt (g r : Gang) (pl : Level) : Gang :=
  let mine := (g.pend.filter fun p => p.kind == .here).mapIdx fun k p => { p with id := 32 + k, lanes := 0, sup := true }
  let keep := g.frame.isSome
  { r with pl, pend := (r.pend.filter fun p => p.missing == 0) ++ mine, replay := [], exiting := if keep then g.exiting else 0,
           orphaned := if keep then g.orphaned else [] }

/-- CREST (R224): the whole gang goes on at the addresses of the image. -/
def execCrest (x : Ops) (s : State) : Ans :=
  issue s (.crest x) x fun c s =>
    let a := c.once c.va
    let ps := c.readable s a 61568
    let bs := s.bytesAt ps
    match (if bs.length < 0x4700 then none else recordsLength 512 (bs.drop 0x4700)) with
    | none => .trap { cause := cExtent, lanes := c.active, addr := BitVec.ofNat 64 (a + ps.length) }
    | some n =>
      match c.imageAccess s false (ps.take (0x4700 + n)) with
      | .error t => .trap t
      | .ok s =>
        match c.g.restore bs, c.w with
        | some r, .gang g _ =>
          let need := r.vmap.length - c.g.vmap.length
          if !s.poolHas c.w need then .wait .alloc 0 (BitVec.ofNat 32 need)
          else
            let s := (c.leaveFence s).renumber g fun _ => 2 ^ 40
            .whole { (s.updGang g fun _ => c.g.rebuilt r (levelOf (field bs 6 1 % 4))).orphanTest g.chip g.task with issuer := none }
        | _, _ => c.trap cIllegalOperand

/-! ### Capabilities and HALT (R227, R228, R433) -/

/-- The heads of the capability list by position (R433). -/
def Chip.capHead (c : Chip) (pos : Nat) : Nat :=
  let head (id nb : Nat) (expert host en : Bool) : Nat :=
    id * 2 ^ 48 + 2 ^ 40 + bitNat expert * 2 ^ 39 + bitNat host * 2 ^ 38 + bitNat en * 2 ^ 37 + nb * 2 ^ 16 + pos
  match pos with
  | 0 => head 1 1 false false false
  | 1 => head 2 1 false false false
  | 2 => head 3 1 false false false
  | 3 => head 0x10 1 true c.overOk c.overEn
  | 4 => head 0x11 0 true c.scopeOk c.scopeEn
  | _ => 0

/-- Body doubleword j of the entry at a position (R433, R434). -/
def capBody (pos j : Nat) : Nat :=
  if j ≠ 0 then 0
  else match pos with
    | 0 => 2 | 1 => 2 | 2 => 2 | 3 => 3072
    | _ => 0

/-- CAP (R227, R433). -/
def execCap (x : Ops) (s : State) : Ans :=
  issue s (.cap x) x fun c s =>
    let a := c.once c.va
    let head (p : Nat) : Nat := ((s.chip? c.chip).map fun k => k.capHead p).getD 0
    let v := if x.sub = 1 then head a else (((List.range 5).map head).find? fun h => h / 2 ^ 48 == a % 65536).getD 0
    c.value s fun _ => v

/-- The outstanding results of a gang are written, the Lovage unit's answers among them, and a deferred FP_TRAP first (R228, R116). -/
def State.settleResults (s : State) (g : GangRef) : State :=
  let s := s.answerLovage g
  match (s.gang? g).bind fun q => q.pend.find? fun p => p.traps != 0 with
  | some p => s.takeDeferred g p
  | none => s.updGang g fun q => q.pend.foldl Gang.settle q

/-- A remote result of a gang on a core has yet to come. -/
def State.awaitsRemote (s : State) (core : CoreRef) : Bool :=
  (s.tasksOn core).any fun t => t.2.2.gangs.any fun g => g.2.pend.any fun p => p.missing != 0

/-- HALT (R228): once the outstanding results of the core have come and are written, the core issues no more. -/
def execHalt (x : Ops) (s : State) : Ans :=
  issue s (.halt x) x fun c s =>
    if s.awaitsRemote c.core then .wait .result 0 0
    else
      let t := c.pass s
      let t := (t.tasksOn c.core).foldl (fun t k => k.2.2.gangs.foldl (fun t g => t.settleResults ⟨k.1, k.2.1, g.1⟩) t) t
      let t := t.updGangOf (.ctrl c.core) fun g => g.pend.foldl Gang.settle g
      .whole { t.updCore c.core (fun k => { k with halted := true }) with issuer := none, due := t.due.filter fun w => s.coreOf w != some c.core }

/-- HALTED_CORE_RESUME (R228): Ilcia lets a halted core go on, or resets the core's own record. -/
def execHaltedCoreResume (core : CoreRef) (reset : Bool) (s : State) : Ans :=
  if (s.core core).halted then .next (s.updCore core fun k => if reset then Core.idle else { k with halted := false })
  else notEnabled s

/-! ### The control core (R229, R263 to R266) -/

/-- EVQ.POP (R229). -/
def execEvqPop (x : Ops) (s : State) : Ans :=
  issue s (.evqPop x) x fun c s =>
    match Tab.getD (s.core c.core).evq c.chip [] with
    | r :: rest => c.value (s.updCore c.core fun k => { k with evq := Tab.put k.evq c.chip rest }) fun _ => r.toNat
    | [] => if x.sub = 1 then .wait .evq 0 0 else c.value s fun _ => 0

/-- A dependence hold falls by one; none when the launch or the count does not allow it (R264). -/
def Chip.unhold (c : Chip) (handle task : Nat) : Option Chip :=
  match Tab.find c.launches handle with
  | none => none
  | some l =>
    let n := Tab.getD l.holds task 0
    let live := match l.state with | .waiting => true | .translating => true | .running => true | _ => false
    if live && n != 0 then
      let holds := if n = 1 then Tab.drop l.holds task else Tab.put l.holds task (n - 1)
      some { c with launches := Tab.put c.launches handle { l with holds } }
    else none

/-- TREL (R229, R264). -/
def execTrel (x : Ops) (s : State) : Ans :=
  issue s (.trel x) x fun c s =>
    let a := c.once c.va
    .ok { s := s.updChip c.chip fun k => (k.unhold (bitsOf a 63 48) (a % 2 ^ 32)).getD { k with cc := { k.cc with drop := true } } }

/-- The registers of a control routine at its entry (R265). -/
def Chip.routine (c : Chip) (cycle : Nat) : Gang :=
  let pc : Lanes DWord := Lanes.all c.cc.entry
  { pc, exited := ~~~1#32, bundles := [⟨1#32, 0, none, []⟩], vmap := [], granted := [], ofile := Vector.replicate 8 (Lanes.all 0), last := Lanes.all [],
    sreg := vset (Vector.replicate 64 0) 0 c.cc.area, pred := Lanes.all 0, mom := Vector.replicate 32 (Lanes.all 0),
    hand := Vector.replicate 16 none, fpctl := Lanes.all 0, fpflag := Lanes.all 0, mflag := Lanes.all 0,
    bind := c.scopes.map fun e => some e.version, pl := .supervisor, c16 := false, moments := false, nreg := 64, pend := [], frame := none,
    saved := [], spilled := false, yielded := false, moved := cycle, waiting := none, mark := none, replay := [], orphaned := [],
    exiting := 0 }

/-- A context whose records a core's control core serves (R265, R266, R415). -/
def State.served (s : State) (core : CoreRef) (chip : Nat) : Bool :=
  match s.chip? chip with
  | some c => c.dev == core.dev && !c.cc.stop && !c.stopped && !(Tab.getD (s.core core).evq chip []).isEmpty
  | none => false

/-- The contexts that a control core serves, from the one after the last (R265). -/
def State.rotation (s : State) (core : CoreRef) : List Nat :=
  let ks := ((s.core core).evq.map Prod.fst).filter (s.served core)
  let last := (s.core core).lastCtx
  ks.filter (fun k => decide (last < k)) ++ ks.filter fun k => decide (k ≤ last)

/-- CONTROL_ROUTINE_ENTRY (R265): one context at a time, round-robin, and not before a scrub that is due (R413). -/
def execControlRoutineEntry (core : CoreRef) (chip : Nat) (s : State) : Ans :=
  match s.chip? chip with
  | none => notEnabled s
  | some c =>
    let k := s.core core
    if k.ctrl.isSome || k.halted || k.scrub || (s.rotation core).head? != some chip then notEnabled s
    else
      let cycle := s.cycle core
      .next (s.updCore core fun k => { k with ctrl := some ⟨chip, c.routine cycle, cycle⟩, lastCtx := chip })

/-- CONTROL_CORE_LIMIT (R266). -/
def execControlCoreLimit (core : CoreRef) (s : State) : Ans :=
  match (s.core core).ctrl with
  | some run =>
    if run.began + 65536 < s.cycle core then
      let s := s.updChip run.chip fun c => { c with cc := { c.cc with stop := true, limit := true } }
      let s := s.endRoutine core
      let mine : Bool := match s.issuer with | some (.ctrl r) => r == core | _ => false
      let t := s.notice run.chip 1
      .next { t with issuer := if mine then none else s.issuer,
                     due := s.due.filter fun w => match w with | .ctrl r => r != core | _ => true }
    else notEnabled s
  | none => notEnabled s

/-- A write of CCSTAT (R266): ones clear the bits below. -/
def CcRegs.clear (r : CcRegs) (v : DWord) : CcRegs :=
  { r with limit := r.limit && !v.getLsbD 2, drop := r.drop && !v.getLsbD 1, stop := r.stop && !v.getLsbD 0 }

/-- CCSTAT_WRITE (R266). -/
def execCcstatWrite (chip : Nat) (value : DWord) (s : State) : Ans :=
  match s.chip? chip with
  | some _ => .next (s.updChip chip fun c => { c with cc := c.cc.clear value })
  | none => notEnabled s

/-! ### Enabling the handler; the fault queue (R397, R398, R402) -/

/-- The moves of granules that pages lie in are complete (R288). -/
def Chip.settleMoves (c : Chip) (ls : List Lease) : Chip :=
  { c with moving := c.moving.filter fun g => !(ls.any fun l => !l.host && rangesMeet l.frame l.bytes (g * 2 ^ 21) (2 ^ 21)) }

/-- Leased bytes meet the private backing of a task, which threads cannot address by another way (R276; log entry 16). -/
def Chip.backs (c : Chip) (base size : Nat) (ls : List Lease) : Bool :=
  (clipLeases base size ls).any fun f => c.tasks.any fun t => rangesMeet f.1 f.2 t.2.priv t.2.backing

/-- A write of TCTL (R397, R398). Its translations wait for the moves of granules under its ranges, so that those are complete when it is
(R288). -/
def Chip.writeTctl (c : Chip) (value : DWord) : Chip :=
  let en := value.getLsbD 63
  let t := c.trap
  if t.en then
    if en || !t.frames.isEmpty then c else { c with trap := { t with en := false, code := [], area := [] } }
  else
    let tfn := value.toNat % 4096
    if !en then { c with trap := { t with tfn } }
    else
      let still : Chip := { c with moving := [] }
      match still.leaseRange .fetch t.tcbase.toNat (65536 * t.tcsize), still.leaseRange .both t.tfbase.toNat (65536 * (tfn + 1)) with
      | .ok code, .ok area =>
        if c.backs t.tcbase.toNat (65536 * t.tcsize) code || c.backs t.tfbase.toNat (65536 * (tfn + 1)) area then
          { c with trap := { t with tfn, lerr := true } }
        else
        let c := ((c.settleMoves (code ++ area)).markLeases false code).markLeases true area
        { c with trap := { t with tfn, en := true, lerr := false, code, area } }
      | _, _ => { c with trap := { t with tfn, lerr := true } }

/-- TRAP_HANDLER_ENABLE (R398): a write of TCTL with EN = 1. -/
def execTrapHandlerEnable (chip : Nat) (value : DWord) (s : State) : Ans :=
  match s.chip? chip with
  | some c => if value.getLsbD 63 then .next (s.updChip chip fun _ => c.writeTctl value) else notEnabled s
  | none => notEnabled s

/-- TRAP_HANDLER_DISABLE (R398): a write of TCTL with EN = 0. -/
def execTrapHandlerDisable (chip : Nat) (s : State) : Ans :=
  match s.chip? chip with
  | some c => .next (s.updChip chip fun _ => c.writeTctl (BitVec.ofNat 64 (c.trap.tfn % 4096)))
  | none => notEnabled s

/-- FAULT_RECORD_DELIVERY (R402): the oldest record that waits. -/
def execFaultRecordDelivery (chip : Nat) (s : State) : Ans :=
  match s.chip? chip with
  | none => notEnabled s
  | some c =>
    match c.trap.due with
    | [] => notEnabled s
    | (bs, task) :: rest =>
      let d := (s.updChip chip fun c => { c with trap := { c.trap with due := [] } }).deliverFault chip bs task
      if !d.2 then notEnabled s
      else
        let t := d.1.updChip chip fun c => { c with trap := { c.trap with due := rest } }
        .next (t.updTask chip task fun t => { t with undelivered := false })

/-- FQHEAD_WRITE (R397, R402). -/
def execFqheadWrite (chip : Nat) (value : DWord) (s : State) : Ans :=
  match s.chip? chip with
  | some _ => .next (s.updChip chip fun c => { c with trap := { c.trap with fqhead := value.toNat % 64 } })
  | none => notEnabled s

end Sys2Proof.Machine
end

