-- ==== Sys2Proof/Machine/FabricRegs.lean ====
section
/-! DEFINITION. The registers with behaviour of the fabric, the tides and migration: mailbox regions, receive buffers, multicast sets, tidal
declarations, the tide log, MIGCTL (R366 to R371, R374 to R376, R385, R388 to R390). -/

namespace Sys2Proof.Machine

/-! ### Which bytes a declaration covers (R368, R376) -/

/-- The valid regions of both tables (R375: every check uses both). -/
def Tide.regions (t : Tide) : List (Nat × Region) := (t.eff ++ t.staged).filter fun r => r.2.valid

/-- A range overlaps a tidal region that is valid in the effective or the staged table (R368). -/
def Chip.meetsRegion (c : Chip) (a n : Nat) : Bool := c.tide.regions.any fun r => c.shareBytes a n r.2.base.toNat r.2.size

/-- Bytes of a receive buffer that counts for R368: its tag is enabled, or its base is not 0. -/
def RxTag.bytes (r : RxTag) : Nat := if r.v || r.base != 0 then 4096 * (r.nslot + 1) else 0

/-- A range overlaps a mailbox region or a receive buffer (R376). -/
def Chip.meetsInbox (c : Chip) (a n : Nat) : Bool :=
  (List.range 8).any (fun r => c.shareBytes a n (vget c.mbxBase r).toNat (vget c.mbxSize r)) ||
    c.rx.any fun r => c.shareBytes a n r.2.base.toNat r.2.bytes

/-- TRSTAT.ERR is set, and nothing else changes (R368, R376). -/
def Chip.tideErr (c : Chip) : Chip := { c with tide := { c.tide with err := true } }

/-! ### Mailboxes and receive buffers (R366 to R368, R371) -/

/-- A mailbox region's pages are leased as it is declared, so that they answer although their entries change (R278, R289, R366): those that the
tables map with R and W (log entry 137). -/
def Chip.leaseMailbox (c : Chip) (r : Nat) : Chip :=
  let base := (vget c.mbxBase r).toNat
  let size := vget c.mbxSize r
  let ls := ({ c with moving := [] } : Chip).leaseSome .both base (base + size) (size / 65536 + 2)
  { (c.settleMoves ls).markLeases true ls with mbxHeld := vset c.mbxHeld r ls }

/-- A write of MBXBASE(r). -/
def Chip.writeMbxBase (c : Chip) (r : Nat) (v : DWord) : Chip :=
  let base := v.toNat / 65536 * 65536
  if c.meetsRegion base (vget c.mbxSize r) then c.tideErr else ({ c with mbxBase := vset c.mbxBase r (BitVec.ofNat 64 base) } : Chip).leaseMailbox r

/-- A write of MBXSIZE(r): a multiple of 65,536 up to 2^28. -/
def Chip.writeMbxSize (c : Chip) (r : Nat) (v : DWord) : Chip :=
  let size := min (v.toNat % 2 ^ 29 / 65536 * 65536) (2 ^ 28)
  if c.meetsRegion (vget c.mbxBase r).toNat size then c.tideErr else ({ c with mbxSize := vset c.mbxSize r size } : Chip).leaseMailbox r

/-- A write of RXBASE(t). -/
def Chip.writeRxBase (c : Chip) (t : Nat) (v : DWord) : Chip :=
  let r := Tab.getD c.rx t RxTag.reset
  let r' := { r with base := BitVec.ofNat 64 (v.toNat / 4096 * 4096) }
  if c.meetsRegion r'.base.toNat r'.bytes then c.tideErr else { c with rx := Tab.put c.rx t r' }

/-- A write of RXCTL(t): V, ones free busy slots, NSLOT while none is busy. Only NSLOT is refused under R368. -/
def Chip.writeRxctl (c : Chip) (t : Nat) (v : DWord) : Chip :=
  let r := Tab.getD c.rx t RxTag.reset
  let clr : BitVec 8 := (v >>> 8).setWidth 8
  let r' := { r with v := v.getLsbD 63, busy := r.busy &&& ~~~clr, unfired := r.unfired.filter (fun k => !clr.getLsbD k),
                      held := r.held.filter fun k => !clr.getLsbD k.1 }
  let nslot := if r.busy = 0 then v.toNat % 8 else r.nslot
  let wide := { r' with nslot, next := r'.next % (nslot + 1) }
  if nslot != r.nslot && c.meetsRegion r.base.toNat wide.bytes then { c.tideErr with rx := Tab.put c.rx t r' }
  else { c with rx := Tab.put c.rx t wide }

/-- A register write of a chip: the chip after it. -/
def State.chipWrite (s : State) (chip : Nat) (ok : Bool) (f : Chip → Chip) : Ans :=
  match s.chip? chip with
  | some _ => if ok then .next (s.updChip chip f) else notEnabled s
  | none => notEnabled s

/-- MBXBASE_WRITE (R368). -/
def execMbxbaseWrite (chip n : Nat) (value : DWord) (s : State) : Ans :=
  s.chipWrite chip (decide (n < 8)) fun c => c.writeMbxBase n value

/-- MBXSIZE_WRITE (R368). -/
def execMbxsizeWrite (chip n : Nat) (value : DWord) (s : State) : Ans :=
  s.chipWrite chip (decide (n < 8)) fun c => c.writeMbxSize n value

/-- RXBASE_WRITE (R368). -/
def execRxbaseWrite (chip n : Nat) (value : DWord) (s : State) : Ans :=
  s.chipWrite chip (decide (n < 256)) fun c => c.writeRxBase n value

/-- RXCTL_WRITE (R367, R368). -/
def execRxctlWrite (chip n : Nat) (value : DWord) (s : State) : Ans :=
  s.chipWrite chip (decide (n < 256)) fun c => c.writeRxctl n value

/-! ### Tidal declarations (R374 to R376) -/

/-- A region nothing has declared. -/
def Region.zero : Region := ⟨0, 0, 0, 0⟩

/-- The fields of TRCTL that R376 refuses: rule, type, reserved bits. -/
def ctlOk (v : DWord) : Bool :=
  let rule := bitsOf v.toNat 2 0
  let et := bitsOf v.toNat 7 4
  rule != 7 && decide (et ≤ 8) && bitsOf v.toNat 62 44 == 0 && bitsOf v.toNat 31 15 == 0 && !v.getLsbD 3 &&
    !((rule == 0 || rule == 6) && et != 0) && !((rule == 4 || rule == 5) && decide (2 ≤ et))

/-- SIZE and OFF lie in the tidal space (R376). -/
def Region.placed (r : Region) : Bool := r.size != 0 && decide (r.off + r.size ≤ 2 ^ 31)

/-- The conditions of R376 that a valid region meets among the chip's other declarations. -/
def Chip.regionOk (c : Chip) (n : Nat) (r : Region) : Bool :=
  let base := r.base.toNat
  let others := c.tide.regions.filter fun e => e.1 != n
  let still : Chip := { c with moving := [] }
  r.placed && deviceHalf base && deviceHalf (base + r.size - 1) &&
    (match still.leaseRange .both base r.size with | .ok _ => true | .error _ => false) &&
    !(others.any fun e => rangesMeet r.off r.size e.2.off e.2.size || c.shareBytes base r.size e.2.base.toNat e.2.size) &&
    !c.meetsInbox base r.size &&
    !((c.frames base r.size).any fun f => c.writeLeases.any fun l => !l.host && rangesMeet f.1 f.2 l.frame l.bytes)

/-- A staged write of region n (R375, R376): refused, or staged; the first declarations take effect at once. -/
def Chip.stage (c : Chip) (n : Nat) (r : Region) (fieldsOk mcOk : Bool) : Chip :=
  if !(fieldsOk && mcOk && (!r.valid || c.regionOk n r)) then c.tideErr
  else
    let c := { c with tide := { c.tide with staged := Tab.put c.tide.staged n r, pend := true } }
    if c.tide.c = 0 && !c.tide.closed then c.applyStaged else c

/-- The multicast set that a declaration names is valid. -/
def State.mcOk (s : State) (guest : Nat) (r : Region) : Bool :=
  !r.mc || ((Tab.find s.guests guest).map fun g => (Tab.getD g.mcset r.mset 0).getLsbD 63).getD false

/-- A staged write: which register of the region (0 TRBASE, 1 TRWIN, 2 TRCTL, 3 TRFLAG). -/
def State.writeRegion (s : State) (chip n which : Nat) (v : DWord) : State :=
  match s.chip? chip with
  | none => s
  | some c =>
    let r := Tab.getD c.tide.staged n Region.zero
    let r' : Region :=
      match which with
      | 0 => { r with base := v &&& ~~~0xFFFF }
      | 1 => { r with win := v &&& 0x0000FFFF7FFF0000 }
      | 2 => { r with ctl := v }
      | _ => { r with flag := v &&& ~~~7 }
    let fieldsOk := match which with | 1 => r'.placed | 2 => ctlOk v | _ => true
    s.updChip chip fun c => c.stage n r' fieldsOk (s.mcOk c.guest r')

/-- A staged write as an event. -/
def State.regionEvent (s : State) (chip n which : Nat) (v : DWord) : Ans :=
  match s.chip? chip with
  | some _ => if n < 64 then .next (s.writeRegion chip n which v) else notEnabled s
  | none => notEnabled s

/-- TRBASE_WRITE (R375). -/
def execTrbaseWrite (chip n : Nat) (value : DWord) (s : State) : Ans := s.regionEvent chip n 0 value

/-- TRWIN_WRITE (R375). -/
def execTrwinWrite (chip n : Nat) (value : DWord) (s : State) : Ans := s.regionEvent chip n 1 value

/-- TRCTL_WRITE (R375, R376). -/
def execTrctlWrite (chip n : Nat) (value : DWord) (s : State) : Ans := s.regionEvent chip n 2 value

/-- TRFLAG_WRITE (R375). -/
def execTrflagWrite (chip n : Nat) (value : DWord) (s : State) : Ans := s.regionEvent chip n 3 value

/-- TLOG_WRITE (R385): an increase at once, a decrease once both halves fit. -/
def execTlogWrite (chip : Nat) (value : DWord) (s : State) : Ans :=
  s.chipWrite chip true fun c =>
    let n := value.toNat % 2 ^ 24
    let t := if c.tide.tlog ≤ n then { c.tide with tlog := n, tlogDue := none } else ({ c.tide with tlogDue := some n } : Tide).shrink
    { c with tide := t }

/-- TIBQ shares of a device's chips, one left out (R4, R384). -/
def State.tibqTaken (s : State) (dev but : Nat) : Nat :=
  s.chips.foldl (fun (k : Nat) o => if o.2.dev = dev && o.1 != but then k + max o.2.tide.tibq (o.2.tide.tibqDue.getD 0) else k) 0

/-- A write of TIBQ: the shares of a device's chips are of the 16 MiB inbound buffer (R4, R384), and one that passes them is ignored; a decrease
takes effect once both halves fit (log entry 105). -/
def State.writeTibq (s : State) (chip : Nat) (v : DWord) : State :=
  match s.chip? chip with
  | none => s
  | some c =>
    let n := v.toNat % 2 ^ 13
    if 4096 < s.tibqTaken c.dev chip + n then s
    else
      s.updChip chip fun c =>
        { c with tide := if c.tide.tibq ≤ n then { c.tide with tibq := n, tibqDue := none } else ({ c.tide with tibqDue := some n } : Tide).shrink }

/-! ### Multicast sets (R370, R371) -/

/-- A device answers host writes of its registers (R436: only once firmware has completed). -/
def Device.ready (d : Device) : Bool := d.stage == 6

/-- GSEL_WRITE (R371). -/
def execGselWrite (dev : Nat) (value : DWord) (s : State) : Ans :=
  match s.dev? dev with
  | some d =>
    if !d.ready then .next s
    else .next (s.updDev dev fun d => { d with gselGuest := bitsOf value.toNat 11 0, gselChip := bitsOf value.toNat 21 12, gselErr := false })
  | none => notEnabled s

/-- No packet of a guest is in the fabric undelivered (R352). -/
def State.drained (s : State) (guest : Nat) : Bool := !(s.packets.any fun p => p.guest == guest && p.left && !p.delivered)

/-- A guest is held: a HOLD of it is complete (R352). -/
def State.isHeld (s : State) (guest : Nat) : Bool := ((Tab.find s.guests guest).map Guest.held).getD false && s.drained guest

/-- Counts of a half that follow a set's members: those that leave it, and those that join. -/
def Half.recount (h : Half) (old new : List Nat) : Half :=
  let h : Half := { h with sent := old.foldl (fun t d => Tab.put t d (Tab.getD t d 0 - 1)) h.sent }
  new.foldl Half.count h

/-- Writes to a multicast set that wait at their senders go to its members as they leave (R358), so a write of the set counts them towards the
new members: in their tide's counts, and in the close records that wait there too (R378 step 1). -/
def State.recount (s : State) (guest n : Nat) (old new : List Nat) : State :=
  s.packets.foldl (fun s p =>
    match p.body with
    | .tidal t .. =>
      if p.guest = guest && !p.left && p.mset = some n then
        let s := s.updChip (chipKey guest p.src) fun c =>
          { c with tide := match c.tide.half t with | some h => c.tide.setHalf t (h.recount old new) | none => c.tide }
        { s with packets := s.packets.map fun q =>
            match q.body with
            | .close t' k =>
              if q.guest = guest && q.src = p.src && !q.left && t' = t then
                { q with body := .close t (k + bitNat (new.contains q.dst) - bitNat (old.contains q.dst)) }
              else q
            | _ => q }
      else s
    | _ => s) s

/-- A write of a multicast set that takes effect: every member exists (R370, R371). -/
def Guest.setOk (g : Guest) (v : DWord) : Bool :=
  (!v.getLsbD 63 || (setMembers v).all fun m => decide (m ≤ 1023) && (Tab.getD g.vct m 0).getLsbD 31)

/-- MCSET_WRITE (R370, R371). -/
def execMcsetWrite (dev n : Nat) (value : DWord) (s : State) : Ans :=
  match s.dev? dev with
  | none => notEnabled s
  | some d =>
    if 63 < n then notEnabled s
    else if !d.ready then .next s
    else
      match Tab.find s.guests d.gselGuest with
      | some g =>
        if s.isHeld d.gselGuest && g.setOk value then
          let sets := if value.getLsbD 63 then Tab.put g.mcset n (value &&& 0x800000003FFFFFFF) else Tab.drop g.mcset n
          let after : Guest := { g with mcset := sets }
          let t : State := { s with guests := Tab.put s.guests d.gselGuest after }
          .next (t.recount d.gselGuest n (g.members n) (after.members n))
        else .next (s.updDev dev fun d => { d with gselErr := true })
      | none => .next (s.updDev dev fun d => { d with gselErr := true })

/-! ### Migration (R388 to R390) -/

/-- A slot of a device of the pod is free for a chip (R351, R390). -/
def State.slotFree (s : State) (chip dev slot : Nat) : Bool :=
  match s.dev? dev with
  | none => false
  | some d =>
    decide (slot < 32) && (Tab.find d.slots slot).isNone &&
      !(s.chips.any fun c => c.1 != chip && c.2.mig.en && c.2.mig.tdev == dev && c.2.mig.tslot == slot)

/-- Where the granules of a chip lie at first on a device beside what stands there (R1, R287): in far memory, and in near memory, within the
near quota, what far memory does not take; none where the device lacks room for the quota. -/
def State.settle (s : State) (but : Option Nat) (dev quota near : Nat) : Option (Tab Nat) :=
  let spill := (s.tierUse dev 3 but + quota - tierBytes 3 + 2 ^ 21 - 1) / 2 ^ 21
  let room (die : Nat) : Nat := (tierBytes die - s.tierUse dev die but) / 2 ^ 21
  let first := min spill (room 1)
  if near / 2 ^ 21 < spill || room 2 < spill - first then none
  else some ((List.range spill).map fun g => (g, if g < first then 1 else 2))

/-- Migration registers when the chip is created, or moved (R389, R393). -/
def Mig.reset : Mig :=
  { en := false, tdev := 0, tslot := 0, bmp := 0, busy := false, fail := false, rounds := 0, pages := 0, dirty := [], todo := [], staging := none, tiers := [] }

/-- A write of MIGCTL that sets EN from 0 (R390): the staging copy takes memory of the target as the chip itself would (R287, R351). -/
def State.migEnable (s : State) (chip : Nat) (v : DWord) : State :=
  match s.chip? chip with
  | none => s
  | some _ =>
    let tdev := bitsOf v.toNat 24 15
    let tslot := bitsOf v.toNat 14 10
    s.updChip chip fun c =>
      { c with mig :=
          match s.slotFree chip tdev tslot, s.settle none tdev c.quota c.nearQuota with
          | true, some tiers =>
            { c.mig with en := true, tdev, tslot, fail := false, rounds := 0, dirty := List.range (c.quota / 65536), staging := some [], tiers }
          | _, _ => { c.mig with tdev, tslot, fail := true } }

/-- MIGRATION_ENABLE (R390). -/
def execMigrationEnable (chip : Nat) (value : DWord) (s : State) : Ans :=
  match s.chip? chip with
  | some c => if value.getLsbD 63 && !c.mig.en then .next (s.migEnable chip value) else notEnabled s
  | none => notEnabled s

/-- The dirty set as words of 64 pages (R390 step 1). -/
def Chip.bitmap (c : Chip) : List Byte :=
  (List.range ((c.quota + 2 ^ 22 - 1) / 2 ^ 22)).flatMap fun w =>
    le 8 ((List.range 64).foldl (fun n i => n + (if c.mig.dirty.contains (64 * w + i) then 2 ^ i else 0)) 0)

/-- Step 1 of a round: the dirty set goes to MIGBMP and is cleared. -/
def State.roundStart (s : State) (chip : Nat) : State :=
  match s.chip? chip with
  | none => s
  | some c =>
    let s : State := { s with hostMem := Mem.write s.hostMem c.mig.bmp.toNat c.bitmap }
    s.updChip chip fun c => { c with mig := { c.mig with busy := true, todo := c.mig.dirty, dirty := [] } }

/-- MIGRATION_ROUND (R390): ignored while a round runs or tracking is off. -/
def execMigrationRound (chip : Nat) (s : State) : Ans :=
  match s.chip? chip with
  | some c => .next (if c.mig.en && !c.mig.busy then s.roundStart chip else s)
  | none => notEnabled s

/-- Step 2 of a round: each page of it is read and written to the staging copy. A revoked guest's pages read all ones (R415). -/
def Chip.roundCopy (c : Chip) : Chip :=
  let old := c.mig.staging.getD []
  let new := c.mig.todo.foldl (fun m p => Mem.paste m (65536 * p) 65536 (if c.revoked then (List.range 65536).map fun k => (k, 0xFF) else Mem.slice c.mem (65536 * p) 65536)) old
  { c with mig := { c.mig with staging := some new, busy := false, pages := c.mig.todo.length, rounds := (c.mig.rounds + 1) % 65536, todo := [] } }

/-- MIGRATION_ROUND_COMPLETE (R390). The interrupt carries no cause of R395. -/
def execMigrationRoundComplete (chip : Nat) (s : State) : Ans :=
  match s.chip? chip with
  | some c =>
    if c.mig.busy then
      let t := s.updChip chip Chip.roundCopy
      .next { t with irqs := t.irqs ++ [.host c.dev 0] }
    else notEnabled s
  | none => notEnabled s

/-- MIGRATION_DISABLE (R390): tracking ends, the staging copy and its slot are free. -/
def execMigrationDisable (chip : Nat) (s : State) : Ans :=
  s.chipWrite chip true fun c =>
    { c with mig := { c.mig with en := false, busy := false, dirty := [], todo := [], staging := none, tiers := [] } }

/-- A write of MIGCTL (R389, R390). -/
def State.writeMigctl (s : State) (chip : Nat) (v : DWord) : State :=
  match s.chip? chip with
  | none => s
  | some c =>
    let next (a : Ans) : State := match a with | .next t => t | _ => s
    if !c.mig.en then
      if v.getLsbD 63 then s.migEnable chip v
      else s.updChip chip fun c => { c with mig := { c.mig with tdev := bitsOf v.toNat 24 15, tslot := bitsOf v.toNat 14 10 } }
    else if !v.getLsbD 63 then next (execMigrationDisable chip s)
    else if v.getLsbD 1 then next (execMigrationRound chip s)
    else s

/-- The chip is descheduled with nothing left of it on a core or in a queue: MIGSTAT.DSCH (R391). -/
def State.dsch (s : State) (chip : Nat) (c : Chip) : Bool :=
  let queued := match s.dev? c.dev with
    | some d => d.cores.any (fun k => k.2.copyq.any fun q => q.chip == chip) || (d.quant0 ++ d.quant1).any fun q => q.chip == chip
    | none => false
  c.descheduled && (c.tasks.all fun t => t.2.core.isNone) && !queued

end Sys2Proof.Machine
end

