-- ==== Sys2Proof/Machine/Samphire.lean ====
section
/-! DEFINITION. The Samphire command ring and the fabric's links: HOLD, XFER, WVCT, WRLT, RELEASE, loss, retraining and repair of a link with
the remap of its plane (R351 to R355, R360, R363, R365, R390 to R393, R412). -/

namespace Sys2Proof.Machine

/-! ### The ring (R351, R360) -/

/-- A Samphire command (R351). -/
structure SamCmd where
  op : Nat
  guest : Nat
  index : Nat
  value : DWord
  /-- the reserved bytes are zero -/
  clean : Bool
deriving DecidableEq, Repr

def SamCmd.of (bs : List Byte) : SamCmd :=
  ⟨field bs 0 1, field bs 2 2, field bs 4 4, BitVec.ofNat 64 (field bs 8 8), field bs 1 1 == 0 && field bs 0x10 8 == 0⟩

/-- SAMTAIL_WRITE (R360): the doorbell. -/
def execSamtailWrite (dev : Nat) (value : DWord) (s : State) : Ans :=
  match s.dev? dev with
  | some d => .next (if d.ready then s.updDev dev fun d => { d with samtail := value.toNat % 128 } else s)
  | none => notEnabled s

/-- The command that a device's Samphire has reached. -/
def State.command (s : State) (dev : Nat) : Option SamCmd :=
  match s.dev? dev with
  | some d =>
    if d.ready && d.samhead != d.samtail then some (SamCmd.of (Mem.bytes s.hostMem (d.samring.toNat + 32 * d.samhead) 32)) else none
  | none => none

/-- A command's STATUS is written, and the head passes it, or the whole image when it stops (R351, R360). The host's interrupt carries no
cause of R395. -/
def State.status (s : State) (dev code : Nat) : State :=
  match s.dev? dev with
  | none => s
  | some d =>
    let s : State := { s with hostMem := Mem.write s.hostMem (d.samring.toNat + 32 * d.samhead + 0x18) (le 8 code) }
    let head := if code = 1 then (d.samhead + 1) % 128 else d.samtail
    let s := s.updDev dev fun d => { d with samhead := head }
    if head = d.samtail then { s with irqs := s.irqs ++ [.host dev 0] } else s

def State.updGuest (s : State) (guest : Nat) (f : Guest → Guest) : State := { s with guests := Tab.upd s.guests guest f }

/-- A command that names no index and no value. -/
def SamCmd.bare (c : SamCmd) : Bool := c.clean && c.index == 0 && c.value == 0

/-- HOLD (R351, R352): departures stop, and the STATUS follows once the fabric holds nothing of the guest and no remap runs (R363). A
command whose OP names none gets STATUS 4 here. -/
def execHold (dev : Nat) (s : State) : Ans :=
  match s.command dev with
  | none => notEnabled s
  | some c =>
    if 2 ≤ c.op && c.op ≤ 5 then notEnabled s
    else
      match Tab.find s.guests c.guest with
      | none => .next (s.status dev 4)
      | some g =>
        if c.op ≠ 1 || !c.bare then .next (s.status dev 4)
        else
          let s' := s.updGuest c.guest fun g => { g with held := true }
          if s.drained c.guest && !g.remap then .next (s'.status dev 1)
          else if g.held then notEnabled s
          else .next s'

/-- RELEASE (R351, R352, R363). -/
def execRelease (dev : Nat) (s : State) : Ans :=
  match s.command dev with
  | none => notEnabled s
  | some c =>
    if c.op ≠ 5 then notEnabled s
    else
      match Tab.find s.guests c.guest with
      | none => .next (s.status dev 4)
      | some g =>
        if !c.bare then .next (s.status dev 4)
        else if !g.held then .next (s.status dev 2)
        else if g.remap then notEnabled s
        else .next ((s.updGuest c.guest fun g => { g with held := false }).status dev 1)

/-- An entry of a guest's table; a zero entry is not listed. -/
def putEntry (t : Tab DWord) (n : Nat) (v : DWord) : Tab DWord := if v = 0 then Tab.drop t n else Tab.put t n v

/-- A write of a table entry of a held guest (R351, R354). `names` says whether INDEX names an entry, `may` whether the write is accepted. -/
def State.tableWrite (s : State) (dev op : Nat) (mask : DWord) (names may : SamCmd → Bool) (f : State → SamCmd → State) : Ans :=
  match s.command dev with
  | none => notEnabled s
  | some c =>
    if c.op ≠ op then notEnabled s
    else if (Tab.find s.guests c.guest).isNone || !c.clean || 1024 ≤ c.index || c.value &&& ~~~mask != 0 || !names c then .next (s.status dev 4)
    else if !s.isHeld c.guest then .next (s.status dev 2)
    else if !may c then .next (s.status dev 4)
    else .next ((f s c).status dev 1)

/-- The tide counters of a guest's pod: those of its chips whose entry has V = 1. -/
def State.podCounters (s : State) (guest : Nat) : List DWord := (s.peers guest).filterMap fun n => (s.podChip guest n).map fun c => c.tide.c

/-- A WVCT that brings a chip into the pod is accepted: every chip of the pod has the same C, and no tide is closed (R379). -/
def State.mayJoin (s : State) (guest n : Nat) : Bool :=
  let cs := s.podCounters guest
  let closed (k : Nat) : Bool := ((s.chip? (chipKey guest k)).map fun c => c.tide.closed).getD false
  cs.all (fun x => some x == cs.head?) && !((n :: s.peers guest).any closed)

/-- WVCT (R354, R379): a chip that joins the pod starts at the pod's C. -/
def execWvct (dev : Nat) (s : State) : Ans :=
  let joins (c : SamCmd) : Bool := c.value.getLsbD 31 && !s.inPod c.guest c.index
  s.tableWrite dev 3 0x83E003FF
    (fun c => (s.chip? (chipKey c.guest c.index)).isSome || (s.vctEntry c.guest c.index != 0 && !c.value.getLsbD 31))
    (fun c => !joins c || s.mayJoin c.guest c.index)
    fun s c =>
      let t := s.updGuest c.guest fun g => { g with vct := putEntry g.vct c.index c.value }
      match joins c, (s.podCounters c.guest).head? with
      | true, some n => t.updChip (chipKey c.guest c.index) fun k => { k with tide := { k.tide with c := n } }
      | _, _ => t

/-- WRLT (R354). -/
def execWrlt (dev : Nat) (s : State) : Ans :=
  s.tableWrite dev 4 0x83FFFFFF (fun _ => true) (fun _ => true) fun s c =>
    s.updGuest c.guest fun g => { g with rlt := putEntry g.rlt c.index c.value }

/-! ### XFER (R355, R390 to R393) -/

/-- Entries of per-context event queues of one device's cores move to another's cores of the same number. -/
def State.moveEvents (s : State) (chip from_ dest : Nat) : State :=
  match s.dev? from_ with
  | none => s
  | some d =>
    d.cores.foldl (fun s k =>
      let q := Tab.getD k.2.evq chip []
      let w := Tab.getD k.2.evWait chip []
      let s := s.updCore ⟨from_, k.1⟩ fun c =>
        { c with evq := Tab.drop c.evq chip, evWait := Tab.drop c.evWait chip,
                 ctrl := if (c.ctrl.map CtrlRun.chip) = some chip then none else c.ctrl }
      if q.isEmpty && w.isEmpty then s
      else s.updCore ⟨dest, k.1⟩ fun c => { c with evq := Tab.put c.evq chip q, evWait := Tab.put c.evWait chip w }) s

/-- An empty slot of the key store (R414). -/
def KeySlot.empty : KeySlot := ⟨0, 0, false, 0, 0, 0, false, []⟩

/-- The lowest empty key slot. -/
def Device.freeKey (d : Device) : Option Nat := (List.range 512).find? fun k => (Tab.getD d.keys k KeySlot.empty).state == 0

/-- A key put into the lowest empty slot; none is put where there is none. -/
def Device.addKey (d : Device) (k : KeySlot) : Device :=
  match d.freeKey with
  | some n => { d with keys := Tab.put d.keys n k }
  | none => d

/-- Keys that move with a chip within its interface: SEAL and IDE slots of it. The guest's XTS key is there already, or comes too (R412, R413). -/
def movesKey (guest num : Nat) (k : KeySlot) : Bool := k.guest == guest && (k.kind == 3 || k.kind == 4) && k.chipA == num && k.state != 0

/-- A protected chip's interface, counter, tag area and keys on the target (R355, R412). -/
def State.moveProtection (s : State) (c : Chip) (dev slot : Nat) : State :=
  match s.dev? c.dev, s.dev? dev with
  | some a, some b =>
    let tdi := Tab.getD a.tdi c.slot Tdi.reset
    let mine := (a.keys.filter fun k => movesKey c.guest c.num k.2).map Prod.snd
    let xts := if b.keys.any fun k => k.2.guest == c.guest && k.2.kind == 1 && k.2.state == 2 then []
      else (a.keys.filter fun k => k.2.guest == c.guest && k.2.kind == 1 && k.2.state == 2).map Prod.snd
    let s := s.updDev c.dev fun d =>
      { d with tdi := Tab.drop d.tdi c.slot, sealCnt := Tab.drop d.sealCnt c.slot, stagBase := Tab.drop d.stagBase c.slot,
               keys := d.keys.filter fun k => !movesKey c.guest c.num k.2 }
    s.updDev dev fun d =>
      (mine ++ xts).foldl Device.addKey
        { d with tdi := Tab.put d.tdi slot tdi, sealCnt := Tab.put d.sealCnt slot (Tab.getD a.sealCnt c.slot 0),
                 stagBase := Tab.put d.stagBase slot (Tab.getD a.stagBase c.slot 0) }
  | _, _ => s

/-- A LINK slot of a guest that is bound to a link of a chip (R414, R416). -/
def ofLink (guest num : Nat) (k : KeySlot) : Bool := k.kind == 2 && k.guest == guest && (k.chipA == num || k.chipB == num) && decide (2 ≤ k.state)

/-- The slot of a device that holds a key under the same binding, or the lowest empty one. -/
def Device.linkPlace (d : Device) (k : KeySlot) : Option Nat :=
  match d.keys.find? fun e => e.2.state == k.state && e.2.kind == 2 && e.2.guest == k.guest && e.2.chipA == k.chipA && e.2.chipB == k.chipB && e.2.bits == k.bits with
  | some e => some e.1
  | none => d.freeKey

/-- A LINK key comes to a device with its counters, none of which goes back (R416). -/
def Device.addLink (d : Device) (k : KeySlot) (ctr seen : Nat) (warned : Bool) : Device :=
  match d.linkPlace k with
  | none => d
  | some n =>
    { d with keys := Tab.put d.keys n k, linkCtr := Tab.put d.linkCtr n (max ctr (Tab.getD d.linkCtr n 0)),
             linkSeen := Tab.put d.linkSeen n (max seen (Tab.getD d.linkSeen n 0)),
             warned := if warned && !d.warned.contains n then n :: d.warned else d.warned }

/-- A LINK slot leaves a device with its counters. -/
def Device.dropLink (d : Device) (n : Nat) : Device :=
  { d with keys := Tab.drop d.keys n, linkCtr := Tab.drop d.linkCtr n, linkSeen := Tab.drop d.linkSeen n, warned := d.warned.filter fun k => k != n }

/-- The LINK keys of a chip of a protected guest on the device it moves to: its ends of its links go with it, and a slot stays behind where the
link's other end stands on the device it leaves (log entry 75). -/
def State.moveLinks (s : State) (c : Chip) (dev : Nat) : State :=
  match s.dev? c.dev, (Tab.find s.guests c.guest).map Guest.prot with
  | some a, some true =>
    (a.keys.filter fun e => ofLink c.guest c.num e.2).foldl (fun s e =>
      let other := if e.2.chipA = c.num then e.2.chipB else e.2.chipA
      let s := s.updDev dev fun d => d.addLink e.2 (Tab.getD a.linkCtr e.1 0) (Tab.getD a.linkSeen e.1 0) (a.warned.contains e.1)
      if other ≠ c.num ∧ s.devOf c.guest other = c.dev then s else s.updDev c.dev fun d => d.dropLink e.1) s
  | _, _ => s

/-- The chip as it stands on its target: descheduled, migration registers 0, the rest as it stood (R393). -/
def Chip.moved (c : Chip) (dev slot : Nat) (tiers : Tab Nat) : Chip :=
  { c with dev, slot, tiers, cores := 0, sliced := false, mig := Mig.reset, waitRun := [], turnHeld := false,
           launches := c.launches.map fun l => (l.1, { l.2 with core := ⟨dev, l.2.core.core⟩ }) }

/-- The move itself (R355): the source slot is free, the target slot holds the chip. -/
def State.moveChip (s : State) (key : Nat) (c : Chip) (dev slot : Nat) (tiers : Tab Nat) : State :=
  let s := if dev = c.dev then s else (s.moveEvents key c.dev dev).moveLinks c dev
  let s := if c.prot then s.moveProtection c dev slot else s
  let s := s.updDev c.dev fun d => { d with slots := Tab.drop d.slots c.slot }
  let s := s.updDev dev fun d => { d with slots := Tab.put d.slots slot key }
  s.updChip key fun c => c.moved dev slot tiers

/-- Where a chip's granules lie after a move: as they stand on its own device, or in its staging copy; none where the target lacks room for the
quota, or for the chip's share of the 16 MiB inbound buffer (R4, R351, R355). -/
def State.tiersAt (s : State) (key : Nat) (c : Chip) (dest : Nat) : Option (Tab Nat) :=
  if dest = c.dev then some c.tiers
  else if 4096 < s.tibqTaken dest key + max c.tide.tibq (c.tide.tibqDue.getD 0) then none
  else if c.mig.en && c.mig.tdev == dest then some c.mig.tiers
  else s.settle (some key) dest c.quota c.nearQuota

/-- XFER (R351, R355, R391, R392): with a staging copy at the target a final round comes first. -/
def execXfer (dev : Nat) (s : State) : Ans :=
  match s.command dev with
  | none => notEnabled s
  | some x =>
    if x.op ≠ 2 then notEnabled s
    else
      let dest := bitsOf x.value.toNat 9 0
      let slot := bitsOf x.value.toNat 14 10
      let key := chipKey x.guest x.index
      match Tab.find s.guests x.guest, s.chip? key with
      | some _, some c =>
        if !x.clean || 1024 ≤ x.index || bitsOf x.value.toNat 63 15 != 0 || (s.dev? dest).isNone then .next (s.status dev 4)
        else if !s.isHeld x.guest then .next (s.status dev 2)
        else if !s.dsch key c then .next (s.status dev 3)
        else if !s.slotFree key dest slot then .next (s.status dev 5)
        else
          match s.tiersAt key c dest with
          | none => .next (s.status dev 5)
          | some tiers =>
            let staged := c.mig.en && c.mig.tdev == dest && c.mig.tslot == slot && decide (1 ≤ c.mig.rounds)
            if staged && c.mig.busy then notEnabled s
            else
              let s := if staged then s.roundStart key else s
              .next ((s.moveChip key c dest slot tiers).status dev 1)
      | _, _ => .next (s.status dev 4)

/-! ### Links (R363, R365) -/

def State.updLink (s : State) (dev plane : Nat) (f : Link → Link) : State :=
  s.updDev dev fun d => { d with links := Tab.put d.links plane (f (d.link plane)) }

/-- Every guest of the pod is held for a remap, or let go (R363). -/
def State.remapping (s : State) (on : Bool) : State := { s with guests := s.guests.map fun g => (g.1, { g.2 with remap := on }) }

/-- A packet crosses a device's link on a plane. -/
def State.crosses (s : State) (dev plane : Nat) (p : Packet) : Bool :=
  p.plane == plane && (p.toDev == dev || s.devOf p.guest p.src == dev)

/-- Bit p of PLANES in every route label that names the device (R363 step 3). -/
def State.setPlanes (s : State) (dev plane : Nat) (on : Bool) : State :=
  let bit : DWord := 1#64 <<< (10 + plane)
  { s with guests := s.guests.map fun g => (g.1, { g.2 with rlt := g.2.rlt.map fun e =>
      (e.1, if e.2.toNat % 1024 = dev then (if on then e.2 ||| bit else e.2 &&& ~~~bit) else e.2) }) }

def State.setLive (s : State) (dev plane : Nat) (on : Bool) : State :=
  s.updDev dev fun d => { d with live := if on then d.live ||| (1#16 <<< plane) else d.live &&& ~~~(1#16 <<< plane) }

/-- Packets of a failed link that their target has not received stand at their senders again, before those that have not left
(R363 step 4). -/
def State.resend (s : State) (dev plane : Nat) : State :=
  let lost (p : Packet) : Bool := p.left && !p.delivered && s.crosses dev plane p
  ({ s with packets := s.packets.filter fun p => !lost p } : State).backAtSender (s.packets.filter lost)

/-- Nothing is in the fabric undelivered but what a failed link has cut off. -/
def State.quiet (s : State) : Bool := !(s.packets.any fun p => p.left && !p.delivered && !s.cut p)

/-- The remap after a failure is due: the link has failed and LIVE still names it. -/
def Device.remapDue (d : Device) (plane : Nat) : Bool := (d.link plane).state == .failed && d.live.getLsbD plane

/-- The remap after a repair is due: the link works, degraded or not, and LIVE does not name it. -/
def Device.restoreDue (d : Device) (plane : Nat) : Bool := (d.link plane).state != .failed && !d.live.getLsbD plane

/-- Guests are let go when no other remap is due (R363 step 5). -/
def State.endRemap (s : State) : State :=
  s.remapping (s.devs.any fun d => (List.range 16).any fun p => d.2.remapDue p || d.2.restoreDue p)

/-- Steps 2 to 5 of R363, once the fabric has drained. -/
def State.remap (s : State) (dev plane : Nat) : State :=
  (((s.setLive dev plane false).setPlanes dev plane false).resend dev plane).endRemap

/-- A link fails: every guest is held (R363 step 1). Where a remap after a repair was due for it, nothing uses the link, and that remap is void. -/
def State.failLink (s : State) (dev plane : Nat) : State := (s.updLink dev plane fun l => { l with state := .failed }).endRemap

/-- LINK_LANE_LOSS (R363, R365): lanes are those that still work. Fewer than 2 fail the link; the remap is completed by this event again,
when the fabric has drained. -/
def execLinkLaneLoss (dev plane lanes : Nat) (s : State) : Ans :=
  match s.dev? dev with
  | none => notEnabled s
  | some d =>
    let l := d.link plane
    if 15 < plane then notEnabled s
    else if d.remapDue plane then
      if s.quiet then .next (s.remap dev plane) else notEnabled s
    else if l.state = .failed || l.lanes ≤ lanes then notEnabled s
    else if lanes < 2 then .next ((s.updLink dev plane fun l => { l with lanes }).failLink dev plane)
    else .next (s.updLink dev plane fun l => { l with lanes, state := .degraded })

/-- LINK_BUFFER_RETIRE (R365): flits of buffer are retired; below 384 the link fails. -/
def execLinkBufferRetire (dev plane flits : Nat) (s : State) : Ans :=
  match s.dev? dev with
  | none => notEnabled s
  | some d =>
    let l := d.link plane
    if 15 < plane || l.state = .failed || flits = 0 || l.flits < flits then notEnabled s
    else
      let s := s.updLink dev plane fun l => { l with flits := l.flits - flits }
      .next (if l.flits - flits < 384 then s.failLink dev plane else s)

/-- LINK_RETRAIN_COMPLETE (R365). -/
def execLinkRetrainComplete (dev plane : Nat) (s : State) : Ans :=
  match s.dev? dev with
  | none => notEnabled s
  | some d =>
    if 15 < plane || (d.link plane).state ≠ .degraded then notEnabled s
    else .next (s.updLink dev plane fun l => { l with lanes := 8, state := .up })

/-- LINK_REPAIR (R363, R365): a failed link is up again, and a remap in reverse adds its plane, completed by this event again when the
fabric has drained. -/
def execLinkRepair (dev plane : Nat) (s : State) : Ans :=
  match s.dev? dev with
  | none => notEnabled s
  | some d =>
    if 15 < plane then notEnabled s
    else if d.restoreDue plane then
      if s.quiet then .next (((s.setLive dev plane true).setPlanes dev plane true).endRemap) else notEnabled s
    else if (d.link plane).state ≠ .failed || d.live.getLsbD plane then notEnabled s
    else .next ((s.updLink dev plane fun _ => Link.whole).remapping true)

end Sys2Proof.Machine
end

