-- ==== Sys2Proof/Machine/Protect.lean ====
section
/-! DEFINITION. DRAM as the memory controller keeps it, Ilcia's key store, the TDISP interfaces, SPDM and IDE keys, and debug unlock (R410 to
R420). -/

namespace Sys2Proof.Machine

/-! ### DRAM under the guest's key (R410) -/

/-- The XTS key under which the memory controller writes a guest's lines: that of its active slot on the device. -/
def Device.xtsKey (d : Device) (guest : Nat) : List DWord :=
  ((d.keys.find? fun e => e.2.kind == 1 && e.2.state == 2 && e.2.guest == guest).map fun e => e.2.bits).getD []

/-- The tweak of the line that holds a guest-physical address. -/
def lineTweak (guest gpa : Nat) : Nat := (guest * 2 ^ 64 + gpa / 64) % 2 ^ 128

/-- An entry of a tide's half as numbers: its element, its width and its writes (R384). -/
def TElem.numbers (e : Nat × TElem) : List Nat := e.1 :: e.2.width :: e.2.writes.flatMap fun w => [w.src, w.rule, w.et, w.value.toNat]

/-- The tide log of a chip as bytes: the entries beyond the TIBQ share, 32 bytes each (R384; log entry 6). -/
def Tide.logBytes (t : Tide) : List Byte :=
  ((t.now.elems ++ t.next.elems).drop (128 * t.tibq)).flatMap fun e =>
    let bs := (Config.tideEntry (TElem.numbers e)).take 32
    bs ++ zeros (32 - bs.length)

/-- A byte of what a chip has written to DRAM: of its tide log or its inbound log, which lie outside the quota (R371, R374), or of its memory. -/
def Chip.dramByte (c : Chip) (key a : Nat) : Byte :=
  let logs := [(c.quota + Config.tideLogAt key, c.tide.logBytes), (c.quota + Config.inboundLogAt key, c.logBytes)]
  match logs.find? fun l => decide (l.1 ≤ a) && decide (a < l.1 + l.2.length) with
  | some l => l.2.getD (a - l.1) 0
  | none => Mem.get c.mem a

/-- The 64 bytes of a line in clear. -/
def Chip.clearLine (c : Chip) (key gpa : Nat) : List Byte := (List.range 64).map fun k => c.dramByte key (gpa / 64 * 64 + k)

/-- The key of a chip's lines. -/
def State.lineKey (s : State) (c : Chip) : List DWord := ((s.dev? c.dev).map fun d => d.xtsKey c.guest).getD []

/-- THE 64 BYTES OF A LINE AS DRAM HOLDS THEM: XTS-AES-256 of the line's bytes, with the line as data unit. The memory of a chip holds what an
agent of the guest reads and writes; no key is used twice for a line, since the tweak names the guest and the guest-physical line. -/
def State.dramLine (s : State) (key : Nat) (c : Chip) (gpa : Nat) : List Byte :=
  Config.xts (s.lineKey c) (lineTweak c.guest gpa) (c.clearLine key gpa)

/-- What the controller reads where DRAM holds some 64 bytes for a line: the line's own bytes where they are those that it wrote, and
unpredictable bytes where they have been tampered with, without a fault (R410). -/
def State.openLine (s : State) (key : Nat) (c : Chip) (gpa : Nat) (held : List Byte) : List Byte :=
  if held = s.dramLine key c gpa then c.clearLine key gpa else Config.xtsOpen (s.lineKey c) (lineTweak c.guest gpa) held

/-- A past access as numbers. -/
def PastAccess.numbers (p : PastAccess) : List Nat := [p.agent, p.gang, p.clk, bitNat p.atomic, bitNat p.write, p.handle, p.task, p.gangNo]

/-- Race metadata of a line as DRAM holds it beside the line (R299, R410): what the record knows of its bytes, under the AES encryption of the
tweak. -/
def State.dramMeta (s : State) (c : Chip) (gpa : Nat) : BitVec 128 :=
  Config.raceMeta ((List.range 64).flatMap fun k => (Tab.getD c.hb.past (gpa / 64 * 64 + k) []).flatMap PastAccess.numbers) ^^^
    Config.tweakBlock (s.lineKey c) (lineTweak c.guest gpa)

/-! ### Revocation (R415) -/

/-- A guest's key is revoked (R415): every interface of the guest moves to ERROR, every chip of it is stopped without sealing and its cores are
scrubbed, and its memory reads all ones. -/
def State.revokeGuest (s : State) (guest : Nat) : State :=
  (s.chips.filter fun c => c.2.guest == guest).foldl (fun s c =>
    let s := s.updDev c.2.dev fun d => { d with tdi := Tab.put d.tdi c.2.slot { d.iface c.2.slot with state := .error, reason := 3 } }
    (s.stopChip c.1).updChip c.1 fun k => { k with revoked := true }) s

/-! ### The key store (R414 to R417) -/

/-- Fields of KSCMD (R417). -/
structure KsCmd where
  op : Nat
  kind : Nat
  guest : Nat
  chipA : Nat
  chipB : Nat
  slot : Nat
deriving DecidableEq, Repr

/-- KSCMD's fields; its reserved bits are ignored (R11). -/
def KsCmd.of (v : DWord) : KsCmd :=
  let n := v.toNat
  ⟨bitsOf n 63 60, bitsOf n 59 56, bitsOf n 51 40, bitsOf n 39 30, bitsOf n 29 20, bitsOf n 8 0⟩

/-- The fields of a command make sense (R414 check 1): an operation of the table, a KIND where a key is made or bound, and chips where the
kind has them. -/
def KsCmd.ok (c : KsCmd) : Bool :=
  let makes := c.op == 1 || c.op == 2 || c.op == 3
  decide (1 ≤ c.op) && decide (c.op ≤ 5) &&
    (!makes || (decide (1 ≤ c.kind) && decide (c.kind ≤ 4) && (c.kind != 1 || c.chipA == 0) && (c.kind == 2 || c.chipB == 0)))

def Device.key (d : Device) (slot : Nat) : KeySlot := Tab.getD d.keys slot KeySlot.empty

/-- The result code of a command that fails a check; none when it may run (R414). Slots of a protected guest are Ilcia's alone to activate,
at its creation (log entry 106). -/
def Device.ksCheck (d : Device) (protGuest : Nat → Bool) (c : KsCmd) : Option Nat :=
  let k := d.key c.slot
  if !c.ok || (c.op == 3 && k.state == 1 && k.kind != c.kind) then some 4
  else if (k.prot && !(c.op == 4 || (c.op == 5 && k.state == 4))) || (c.op == 3 && protGuest c.guest) then some 3
  else
    let listed :=
      match c.op with
      | 1 => k.state == 0
      | 2 => k.state == 0
      | 3 => k.state == 1
      | 4 => k.state == 1 || k.state == 2 || k.state == 3
      | _ => k.state == 1 || (k.state == 3 && !k.drain) || k.state == 4
    if listed then none else some 2

/-- Doublewords of a key of a kind (R417). -/
def keyWords (kind : Nat) : Nat := if kind = 1 then 8 else 4

/-- Key bits from Ilcia's generator (R414). -/
def State.generate (s : State) (n : Nat) : List DWord × State :=
  ((List.range n).map fun k => Config.secret (s.fresh + k), { s with fresh := s.fresh + n })

/-- A slot is filled: provisioned (R414). -/
def Device.fillKey (d : Device) (slot kind : Nat) (prot : Bool) (bits : List DWord) : Device :=
  { d with keys := Tab.put d.keys slot ⟨1, kind, false, 0, 0, 0, prot, bits⟩ }

/-- The same binding (R414). -/
def KeySlot.sameBinding (k : KeySlot) (kind guest chipA chipB : Nat) : Bool :=
  k.kind == kind && k.guest == guest && k.chipA == chipA && k.chipB == chipB

/-- ACTIVATE (R414, R416): the slot is bound, its predecessor retires, and a link's counter starts at 0. PROT marks a slot that belongs to a
protected guest (R417). -/
def Device.bindKey (d : Device) (slot guest chipA chipB : Nat) (prot : Bool) : Device :=
  let kind := (d.key slot).kind
  let keys := d.keys.map fun e =>
    if e.1 != slot && e.2.state == 2 && e.2.sameBinding kind guest chipA chipB then (e.1, { e.2 with state := 3, drain := kind == 1 || kind == 2 }) else e
  let keys := Tab.upd keys slot fun k => { k with state := 2, guest, chipA, chipB, prot := k.prot || prot }
  { d with keys, linkCtr := Tab.drop d.linkCtr slot, linkSeen := Tab.drop d.linkSeen slot, warned := d.warned.filter fun k => k != slot }

/-- A guest is protected. -/
def State.protGuest (s : State) (guest : Nat) : Bool := ((Tab.find s.guests guest).map Guest.prot).getD false

/-- A key-store command after its checks. -/
def State.ksRun (s : State) (dev : Nat) (c : KsCmd) : State :=
  match s.dev? dev with
  | none => s
  | some d =>
    let k := d.key c.slot
    match c.op with
    | 1 =>
      let r := s.generate (keyWords c.kind)
      r.2.updDev dev fun d => d.fillKey c.slot c.kind false r.1
    | 2 => s.updDev dev fun d => d.fillKey c.slot c.kind false (d.keyData.toList.take (keyWords c.kind))
    | 3 => s.updDev dev fun d => d.bindKey c.slot c.guest c.chipA c.chipB (s.protGuest c.guest)
    | 4 =>
      let s := s.updDev dev fun d => { d with keys := Tab.upd d.keys c.slot fun k => { k with state := 4, drain := false } }
      if k.state = 2 && (k.kind = 1 || k.kind = 3) then s.revokeGuest k.guest else s
    | _ => s.updDev dev fun d => { d with keys := Tab.drop d.keys c.slot }

/-- A write of KSCMD (R414, R417). -/
def State.writeKscmd (s : State) (dev : Nat) (v : DWord) : State :=
  match s.dev? dev with
  | none => s
  | some d =>
    let c := KsCmd.of v
    match d.ksCheck s.protGuest c with
    | some r => s.updDev dev fun d => { d with ksResult := r }
    | none => (s.ksRun dev c).updDev dev fun d => { d with ksResult := 1 }

/-- A write of KSCMD with one OP. -/
def State.keyEvent (s : State) (dev : Nat) (v : DWord) (ok : Nat → Bool) : Ans :=
  match s.dev? dev with
  | some d => if !ok (KsCmd.of v).op then notEnabled s else .next (if d.ready then s.writeKscmd dev v else s)
  | none => notEnabled s

/-- GEN (R414). A command whose OP names no operation is a bad field, and is taken here. -/
def execGen (dev : Nat) (cmd : DWord) (s : State) : Ans := s.keyEvent dev cmd fun op => op == 0 || op == 1 || decide (5 < op)

/-- LOAD (R414). -/
def execLoad (dev : Nat) (cmd : DWord) (s : State) : Ans := s.keyEvent dev cmd fun op => op == 2

/-- ACTIVATE (R414). -/
def execActivate (dev : Nat) (cmd : DWord) (s : State) : Ans := s.keyEvent dev cmd fun op => op == 3

/-- REVOKE (R414, R415). -/
def execRevoke (dev : Nat) (cmd : DWord) (s : State) : Ans := s.keyEvent dev cmd fun op => op == 4

/-- ERASE (R414). -/
def execErase (dev : Nat) (cmd : DWord) (s : State) : Ans := s.keyEvent dev cmd fun op => op == 5

/-- A retiring slot of a kind no longer drains. -/
def State.endDrain (s : State) (dev slot kind : Nat) (ok : KeySlot → Bool) : Ans :=
  match s.dev? dev with
  | some d =>
    let k := d.key slot
    if k.state = 3 && k.kind = kind && k.drain && ok k then
      .next (s.updDev dev fun d => { d with keys := Tab.put d.keys slot { k with drain := false } })
    else notEnabled s
  | none => notEnabled s

/-- KEY_REENCRYPT_COMPLETE (R414). -/
def execKeyReencryptComplete (dev slot : Nat) (s : State) : Ans := s.endDrain dev slot 1 fun _ => true

/-- LINK_QUEUES_DRAINED (R414): no packet that the slot's key has sealed is under way. -/
def execLinkQueuesDrained (dev slot : Nat) (s : State) : Ans :=
  s.endDrain dev slot 2 fun k =>
    !(s.packets.any fun p => p.guest == k.guest && p.src == k.chipA && p.dst == k.chipB && p.left && !p.delivered && p.cipher.any fun q => q.bits == k.bits)

/-- LINK_COUNTER_WARN (R416): once for each key. The table of R395 names no cause for it (log entry 39). -/
def execLinkCounterWarn (dev slot : Nat) (s : State) : Ans :=
  match s.dev? dev with
  | some d =>
    let k := d.key slot
    if k.state = 2 && k.kind = 2 && decide (2 ^ 47 ≤ Tab.getD d.linkCtr slot 0) && !d.warned.contains slot then
      .next ((s.updDev dev fun d => { d with warned := slot :: d.warned }).notice (chipKey k.guest k.chipA) 2)
    else notEnabled s
  | none => notEnabled s

/-- LINK_COUNTER_EXHAUSTED (R416): from here on the link's packets wait at their sender, which their departure sees in the counter. -/
def execLinkCounterExhausted (dev slot : Nat) (s : State) : Ans :=
  match s.dev? dev with
  | some d =>
    if (d.key slot).state = 2 && (d.key slot).kind = 2 && decide (2 ^ 48 ≤ Tab.getD d.linkCtr slot 0) then .next s
    else notEnabled s
  | none => notEnabled s

/-! ### TDISP (R418) -/

/-- The answer to a request. -/
def State.answer (s : State) (dev request : Nat) (ok : Bool) (payload : List DWord) : State :=
  s.updDev dev fun d => { d with spdm := { d.spdm with answers := d.spdm.answers ++ [⟨request, ok, payload⟩] } }

/-- The code of an interface state in TDISTATE: `creating` reads as CONFIG_UNLOCKED. -/
def TdiState.code : TdiState → Nat
  | .unlocked => 0 | .creating => 0 | .locked => 1 | .run => 2 | .error => 3

/-- A request to an interface of a device that has completed bring-up. -/
def State.tdisp (s : State) (dev slot request : Nat) (f : Device → Tdi → Option State) (payload : Tdi → List DWord) : Ans :=
  match s.dev? dev with
  | none => notEnabled s
  | some d =>
    if 31 < slot || !d.ready then notEnabled s
    else
      let t := d.iface slot
      match f d t with
      | some u => .next (u.answer dev request true (payload t))
      | none => .next (s.answer dev request false [])

/-- LOCK_INTERFACE (R418): accepted for an unlocked interface with a chip that has no cores. -/
def execLockInterface (dev slot : Nat) (s : State) : Ans :=
  s.tdisp dev slot 0x83 (fun d t =>
    match (Tab.find d.slots slot).bind s.chip? with
    | some c => if t.state = .unlocked && c.descheduled && (c.tasks.all fun u => u.2.core.isNone) then some (s.setTdi dev slot { t with state := .creating, reason := 0 }) else none
    | none => none) fun _ => []

/-- A key is made and bound for a protected guest (R414, R418), in the lowest empty slot. -/
def State.protKey (s : State) (dev guest kind chipA : Nat) : State :=
  match (s.dev? dev).bind Device.freeKey with
  | none => s
  | some slot =>
    let r := s.generate (keyWords kind)
    r.2.updDev dev fun d => (d.fillKey slot kind true r.1).bindKey slot guest chipA 0 true

/-- The key of the ordered virtual link between two chips of a protected guest, at the sender's device and at the receiver's (R414, R416; log
entry 106): made where the link has no active slot whose counter still counts, and both ends have room. -/
def State.linkKey (s : State) (guest a b : Nat) : State :=
  let da := s.devOf guest a
  let db := s.devOf guest b
  let counts : Bool := ((s.dev? da).bind fun d => (d.linkSlot guest a b 2).map fun k => decide (Tab.getD d.linkCtr k 0 < 2 ^ 48)).getD false
  let slot (n : Nat) : Option Nat := (s.dev? n).bind Device.freeKey
  match counts, slot da, slot db with
  | false, some ka, some kb =>
    let r := s.generate 4
    let put (s : State) (n k : Nat) : State := s.updDev n fun d => (d.fillKey k 2 true r.1).bindKey k guest a b true
    if da = db then put r.2 da ka else put (put r.2 da ka) db kb
  | _, _, _ => s

/-- The keys of the links between a chip and the other protected chips of its guest, each way. -/
def State.linkKeys (s : State) (guest num : Nat) : State :=
  (s.chips.filter fun c => c.2.guest == guest && c.2.num != num && c.2.prot).foldl (fun s c =>
    (s.linkKey guest num c.2.num).linkKey guest c.2.num num) s

/-- Every slot that is bound to a guest belongs to a protected one from now on (R414, R417). -/
def Device.protKeys (d : Device) (guest : Nat) : Device :=
  { d with keys := d.keys.map fun e => if e.2.guest == guest && decide (2 ≤ e.2.state) then (e.1, { e.2 with prot := true }) else e }

def State.protKeys (s : State) (guest : Nat) : State := { s with devs := s.devs.map fun d => (d.1, d.2.protKeys guest) }

/-- Empty key slots. -/
def Device.freeKeys (d : Device) : Nat := ((List.range 512).filter fun k => (d.key k).state == 0).length

/-- PROTECTED_CREATION_COMMIT (R418): the quota is zero, the keys are active, and the chip is protected. -/
def execProtectedCreationCommit (dev slot : Nat) (s : State) : Ans :=
  match s.dev? dev with
  | none => notEnabled s
  | some d =>
    match (Tab.find d.slots slot).bind fun k => (s.chip? k).map fun c => (k, c) with
    | none => notEnabled s
    | some (key, c) =>
      if (d.iface slot).state ≠ .creating || d.freeKeys < 3 then notEnabled s
      else
        let s := s.updChip key fun c => { c.touchRange 0 c.quota with mem := [], prot := true }
        let s := s.updGuest c.guest fun g => { g with prot := true }
        let s := (((s.protKeys c.guest).protKey dev c.guest 1 0).protKey dev c.guest 3 c.num).protKey dev c.guest 4 c.num
        let s := s.linkKeys c.guest c.num
        let f := s.free
        let s := f.2.updDev dev fun d => { d with sealCnt := Tab.put d.sealCnt slot 0, stagBase := Tab.put d.stagBase slot f.1 }
        .next (s.setTdi dev slot { (d.iface slot) with state := .locked })

/-- START_INTERFACE (R418). -/
def execStartInterface (dev slot : Nat) (s : State) : Ans :=
  s.tdisp dev slot 0x86 (fun _ t => if t.state = .locked then some (s.setTdi dev slot { t with state := .run }) else none) fun _ => []

/-- TDISP_GET_VERSION (R418): version 1.0. -/
def execTdispGetVersion (dev slot : Nat) (s : State) : Ans :=
  s.tdisp dev slot 0x81 (fun _ _ => some s) fun _ => [0x10]

/-- TDISP_GET_CAPABILITIES (R418): the requests that the device supports. -/
def execTdispGetCapabilities (dev slot : Nat) (s : State) : Ans :=
  s.tdisp dev slot 0x82 (fun _ _ => some s) fun _ => [0x81, 0x82, 0x83, 0x84, 0x85, 0x86, 0x87]

/-- GET_DEVICE_INTERFACE_REPORT (R418): the report of a locked interface; its content is the device's own (log entry 6). -/
def execGetDeviceInterfaceReport (dev slot : Nat) (s : State) : Ans :=
  s.tdisp dev slot 0x84 (fun _ t => if t.state = .locked || t.state = .run then some s else none)
    fun _ => [Config.secret (2 ^ 40 + 64 * dev + slot)]

/-- GET_DEVICE_INTERFACE_STATE (R418). -/
def execGetDeviceInterfaceState (dev slot : Nat) (s : State) : Ans :=
  s.tdisp dev slot 0x85 (fun _ _ => some s) fun t => [BitVec.ofNat 64 t.state.code]

/-- CONFIGURATION_CHANGE (R418). -/
def execConfigurationChange (dev slot : Nat) (s : State) : Ans :=
  match s.dev? dev with
  | some d =>
    let t := d.iface slot
    if t.state = .locked || t.state = .run then .next (s.tdiError dev slot 1) else notEnabled s
  | none => notEnabled s

/-- FUNCTION_RESET (R418). -/
def execFunctionReset (dev slot : Nat) (s : State) : Ans :=
  match s.dev? dev with
  | some d =>
    let t := d.iface slot
    if t.state = .locked || t.state = .run then .next (s.tdiError dev slot 4) else notEnabled s
  | none => notEnabled s

/-! ### SPDM and IDE (R419) -/

/-- An SPDM request that the responder takes at its point of the sequence, or answers with an error. -/
def State.spdmStep (s : State) (dev request : Nat) (ok : Spdm → Bool) (f : Spdm → Spdm) (payload : Device → List DWord) : Ans :=
  match s.dev? dev with
  | none => notEnabled s
  | some d =>
    if !d.ready then notEnabled s
    else if ok d.spdm then .next ((s.updDev dev fun d => { d with spdm := f d.spdm }).answer dev request true (payload d))
    else .next (s.answer dev request false [])

/-- An answer whose content is the device's own (log entry 6). -/
def ownPayload (dev k : Nat) : DWord := Config.secret (2 ^ 41 + 16 * dev + k)

/-- SPDM_GET_VERSION (R419): version 1.2; a new exchange begins. -/
def execSpdmGetVersion (dev request : Nat) (s : State) : Ans :=
  s.spdmStep dev request (fun _ => true)
    (fun p => { p with version := true, caps := false, algorithms := false, session := false, finished := false }) fun _ => [0x12]

/-- SPDM_GET_CAPABILITIES (R419): the codes of the requests that are supported, in the rule's order (log entry 79). -/
def execSpdmGetCapabilities (dev request : Nat) (s : State) : Ans :=
  s.spdmStep dev request Spdm.version (fun p => { p with caps := true }) fun _ => [0x84, 0xE1, 0xE3, 0x81, 0x82, 0x83, 0xE0, 0xE4, 0xE5]

/-- NEGOTIATE_ALGORITHMS (R419): SHA-256, secp384r1, AES-256-GCM, and HSS of two levels of LMS_SHA256_M32_H20 with LMOTS_SHA256_N32_W4, each by
its code (log entry 79). -/
def execNegotiateAlgorithms (dev request : Nat) (s : State) : Ans :=
  s.spdmStep dev request Spdm.caps (fun p => { p with algorithms := true }) fun _ => [0x1, 0x10, 0x2, 2, 8, 3]

/-- GET_DIGESTS (R419). -/
def execGetDigests (dev request : Nat) (s : State) : Ans :=
  s.spdmStep dev request Spdm.algorithms id fun _ => [ownPayload dev 2]

/-- GET_CERTIFICATE (R419). -/
def execGetCertificate (dev request : Nat) (s : State) : Ans :=
  s.spdmStep dev request Spdm.algorithms id fun _ => [ownPayload dev 3]

/-- A signature may be made: no index is used twice, and there are 2^40 (R419). -/
def Spdm.maySign (p : Spdm) : Bool := p.algorithms && decide (p.sigIndex < 2 ^ 40)

/-- CHALLENGE (R419): signed under the next signature index. -/
def execChallenge (dev request : Nat) (s : State) : Ans :=
  s.spdmStep dev request Spdm.maySign (fun p => { p with sigIndex := p.sigIndex + 1 })
    fun d => [BitVec.ofNat 64 d.spdm.sigIndex, ownPayload dev 4]

/-- Measurements (R419): firmware digest and version, DBGSTAT, unlock, and each interface's state and PROT. -/
def State.measure (s : State) (dev : Nat) (d : Device) : List DWord :=
  [ownPayload dev 5, BitVec.ofNat 64 d.dbgStat, BitVec.ofNat 64 (bitNat d.unlocked)] ++ (List.range 32).map fun k =>
    BitVec.ofNat 64 ((d.iface k).state.code + 4 * bitNat (((Tab.find d.slots k).bind s.chip?).map Chip.prot == some true))

/-- GET_MEASUREMENTS (R419): signed under the next signature index. -/
def execGetMeasurements (dev request : Nat) (s : State) : Ans :=
  s.spdmStep dev request Spdm.maySign (fun p => { p with sigIndex := p.sigIndex + 1 })
    fun d => BitVec.ofNat 64 d.spdm.sigIndex :: s.measure dev d

/-- KEY_EXCHANGE (R419). -/
def execKeyExchange (dev request : Nat) (s : State) : Ans :=
  s.spdmStep dev request Spdm.algorithms (fun p => { p with session := true, finished := false }) fun _ => [ownPayload dev 6]

/-- FINISH (R419): the session is secure. -/
def execFinish (dev request : Nat) (s : State) : Ans :=
  s.spdmStep dev request Spdm.session (fun p => { p with finished := true }) fun _ => []

/-- IDE_KM (R419): the keys of a VF's stream, over a secure session. -/
def execIdeKm (dev slot : Nat) (s : State) : Ans :=
  s.tdisp dev slot 0x80 (fun d t => if d.spdm.finished then some (s.setTdi dev slot { t with ide := true }) else none) fun _ => []

/-! ### Debug unlock (R420) -/

/-- DEBUG_UNLOCK_REQUEST (R420): a write of DBGREQ. -/
def execDebugUnlockRequest (dev : Nat) (addr : DWord) (s : State) : Ans :=
  match s.dev? dev with
  | none => notEnabled s
  | some d =>
    if !d.ready then .next s
    else if d.tdi.any fun t => t.2.state == .creating then .next (s.updDev dev fun d => { d with dbgStat := 2 })
    else .next (s.updDev dev fun d => { d with dbgReq := addr &&& ~~~0xFFF, dbgStat := 5 })

/-- DEBUG_TOKEN_VERIFIED (R420). -/
def execDebugTokenVerified (dev : Nat) (verdict : TokenVerdict) (s : State) : Ans :=
  match s.dev? dev with
  | none => notEnabled s
  | some d =>
    if d.dbgStat ≠ 5 then notEnabled s
    else
      .next (s.updDev dev fun d =>
        match verdict with
        | .accepted => { d with dbgStat := 1, unlocked := true }
        | .badSignature => { d with dbgStat := 3 }
        | .otherDevice => { d with dbgStat := 4 })

end Sys2Proof.Machine
end

