-- ==== Sys2Proof/Machine/Boot.lean ====
section
/-! DEFINITION. Creation and destruction of virtual chips, the end of a protected one, bring-up and reset of a device, power, and the host's
accesses to memory (R7, R8, R306, R312, R356, R371, R374, R375, R413, R418, R419, R436, R437). -/

namespace Sys2Proof.Machine

/-! ### Virtual chips (R306, R356) -/

/-- A queue, a timeline, a scope entry and a tide that nothing has used. -/
def Queue.reset : Queue :=
  { base := 0, en := false, dev := false, prio := 0, lg := 0, err := false, head := 0, tail := 0, fired := [], clocks := [], firm := [],
    last := none }

def Timeline.reset : Timeline := ⟨0, [], []⟩

def ScopeEntry.reset : ScopeEntry := ⟨0, false, false, 0, false, none⟩

def Tide.reset : Tide :=
  { c := 0, closed := false, apply := false, eff := [], staged := [], held := [], pend := false, err := false, lost := false, qbase := 0,
    qhead := 0, qtail := 0, tibq := 0, tlog := 0, tlogDue := none, tibqDue := none, satw := false, conf := false, now := Half.empty,
    next := Half.empty }

/-- Trap registers of a new chip (R397): CSAREA is where Samphire puts the save area. -/
def Trap.reset (csarea : DWord) : Trap :=
  { tcbase := 0, tcsize := 0, tfbase := 0, en := false, lerr := false, tfn := 0, frames := [], code := [], area := [], fqbase := 0, fqhead := 0,
    fqtail := 0, csarea, due := [] }

def Hb.reset : Hb := { clocks := [], past := [], rels := [], carried := [], relFence := [], seen := [], afterFence := [], next := 0 }

/-- A chip as Samphire creates it (R257, R304, R306, R371, R374, R389, R397, R434). -/
def Chip.new (guest num dev slot quota near : Nat) (tiers : Tab Nat) (csarea : DWord) : Chip :=
  { guest, num, dev, slot, quota, nearQuota := near, mem := [], ats := [], overOk := false, overEn := false, scopeOk := false, scopeEn := false,
    scopes := Vector.ofFn fun k : Fin 64 => { ScopeEntry.reset with version := if k.val < 5 then 1 else 0 }, queues := Vector.replicate 64 Queue.reset, lt := Vector.replicate 64 Timeline.reset,
    cores := 0, sliced := false, slice := 3000000, wbudget := 3000000000, snapa := 0, xlfault := 0, cc := ⟨0, 0, 0, 0, false, false, false⟩,
    waitRun := [], mig := Mig.reset, trap := Trap.reset csarea, tide := Tide.reset, mbxBase := Vector.replicate 8 0,
    mbxSize := Vector.replicate 8 0, rx := [], inlogSize := 0, inlog := [], arm := [], outbound := [], fired := [], launches := [], tasks := [],
    snap := [], prot := false, stopped := false, revoked := false, moving := [], tiers, hb := Hb.reset, acceptSeq := 0, turnHeld := false, parked := false,
    turnFrom := 0, hostRead := [], headSeal := none, mbxHeld := Vector.replicate 8 [], turns := [], readings := [], pri := [] }

/-- A guest that nothing has written (R357). -/
def Guest.reset : Guest := { vct := [], rlt := [], mcset := [], held := false, remap := false, prot := false }

/-- Bytes of near memory that near quotas of a device take. -/
def State.nearTaken (s : State) (dev : Nat) : Nat := s.chips.foldl (fun n c => if c.2.dev = dev then n + c.2.nearQuota else n) 0

/-- CHIP_CREATION (R1, R306, R356): a free slot of a device that is ready, and room for the quotas. -/
def execChipCreation (chip dev slot quota near : Nat) (s : State) : Ans :=
  let guest := chip / 1024
  let ready := ((s.dev? dev).map Device.ready).getD false
  if 4096 ≤ guest || (s.chip? chip).isSome || quota % 65536 ≠ 0 || quota = 0 || quota < near || !ready || !s.slotFree chip dev slot ||
      192 * 2 ^ 30 < s.nearTaken dev + near then notEnabled s
  else
    match s.settle none dev quota near with
    | none => notEnabled s
    | some tiers =>
      let f := s.free
      let s := f.2
      let s : State := { s with chips := Tab.put s.chips chip (Chip.new guest (chip % 1024) dev slot quota near tiers f.1),
                                guests := if (Tab.find s.guests guest).isSome then s.guests else Tab.put s.guests guest Guest.reset }
      .next (s.updDev dev fun d => { d with slots := Tab.put d.slots slot chip })

/-- What a chip has left of itself on its device's cores and in the fabric is gone; what stands at it for a turn is discarded (R358). -/
def State.purge (s : State) (chip : Nat) : State :=
  match s.chip? chip with
  | none => s
  | some c =>
    let s := s.clearCores chip
    let s := s.updDev c.dev fun d =>
      { d with cores := d.cores.map fun k => (k.1, { k.2 with evq := Tab.drop k.2.evq chip, evWait := Tab.drop k.2.evWait chip }) }
    let stands (p : Packet) : Bool := p.standing && p.guest == c.guest && p.dst == c.num
    let rest := s.packets.filter fun p => !stands p && (p.left || !(p.guest == c.guest && p.src == c.num))
    (s.packets.filter stands).foldl (fun s p => s.discarded p c.dev) { s with packets := rest }

/-- CHIP_DESTRUCTION (R267, R375, R418): its leases end with it, its turn passes on, and a locked interface sees its configuration change. -/
def execChipDestruction (chip : Nat) (s : State) : Ans :=
  match s.chip? chip with
  | none => notEnabled s
  | some c =>
    let s := (s.tdiError c.dev c.slot 1).purge chip
    let s : State := { s with chips := Tab.drop s.chips chip }
    .next ((s.updDev c.dev fun d => { d with slots := Tab.drop d.slots c.slot }).leaveTurn chip c)

/-- The guest's key slots on a device are revoked and erased (R418). -/
def State.eraseKeys (s : State) (dev guest : Nat) : State :=
  match s.dev? dev with
  | none => s
  | some d =>
    let live := d.keys.any fun k => k.2.guest == guest && k.2.state == 2 && (k.2.kind == 1 || k.2.kind == 3)
    let s := if live then s.revokeGuest guest else s
    s.updDev dev fun d => { d with keys := d.keys.filter fun k => !(k.2.guest == guest && k.2.state != 0 && k.2.state != 1) }

/-- STOP_INTERFACE (R418): the chip's state is discarded, its cores scrubbed, and the guest's slots revoked and erased. -/
def execStopInterface (dev slot : Nat) (s : State) : Ans :=
  s.tdisp dev slot 0x87 (fun d t =>
    if t.state = .unlocked then none
    else
      let s : State :=
        match (Tab.find d.slots slot).bind fun k => (s.chip? k).map fun c => (k, c) with
        | none => s
        | some (key, c) =>
          let s := (s.purge key).eraseKeys dev c.guest
          let s := (s.updChip key fun _ => Chip.new c.guest c.num c.dev c.slot c.quota c.nearQuota c.tiers c.trap.csarea).leaveTurn key c
          s.updGuest c.guest fun g => { g with prot := s.chips.any fun k => k.2.guest == c.guest && k.2.prot }
      some ((s.setTdi dev slot Tdi.reset).updDev dev fun d => { d with sealCnt := Tab.drop d.sealCnt slot, stagBase := Tab.drop d.stagBase slot })) fun _ => []

/-! ### Reset and bring-up (R8, R436, R437) -/

/-- DEVICE_RESET (R436): stage 0, no core runs, the key store is empty; a device that was not in the pod joins it. Its virtual chips are
gone, and what is on its way to them will find no chip in their slots (R358). Its links, a remap that is due for one, and the signature
indices that it has used stand (R363, R419; log entry 84). -/
def execDeviceReset (dev : Nat) (s : State) : Ans :=
  if 1023 < dev then notEnabled s
  else
    let mine := (s.chips.filter fun c => c.2.dev == dev).map Prod.fst
    let t := mine.foldl (fun s k => s.purge k) s
    let kept : Device :=
      match s.dev? dev with
      | some d => { Device.reset with links := d.links, live := d.live, spdm := { Device.reset.spdm with sigIndex := d.spdm.sigIndex } }
      | none => Device.reset
    .next ({ t with devs := Tab.put t.devs dev kept, chips := t.chips.filter fun c => c.2.dev != dev } : State).endRemap

/-- A step of bring-up with an error belongs to its stage (R436). -/
def bootErrAt (stage err : Nat) : Bool := (stage == 2 && (err == 1 || err == 2)) || (stage == 3 && (err == 3 || err == 4))

/-- BRING_UP_STAGE (R437): the next stage in order, or an error that stops bring-up. READY comes with stage 6. -/
def execBringUpStage (dev err : Nat) (s : State) : Ans :=
  match s.dev? dev with
  | none => notEnabled s
  | some d =>
    if 6 ≤ d.stage || d.bootErr ≠ 0 then notEnabled s
    else if err = 0 then .next (s.updDev dev fun d => { d with stage := d.stage + 1 })
    else if bootErrAt d.stage err then .next (s.updDev dev fun d => { d with bootErr := err })
    else notEnabled s

/-- CORE_CLOCK_REDUCTION (R7): timing only. -/
def execCoreClockReduction (dev draw : Nat) (s : State) : Ans :=
  match s.dev? dev with
  | some _ => .next (s.updDev dev fun d => { d with clockLow := decide (2600 < draw) })
  | none => notEnabled s

/-- POWER_UNGATE (R413): a unit that was gated during a protected context is written with zeros before any context uses it; what a context that
stands on the core holds is its own. -/
def execPowerUngate (core : CoreRef) (s : State) : Ans :=
  match s.dev? core.dev with
  | some _ =>
    let idle := (s.tasksOn core).isEmpty && (s.core core).ctrl.isNone && (s.core core).copyq.isEmpty
    if 159 < core.core then notEnabled s
    else .next (s.updCore core fun k => { (if k.gated && idle then k.scrubbed else k) with gated := false })
  | none => notEnabled s

/-! ### The host's accesses to memory (R284, R312, R415, R419) -/

/-- A protected chip takes a host request only with the T bit, over its own IDE stream (R419). -/
def State.hostMay (s : State) (c : Chip) (tbit : Bool) : Bool :=
  !c.prot || (tbit && ((s.dev? c.dev).map fun d => (d.iface c.slot).ide && (d.iface c.slot).state == .run).getD false)

/-- What the host reads in a chip's memory at guest-physical bytes (R415, R419): all ones where the chip does not take the request. -/
def State.hostBytes (s : State) (key addr n : Nat) (tbit : Bool) : List Byte :=
  match s.chip? key with
  | some c => if s.hostMay c tbit then s.bytesAt ((List.range n).map fun k => Place.dram key (addr + k) false) else List.replicate n 0xFF
  | none => []

/-- Words of device memory that bytes from an address touch no longer carry releases: host accesses lie outside race detection, and a
write ends a release sequence (R296, R312). -/
def Chip.hostWrote (c : Chip) (a n : Nat) : Chip :=
  { c with hb := c.hb.plainWrite ((List.range n).map fun k => placeKey (.dram 0 (a + k) false)) }

/-- HOST_MEMORY_WRITE (R312, R388): guest-physical bytes of a chip, or host memory. -/
def execHostMemoryWrite (place : HostTarget) (addr : DWord) (bytes : List Byte) (s : State) : Ans :=
  match place with
  | .hostHalf =>
    if hostHalf (addr.toNat + bytes.length) then .next { s with hostMem := Mem.write s.hostMem addr.toNat bytes } else notEnabled s
  | .chip key tbit =>
    match s.chip? key with
    | none => notEnabled s
    | some c =>
      if c.quota < addr.toNat + bytes.length then notEnabled s
      else if !s.hostMay c tbit then .next s
      else
        let ps := (List.range bytes.length).map fun k => Place.dram key (addr.toNat + k) false
        .next ((s.writeBytes ps bytes).updChip key fun c => c.hostWrote addr.toNat bytes.length)

/-- Where a host AtomicOp acts: the place of its word, its key, and whether the page's SYSA bit is set (R312). -/
def Chip.hostWord (c : Chip) (key a n : Nat) : Option (List Place × Bool) :=
  if a % n ≠ 0 then none
  else if deviceHalf a then
    (c.walk a).map fun l => ((List.range n).map fun k => Place.dram key (l.frame + a % l.size + k) false, l.sysa)
  else if hostHalf a then some ((List.range n).map fun k => Place.host (a + k), false)
  else none

/-- The new value of a host AtomicOp: R151's operations, and 12 for compare and swap. -/
def hostAtomic (op w old v cmp : Nat) : Nat := if op = 12 then (if old = cmp then v else old) else atomicOp op w old v

/-- A read half and a write half are of one host operation (R312). -/
def HostHalf.same (h : HostHalf) (addr : DWord) (op : Nat) (wide : Bool) (value cmp : DWord) : Bool :=
  h.addr == addr && h.op == op && h.wide == wide && h.value == value && h.cmp == cmp

/-- HOST_ATOMIC_OP (R312, R419): one unit at the home under SYSA, or a read and then a write of the host interface. A chip that does not take
the request reads all ones and drops the write. -/
def execHostAtomicOp (chip : Nat) (addr : DWord) (op : Nat) (wide : Bool) (value cmp : DWord) (phase : HostAtomicPhase) (s : State) : Ans :=
  match s.chip? chip with
  | none => notEnabled s
  | some c =>
    let n := if wide then 8 else 4
    let w := 8 * n
    let v := value.toNat % 2 ^ w
    match c.hostWord chip addr.toNat n with
    | none => notEnabled s
    | some (ps, sysa) =>
      let may := s.hostMay c phase.tbit
      let base := match ps with | .dram _ a _ :: _ => some a | _ => none
      let wrote (s : State) (old : Nat) : State :=
        if !may then s
        else
          let s := s.writePlaces ps (hostAtomic op w old v (cmp.toNat % 2 ^ w))
          match base with
          | some a => if sysa then s else s.updChip chip fun c => c.hostWrote a n
          | none => s
      if 12 < op then notEnabled s
      else
        match phase, c.hostRead.find? fun h => h.same addr op wide value cmp with
        | .whole _, _ => .next (wrote s (s.readPlaces ps))
        | .readHalf _, _ =>
          if sysa then notEnabled s
          else
            let old := if may then BitVec.ofNat 64 (s.readPlaces ps) else BitVec.allOnes 64
            .next (s.updChip chip fun c => { c with hostRead := c.hostRead ++ [⟨addr, op, wide, value, cmp, old⟩] })
        | .writeHalf _, some h => .next ((wrote s h.old.toNat).updChip chip fun c => { c with hostRead := c.hostRead.erase h })
        | .writeHalf _, none => notEnabled s

end Sys2Proof.Machine
end

