-- ==== Sys2Proof/Machine/LaneOps.lean ====
section
/-! DEFINITION. Lane instructions (R105 to R108). -/

namespace Sys2Proof.Machine

/-- A lane mask as an instruction writes it: half-relative under C16 (R106). -/
def Ctx.maskBits (c : Ctx) (m : LaneMask) : Nat :=
  if c.g.c16 then m.toNat / 2 ^ (16 * (lowest c.lanes / 16)) % 2 ^ 16 else m.toNat

/-- SHFL (R107): the values of the source lanes, whose reads are checked with the others (R37 order 7). -/
def execShfl (x : Ops) (s : State) : Ans := issue s (.shfl x) x fun c s => c.value s fun i => c.va[i]

/-- VOTE (R108). -/
def execVote (x : Ops) (s : State) : Ans :=
  issue s (.vote x) x fun c s =>
    let m := maskOf fun i => inMask c.active i && ((c.va[i] == 1) != (x.sb 2 2 == 1))
    match x.sb 1 0 with
    | 0 => c.test s fun _ => m != 0
    | 1 => c.test s fun _ => m == c.active
    | _ => c.value s fun _ => c.maskBits m

/-- MATCH (R108). -/
def execMatchLanes (x : Ops) (s : State) : Ans :=
  issue s (.matchLanes x) x fun c s =>
    let same (i : Fin 32) : LaneMask := maskOf fun j => inMask c.active j && c.va[j] == c.va[i]
    if x.sb 0 0 = 0 then c.value s fun i => c.maskBits (same i)
    else
      let all := (lanesOf c.active).all fun i => c.va[i] == c.once c.va
      c.value s fun _ => if all then c.maskBits c.active else 0

/-- The reduction operations of LREDUX and LPRFX on bit patterns of a type (R105, R108). -/
def reduxOp (op : Nat) (t : Ty) (a b : Nat) : Nat :=
  match op with
  | 0 => (a + b) % 2 ^ t.width
  | 1 => if extTy t a ≤ extTy t b then a else b
  | 2 => if extTy t a ≤ extTy t b then b else a
  | 3 => a &&& b
  | 4 => a ||| b
  | _ => a ^^^ b

/-- The identity of a reduction operation (R108). -/
def reduxUnit (op : Nat) (t : Ty) : Nat :=
  let w := t.width
  let sg := match t with | .int _ sg => sg | _ => false
  match op with
  | 1 => if sg then 2 ^ (w - 1) - 1 else 2 ^ w - 1
  | 2 => if sg then 2 ^ (w - 1) else 0
  | 3 => 2 ^ w - 1
  | _ => 0

/-- The reduction of the values of lanes in ascending order. -/
def reduxOver (op : Nat) (t : Ty) (ls : List (Fin 32)) (v : Lanes Nat) : Nat :=
  ls.foldl (fun a i => reduxOp op t a v[i]) (reduxUnit op t)

/-- LREDUX (R108). -/
def execLredux (x : Ops) (s : State) : Ans :=
  issue s (.lredux x) x fun c s => c.value s fun _ => reduxOver (x.sb 2 0) (tyOf (x.sb 4 3)) (lanesOf c.active) c.va

/-- LPRFX (R108). -/
def execLprfx (x : Ops) (s : State) : Ans :=
  issue s (.lprfx x) x fun c s =>
    c.value s fun i =>
      reduxOver (x.sb 2 0) (tyOf (x.sb 4 3))
        ((lanesOf c.active).filter fun j => if x.sb 5 5 = 1 then decide (j < i) else decide (j ≤ i)) c.va

/-- ELECT (R108). -/
def execElect (x : Ops) (s : State) : Ans := issue s (.elect x) x fun c s => c.test s fun i => i.val == lowest c.active

/-- UNIASSERT (R108): the class U check of its operand is its whole effect. -/
def execUniassert (x : Ops) (s : State) : Ans := issue s (.uniassert x) x fun _ s => .ok { s }

end Sys2Proof.Machine
end

