-- ==== Sys2Proof/Machine/Moment.lean ====
section
/-! DEFINITION. Moment registers: loads and stores, the exact and the approximate moment instructions, collapse (R55, R198 to R204, R344 to
R347). -/

namespace Sys2Proof.Machine

/-! ### Moments as values, and checks (R198, R199) -/

/-- Mean and variance of a moment word. -/
structure Mo where
  mean : Val
  var : Val
deriving DecidableEq, Repr

/-- A moment word read as a moment; FTZ never applies (R199). -/
def Mo.of (m : Nat) : Mo := ⟨Fm.decode .f32 (m % 2 ^ 32), Fm.decode .f32 (m / 2 ^ 32 % 2 ^ 32)⟩

/-- A variance that no moment may have: NaN, or its sign set other than −0 (R199). -/
def badVar (v : Val) : Bool := v.isNan || (v.neg && !v.isZero)

/-- The value of ρ when its terms are formed (R199 step 1, R344); an error is BAD_RHO. -/
def Ctx.rho (c : Ctx) : Except Unit (Option Val) :=
  match c.x.sb 1 0 with
  | 0 => .ok none
  | 1 => .ok (some (.fin false 1 0 false))
  | 2 => .ok (some (.fin true 1 0 false))
  | _ =>
    let r := Fm.decode .f32 ((vget c.g.sreg (c.x.sb 6 2)).toNat % 2 ^ 32)
    match r with
    | .fin .. => if r.isZero then .ok none else if Dy.lt ⟨1, 0⟩ r.dy.abs then .error () else .ok (some r)
    | _ => .error ()

/-- NVAR of the lanes in which one of some variances is bad (R199 step 2). -/
def Ctx.nvar (c : Ctx) (vars : Fin 32 → List Val) : Option Trouble :=
  let bad := maskOf fun i => inMask c.active i && (vars i).any badVar
  if bad = 0 then none else some { cause := cNvar, lanes := bad }

/-! ### Exact values that may be undefined (R345) -/

/-- A sum of two values that are no NaN; none is undefined. -/
def addDef (a b : Option Val) : Option Val :=
  match a, b with
  | some x, some y => let r := (sumVal .rne x y).val; if r.isNan then none else some r
  | _, _ => none

/-- A product. -/
def mulDef (a b : Option Val) : Option Val :=
  match a, b with
  | some x, some y => let r := (mulVal x y).val; if r.isNan then none else some r
  | _, _ => none

def mulAll : List Val → Option Val
  | [] => some (.fin false 1 0 false)
  | v :: vs => mulDef (some v) (mulAll vs)

def addAll : List (Option Val) → Option Val
  | [] => some (.zero false)
  | [a] => a
  | a :: as => addDef a (addAll as)

/-- A standard deviation in a term whose value is infinite, zero or not formed exactly: its own square root, or 1 for a finite one that is
not zero. -/
def sigma (v : Val) : Val := if v.isInf || v.isZero then v.withSign false else .fin false 1 0 false

def Val.isFin : Val → Bool
  | .fin .. => true
  | _ => false

/-- a + b√c with a, b and c exact: IEEE's sign where the root's term is zero, else one exact value; none when undefined (R344, R345). -/
def rootSum (rm : Rm) (a b c : Option Val) : Option Val :=
  match a, b, c with
  | some x, some y, some z =>
    if x.isFin && y.isFin && z.isFin then
      if y.isZero || z.isZero then some (sumVal rm x (mulVal y (z.withSign false)).val).val
      else some (quadratic x.dy y.dy z.dy (rm == .rdn))
    else addDef (some x) (mulDef (some y) (some (sigma z)))
  | _, _, _ => none

/-! ### write_moment (R200) -/

def mnan : BitVec 3 := 4
def vofl : BitVec 3 := 2
def vclamp : BitVec 3 := 1

/-- The code of +∞ in binary32. -/
def infF32 : Nat := 0x7F800000

/-- A moment word from its halves. -/
def moWord (mean var : Nat) : Nat := mean + var * 2 ^ 32

/-- write_moment: the moment word and its flags; `nan` says that a source mean is NaN. -/
def writeMoment (nan : Bool) (mu v : Option Val) : Nat × BitVec 3 :=
  if nan then (moWord (Fm.qnan .f32) infF32, 0)
  else
    let m : Nat × BitVec 3 := match mu with | some x => ((roundVal .f32 .rne false x).code, 0) | none => (Fm.qnan .f32, mnan)
    let v := if mu.isNone then some (.inf false) else v
    match v with
    | none => (moWord m.1 infF32, m.2 ||| vofl)
    | some x =>
      let c := (roundVal .f32 .rne false x).code
      let ofl : BitVec 3 := if c = infF32 && x.isFin then vofl else 0
      if 2 ^ 31 ≤ c then (moWord m.1 0, m.2 ||| (if c = 2 ^ 31 then 0 else vclamp))
      else (moWord m.1 c, m.2 ||| ofl)

/-- Moment results of the active lanes. -/
def Ctx.moments (c : Ctx) (s : State) (f : Fin 32 → Nat × BitVec 3) : Res :=
  let r : Lanes (Nat × BitVec 3) := lanesFrom fun i => if inMask c.active i then f i else (0, 0)
  .ok { s, dst := some (r.map Prod.fst), mflags := r.map Prod.snd }

/-! ### Sums, differences, products, scaling (R201, R344, R345) -/

/-- The value of a doubled ρ, with a sign. -/
def twice (r : Val) : Val := r.scale 1

/-- MADD, and MSUB with a negated second mean: mean and variance. -/
def moSum (sub : Bool) (rho : Option Val) (a b : Mo) : Option Val × Option Val :=
  let mb := if sub then b.mean.flip else b.mean
  let mu := addDef (some a.mean) (some mb)
  let vs := addDef (some a.var) (some b.var)
  match rho with
  | none => (mu, vs)
  | some r =>
    let k := if sub then (twice r).flip else twice r
    let v :=
      if a.var.isFin && b.var.isFin then rootSum .rne vs (some k) (mulDef (some a.var) (some b.var))
      else addDef vs (mulAll [k, sigma a.var, sigma b.var])
    (mu, v)

/-- MMUL: mean and variance. -/
def moProd (rho : Option Val) (a b : Mo) : Option Val × Option Val :=
  let mm := mulDef (some a.mean) (some b.mean)
  let vv := mulDef (some a.var) (some b.var)
  let one : Val := .fin false 1 0 false
  let r2 := match rho with | some r => addDef (some one) (mulDef (some r) (some r)) | none => some one
  let plain := [mulAll [a.mean, a.mean, b.var], mulAll [b.mean, b.mean, a.var], mulDef vv r2]
  match rho with
  | none => (mm, addAll plain)
  | some r =>
    let fin := a.mean.isFin && b.mean.isFin && a.var.isFin && b.var.isFin
    if fin then (rootSum .rne mm (some r) vv, rootSum .rne (addAll plain) (mulDef (some (twice r)) mm) vv)
    else
      (addDef mm (mulAll [r, sigma a.var, sigma b.var]), addAll (plain ++ [mulAll [twice r, a.mean, b.mean, sigma a.var, sigma b.var]]))

/-- A binary moment instruction. -/
def Ctx.binary (c : Ctx) (s : State) (f : Option Val → Mo → Mo → Option Val × Option Val) : Res :=
  match c.rho with
  | .error _ => c.trap cBadRho
  | .ok rho =>
    match c.nvar fun i => [(Mo.of c.va[i]).var, (Mo.of c.vb[i]).var] with
    | some t => .trap t
    | none =>
      c.moments s fun i =>
        let a := Mo.of c.va[i]
        let b := Mo.of c.vb[i]
        let r := f rho a b
        writeMoment (a.mean.isNan || b.mean.isNan) r.1 r.2

/-- MADD (R201). -/
def execMadd (x : Ops) (s : State) : Ans := issue s (.madd x) x fun c s => c.binary s (moSum false)

/-- MSUB (R201). -/
def execMsub (x : Ops) (s : State) : Ans := issue s (.msub x) x fun c s => c.binary s (moSum true)

/-- MMUL (R201). -/
def execMmul (x : Ops) (s : State) : Ans := issue s (.mmul x) x fun c s => c.binary s moProd

/-- MFMA (R201): a product and then a sum, each written by write_moment. -/
def execMfma (x : Ops) (s : State) : Ans :=
  issue s (.mfma x) x fun c s =>
    match c.rho with
    | .error _ => c.trap cBadRho
    | .ok rho =>
      match c.nvar fun i => [(Mo.of c.va[i]).var, (Mo.of c.vb[i]).var, (Mo.of c.vc[i]).var] with
      | some t => .trap t
      | none =>
        c.moments s fun i =>
          let a := Mo.of c.va[i]
          let b := Mo.of c.vb[i]
          let r := moProd rho a b
          let p := writeMoment (a.mean.isNan || b.mean.isNan) r.1 r.2
          let q := Mo.of p.1
          let k := Mo.of c.vc[i]
          let t := moSum false none q k
          let w := writeMoment (q.mean.isNan || k.mean.isNan) t.1 t.2
          (w.1, w.2 ||| p.2)

/-- MSCL (R201). -/
def execMscl (x : Ops) (s : State) : Ans :=
  issue s (.mscl x) x fun c s =>
    match c.nvar fun i => [(Mo.of c.va[i]).var] with
    | some t => .trap t
    | none =>
      c.moments s fun i =>
        let a := Mo.of c.va[i]
        let b := Fm.decode .f32 c.vb[i]
        writeMoment (a.mean.isNan || b.isNan) (mulDef (some a.mean) (some b)) (mulAll [a.var, b, b])

/-- MSET (R203). -/
def execMset (x : Ops) (s : State) : Ans :=
  issue s (.mset x) x fun c s =>
    match c.nvar fun i => [Fm.decode .f32 c.vb[i]] with
    | some t => .trap t
    | none =>
      c.moments s fun i =>
        let a := Fm.decode .f32 c.va[i]
        writeMoment a.isNan (some a) (some (Fm.decode .f32 c.vb[i]))

/-- MMOV (R203): the whole 64 bits. -/
def execMmov (x : Ops) (s : State) : Ans := issue s (.mmov x) x fun c s => c.value s fun i => c.va[i]

/-! ### Loads and stores (R203) -/

/-- Bytes of a moment in memory. -/
def moBytes (x : Ops) : Nat := if x.sub = 1 then 4 else 8

/-- The moment word of loaded bytes: MP16 widens each BF16 half exactly. -/
def moWiden (x : Ops) (v : Nat) : Nat := if x.sub = 1 then moWord (v % 2 ^ 16 * 2 ^ 16) (v / 2 ^ 16 % 2 ^ 16 * 2 ^ 16) else v

/-- The bytes of a stored moment word: MP16 rounds each half to BF16. -/
def moNarrow (x : Ops) (v : Nat) : Nat :=
  let half (c : Nat) : Nat := (roundVal .bf16 .rne false (Fm.decode .f32 c)).code
  if x.sub = 1 then half (v % 2 ^ 32) + half (v / 2 ^ 32 % 2 ^ 32) * 2 ^ 16 else v

/-- MLD (R203). -/
def execMld (x : Ops) (s : State) : Ans :=
  issue s (.mld x) x fun c s =>
    match c.reach s c.active .read (moBytes x) c.ea with
    | .error t => .trap t
    | .ok ps => c.loadFrom s false (moBytes x) c.ea ps (moWiden x)

/-- MST (R203). -/
def execMst (x : Ops) (s : State) : Ans :=
  issue s (.mst x) x fun c s => c.storeTo s (moBytes x) c.ea (fun i => moNarrow x c.vd[i]) false

/-! ### Enclosures of the unary functions (R202) -/

/-- σ of a variance. -/
def sdIv (v : Dy) : Iv := (Iv.ofDy v).sqrt

/-- φ and Φ at a fixed-point t of magnitude near 24 or less, by the series Φ(t) = 1/2 + φ(t) (t + t³/3 + t⁵/15 + …). -/
def normalAt (t : Int) : Iv × Iv :=
  let sq := fxMul t t
  let den := (Iv.mul (Iv.ofInt 2) piIv).sqrt
  let phi := (expAt (-(sq / 2))).div den
  let sum := series (fun u k => fxMul u sq / (2 * k + 3)) (fun u _ => u) 3000 0 t 0
  let e : Int := 2 ^ 14 * (1 + sum.natAbs / 2 ^ fxBits)
  let half : Iv := ⟨2 ^ (fxBits - 1), 2 ^ (fxBits - 1)⟩
  let big := half.add (phi.mul ⟨sum - e, sum + e⟩)
  (phi, ⟨max big.lo 0, min big.hi (2 ^ fxBits)⟩)

/-- φ and Φ of an enclosed t. From 24 on φ and the tail lie below 2^-400, and from 40 on below 2^-1000. -/
def normalIv (t : Iv) : Iv × Iv :=
  let at_ (n : Int) : Int := n * 2 ^ fxBits
  let tiny (k : Nat) : Iv := ⟨0, 2 ^ (fxBits - k)⟩
  let most (k : Nat) : Iv := ⟨2 ^ fxBits - 2 ^ (fxBits - k), 2 ^ fxBits⟩
  if at_ 40 ≤ t.lo then (tiny 1000, most 1000)
  else if at_ 24 ≤ t.lo then (tiny 400, most 400)
  else if t.hi ≤ at_ (-40) then (tiny 1000, tiny 1000)
  else if t.hi ≤ at_ (-24) then (tiny 400, tiny 400)
  else
    let a := normalAt t.lo
    let b := normalAt t.hi
    (⟨min a.1.lo b.1.lo, max a.1.hi b.1.hi⟩, ⟨a.2.lo, b.2.hi⟩)

/-- An enclosure of a number that is not negative. -/
def Iv.clip (a : Iv) : Iv := ⟨max a.lo 0, max a.hi 0⟩

/-- MRELU: mean, variance and E[x²]. -/
def reluIv (mu v : Dy) : Iv × Iv × Iv :=
  let sd := sdIv v
  let m := Iv.ofDy mu
  let n := normalIv (m.div sd)
  let mean := ((m.mul n.2).add (sd.mul n.1)).clip
  let second := ((((m.mul m).add (Iv.ofDy v)).mul n.2).add ((m.mul sd).mul n.1)).clip
  (mean, (second.sub (mean.mul mean)).clip, second)

/-- A finite value above every binary32 number. -/
def hugeVal : Val := .fin false 1 1000 false

/-- MEXP: mean and variance. -/
def mexpVal (mu v : Dy) : Val × Val :=
  let m := Iv.ofDy (Dy.add mu (Dy.mul v ⟨1, -1⟩))
  let a := Dy.mul (Dy.add mu v) ⟨2, 0⟩
  let b := Dy.add (Dy.mul mu ⟨2, 0⟩) v
  let mean := if Dy.lt ⟨450, 0⟩ (Dy.add mu (Dy.mul v ⟨1, -1⟩)) then hugeVal else m.exp.clip.val
  let var := if Dy.lt ⟨450, 0⟩ a || Dy.lt ⟨600, 0⟩ b then hugeVal else ((Iv.ofDy a).exp.sub (Iv.ofDy b).exp).clip.val
  (mean, var)

/-- √(1 + πv/8) of a variance. -/
def stretchIv (v : Dy) : Iv := ((Iv.ofInt 1).add (piIv.mul (Iv.ofDy (Dy.mul v ⟨1, -3⟩)))).sqrt

/-- e^−|κμ|, κ and whether μ is not negative. -/
def sigmIv (mu v : Dy) : Iv × Iv :=
  let r := stretchIv v
  let z := (Iv.ofDy mu.abs).div r
  (z.neg.exp.clip, (Iv.ofInt 1).div r)

/-- MSIGM: m = s(κμ) and m(1 − m)(1 − κ). -/
def msigmIv (mu v : Dy) : Iv × Iv :=
  let e := sigmIv mu v
  let one := Iv.ofInt 1
  let s := one.add e.1
  let m := if mu.n < 0 then e.1.div s else one.div s
  (m.clip, ((e.1.div (s.mul s)).mul (one.sub e.2).clip).clip)

/-- MTANH: 2m − 1 and 4q of MSIGM (2μ, 4v). -/
def mtanhIv (mu v : Dy) : Iv × Iv :=
  let mu2 := Dy.mul mu ⟨2, 0⟩
  let v4 := Dy.mul v ⟨4, 0⟩
  let e := sigmIv mu2 v4
  let one := Iv.ofInt 1
  let t := ((one.sub e.1).div (one.add e.1)).clip
  (if mu.n < 0 then t.neg else t, (Iv.ofInt 4).mul (msigmIv mu2 v4).2)

/-! ### The device's choice (R202, R347) -/

/-- A code within a distance of an exact value: the device's candidate, or the value rounded to nearest even. A value that overflows is
itself, for write_moment to round. -/
def chosen (fn : Nat) (m : Nat) (dist : Dy) (positive : Bool) (exact : Val) : Val :=
  if (Fm.decode .f32 (roundVal .f32 .rne false exact).code).isInf then exact
  else
    let c := (Config.approx fn (BitVec.ofNat 64 m) 0).toNat % 2 ^ 32
    let v := Fm.decode .f32 c
    let near := v.isFin && !dist.lt (Dy.add v.dy exact.dy.neg).abs && !(positive && v.neg && !v.isZero)
    if near then v else Fm.decode .f32 (roundVal .f32 .rne false exact).code

/-- Four units in the last place at a value. -/
def fourUlp (v : Val) : Dy := Dy.mul ⟨4, 0⟩ (ulpAt .f32 v)

/-- Mean and variance of a unary instruction within 4 ulp of each exact value; `positive` variance (R347). -/
def nearBoth (fn m : Nat) (mean var : Val) : Option Val × Option Val :=
  (some (chosen (2 * fn) m (fourUlp mean) false mean), some (chosen (2 * fn + 1) m (fourUlp var) true var))

/-- The deterministic function of a mean with variance +0 (R346). -/
def nearMean (fn m : Nat) (mean : Val) : Option Val × Option Val :=
  (some (chosen (2 * fn) m (fourUlp mean) false mean), some (.zero false))

/-- What a unary instruction writes: mean, variance and flags of its special inputs. -/
structure Unary where
  mean : Option Val
  var : Option Val
  extra : BitVec 3 := 0
deriving DecidableEq, Repr

def Unary.of (r : Option Val × Option Val) : Unary := { mean := r.1, var := r.2 }

/-- MRELU of an input whose mean is no NaN (R202, R346). -/
def reluOf (m : Nat) (a : Mo) : Unary :=
  match a.mean, a.var with
  | .inf false, v => { mean := some (.inf false), var := some v }
  | .inf true, _ => { mean := some (.zero false), var := some (.zero false) }
  | mu, v =>
    if v.isInf then { mean := some (.inf false), var := none }
    else if v.isZero then { mean := some (if mu.neg then .zero false else mu), var := some (.zero false) }
    else
      let r := reluIv mu.dy v.dy
      let mean := r.1.val
      { mean := some (chosen 32 m (fourUlp mean) false mean), var := some (chosen 33 m (fourUlp r.2.2.val) false r.2.1.val) }

/-- MEXP (R202, R346). -/
def mexpOf (m : Nat) (a : Mo) : Unary :=
  match a.mean, a.var with
  | .inf true, _ => { mean := some (.zero false), var := some (.zero false) }
  | .inf false, v => { mean := some (.inf false), var := some (if v.isZero then .zero false else .inf false) }
  | mu, v =>
    if v.isInf then { mean := some (.inf false), var := some (.inf false) }
    else
      let r := mexpVal mu.dy v.dy
      let mean : Val := if mu.isZero && v.isZero then .fin false 1 0 false else r.1
      Unary.of (if v.isZero then nearMean 17 m mean else nearBoth 17 m mean r.2)

/-- MSIGM and MTANH (R202, R346). -/
def msigmOf (tanh : Bool) (m : Nat) (a : Mo) : Unary :=
  let fn := if tanh then 19 else 18
  let one : Val := .fin false 1 0 false
  match a.mean, a.var with
  | .inf s, v =>
    if v.isInf then { mean := none, var := none }
    else if tanh then { mean := some (one.withSign s), var := some (.zero false) }
    else { mean := some (if s then .zero false else one), var := some (.zero false) }
  | mu, v =>
    if v.isInf then
      if tanh then { mean := some (.zero false), var := some one }
      else { mean := some (.fin false 1 (-1) false), var := some (.fin false 1 (-2) false) }
    else
      let r := if tanh then mtanhIv mu.dy v.dy else msigmIv mu.dy v.dy
      let mean : Val := if mu.isZero then (if tanh then .zero false else .fin false 1 (-1) false) else r.1.val
      Unary.of (if v.isZero then nearMean fn m mean else nearBoth fn m mean r.2.clip.val)

/-- MRCP (R202, R346). -/
def mrcpOf (m : Nat) (a : Mo) : Unary :=
  match a.mean, a.var with
  | .inf s, v => if v.isInf then { mean := none, var := none } else { mean := some (.zero s), var := some (.zero false) }
  | mu, v =>
    if mu.isZero then { mean := some (.inf mu.neg), var := some (.inf false), extra := vofl }
    else if v.isInf then { mean := some (.inf mu.neg), var := some (.inf false) }
    else
      let u2 := Dy.mul mu.dy mu.dy
      let mean := quotient mu.neg (Dy.add u2 v.dy) (Dy.mul u2 mu.dy)
      let var := quotient false (Dy.mul v.dy (Dy.add u2 (Dy.mul v.dy ⟨2, 0⟩))) (Dy.mul u2 (Dy.mul u2 u2))
      Unary.of (if v.isZero then nearMean 20 m mean else nearBoth 20 m mean var)

/-- A unary moment instruction. -/
def Ctx.unary (c : Ctx) (s : State) (f : Nat → Mo → Unary) : Res :=
  match c.nvar fun i => [(Mo.of c.va[i]).var] with
  | some t => .trap t
  | none =>
    c.moments s fun i =>
      let a := Mo.of c.va[i]
      if a.mean.isNan then writeMoment true none none
      else
        let r := f c.va[i] a
        let w := writeMoment false r.mean r.var
        (w.1, w.2 ||| r.extra)

/-- MRELU (R202). -/
def execMrelu (x : Ops) (s : State) : Ans := issue s (.mrelu x) x fun c s => c.unary s reluOf

/-- MEXP (R202). -/
def execMexp (x : Ops) (s : State) : Ans := issue s (.mexp x) x fun c s => c.unary s mexpOf

/-- MSIGM (R202). -/
def execMsigm (x : Ops) (s : State) : Ans := issue s (.msigm x) x fun c s => c.unary s (msigmOf false)

/-- MTANH (R202). -/
def execMtanh (x : Ops) (s : State) : Ans := issue s (.mtanh x) x fun c s => c.unary s (msigmOf true)

/-- MRCP (R202). -/
def execMrcp (x : Ops) (s : State) : Ans := issue s (.mrcp x) x fun c s => c.unary s mrcpOf

/-! ### Collapse (R204) -/

/-- The exact value of MCOL with the flags that forming it raises; k is the value of SB where the variant has one. A signalling k or z raises
invalid beside a NaN mean too (log entry 133). -/
def collapse (variant : Nat) (rm : Rm) (a : Mo) (k : Val) : Exact :=
  let scaled := decide (3 ≤ variant)
  if a.mean.isNan || (scaled && k.isNan) then ⟨.canonical, if scaled && k.isSig then flagInv else 0⟩
  else
    match variant with
    | 0 => ⟨a.mean, 0⟩
    | 1 => ⟨a.var, 0⟩
    | 2 => ⟨if a.var.isFin && !a.var.isZero then rootVal a.var.dy else a.var, 0⟩
    | _ => match rootSum rm (some a.mean) (some k) (some a.var) with | some v => ⟨v, 0⟩ | none => .invalid

/-- MCOL (R204). -/
def execMcol (x : Ops) (s : State) : Ans :=
  issue s (.mcol x) x fun c s =>
    match c.nvar fun i => [(Mo.of c.va[i]).var] with
    | some t => .trap t
    | none =>
      c.floats s fun i =>
        let rm := c.rm (x.sb 5 3) i
        (collapse (x.sb 2 0) rm (Mo.of c.va[i]) (Fm.decode .f32 c.vb[i])).write .f32 rm false x.clp x.scl

end Sys2Proof.Machine
end

