-- ==== Sys2Proof/Machine/Registers.lean ====
section
/-! DEFINITION. The system registers of blocks 0x0 to 0x6 as one map: levels, reads and writes; SYSR, SYSW and the writes that come through the
host interface (R10, R225, R226, R257, R258, R371, R374, R389, R397, R417, R434). -/

namespace Sys2Proof.Machine

/-- How an access to a register ends: no map defines the index, the level is too low, or a result. -/
inductive RegRes (α : Type) where
  | undefined
  | priv
  | ok (a : α)

/-- A register of the device and not of one chip. -/
def isDevReg (idx : Nat) : Bool := decide (0x4300 ≤ idx) && decide (idx < 0x6000)

/-! ### Reads -/

/-- PART (R226). -/
def partWord : Nat := 0x4C56394131390000

/-- QCTL (R257, R258). -/
def Chip.qctl (c : Chip) (q : Nat) : Nat :=
  let k := vget c.queues q
  let holds := (c.launches.any fun l => l.1 / 1024 == q) || k.head != k.tail
  let state := if !k.en then 0 else if k.err then 3 else if holds then 2 else 1
  state * 2 ^ 13 + k.lg * 2 ^ 8 + bitNat k.dev * 2 ^ 5 + bitNat k.en * 2 ^ 4 + k.prio

/-- The four registers of queue q. -/
def Chip.queueReg (c : Chip) (q which : Nat) : Nat :=
  match which with
  | 0 => (vget c.queues q).base.toNat
  | 1 => c.qctl q
  | 2 => (vget c.queues q).head
  | _ => (vget c.queues q).tail

/-- CCSTAT (R266). -/
def CcRegs.word (r : CcRegs) : Nat := r.offs * 2 ^ 16 + r.cause * 2 ^ 8 + bitNat r.limit * 4 + bitNat r.drop * 2 + bitNat r.stop

/-- MIGCTL (R389). -/
def Mig.ctl (m : Mig) : Nat := bitNat m.en * 2 ^ 63 + m.tdev * 2 ^ 15 + m.tslot * 2 ^ 10

/-- MIGSTAT (R389). -/
def Mig.stat (m : Mig) (dsch : Bool) : Nat :=
  bitNat m.busy * 2 ^ 63 + bitNat m.fail * 2 ^ 62 + bitNat dsch * 2 ^ 61 + m.rounds * 2 ^ 32 + m.pages

/-- The staged registers of a region (R375). -/
def Chip.regionReg (c : Chip) (n which : Nat) : Nat :=
  let r := Tab.getD c.tide.staged n Region.zero
  match which with
  | 0 => r.base.toNat
  | 1 => r.win.toNat
  | 2 => r.ctl.toNat
  | _ => r.flag.toNat

/-- RXCTL (R371). -/
def RxTag.ctl (r : RxTag) : Nat := bitNat r.v * 2 ^ 63 + r.next * 2 ^ 24 + r.drop * 2 ^ 16 + r.busy.toNat * 2 ^ 8 + r.nslot

/-- CAPCTL(n): both bits of an entry whose EXPERT bit is 1 (R434). -/
def Chip.capctl (c : Chip) (n : Nat) : Nat :=
  match n with
  | 3 => bitNat c.overOk * 2 + bitNat c.overEn
  | 4 => bitNat c.scopeOk * 2 + bitNat c.scopeEn
  | _ => 0

/-- Block 0x1 (R257, R389). -/
def State.readSched (s : State) (key : Nat) (c : Chip) (idx : Nat) : Nat :=
  if idx < 0x1100 then c.queueReg ((idx - 0x1000) / 4) (idx % 4)
  else if idx < 0x1140 then (vget c.lt (idx - 0x1100)).value.toNat
  else
    match idx with
    | 0x1140 => c.cores % 2 ^ 20 + bitNat c.sliced * 2 ^ 20
    | 0x1141 => c.slice.toNat
    | 0x1142 => c.wbudget.toNat
    | 0x1143 => (c.waitRun.filter fun r => (clusterCores (c.cores % 2 ^ 20)).getLsbD r.1).foldl (fun n r => max n r.2) 0
    | 0x1144 => c.snapa.toNat
    | 0x1145 => c.xlfault.toNat
    | 0x1146 => c.cc.entry.toNat
    | 0x1147 => c.cc.area.toNat
    | 0x1148 => c.cc.word
    | 0x1150 => c.mig.ctl
    | 0x1151 => c.mig.bmp.toNat
    | _ => c.mig.stat (s.dsch key c)

/-- Block 0x2 (R397). -/
def Trap.reg (t : Trap) (idx : Nat) : Nat :=
  match idx with
  | 0x2000 => t.tcbase.toNat
  | 0x2001 => t.tcsize
  | 0x2002 => t.tfbase.toNat
  | 0x2003 => bitNat t.en * 2 ^ 63 + bitNat t.lerr * 2 ^ 62 + t.tfn
  | 0x2004 => t.frames.length
  | 0x2005 => t.fqbase.toNat
  | 0x2006 => t.fqhead
  | 0x2007 => t.fqtail
  | _ => t.csarea.toNat

/-- Block 0x3 (R374). -/
def Chip.readTide (c : Chip) (idx : Nat) : Nat :=
  if idx < 0x3100 then c.regionReg ((idx - 0x3000) / 4) (idx % 4)
  else
    match idx with
    | 0x3100 => bitNat c.tide.lost * 4 + bitNat c.tide.err * 2 + bitNat c.tide.pend
    | 0x3101 => c.tide.qbase.toNat
    | 0x3102 => c.tide.qhead
    | 0x3103 => c.tide.qtail
    | 0x3110 => c.tide.tibq
    | _ => c.tide.tlog

/-- The chip's own registers of block 0x4 (R371). -/
def Chip.readInbox (c : Chip) (idx : Nat) : Nat :=
  if idx < 0x4100 then (if idx % 2 = 0 then (vget c.mbxBase ((idx - 0x4000) / 2)).toNat else vget c.mbxSize ((idx - 0x4000) / 2))
  else
    let r := Tab.getD c.rx ((idx - 0x4100) / 2) RxTag.reset
    if idx % 2 = 0 then r.base.toNat else r.ctl

/-- KSINFO(n) (R417). -/
def KeySlot.info (k : KeySlot) : Nat :=
  k.state * 2 ^ 60 + k.kind * 2 ^ 56 + bitNat k.drain * 2 ^ 55 + k.guest * 2 ^ 40 + k.chipA * 2 ^ 30 + k.chipB * 2 ^ 20 + bitNat k.prot * 2 ^ 19

/-- A multicast set of a guest. -/
def State.mcset (s : State) (guest n : Nat) : Nat := ((Tab.find s.guests guest).map fun g => (Tab.getD g.mcset n 0).toNat).getD 0

/-- Registers of a device (R371, R417). Write-only registers read 0. -/
def State.readDev (s : State) (d : Device) (mcGuest idx : Nat) : Nat :=
  if inBlock idx 0x4400 0x40 then s.mcset mcGuest (idx - 0x4400)
  else if inBlock idx 0x5020 0x20 then (d.iface (idx - 0x5020)).reason * 2 ^ 8 + (d.iface (idx - 0x5020)).state.code
  else if inBlock idx 0x5040 0x20 then Tab.getD d.sealCnt (idx - 0x5040) 0
  else if inBlock idx 0x5060 0x20 then (Tab.getD d.stagBase (idx - 0x5060) 0).toNat
  else if inBlock idx 0x5200 0x200 then (d.key (idx - 0x5200)).info
  else
    match idx with
    | 0x4300 => d.samring.toNat
    | 0x4301 => d.samtail
    | 0x4302 => d.samhead
    | 0x4310 => bitNat d.gselErr * 2 ^ 63 + d.gselChip * 2 ^ 12 + d.gselGuest
    | 0x4311 => ((s.chip? (chipKey d.gselGuest d.gselChip)).map Chip.inlogSize).getD 0
    | 0x4312 => d.fabErr
    | 0x4313 => d.live.toNat
    | 0x5001 => bitNat d.ksBusy * 2 ^ 63 + d.ksResult
    | 0x5010 => d.dbgReq.toNat
    | 0x5011 => d.dbgStat
    | _ => 0

/-- The word of a defined index, for a chip. `core` is the issuing core. -/
def State.readReg (s : State) (key : Nat) (c : Chip) (core : Option CoreRef) (lv : Level) (idx : Nat) : Nat :=
  if idx < 0x1000 then
    match idx with
    | 0 => match core with | some r => s.cycle r | none => ((s.dev? c.dev).map Device.cycle0).getD 0
    | 1 => (core.map fun r => dieOf r.core).getD 0
    | 2 => (core.map CoreRef.core).getD 0
    | _ => partWord
  else if idx < 0x2000 then s.readSched key c idx
  else if idx < 0x3000 then c.trap.reg idx
  else if idx < 0x4000 then c.readTide idx
  else if idx < 0x4300 then c.readInbox idx
  else if idx < 0x6000 then
    match s.dev? c.dev with
    | some d => s.readDev d (if levelCode lv < levelCode .host then c.guest else d.gselGuest) idx
    | none => 0
  else if idx < 0x6800 then capBody ((idx - 0x6000) / 16) (idx % 16)
  else c.capctl (idx - 0x6800)

/-- A read of a register by a level (R225). -/
def State.sysRead (s : State) (key : Nat) (core : Option CoreRef) (lv : Level) (idx : Nat) : RegRes Nat :=
  match s.chip? key with
  | none => .undefined
  | some c =>
    match regLevels c.slot idx with
    | none => .undefined
    | some (rd, _) => if levelCode lv < levelCode rd then .priv else .ok (s.readReg key c core lv idx)

/-! ### Writes -/

/-- QCTL (R257, R258). -/
def Queue.writeCtl (k : Queue) (v : Nat) : Queue :=
  let en := v.testBit 4
  let lg := if k.en then k.lg else bitsOf v 11 8
  if !k.en && en && !(decide (4 ≤ lg) && decide (lg ≤ 10)) then k
  else { k with en, lg, dev := v.testBit 5, prio := v % 8, err := k.err && !v.testBit 12 }

/-- What an event leaves of a state: itself where it does not happen. -/
def Ans.state (a : Ans) (s : State) : State := match a with | .next t => t | _ => s

/-- A queue's registers. -/
def State.writeQueue (s : State) (key q which : Nat) (v : DWord) (firm : Bool) : State :=
  match which with
  | 0 => s.updChip key fun c =>
      let k := vget c.queues q
      if k.en then c else { c with queues := vset c.queues q { k with base := v &&& ~~~0xFFF } }
  | 1 => s.updChip key fun c => { c with queues := vset c.queues q ((vget c.queues q).writeCtl v.toNat) }
  | 3 => s.updChip key fun c => { c with queues := vset c.queues q ((vget c.queues q).writeTail v.toNat firm) }
  | _ => s

/-- Block 0x1. A firmware-level context's write of a queue's tail marks the records that it hands over (R81, R257). -/
def State.writeSched (s : State) (key : Nat) (lv : Level) (idx : Nat) (v : DWord) : State :=
  if idx < 0x1100 then s.writeQueue key ((idx - 0x1000) / 4) (idx % 4) v (lv == .firmware)
  else if idx < 0x1140 then Ans.state (execLtWrite key (idx - 0x1100) v s) s
  else
    match idx with
    | 0x1140 => s.writeCores key v
    | 0x1141 => s.updChip key fun c => { c with slice := v }
    | 0x1142 => s.updChip key fun c => { c with wbudget := v }
    | 0x1144 => s.updChip key fun c => { c with snapa := v &&& ~~~0xFFF }
    | 0x1145 => if v = 1 then Ans.state (execXlfaultRetry key s) s else if v = 2 then Ans.state (execXlfaultAbort key s) s else s
    | 0x1146 => s.updChip key fun c => { c with cc := { c.cc with entry := v &&& ~~~3 } }
    | 0x1147 => s.updChip key fun c => { c with cc := { c.cc with area := v &&& ~~~0xFFFF } }
    | 0x1148 => s.updChip key fun c => { c with cc := c.cc.clear v }
    | 0x1150 => s.writeMigctl key v
    | 0x1151 => s.updChip key fun c => { c with mig := { c.mig with bmp := v &&& ~~~7 } }
    | _ => s

/-- Block 0x2: while EN = 1, TCBASE, TCSIZE and TFBASE stay (R397). -/
def Chip.writeTrap (c : Chip) (idx : Nat) (v : DWord) : Chip :=
  let t := c.trap
  match idx with
  | 0x2000 => if t.en then c else { c with trap := { t with tcbase := v &&& ~~~0xFFFF } }
  | 0x2001 => if t.en then c else { c with trap := { t with tcsize := v.toNat % 512 } }
  | 0x2002 => if t.en then c else { c with trap := { t with tfbase := v &&& ~~~0xFFFF } }
  | 0x2003 => c.writeTctl v
  | 0x2005 => { c with trap := { t with fqbase := v &&& ~~~0xFFF } }
  | 0x2006 => { c with trap := { t with fqhead := v.toNat % 64 } }
  | _ => c

/-- Block 0x3. -/
def State.writeTide (s : State) (key idx : Nat) (v : DWord) : State :=
  if idx < 0x3100 then s.writeRegion key ((idx - 0x3000) / 4) (idx % 4) v
  else
    match idx with
    | 0x3100 => s.updChip key fun c => { c with tide := { c.tide with lost := c.tide.lost && !v.getLsbD 2, err := c.tide.err && !v.getLsbD 1 } }
    | 0x3101 => s.updChip key fun c => { c with tide := { c.tide with qbase := v &&& ~~~0xFFF } }
    | 0x3102 => s.updChip key fun c => { c with tide := { c.tide with qhead := v.toNat % 128 } }
    | 0x3110 => s.writeTibq key v
    | 0x3111 => Ans.state (execTlogWrite key v s) s
    | _ => s

/-- The chip's own registers of block 0x4. -/
def Chip.writeInbox (c : Chip) (idx : Nat) (v : DWord) : Chip :=
  if idx < 0x4100 then
    let r := (idx - 0x4000) / 2
    if idx % 2 = 0 then c.writeMbxBase r v else c.writeMbxSize r v
  else
    let t := (idx - 0x4100) / 2
    if idx % 2 = 0 then c.writeRxBase t v else c.writeRxctl t v

/-- Registers of a device. -/
def State.writeDev (s : State) (dev idx : Nat) (v : DWord) : State :=
  if inBlock idx 0x4400 0x40 then Ans.state (execMcsetWrite dev (idx - 0x4400) v s) s
  else if inBlock idx 0x5008 8 then s.updDev dev fun d => { d with keyData := vset d.keyData (idx - 0x5008) v }
  else
    match idx with
    | 0x4300 => s.updDev dev fun d => { d with samring := v &&& ~~~0xFFF }
    | 0x4301 => Ans.state (execSamtailWrite dev v s) s
    | 0x4310 => Ans.state (execGselWrite dev v s) s
    | 0x4311 =>
      match s.dev? dev with
      | some d => s.updChip (chipKey d.gselGuest d.gselChip) fun c => if c.descheduled then { c with inlogSize := v.toNat % 2 ^ 24 } else c
      | none => s
    | 0x4312 => s.updDev dev fun d => { d with fabErr := (BitVec.ofNat 32 d.fabErr &&& ~~~(v.setWidth 32)).toNat }
    | 0x5000 => s.writeKscmd dev v
    | 0x5010 => Ans.state (execDebugUnlockRequest dev v s) s
    | _ => s

/-- CAPCTL(n) (R434): HOSTOK is the host's to write; EN needs HOSTOK; none is PRIV. -/
def Chip.writeCapctl (c : Chip) (n : Nat) (v : DWord) (lv : Level) : Option Chip :=
  let host := decide (levelCode .host ≤ levelCode lv)
  let bits (ok : Bool) : Option (Bool × Bool) :=
    if v.getLsbD 0 && !ok then none
    else
      let ok' := if host then v.getLsbD 1 else ok
      some (ok', v.getLsbD 0 && ok')
  match n with
  | 3 => (bits c.overOk).map fun b => { c with overOk := b.1, overEn := b.2 }
  | 4 => (bits c.scopeOk).map fun b => { c with scopeOk := b.1, scopeEn := b.2 }
  | _ => some c

/-- The state after a write of a defined index, for a chip. -/
def State.writeReg (s : State) (key : Nat) (c : Chip) (lv : Level) (idx : Nat) (v : DWord) : RegRes State :=
  if idx < 0x1000 then .ok s
  else if idx < 0x2000 then .ok (s.writeSched key lv idx v)
  else if idx < 0x3000 then .ok (s.updChip key fun c => c.writeTrap idx v)
  else if idx < 0x4000 then .ok (s.writeTide key idx v)
  else if idx < 0x4300 then .ok (s.updChip key fun c => c.writeInbox idx v)
  else if idx < 0x6000 then .ok (s.writeDev c.dev idx v)
  else if idx < 0x6800 then .ok s
  else match c.writeCapctl (idx - 0x6800) v lv with
    | some c' => .ok (s.updChip key fun _ => c')
    | none => .priv

/-- A write of a register by a level (R225). -/
def State.sysWrite (s : State) (key : Nat) (lv : Level) (idx : Nat) (v : DWord) : RegRes State :=
  match s.chip? key with
  | none => .undefined
  | some c =>
    match regLevels c.slot idx with
    | none => .undefined
    | some (_, wr) => if levelCode lv < levelCode wr then .priv else s.writeReg key c lv idx v

/-! ### SYSR, SYSW and writes of the host interface -/

/-- SYSR (R225). An index above 65535 is one that no map defines, here and in SYSW (log entry 130). -/
def execSysr (x : Ops) (s : State) : Ans :=
  issue s (.sysr x) x fun c s =>
    match s.sysRead c.chip (some c.core) c.g.pl (c.once c.vb) with
    | .ok v => c.value s fun _ => v
    | .priv => c.trap cPriv
    | .undefined => c.trap cIllegalOperand

/-- SYSW (R225). -/
def execSysw (x : Ops) (s : State) : Ans :=
  issue s (.sysw x) x fun c s =>
    match s.sysWrite c.chip c.g.pl (c.once c.vb) (BitVec.ofNat 64 (c.once c.va)) with
    | .ok t => .ok { s := t }
    | .priv => c.trap cPriv
    | .undefined => c.trap cIllegalOperand

/-- A write that comes through the host interface reaches a chip's register (R9, R419): the host never reaches what is a protected chip's own,
only what its level alone may write (placement and quotas) and its permissions of R434; the guest's software comes over the chip's own IDE stream. -/
def State.outsideMay (s : State) (key : Nat) (level : Level) (idx : Nat) (tbit : Bool) : Bool :=
  match s.chip? key with
  | none => true
  | some c =>
    !c.prot || match level with
      | .firmware => true
      | .host => match regLevels c.slot idx with | some (_, wr) => decide (levelCode .host ≤ levelCode wr) || inBlock idx 0x6800 0x80 | none => true
      | _ => s.hostMay c tbit

/-- CAPCTL_WRITE (R434): one that takes PRIV changes nothing. -/
def execCapctlWrite (chip n : Nat) (value : DWord) (level : Level) (s : State) : Ans :=
  if 127 < n then notEnabled s
  else
    match s.chip? chip with
    | none => notEnabled s
    | some _ => match s.outsideMay chip level (0x6800 + n) true, s.sysWrite chip level (0x6800 + n) value with
      | true, .ok t => .next t
      | _, _ => .next s

/-- REGISTER_WRITE (R9, R225, R436): a write by a level of a register of a chip, or of a device that has completed bring-up (R436); a level too
low, or one that does not reach the register of a protected chip, changes nothing. -/
def execRegisterWrite (place : RegPlace) (index : Nat) (value : DWord) (level : Level) (s : State) : Ans :=
  match place with
  | .chip key tbit =>
    match s.sysWrite key level index value with
    | .ok t => .next (if s.outsideMay key level index tbit then t else s)
    | .priv => .next s
    | .undefined => notEnabled s
  | .device dev =>
    match s.dev? dev with
    | none => notEnabled s
    | some d =>
      if !isDevReg index || (regLevels 32 index).isNone then notEnabled s
      else .next (if d.ready && decide (levelCode .host ≤ levelCode level) then s.writeDev dev index value else s)
  | .vfEnable dev =>
    match s.dev? dev with
    | none => notEnabled s
    | some d => .next (if d.ready then s.updDev dev fun d => { d with vfEnable := value.getLsbD 0 } else s)

/-! ### What the host reads (R419, R420, R436) -/

/-- BOOTSTAT (R436). -/
def Device.bootstat (d : Device) : Nat := d.stage * 2 ^ 56 + d.bootErr * 2 ^ 48 + bitNat d.ready

/-- BAR0 of PF 0 AT AN OFFSET (R436): BOOTSTAT, PART and SERIAL always; until firmware completes every other offset reads 0, and then reaches a
register whose offset the spec does not give. -/
def State.bar0 (s : State) (dev off : Nat) : Option Nat :=
  match s.dev? dev with
  | none => none
  | some d =>
    match off with
    | 0x0000 => some d.bootstat
    | 0x0008 => some partWord
    | 0x0010 => some (Config.serial dev).toNat
    | _ => if d.ready then none else some 0

/-- A register of a chip as a request of the host interface reads it (R225, R419): all ones where a protected chip takes no such request. -/
def State.outsideRead (s : State) (key : Nat) (level : Level) (idx : Nat) (tbit : Bool) : RegRes Nat :=
  if s.outsideMay key level idx tbit then s.sysRead key none level idx else .ok (2 ^ 64 - 1)

/-- Debug access reaches a chip: its device is unlocked, and the chip is an ordinary one (R420). -/
def State.debugMay (s : State) (key : Nat) : Option Chip :=
  match s.chip? key with
  | some c => if !c.prot && ((s.dev? c.dev).map Device.unlocked).getD false then some c else none
  | none => none

/-- Debug access reads a chip's registers at firmware level (R420). -/
def State.debugSysr (s : State) (key idx : Nat) : RegRes Nat :=
  if (s.debugMay key).isSome then s.sysRead key none .firmware idx else .undefined

/-- Debug access reads the array image of a task, as MSAVE writes it, in clear (R420). -/
def State.debugArray (s : State) (key task : Nat) : Option (List Byte) :=
  (s.debugMay key).bind fun c => (Tab.find c.tasks task).map fun t => t.arr.image

/-- Debug access reads the gang images of a task in clear (R407, R420). -/
def State.debugGang (s : State) (key task gang : Nat) : Option (List Byte) :=
  (s.debugMay key).bind fun c => (Tab.find c.tasks task).bind fun t => (Tab.find t.gangs gang).map Gang.savedImage

end Sys2Proof.Machine
end

