-- ==== Sys2Proof/Machine/Dispatch.lean ====
section
/-! DEFINITION. Dispatch: one arm for each constructor of `Instr`, each one direct call of that instruction's meaning. -/

namespace Sys2Proof.Machine

/-- The effect of an instruction or of a step of the hardware. -/
def exec (i : Instr) (s : State) : Host.Outcome State Fault Refusal :=
  match i with
  | .fillWord => Sys2Proof.Machine.execFillWord s
  | .iadd x => Sys2Proof.Machine.execIadd x s
  | .isub x => Sys2Proof.Machine.execIsub x s
  | .iaddc x => Sys2Proof.Machine.execIaddc x s
  | .imul x => Sys2Proof.Machine.execImul x s
  | .imin x => Sys2Proof.Machine.execImin x s
  | .imax x => Sys2Proof.Machine.execImax x s
  | .iabs x => Sys2Proof.Machine.execIabs x s
  | .imad x => Sys2Proof.Machine.execImad x s
  | .shl x => Sys2Proof.Machine.execShl x s
  | .shr x => Sys2Proof.Machine.execShr x s
  | .rot x => Sys2Proof.Machine.execRot x s
  | .and x => Sys2Proof.Machine.execAnd x s
  | .or x => Sys2Proof.Machine.execOr x s
  | .xor x => Sys2Proof.Machine.execXor x s
  | .not x => Sys2Proof.Machine.execNot x s
  | .popc x => Sys2Proof.Machine.execPopc x s
  | .clz x => Sys2Proof.Machine.execClz x s
  | .ctz x => Sys2Proof.Machine.execCtz x s
  | .brev x => Sys2Proof.Machine.execBrev x s
  | .bfe x => Sys2Proof.Machine.execBfe x s
  | .bfi x => Sys2Proof.Machine.execBfi x s
  | .bternTableBit7Clear x => Sys2Proof.Machine.execBternTableBit7Clear x s
  | .bternTableBit7Set x => Sys2Proof.Machine.execBternTableBit7Set x s
  | .icmp x => Sys2Proof.Machine.execIcmp x s
  | .isel x => Sys2Proof.Machine.execIsel x s
  | .lea x => Sys2Proof.Machine.execLea x s
  | .mov x => Sys2Proof.Machine.execMov x s
  | .movi x => Sys2Proof.Machine.execMovi x s
  | .movu x => Sys2Proof.Machine.execMovu x s
  | .icvt x => Sys2Proof.Machine.execIcvt x s
  | .movs x => Sys2Proof.Machine.execMovs x s
  | .pset x => Sys2Proof.Machine.execPset x s
  | .plop x => Sys2Proof.Machine.execPlop x s
  | .pmov x => Sys2Proof.Machine.execPmov x s
  | .sadd x => Sys2Proof.Machine.execSadd x s
  | .smul x => Sys2Proof.Machine.execSmul x s
  | .smov x => Sys2Proof.Machine.execSmov x s
  | .sld x => Sys2Proof.Machine.execSld x s
  | .scmp x => Sys2Proof.Machine.execScmp x s
  | .bra x => Sys2Proof.Machine.execBra x s
  | .call x => Sys2Proof.Machine.execCall x s
  | .brx x => Sys2Proof.Machine.execBrx x s
  | .ret x => Sys2Proof.Machine.execRet x s
  | .exit x => Sys2Proof.Machine.execExit x s
  | .yield x => Sys2Proof.Machine.execYield x s
  | .nop x => Sys2Proof.Machine.execNop x s
  | .shfl x => Sys2Proof.Machine.execShfl x s
  | .vote x => Sys2Proof.Machine.execVote x s
  | .matchLanes x => Sys2Proof.Machine.execMatchLanes x s
  | .lredux x => Sys2Proof.Machine.execLredux x s
  | .lprfx x => Sys2Proof.Machine.execLprfx x s
  | .elect x => Sys2Proof.Machine.execElect x s
  | .uniassert x => Sys2Proof.Machine.execUniassert x s
  | .fadd x => Sys2Proof.Machine.execFadd x s
  | .fsub x => Sys2Proof.Machine.execFsub x s
  | .fmul x => Sys2Proof.Machine.execFmul x s
  | .ffma x => Sys2Proof.Machine.execFfma x s
  | .ffmaF64Short x => Sys2Proof.Machine.execFfmaF64Short x s
  | .fdiv x => Sys2Proof.Machine.execFdiv x s
  | .fsqrt x => Sys2Proof.Machine.execFsqrt x s
  | .fmin x => Sys2Proof.Machine.execFmin x s
  | .fmax x => Sys2Proof.Machine.execFmax x s
  | .frcp x => Sys2Proof.Machine.execFrcp x s
  | .frsq x => Sys2Proof.Machine.execFrsq x s
  | .fex2 x => Sys2Proof.Machine.execFex2 x s
  | .flg2 x => Sys2Proof.Machine.execFlg2 x s
  | .fsin x => Sys2Proof.Machine.execFsin x s
  | .fcos x => Sys2Proof.Machine.execFcos x s
  | .fcmp x => Sys2Proof.Machine.execFcmp x s
  | .fclass x => Sys2Proof.Machine.execFclass x s
  | .frnd x => Sys2Proof.Machine.execFrnd x s
  | .fgetexp x => Sys2Proof.Machine.execFgetexp x s
  | .fldexp x => Sys2Proof.Machine.execFldexp x s
  | .fcpys x => Sys2Proof.Machine.execFcpys x s
  | .fcvt x => Sys2Proof.Machine.execFcvt x s
  | .f2i x => Sys2Proof.Machine.execF2i x s
  | .i2f x => Sys2Proof.Machine.execI2f x s
  | .fstat x => Sys2Proof.Machine.execFstat x s
  | .pkadd x => Sys2Proof.Machine.execPkadd x s
  | .pkfma x => Sys2Proof.Machine.execPkfma x s
  | .dot4 x => Sys2Proof.Machine.execDot4 x s
  | .dot2 x => Sys2Proof.Machine.execDot2 x s
  | .ld x => Sys2Proof.Machine.execLd x s
  | .lds x => Sys2Proof.Machine.execLds x s
  | .ldc x => Sys2Proof.Machine.execLdc x s
  | .st x => Sys2Proof.Machine.execSt x s
  | .sts x => Sys2Proof.Machine.execSts x s
  | .ldf x => Sys2Proof.Machine.execLdf x s
  | .stf x => Sys2Proof.Machine.execStf x s
  | .testf x => Sys2Proof.Machine.execTestf x s
  | .atom x => Sys2Proof.Machine.execAtom x s
  | .atomCas x => Sys2Proof.Machine.execAtomCas x s
  | .red x => Sys2Proof.Machine.execRed x s
  | .fence x => Sys2Proof.Machine.execFence x s
  | .ifence x => Sys2Proof.Machine.execIfence x s
  | .awin x => Sys2Proof.Machine.execAwin x s
  | .isspace x => Sys2Proof.Machine.execIsspace x s
  | .pref x => Sys2Proof.Machine.execPref x s
  | .barInit x => Sys2Proof.Machine.execBarInit x s
  | .barArrive x => Sys2Proof.Machine.execBarArrive x s
  | .barExpect x => Sys2Proof.Machine.execBarExpect x s
  | .barWait x => Sys2Proof.Machine.execBarWait x s
  | .barTest x => Sys2Proof.Machine.execBarTest x s
  | .tlwait x => Sys2Proof.Machine.execTlwait x s
  | .tlread x => Sys2Proof.Machine.execTlread x s
  | .scopew x => Sys2Proof.Machine.execScopew x s
  | .scopebind x => Sys2Proof.Machine.execScopebind x s
  | .scopeq x => Sys2Proof.Machine.execScopeq x s
  | .scoperet x => Sys2Proof.Machine.execScoperet x s
  | .hmk x => Sys2Proof.Machine.execHmk x s
  | .cpy x => Sys2Proof.Machine.execCpy x s
  | .cpyg x => Sys2Proof.Machine.execCpyg x s
  | .wld x => Sys2Proof.Machine.execWld x s
  | .wsel x => Sys2Proof.Machine.execWsel x s
  | .mma x => Sys2Proof.Machine.execMma x s
  | .mmam x => Sys2Proof.Machine.execMmam x s
  | .aclr x => Sys2Proof.Machine.execAclr x s
  | .adrn x => Sys2Proof.Machine.execAdrn x s
  | .epld x => Sys2Proof.Machine.execEpld x s
  | .msave x => Sys2Proof.Machine.execMsave x s
  | .mres x => Sys2Proof.Machine.execMres x s
  | .qnt x => Sys2Proof.Machine.execQnt x s
  | .qwait x => Sys2Proof.Machine.execQwait x s
  | .mld x => Sys2Proof.Machine.execMld x s
  | .mst x => Sys2Proof.Machine.execMst x s
  | .mset x => Sys2Proof.Machine.execMset x s
  | .mmov x => Sys2Proof.Machine.execMmov x s
  | .madd x => Sys2Proof.Machine.execMadd x s
  | .msub x => Sys2Proof.Machine.execMsub x s
  | .mmul x => Sys2Proof.Machine.execMmul x s
  | .mscl x => Sys2Proof.Machine.execMscl x s
  | .mfma x => Sys2Proof.Machine.execMfma x s
  | .mrelu x => Sys2Proof.Machine.execMrelu x s
  | .mexp x => Sys2Proof.Machine.execMexp x s
  | .msigm x => Sys2Proof.Machine.execMsigm x s
  | .mtanh x => Sys2Proof.Machine.execMtanh x s
  | .mrcp x => Sys2Proof.Machine.execMrcp x s
  | .mcol x => Sys2Proof.Machine.execMcol x s
  | .tst x => Sys2Proof.Machine.execTst x s
  | .tred x => Sys2Proof.Machine.execTred x s
  | .tideClose x => Sys2Proof.Machine.execTideClose x s
  | .tideWait x => Sys2Proof.Machine.execTideWait x s
  | .tideQuery x => Sys2Proof.Machine.execTideQuery x s
  | .rld x => Sys2Proof.Machine.execRld x s
  | .ratom x => Sys2Proof.Machine.execRatom x s
  | .send x => Sys2Proof.Machine.execSend x s
  | .arm x => Sys2Proof.Machine.execArm x s
  | .disarm x => Sys2Proof.Machine.execDisarm x s
  | .launch x => Sys2Proof.Machine.execLaunch x s
  | .hint x => Sys2Proof.Machine.execHint x s
  | .trap x => Sys2Proof.Machine.execTrap x s
  | .tret x => Sys2Proof.Machine.execTret x s
  | .csave x => Sys2Proof.Machine.execCsave x s
  | .crest x => Sys2Proof.Machine.execCrest x s
  | .sysr x => Sys2Proof.Machine.execSysr x s
  | .sysw x => Sys2Proof.Machine.execSysw x s
  | .cap x => Sys2Proof.Machine.execCap x s
  | .halt x => Sys2Proof.Machine.execHalt x s
  | .evqPop x => Sys2Proof.Machine.execEvqPop x s
  | .trel x => Sys2Proof.Machine.execTrel x s
  | .byteAbsDiffSum x => Sys2Proof.Machine.execByteAbsDiffSum x s
  | .unassignedOpcode w => Sys2Proof.Machine.execUnassignedOpcode w s
  | .retiredOperation k x => Sys2Proof.Machine.execRetiredOperation k x s
  | .resultArrival g k => Sys2Proof.Machine.execResultArrival g k s
  | .registerAllocation g lanes => Sys2Proof.Machine.execRegisterAllocation g lanes s
  | .spillComplete g => Sys2Proof.Machine.execSpillComplete g s
  | .gangRefill g => Sys2Proof.Machine.execGangRefill g s
  | .bundleReformation core sub => Sys2Proof.Machine.execBundleReformation core sub s
  | .ldfWaitEnd g lanes => Sys2Proof.Machine.execLdfWaitEnd g lanes s
  | .barWaitEnd g lanes => Sys2Proof.Machine.execBarWaitEnd g lanes s
  | .tlwaitEnd g lanes => Sys2Proof.Machine.execTlwaitEnd g lanes s
  | .qwaitEnd g lanes => Sys2Proof.Machine.execQwaitEnd g lanes s
  | .tideWaitEnd g lanes => Sys2Proof.Machine.execTideWaitEnd g lanes s
  | .tideCloseUnblock g lanes => Sys2Proof.Machine.execTideCloseUnblock g lanes s
  | .msaveDone g lanes => Sys2Proof.Machine.execMsaveDone g lanes s
  | .mresDone g lanes => Sys2Proof.Machine.execMresDone g lanes s
  | .copyStart core k => Sys2Proof.Machine.execCopyStart core k s
  | .copyByteLanding core k n => Sys2Proof.Machine.execCopyByteLanding core k n s
  | .copyFollowOnEntry core k => Sys2Proof.Machine.execCopyFollowOnEntry core k s
  | .copyComplete core k => Sys2Proof.Machine.execCopyComplete core k s
  | .wldExecute core => Sys2Proof.Machine.execWldExecute core s
  | .wselLatch core => Sys2Proof.Machine.execWselLatch core s
  | .mmaPass core => Sys2Proof.Machine.execMmaPass core s
  | .aclrExecute core => Sys2Proof.Machine.execAclrExecute core s
  | .epldLoad core => Sys2Proof.Machine.execEpldLoad core s
  | .drain core => Sys2Proof.Machine.execDrain core s
  | .matrixCommandComplete core => Sys2Proof.Machine.execMatrixCommandComplete core s
  | .qntExecute dev die => Sys2Proof.Machine.execQntExecute dev die s
  | .qntComplete dev die => Sys2Proof.Machine.execQntComplete dev die s
  | .lovageService dev die => Sys2Proof.Machine.execLovageService dev die s
  | .taskDispatch chip handle task core base priv => Sys2Proof.Machine.execTaskDispatch chip handle task core base priv s
  | .taskRetire chip task => Sys2Proof.Machine.execTaskRetire chip task s
  | .taskMigration chip task core base => Sys2Proof.Machine.execTaskMigration chip task core base s
  | .sliceExpiry chip => Sys2Proof.Machine.execSliceExpiry chip s
  | .taskResume chip task core base => Sys2Proof.Machine.execTaskResume chip task core base s
  | .arrivalHintReceive dev chip peer => Sys2Proof.Machine.execArrivalHintReceive dev chip peer s
  | .hintAgreementTimeout dev chip => Sys2Proof.Machine.execHintAgreementTimeout dev chip s
  | .waitBudgetExpiry chip core => Sys2Proof.Machine.execWaitBudgetExpiry chip core s
  | .qtailWrite chip q value => Sys2Proof.Machine.execQtailWrite chip q value s
  | .queueResume chip q => Sys2Proof.Machine.execQueueResume chip q s
  | .launchAcceptance chip q => Sys2Proof.Machine.execLaunchAcceptance chip q s
  | .launchTranslation chip handle => Sys2Proof.Machine.execLaunchTranslation chip handle s
  | .xlfaultRetry chip => Sys2Proof.Machine.execXlfaultRetry chip s
  | .xlfaultAbort chip => Sys2Proof.Machine.execXlfaultAbort chip s
  | .ltWrite chip n value => Sys2Proof.Machine.execLtWrite chip n value s
  | .eventRecordPost core chip => Sys2Proof.Machine.execEventRecordPost core chip s
  | .controlRoutineEntry core chip => Sys2Proof.Machine.execControlRoutineEntry core chip s
  | .controlCoreLimit core => Sys2Proof.Machine.execControlCoreLimit core s
  | .ccstatWrite chip value => Sys2Proof.Machine.execCcstatWrite chip value s
  | .coresWrite chip value => Sys2Proof.Machine.execCoresWrite chip value s
  | .granuleMigration chip granule tier => Sys2Proof.Machine.execGranuleMigration chip granule tier s
  | .granuleMigrationComplete chip granule => Sys2Proof.Machine.execGranuleMigrationComplete chip granule s
  | .hostInvalidation chip page => Sys2Proof.Machine.execHostInvalidation chip page s
  | .hostAtomicOp chip addr op wide value cmp phase => Sys2Proof.Machine.execHostAtomicOp chip addr op wide value cmp phase s
  | .packetDeparture k => Sys2Proof.Machine.execPacketDeparture k s
  | .sendOutboundEntry core k => Sys2Proof.Machine.execSendOutboundEntry core k s
  | .sendPayloadRead chip k => Sys2Proof.Machine.execSendPayloadRead chip k s
  | .messageDelivery k => Sys2Proof.Machine.execMessageDelivery k s
  | .firedLaunchPlacement chip k => Sys2Proof.Machine.execFiredLaunchPlacement chip k s
  | .inboundLogConsume chip => Sys2Proof.Machine.execInboundLogConsume chip s
  | .rldServe k => Sys2Proof.Machine.execRldServe k s
  | .mailboxAtomicArrival k => Sys2Proof.Machine.execMailboxAtomicArrival k s
  | .remoteReplyArrival k => Sys2Proof.Machine.execRemoteReplyArrival k s
  | .tidalWriteArrival k => Sys2Proof.Machine.execTidalWriteArrival k s
  | .closeRecordArrival k => Sys2Proof.Machine.execCloseRecordArrival k s
  | .tideTurn chip => Sys2Proof.Machine.execTideTurn chip s
  | .samtailWrite dev value => Sys2Proof.Machine.execSamtailWrite dev value s
  | .hold dev => Sys2Proof.Machine.execHold dev s
  | .xfer dev => Sys2Proof.Machine.execXfer dev s
  | .wvct dev => Sys2Proof.Machine.execWvct dev s
  | .wrlt dev => Sys2Proof.Machine.execWrlt dev s
  | .release dev => Sys2Proof.Machine.execRelease dev s
  | .linkLaneLoss dev plane lanes => Sys2Proof.Machine.execLinkLaneLoss dev plane lanes s
  | .linkBufferRetire dev plane flits => Sys2Proof.Machine.execLinkBufferRetire dev plane flits s
  | .linkRetrainComplete dev plane => Sys2Proof.Machine.execLinkRetrainComplete dev plane s
  | .linkRepair dev plane => Sys2Proof.Machine.execLinkRepair dev plane s
  | .mcsetWrite dev n value => Sys2Proof.Machine.execMcsetWrite dev n value s
  | .gselWrite dev value => Sys2Proof.Machine.execGselWrite dev value s
  | .mbxbaseWrite chip n value => Sys2Proof.Machine.execMbxbaseWrite chip n value s
  | .mbxsizeWrite chip n value => Sys2Proof.Machine.execMbxsizeWrite chip n value s
  | .rxbaseWrite chip n value => Sys2Proof.Machine.execRxbaseWrite chip n value s
  | .rxctlWrite chip n value => Sys2Proof.Machine.execRxctlWrite chip n value s
  | .trbaseWrite chip n value => Sys2Proof.Machine.execTrbaseWrite chip n value s
  | .trwinWrite chip n value => Sys2Proof.Machine.execTrwinWrite chip n value s
  | .trctlWrite chip n value => Sys2Proof.Machine.execTrctlWrite chip n value s
  | .trflagWrite chip n value => Sys2Proof.Machine.execTrflagWrite chip n value s
  | .tlogWrite chip value => Sys2Proof.Machine.execTlogWrite chip value s
  | .migrationEnable chip value => Sys2Proof.Machine.execMigrationEnable chip value s
  | .migrationRound chip => Sys2Proof.Machine.execMigrationRound chip s
  | .migrationRoundComplete chip => Sys2Proof.Machine.execMigrationRoundComplete chip s
  | .migrationDisable chip => Sys2Proof.Machine.execMigrationDisable chip s
  | .trapEntry g => Sys2Proof.Machine.execTrapEntry g s
  | .trapHandlerEnable chip value => Sys2Proof.Machine.execTrapHandlerEnable chip value s
  | .trapHandlerDisable chip => Sys2Proof.Machine.execTrapHandlerDisable chip s
  | .faultRecordDelivery chip => Sys2Proof.Machine.execFaultRecordDelivery chip s
  | .fqheadWrite chip value => Sys2Proof.Machine.execFqheadWrite chip value s
  | .gen dev cmd => Sys2Proof.Machine.execGen dev cmd s
  | .load dev cmd => Sys2Proof.Machine.execLoad dev cmd s
  | .activate dev cmd => Sys2Proof.Machine.execActivate dev cmd s
  | .revoke dev cmd => Sys2Proof.Machine.execRevoke dev cmd s
  | .erase dev cmd => Sys2Proof.Machine.execErase dev cmd s
  | .keyReencryptComplete dev slot => Sys2Proof.Machine.execKeyReencryptComplete dev slot s
  | .linkCounterWarn dev slot => Sys2Proof.Machine.execLinkCounterWarn dev slot s
  | .linkCounterExhausted dev slot => Sys2Proof.Machine.execLinkCounterExhausted dev slot s
  | .lockInterface dev slot => Sys2Proof.Machine.execLockInterface dev slot s
  | .protectedCreationCommit dev slot => Sys2Proof.Machine.execProtectedCreationCommit dev slot s
  | .startInterface dev slot => Sys2Proof.Machine.execStartInterface dev slot s
  | .stopInterface dev slot => Sys2Proof.Machine.execStopInterface dev slot s
  | .tdispGetVersion dev slot => Sys2Proof.Machine.execTdispGetVersion dev slot s
  | .tdispGetCapabilities dev slot => Sys2Proof.Machine.execTdispGetCapabilities dev slot s
  | .getDeviceInterfaceReport dev slot => Sys2Proof.Machine.execGetDeviceInterfaceReport dev slot s
  | .getDeviceInterfaceState dev slot => Sys2Proof.Machine.execGetDeviceInterfaceState dev slot s
  | .configurationChange dev slot => Sys2Proof.Machine.execConfigurationChange dev slot s
  | .functionReset dev slot => Sys2Proof.Machine.execFunctionReset dev slot s
  | .spdmGetVersion dev request => Sys2Proof.Machine.execSpdmGetVersion dev request s
  | .spdmGetCapabilities dev request => Sys2Proof.Machine.execSpdmGetCapabilities dev request s
  | .negotiateAlgorithms dev request => Sys2Proof.Machine.execNegotiateAlgorithms dev request s
  | .getDigests dev request => Sys2Proof.Machine.execGetDigests dev request s
  | .getCertificate dev request => Sys2Proof.Machine.execGetCertificate dev request s
  | .challenge dev request => Sys2Proof.Machine.execChallenge dev request s
  | .getMeasurements dev request => Sys2Proof.Machine.execGetMeasurements dev request s
  | .keyExchange dev request => Sys2Proof.Machine.execKeyExchange dev request s
  | .finish dev request => Sys2Proof.Machine.execFinish dev request s
  | .debugUnlockRequest dev addr => Sys2Proof.Machine.execDebugUnlockRequest dev addr s
  | .debugTokenVerified dev verdict => Sys2Proof.Machine.execDebugTokenVerified dev verdict s
  | .capctlWrite chip n value level => Sys2Proof.Machine.execCapctlWrite chip n value level s
  | .deviceReset dev => Sys2Proof.Machine.execDeviceReset dev s
  | .bringUpStage dev err => Sys2Proof.Machine.execBringUpStage dev err s
  | .registerWrite place index value level => Sys2Proof.Machine.execRegisterWrite place index value level s
  | .coreClockReduction dev draw => Sys2Proof.Machine.execCoreClockReduction dev draw s
  | .haltedCoreResume core reset => Sys2Proof.Machine.execHaltedCoreResume core reset s
  | .chipCreation chip dev slot quota near => Sys2Proof.Machine.execChipCreation chip dev slot quota near s
  | .chipDestruction chip => Sys2Proof.Machine.execChipDestruction chip s
  | .deliveryAcknowledgement k => Sys2Proof.Machine.execDeliveryAcknowledgement k s
  | .atsPriResponse chip page answer => Sys2Proof.Machine.execAtsPriResponse chip page answer s
  | .ideKm dev slot => Sys2Proof.Machine.execIdeKm dev slot s
  | .powerUngate core => Sys2Proof.Machine.execPowerUngate core s
  | .linkQueuesDrained dev slot => Sys2Proof.Machine.execLinkQueuesDrained dev slot s
  | .hostMemoryWrite place addr bytes => Sys2Proof.Machine.execHostMemoryWrite place addr bytes s
  | .turnGivenUpEarly chip => Sys2Proof.Machine.execTurnGivenUpEarly chip s

end Sys2Proof.Machine
end

