-- ==== Sys2Proof/Machine/Schedule.lean ====
section
/-! DEFINITION. What happens next: the issue of an instruction with its fetch (R16, R18, R37 orders 1 and 2), the choice of gangs, addresses
and pairs in a cycle (R235 to R242, R422), the die's cycles (R8), and the hardware's own events, one of which is taken by a free value
where several can happen (log entry 2). -/

namespace Sys2Proof.Machine

/-! ### Issue with fetch -/

/-- The issuer's instruction is fetched and run. A FETCH_BOUNDARY or EXTENT of the fetch is the whole bundle's; where not even the
first word can be read, the address after the instruction is a free value. -/
def State.issueNow (s : State) : Ans :=
  match s.issuing with
  | none => .next { s with issuer := none }
  | some (w, g, _, _, lanes) =>
    let pc := vget g.pc (lowest lanes)
    match s.fetch w pc.toNat with
    | .instr i _ => exec i s
    | .boundary n => .next (s.takeFault w { cause := cFetchBoundary, lanes } lanes pc (pc + BitVec.ofNat 64 n) [])
    | .extent (some n) => .next (s.takeFault w { cause := cExtent, lanes, addr := pc } lanes pc (pc + BitVec.ofNat 64 n) [])
    | .extent none => .next (s.free.2.takeFault w { cause := cExtent, lanes, addr := pc } lanes pc s.free.1 [])

/-! ### Readiness (R236) -/

/-- Fill words at a bundle's address are passed without an issue slot (R16). -/
def State.passFills (s : State) (w : Issuer) : Nat → State
  | 0 => s
  | n + 1 =>
    match ({ s with issuer := some w }).issuing with
    | none => s
    | some (_, g, _, _, lanes) =>
      match s.fetch w (vget g.pc (lowest lanes)).toNat with
      | .instr .fillWord _ =>
        match exec .fillWord { s with issuer := some w } with
        | .next t => ({ t with issuer := s.issuer }).passFills w n
        | _ => s
      | _ => s

/-- The stall in which an issue by a bundle would end now, if it would. -/
def State.wouldStall (s : State) (r : GangRef) (lanes : LaneMask) : Option Wait :=
  match ({ s with issuer := some (.gang r lanes) }).issueNow with
  | .next t =>
    match (t.bundle r lanes).bind Bundle.wait with
    | some k => if k.kind.blocks then none else some k
    | none => none
  | _ => none

/-- A bundle of a gang in a stall at issue. -/
def Gang.inStall (g : Gang) (lanes : LaneMask) (k : Wait) : Gang :=
  { g with bundles := g.bundles.map fun b => if b.lanes = lanes then { b with wait := some k } else b }

/-- A bundle's readiness found anew: one that would stall stalls, and one that need not stall any more is free to issue (R236). A stalled
allocation is made as soon as the pool has its registers (R46). -/
def State.refresh (s : State) (r : GangRef) (lanes : LaneMask) : State :=
  let ready (t : State) : State :=
    match t.wouldStall r lanes with | none => t | some k => (t.wantArray (.gang r lanes) k.kind).updGang r fun q => q.inStall lanes k
  match (s.bundle r lanes).map Bundle.wait with
  | none => s
  | some none => ready (s.passFills (.gang r lanes) 64)
  | some (some k) =>
    if k.kind.blocks then s
    else
      let given := s.after (execRegisterAllocation r lanes)
      if given != s then given
      else
        let t := s.updGang r fun q => q.unwait lanes
        if (t.wouldStall r lanes).isSome then s else t

/-- Once every thread that has not exited stands in TRET, one of its bundles issues it (R401). -/
def Gang.tretDue (g : Gang) : Gang :=
  if g.inTret ≠ 0 && g.inTret = ~~~g.exited then
    match g.bundles.find? fun b => match b.wait with | some k => k.kind == .tret | none => false with
    | some b => g.unwait b.lanes
    | none => g
  else g

/-- The readiness of every bundle of a subcore. -/
def State.refreshSub (s : State) (core : CoreRef) (sub : Nat) : State :=
  (s.residents core sub).foldl (fun s x =>
    if s.mayIssue x.1 then
      let s := s.updGang x.1 Gang.tretDue
      (((s.gang? x.1).map Gang.bundles).getD []).foldl (fun s b => s.refresh x.1 b.lanes) s
    else s) s

/-! ### Selection (R237 to R239, R422) -/

/-- Ready bundles, once readiness has been found. -/
def Gang.ready (g : Gang) : List Bundle := g.bundles.filter fun b => b.wait.isNone

/-- The address at which a bundle counts: halves of a C16 gang at one address count apart (R422), and so does a replay. -/
def Gang.stand (g : Gang) (b : Bundle) : Nat :=
  2 * (vget g.pc (lowest b.lanes)).toNat + (if g.c16 then lowest b.lanes / 16 else 0) + (if (g.replaying b.lanes).isSome then 2 ^ 80 else 0)

/-- Lanes of the ready bundles that count at an address. -/
def Gang.crowd (g : Gang) (at_ : Nat) : LaneMask := (g.ready.filter fun b => g.stand b == at_).foldl (fun m b => m ||| b.lanes) 0

/-- The most populous of some addresses, ties to the lower (R238). -/
def Gang.most (g : Gang) (as : List Nat) : Option Nat :=
  as.foldl (fun best a =>
    match best with
    | none => some a
    | some b =>
      let n := laneCount (g.crowd b)
      let m := laneCount (g.crowd a)
      if n < m || (n == m && decide (a < b)) then some a else some b) none

/-- The starved bundle with the highest count, ties to the lower address (R238 step 1). -/
def Gang.starved (g : Gang) : Option Bundle :=
  (g.ready.filter fun b => decide (16 ≤ b.passes)).foldl (fun best b =>
    match best with
    | none => some b
    | some a => if a.passes < b.passes || (a.passes == b.passes && decide (g.stand b < g.stand a)) then some b else some a) none

/-- The primary address (R238 steps 1 and 2). -/
def Gang.primary (g : Gang) : Option Nat :=
  match g.starved with
  | some b => some (g.stand b)
  | none => g.most (g.ready.map g.stand)

/-- The candidate for secondary (R238 step 3). -/
def Gang.candidate (g : Gang) (first : Nat) : Option Nat := g.most ((g.ready.map g.stand).filter fun a => a != first)

/-- The pairing class of an instruction (R239), and whether it reads the main file (R51). -/
def pairClass (i : Instr) : Pair × Bool :=
  match i.spec, i.ops with
  | some sp, some x =>
    let main (u : Use) (o : Opnd) : Bool :=
      match u.readSlot, o with
      | some t, .main k => t.cls == .V && k != 255
      | _, _ => false
    (sp.pair, main sp.dst x.dst || main sp.a x.a.opnd || (!x.form.hasImm && main sp.b x.b.opnd) || main sp.c x.c.opnd)
  | _, _ => (.X, false)

/-- The pair that R239 permits. -/
def Pair.permits : Pair → Pair → Bool
  | .VA, .VA => true
  | .VA, .MEM => true
  | .MEM, .VA => true
  | _, _ => false

/-- The instruction at which lanes of a gang stand. -/
def State.instrAt (s : State) (r : GangRef) (lanes : LaneMask) : Option Instr :=
  match s.gang? r with
  | none => none
  | some q =>
    match s.fetch (.gang r lanes) (vget q.pc (lowest lanes)).toNat with
    | .instr i _ => some i
    | _ => none

/-- Two addresses of a gang may issue in one cycle (R239). Whether two collectors are free when either reads the main file is timing
that the model leaves to a free value (R51). -/
def State.pairs (s : State) (r : GangRef) (a b : LaneMask) : Bool × State :=
  match s.instrAt r a, s.instrAt r b with
  | some i, some j =>
    let p := pairClass i
    let q := pairClass j
    if !Pair.permits p.1 q.1 then (false, s)
    else if p.2 || q.2 then (!s.free.1.getLsbD 0, s.free.2)
    else (true, s)
  | _, _ => (false, s)

/-- Vector names that an instruction of some lanes writes. -/
def Gang.writesVec (g : Gang) (i : Instr) (m : LaneMask) : List Nat :=
  match i.spec, i.ops with
  | some sp, some x =>
    match sp.dst.writeSlot.map fun t => dstName t x.dst with
    | some (.vec k n) => if guardMask g x m = 0 then [] else (List.range n).map (k + ·)
    | _ => []
  | _, _ => []

/-- Vector names of which an instruction has a last-read. -/
def lastReads (i : Instr) : List Nat :=
  let one (u : Use) (x : Src) : List Nat :=
    match u, x.opnd with
    | .src t, .main k => if x.lastRead && k.toNat != 255 then (List.range t.regs).map (k.toNat + ·) else []
    | _, _ => []
  match i.spec, i.ops with
  | some sp, some x => one sp.a x.a ++ one sp.b x.b ++ one sp.c x.c
  | _, _ => []

/-- Of a pair, the register of a name that one bundle last-reads and the other writes is not freed between the two (R43). -/
def Gang.keepPair (g : Gang) (i j : Instr) (a b : LaneMask) : Gang :=
  let keep := (g.writesVec i a).filter (lastReads j).contains ++ (g.writesVec j b).filter (lastReads i).contains
  { g with granted := (keep.filter fun k => (Tab.find g.vmap k).isSome) ++ g.granted }

/-- The bundles that issue become one bundle for each address, and the others are passed over (R235 step 3, R238 step 5). -/
def Gang.issueSets (g : Gang) (sets : List LaneMask) : Gang :=
  let g := { g with bundles := g.bundles.map fun b => if b.wait.isNone && sets.all fun m => m &&& b.lanes == 0 then { b with passes := b.passes + 1 } else b }
  sets.foldl (fun g m => g.rebundle m [⟨m, 0, none, []⟩]) g

/-- A gang of the active set has a ready bundle. -/
def State.canIssue (s : State) (r : GangRef) : Bool := s.mayIssue r && ((s.gang? r).map fun q => !q.ready.isEmpty).getD false

/-- The choice of a subcore in a cycle: one gang, round-robin over the places of the active set, and one address or a pair (R237, R238). A run
of waiting cycles of the context on this core ends (R269). -/
def State.choose (s : State) (core : CoreRef) (sub : Nat) : State :=
  let b := vget (s.core core).subs sub
  match ((List.range 4).map fun j => (b.rr + j) % 4).findSome? fun j => (vget b.active j).bind fun r => if s.canIssue r then some (j, r) else none with
  | none => s
  | some (j, r) =>
    let s := s.updCore core fun k => { k with subs := vset k.subs sub { vget k.subs sub with rr := (j + 1) % 4 } }
    match s.gang? r with
    | none => s
    | some g =>
      match g.primary with
      | none => s
      | some first =>
        let p := g.crowd first
        let two := match g.candidate first with
          | none => (([p] : List LaneMask), s)
          | some second =>
            let t := s.pairs r p (g.crowd second)
            (if t.1 then [p, g.crowd second] else [p], t.2)
        let s := two.2.updGang r fun g => g.issueSets two.1
        let s := match two.1 with
          | [a, b] => (match s.instrAt r a, s.instrAt r b with | some i, some j => s.updGang r fun g => g.keepPair i j a b | _, _ => s)
          | _ => s
        let s := s.updChip r.chip fun c => { c with waitRun := Tab.drop c.waitRun core.core }
        { s with due := s.due ++ two.1.map fun m => .gang r m }

/-- Results of a control routine whose windows have ended arrive before its next instruction (R30 rule 1); it issues unless that instruction
would wait (R265). -/
def State.chooseCtrl (s : State) (core : CoreRef) : State :=
  match (s.core core).ctrl with
  | none => s
  | some run =>
    let w : Issuer := .ctrl core
    let settled := s.updGangOf w fun g => run.gang.pend.foldl (fun g p => if g.mayArrive p then g.arrive p else g) g
    let t := (settled.updGangOf w fun g => g.unwait 1).passFills w 64
    match ({ t with issuer := some w }).issueNow with
    | .next u =>
      let waits := match u.gangOf w with | some g => g.bundles.any fun b => b.wait.isSome | none => false
      if waits then settled else { t with due := t.due ++ [w] }
    | _ => settled

/-! ### A cycle -/

/-- The cores that run a task or a control routine. -/
def State.busyCores (s : State) : List CoreRef :=
  ((s.chips.flatMap fun (c : Nat × Chip) => c.2.tasks.filterMap fun (t : Nat × Task) => t.2.core) ++
    s.devs.flatMap fun (d : Nat × Device) => (d.2.cores.filter fun k => k.2.ctrl.isSome).map fun k => (⟨d.1, k.1⟩ : CoreRef)).eraseDups

/-- Cycles pass on every die (R8): one, and a free number of fours more, which keeps the re-formations of R235. -/
def State.passCycles (s : State) : State :=
  { s with
    devs := s.devs.map fun d => (d.1, { d.2 with
      cycle0 := d.2.cycle0 + 1 + 4 * Config.extraCycles (s.fresh + 3 * d.1),
      cycle1 := d.2.cycle1 + 1 + 4 * Config.extraCycles (s.fresh + 3 * d.1 + 1),
      cycleIo := d.2.cycleIo + 1 + 4 * Config.extraCycles (s.fresh + 3 * d.1 + 2) }),
    fresh := s.fresh + 3072 }

/-- Waiting cycles are counted (R269). -/
def State.countWaits (s : State) (cores : List CoreRef) (n : CoreRef → Nat) : State :=
  { s with chips := s.chips.map fun c => (c.1, { c.2 with
      waitRun := cores.foldl (fun w r => if r.dev = c.2.dev && s.waitingOn c.1 c.2 r then Tab.put w r.core (Tab.getD w r.core 0 + n r) else w) c.2.waitRun }) }

/-- The four subcores of a core in a cycle: re-formation in every fourth (R235, R241), readiness, and the choice. A halted core issues
nothing (R228). -/
def State.cycleCore (s : State) (core : CoreRef) : State :=
  let s := (List.range 4).foldl (fun s k => match execBundleReformation core k s with | .next t => t | _ => s) s
  if (s.core core).halted then s
  else
    let s := (List.range 4).foldl (fun s k => s.refreshSub core k) s
    ((List.range 4).foldl (fun s k => s.choose core k) s).chooseCtrl core

/-- A context pre-empted for its waiting budget runs again when the scheduler so decides; the spec does not say when (R269; log entry
17). -/
def State.unpark (s : State) : State :=
  s.chips.foldl (fun s c =>
    if c.2.parked then s.free.2.updChip c.1 fun k => { k with parked := !s.free.1.getLsbD 0 } else s) s

/-- Saves that waited for a trap entry are made where they can be, and scrubs that are due are done (R400, R413). -/
def State.settleCores (s : State) : State := (s.chips.foldl (fun s c => s.finishLeaving c.1) s).scrubCores

/-- One cycle of every die. -/
def State.tick (s : State) : State :=
  let cores := s.busyCores
  let t := s.passCycles.unpark
  let t := (t.countWaits cores fun r => t.cycle r - s.cycle r).settleCores
  cores.foldl State.cycleCore t

/-! ### The hardware's own events -/

/-- An event that the hardware may do by itself: the meaning of its instruction. -/
abbrev Event := State → Ans

/-- Every gang. -/
def State.gangs (s : State) : List (GangRef × Gang) :=
  s.chips.flatMap fun c => c.2.tasks.flatMap fun t => t.2.gangs.map fun g => (⟨c.1, t.1, g.1⟩, g.2)

/-- Events of a gang. -/
def gangEvents (r : GangRef) (q : Gang) : List Event :=
  ((List.range q.pend.length).map fun k => execResultArrival r k) ++
  (q.bundles.flatMap fun b =>
    match b.wait.map Wait.kind with
    | some .ldf => [execLdfWaitEnd r b.lanes]
    | some .barWait => [execBarWaitEnd r b.lanes]
    | some .tlwait => [execTlwaitEnd r b.lanes]
    | some .qwait => [execQwaitEnd r b.lanes]
    | some .tideWait => [execTideWaitEnd r b.lanes]
    | some .tideClose => [execTideCloseUnblock r b.lanes]
    | some .msaveMres => [execMsaveDone r b.lanes, execMresDone r b.lanes]
    | some .alloc => [execRegisterAllocation r b.lanes]
    | _ => []) ++
  [execSpillComplete r, execGangRefill r, execTrapEntry r]

/-- Events of an engine of a core. -/
def coreEvents (r : CoreRef) (k : Core) : List Event :=
  ((List.range k.copyq.length).flatMap fun n =>
    [execCopyStart r n, execCopyByteLanding r n (2 ^ 40), execCopyByteLanding r n 1, execCopyFollowOnEntry r n, execCopyComplete r n, execSendOutboundEntry r n]) ++
  [execWldExecute r, execWselLatch r, execMmaPass r, execAclrExecute r, execEpldLoad r, execDrain r, execMatrixCommandComplete r] ++
  (k.evWait.map fun e => execEventRecordPost r e.1) ++ (k.evq.map fun e => execControlRoutineEntry r e.1) ++ [execControlCoreLimit r]

/-- Events of a device. -/
def devEvents (d : Nat) (v : Device) : List Event :=
  [execBringUpStage d 0, execQntExecute d 0, execQntExecute d 1, execQntComplete d 0, execQntComplete d 1, execLovageService d 0, execLovageService d 1, execHold d,
    execXfer d, execWvct d, execWrlt d, execRelease d] ++
  (v.keys.flatMap fun k => [execKeyReencryptComplete d k.1, execLinkCounterWarn d k.1, execLinkQueuesDrained d k.1]) ++
  (v.tdi.map fun k => execProtectedCreationCommit d k.1) ++ (v.hints.map fun h => execHintAgreementTimeout d h.1) ++
  ((List.range 16).flatMap fun p =>
    (if v.remapDue p then [execLinkLaneLoss d p 0] else []) ++ (if v.restoreDue p then [execLinkRepair d p] else []) ++ [execLinkRetrainComplete d p])

/-- Places where the private backings of some tasks alike may start: the lowest that is free, at the end of the quota, before what is in use,
and after it. -/
def Chip.backingStarts (c : Chip) (t : Task) (tasks : Nat) : List Nat :=
  let at_ (a : Nat) : Nat := a / 65536 * 65536
  let used := c.usedBytes
  let n := tasks * t.backing
  c.nextBacking t 0 :: at_ (c.quota - n) :: (used.map fun r => at_ (r.1 - n)) ++ used.map fun r => at_ (r.1 + r.2 + 65535)

/-- Cores of a context with each base subcore. -/
def Chip.seats (c : Chip) : List (CoreRef × Nat) :=
  ((List.range 160).filter fun k => c.coreMask.getLsbD k).flatMap fun k => (List.range 4).map fun b => (⟨c.dev, k⟩, b)

/-- Events of a chip. -/
def chipEvents (k : Nat) (c : Chip) : List Event :=
  ((List.range 64).map fun q => execLaunchAcceptance k q) ++ (c.launches.map fun l => execLaunchTranslation k l.1) ++
  (c.tasks.map fun t => execTaskRetire k t.1) ++
  (c.launches.flatMap fun l =>
    match l.2.nextTask with
    | none => []
    | some n =>
      c.seats.flatMap fun p => (c.backingStarts (c.newTask l.2 l.1 n 0) (l.2.closure [n]).length).map fun a => execTaskDispatch k l.1 n p.1 p.2 a) ++
  (c.tasks.flatMap fun t => if t.2.core.isNone then c.seats.map fun p => execTaskResume k t.1 p.1 p.2 else []) ++
  [execSliceExpiry k, execTurnGivenUpEarly k] ++ (c.waitRun.map fun w => execWaitBudgetExpiry k ⟨c.dev, w.1⟩) ++
  (c.moving.map fun g => execGranuleMigrationComplete k g) ++ ((List.range c.outbound.length).map fun n => execSendPayloadRead k n) ++
  ((List.range c.fired.length).map fun n => execFiredLaunchPlacement k n) ++
  [execInboundLogConsume k, execTideTurn k, execMigrationRoundComplete k, execFaultRecordDelivery k]

/-- Events of the fabric. -/
def packetEvents (n : Nat) : List Event :=
  [execPacketDeparture n, execMessageDelivery n, execRldServe n, execMailboxAtomicArrival n, execRemoteReplyArrival n, execTidalWriteArrival n,
    execCloseRecordArrival n, execDeliveryAcknowledgement n]

/-- Every event that the hardware might do by itself in this state. -/
def State.offers (s : State) : List Event :=
  (s.gangs.flatMap fun g => gangEvents g.1 g.2) ++ (s.devs.flatMap fun d => d.2.cores.flatMap fun k => coreEvents ⟨d.1, k.1⟩ k.2) ++
  (s.devs.flatMap fun d => devEvents d.1 d.2) ++ (s.chips.flatMap fun c => chipEvents c.1 c.2) ++
  (List.range s.packets.length).flatMap packetEvents

/-- What the machine may do next. -/
inductive Move where
  | event (e : Event)
  | issue (w : Issuer)
  | tick

/-- An offered event can happen and changes something. -/
def State.enabled (s : State) (e : Event) : Bool :=
  match e s with
  | .next t => t != s
  | _ => false

/-- The chosen bundles that may issue now: of each gang the first, so that a primary goes before its secondary (R400). -/
def firstOfEach : List Issuer → List Issuer → List Issuer
  | _, [] => []
  | before, w :: rest => (if before.any fun o => Issuer.together o w then [] else [w]) ++ firstOfEach (w :: before) rest

/-- The moves of a state: events, and the issues of this cycle, or the next cycle once all have been made. -/
def State.moves (s : State) : List Move :=
  ((s.offers.filter s.enabled).map Move.event) ++ (if s.due.isEmpty then [.tick] else (firstOfEach [] s.due).map Move.issue)

/-- A move made. -/
def State.make (s : State) : Move → Ans
  | .event e => e s
  | .issue w => .next { s with due := s.due.filter (fun o => o != w), issuer := if s.stillDue w then some w else none }
  | .tick => .next s.tick

/-- The next move, by a free value where there are several (log entry 2). -/
def State.nextMove (s : State) : Ans :=
  match s.moves with
  | [m] => s.make m
  | ms => s.free.2.make (ms.getD (s.free.1.toNat % ms.length) .tick)

/-- What comes next: the instruction of the issuer; else what the outside world does; else the machine's own next move. -/
def State.proceed (s : State) : Ans :=
  match s.issuer with
  | some _ => s.issueNow
  | none =>
    match s.agenda with
    | i :: rest => exec i { s with agenda := rest }
    | [] => s.nextMove

end Sys2Proof.Machine
end

