-- ==== Sys2Proof/Machine/Placed.lean ====
section
/-! DEFINITION. The smallest loaded machine: a ready device with one virtual chip, one running launch of one task and one gang, whose next
instruction is given by its bytes. It stands for what the host and the supervisor do before a program runs (log entry 9). -/

namespace Sys2Proof.Machine

/-- The image's address of the placed task. -/
def placedImage : DWord := 0x8000000000000000

/-- The launch of the placed task: one task of one gang with 64 registers, 2,048 scratchpad bytes, and moments or C16. -/
def placedLaunch (c16 : Bool) : Launch :=
  { record := { image := placedImage, args := 0, gtab := 0, dtab := 0, ntask := 1, gangs := 1, sig := 255, flags := 0, aq := 0, waits := [],
                clean := true },
    at_ := 0, hdr := BitVec.ofNat 64 (64 * 2 ^ 36 + (if c16 then 2 ^ 34 else 2 ^ 35) + 2 ^ 24), scopes := 31, code := 65536, data := 0, descs := [], args := [],
    holds := [], groups := [], state := .running, extents := [⟨0x8000000000000000, 65536, 3, [⟨0x8000000000000000, 65536, false, 65536⟩]⟩],
    dispatched := [(0, 1)], retired := 0, faulted := false, order := 0, after := none, fired := none, clock := [], made := [],
    core := ⟨0, 0⟩ }

/-- The chip of the placed task, with the task's code at its first instruction and an open control area in host memory. -/
def placedChip (c16 : Bool) (code : List Byte) : Chip :=
  let c := Chip.new 0 0 0 0 (2 ^ 30) 0 [] 0
  let l := placedLaunch c16
  { c with cores := 1, ats := [(0, ⟨.mapped 0 true true true⟩)], mem := Mem.write [] (65536 + 128) code, launches := [(0, l)],
           tasks := [(0, ({ c.newTask l 0 0 (2 ^ 20) with core := some ⟨0, 0⟩ } : Task))] }

/-- The placed machine. The control core issues its own two instructions, a C16 gang the retired ones, and a gang the rest. -/
def placed (ctrl c16 : Bool) (code : List Byte) : State :=
  let c := placedChip c16 code
  let k : Core := { Core.idle with subs := vset Core.idle.subs 0 ⟨enterSet (Vector.replicate 4 none) ⟨0, 0, 0⟩, 0⟩,
                                   ctrl := if ctrl then some ⟨0, c.routine 0, 0⟩ else none }
  { devs := [(0, { Device.reset with stage := 6, slots := [(0, 0)], cores := [(0, k)] })], guests := [(0, Guest.reset)], chips := [(0, c)],
    hostMem := if ctrl then Mem.write [] 0 code else [], packets := [], irqs := [],
    issuer := some (if ctrl then .ctrl ⟨0, 0⟩ else .gang ⟨0, 0, 0⟩ (if c16 then 0xFFFF else 0xFFFFFFFF)), due := [], agenda := [], fresh := 0 }

/-- Bytes put where the issuer of a state fetches next; none where it may not fetch. -/
def State.putCode (s : State) (code : List Byte) : Option State :=
  match s.issuing with
  | none => none
  | some (w, g, _, _, lanes) =>
    let a := (vget g.pc (lowest lanes)).toNat
    let ps := (List.range code.length).filterMap fun k => s.codePlace w (a + k)
    if ps.length = code.length then some (s.writeBytes ps code) else none

/-- The instructions that only the control core, or only a C16 gang, may issue (R59 to R62). -/
def placeFor (code : List Byte) : Bool × Bool :=
  match (decode code).map Prod.fst with
  | some (.evqPop _) => (true, false)
  | some (.trel _) => (true, false)
  | some (.byteAbsDiffSum _) => (false, true)
  | some (.retiredOperation _ _) => (false, true)
  | _ => (false, false)

end Sys2Proof.Machine
end

