-- ==== Sys2Proof/Machine/Step.lean ====
section
/-! DEFINITION. One step of the machine. -/

namespace Sys2Proof.Machine

/-- One step: the instruction of who issues, what the outside world does next, or a move of the hardware. -/
def step (s : State) : Host.Outcome State Fault Refusal := s.proceed

/-- A machine whose very next step runs the instruction with these bits: at the issuer's address where someone issues, else in the smallest
loaded machine (log entry 9). -/
def State.withFetchWord (s : State) (nbits w : Nat) : State :=
  let code := leBytes (w % 2 ^ nbits) 16
  match s.putCode code with
  | some t => t
  | none => placed (placeFor code).1 (placeFor code).2 code

end Sys2Proof.Machine
end

