-- ==== Sys2Proof/Safety.lean ====
section
/-! DEFINITION. The words that claims are stated in: memories in canonical form, an instruction whose checks have passed and how it
completes, and what a completed instruction leaves as it was. -/

namespace Sys2Proof.Machine

/-! ### Memory in canonical form -/

/-- The memories of a task are canonical: scratchpad, full words, tiles, weight buffer and latch. -/
def Task.memWf (t : Task) : Bool :=
  Mem.wf t.scratch && Mem.wf t.full && Mem.wf t.arr.tiles && Mem.wf t.arr.wbuf && (t.arr.latch.all fun l => Mem.wf l.block)

/-- The memories of a chip are canonical: device memory, a staging copy, and those of its tasks. -/
def Chip.memWf (c : Chip) : Bool :=
  Mem.wf c.mem && (c.mig.staging.all Mem.wf) && c.tasks.all fun t => t.2.memWf

/-- Every memory of the machine is canonical. -/
def Memory.wf (s : State) : Bool := Mem.wf s.hostMem && s.chips.all fun c => c.2.memWf

/-! ### Issue and completion -/

/-- The context of checks that let an instruction execute. -/
def Pre.ctx? : Pre → Option Ctx
  | .go c => some c
  | _ => none

/-- Orders 3 to 7 of R37 pass for an instruction with these fields, some lane's guard is true, and no wait of R30 holds it: it
executes with what `c` has read. -/
def Ready (s : State) (i : Instr) (x : Ops) (c : Ctx) : Prop := ∃ sp, i.spec = some sp ∧ prologue s i sp x = .go c

/-- As `Ready`, as a test on a state: the instruction's specification is known and the checks end in `go`. -/
def readyB (s : State) (i : Instr) : Bool :=
  match i.spec, i.ops with
  | some sp, some x => (prologue s i sp x).ctx?.isSome
  | _, _ => false

/-- No IEEE exception traps in an active lane (R53, R116). -/
def Ctx.trapsOff (c : Ctx) : Prop := ∀ k : Fin 32, inMask c.active k → (c.g.fpctl[k] >>> 8).setWidth 5 = 0#5

/-- Values for the active lanes, zero elsewhere. -/
def Ctx.lanesOnly (c : Ctx) (f : Fin 32 → Nat) : Lanes Nat := lanesFrom fun k => if inMask c.active k then f k else 0

/-- An instruction whose checks pass and whose destination finds its registers completes: its destination receives `f` in every
active lane, and the state changes as `made` says before that. -/
def Yields (s : State) (i : Instr) (x : Ops) (made : Ctx → State) (f : Ctx → Fin 32 → Nat) : Prop :=
  ∀ c, Ready s i x c → c.room s = true → exec i s = .next (c.finish { s := made c, dst := some (c.lanesOnly (f c)) })

/-- The active lanes in which a float result raises a flag whose trap is enabled (R53, R116). -/
def Ctx.trapping (c : Ctx) (f : Fin 32 → Rounded) : LaneMask :=
  maskOf fun k => inMask c.active k && ((f k).flags &&& (c.g.fpctl[k] >>> 8).setWidth 5) != 0

/-- The flags of a float result in the active lanes. -/
def Ctx.flagsOf (c : Ctx) (f : Fin 32 → Rounded) : Lanes FpFlags := lanesFrom fun k => if inMask c.active k then (f k).flags else 0

/-- As `Yields`, for a float result with its flags: it completes where no enabled trap is raised in an active lane, and else takes FP_TRAP in
the lanes that raise one, with the flags of all as the record's XD (R116, R396). -/
def YieldsFloat (s : State) (i : Instr) (x : Ops) (f : Ctx → Fin 32 → Rounded) : Prop :=
  ∀ c, Ready s i x c → c.room s = true →
    (c.trapping (f c) = 0 →
      exec i s = .next (c.finish { s := s, dst := some (c.lanesOnly fun k => (f c k).code), flags := c.flagsOf (f c) })) ∧
    (c.trapping (f c) ≠ 0 →
      exec i s = .next (s.takeFault c.w { cause := 18, lanes := c.trapping (f c), xd := flagStream c.active (c.flagsOf (f c)) } c.active c.pc c.next []))

/-- As `Yields`, for moments with the sticky flags they raise, in a context that passes some test. -/
def YieldsMoment (s : State) (i : Instr) (x : Ops) (ok : Ctx → Prop) (f : Ctx → Fin 32 → Nat × BitVec 3) : Prop :=
  ∀ c, Ready s i x c → c.room s = true → ok c →
    exec i s = .next (c.finish { s := s, dst := some (c.lanesOnly fun k => (f c k).1),
                                 mflags := lanesFrom fun k => if inMask c.active k then (f c k).2 else 0 })

/-- Every active lane's variance is one that a moment may have (R199). -/
def Ctx.varsOk (c : Ctx) (v : Lanes Nat) : Prop := ∀ k : Fin 32, inMask c.active k = true → badVar (Mo.of v[k]).var = false

/-- An instruction without a destination whose checks pass completes after a change of the state. -/
def Does (s : State) (i : Instr) (x : Ops) (made : Ctx → State) : Prop :=
  ∀ c, Ready s i x c → exec i s = .next (c.finish { s := made c })

/-! ### Equal but for the race record -/

/-- A chip with an empty happens-before record. -/
def Chip.noRaces (c : Chip) : Chip := { c with hb := ⟨[], [], [], [], [], [], [], 0⟩ }

/-- Two states hold the same but for the happens-before records of their chips (R292 to R301: what they hold decides MMRACE, and nothing
else that a program sees). -/
def SameButRaces (s u : State) : Prop :=
  u.devs = s.devs ∧ u.guests = s.guests ∧ u.hostMem = s.hostMem ∧ u.packets = s.packets ∧ u.irqs = s.irqs ∧ u.issuer = s.issuer ∧
  u.due = s.due ∧ u.agenda = s.agenda ∧ u.fresh = s.fresh ∧ ∀ k, (u.chip? k).map Chip.noRaces = (s.chip? k).map Chip.noRaces

/-- The state after the active lanes, in ascending order, have written their bytes at their places (R144, R145). -/
def Ctx.storedAt (c : Ctx) (s : State) (ps : Lanes (List Place)) (val : Fin 32 → Nat) : State :=
  (lanesOf c.active).foldl (fun s i => s.writePlaces ps[i] (val i)) s

/-- The state after the active lanes, in ascending order, have each read an old value at their places and written the new one that it
gives, and the values read (R152). -/
def Ctx.rmwAt (c : Ctx) (s : State) (ps : Lanes (List Place)) (new : Fin 32 → Nat → Option Nat) : State × Lanes Nat :=
  (lanesOf c.active).foldl (fun (r : State × Lanes Nat) i =>
    let old := r.1.readPlaces ps[i]
    ((match new i old with | some v => r.1.writePlaces ps[i] v | none => r.1), vset r.2 i.val old)) (s, Lanes.all 0)

/-- A scratchpad word marked empty or full (R147). -/
def State.markWord (s : State) (chip : Nat) (p : List Place) (v : Byte) : State :=
  match scratchOf p with
  | some (t, o) => s.updTask chip t fun u => { u with full := Mem.set u.full (o / 4) v }
  | none => s

/-- The word at places is full (R147). -/
def State.fullAt (s : State) (chip : Nat) (p : List Place) : Bool :=
  match scratchOf p with
  | some (t, o) => ((s.task? chip t).map fun u => u.wordFull o).getD false
  | none => false

/-! ### Commands -/

/-- The stalls of R171 do not hold a matrix command of a task: `u` is the state in which its task holds the array. -/
def Ctx.mayQueue (c : Ctx) (s : State) (chip task : Nat) (t : Task) (u : State) : Prop :=
  c.ownTask s = some (chip, task, t) ∧ s.holdArray c.core chip task = some u ∧ t.arrayDue = false ∧ t.arr.depth < 16 ∧
    t.mresWaits = false

/-- The state with a command at the end of the task's matrix queue, an operation of its counter where it names one. -/
def Ctx.queued (c : Ctx) (u : State) (chip task : Nat) (counter : Option Nat) (mk : IssuedBy → MCmd) : State :=
  (c.issueBy u counter).2.updArr chip task fun a => { a with queue := a.queue ++ [mk (c.issueBy u counter).1] }

/-! ### Ends of waits -/

/-- The context of an instruction that has waited: SA and SB as it read them when it first issued. -/
def Ctx.asIssued (c : Ctx) (k : Wait) : Ctx :=
  match k.vals with
  | [a, b] => { c with va := a.map BitVec.toNat, vb := b.map BitVec.toNat }
  | _ => c

/-- The end of a wait of a gang whose task has not ended and that waits for no trap frame, and of whose bundles none shares a lane with the
waiting one: under a condition on the waiting instruction, with the values it read, and on the state, the event is its completion with an
outcome of some kind. -/
def EndsWait (s : State) (event : Instr) (from_ : State) (g : GangRef) (lanes : LaneMask) (kind : WaitKind) (mine : Instr → Bool)
    (may : Wait → Ctx → State → Prop) (made : Wait → Ctx → State → Out → Prop) : Prop :=
  ∀ (k : Wait) (x : Ops) (c : Ctx) (q : Gang), from_.waiting g lanes kind = some k → from_.mayIssue g = true → mine k.instr = true →
    k.instr.ops = some x → from_.gang? g = some q → (∀ b ∈ q.bundles, b.lanes = lanes ∨ b.lanes &&& lanes = 0) →
    Ready (from_.released g lanes) k.instr x c → may k (c.asIssued k) (from_.released g lanes) →
    ∃ o, made k (c.asIssued k) (from_.released g lanes) o ∧
      exec event s = .next { (c.asIssued k).finish o with issuer := from_.issuer, due := from_.due }

/-! ### Packets -/

/-- The k-th packet is in flight and in the buffer of its target's link, nothing of its channel, plane and pair of devices that left before it
is still to be delivered, its links work, its link unseals it, and the slot that it names holds the chip it is for (R358, R362, R364, R365, R415,
R416). -/
def Lands (s : State) (k : Nat) (p : Packet) (key : Nat) (c : Chip) : Prop :=
  s.passOn.packets[k]? = some p ∧ p.left = true ∧ p.passed = true ∧ p.delivered = false ∧ s.cut p = false ∧ s.unseals p = true ∧
  key = chipKey p.guest p.dst ∧ s.chip? key = some c ∧
  (∃ d, s.dev? p.toDev = some d ∧ Tab.find d.slots p.toSlot = some key) ∧
  ∀ q ∈ s.packets.take k, ¬ (q.left = true ∧ q.delivered = false ∧ q.plane = p.plane ∧ q.body.vc = p.body.vc ∧ q.toDev = p.toDev ∧
    s.devOf q.guest q.src = s.devOf p.guest p.src)

/-! ### What stays -/

/-- A gang without its address, bundles, windows and what the destination and the last-read bits may change: all the rest. -/
def Gang.rest (g : Gang) : Gang :=
  { g with pc := Lanes.all 0, bundles := [], vmap := [], granted := [], pend := [], last := Lanes.all [], ofile := Vector.replicate 8 (Lanes.all 0),
           sreg := Vector.replicate 64 0, pred := Lanes.all 0, mom := Vector.replicate 32 (Lanes.all 0), fpflag := Lanes.all 0,
           mflag := Lanes.all 0, replay := [] }

/-- A chip without its tasks and its happens-before record. -/
def Chip.rest (c : Chip) : Chip := { c with hb := ⟨[], [], [], [], [], [], [], 0⟩, tasks := [] }

/-- A task without its gangs. -/
def Task.rest (t : Task) : Task := { t with gangs := [] }

/-- Two places are one byte. -/
def Place.sameByte : Place → Place → Bool
  | .dram k a _, .dram j b _ => k == j && a == b
  | .host a, .host b => a == b
  | .scratch k t a, .scratch j u b => k == j && t == u && a == b
  | _, _ => false

/-- A chosen bundle is of another gang. -/
def Issuer.elsewhere (g : GangRef) (w : Issuer) : Bool := !Issuer.together (.gang g 0) w

/-- Nothing outside a chip's memory has changed but one gang, the happens-before record, who issues, and which bundles of that gang are
still to issue in this cycle. -/
def OthersKept (s t : State) (g : GangRef) : Prop :=
  t.devs = s.devs ∧ t.guests = s.guests ∧ t.packets = s.packets ∧ t.irqs = s.irqs ∧
  t.due.filter (Issuer.elsewhere g) = s.due.filter (Issuer.elsewhere g) ∧ t.agenda = s.agenda ∧ t.fresh = s.fresh ∧
  ∀ h, h ≠ g → t.gang? h = s.gang? h

/-- A source operand with its last-read bit set names the vector register n (R28). -/
def Ctx.lastReads (c : Ctx) (n : Nat) : Prop :=
  ∃ u y sl k, (u, y) ∈ [(c.sp.a, c.x.a), (c.sp.b, c.x.b), (c.sp.c, c.x.c)] ∧ u = Use.src sl ∧ y.opnd = Opnd.main k ∧ y.lastRead = true ∧
    k.toNat ≤ n ∧ n < k.toNat + sl.regs

/-- A gang after an instruction has kept every register that is neither the destination nor last-read, its predicates unless one is the
destination, the last-result file of lanes that get no class V result, and the addresses of the lanes of other bundles. -/
def Ctx.kept (c : Ctx) (q : Gang) : Prop :=
  q.rest = c.g.rest ∧
  (∀ n, (∀ k m, c.destName = .vec k m → n < k ∨ k + m ≤ n) → ¬ c.lastReads n → Tab.find q.vmap n = Tab.find c.g.vmap n) ∧
  (∀ n : Fin 8, (∀ k m, c.destName = .oper k m → n.val < k ∨ k + m ≤ n.val) → q.ofile[n] = c.g.ofile[n]) ∧
  (∀ n : Fin 64, c.destName ≠ .uni n.val → q.sreg[n] = c.g.sreg[n]) ∧
  (∀ n : Fin 32, c.destName ≠ .mom n.val → q.mom[n] = c.g.mom[n]) ∧
  (c.writesP = false → q.pred = c.g.pred) ∧
  (∀ k : Fin 32, inMask c.active k = false ∨ c.writesV = false → q.last[k] = c.g.last[k]) ∧
  (∀ k : Fin 32, inMask c.lanes k = false → q.pc[k] = c.g.pc[k])

end Sys2Proof.Machine

namespace Sys2Proof

/-- Instructions that write their destination, raise no flag and change nothing else. -/
def Instr.registerOnly : Instr → Bool
  | .iadd _ | .isub _ | .imul _ | .imin _ | .imax _ | .iabs _ | .imad _ | .shl _ | .shr _ | .rot _ | .and _ | .or _ | .xor _ | .lea _ | .not _
  | .popc _ | .clz _ | .ctz _ | .brev _ | .bfe _ | .bfi _ | .bternTableBit7Clear _ | .bternTableBit7Set _ | .icmp _ | .isel _ | .mov _ | .movi _
  | .movu _ | .icvt _ | .pset _ | .plop _ | .sadd _ | .smul _ | .smov _ | .scmp _ | .tlread _ | .vote _ | .matchLanes _ | .lredux _ | .lprfx _
  | .elect _ | .uniassert _ | .nop _ | .hint _ | .ifence _ | .pref _ | .awin _ | .isspace _ | .fclass _ | .fcpys _ | .mmov _ => true
  | _ => false

/-- Float instructions that write their destination and IEEE flags and change nothing else. -/
def Instr.floatOnly : Instr → Bool
  | .fadd _ | .fsub _ | .fmul _ | .ffma _ | .ffmaF64Short _ | .fdiv _ | .fsqrt _ | .frcp _ | .frsq _ | .fex2 _ | .flg2 _ | .fsin _ | .fcos _
  | .fmin _ | .fmax _ | .fcmp _ | .frnd _ | .fgetexp _ | .fldexp _ | .fcvt _ | .f2i _ | .i2f _ | .pkadd _ | .pkfma _ | .dot2 _ | .dot4 _ => true
  | _ => false

end Sys2Proof
end

