-- ==== Sys2Proof/Certificates/Slice0/Obligations.lean ====
section
/-! DEFINITION. The statements for the provers, from the numbered rules of spec/. -/

open Sys2Proof Sys2Proof.Machine

/-! ### Results of integer instructions -/

/-- R87: IADD, ISUB, IMIN, IMAX, IABS, IMUL and IMAD complete and deliver the exact result of the sources extended by their type, wrapped or
clamped at the destination's type. R88: IADDC delivers the sum with the carry-in and writes the carry-out to its predicate, both at
retirement. -/
def Obligations.IntegerArithmetic : Prop :=
  (∀ (s : State) (x : Ops),
    let t := tyOf (x.sb 2 0)
    Yields s (.iadd x) x (fun _ => s) (fun c k => writeInt t x.clp (extTy t c.va[k] + extTy t c.vb[k])) ∧
    Yields s (.isub x) x (fun _ => s) (fun c k => writeInt t x.clp (extTy t c.va[k] - extTy t c.vb[k])) ∧
    Yields s (.imin x) x (fun _ => s) (fun c k => writeInt t x.clp (min (extTy t c.va[k]) (extTy t c.vb[k]))) ∧
    Yields s (.imax x) x (fun _ => s) (fun c k => writeInt t x.clp (max (extTy t c.va[k]) (extTy t c.vb[k]))) ∧
    Yields s (.iabs x) x (fun _ => s) (fun c k => writeInt t x.clp ((extTy t c.va[k]).natAbs : Int)) ∧
    Yields s (.imul x) x (fun _ => s)
      (fun c k => writeInt (mulDst x) x.clp (productPart (x.sb 4 3) t.width (extTy t c.va[k] * extTy t c.vb[k]))) ∧
    Yields s (.imad x) x (fun _ => s)
      (fun c k => writeInt (mulDst x) x.clp
        (productPart (x.sb 4 3) t.width (extTy t c.va[k] * extTy t c.vb[k]) + extTy (mulDst x) c.vc[k]))) ∧
  (∀ (s : State) (x : Ops),
    let w := (tyOf (x.sb 1 0)).width
    let sum (c : Ctx) (k : Fin 32) : Nat :=
      c.va[k] % 2 ^ w + c.vb[k] % 2 ^ w + (if x.sb 3 3 = 1 && (c.g.pred[k]).getLsbD (x.sb 6 4) then 1 else 0)
    Yields s (.iaddc x) x
      (fun c => s.updGangOf c.w fun g => g.writeP (x.sb 6 4) c.active (lanesFrom fun k => decide (2 ^ w ≤ sum c k)))
      (fun c k => sum c k % 2 ^ w))

/-- R89 to R92: shifts, logic, counts and bit fields deliver the bits their rules give, at the width of the operands. -/
def Obligations.ShiftsLogicBitFields : Prop :=
  ∀ (s : State) (x : Ops),
    let w := opsW03 x
    Yields s (.shl x) x (fun _ => s) (fun c k => shlBits w (c.va[k] % 2 ^ w) c.vb[k] % 2 ^ w) ∧
    Yields s (.shr x) x (fun _ => s) (fun c k => shrBits (x.sb 3 3 == 1) w (c.va[k] % 2 ^ w) c.vb[k] % 2 ^ w) ∧
    Yields s (.rot x) x (fun _ => s) (fun c k => rotBits w (c.va[k] % 2 ^ w) c.vb[k] % 2 ^ w) ∧
    Yields s (.and x) x (fun _ => s) (fun c k => (c.va[k] % 2 ^ w &&& c.vb[k]) % 2 ^ w) ∧
    Yields s (.or x) x (fun _ => s) (fun c k => (c.va[k] % 2 ^ w ||| c.vb[k]) % 2 ^ w) ∧
    Yields s (.xor x) x (fun _ => s) (fun c k => (c.va[k] % 2 ^ w ^^^ c.vb[k]) % 2 ^ w) ∧
    Yields s (.not x) x (fun _ => s) (fun c k => 2 ^ w - 1 - c.va[k] % 2 ^ w) ∧
    Yields s (.popc x) x (fun _ => s) (fun c k => popCount (c.va[k] % 2 ^ w) w) ∧
    Yields s (.clz x) x (fun _ => s) (fun c k => leadZeros (c.va[k] % 2 ^ w) w) ∧
    Yields s (.ctz x) x (fun _ => s) (fun c k => trailZeros (c.va[k] % 2 ^ w) w) ∧
    Yields s (.brev x) x (fun _ => s) (fun c k => reverseBits (c.va[k] % 2 ^ w) w) ∧
    Yields s (.bfe x) x (fun _ => s) (fun c k => wrapNat (extractField (x.sb 0 0 == 0) w (c.va[k] % 2 ^ w) c.vb[k]) w) ∧
    Yields s (.bfi x) x (fun _ => s) (fun c k => insertField w (c.va[k] % 2 ^ w) (c.vb[k] % 2 ^ w) c.vc[k]) ∧
    Yields s (.bternTableBit7Clear x) x (fun _ => s) (fun c k => ternary x.sub.toNat c.va[k] c.vb[k] c.vc[k] 32) ∧
    Yields s (.bternTableBit7Set x) x (fun _ => s) (fun c k => ternary (128 + x.sub.toNat) c.va[k] c.vb[k] c.vc[k] 32)

/-- R93, R94, R97: comparisons, selection, addresses, moves, conversions and predicate logic deliver what their rules give. -/
def Obligations.CompareSelectMove : Prop :=
  ∀ (s : State) (x : Ops),
    let t := tyOf (x.sb 2 0)
    Yields s (.icmp x) x (fun _ => s) (fun c k => if intCond (x.sb 5 3) (extTy t c.va[k]) (extTy t c.vb[k]) then 1 else 0) ∧
    Yields s (.isel x) x (fun _ => s) (fun c k => if c.vc[k] ≠ 0 then c.va[k] else c.vb[k]) ∧
    Yields s (.lea x) x (fun _ => s)
      (fun c k => wrapNat ((c.va[k] : Int) + (if x.sb 3 3 = 1 then ((c.vb[k] % 2 ^ 32 : Nat) : Int) else sext c.vb[k] 32) * 2 ^ x.sb 2 0) 64) ∧
    Yields s (.mov x) x (fun _ => s) (fun c k => c.va[k]) ∧
    Yields s (.movi x) x (fun _ => s) (fun _ _ => moviBits x) ∧
    Yields s (.movu x) x (fun _ => s) (fun c k => c.va[k] % 2 ^ opsW03 x) ∧
    Yields s (.icvt x) x (fun _ => s) (fun c k => writeInt t x.clp (extTy (tyOf (x.sb 5 3)) c.va[k])) ∧
    Yields s (.pset x) x (fun _ => s) (fun c k => if (c.va[k] != 0) != (x.sb 0 0 == 1) then 1 else 0) ∧
    Yields s (.plop x) x (fun _ => s) (fun c k =>
      let a := (c.va[k] == 1) != (x.sb 2 2 == 1)
      let b := (c.vb[k] == 1) != (x.sb 3 3 == 1)
      if (match x.sb 1 0 with | 0 => a && b | 1 => a || b | _ => a != b) then 1 else 0)

/-- R98, R160: the uniform instructions work once for the bundle, modulo 2^64, on the values of the lowest active lane; TLREAD reads its
counter. R53 to R56, R95, R97: MOVS reads a special register, and writes %fpctl, %fpflag and %mflag in the active lanes; a write of %mode
that keeps DIAG completes, one that changes it sets it at firmware level and takes PRIV at a lower one. PMOV reads and writes all predicates of
a lane. That this PRIV, which depends on SB, comes after NONUNIFORM and UNMAPPED_READ and names the active lanes is the model's (log entry 128). -/
def Obligations.UniformSpecialMoves : Prop :=
  (∀ (s : State) (x : Ops),
    Yields s (.sadd x) x (fun _ => s) (fun c _ => (c.once c.va + c.once c.vb) % 2 ^ 64) ∧
    Yields s (.smul x) x (fun _ => s) (fun c _ => (c.once c.va * c.once c.vb) % 2 ^ 64) ∧
    Yields s (.smov x) x (fun _ => s) (fun c _ => c.once c.va) ∧
    Yields s (.scmp x) x (fun _ => s) (fun c _ =>
      let v (n : Nat) : Int := if x.sb 0 0 = 1 then (n : Int) else sext n 64
      if intCond (x.sb 3 1) (v (c.once c.va)) (v (c.once c.vb)) then 1 else 0) ∧
    Yields s (.tlread x) x (fun _ => s) (fun c _ => c.counter s (opndBits x.a.opnd % 8))) ∧
  (∀ (s : State) (x : Ops),
    let n := opndBits x.a.opnd % 256
    (x.sub = 0 → Yields s (.movs x) x (fun _ => s) (fun c k => specialValue s c n k)) ∧
    (x.sub ≠ 0 → n ≠ 5 → Does s (.movs x) x fun c => s.updGangOf c.w fun g => g.writeSpecial n c.active c.vb) ∧
    (x.sub ≠ 0 → n = 5 → ∀ c, Ready s (.movs x) x c → (c.once c.vb).testBit 7 = c.md.diag → exec (.movs x) s = .next (c.finish { s := s })) ∧
    (x.sub ≠ 0 → n = 5 → ∀ c, Ready s (.movs x) x c → (c.once c.vb).testBit 7 ≠ c.md.diag → c.g.pl = .firmware →
      exec (.movs x) s = .next (c.finish { s := s.updCore c.core fun k => { k with diag := (c.once c.vb).testBit 7 } })) ∧
    (x.sub ≠ 0 → n = 5 → ∀ c, Ready s (.movs x) x c → (c.once c.vb).testBit 7 ≠ c.md.diag → c.g.pl ≠ .firmware →
      exec (.movs x) s = .next (c.fault s { cause := 19, lanes := c.active })) ∧
    (x.sub = 0 → Yields s (.pmov x) x (fun _ => s) (fun c k => (c.g.pred[k]).toNat)) ∧
    (x.sub ≠ 0 → Does s (.pmov x) x fun c => s.updGangOf c.w fun g =>
      { g with pred := lanesFrom fun k => if inMask c.active k then BitVec.ofNat 15 c.va[k] else g.pred[k] }))

/-- R107, R108: lane instructions work over the active lanes. SHFL, past its checks, finds its register in every lane it reads from, and
each active lane receives the value of the lane that its SB selects; one that TRET replays works on the values the trap frame holds (R401). -/
def Obligations.LaneResults : Prop :=
  ∀ (s : State) (x : Ops),
    let t := tyOf (x.sb 4 3)
    (∀ c, Ready s (.shfl x) x c → c.room s = true → c.g.replaying c.lanes = none →
      let size := 2 ^ (5 - x.sb 5 3)
      let seg := if c.g.c16 && size == 32 then 16 else size
      let from_ (k : Fin 32) : Option Nat :=
        c.g.readSrc c.md.ctrl c.md.diag x.form (slotBits (if x.sb 6 6 = 1 then 2 else 1)) x.a (shflLane (x.sb 1 0) seg k.val c.vb[k])
      (∀ k : Fin 32, inMask c.active k = true → (from_ k).isSome = true) ∧
      exec (.shfl x) s = .next (c.finish { s := s, dst := some (c.lanesOnly fun k => (from_ k).getD 0) })) ∧
    Yields s (.shfl x) x (fun _ => s) (fun c k => c.va[k]) ∧
    (∀ c, Ready s (.vote x) x c → c.room s = true →
      let m := maskOf fun k => inMask c.active k && ((c.va[k] == 1) != (x.sb 2 2 == 1))
      exec (.vote x) s = .next (c.finish { s := s, dst := some (c.lanesOnly fun _ =>
        match x.sb 1 0 with | 0 => (if m != 0 then 1 else 0) | 1 => (if m == c.active then 1 else 0) | _ => c.maskBits m) })) ∧
    Yields s (.matchLanes x) x (fun _ => s) (fun c k =>
      if x.sb 0 0 = 0 then c.maskBits (maskOf fun j => inMask c.active j && c.va[j] == c.va[k])
      else if (lanesOf c.active).all (fun j => c.va[j] == c.once c.va) then c.maskBits c.active else 0) ∧
    Yields s (.lredux x) x (fun _ => s) (fun c _ => reduxOver (x.sb 2 0) t (lanesOf c.active) c.va) ∧
    Yields s (.lprfx x) x (fun _ => s) (fun c k =>
      reduxOver (x.sb 2 0) t ((lanesOf c.active).filter fun j => if x.sb 5 5 = 1 then decide (j < k) else decide (j ≤ k)) c.va) ∧
    Yields s (.elect x) x (fun _ => s) (fun c k => if k.val == lowest c.active then 1 else 0) ∧
    Does s (.uniassert x) x (fun _ => s)

/-! ### Floating point -/

/-- R113 to R119: FADD, FSUB, FMUL and both forms of FFMA round the exact result once at their format, with the flags of R115, or take FP_TRAP
in the lanes that raise a flag whose trap is enabled (R116). R30, R44, R118: FDIV and FSQRT are long-latency: they complete at once with an outstanding result, whose values and flags are those of the exact
quotient and root rounded at the format. -/
def Obligations.FloatArithmetic : Prop :=
  (∀ (s : State) (x : Ops),
    let f := opsFt x
    YieldsFloat s (.fadd x) x (fun c k => c.put f k (fpAdd (c.rm (x.sb 2 0) k) (c.fsrc f k c.va[k]) (c.fsrc f k c.vb[k]))) ∧
    YieldsFloat s (.fsub x) x (fun c k => c.put f k (fpSub (c.rm (x.sb 2 0) k) (c.fsrc f k c.va[k]) (c.fsrc f k c.vb[k]))) ∧
    YieldsFloat s (.fmul x) x (fun c k => c.put f k (fpMul (c.fsrc f k c.va[k]) (c.fsrc f k c.vb[k]))) ∧
    YieldsFloat s (.ffma x) x
      (fun c k => c.put f k (fpFma (c.rm (x.sb 2 0) k) (c.fsrc f k c.va[k]) (c.fsrc f k c.vb[k]) (c.fsrc f k c.vc[k]))) ∧
    YieldsFloat s (.ffmaF64Short x) x
      (fun c k => c.put .f64 k (fpFma (c.rm (x.sb 2 0) k) (c.fsrc .f64 k c.va[k]) (c.fsrc .f64 k c.vb[k]) (c.fsrc .f64 k c.vc[k])))) ∧
  (∀ (s : State) (x : Ops),
    let f := opsFt x
    let late (c : Ctx) (r : Fin 32 → Rounded) : Out :=
      { s := s, dst := some (c.lanesOnly fun k => (r k).code), flags := lanesFrom fun k => if inMask c.active k then (r k).flags else 0,
        late := some (.here, 0) }
    (∀ c, Ready s (.fdiv x) x c → c.room s = true →
      exec (.fdiv x) s = .next (c.finish (late c fun k => c.put f k (fpDiv (c.fsrc f k c.va[k]) (c.fsrc f k c.vb[k]))))) ∧
    (∀ c, Ready s (.fsqrt x) x c → c.room s = true →
      exec (.fsqrt x) s = .next (c.finish (late c fun k => c.put f k (fpSqrt (c.fsrc f k c.va[k]))))))

/-- R121, R122: the approximate functions complete, each with the result that R122 fixes for exact cases and that the machine gives within
the bounds for the others; FMIN, FMAX and comparisons, classes and conversions deliver what R120 and R123 to R134 give. That FMIN and FMAX give
a flushed operand as zero (log entry 11), which value within its bounds an approximate function gives (10), and what SCL does to it (119), are
the model's choices. -/
def Obligations.FloatFunctions : Prop :=
  ∀ (s : State) (x : Ops),
    let f := opsFt x
    let apx (n : Nat) (g : Fm → Val → Apx) (c : Ctx) (k : Fin 32) : Rounded :=
      (g f (c.fsrc f k c.va[k])).write (n + x.sb 4 3 * 8) (c.va[k] % 2 ^ f.width) f (c.ftz k) x.clp x.scl
    YieldsFloat s (.frcp x) x (apx 0 rcpOf) ∧ YieldsFloat s (.frsq x) x (apx 1 rsqOf) ∧ YieldsFloat s (.fex2 x) x (apx 2 ex2Of) ∧
    YieldsFloat s (.flg2 x) x (apx 3 lg2Of) ∧ YieldsFloat s (.fsin x) x (apx 4 (trigOf false)) ∧
    YieldsFloat s (.fcos x) x (apx 5 (trigOf true)) ∧
    (∀ max : Bool, YieldsFloat s (if max then .fmax x else .fmin x) x (fun c k =>
      minMax f max (x.sb 5 5 == 1) (flushedCode f (c.ftz k) c.va[k]) (flushedCode f (c.ftz k) c.vb[k]) (c.fsrc f k c.va[k])
        (c.fsrc f k c.vb[k]))) ∧
    YieldsFloat s (.fcmp x) x (fun c k =>
      let a := c.fsrc f k c.va[k]
      let b := c.fsrc f k c.vb[k]
      ⟨bitNat (floatCond (x.sb 2 0) a b), if a.isSig || b.isSig || (x.sb 5 5 == 1 && (a.isNan || b.isNan)) then flagInv else 0⟩) ∧
    Yields s (.fclass x) x (fun _ => s) (fun c k => 2 ^ classBit f c.va[k]) ∧
    YieldsFloat s (.frnd x) x (fun c k => c.put f k (integralOf (c.rm (x.sb 2 0) k) (x.sb 5 5 == 1) (c.fsrc f k c.va[k]))) ∧
    YieldsFloat s (.fgetexp x) x (fun c k =>
      let v := c.fsrc f k c.va[k]
      match v with
      | .fin .. => if v.isZero then ⟨0x80000000, flagInv⟩ else ⟨wrapNat v.exponent 32, 0⟩
      | _ => ⟨0x7FFFFFFF, flagInv⟩) ∧
    YieldsFloat s (.fldexp x) x (fun c k =>
      let v := c.fsrc f k c.va[k]
      c.put f k (withNans [v] ⟨if v.isZero then v else v.scale (max (-10000) (min 10000 (sext c.vb[k] 32))), 0⟩)) ∧
    Yields s (.fcpys x) x (fun _ => s) (fun c k => c.va[k] % f.signBit + (c.vb[k] / f.signBit % 2) * f.signBit) ∧
    YieldsFloat s (.fcvt x) x (fun c k =>
      let v := c.fsrc (opsFmtB x) k c.va[k]
      c.put ((Fm.ofCode (x.sb 6 3)).getD .f32) k (withNans [v] ⟨v, 0⟩)) ∧
    YieldsFloat s (.f2i x) x (fun c k =>
      let t := tyOf (x.sb 5 3)
      let r := toInt (c.rm (x.sb 2 0) k) t.width (match t with | .int _ sg => sg | _ => false) (x.clp == 3) (c.fsrc (opsFmtB x) k c.va[k])
      ⟨intBits t r.1, r.2⟩) ∧
    YieldsFloat s (.i2f x) x (fun c k => c.put (opsFmtB x) k ⟨Val.ofInt (extTy (tyOf (x.sb 5 3)) c.va[k]), 0⟩)

/-- R135 to R137: packed pairs, dot products and FSTAT. -/
def Obligations.PackedDotStatus : Prop :=
  ∀ (s : State) (x : Ops),
    let f := opsPkFm x
    let bytes (v : Nat) : List Nat := (List.range 4).map fun n => v / 2 ^ (8 * n) % 256
    YieldsFloat s (.pkadd x) x (fun c k => bothHalves fun h =>
      c.put f k (fpAdd (c.rm (x.sb 2 0) k) (c.fsrc f k (half c.va[k] h)) (c.fsrc f k (half c.vb[k] h)))) ∧
    YieldsFloat s (.pkfma x) x (fun c k => bothHalves fun h =>
      c.put f k (fpFma (c.rm (x.sb 2 0) k) (c.fsrc f k (half c.va[k] h)) (c.fsrc f k (half c.vb[k] h)) (c.fsrc f k (half c.vc[k] h)))) ∧
    YieldsFloat s (.dot2 x) x (fun c k =>
      let elems (v : Nat) : List Val := (List.range 2).map fun n => f.decode (half v n)
      c.put .f32 k (dotVal (c.rm (x.sb 2 0) k) (elems c.va[k]) (elems c.vb[k]) (c.fsrc .f32 k c.vc[k]))) ∧
    (3 ≤ x.sb 5 3 → Yields s (.dot4 x) x (fun _ => s) (fun c k =>
      let ext (n : Nat) : Int := if x.sb 5 3 = 3 then sext n 8 else (n : Int)
      writeInt i32 x.clp (sext c.vc[k] 32 + (List.zipWith (fun a b => ext a * ext b) (bytes c.va[k]) (bytes c.vb[k])).foldl (· + ·) 0))) ∧
    (x.sb 5 3 < 3 → YieldsFloat s (.dot4 x) x (fun c k =>
      let g : Fm := if x.sb 5 3 = 0 then .e4m3 else if x.sb 5 3 = 1 then .e5m2 else .t8
      c.put .f32 k (dotVal (c.rm (x.sb 2 0) k) ((bytes c.va[k]).map g.decode) ((bytes c.vb[k]).map g.decode) (c.fsrc .f32 k c.vc[k])))) ∧
    (∀ c, Ready s (.fstat x) x c → c.room s = true →
      let mom := x.sb 1 1 == 1
      let sel : Word := BitVec.ofNat 32 (c.once c.va) &&& (if mom then 7 else 0x1F)
      let flag (g : Gang) (k : Fin 32) : Word := if mom then g.mflag[k] else g.fpflag[k]
      let m := maskOf fun k => inMask c.active k && (flag c.g k &&& sel) != 0
      let cleared (g : Gang) : Gang :=
        let v : Lanes Word := lanesFrom fun k => if inMask c.active k then flag g k &&& ~~~sel else flag g k
        if mom then { g with mflag := v } else { g with fpflag := v }
      exec (.fstat x) s =
        .next (c.finish { s := if x.sb 0 0 = 1 then s.updGangOf c.w cleared else s, dst := some (c.lanesOnly fun _ => c.maskBits m) }))

/-! ### Control flow -/

/-- R100, R101: BRA goes to its own address plus four times its offset; CALL does and leaves the next address in its destination; BRX and
RET go where each lane's source says, when it is a multiple of 4; RET of 0 ends a control-core routine (R265), and where it was the last of a
protected context on its core a scrub is due (R413). R101: a lane whose source of
BRX or RET is no multiple of 4 makes it fault with MISALIGN naming the lanes whose source is none, with the lowest one's source as ADDR; no
lane branches. -/
def Obligations.BranchesComplete : Prop :=
  (∀ (s : State) (x : Ops),
    let target (c : Ctx) : DWord :=
      c.pc + BitVec.ofInt 64 (4 * (if x.form = .A then sext (opndBits x.a.opnd + 1024 * opndBits x.b.opnd) 20 else sext x.imm.toNat 32))
    let aligned (c : Ctx) : Prop := ∀ k : Fin 32, inMask c.active k = true → c.va[k] % 4 = 0
    (∀ c, Ready s (.bra x) x c → exec (.bra x) s = .next (c.finish { s := s, jump := some (Lanes.all (target c)) })) ∧
    (∀ c, Ready s (.call x) x c → c.room s = true →
      exec (.call x) s = .next (c.finish { s := s, dst := some (c.lanesOnly fun _ => c.next.toNat), jump := some (Lanes.all (target c)) })) ∧
    (∀ c, Ready s (.brx x) x c → aligned c →
      exec (.brx x) s = .next (c.finish { s := s, jump := some (c.va.map (BitVec.ofNat 64)) })) ∧
    (∀ c, Ready s (.ret x) x c → aligned c → ¬ (c.md.ctrl = true ∧ c.once c.va = 0) →
      exec (.ret x) s = .next (c.finish { s := s, jump := some (c.va.map (BitVec.ofNat 64)) })) ∧
    (∀ c run, Ready s (.ret x) x c → c.md.ctrl = true → c.once c.va = 0 → (s.core c.core).ctrl = some run →
      let last : Bool := ((s.chip? run.chip).map fun k => k.prot && !(k.tasks.any fun t => t.2.core == some c.core)).getD false
      exec (.ret x) s =
        .next { s.updCore c.core (fun k => { k with ctrl := none, scrub := k.scrub || last, gated := k.gated || last }) with issuer := none })) ∧
  (∀ (s : State) (x : Ops) (c : Ctx),
    let bad := maskOf fun k => inMask c.active k && c.va[k] % 4 != 0
    let t : Trouble := { cause := 7, lanes := bad, addr := BitVec.ofNat 64 (vget c.va (lowest bad)) }
    bad ≠ 0 →
    (Ready s (.brx x) x c → exec (.brx x) s = .next (c.fault s t)) ∧
    (Ready s (.ret x) x c → ¬ (c.md.ctrl = true ∧ c.once c.va = 0) → exec (.ret x) s = .next (c.fault s t)))

/-- R103, R104, R234, R16: EXIT exits the active lanes of a gang, then the EMPTY_ORPHAN test of R246 is made; YIELD marks its gang; NOP and
a fill word change nothing but where the threads stand. -/
def Obligations.ExitYieldNop : Prop :=
  ∀ (s : State) (x : Ops),
    (∀ c g lanes, Ready s (.exit x) x c → c.w = .gang g lanes →
      exec (.exit x) s =
        .next ((c.finish { s := s.updGangOf c.w fun k => k.exitLanes c.active }).orphanTest g.chip g.task)) ∧
    Does s (.yield x) x (fun c => s.updGangOf c.w fun k => { k with yielded := true }) ∧
    Does s (.nop x) x (fun _ => s) ∧
    (∀ w g core chip lanes, s.issuing = some (w, g, core, chip, lanes) →
      exec .fillWord s = .next (s.updGangOf w fun k => { k with pc := lanesFrom fun i => if inMask lanes i then g.pc[i] + 4 else g.pc[i] }))

/-! ### Memory -/

/-- R139, R142 to R145, R299: a load whose addresses are aligned and granted and that races with nothing completes: each active lane
receives the little-endian value at its places, extended as its size says, as an outstanding result; nothing else but the race record
changes. -/
def Obligations.LoadsComplete : Prop :=
  ∀ (s : State) (x : Ops),
    let n := szBytes (x.sb 2 0)
    let loads (c : Ctx) (i : Instr) (ps : Lanes (List Place)) : Prop :=
      ∃ u, SameButRaces s u ∧ exec i s = .next (c.finish { s := u, dst := some (c.lanesOnly fun k => loadExt (x.sb 2 0) (s.readPlaces ps[k])),
                                                           late := some (.here, 0) })
    (∀ c ps, Ready s (.ld x) x c → c.room s = true → c.reach s c.active .read n c.ea = .ok ps →
      c.raceOf s (c.boundLoad s n ps) (fun _ => false) c.active c.ea ps = none → loads c (.ld x) ps) ∧
    (∀ c ps, Ready s (.lds x) x c → c.room s = true → c.reach s c.active .read n c.scratchAddr = .ok ps →
      c.raceOf s (c.boundLoad s n ps) (fun _ => false) c.active c.scratchAddr ps = none → loads c (.lds x) ps) ∧
    (∀ c ps g lanes t, Ready s (.ldc x) x c → c.room s = true → c.w = .gang g lanes → s.task? g.chip g.task = some t →
      let addr (k : Fin 32) : Nat := (t.image.toNat + c.off k) % 2 ^ 64
      (∀ k : Fin 32, inMask c.active k = true → addr k % n = 0 ∧
        (List.range n).map (fun j => extentPlace c.chip (t.extents.take 1) .read (addr k + j)) = ps[k].map some) →
      (∀ k : Fin 32, inMask c.active k = false → ps[k] = []) →
      c.raceOf s (fun _ => false) (fun _ => false) c.active addr ps = none → loads c (.ldc x) ps) ∧
    (∀ c ps, Ready s (.sld x) x c → c.room s = true →
      let a := (c.once c.va + c.once c.vb) % 2 ^ 64
      let low : LaneMask := 1#32 <<< lowest c.active
      c.reach s low .read 8 (fun _ => a) = .ok ps → c.raceOf s (fun _ => true) (fun _ => false) low (fun _ => a) ps = none →
      ∃ u, SameButRaces s u ∧
        exec (.sld x) s = .next (c.finish { s := u, dst := some (Lanes.all (s.readPlaces (vget ps (lowest c.active)))),
                                            late := some (.here, 0) }))

/-- R144, R145, R299: a store whose addresses are aligned and granted and that races with nothing completes: the active lanes write the low
bytes of their values at their places in ascending lane order. R142, R150, R159, R299, R301: an access of LD, LDS, LDC, SLD, ST, STS, MLD, MST,
LDF, STF, TESTF, ATOM, ATOM.cas or RED that is not aligned, that no extent or scratchpad grants, or that races faults, the first of these that
holds, with the address of its lowest lane for the first two; an atomic does so after STALE_SCOPE, and its index is looked at before the
race. -/
def Obligations.StoresAndFaults : Prop :=
  (∀ (s : State) (x : Ops),
    let n := szBytes (x.sb 2 0)
    (∀ c ps, Ready s (.st x) x c → c.reach s c.active .write n c.ea = .ok ps →
      c.raceOf s (c.boundStore s n true ps) (fun _ => true) c.active c.ea ps = none →
      ∃ u, SameButRaces (c.storedAt s ps fun k => c.vd[k]) u ∧ exec (.st x) s = .next (c.finish { s := u })) ∧
    (∀ c ps, Ready s (.sts x) x c → c.reach s c.active .write n c.scratchAddr = .ok ps →
      c.raceOf s (c.boundStore s n false ps) (fun _ => true) c.active c.scratchAddr ps = none →
      ∃ u, SameButRaces (c.storedAt s ps fun k => c.vd[k]) u ∧ exec (.sts x) s = .next (c.finish { s := u }))) ∧
  (∀ (s : State) (x : Ops) (c : Ctx),
    let n := szBytes (x.sb 2 0)
    let refused (i : Instr) (need : Acc) (addr : Fin 32 → Nat) : Prop := Ready s i x c →
      ∀ t, c.reach s c.active need n addr = .error t → exec i s = .next (c.fault s t)
    let racing (i : Instr) (need : Acc) (atomic : Lanes (List Place) → Fin 32 → Bool) : Prop := Ready s i x c →
      ∀ ps t, c.reach s c.active need n c.ea = .ok ps → c.raceOf s (atomic ps) (fun _ => need == .write) c.active c.ea ps = some t →
        exec i s = .next (c.fault s t)
    let m := moBytes x
    let moment (i : Instr) (need : Acc) : Prop := Ready s i x c →
      (∀ t, c.reach s c.active need m c.ea = .error t → exec i s = .next (c.fault s t)) ∧
      (∀ ps t, c.reach s c.active need m c.ea = .ok ps → c.raceOf s (fun _ => false) (fun _ => need == .write) c.active c.ea ps = some t →
        exec i s = .next (c.fault s t))
    let atomic (i : Instr) (width e : Nat) (new : Fin 32 → Nat → Option Nat) : Prop := Ready s i x c → c.scopeTrouble s e = none →
      (∀ t, c.reach s c.active .both width (fun k => c.va[k]) = .error t → exec i s = .next (c.fault s t)) ∧
      (∀ ps t, c.reach s c.active .both width (fun k => c.va[k]) = .ok ps → e ≤ 63 →
        c.raceOf s (fun _ => true) (fun k => inMask (c.writers s ps new) k) c.active (fun k => c.va[k]) ps = some t →
        exec i s = .next (c.fault s t))
    let w := 32 * (x.sb 6 6 + 1)
    let op (k : Fin 32) (old : Nat) : Option Nat := some (atomicOp (x.sb 3 0) w old c.vd[k])
    refused (.ld x) .read c.ea ∧ refused (.lds x) .read c.scratchAddr ∧ refused (.st x) .write c.ea ∧ refused (.sts x) .write c.scratchAddr ∧
    racing (.ld x) .read (c.boundLoad s n) ∧ racing (.st x) .write (c.boundStore s n true) ∧
    moment (.mld x) .read ∧ moment (.mst x) .write ∧
    (Ready s (.stf x) x c → ∀ t, c.reach s c.active .write 4 c.scratchAddr = .error t → exec (.stf x) s = .next (c.fault s t)) ∧
    (Ready s (.testf x) x c → ∀ t, c.reach s c.active .read 4 c.scratchAddr = .error t → exec (.testf x) s = .next (c.fault s t)) ∧
    (∀ g lanes, Ready s (.ldf x) x c → c.w = .gang g lanes → ∀ t, c.reach s c.active .read 4 c.scratchAddr = .error t →
      exec (.ldf x) s = .next ((c.fault s t).orphanTest g.chip g.task)) ∧
    atomic (.atom x) (w / 8) (c.once c.vb) op ∧ atomic (.red x) (w / 8) (c.once c.vb) op ∧
    atomic (.atomCas x) (if x.sb 0 0 = 1 then 16 else 4 * (x.sb 3 3 + 1)) (c.once c.vc) (fun k old => if old = c.vd[k] then some c.vb[k] else none) ∧
    (Ready s (.sld x) x c →
      let a := (c.once c.va + c.once c.vb) % 2 ^ 64
      let low : LaneMask := 1#32 <<< lowest c.active
      (∀ t, c.reach s low .read 8 (fun _ => a) = .error t → exec (.sld x) s = .next (c.fault s t)) ∧
      (∀ ps t, c.reach s low .read 8 (fun _ => a) = .ok ps → c.raceOf s (fun _ => true) (fun _ => false) low (fun _ => a) ps = some t →
        exec (.sld x) s = .next (c.fault s t))) ∧
    (∀ g lanes k, Ready s (.ldc x) x c → c.w = .gang g lanes → s.task? g.chip g.task = some k →
      let addr (j : Fin 32) : Nat := (k.image.toNat + c.off j) % 2 ^ 64
      let place (j : Fin 32) : List (Option Place) := (List.range n).map fun b => extentPlace c.chip (k.extents.take 1) .read (addr j + b)
      let bad := maskOf fun j => inMask c.active j && addr j % n != 0
      let out := maskOf fun j => inMask c.active j && (place j).any Option.isNone
      (bad ≠ 0 → exec (.ldc x) s = .next (c.fault s { cause := 7, lanes := bad, addr := BitVec.ofNat 64 (addr (Fin.ofNat 32 (lowest bad))) })) ∧
      (bad = 0 → out ≠ 0 →
        exec (.ldc x) s = .next (c.fault s { cause := 5, lanes := out, addr := BitVec.ofNat 64 (addr (Fin.ofNat 32 (lowest out))) })) ∧
      (∀ ps t, bad = 0 → (∀ j : Fin 32, inMask c.active j = true → place j = ps[j].map some) → (∀ j : Fin 32, inMask c.active j = false → ps[j] = []) →
        c.raceOf s (fun _ => false) (fun _ => false) c.active addr ps = some t → exec (.ldc x) s = .next (c.fault s t))) ∧
    (∀ m need addr t, c.reach s m need n addr = .error t → t.addr = BitVec.ofNat 64 (addr (Fin.ofNat 32 (lowest t.lanes))) ∧
      ((t.cause = 7 ∧ t.lanes = maskOf fun k => inMask m k && addr k % n != 0) ∨
       (t.cause = 5 ∧ (∀ k : Fin 32, inMask m k = true → addr k % n = 0) ∧
         t.lanes = maskOf fun k => inMask m k && (s.places c.w k.val need (addr k) n).isNone))) ∧
    (∀ atomic write m addr ps t, c.raceOf s atomic write m addr ps = some t → t.cause = 8 ∧
      t.lanes = maskOf fun k => inMask m k && (s.findRace (c.actor s k) (atomic k) (write k) (addr k) ps[k]).isSome))

/-- R150 to R152, R159, R299, R307: an atomic whose scope entry does not serve takes STALE_SCOPE, before any check of its addresses, and one whose
index is above 63 ILLEGAL_OPERAND after them; an atomic whose scope entry serves, whose addresses are aligned and granted for reading and writing, and
that races with nothing completes: lane after lane reads its old value and writes the new one; ATOM's destination receives the old
values as an outstanding result. A compare-and-swap writes SB where the old value equals DST. -/
def Obligations.AtomicsComplete : Prop :=
  ∀ (s : State) (x : Ops) (c : Ctx) (ps : Lanes (List Place)),
    let w := 32 * (x.sb 6 6 + 1)
    let op (k : Fin 32) (old : Nat) : Option Nat := some (atomicOp (x.sb 3 0) w old c.vd[k])
    let n := if x.sb 0 0 = 1 then 16 else 4 * (x.sb 3 3 + 1)
    let cas (k : Fin 32) (old : Nat) : Option Nat := if old = c.vd[k] then some c.vb[k] else none
    let clear (e width : Nat) (new : Fin 32 → Nat → Option Nat) : Prop := e ≤ 63 ∧ c.scopeTrouble s e = none ∧
      c.reach s c.active .both width (fun k => c.va[k]) = .ok ps ∧
      c.raceOf s (fun _ => true) (fun k => inMask (c.writers s ps new) k) c.active (fun k => c.va[k]) ps = none
    let fetched (u : State) (v : Lanes Nat) : Out := { s := u, dst := some v, late := some (.here, 0) }
    (Ready s (.atom x) x c → c.room s = true → clear (c.once c.vb) (w / 8) op →
      ∃ u, SameButRaces (c.rmwAt s ps op).1 u ∧ exec (.atom x) s = .next (c.finish (fetched u (c.rmwAt s ps op).2))) ∧
    (Ready s (.atomCas x) x c → c.room s = true → clear (c.once c.vc) n cas →
      ∃ u, SameButRaces (c.rmwAt s ps cas).1 u ∧ exec (.atomCas x) s = .next (c.finish (fetched u (c.rmwAt s ps cas).2))) ∧
    (Ready s (.red x) x c → clear (c.once c.vb) (w / 8) op →
      ∃ u, SameButRaces (c.rmwAt s ps op).1 u ∧ exec (.red x) s = .next (c.finish { s := u })) ∧
    (let index (i : Instr) (e width : Nat) : Prop := Ready s i x c →
        (∀ t, c.scopeTrouble s e = some t → exec i s = .next (c.fault s t)) ∧
        (63 < e → c.reach s c.active .both width (fun k => c.va[k]) = .ok ps → exec i s = .next (c.fault s { cause := 2, lanes := c.active }))
     index (.atom x) (c.once c.vb) (w / 8) ∧ index (.red x) (c.once c.vb) (w / 8) ∧ index (.atomCas x) (c.once c.vc) n) ∧
    (∀ e t, c.scopeTrouble s e = some t → t.cause = 9 ∧ t.lanes = c.active ∧ e ≤ 63)

/-- R147 to R149: LDF of lanes that no EMPTY_ORPHAN has found completes when every word its active lanes name is full: it reads them and, but
for .keep, marks them empty; with a word empty the active lanes wait; after both the EMPTY_ORPHAN test is made. STF writes and marks full; TESTF reads the mark. -/
def Obligations.FullEmptyWords : Prop :=
  ∀ (s : State) (x : Ops) (c : Ctx) (ps : Lanes (List Place)),
    (∀ g lanes, Ready s (.ldf x) x c → c.room s = true → c.w = .gang g lanes → c.reach s c.active .read 4 c.scratchAddr = .ok ps →
      (∀ m ∈ c.g.orphaned, m.2 ≠ c.pc ∨ m.1 &&& c.active = 0) → (∀ k : Fin 32, inMask c.active k = true → s.fullAt c.chip ps[k] = true) →
      ∃ u, SameButRaces (if x.sub = 0 then (lanesOf c.active).foldl (fun s k => s.markWord c.chip ps[k] 0) s else s) u ∧
        exec (.ldf x) s = .next (State.orphanTest (c.finish { s := u, dst := some (c.lanesOnly fun k => s.readPlaces ps[k]),
                                                              late := some (.here, 0) }) g.chip g.task)) ∧
    (∀ g lanes (k : Fin 32), Ready s (.ldf x) x c → c.w = .gang g lanes → c.reach s c.active .read 4 c.scratchAddr = .ok ps →
      (∀ m ∈ c.g.orphaned, m.2 ≠ c.pc ∨ m.1 &&& c.active = 0) → inMask c.active k = true → s.fullAt c.chip ps[k] = false →
      exec (.ldf x) s = .next ((c.hold s .ldf (BitVec.ofNat 64 (c.scratchAddr (Fin.ofNat 32 (lowest c.active)))) 0).orphanTest g.chip g.task)) ∧
    (Ready s (.stf x) x c → c.reach s c.active .write 4 c.scratchAddr = .ok ps →
      ∃ u, SameButRaces ((lanesOf c.active).foldl (fun s k => match scratchOf ps[k] with
          | some _ => (s.writePlaces ps[k] c.vd[k]).markWord c.chip ps[k] 1 | none => s) s) u ∧
        exec (.stf x) s = .next (c.finish { s := u })) ∧
    (Ready s (.testf x) x c → c.room s = true → c.reach s c.active .read 4 c.scratchAddr = .ok ps →
      ∃ u, SameButRaces s u ∧
        exec (.testf x) s = .next (c.finish { s := u, dst := some (c.lanesOnly fun k => if s.fullAt c.chip ps[k] then 1 else 0) }))

/-- R153 to R156, R275: FENCE at a scope entry that serves changes the race record only; IFENCE and PREF nothing; AWIN moves between a
window's offsets and its addresses, all ones where there is none; ISSPACE tests a window or half of the address space. That IFENCE changes
nothing, since every fetch sees memory as it stands (log entry 12), and that PREF changes nothing, since caches are left out (96), are the
model's choices. -/
def Obligations.FencesWindows : Prop :=
  ∀ (s : State) (x : Ops),
    (∀ c, Ready s (.fence x) x c → c.once c.va ≤ 63 → c.scopeTrouble s (c.once c.va) = none →
      ∃ u, SameButRaces s u ∧ exec (.fence x) s = .next (c.finish { s := u })) ∧
    (∀ c t, Ready s (.fence x) x c → c.scopeTrouble s (c.once c.va) = some t → exec (.fence x) s = .next (c.fault s t)) ∧
    (∀ c, Ready s (.fence x) x c → 63 < c.once c.va → exec (.fence x) s = .next (c.fault s { cause := 2, lanes := c.active })) ∧
    Does s (.ifence x) x (fun _ => s) ∧ Does s (.pref x) x (fun _ => s) ∧
    Yields s (.awin x) x (fun _ => s) (fun c k =>
      let base := (windowOf (x.sb 1 0)).1
      let size := (windowOf (x.sb 1 0)).2
      let a := c.ea k
      if x.sb 2 2 = 0 then (if base ≤ a ∧ a < base + size then a - base else 2 ^ 64 - 1) else (if a < size then base + a else 2 ^ 64 - 1)) ∧
    (x.sub.toNat ≤ 3 → Yields s (.isspace x) x (fun _ => s) (fun c k =>
      if (windowOf x.sub.toNat).1 ≤ c.va[k] ∧ c.va[k] < (windowOf x.sub.toNat).1 + (windowOf x.sub.toNat).2 then 1 else 0)) ∧
    (x.sub = 4 → Yields s (.isspace x) x (fun _ => s) (fun c k => if c.va[k] < 2 ^ 63 then 1 else 0)) ∧
    (x.sub = 5 → Yields s (.isspace x) x (fun _ => s)
      (fun c k => if 0x8000000000000000 ≤ c.va[k] ∧ c.va[k] < 0x8002000000000000 then 1 else 0))

/-! ### Barriers, counters, scopes -/

/-- R164: an arrival of k lanes with count n on a valid object whose count is 0 or n, and that leaves room for k, counts them; the last
one, with no bytes due, ends the phase: PHASE goes up by one modulo 2^31, COUNT and ARRIVED become 0. Any other arrival is
BARRIER_MISMATCH. Bytes that are expected add, and each byte that
lands subtracts one modulo 2^32, and may end the phase of a valid object likewise; n bytes land one after another. That k lanes expect one after
another is the model's (log entry 13). -/
def Obligations.BarrierObject : Prop :=
  ∀ (b : BarObj) (k n : Nat),
    let ended (d : BarObj) : BarObj := { d with phase := (d.phase + 1) % 2 ^ 31, count := 0, arrived := 0 }
    (b.v = true → n ≠ 0 → (b.count = 0 ∨ b.count = n) → b.arrived + k ≤ n →
      b.arrive k n = some (if b.arrived + k = n ∧ b.bytes = 0 then ended { b with count := n, arrived := b.arrived + k }
                           else { b with count := n, arrived := b.arrived + k })) ∧
    (b.v = false ∨ n = 0 ∨ (b.count ≠ 0 ∧ b.count ≠ n) ∨ n < b.arrived + k → b.arrive k n = none) ∧
    (b.v = true → b.bytes + n < 2 ^ 31 →
      b.expect n = some (if b.count ≠ 0 ∧ b.arrived = b.count ∧ b.bytes + n = 0 then ended { b with bytes := b.bytes + n }
                         else { b with bytes := b.bytes + n })) ∧
    (b.v = false ∨ 2 ^ 31 ≤ b.bytes + n → b.expect n = none) ∧
    b.expects n 0 = some b ∧ b.expects n (k + 1) = (b.expect n).bind (fun d => d.expects n k) ∧
    b.land 0 = b ∧ b.land (n + 1) = (b.land 1).land n ∧
    (-2 ^ 31 ≤ b.bytes → b.bytes < 2 ^ 31 →
      let left : BarObj := { b with bytes := if b.bytes = -2 ^ 31 then 2 ^ 31 - 1 else b.bytes - 1 }
      b.land 1 = (if b.v = true ∧ b.count ≠ 0 ∧ b.arrived = b.count ∧ b.bytes = 1 then ended left else left))

/-- R162 to R165: a BAR instruction whose object is aligned and granted and that races with nothing completes. BAR.INIT makes the object
valid and else zero; BAR.ARRIVE counts its active lanes and delivers the phase before; BAR.EXPECT adds its bytes for each active lane, which
is the model's choice (log entry 13); BAR.WAIT goes on where no lane's token is the phase, and waits where one is; BAR.TEST says so for each
lane. -/
def Obligations.BarriersComplete : Prop :=
  ∀ (s : State) (x : Ops) (c : Ctx) (ps : List Place),
    let a := c.once c.va
    let b := BarObj.ofNat (s.readPlaces ps)
    let free (need : Acc) (write : Bool) : Prop :=
      c.barReach s need a = .ok ps ∧ c.raceOf s (fun _ => true) (fun _ => write) c.active (fun _ => a) (Lanes.all ps) = none
    (Ready s (.barInit x) x c → free .write true →
      ∃ u, SameButRaces (s.writePlaces ps (2 ^ 127)) u ∧ exec (.barInit x) s = .next (c.finish { s := u })) ∧
    (∀ b', Ready s (.barArrive x) x c → c.room s = true → free .both true → b.arrive (laneCount c.active) (c.once c.vb) = some b' →
      ∃ u, SameButRaces (s.writePlaces ps b'.toNat) u ∧
        exec (.barArrive x) s = .next (c.finish { s := u, dst := some (c.lanesOnly fun _ => b.phase) })) ∧
    (Ready s (.barArrive x) x c → free .both true → b.arrive (laneCount c.active) (c.once c.vb) = none →
      exec (.barArrive x) s = .next (c.fault s { cause := 13, lanes := c.active, addr := BitVec.ofNat 64 a })) ∧
    (∀ b', Ready s (.barExpect x) x c → free .both true → c.once c.vb < 2 ^ 31 → b.expects (c.once c.vb) (laneCount c.active) = some b' →
      ∃ u, SameButRaces (s.writePlaces ps b'.toNat) u ∧ exec (.barExpect x) s = .next (c.finish { s := u })) ∧
    (Ready s (.barWait x) x c → free .read false → (∀ k : Fin 32, inMask c.active k = true → c.vb[k] ≠ b.phase) →
      ∃ u, SameButRaces s u ∧ exec (.barWait x) s = .next (c.finish { s := u })) ∧
    (∀ k : Fin 32, Ready s (.barWait x) x c → free .read false → inMask c.active k = true → c.vb[k] = b.phase →
      exec (.barWait x) s = .next (c.hold s .barWait (BitVec.ofNat 64 a) (BitVec.ofNat 32 (c.once c.vb)))) ∧
    (Ready s (.barTest x) x c → c.room s = true → free .read false →
      ∃ u, SameButRaces s u ∧
        exec (.barTest x) s = .next (c.finish { s := u, dst := some (c.lanesOnly fun k => if c.vb[k] ≠ b.phase then 1 else 0) }))

/-- R157 to R160, R306: TLWAIT goes on when its counter has reached the value and waits before; SCOPEW writes an entry from its record and
binds the issuing gang to the new version; SCOPERET empties one; SCOPEBIND binds; SCOPEQ reports. Entries 0 to 4 cannot be written, and an index
above 63 names none. What a handler binds stays bound as its gang returns (R307), and so its frame notes it (log entry 125). -/
def Obligations.CountersScopes : Prop :=
  ∀ (s : State) (x : Ops) (c : Ctx),
    let e := c.once c.va
    let n := opndBits x.a.opnd % 8
    (Ready s (.tlwait x) x c → c.once c.vb ≤ c.counter s n →
      ∃ u, SameButRaces s u ∧ exec (.tlwait x) s = .next (c.finish { s := u })) ∧
    (Ready s (.tlwait x) x c → c.counter s n < c.once c.vb →
      exec (.tlwait x) s = .next (c.hold s .tlwait (BitVec.ofNat 64 n) (BitVec.ofNat 32 (c.once c.vb)))) ∧
    (∀ u bs k, Ready s (.scopew x) x c → 5 ≤ e → e ≤ 63 → c.record s (c.once c.vb) 64 64 = .ok (u, bs) → s.chip? c.chip = some k →
      let mask : CoreMask := BitVec.ofNat 160 (field bs 0 20)
      let ag := field bs 0x14 1
      mask ≠ 0 → mask &&& ~~~k.coreMask = 0 → ag ≤ 3 → field bs 0x15 43 = 0 →
      SameButRaces s u ∧ exec (.scopew x) s = .next (c.finish { s := c.writeScope u e mask (ag.testBit 0) (ag.testBit 1) })) ∧
    (Ready s (.scoperet x) x c → 5 ≤ e → e ≤ 63 → exec (.scoperet x) s = .next (c.finish { s := c.writeScope s e 0 false false })) ∧
    (∀ ps, Ready s (.scopew x) x c → e < 5 ∨ 63 < e → c.recordAt s (c.once c.vb) 64 64 = .ok ps →
      exec (.scopew x) s = .next (c.fault s { cause := 2, lanes := c.active })) ∧
    (Ready s (.scoperet x) x c → e < 5 ∨ 63 < e → exec (.scoperet x) s = .next (c.fault s { cause := 2, lanes := c.active })) ∧
    (Ready s (.scopebind x) x c → 63 < e → exec (.scopebind x) s = .next (c.fault s { cause := 2, lanes := c.active })) ∧
    (Ready s (.scopeq x) x c → 63 < e → exec (.scopeq x) s = .next (c.fault s { cause := 2, lanes := c.active })) ∧
    (∀ k, Ready s (.scopebind x) x c → e ≤ 63 → s.chip? c.chip = some k →
      exec (.scopebind x) s = .next (c.finish { s := s.updGangOf c.w fun g =>
        { g with bind := vset g.bind e (some (vget k.scopes e).version), mark := g.mark.map (·.rebind e) } })) ∧
    (∀ k, Ready s (.scopeq x) x c → c.room s = true → e ≤ 63 → s.chip? c.chip = some k →
      exec (.scopeq x) s = .next (c.finish { s := s, dst := some (c.lanesOnly fun _ => scopeWord k c.g e c.core.core) }))

/-! ### Engines -/

/-- R171, R175, R177 to R180, R184 to R186: a matrix instruction whose own checks pass and which no stall holds completes with its command
at the end of the queue, an operation of the counter it names. R171: a matrix instruction of a task waits while another task holds the
array, while its own array state is still to be restored, or while 16 commands stand in the queue or an MRES of the task waits. R192 to R194:
MSAVE writes the image of the array as it stops and empties the queue, once the array can stop; MRES restores a checked image, once no matrix
command is outstanding. That a waiting MRES holds the queue, and that the commands it restores take the tickets the task holds and the MRES as
their issuer, is the model's (log entry 15). -/
def Obligations.MatrixInstructions : Prop :=
  ((∀ (s : State) (x : Ops) (c : Ctx) (chip task : Nat) (t : Task) (u : State), c.mayQueue s chip task t u →
    let va := c.once c.va
    let vb := c.once c.vb
    let tile := opndBits x.dst % 256
    let alloc := t.scrp * 2048
    let enters (i : Instr) (counter : Option Nat) (mk : IssuedBy → MCmd) : Prop :=
      exec i s = .next (c.finish { s := c.queued u chip task counter mk })
    (Ready s (.wld x) x c → vb < 2 ^ 20 → va % 4 = 0 →
      enters (.wld x) (some (opndBits x.dst % 8)) fun b => ⟨0, vb % 64, opndBits x.dst % 8, 0, va, BitVec.ofNat 64 vb, 0, b⟩) ∧
    (Ready s (.wsel x) x c → va ≤ 63 → enters (.wsel x) none fun b => ⟨1, va, 0, 0, 0, 0, 0, b⟩) ∧
    (Ready s (.mma x) x c → mcwFault alloc (Mcw.of vb) va tile false = none →
      enters (.mma x) (some (opndBits x.c.opnd % 8)) fun b => ⟨2, tile, opndBits x.c.opnd % 8, 0, va, BitVec.ofNat 64 vb, 0, b⟩) ∧
    (Ready s (.mmam x) x c → mcwFault alloc (Mcw.of vb) va tile true = none →
      enters (.mmam x) (some (opndBits x.c.opnd % 8)) fun b => ⟨3, tile, opndBits x.c.opnd % 8, 0, va, BitVec.ofNat 64 vb, 0, b⟩) ∧
    (Ready s (.aclr x) x c → tile + (x.sb 3 0 + 1) ≤ 16 →
      enters (.aclr x) none fun b => ⟨4, tile, 0, x.sb 3 0 + 1, 0, 0, 0, b⟩) ∧
    (Ready s (.adrn x) x c → (Dw.of va vb).fault alloc tile = none →
      enters (.adrn x) (some (Dw.of va vb).tl) fun b =>
        ⟨5, tile, (Dw.of va vb).tl, 0, (Dw.of va vb).o0, BitVec.ofNat 64 va, BitVec.ofNat 64 vb, b⟩) ∧
    (Ready s (.epld x) x c → va % 64 = 0 →
      (∀ k < 128, (extentPlace chip (t.extents.take 1) .read ((t.image.toNat + va) % 2 ^ 64 + k)).isSome = true) →
      enters (.epld x) none fun b => ⟨6, 0, 0, 0, va, 0, 0, b⟩)) ∧
  (∀ (s : State) (x : Ops) (c : Ctx) (chip task : Nat) (t : Task), Ready s (.wsel x) x c → c.once c.va ≤ 63 →
    c.ownTask s = some (chip, task, t) →
    (∀ h, (s.core c.core).holder = some h → h ≠ (chip, task) → exec (.wsel x) s = .next (c.hold s .arrayHeld 0 0)) ∧
    (t.arrayDue = true → exec (.wsel x) s = .next (c.hold s .arrayHeld 0 0)) ∧
    ((s.core c.core).holder = some (chip, task) → t.arrayDue = false → 16 ≤ t.arr.depth ∨ t.mresWaits = true →
      exec (.wsel x) s = .next (c.hold s .queueFull 0 0)))) ∧
  (∀ (s v w : State) (x : Ops) (c : Ctx) (ps : List Place) (chip task : Nat) (u : Task),
    c.ownTask s = some (chip, task, u) → s.holdArray c.core chip task = some v → u.arrayDue = false →
    (Ready s (.msave x) x c → c.imageReach s .write = .ok ps → u.arr.mayStop = true →
      c.imageAccess v true ps = .ok w →
      ∃ y, SameButRaces (v.writeBytes ps u.stopArr.image) y ∧
        exec (.msave x) s = .next (c.finish { s := y.updArr chip task fun a => { a with flight := none, queue := [] } })) ∧
    (Ready s (.mres x) x c → c.imageReach s .read = .ok ps → u.arr.depth = 0 → c.imageAccess v false ps = .ok w →
      imageOk (u.scrp * 2048) (u.epldReach chip) (s.bytesAt ps) = true →
      let back (t : Task) : Task := t.restoreArr (s.ticketsHeld chip task) (c.issueBy w none).1 (s.bytesAt ps)
      SameButRaces v w ∧ exec (.mres x) s = .next (c.finish { s := (c.issueBy w none).2.updTask chip task back })))

/-- R195, R197: QNT with a good record whose ranges are granted joins its die's queue; QWAIT goes on when no command of the engines it names
is outstanding, and waits before. R196, R342: a die's quantiser starts its oldest command when its source is granted and races with nothing,
and completes a running one: the outputs are written and the counter advances, in a saved task too, whose seal follows (R406, R412). -/
def Obligations.Quantiser : Prop :=
  (∀ (s : State) (x : Ops) (c : Ctx) (chip task : Nat) (t : Task), c.ownTask s = some (chip, task, t) →
    (∀ u bs d ins outs, Ready s (.qnt x) x c → c.record s (c.once c.va) 64 64 = .ok (u, bs) → u.dev? c.core.dev = some d →
      (QRec.of bs).ok bs = true → t.ranges chip .read (QRec.of bs).sources = .ok ins → t.ranges chip .write (QRec.of bs).outputs = .ok outs →
      (d.quant (dieOf c.core.core)).length < 256 →
      let r := c.issueBy u (some (opndBits x.dst % 8))
      let die := dieOf c.core.core
      let joined (d : Device) : Device := d.setQuant die (d.quant die ++ [⟨chip, task, opndBits x.dst % 8, r.1, bs, false⟩])
      SameButRaces s u ∧ exec (.qnt x) s = .next (c.finish { s := r.2.updDev c.core.dev joined })) ∧
    (let k := x.sub.toNat % 4
     let busy : Prop := (k ≠ 1 ∧ s.quantBusy chip task t.seq = true) ∨ (k ≠ 0 ∧ t.matrixBusy t.seq = true)
     (Ready s (.qwait x) x c → ¬ busy → ∃ u, SameButRaces s u ∧ exec (.qwait x) s = .next (c.finish { s := u })) ∧
     (Ready s (.qwait x) x c → busy → exec (.qwait x) s = .next (c.hold s .qwait 0 0)))) ∧
  (∀ (s : State) (dev die : Nat) (d : Device) (q : QCmd) (rest : List QCmd) (t : Task), s.dev? dev = some d → die ≤ 1 → d.quant die = q :: rest →
    s.task? q.chip q.task = some t →
    (∀ rs, q.running = false → t.ranges q.chip .read (QRec.of q.record).sources = .ok rs → s.engineRaces q.chip q.task q.by_ false rs = none →
      exec (.qntExecute dev die) s =
        .next ((s.engineNotes q.chip q.task q.by_ false rs).updDev dev fun d => d.setQuant die ({ q with running := true } :: rest))) ∧
    (∀ rs os, q.running = true → t.ranges q.chip .read (QRec.of q.record).sources = .ok rs →
      t.ranges q.chip .write (QRec.of q.record).outputs = .ok os →
      let plane := (os.getLast?.map fun o => s.bytesAt o.2).getD []
      let outs := (QRec.of q.record).results (rs.map fun p => s.bytesAt p.2) plane
      let ws := (outs.zip os).map fun p => (p.1.1, p.2.2.take p.1.2.length, p.1.2)
      s.engineRaces q.chip q.task q.by_ true (ws.map fun w => (w.1, w.2.1)) = none →
      ∃ written u, SameButRaces (ws.foldl (fun s w => s.writeBytes w.2.1 w.2.2) s) written ∧
        SameButRaces (((written.quantPop dev die).finishOp q.chip q.task q.tl q.by_).resealTask q.chip q.task) u ∧
        exec (.qntComplete dev die) s = .next u))

/-- R166 to R168: HMK copies a good descriptor into its handle; CPY and CPYG whose record, box and ranges pass the checks join their core's
copy queue, an operation of the counter they name. R169, R170: a queued copy starts; elements of a moving copy that can move land in box
order, those that share a word together (R154), with their bytes counted on its barrier, and a copy from pod space asks for its next element
(R377); a landed copy with a follow-on command enters it in the matrix queue, and one without, or whose command has entered or is discarded with
its task (R246), completes. That elements land in pieces of any number is the model's (log entries 40, 41, 127), and so is that a copy from pod
space asks element by element (log entry 111). -/
def Obligations.TensorCopies : Prop :=
  (∀ (s : State) (x : Ops) (c : Ctx),
    (∀ u bs h, Ready s (.hmk x) x c → c.record s ((c.once c.va + c.once c.vb) % 2 ^ 64) 64 256 = .ok (u, bs) → handleOf bs = some h →
      SameButRaces s u ∧ exec (.hmk x) s =
        .next (c.finish { s := u.updGangOf c.w fun g => { g with hand := vset g.hand (opndBits x.dst % 16) (some h) } })) ∧
    (∀ v u bs h (gather : Bool), Ready s (if gather then .cpyg x else .cpy x) x c → c.record s (c.once c.vb) 64 128 = .ok (v, bs) →
      c.handle v = .ok (u, some h) →
      let rows := (lanesOf c.active).map fun k => c.vc[k]
      let b : Box := ⟨h, CopyRec.of bs, if gather then some rows else none⟩
      let r := c.issueBy u (some (opndBits x.dst % 8))
      let task := match c.w with | .gang g _ => g.task | .ctrl _ => ctrlTask
      c.copyFault u b bs (c.copyTask u) = none → u.copyHeld c.chip b = none → (u.core c.core).copyq.length < 64 →
      let cmd : CopyCmd := ⟨if gather then 2 else 1, c.chip, task, opndBits x.dst % 8, r.1, bs, some h, if gather then rows else [], 0, .queued, none, u.regionsSeen c.chip b⟩
      SameButRaces s u ∧ exec (if gather then .cpyg x else .cpy x) s =
        .next (c.finish { s := r.2.updCore c.core fun k => { k with copyq := k.copyq ++ [cmd] } }))) ∧
  (∀ (s : State) (core : CoreRef) (k : Nat) (q : CopyCmd), s.copyAt core k = some q → q.kind ≠ 3 →
    (q.phase = .queued → exec (.copyStart core k) s = .next (s.setCopy core k fun q => { q with phase := .moving })) ∧
    (∀ b n, q.toBox = some b → q.phase = .moving → n ≠ 0 →
      let m := min n (b.count - q.prog)
      let r := s.moveElems core q b q.prog (m + b.inWord (q.prog + m) 3)
      r.2.2 = none → r.2.1 ≠ 0 →
      exec (.copyByteLanding core k n) s = .next ((r.1.landBytes q b (r.2.1 * b.es)).copyOn core q b r.2.1)) ∧
    (∀ b n u num, q.toBox = some b → q.phase = .moving → n ≠ 0 →
      let m := min n (b.count - q.prog)
      let r := s.moveElems core q b q.prog (m + b.inWord (q.prog + m) 3)
      r.2.2 = none → r.2.1 = 0 → s.askElem q b = some (u, num) →
      exec (.copyByteLanding core k n) s = .next (u.setCopy core k fun q => { q with asked := some num })) ∧
    (∀ b n e, q.toBox = some b → q.phase = .moving → n ≠ 0 →
      let m := min n (b.count - q.prog)
      let r := s.moveElems core q b q.prog (m + b.inWord (q.prog + m) 3)
      r.2.2 = some e →
      exec (.copyByteLanding core k n) s =
        .next (((r.1.landBytes q b (r.2.1 * b.es)).dropCopy core k).engineFault q.chip q.task q.by_ e)) ∧
    (∀ t u, q.phase = .landed → (CopyRec.of q.record).fmm = true → s.task? q.chip q.task = some t →
      s.holdArray core q.chip q.task = some u → t.arrayDue = false → t.ended = false → t.mresWaits = false → t.arr.depth < 16 →
      ∃ v w cmd, exec (.copyFollowOnEntry core k) s = .next v ∧ v.task? q.chip q.task = some w ∧ w.arr.queue = t.arr.queue ++ [cmd] ∧
        let r := CopyRec.of q.record
        cmd.op = (if r.op = 1 then 3 else 2) ∧ cmd.tile = r.tile ∧ cmd.tl = r.tl ∧ cmd.aoff = r.aoff ∧ cmd.w0 = BitVec.ofNat 64 r.mcw ∧
        v.hostMem = s.hostMem ∧ v.packets = s.packets) ∧
    (q.phase = .entered ∨ (q.phase = .landed ∧ ((CopyRec.of q.record).fmm = false ∨ ∃ t, s.task? q.chip q.task = some t ∧ t.ended = true)) →
      exec (.copyComplete core k) s = .next ((s.dropCopy core k).finishOp q.chip q.task q.tl q.by_)))

/-! ### Moments -/

/-- R199 to R203: a moment instruction whose variances are good, and whose correlation is, delivers the moments of its rule through
write_moment, with the flags it raises. MMOV copies 64 bits. -/
def Obligations.MomentResults : Prop :=
  ∀ (s : State) (x : Ops),
    let two (c : Ctx) : Prop := c.varsOk c.va ∧ c.varsOk c.vb
    let mean (v : Lanes Nat) (k : Fin 32) : Mo := Mo.of v[k]
    (∀ rho, YieldsMoment s (.madd x) x (fun c => c.rho = .ok rho ∧ two c) fun c k =>
      let r := moSum false rho (mean c.va k) (mean c.vb k)
      writeMoment ((mean c.va k).mean.isNan || (mean c.vb k).mean.isNan) r.1 r.2) ∧
    (∀ rho, YieldsMoment s (.msub x) x (fun c => c.rho = .ok rho ∧ two c) fun c k =>
      let r := moSum true rho (mean c.va k) (mean c.vb k)
      writeMoment ((mean c.va k).mean.isNan || (mean c.vb k).mean.isNan) r.1 r.2) ∧
    (∀ rho, YieldsMoment s (.mmul x) x (fun c => c.rho = .ok rho ∧ two c) fun c k =>
      let r := moProd rho (mean c.va k) (mean c.vb k)
      writeMoment ((mean c.va k).mean.isNan || (mean c.vb k).mean.isNan) r.1 r.2) ∧
    (∀ rho, YieldsMoment s (.mfma x) x (fun c => c.rho = .ok rho ∧ two c ∧ c.varsOk c.vc) fun c k =>
      let r := moProd rho (mean c.va k) (mean c.vb k)
      let p := writeMoment ((mean c.va k).mean.isNan || (mean c.vb k).mean.isNan) r.1 r.2
      let t := moSum false none (Mo.of p.1) (mean c.vc k)
      let w := writeMoment ((Mo.of p.1).mean.isNan || (mean c.vc k).mean.isNan) t.1 t.2
      (w.1, w.2 ||| p.2)) ∧
    YieldsMoment s (.mscl x) x (fun c => c.varsOk c.va) (fun c k =>
      let b := Fm.decode .f32 c.vb[k]
      writeMoment ((mean c.va k).mean.isNan || b.isNan) (mulDef (some (mean c.va k).mean) (some b)) (mulAll [(mean c.va k).var, b, b])) ∧
    YieldsMoment s (.mset x) x (fun c => ∀ k : Fin 32, inMask c.active k = true → badVar (Fm.decode .f32 c.vb[k]) = false) (fun c k =>
      let a := Fm.decode .f32 c.va[k]
      writeMoment a.isNan (some a) (some (Fm.decode .f32 c.vb[k]))) ∧
    Yields s (.mmov x) x (fun _ => s) (fun c k => c.va[k])

/-- R202, R204: the unary moment functions deliver what R202 gives for their inputs, R345's canonical result for a NaN mean; MCOL delivers a
binary32 number. R199: a moment instruction faults with BAD_RHO when its correlation is refused, and else with NVAR when an active lane's
variance is a NaN or negative, naming the lanes. MLD and MST move moments as loads and stores do (R203). -/
def Obligations.MomentFunctionsFaults : Prop :=
  (∀ (s : State) (x : Ops),
    let unary (i : Instr) (f : Nat → Mo → Unary) : Prop := YieldsMoment s i x (fun c => c.varsOk c.va) fun c k =>
      let a := Mo.of c.va[k]
      if a.mean.isNan then writeMoment true none none
      else ((writeMoment false (f c.va[k] a).mean (f c.va[k] a).var).1, (writeMoment false (f c.va[k] a).mean (f c.va[k] a).var).2 ||| (f c.va[k] a).extra)
    unary (.mrelu x) reluOf ∧ unary (.mexp x) mexpOf ∧ unary (.msigm x) (msigmOf false) ∧ unary (.mtanh x) (msigmOf true) ∧
    unary (.mrcp x) mrcpOf ∧
    (∀ c, Ready s (.mcol x) x c → c.room s = true → c.varsOk c.va →
      let r (k : Fin 32) : Rounded :=
        (collapse (x.sb 2 0) (c.rm (x.sb 5 3) k) (Mo.of c.va[k]) (Fm.decode .f32 c.vb[k])).write .f32 (c.rm (x.sb 5 3) k) false x.clp x.scl
      (c.trapping r = 0 →
        exec (.mcol x) s = .next (c.finish { s := s, dst := some (c.lanesOnly fun k => (r k).code), flags := c.flagsOf r })) ∧
      (c.trapping r ≠ 0 →
        exec (.mcol x) s = .next (s.takeFault c.w { cause := 18, lanes := c.trapping r, xd := flagStream c.active (c.flagsOf r) } c.active c.pc c.next [])))) ∧
  (∀ (s : State) (x : Ops) (c : Ctx),
    let nvar (bad : Fin 32 → Bool) : Trouble := { cause := 10, lanes := maskOf fun k => inMask c.active k && bad k }
    let badRho (i : Instr) : Prop := Ready s i x c → c.rho = .error () → exec i s = .next (c.fault s { cause := 11, lanes := c.active })
    let badVars (i : Instr) (bad : Fin 32 → Bool) : Prop := ∀ k : Fin 32, Ready s i x c → inMask c.active k = true → bad k = true →
      exec i s = .next (c.fault s (nvar bad))
    let a (k : Fin 32) : Bool := badVar (Mo.of c.va[k]).var
    let b (k : Fin 32) : Bool := badVar (Mo.of c.vb[k]).var
    badRho (.madd x) ∧ badRho (.msub x) ∧ badRho (.mmul x) ∧ badRho (.mfma x) ∧
    (∀ rho, c.rho = .ok rho → badVars (.madd x) (fun k => a k || b k) ∧ badVars (.msub x) (fun k => a k || b k) ∧
      badVars (.mmul x) (fun k => a k || b k) ∧ badVars (.mfma x) (fun k => a k || b k || badVar (Mo.of c.vc[k]).var)) ∧
    badVars (.mscl x) a ∧ badVars (.mset x) (fun k => badVar (Fm.decode .f32 c.vb[k])) ∧ badVars (.mrelu x) a ∧ badVars (.mexp x) a ∧
    badVars (.msigm x) a ∧ badVars (.mtanh x) a ∧ badVars (.mrcp x) a ∧ badVars (.mcol x) a ∧
    (∀ ps, Ready s (.mld x) x c → c.room s = true → c.reach s c.active .read (moBytes x) c.ea = .ok ps →
      c.raceOf s (fun _ => false) (fun _ => false) c.active c.ea ps = none →
      ∃ u, SameButRaces s u ∧ exec (.mld x) s =
        .next (c.finish { s := u, dst := some (c.lanesOnly fun k => moWiden x (s.readPlaces ps[k])), late := some (.here, 0) })) ∧
    (∀ ps, Ready s (.mst x) x c → c.reach s c.active .write (moBytes x) c.ea = .ok ps →
      c.raceOf s (fun _ => false) (fun _ => true) c.active c.ea ps = none →
      ∃ u, SameButRaces (c.storedAt s ps fun k => moNarrow x c.vd[k]) u ∧ exec (.mst x) s = .next (c.finish { s := u })))

/-! ### The pod -/

/-- R206 to R209: TST to regions of an assigning rule, and TRED to regions of its own reduction, complete when every target's interface
takes writes: each active lane's element writes are issued in lane order. R209, R358, R377, R378: an element write is one packet with the
region's rule and element type, for the region's chip or, in a collective region, its multicast set, and counts once in the open tide towards each
chip that it goes to. -/
def Obligations.TidalStores : Prop :=
  ∀ (s : State) (x : Ops) (c : Ctx) (v : Lanes (Option (PodAddr × Region))),
    let wide : Bool := x.sb 0 0 = 1
    let op := x.sb 2 0
    let e := x.sb 6 3
    let open_ : Prop := ∀ (k : Fin 32) p, inMask c.active k = true → v[k] = some p →
      ∀ d ∈ s.regionTargets c.guest p.1.vchip p.2, s.heldTo c.guest (c.chip % 1024) d = false
    let write (p : PodAddr × Region) (s : State) (off width n : Nat) : State := s.tidalWrite c.chip p.1.vchip p.2 off width (BitVec.ofNat 64 n)
    let tst (s : State) (k : Fin 32) : State :=
      match v[k] with
      | none => s
      | some p =>
        let s := write p s p.1.off 4 (c.vd[k] % 2 ^ 32)
        if wide then write p s (p.1.off + 4) 4 (c.vd[k] / 2 ^ 32) else s
    let tred (s : State) (k : Fin 32) : State :=
      match v[k] with
      | none => s
      | some p => write p s p.1.off (etBytes e) (c.vd[k] % 2 ^ (8 * etBytes e))
    (Ready s (.tst x) x c → c.podReach (if wide then 8 else 4) c.ea (s.tidalAt c.guest) = .ok v →
      (∀ (k : Fin 32) p, inMask c.active k = true → v[k] = some p → p.2.rule = 0 ∨ p.2.rule = 6) → open_ →
      exec (.tst x) s = .next (c.finish { s := (lanesOf c.active).foldl tst s })) ∧
    (Ready s (.tred x) x c → c.podReach (etBytes e) c.ea (s.tidalAt c.guest) = .ok v →
      (∀ (k : Fin 32) p, inMask c.active k = true → v[k] = some p → p.2.rule = op + 1 ∧ p.2.et = e ∧ (op < 3 ∨ e ≤ 1)) → open_ →
      exec (.tred x) s = .next (c.finish { s := (lanesOf c.active).foldl tred s })) ∧
    (∀ (k : Chip) (p : PodAddr × Region) (off width n : Nat), s.chip? c.chip = some k →
      let packet := { Packet.new k.guest k.num p.1.vchip (.tidal (if k.tide.closed then k.tide.c.toNat + 1 else k.tide.c.toNat) off width p.2.rule
        p.2.et (BitVec.ofNat 64 n)) with mset := if p.2.mc then some p.2.mset else none }
      let count (h : Half) : Half :=
        (s.regionTargets k.guest p.1.vchip p.2).foldl (fun h d => { h with sent := Tab.put h.sent d (Tab.getD h.sent d 0 + 1) }) h
      let tide := if k.tide.closed then { k.tide with next := count k.tide.next } else { k.tide with now := count k.tide.now }
      (write p s off width n).packets = s.packets ++ [packet] ∧ (write p s off width n).chip? c.chip = some { k with tide } ∧
      (∀ j, j ≠ c.chip → (write p s off width n).chip? j = s.chip? j))

/-- R211 to R213: TIDE.CLOSE of a tide before the open one, or of a closed one, does nothing; of the open tide it closes it once no earlier
tidal copy is unfinished, and waits before; of the next it waits while the tide is closed; of a later one it is ILLEGAL_OPERAND. TIDE.WAIT goes on once the
turn has come. TIDE.QUERY reports, and .clear resets its two sticky bits. R378 to R382: the turn of a chip's tide
begins once its writes have all come, and completes once no granule of its regions is being moved: every element of the half gets its region's
result, flags are written as releases at POD, the conflict records go to their queue, staged declarations take effect, and the next tide is open
with an empty later half. That the turn is two steps, of which the first sets APPLY, is the model's (log entries 41, 99, 100). -/
def Obligations.Tides : Prop :=
  (∀ (s : State) (x : Ops) (c : Ctx) (k : Chip), s.chip? c.chip = some k →
    let n := c.once c.va
    let now := k.tide.c.toNat
    let waits (kind : WaitKind) : State := c.hold s kind (BitVec.ofNat 64 n) (BitVec.ofNat 32 n)
    (Ready s (.tideClose x) x c →
      (n < now ∨ (n = now ∧ k.tide.closed = true) → exec (.tideClose x) s = .next (c.finish { s := s })) ∧
      (n = now → k.tide.closed = false → (∀ j : Fin 32, inMask c.active j = true → s.copiesBefore c.chip (c.actor s j).clock = false) →
        exec (.tideClose x) s = .next (c.finish { s := c.closeTide s })) ∧
      (∀ j : Fin 32, n = now → k.tide.closed = false → inMask c.active j = true → s.copiesBefore c.chip (c.actor s j).clock = true →
        exec (.tideClose x) s = .next (waits .tideClose)) ∧
      (n = now + 1 → k.tide.closed = true → exec (.tideClose x) s = .next (waits .tideClose)) ∧
      (now < n → ¬ (n = now + 1 ∧ k.tide.closed = true) →
        exec (.tideClose x) s = .next (c.fault s { cause := 2, lanes := c.active }))) ∧
    (Ready s (.tideWait x) x c →
      (n < now → ∃ u, SameButRaces s u ∧ exec (.tideWait x) s = .next (c.finish { s := u })) ∧
      (now ≤ n → exec (.tideWait x) s = .next (waits .tideWait))) ∧
    (Ready s (.tideQuery x) x c → c.room s = true →
      let cleared := s.updChip c.chip fun k => { k with tide := { k.tide with satw := false, conf := false } }
      exec (.tideQuery x) s =
        .next (c.finish { s := if x.sub = 1 then cleared else s, dst := some (c.lanesOnly fun _ => tideWord k.tide (s.peers k.guest)) }))) ∧
  (∀ (s : State) (chip : Nat) (c : Chip), s.chip? chip = some c →
    (c.tide.apply = false → s.turnReady c = false → exec (.tideTurn chip) s = .next s) ∧
    (c.tide.apply = true → c.regionMoves = true → exec (.tideTurn chip) s = .next s) ∧
    (c.tide.apply = false → s.turnReady c = true →
      exec (.tideTurn chip) s = .next (s.updChip chip fun c => { c with tide := { c.tide with apply := true } })) ∧
    (c.tide.apply = true → c.regionMoves = false →
      let n := c.tide.c.toNat
      let t := c.tide.now.elems.foldl (Turn.elem chip n) ⟨s.keepReads chip c, [], false⟩
      let u := c.written.foldl (fun s r => if r.flag = 0 then s else s.releaseStore chip r.flag.toNat (le 8 (n + 1)) (c.hb.closesUpTo n)) t.s
      let v := t.records.foldl (fun s r => s.conflict chip r) u
      let next (c : Chip) : Chip :=
        let c := if c.tide.pend then c.applyStaged else c
        { c with tide := ({ c.tide with c := c.tide.c + 1, closed := false, apply := false, now := c.tide.next, next := Half.empty,
                                        satw := c.tide.satw || t.satw } : Tide).shrink }
      exec (.tideTurn chip) s = .next (v.updChip chip next)))

/-- R214 to R216, R405: RLD and RATOM of a gang with fewer than 32 remote results outstanding complete, their results come later, and what
they send are a request for each active lane, with the reader's tide and whether it is closed, or one for each group of lanes whose atomic
leaves the core, with the lanes' operands in lane order; with 32 they stall. How the lanes fall into groups is the model's where R216 leaves it
open (log entry 92). -/
def Obligations.RemoteAccesses : Prop :=
  ∀ (s : State) (x : Ops) (c : Ctx) (g : GangRef) (lanes : LaneMask) (v : Lanes (Option PodAddr)), c.w = .gang g lanes →
    let reach (a : Nat) : Option PodAddr := match s.tidalAt c.guest a with | some p => some p.1 | none => s.mailboxAt c.guest a
    let wide : Bool := x.sb 0 0 = 1
    let big : Bool := x.sb 6 6 = 1
    (Ready s (.rld x) x c → c.room s = true → c.podReach (if wide then 8 else 4) c.ea reach = .ok v → c.g.remoteFull = false →
      let tide := ((s.chip? c.chip).map fun k => k.tide.c).getD 0
      let closed := ((s.chip? c.chip).map fun k => k.tide.closed).getD false
      let made := (lanesOf c.active).filterMap fun k => v[k].map fun p =>
        Packet.new c.guest (c.chip % 1024) p.vchip (.rld g c.g.freshId k.val p.off p.mailbox wide tide closed)
      exec (.rld x) s = .next (c.finish { s := { s with packets := s.packets ++ made }, dst := some (Lanes.all 0),
                                          late := some (.rld wide, c.active) })) ∧
    (Ready s (.rld x) x c → c.podReach (if wide then 8 else 4) c.ea reach = .ok v → c.g.remoteFull = true →
      exec (.rld x) s = .next (c.hold s .remote 0 0)) ∧
    (Ready s (.ratom x) x c → c.room s = true →
      c.podReach (if big then 8 else 4) (fun k => c.va[k]) (s.mailboxAt c.guest) = .ok v → c.g.remoteFull = false →
      ∃ u made, exec (.ratom x) s = .next (c.finish { s := u, dst := some (Lanes.all 0), late := some (.ratom big, c.active) }) ∧
        SameButRaces { s with packets := s.packets ++ made } u ∧
        List.Forall₂ (fun (a : Nat × List (Fin 32)) (p : Packet) => ∃ k at_ past rels, a.2.head? = some k ∧ v[k] = some at_ ∧
            p = Packet.new c.guest (c.chip % 1024) at_.vchip (.ratom g c.g.freshId (a.2.map Fin.val) at_.off (x.sb 3 0) (x.sb 5 4) big
              (a.2.map fun j => (BitVec.ofNat 64 c.vd[j], BitVec.ofNat 64 c.vb[j])) past rels))
          (ratomGroups (ratomCombines (x.sb 3 0)) (fun k => c.va[k]) (lanesOf c.active) []) made) ∧
    (Ready s (.ratom x) x c → c.podReach (if big then 8 else 4) (fun k => c.va[k]) (s.mailboxAt c.guest) = .ok v → c.g.remoteFull = true →
      exec (.ratom x) s = .next (c.hold s .remote 0 0))

/-! ### Messages and launches -/

/-- R217 to R223: SEND with a good descriptor joins the copy queue; ARM puts a record at its tag and fires for the slots that have waited;
DISARM takes it away; LAUNCH puts a record in an open queue that has room, and waits at a full one; HINT changes nothing. -/
def Obligations.MessagesLaunches : Prop :=
  ∀ (s : State) (x : Ops) (c : Ctx) (u : State) (bs : List Byte),
    (Ready s (.send x) x c → c.record s (c.once c.va) 32 32 = .ok (u, bs) → u.sendOk c.guest bs = true →
      let task := match c.w with | .gang g _ => g.task | .ctrl _ => ctrlTask
      let r := c.issueBy u (some (opndBits x.dst % 8))
      let cmd : CopyCmd := ⟨3, c.chip, task, opndBits x.dst % 8, r.1, bs, none, [], 0, .queued, none, []⟩
      (∃ ps, u.enginePlaces c.chip task .read (SendRec.of bs).paddr (SendRec.of bs).len = .ok ps) →
      (u.core c.core).copyq.length < 64 →
      SameButRaces s u ∧ exec (.send x) s =
        .next (c.finish { s := r.2.updCore c.core fun k => { k with copyq := k.copyq ++ [cmd] } })) ∧
    (∀ k, Ready s (.arm x) x c → c.record s (c.once c.vb) 64 128 = .ok (u, bs) → u.chip? c.chip = some k → c.once c.va ≤ 255 →
      u.issueOk c.chip (LaunchRec.of bs) = true → (LaunchRec.of bs).aq ≤ 63 → (vget k.queues (LaunchRec.of bs).aq).open_ = true →
      let a := u.armArgs c.chip (LaunchRec.of bs)
      let tag := c.once c.va
      let e : ArmEntry := ⟨bs, a.1, c.g.pl == .firmware⟩
      let armed (k : Chip) : Chip :=
        (Tab.getD k.rx tag RxTag.reset).unfired.foldl (fun k slot => k.fire tag slot e)
          { k with arm := Tab.put k.arm tag e, rx := Tab.upd k.rx tag fun r => { r with unfired := [] } }
      SameButRaces s u ∧ exec (.arm x) s = .next (c.finish { s := a.2.updChip c.chip armed })) ∧
    (Ready s (.disarm x) x c → c.once c.va ≤ 255 →
      exec (.disarm x) s = .next (c.finish { s := s.updChip c.chip fun k => { k with arm := Tab.drop k.arm (c.once c.va) } })) ∧
    (∀ k, Ready s (.launch x) x c → c.record s (c.once c.va) 64 128 = .ok (u, bs) → u.chip? c.chip = some k → c.once c.vb ≤ 63 →
      (vget k.queues (c.once c.vb)).open_ = true → u.issueOk c.chip (LaunchRec.of bs) = true →
      (k.queueFull (c.once c.vb) = false →
        ∃ t past, SameButRaces s t ∧ exec (.launch x) s = .next (c.finish { s := t.enqueueRecord c.chip (c.once c.vb) bs none (c.g.pl == .firmware) past })) ∧
      (k.queueFull (c.once c.vb) = true → exec (.launch x) s = .next (c.hold s .queueFull (BitVec.ofNat 64 (c.once c.vb)) 0))) ∧
    (∀ k, Ready s (.launch x) x c → c.record s (c.once c.va) 64 128 = .ok (u, bs) → u.chip? c.chip = some k → c.once c.vb ≤ 63 →
      (vget k.queues (c.once c.vb)).open_ = false → exec (.launch x) s = .next (c.fault s { cause := 19, lanes := c.active })) ∧
    Does s (.hint x) x (fun _ => s)

/-! ### Traps, images, system registers -/

/-- R224, R396: TRAP faults with USER_TRAP, its code as ADDR, and the gang stands past it. R401: TRET waits until every thread of the gang
that has not exited has issued it; then the gang is restored from its frame's image at the image's level, its frame is free, and ACTION says
where the faulting threads go on: 0 at the instruction, 1 after it, 2 they exit. R307: what the handler has bound stays bound (log entry 125).
That a replay is the gang's next issue (log entry 27), what of the handler's record comes back beside the image (entry 29), the results that
return and their renumbering to 2^40 (entry 30), and a level taken modulo 4 (entry 31) are the model's. -/
def Obligations.TrapAndReturn : Prop :=
  (∀ (s : State) (x : Ops) (c : Ctx), Ready s (.trap x) x c →
    let code := if x.form = .A then opndBits x.b.opnd % 256 - 0x40 else x.imm.toNat % 2 ^ 32
    exec (.trap x) s = .next (c.fault s { cause := 20, lanes := c.active, addr := BitVec.ofNat 64 code })) ∧
  (∀ (s : State) (x : Ops) (c : Ctx) (g : GangRef) (lanes : LaneMask) (f : Nat), Ready s (.tret x) x c →
    c.w = .gang g lanes → c.g.frame = some f →
    (c.g.inTret ||| c.active ≠ ~~~c.g.exited → exec (.tret x) s = .next (c.hold s .tret 0 0)) ∧
    (∀ k mark r, c.g.inTret ||| c.active = ~~~c.g.exited → s.chip? g.chip = some k → c.g.mark = some mark →
      let base := k.trap.tfbase.toNat + 65536 * f
      let head := s.leaseRead g.chip k.trap.area base 64
      let image := s.leaseRead g.chip k.trap.area (base + 0x40) 61568
      let action := field head 0xC 1
      c.g.restore image = some r → action ≤ 2 →
      s.poolHas c.w (r.vmap.length - c.g.vmap.length) = true →
      let back : Gang := { r with pl := levelOf (field image 6 1 % 4), frame := none, saved := [], mark := none,
                                  pend := returned c.g.saved r.pend }
      let after := c.g.bringBack (back.act mark action ((field head 0 4).testBit 17) ((field head 0 4).testBit 16) (replOf image)) mark
      let t := ((c.leaveFence s).renumber g fun id => if 32 ≤ id then 2 ^ 40 else id).updChip g.chip fun k =>
        { k with trap := { k.trap with frames := k.trap.frames.filter fun n => n != f } }
      exec (.tret x) s = .next { (t.updGang g fun _ => after).orphanTest g.chip g.task with
        issuer := after.replay.head?.map fun p => .gang g p.lanes } ∧
      (∀ k : Fin 64, after.bind[k] = if mark.rebound.getLsbD k.val then c.g.bind[k] else r.bind[k]) ∧
      (action = 2 → after.exited ||| after.exiting = r.exited ||| r.exiting ||| (mark.active &&& ~~~r.exited))))

/-- R224, R407: CSAVE of a whole gang writes its image, with its destination predicate true there, and leaves it false; CREST puts the gang
where an image says. The level is taken modulo 4, results that have not arrived are dropped, and local ones that are still outstanding are
written nowhere but raise their flags and traps: the model's choices (log entries 31, 32). -/
def Obligations.GangImages : Prop :=
  ∀ (s : State) (x : Ops) (c : Ctx) (u : State),
    let a := c.once c.va
    (∀ k ps, Ready s (.csave x) x c → c.room s = true → x.dst = .main k → c.active = ~~~c.g.exited → a % 256 = 0 →
      let pcs : Lanes DWord := Lanes.sel c.active (Lanes.all c.next) c.g.pc
      let bytes := c.g.image pcs (c.g.writeP k.toNat c.active (Lanes.all true)).pred c.g.frame true []
      c.span s .write a bytes.length = .ok ps → c.imageAccess s true ps = .ok u →
      SameButRaces s u ∧ exec (.csave x) s = .next (c.finish { s := u.writeBytes ps bytes, dst := some (Lanes.all 0) })) ∧
    (∀ g lanes n r, Ready s (.crest x) x c → c.w = .gang g lanes →
      let ps := c.readable s a 61568
      let bs := s.bytesAt ps
      0x4700 ≤ bs.length → recordsLength 512 (bs.drop 0x4700) = some n → c.imageAccess s false (ps.take (0x4700 + n)) = .ok u →
      c.g.restore bs = some r → u.poolHas c.w (r.vmap.length - c.g.vmap.length) = true →
      let mine := (c.g.pend.filter fun p => p.kind == .here).mapIdx fun k p => { p with id := 32 + k, lanes := 0, sup := true }
      let back : Gang := { r with pl := levelOf (field bs 6 1 % 4), pend := (r.pend.filter fun p => p.missing == 0) ++ mine, replay := [],
                                  exiting := if c.g.frame.isSome then c.g.exiting else 0,
                                  orphaned := if c.g.frame.isSome then c.g.orphaned else [] }
      SameButRaces s u ∧ exec (.crest x) s =
        .next { (((c.leaveFence u).renumber g fun _ => 2 ^ 40).updGang g fun _ => back).orphanTest g.chip g.task with issuer := none })

/-- R37, R225, R227 to R229: SYSR and SYSW read and write the system registers that their level may reach (what a write changes:
SystemRegisterWrites), fault with PRIV at order 5 at others, naming the bundle's lanes, and with ILLEGAL_OPERAND where there is no register; a
write that R434 refuses is PRIV too; CAP reads a capability; HALT waits for the remote results of its core, writes the outstanding ones
and stops the core, where nothing issues any more; EVQ.POP takes an event, waits for one, or reads 0; TREL lowers a hold or sets DROP. What HALT
waits for and settles is the model's (log entry 61), and so are a register's index that order 5 knows (entry 129) and an index above 65535
(entry 130). -/
def Obligations.SystemInstructions : Prop :=
  ∀ (s : State) (x : Ops),
    (∀ c v, Ready s (.sysr x) x c → c.room s = true → s.sysRead c.chip (some c.core) c.g.pl (c.once c.vb) = .ok v →
      exec (.sysr x) s = .next (c.finish { s := s, dst := some (c.lanesOnly fun _ => v) })) ∧
    (∀ (w : Issuer) (q : Gang) (core : CoreRef) (chip : Nat) (lanes : LaneMask) (i : Instr) (sp : OpSpec),
      s.issuing = some (w, q, core, chip, lanes) → i = .sysr x ∨ i = .sysw x → i.spec = some sp →
      let c := (ctxOf s i sp x w q core chip lanes).1
      (encOk c.md c.sp c.x && placeOk c.md c.i c.sp) = true → opndOk c.md c.sp c.x = true →
      c.regPriv s (ctxOf s i sp x w q core chip lanes).2 = true →
      exec i s = .next (s.takeFault w { cause := 19, lanes } c.active c.pc c.next [])) ∧
    (∀ (c : Ctx) (r : Reads) (n : Nat), c.regIndex r = some n → (∃ y, c.i = .sysr y ∨ c.i = .sysw y) →
      c.regPriv s r = match regLevels (((s.chip? c.chip).map Chip.slot).getD 0) n with
        | some l => decide (levelCode c.g.pl < levelCode (match c.i with | .sysr _ => l.1 | _ => l.2))
        | none => false) ∧
    (∀ c, Ready s (.sysr x) x c → s.sysRead c.chip (some c.core) c.g.pl (c.once c.vb) = .undefined →
      exec (.sysr x) s = .next (c.fault s { cause := 2, lanes := c.active })) ∧
    (∀ c t, Ready s (.sysw x) x c → s.sysWrite c.chip c.g.pl (c.once c.vb) (BitVec.ofNat 64 (c.once c.va)) = .ok t →
      exec (.sysw x) s = .next (c.finish { s := t })) ∧
    (∀ c, Ready s (.sysw x) x c → s.sysWrite c.chip c.g.pl (c.once c.vb) (BitVec.ofNat 64 (c.once c.va)) = .priv →
      exec (.sysw x) s = .next (c.fault s { cause := 19, lanes := c.active })) ∧
    (∀ c, Ready s (.sysw x) x c → s.sysWrite c.chip c.g.pl (c.once c.vb) (BitVec.ofNat 64 (c.once c.va)) = .undefined →
      exec (.sysw x) s = .next (c.fault s { cause := 2, lanes := c.active })) ∧
    (∀ c k, Ready s (.cap x) x c → c.room s = true → s.chip? c.chip = some k →
      let a := c.once c.va
      let v := if x.sub = 1 then k.capHead a else (((List.range 5).map k.capHead).find? fun h => h / 2 ^ 48 == a % 65536).getD 0
      exec (.cap x) s = .next (c.finish { s := s, dst := some (c.lanesOnly fun _ => v) })) ∧
    (∀ c, Ready s (.halt x) x c → s.awaitsRemote c.core = true → exec (.halt x) s = .next (c.hold s .result 0 0)) ∧
    (∀ c d, Ready s (.halt x) x c → s.dev? c.core.dev = some d → s.awaitsRemote c.core = false →
      let p := c.pass s
      let w := (p.tasksOn c.core).foldl (fun t k => k.2.2.gangs.foldl (fun t g => t.settleResults ⟨k.1, k.2.1, g.1⟩) t) p
      let u := w.updGangOf (.ctrl c.core) fun g => g.pend.foldl Gang.settle g
      exec (.halt x) s = .next { u.updCore c.core (fun k => { k with halted := true }) with
        issuer := none, due := u.due.filter fun o => s.coreOf o != some c.core }) ∧
    (∀ c r rest, Ready s (.evqPop x) x c → c.room s = true → Tab.getD (s.core c.core).evq c.chip [] = r :: rest →
      exec (.evqPop x) s = .next (c.finish { s := s.updCore c.core fun k => { k with evq := Tab.put k.evq c.chip rest },
                                             dst := some (c.lanesOnly fun _ => r.toNat) })) ∧
    (∀ c, Ready s (.evqPop x) x c → Tab.getD (s.core c.core).evq c.chip [] = [] →
      (x.sub = 1 → exec (.evqPop x) s = .next (c.hold s .evq 0 0)) ∧
      (x.sub ≠ 1 → c.room s = true → exec (.evqPop x) s = .next (c.finish { s := s, dst := some (c.lanesOnly fun _ => 0) }))) ∧
    (∀ c k, Ready s (.trel x) x c → s.chip? c.chip = some k →
      let a := c.once c.va
      let after (k : Chip) : Chip := (k.unhold (bitsOf a 63 48) (a % 2 ^ 32)).getD { k with cc := { k.cc with drop := true } }
      exec (.trel x) s = .next (c.finish { s := s.updChip c.chip after }))

/-- R60, R61, R421, R431, R432: a word without a meaning is ILLEGAL_ENCODING; a retired operation of a C16 gang goes to its die's Lovage
unit and its lanes wait; the unit answers the sum of absolute differences, or LEGACY_REJECT for every other operation. R431, R432: the
Lovage unit of a die serves its oldest request: the bundle that waits for it completes with its answer, or takes LEGACY_REJECT; a request that
no bundle waits for any more is dropped. ACTIVE of a word without a meaning, from the guard bits of its word 0, is the model's (log entry
101). -/
def Obligations.WordsWithoutMeaning : Prop :=
  (∀ (s : State) (x : Ops),
    (∀ word w g core chip lanes, s.issuing = some (w, g, core, chip, lanes) →
      let pc := vget g.pc (lowest lanes)
      let gp := bitsOf word.toNat 15 12
      let active := if gp = 15 then lanes else maskOf fun k => inMask lanes k && ((g.pred[k]).getLsbD gp != word.getLsbD 16)
      exec (.unassignedOpcode word) s =
        .next (s.takeFault w { cause := 1, lanes } active pc (pc + BitVec.ofNat 64 (lengthOf word.toNat)) [])) ∧
    (∀ c g lanes d (k : BitVec 6), c.w = .gang g lanes → s.dev? c.core.dev = some d → c.room s = true →
      Ready s (if k = 1 then .byteAbsDiffSum x else .retiredOperation k x) x c →
      (d.lov (dieOf c.core.core)).length < 256 → ((d.lov (dieOf c.core.core)).filter fun e => e.core == c.core.core).length < 4 →
      let e : LovEntry := { g, core := c.core.core, k, x, lanes := c.active, bundle := c.lanes, pc := c.pc, a := c.va.map (BitVec.ofNat 32),
                            b := c.vb.map (BitVec.ofNat 32) }
      exec (if k = 1 then .byteAbsDiffSum x else .retiredOperation k x) s =
        .next ((c.hold s .lovage 0 0).updDev c.core.dev fun d => d.setLov (dieOf c.core.core) (d.lov (dieOf c.core.core) ++ [e]))) ∧
    (∀ c : Ctx, c.x.sub = 0 → Ctx.served 1 c s = .ok { s := s, dst := some (c.lanesOnly fun k => byteAbsDiff c.va[k] c.vb[k]) }) ∧
    (∀ (c : Ctx) (k : BitVec 6), ¬ (k = 1 ∧ c.x.sub = 0) →
      Ctx.served k c s = .trap { cause := 21, lanes := c.active, addr := BitVec.ofNat 64 (0x380 + k.toNat) })) ∧
  (∀ (s : State) (dev die : Nat) (d : Device) (e : LovEntry) (rest : List LovEntry), s.dev? dev = some d → die ≤ 1 → d.lov die = e :: rest →
    let t := s.updDev dev fun d => d.setLov die rest
    (∀ w, t.waiting e.g e.bundle .lovage = some w → w.instr = e.instr → e.k = 1 → e.x.sub = 0 →
      EndsWait s (.lovageService dev die) t e.g e.bundle .lovage anyInstr (fun _ c v => c.room v = true)
        (fun _ c v o => o = { s := v, dst := some (c.lanesOnly fun k => byteAbsDiff c.va[k] c.vb[k]) })) ∧
    (∀ w x c q, t.waiting e.g e.bundle .lovage = some w → w.instr = e.instr → ¬ (e.k = 1 ∧ e.x.sub = 0) → t.mayIssue e.g = true →
      w.instr.ops = some x → t.gang? e.g = some q → (∀ b ∈ q.bundles, b.lanes = e.bundle ∨ b.lanes &&& e.bundle = 0) →
      Ready (t.released e.g e.bundle) w.instr x c →
      exec (.lovageService dev die) s =
        .next { (c.asIssued w).fault (t.released e.g e.bundle) { cause := 21, lanes := c.active, addr := BitVec.ofNat 64 (0x380 + e.k.toNat) } with
          issuer := t.issuer, due := t.due }) ∧
    (t.waiting e.g e.bundle .lovage = none → exec (.lovageService dev die) s = .next t))

/-! ### Events: waits, results, the pool -/

/-- R148, R160, R163, R192, R194, R197, R211, R212: the end of each kind of wait completes the instruction that waits, with the values it read
when it issued: LDF once every word of its lanes is full; BAR.WAIT once no lane's token is the phase; TLWAIT once its counter has reached the
value; QWAIT once no command that had been issued before it is outstanding; TIDE.WAIT once the tide has turned; TIDE.CLOSE once it is late, or
once no earlier tidal copy is unfinished; MSAVE once the array can stop; MRES once no matrix command is outstanding. -/
def Obligations.WaitsEnd : Prop :=
  ∀ (s : State) (g : GangRef) (lanes : LaneMask),
    let only (v : State) (o : Out) : Prop := ∃ u, SameButRaces v u ∧ o = { s := u }
    EndsWait s (.ldfWaitEnd g lanes) s g lanes .ldf anyInstr
      (fun _ c v => c.room v = true ∧ (∃ h m, c.w = .gang h m) ∧ (∀ m ∈ c.g.orphaned, m.2 ≠ c.pc ∨ m.1 &&& c.active = 0) ∧
        ∃ ps, c.reach v c.active .read 4 c.scratchAddr = .ok ps ∧ ∀ k : Fin 32, inMask c.active k = true → v.fullAt c.chip ps[k] = true)
      (fun _ c v o => ∃ ps u, c.reach v c.active .read 4 c.scratchAddr = .ok ps ∧
        SameButRaces (if c.x.sub = 0 then (lanesOf c.active).foldl (fun s k => s.markWord c.chip ps[k] 0) v else v) u ∧
        o = { s := u, dst := some (c.lanesOnly fun k => v.readPlaces ps[k]), late := some (.here, 0) }) ∧
    EndsWait s (.barWaitEnd g lanes) s g lanes .barWait anyInstr
      (fun _ c v => ∃ ps, c.barReach v .read (c.once c.va) = .ok ps ∧
        c.raceOf v (fun _ => true) (fun _ => false) c.active (fun _ => c.once c.va) (Lanes.all ps) = none ∧
        ∀ k : Fin 32, inMask c.active k = true → c.vb[k] ≠ (BarObj.ofNat (v.readPlaces ps)).phase)
      (fun _ _ v o => only v o) ∧
    EndsWait s (.tlwaitEnd g lanes) s g lanes .tlwait anyInstr
      (fun _ c v => c.once c.vb ≤ c.counter v (opndBits c.x.a.opnd % 8)) (fun _ _ v o => only v o) ∧
    EndsWait s (.qwaitEnd g lanes) s g lanes .qwait anyInstr
      (fun k c v => ∃ chip task t, c.ownTask v = some (chip, task, t) ∧
        (c.x.sub.toNat % 4 ≠ 1 → v.quantBusy chip task k.mark = false) ∧ (c.x.sub.toNat % 4 ≠ 0 → t.matrixBusy k.mark = false))
      (fun _ _ v o => only v o) ∧
    EndsWait s (.tideWaitEnd g lanes) s g lanes .tideWait anyInstr
      (fun _ c v => ∃ k, v.chip? c.chip = some k ∧ c.once c.va < k.tide.c.toNat) (fun _ _ v o => only v o) ∧
    EndsWait s (.tideCloseUnblock g lanes) s g lanes .tideClose anyInstr
      (fun _ c v => ∃ k, v.chip? c.chip = some k ∧ (c.once c.va < k.tide.c.toNat ∨ (c.once c.va = k.tide.c.toNat ∧ k.tide.closed = true)))
      (fun _ _ v o => o = { s := v }) ∧
    EndsWait s (.tideCloseUnblock g lanes) s g lanes .tideClose anyInstr
      (fun _ c v => (∃ k, v.chip? c.chip = some k ∧ c.once c.va = k.tide.c.toNat ∧ k.tide.closed = false) ∧
        ∀ j : Fin 32, inMask c.active j = true → v.copiesBefore c.chip (c.actor v j).clock = false)
      (fun _ c v o => o = { s := c.closeTide v }) ∧
    EndsWait s (.msaveDone g lanes) s g lanes .msaveMres isMsave
      (fun _ c v => ∃ ps chip task t w u, c.imageReach v .write = .ok ps ∧ c.ownTask v = some (chip, task, t) ∧
        v.holdArray c.core chip task = some w ∧ t.arrayDue = false ∧ t.arr.mayStop = true ∧ c.imageAccess w true ps = .ok u)
      (fun _ c v o => ∃ ps chip task t w u, c.imageReach v .write = .ok ps ∧ c.ownTask v = some (chip, task, t) ∧
        v.holdArray c.core chip task = some w ∧ SameButRaces (w.writeBytes ps t.stopArr.image) u ∧
        o = { s := u.updArr chip task fun a => { a with flight := none, queue := [] } }) ∧
    EndsWait s (.mresDone g lanes) s g lanes .msaveMres isMres
      (fun _ c v => ∃ ps chip task t w u, c.imageReach v .read = .ok ps ∧ c.ownTask v = some (chip, task, t) ∧
        v.holdArray c.core chip task = some w ∧ t.arrayDue = false ∧ t.arr.depth = 0 ∧ c.imageAccess w false ps = .ok u ∧
        imageOk (t.scrp * 2048) (t.epldReach chip) (v.bytesAt ps) = true)
      (fun _ c v o => ∃ ps chip task t w u, c.imageReach v .read = .ok ps ∧ c.ownTask v = some (chip, task, t) ∧
        v.holdArray c.core chip task = some w ∧ SameButRaces w u ∧
        o = { s := (c.issueBy u none).2.updTask chip task fun t =>
                t.restoreArr (v.ticketsHeld chip task) (c.issueBy u none).1 (v.bytesAt ps) })

/-- R30, R41, R44, R46 to R48, R116, R399: an outstanding result of a gang that may arrive does, and is taken as a fault where it traps; the
destination of a result that arrives holds its value in every lane that lands, the flags it raises are set, and the other lanes stay outstanding;
a stalled allocation is made when the pool has its registers, in the order of log entry 124; while one finds none, the gang that has been drowsy longest is spilled, or its task ends
where its records are more than its area takes (log entry 116); it is refilled when there is room, and its task ends at a bad record; a gang
that waits for a frame takes the lowest that is free, or its task ends where traps are off by then. R235, R241: at every fourth cycle of its
die a subcore forms the bundles of its gangs anew and nothing else of any gang; the gangs of its active set are such as may be in it, and
with a place free none of these is outside. -/
def Obligations.ResultsAndPool : Prop :=
  (∀ (s : State) (g : GangRef) (c : Chip) (t : Task) (q : Gang) (core : CoreRef), s.chip? g.chip = some c → s.task? g.chip g.task = some t →
    s.gang? g = some q → t.core = some core →
    let sub := subOf t.base g.gang
    let area := t.spillArea g.gang
    (∀ k p, q.pend[k]? = some p → q.mayArrive p = true → q.waiting = none →
      exec (.resultArrival g k) s = .next (if p.traps ≠ 0 then s.takeDeferred g p else (s.updGang g fun q => q.arrive p).settleExits g)) ∧
    (∀ p ∈ q.pend,
      let m := q.landing p
      let r := q.arrive p
      (∀ n j (i : Fin 32), p.dst = .vec n j → inMask m i = true → r.vread false n i j = some ((p.vals[i]).toNat % 2 ^ (32 * j))) ∧
      (∀ n j (i : Fin 32), p.dst = .oper n j → n + j ≤ 8 → inMask m i = true → r.oread n i j = (p.vals[i]).toNat % 2 ^ (32 * j)) ∧
      (∀ n (i : Fin 32), p.dst = .mom n → n < 32 → inMask m i = true → vget (vget r.mom n) i = (p.vals[i]).setWidth 64) ∧
      (∀ n, p.dst = .uni n → n < 64 → m ≠ 0 → vget r.sreg n = (vget p.vals (lowest m)).setWidth 64) ∧
      (p.missing = 0 → (∀ k : Fin 32, inMask p.lanes k = true → p.wleft[k] = 0) → m = p.lanes) ∧
      (∀ k : Fin 32, r.fpflag[k] = q.fpflag[k] ||| (p.flags[k]).setWidth 32) ∧
      (∀ e ∈ r.pend, e.id = p.id → e.lanes = p.lanes &&& ~~~m ∧ e.lanes ≠ 0 ∧ e.come = true ∧ e.flags = Lanes.all 0) ∧
      (∀ n, (∀ k j, p.dst = .vec k j → n < k ∨ k + j ≤ n) → ∀ v, Tab.find q.vmap n = some v → v.live ≠ 0 → Tab.find r.vmap n = some v)) ∧
    (∀ lanes w, s.waiting g lanes .alloc = some w → s.poolHas (.gang g lanes) w.expect.toNat = true →
      exec (.registerAllocation g lanes) s = .next (s.updGang g fun q => (q.grant lanes).unwait lanes)) ∧
    (c.overEn = true → s.mayspill core sub (g, q) = true → s.poolShort (s.residents core sub) = true →
      (∀ x ∈ s.residents core sub, s.mayspill core sub x = true → q.moved ≤ x.2.moved) →
      (q.records.length ≤ area.2 → exec (.spillComplete g) s =
        .next ((s.updChip g.chip fun c => c.writeMem area.1 q.records).updGang g fun q => { q with spilled := true })) ∧
      (area.2 < q.records.length → exec (.spillComplete g) s = .next (s.spillFault g))) ∧
    (q.spilled = true → s.poolUsed core sub + s.owed core sub g 0 + ({ q with spilled := false }).held (s.loose c core sub) ≤ 2048 →
      let back := readRecords (Mem.bytes c.mem area.1 area.2) 512 { q with vmap := [], spilled := false }
      (∀ r, back = some r → exec (.gangRefill g) s = .next (s.updGang g fun _ => r)) ∧
      (back = none → exec (.gangRefill g) s = .next (s.spillFault g))) ∧
    (∀ record repl, q.waiting = some (record, repl) →
      (∀ n, c.trap.freeFrame = some n → c.trap.en = true →
        exec (.trapEntry g) s = .next (((s.forget g.chip g.task).enterHandler g record repl n).finishLeaving g.chip)) ∧
      (c.trap.en = false → exec (.trapEntry g) s =
        .next ((s.endTask g.chip g.task (record.take 2 ++ [record.getD 2 0 ||| 8] ++ record.drop 3)).finishLeaving g.chip)))) ∧
  (∀ (s : State) (core : CoreRef) (sub : Nat) (d : Device), s.dev? core.dev = some d → s.cycle core % 4 = 0 → sub ≤ 3 →
    let residents := s.residents core sub
    let formed := residents.foldl (fun s g => s.updGang g.1 Gang.reform) s
    ∃ t, exec (.bundleReformation core sub) s = .next t ∧ t.hostMem = s.hostMem ∧ t.packets = s.packets ∧
      (∀ g q, s.gang? g = some q → ∃ r, t.gang? g = some r ∧
        { Gang.reform^[(residents.filter fun x => x.1 == g).length] q with moved := r.moved, yielded := r.yielded } = r) ∧
      let set := (vget (t.core core).subs sub).active
      (∀ j g, vget set j = some g → ∃ q, (g, q) ∈ formed.residents core sub ∧ q.eligible = true) ∧
      ((∃ j, vget set j = none) → ∀ x ∈ formed.residents core sub, x.2.eligible = true → set.contains (some x.1) = true))

/-! ### Events: engines -/

/-- R171, R175, R177, R181, R184, R185, R187: the array's head command runs when none is in flight: a good weight block enters
its slot, a valid slot is latched, tiles are cleared, a program is loaded, a pass takes a cycle's terms or a row, and a drain a row with the
column vectors it read at its beginning; what runs whole stands finished until it completes and its counter advances. A pass and a latch that
meet no valid slot or a wrong pairing end their task (R173). That a pass goes by a cycle's terms or a row, and a drain row by row from the
vectors that it read at its beginning, is the model's choice (log entry 40). -/
def Obligations.MatrixCommandsRun : Prop :=
  ∀ (s : State) (core : CoreRef) (k t : Nat) (u : Task), s.holderOf core = some (k, t, u) →
    let drains (f : Flight) (rest : List MCmd) : Prop :=
      let d := Dw.of f.cmd.w0.toNat f.cmd.w1.toNat
      let cvs := if d.ep && f.cvs.isEmpty then d.vectors u.scratch else f.cvs
      let mem := if d.ep then runProgram d f.row (u.arr.eprog.getD []) (drainRow u.arr d cvs f.cmd.tile f.row) u.scratch
        else plainRow u.arr d f.cmd.tile f.row u.scratch
      let last := decide (d.m ≤ f.row + 1)
      (drainCheck (u.scrp * 2048) u.arr d = none → exec (.drain core) s = .next (s.updTask k t fun v =>
        { v with scratch := mem,
                 arr := { u.arr with queue := rest, flight := some { f with row := f.row + 1, finished := last, cvs },
                                     tiles := if last && d.clr then Mem.clear u.arr.tiles (65536 * f.cmd.tile) (65536 * (if 2 ≤ d.kind then 2 else 1))
                                       else u.arr.tiles } })) ∧
      (∀ n, drainCheck (u.scrp * 2048) u.arr d = some n → exec (.drain core) s = .next (s.matrixFault k t f.cmd n f.cmd.addr))
    let passes (f : Flight) (rest : List MCmd) : Prop :=
      (∀ a, u.runRow { u.arr with queue := rest } f = .ok a → exec (.mmaPass core) s = .next (s.updArr k t fun _ => a)) ∧
      (∀ d, u.runRow { u.arr with queue := rest } f = .error d → exec (.mmaPass core) s = .next (s.matrixFault k t f.cmd d f.cmd.addr))
    (∀ m rest, u.arr.flight = none → u.arr.queue = m :: rest →
      (m.op = 0 → ∀ fmt fl len, let woff := bitsOf m.w0.toNat 19 6
        m.aoff + 16 ≤ u.scrp * 2048 → blockHead u.scratch m.aoff = some (fmt, fl, len) → m.aoff + len ≤ u.scrp * 2048 →
        128 * woff + len ≤ 2 ^ 21 → (blockGroups u.scratch m.aoff).isSome = true →
        let slot : WSlot := ⟨woff, (len + 127) / 128, fmt⟩
        exec (.wldExecute core) s = .next (s.updArr k t fun a =>
          { a with wbuf := Mem.paste a.wbuf (128 * woff) len (Mem.slice u.scratch m.aoff len),
                   slots := Tab.put (a.slots.filter fun e => !(e.2.meets slot)) m.tile slot, queue := rest, flight := some m.done })) ∧
      (m.op = 1 → ∀ l, u.arr.latchSlot m.tile = some l →
        exec (.wselLatch core) s = .next (s.updArr k t fun a => { a with latch := some l, queue := rest, flight := some m.done })) ∧
      (m.op = 1 → u.arr.latchSlot m.tile = none → exec (.wselLatch core) s = .next (s.matrixFault k t m 1 0)) ∧
      (m.op = 4 → exec (.aclrExecute core) s = .next (s.updArr k t fun a =>
        { a with tiles := Mem.clear a.tiles (65536 * m.tile) (65536 * m.count), queue := rest, flight := some m.done })) ∧
      (m.op = 6 → ∀ p, let at_ := (u.image.toNat + m.aoff) % 2 ^ 64
        let all := (List.range 128).filterMap fun j => extentPlace k (u.extents.take 1) .read (at_ + j)
        let ws : List Word := (List.range 32).map fun j => BitVec.ofNat 32 (field (s.bytesAt all) (4 * j) 4)
        let ps := all.take (4 * loadedWords ws)
        s.engineRace k t m.by_ false at_ ps = none → programOf ws = some p →
        exec (.epldLoad core) s = .next ((s.noteAccess (s.engineActor k t m.by_) false false ps).updArr k t fun a =>
          { a with eprog := some p, queue := rest, flight := some m.done })) ∧
      (m.op = 2 ∨ m.op = 3 → passes m.begun rest) ∧
      (m.op = 5 → drains m.begun rest)) ∧
    (∀ f, u.arr.flight = some f → f.finished = false →
      (f.cmd.op = 5 → drains f u.arr.queue) ∧ (f.cmd.op = 2 ∨ f.cmd.op = 3 → passes f u.arr.queue)) ∧
    (∀ f, u.arr.flight = some f → f.finished = true →
      let v := s.updArr k t fun a => { a with flight := none }
      let w := if f.cmd.counts then v.finishOp k t f.cmd.tl f.cmd.by_ else v
      exec (.matrixCommandComplete core) s = .next (w.updChip k fun c => { c with hb := c.hb.carry (keyQ t 1) f.cmd.by_.result }))

/-! ### Events: tasks and contexts -/

/-- R243, R244, R249, R252, R268, R276, R394: a task that R268 serves next and that fits is dispatched with those of its barrier and cluster
groups, onto private backings that nothing uses; a saved task resumes with those of its groups, or stops a protected chip whose seal fails
(R412); and a task moves, with its cluster groups to another cluster, where there is room and, of a task that held the array, a free array
is not passed by. R245, R246, R259: a task all of whose gangs have retired, or that a fault has ended and whose record is delivered, retires
once nothing it issued is under way: it is then no task of its chip, and its launch goes on, counts it, or ends with it. That a private
backing stands at any free place that the event names (log entry 16), which cores the members of a group take and in which order they are
tried (53, 54), and what the seal covers (57), are the model's choices. -/
def Obligations.TasksPlacedRetired : Prop :=
  (∀ (s : State) (chip task : Nat) (c : Chip) (core : CoreRef) (base : Nat), s.chip? chip = some c → c.onTurn = true → base < 4 →
    (∀ handle priv l first t more, Tab.find c.launches handle = some l → c.servedNext handle task = true →
      let rest := ((l.closure [task]).filter fun m => m != task).map fun m => c.newTask l handle m 0
      s.seat chip c [] (c.newTask l handle task priv) core base = some first → s.spread chip c l first rest = some (t :: more) →
      let all := t :: c.assignPriv (priv + t.backing) more
      (∀ u ∈ all, c.backingFree u = true) →
      exec (.taskDispatch chip handle task core base priv) s =
        .next (s.updChip chip fun c => ((all.foldl (fun c u => c.enterTask handle u) c).tookTurn handle).retrack)) ∧
    (∀ t l first ts, s.task? chip task = some t → Tab.find c.launches t.handle = some l → t.core = none → t.ended = false →
      let others := (c.savedWith l t).map Prod.snd
      s.seat chip c [] t core base = some first →
      l.clusterOk ((c.tasks.filter fun u => u.2.handle == t.handle && u.2.core.isSome).map Prod.snd) first = true →
      s.arrayPlaceOk chip c l first = true → s.placeAll chip c l first others = some ts →
      exec (.taskResume chip task core base) s =
        .next (if (t :: others).all (s.sealHolds c) then s.loadAll chip ts else s.tdiError c.dev c.slot 2)) ∧
    (∀ t l old d u first ts, s.task? chip task = some t → Tab.find c.launches t.handle = some l → t.core = some old → t.ended = false →
      core ≠ old →
      let moves := if clusterOf core.core = clusterOf old.core then [t.num] else l.movesWith t.num
      let keys := (moves.map (taskKey t.handle)).filter fun k => match Tab.find c.tasks k with | some u => u.core.isSome && !u.ended | none => false
      let v := s.preempt chip keys
      let rest := (keys.filter fun k => k != task).filterMap fun k => Tab.find d.tasks k
      c.entering keys = false → v.chip? chip = some d → v.task? chip task = some u →
      (∀ w ∈ u :: rest, w.ended = false ∧ w.core = none) →
      v.seat chip d [] u core base = some first → v.arrayPlaceOk chip d l first = true → v.placeAll chip d l first rest = some ts →
      exec (.taskMigration chip task core base) s = .next (v.loadAll chip ts))) ∧
  (∀ (s : State) (chip task : Nat) (c : Chip) (t : Task) (l : Launch), s.chip? chip = some c → s.task? chip task = some t →
    Tab.find c.launches t.handle = some l → Tab.rising none c.tasks = true → Tab.rising none c.launches = true → s.taskQuiet chip task t = true →
    ((∀ g ∈ t.gangs, g.2.exited = BitVec.allOnes 32) ∧ t.core.isSome = true ∨ t.ended = true) → (t.ended = true → t.undelivered = false) →
    ∃ u, exec (.taskRetire chip task) s = .next u ∧ u.task? chip task = none ∧
      (∀ d, u.chip? chip = some d →
        if l.retired + 1 = l.record.ntask then Tab.find d.launches t.handle = none
        else ∃ l', Tab.find d.launches t.handle = some l' ∧ l'.retired = l.retired + 1 ∧ l'.faulted = (l.faulted || t.ended)))

/-- R267 to R270: a turn ends at its slice or when its context has nothing to run and another waits; a waiting budget that runs out
writes the snapshot, pre-empts the context and interrupts the host; hints change nothing but themselves; CORES moves a context, and a stopped
one, or one in creation (R418), takes no cores. A context leaves while no trap entry of it is under way (R400). R286 to R288: a host translation arrives or is
invalidated where no lease holds its page; a granule that nothing holds moves to a tier that has room and that its pages' TIER allows: far
memory, for one that names near memory, only where that has no room. R265, R266, R228: an idle control core that has no scrub due enters the
routine of the next context in its rotation, is stopped when a routine has run too long, and CCSTAT's bits clear by writing ones; a halted
core goes on or is reset. Which die's count measures a slice (log entry 114), what code the notice of the limit carries (39), that an unsliced
context whose budget runs out is parked (17), with what state a control routine starts (35), whose turn it is (37), from where its 65,536
cycles count (38), and what state a halted core is reset to (61), are the model's. -/
def Obligations.TurnsControlPages : Prop :=
  ((∀ (s : State) (chip : Nat) (c : Chip), s.chip? chip = some c →
    (c.sliced = true → c.turnHeld = true → c.mayLeave = true → c.turnFrom + c.slice.toNat ≤ s.cycle ⟨c.dev, 0⟩ →
      exec (.sliceExpiry chip) s = .next (s.endTurn chip)) ∧
    (c.sliced = true → c.turnHeld = true → c.mayLeave = true → (∀ t ∈ c.tasks, ∀ r, t.2.core = some r → c.readyOn r = false) →
      (∀ l ∈ c.launches, l.2.nextTask = none) → (∃ k ∈ s.rivals chip c, ∃ o, s.chip? k = some o ∧ o.hasWork = true) →
      exec (.turnGivenUpEarly chip) s = .next (s.endTurn chip)) ∧
    (∀ dev d peer, s.dev? dev = some d → c.dev = dev →
      exec (.arrivalHintReceive dev chip peer) s = .next (s.updDev dev fun d =>
        { d with hints := if d.hints.contains (chip, peer) then d.hints else d.hints ++ [(chip, peer)],
                 hintAgreed := if d.hintAgreed.contains chip then d.hintAgreed else d.hintAgreed ++ [chip] })) ∧
    (∀ dev d, s.dev? dev = some d → (∃ h ∈ d.hints, h.1 = chip) →
      exec (.hintAgreementTimeout dev chip) s = .next (s.updDev dev fun d =>
        { d with hints := d.hints.filter fun h => h.1 != chip, hintAgreed := d.hintAgreed.filter fun k => k != chip })) ∧
    (∀ core : Nat, 0 < c.wbudget.toNat → c.wbudget.toNat ≤ Tab.getD c.waitRun core 0 → (∀ k < core, Tab.getD c.waitRun k 0 < c.wbudget.toNat) →
      c.mayLeave = true →
      let snap := s.snapshot chip c ⟨c.dev, core⟩
      let shown := if c.prot then snap.1.take 6 ++ zeros 2 ++ snap.1.drop 8 else snap.1 ++ snap.2.flatten
      let v := ((s.snapWrite chip c.snapa.toNat shown).updChip chip fun c => { c with snap := snap.1 ++ snap.2.flatten }).preemptChip chip
      let u := if c.turnHeld then v.endTurn chip else v.updChip chip fun c => { c with parked := true }
      let held := c.tasks.any fun t => t.2.core.isSome && t.2.gangs.any fun g => g.2.bundles.any Bundle.tideHeld
      exec (.waitBudgetExpiry chip ⟨c.dev, core⟩) s =
        .next { u with irqs := u.irqs ++ [.host c.dev (if held then cTideOverflow else cWaitBudget)] }) ∧
    (∀ (value : DWord) (d : Device), s.dev? c.dev = some d →
      let cores := value.toNat % 2 ^ 20
      let state := (d.iface c.slot).state
      let now (c : Chip) : Chip :=
        { c with cores, sliced := value.getLsbD 20, parked := false, waitRun := c.waitRun.filter fun w => (clusterCores cores).getLsbD w.1 }
      let lost (t : Task) : Bool := match t.core with | some r => !(clusterCores cores).getLsbD r.core | none => false
      let together (t u : Task) : Bool := u.handle == t.handle &&
        ((Tab.find c.launches t.handle).map fun l => (l.closure [t.num]).contains u.num).getD false
      let keys := (c.tasks.filter fun u => u.2.core.isSome && c.tasks.any fun t => lost t.2 && (t.1 == u.1 || together t.2 u.2)).map Prod.fst
      (cores ≠ 0 → (c.stopped = true ∨ state = .creating ∨ c.prot = true ∧ state ≠ .run) → exec (.coresWrite chip value) s = .next s) ∧
      (cores ≠ 0 → c.stopped = false → state ≠ .creating → (c.prot = true → state = .run) →
        exec (.coresWrite chip value) s = .next (((s.preempt chip keys).updChip chip now).turnsAfter chip c)) ∧
      (cores = 0 → exec (.coresWrite chip value) s = .next (((s.preemptChip chip).updChip chip now).turnsAfter chip c)) ∧
      (cores ≠ 0 → c.stopped = false → state ≠ .creating → (c.prot = true → state = .run) → c.placed = [] → s.rivals chip c = [] →
        value.getLsbD 20 = false →
        exec (.coresWrite chip value) s = .next (s.updChip chip fun c => { now c with turnHeld := false })))) ∧
  (∀ (s : State) (chip : Nat) (c : Chip), s.chip? chip = some c →
    (∀ page answer, page < 2 ^ 51 → (∀ l ∈ c.leases true, l.host = true → l.va ≠ page * 4096) →
      exec (.atsPriResponse chip page answer) s = .next (s.updChip chip fun c => { c with ats := Tab.put c.ats page ⟨answer⟩, pri := c.pri.filter (· != page) }) ∧
      exec (.hostInvalidation chip page) s = .next (s.updChip chip fun c => { c with ats := Tab.drop c.ats page })) ∧
    (∀ granule tier, 0 < tier → tier ≤ 3 → c.moving.contains granule = false → granule * 2 ^ 21 < c.quota → Tab.getD c.tiers granule 3 ≠ tier →
      (∀ l ∈ c.leases false, l.host = true ∨ rangesMeet l.frame l.bytes (granule * 2 ^ 21) (2 ^ 21) = false) →
      (∀ t ∈ c.tasks, rangesMeet t.2.priv t.2.backing (granule * 2 ^ 21) (2 ^ 21) = false) →
      let d : Chip := { c with tiers := Tab.drop c.tiers granule }
      let t := s.updChip chip fun _ => d
      (c.wantedTier granule = 0 ∨ c.wantedTier granule = tier ∨ tier = 3 ∧ t.nearRoom d (c.wantedTier granule) granule = false) →
      (if tier = 3 then t.tierRoom c.dev 3 0 else t.nearRoom d tier granule) = true →
      exec (.granuleMigration chip granule tier) s = .next (s.updChip chip fun c =>
        { c with moving := granule :: c.moving,
                 tiers := if tier = 3 then Tab.drop c.tiers granule else Tab.put c.tiers granule tier })) ∧
    (∀ granule, c.moving.contains granule = true →
      exec (.granuleMigrationComplete chip granule) s = .next (s.updChip chip fun c =>
        { c with moving := c.moving.filter (· != granule) })))) ∧
  (∀ (s : State) (chip : Nat) (c : Chip) (core : CoreRef), s.chip? chip = some c →
    ((s.core core).ctrl = none → (s.core core).halted = false → (s.core core).scrub = false → (s.rotation core).head? = some chip →
      exec (.controlRoutineEntry core chip) s =
        .next (s.updCore core fun k => { k with ctrl := some ⟨chip, c.routine (s.cycle core), s.cycle core⟩, lastCtx := chip })) ∧
    (∀ run, (s.core core).ctrl = some run → run.chip = chip → run.began + 65536 < s.cycle core →
      ∃ t, exec (.controlCoreLimit core) s = .next t ∧ t.irqs = (s.notice chip 1).irqs ∧ (t.core core).ctrl = none ∧
        (t.core core).scrub = ((s.core core).scrub || (c.prot && !(c.tasks.any fun u => u.2.core == some core))) ∧
        t.chip? chip = some { c with cc := { c.cc with stop := true, limit := true } }) ∧
    (∀ value : DWord, exec (.ccstatWrite chip value) s = .next (s.updChip chip fun c =>
      { c with cc := { c.cc with stop := c.cc.stop && !value.getLsbD 0, drop := c.cc.drop && !value.getLsbD 1,
                                 limit := c.cc.limit && !value.getLsbD 2 } })) ∧
    ((s.core core).halted = true →
      exec (.haltedCoreResume core false) s = .next (s.updCore core fun k => { k with halted := false }) ∧
      exec (.haltedCoreResume core true) s = .next (s.updCore core fun _ => Core.idle)))

/-! ### Events: launches -/

/-- R254 to R263: a queue's next record is read and judged, and is accepted or rejected, or waits for a page with what was read so far kept
(R262, R286); a launch whose conditions hold starts its translation, goes on from the leases that it has and keeps those that it takes, and
runs once all its ranges are leased and meet no private backing; a range that no table decodes or that writes a region rejects it with code 5,
one that is too long with code 6. XLFAULT is retried or aborted; queues, timelines and event queues move. Where a launch whose range meets a
backing waits (log entry 16), that acceptance keeps what it read and goes on while its context has no cores (50), and that XLFAULT = 0 holds
nothing (64), are the model's choices. -/
def Obligations.LaunchesProceed : Prop :=
  ∀ (s : State) (chip : Nat) (c : Chip), s.chip? chip = some c →
    (∀ q, let k := vget c.queues q
      let handle := q * 1024 + k.head
      let at_ := k.base.toNat + 128 * k.head
      q ≤ 63 → k.en = true → k.err = false → k.head ≠ k.tail → (c.xlfault = 0 ∨ c.xlfault.toNat % 65536 ≠ handle) → c.entryHeld q k.head = false →
      let kept := match Tab.find c.readings q with | some g => if g.handle = handle then g.kept else [] | none => []
      let later (why : NoLease) (kept : Kept) : State :=
        (s.updChip chip fun c => { c with readings := Tab.put c.readings q ⟨handle, kept⟩ }).reachLater chip handle why
      (∀ why got, s.readOn chip kept at_ 128 = (.error why, got) → exec (.launchAcceptance chip q) s = .next (later why got)) ∧
      (∀ bs got, s.readOn chip kept at_ 128 = (.ok bs, got) →
        let f := Tab.find k.fired k.head
        let v := s.judge chip c handle (BitVec.ofNat 64 at_) bs f (k.firm.contains k.head) got
        let enter (s : State) : State := s.updChip chip fun c => (c.advanceHead q).nameTimeline (LaunchRec.of bs) handle
        exec (.launchAcceptance chip q) s = .next (match v.1 with
          | .miss why got => later why got
          | .reject code => (enter s).rejectRecord chip handle (BitVec.ofNat 64 at_) bs (f.map Prod.snd) code
          | .pass l => (enter v.2).updChip chip fun c => { c with launches := Tab.put c.launches handle l }))) ∧
    (∀ handle l0, Tab.find c.launches handle = some l0 →
      (l0.state = .translating ∨ l0.state = .waiting ∧ c.launchReady handle l0 = true) →
      let l := if l0.state = .waiting then
          { l0 with state := .translating, clock := l0.record.waits.foldl (fun k w => VClock.join k (vget c.lt w.1).clock) l0.clock }
        else l0
      let s1 := s.updChip chip fun c => { c with launches := Tab.put c.launches handle l }
      (c.xlfault ≠ 0 → l0.state = .waiting → exec (.launchTranslation chip handle) s = .next s1) ∧
      (c.xlfault = 0 → (∃ r ∈ l.ranges, 2 ^ 64 < r.2.1 + r.2.2.1) →
        exec (.launchTranslation chip handle) s = .next (s1.complete chip handle .rejected 6)) ∧
      (c.xlfault = 0 → (∀ r ∈ l.ranges, r.2.1 + r.2.2.1 ≤ 2 ^ 64) → (∃ r ∈ l.ranges, c.rangeBarred r.2.1 r.2.2.1 r.2.2.2 = true) →
        exec (.launchTranslation chip handle) s = .next (s1.complete chip handle .rejected 5)) ∧
      (∀ es, c.xlfault = 0 → (∀ r ∈ l.ranges, r.2.1 + r.2.2.1 ≤ 2 ^ 64 ∧ c.rangeBarred r.2.1 r.2.2.1 r.2.2.2 = false) →
        (∀ why, c.leaseAll l.ranges l.extents = (es, some why) →
          exec (.launchTranslation chip handle) s = .next ((s.takeLeases chip handle l es).reachLater chip handle why)) ∧
        (c.leaseAll l.ranges l.extents = (es, none) →
          let t := s.takeLeases chip handle l es
          (c.quota < pageBytes es → exec (.launchTranslation chip handle) s = .next (t.complete chip handle .rejected 6)) ∧
          (pageBytes es ≤ c.quota → c.meetsBacking es = true → exec (.launchTranslation chip handle) s = .next t) ∧
          (pageBytes es ≤ c.quota → c.meetsBacking es = false →
            exec (.launchTranslation chip handle) s = .next (t.updChip chip fun c => c.startLaunch handle l es)))) ∧
      (∀ es, let fresh := newPages l.extents es
        s.takeLeases chip handle l es =
          ((c.granulesOf (fresh.map Prod.snd)).foldl (fun s g => s.placeGranule chip g.1 g.2) s).updChip chip fun c =>
            let c := fresh.foldl (fun c p => c.markLeases p.1 [p.2]) c
            { c with launches := Tab.put c.launches handle { l with extents := es } })) ∧
    exec (.xlfaultRetry chip) s = .next (s.updChip chip fun c =>
      { c with xlfault := 0, ats := if c.xlfault = 0 then c.ats else
        c.ats.filter fun e => !(e.2 == ⟨.failed⟩ && e.1 / 16 == c.xlfault.toNat / 65536) }) ∧
    (c.xlfault = 0 → exec (.xlfaultAbort chip) s = .next s) ∧
    (∀ l, c.xlfault ≠ 0 → Tab.find c.launches (c.xlfault.toNat % 65536) = some l →
      exec (.xlfaultAbort chip) s =
        .next ((s.updChip chip fun c => { c with xlfault := 0 }).complete chip (c.xlfault.toNat % 65536) .rejected 5)) ∧
    (∀ q value, q ≤ 63 → (vget c.queues q).dev = true → exec (.qtailWrite chip q value) s = .next s) ∧
    (∀ q value, q ≤ 63 → (vget c.queues q).dev = false → (vget c.queues q).lg ≠ 0 →
      exec (.qtailWrite chip q value) s = .next (s.updChip chip fun c =>
        let k := vget c.queues q
        let tail := value % 1024 % 2 ^ k.lg
        { c with queues := vset c.queues q { k with tail, firm := k.firm.filter fun i => !(k.handed tail).contains i } })) ∧
    (∀ q, q ≤ 63 → exec (.queueResume chip q) s = .next (s.updChip chip fun c =>
      { c with queues := vset c.queues q { vget c.queues q with err := false } })) ∧
    (∀ n value, n ≤ 63 → exec (.ltWrite chip n value) s = .next (s.updChip chip fun c =>
      { c with lt := vset c.lt n ((vget c.lt n).write value) })) ∧
    (∀ core r rest, Tab.getD (s.core core).evWait chip [] = r :: rest → (Tab.getD (s.core core).evq chip []).length < 64 →
      exec (.eventRecordPost core chip) s = .next (s.updCore core fun k =>
        { k with evq := Tab.put k.evq chip (Tab.getD k.evq chip [] ++ [r]), evWait := Tab.put k.evWait chip rest }))

/-! ### Events: the host, the fabric -/

/-- R284, R312, R388, R415, R419: a host write reaches host memory, or the guest-physical bytes of a chip that takes host requests, and changes
nothing of one that does not; a host read gives those bytes, and all ones of such a chip. A chip takes them unless it is protected; then only
with the T bit over its own IDE stream in state RUN. A host AtomicOp at a page with SYSA is one read and write; elsewhere it is a read and
later a write of the same operation. That a chip takes requests by its interface's state and stream, and discards a write else (log entry 85),
and how the two halves of an operation belong together (86), are the model's choices. -/
def Obligations.HostAccesses : Prop :=
  ∀ (s : State) (addr : DWord),
    (∀ bytes, hostHalf (addr.toNat + bytes.length) = true →
      exec (.hostMemoryWrite .hostHalf addr bytes) s = .next { s with hostMem := Mem.write s.hostMem addr.toNat bytes }) ∧
    (∀ key c tbit, s.chip? key = some c →
      (s.hostMay c tbit = true ↔ c.prot = false ∨ tbit = true ∧ ∃ d, s.dev? c.dev = some d ∧ (d.iface c.slot).ide = true ∧ (d.iface c.slot).state = .run) ∧
      (∀ n, s.hostBytes key addr.toNat n tbit = if s.hostMay c tbit then
          s.bytesAt ((List.range n).map fun k => Place.dram key (addr.toNat + k) false) else List.replicate n 0xFF) ∧
      (∀ bytes, addr.toNat + bytes.length ≤ c.quota →
        let ps := (List.range bytes.length).map fun k => Place.dram key (addr.toNat + k) false
        (s.hostMay c tbit = false → exec (.hostMemoryWrite (.chip key tbit) addr bytes) s = .next s) ∧
        (s.hostMay c tbit = true →
          ∃ u, SameButRaces (s.writeBytes ps bytes) u ∧ exec (.hostMemoryWrite (.chip key tbit) addr bytes) s = .next u))) ∧
    (∀ key c op (wide : Bool) (value cmp : DWord) (tbit : Bool) ps sysa, s.chip? key = some c → op ≤ 12 →
      let n := if wide then 8 else 4
      c.hostWord key addr.toNat n = some (ps, sysa) →
      let made (old : Nat) : State := s.writePlaces ps (hostAtomic op (8 * n) old (value.toNat % 2 ^ (8 * n)) (cmp.toNat % 2 ^ (8 * n)))
      let read (old : DWord) : State :=
        s.updChip key fun c => { c with hostRead := c.hostRead ++ [⟨addr, op, wide, value, cmp, old⟩] }
      (s.hostMay c tbit = false → exec (.hostAtomicOp key addr op wide value cmp (.whole tbit)) s = .next s) ∧
      (s.hostMay c tbit = true → sysa = true →
        exec (.hostAtomicOp key addr op wide value cmp (.whole tbit)) s = .next (made (s.readPlaces ps))) ∧
      (sysa = false → exec (.hostAtomicOp key addr op wide value cmp (.readHalf tbit)) s =
        .next (read (if s.hostMay c tbit then BitVec.ofNat 64 (s.readPlaces ps) else BitVec.allOnes 64))) ∧
      (∀ h, (c.hostRead.find? fun h => h.same addr op wide value cmp) = some h →
        let gone (t : State) : State := t.updChip key fun c => { c with hostRead := c.hostRead.erase h }
        (s.hostMay c tbit = false → exec (.hostAtomicOp key addr op wide value cmp (.writeHalf tbit)) s = .next (gone s)) ∧
        (s.hostMay c tbit = true → sysa = false →
          ∃ u, SameButRaces (gone (made h.old.toNat)) u ∧ exec (.hostAtomicOp key addr op wide value cmp (.writeHalf tbit)) s = .next u)))

/-- R353, R358, R359, R361 to R364, R369, R416: a packet of a guest that is neither held nor remapped, the first of its flow at the sender,
leaves on the plane that R361 chooses for the device and slot of its tables, once there are credits for it, its link key sealing it and the
key's counter going up by one, and not at 2^48; where the tables name no target, or the key is revoked, it is discarded; a write to a collective
region goes to each member of its set as it then stands; one that its target has received is acknowledged and gone. Until it may, nothing
happens. R214 to R216, R292, R299, R366, R377, R383 to R385, R405: what a packet that lands does: an element write joins its half, or goes back
to its sender where there is no room; a close record counts; a remote read is answered once its target's tide counter has reached its reader's,
with what it has kept of an earlier turn, and stands there before; an atomic is served and answered, or races, as a write only where it writes; a
reply fills its outstanding result, or lands a copy's element. The race actor of a mailbox atomic and RLD outside races (log entry 33), the lanes
of one packet (92), the departure of a multicast write (138), the lanes that a race takes (139), the two buffers of a link (140) and that what is
not due changes nothing (95) are the model's choices. -/
def Obligations.PacketsTravel : Prop :=
  (∀ (s : State) (k : Nat) (p : Packet), s.packets[k]? = some p →
    (∀ g, p.left = false → Tab.find s.guests p.guest = some g → g.held = false → g.remap = false →
      (∀ q ∈ s.packets.take k, ¬ (q.left = false ∧ q.sameFlow p = true)) →
      let t := s.passOn.dropPacket k
      let may : Prop := (p.refused = true ∨ ∃ m, p.body = .msg m) → ∀ c, s.chip? (chipKey p.guest p.dst) = some c → c.accepts p = true
      let v := s.vctEntry p.guest p.dst
      let label := Tab.getD g.rlt (bitsOf v.toNat 9 0) 0
      let dev := s.devOf p.guest p.src
      let stays : Prop := exec (.packetDeparture k) s = .next s
      let lost : Prop := exec (.packetDeparture k) s = .next ((t.discarded p dev).freePlace p)
      (p.mset = none →
        (¬ may → stays) ∧
        (may → v.getLsbD 31 = false ∨ label.getLsbD 31 = false → lost) ∧
        (∀ d, may → v.getLsbD 31 = true → label.getLsbD 31 = true → s.dev? dev = some d →
          p.choose d.live (BitVec.ofNat 16 (bitsOf label.toNat 25 10)) = none → stays) ∧
        (∀ d plane, may → v.getLsbD 31 = true → label.getLsbD 31 = true → s.dev? dev = some d →
          p.choose d.live (BitVec.ofNat 16 (bitsOf label.toNat 25 10)) = some plane →
          let gone : Packet := { p with left := true, passed := false, refused := false, plane, toDev := bitsOf label.toNat 9 0,
                                        toSlot := bitsOf v.toNat 25 21, cipher := none }
          let credit : Bool := t.credits dev plane p.body.vc p.body.flits true
          ((g.prot = false ∨ p.src = p.dst) → credit = true → exec (.packetDeparture k) s = .next (t.depart gone)) ∧
          ((g.prot = false ∨ p.src = p.dst) → credit = false → stays) ∧
          (g.prot = true → p.src ≠ p.dst → d.linkSlot p.guest p.src p.dst 2 = none → (d.linkSlot p.guest p.src p.dst 4).isSome = true → lost) ∧
          (∀ slot, g.prot = true → p.src ≠ p.dst → d.linkSlot p.guest p.src p.dst 2 = some slot →
            (Tab.getD d.linkCtr slot 0 < 2 ^ 48 → credit = true →
              exec (.packetDeparture k) s = .next ((t.updDev dev fun d =>
                { d with linkCtr := Tab.put d.linkCtr slot (Tab.getD d.linkCtr slot 0 + 1) }).depart { gone with cipher := some (d.sealFor slot p) })) ∧
            (Tab.getD d.linkCtr slot 0 < 2 ^ 48 → credit = false → stays) ∧
            (2 ^ 48 ≤ Tab.getD d.linkCtr slot 0 → stays)))) ∧
      (∀ m, p.mset = some m →
        let copies := (g.members m).map fun n => { p with dst := n, mset := none }
        (∀ u, copies.foldlM State.leave t = some u → exec (.packetDeparture k) s = .next u) ∧
        (copies.foldlM State.leave t = none → stays))) ∧
    (p.delivered = true → p.standing = false → exec (.deliveryAcknowledgement k) s = .next { s with packets := s.packets.eraseIdx k }) ∧
    (∀ c off n mb tide shut, p.delivered = true → p.standing = true → s.chip? (chipKey p.guest p.dst) = some c →
      p.body.reads = some (off, n, mb, tide, shut) →
      (tide ≤ c.tide.c → exec (.rldServe k) s = .next (s.serveRead k p (chipKey p.guest p.dst) c)) ∧
      (c.tide.c < tide → exec (.rldServe k) s = .next s))) ∧
  (∀ (s : State) (k : Nat) (p : Packet) (key : Nat) (c : Chip), Lands s k p key c →
    let t := s.delivered k
    (∀ n off width rule et value h, p.body = .tidal n off width rule et value → c.tide.half n = some h → c.tide.room h off = true →
      let e := Tab.getD h.elems off ⟨width, []⟩
      let spills : Bool := (Tab.find h.elems off).isNone && decide (c.tide.tibq * 4096 < 32 * (c.tide.now.elems.length + c.tide.next.elems.length + 1))
      let filled : Half := { h with elems := Tab.put h.elems off { e with writes := e.writes ++ [⟨p.src, rule, et, value⟩] },
                                    got := Tab.put h.got p.src (Tab.getD h.got p.src 0 + 1), spilled := h.spilled || spills }
      exec (.tidalWriteArrival k) s = .next (t.updChip key fun c => { c with tide := c.tide.setHalf n filled })) ∧
    (∀ n off width rule et value h, p.body = .tidal n off width rule et value → c.tide.half n = some h →
      c.tide.room h off = false → exec (.tidalWriteArrival k) s = .next (s.refuse k p)) ∧
    (∀ n count h, p.body = .close n count → c.tide.half n = some h →
      exec (.closeRecordArrival k) s = .next (t.updChip key fun c =>
        { c with tide := c.tide.setHalf n { h with closes := Tab.put h.closes p.src count } })) ∧
    (∀ off n mb tide shut, p.body.reads = some (off, n, mb, tide, shut) →
      let served (v : Nat) : State := { t with packets := t.packets ++ p.answer v }
      (∀ v, tide ≤ c.tide.c → p.kept = some v → exec (.rldServe k) s = .next (served v)) ∧
      (∀ ps, tide ≤ c.tide.c → p.kept = none → c.podPlaces key off n mb = some ps → exec (.rldServe k) s = .next (served (s.readPlaces ps))) ∧
      (c.tide.c < tide → exec (.rldServe k) s = .next (s.received k true))) ∧
    (∀ g id lanes off op ord (wide : Bool) vals past rels ps, p.body = .ratom g id lanes off op ord wide vals past rels →
      c.podPlaces key off (if wide then 8 else 4) true = some ps →
      let at_ := ps.map Place.tracked
      let r := mailboxSteps op (if wide then 64 else 32) (lanes.zip vals) (s.readPlaces at_)
      let write := mailboxWrites op (if wide then 64 else 32) vals r.1
      let race := s.findRace (s.podActor p g (lanes.headD 0) past) true write (podBase + p.dst * 2 ^ 32 + 2 ^ 31 + off) at_
      let u := if write then t.writePlaces at_ r.2 else t
      (race = none → ∃ v seen, SameButRaces { u with packets := u.packets ++ [replyTo p (.reply g id r.1 seen (ord % 2 == 1))] } v ∧
        exec (.mailboxAtomicArrival k) s = .next v) ∧
      (∀ a e, race = some (a, e) → exec (.mailboxAtomicArrival k) s =
        .next (if s.gangBusy g then s else s.podRace k g id (maskOf fun i => lanes.contains i.val) write a e))) ∧
    (∀ g id vals rels acq q e, p.body = .reply g id vals rels acq → s.gang? g = some q → e ∈ q.pend → e.id = id →
      let filled := t.updGang g fun q => { q with pend := q.pend.map fun e => if e.id = id then e.fill vals else e }
      ∃ v, SameButRaces (filled.resealTask g.chip g.task) v ∧ exec (.remoteReplyArrival k) s = .next v) ∧
    (∀ chip task seq num bs, p.body = .fetched chip task seq num bs →
      exec (.remoteReplyArrival k) s = .next (t.landFetched chip task seq num bs)))

/-- R217 to R221, R256, R366, R367: a SEND takes its place in its chip's outbound store, its payload is read and its counter advances, its
message is delivered to a free slot of its tag's buffer, which frees its place in the store, joins the inbound log of a descheduled chip, or
goes back to its sender; a log entry is consumed once the chip runs; a fired launch takes its place in an open queue that has room. -/
def Obligations.MessagesMove : Prop :=
  ∀ (s : State),
    (∀ core k q c, s.copyAt core k = some q → s.chip? q.chip = some c → q.kind = 3 →
      (∀ p ∈ (s.core core).copyq.take k, ¬ (p.kind = 3 ∧ p.chip = q.chip)) → c.outbound.length < 16 →
      let r := SendRec.of q.record
      let m : OutMsg :=
        { msg := ⟨c.num, r.vchip, r.tag, [], BitVec.ofNat 64 r.flag, BitVec.ofNat 64 r.flagv, []⟩, paddr := BitVec.ofNat 64 r.paddr,
          len := r.len, read := false, task := q.task, tl := q.tl, by_ := q.by_ }
      exec (.sendOutboundEntry core k) s = .next ((s.dropCopy core k).updChip q.chip fun c => { c with outbound := c.outbound ++ [m] })) ∧
    (∀ chip k c o ps, s.chip? chip = some c → c.outbound[k]? = some o → o.read = false →
      (∀ p ∈ c.outbound.take k, ¬ (p.read = false ∧ p.msg.dst = o.msg.dst)) →
      s.enginePlaces chip o.task .read o.paddr.toNat o.len = .ok ps → s.engineRace chip o.task o.by_ false o.paddr.toNat ps = none →
      let m : Msg := { o.msg with payload := s.bytesAt ps, clock := o.past chip }
      let t := (s.noteAccess (s.engineActor chip o.task o.by_) false false ps).updChip chip fun c =>
        { c with outbound := updAt c.outbound k fun o => { o with msg := m, read := true } }
      exec (.sendPayloadRead chip k) s =
        .next (State.finishOp { t with packets := t.packets ++ [Packet.new c.guest c.num m.dst (.msg m)] } chip o.task o.tl o.by_)) ∧
    (∀ k p key c m, Lands s k p key c → p.body = .msg m →
      (c.takes m = false → exec (.messageDelivery k) s = .next (s.refuse k p)) ∧
      (c.takes m = true → c.descheduled = true →
        exec (.messageDelivery k) s = .next (((s.delivered k).freePlace p).updChip key fun c => { c with inlog := c.inlog ++ [m] })) ∧
      (c.takes m = true → c.descheduled = false →
        exec (.messageDelivery k) s = .next (((s.delivered k).freePlace p).deliver key m))) ∧
    (∀ chip c m rest, s.chip? chip = some c → c.inlog = m :: rest → c.descheduled = false → Chip.takes { c with inlog := [] } m = true →
      exec (.inboundLogConsume chip) s = .next ((s.updChip chip fun c => { c with inlog := rest }).deliver chip m)) ∧
    (∀ chip k c f, s.chip? chip = some c → c.fired[k]? = some f → (∀ e ∈ c.fired.take k, e.at_.tag ≠ f.at_.tag) →
      let q := field f.entry.record 0x27 1
      (vget c.queues q).open_ = true → (vget c.queues q).err = false → c.queueFull q = false →
      exec (.firedLaunchPlacement chip k) s = .next ((s.updChip chip fun c => { c with fired := c.fired.eraseIdx k }).enqueueRecord chip q
        f.entry.record (some (f.entry.args, f.at_)) f.entry.firm []))

/-! ### Events: registers -/

/-- R278, R366 to R371, R374 to R376, R385: a write of a mailbox region, which takes leases of its pages that are mapped with R and W, or of a
receive buffer's base takes effect, or sets TRSTAT.ERR alone where the bytes would meet a tidal region; RXCTL sets V and frees the busy slots whose bits are 1, and sets NSLOT while none was busy, unless the
wider buffer would meet a region, which sets TRSTAT.ERR; a staged write that R376 allows is staged and takes effect at once before the first
tide closes, one that it does not sets TRSTAT.ERR; TLOG grows at once and shrinks once both halves fit; GSEL selects a chip and clears its
ERR, and MCSET writes a set of a held guest whose members exist, the writes that wait for it at their senders counting towards its new
members, or sets GSEL.ERR; a device that is not ready takes neither (R436). That TLOG shrinks only once both halves fit (log entry 62), RXCTL's
V and freed slots beside a refused NSLOT (67), MBXSIZE's rounding and bound (68), that removing a set needs the hold too (69), what a mailbox's
leases cover (137) and the waiting writes (138) are the model's choices. -/
def Obligations.FabricRegisterWrites : Prop :=
  ∀ (s : State) (chip n : Nat) (value : DWord) (c : Chip), s.chip? chip = some c →
    let refused : State := s.updChip chip fun c => { c with tide := { c.tide with err := true } }
    let base := value.toNat / 65536 * 65536
    let size := min (value.toNat % 2 ^ 29 / 65536 * 65536) (2 ^ 28)
    (n < 8 →
      (c.meetsRegion base (vget c.mbxSize n) = false → exec (.mbxbaseWrite chip n value) s =
        .next (s.updChip chip fun c => ({ c with mbxBase := vset c.mbxBase n (BitVec.ofNat 64 base) } : Chip).leaseMailbox n)) ∧
      (c.meetsRegion base (vget c.mbxSize n) = true → exec (.mbxbaseWrite chip n value) s = .next refused) ∧
      (c.meetsRegion (vget c.mbxBase n).toNat size = false → exec (.mbxsizeWrite chip n value) s =
        .next (s.updChip chip fun c => ({ c with mbxSize := vset c.mbxSize n size } : Chip).leaseMailbox n)) ∧
      (c.leaseMailbox n).mbxHeld = vset c.mbxHeld n (({ c with moving := [] } : Chip).leaseSome .both (vget c.mbxBase n).toNat
        ((vget c.mbxBase n).toNat + vget c.mbxSize n) (vget c.mbxSize n / 65536 + 2)) ∧
      (c.meetsRegion (vget c.mbxBase n).toNat size = true → exec (.mbxsizeWrite chip n value) s = .next refused)) ∧
    (n < 256 →
      let r := Tab.getD c.rx n RxTag.reset
      let based : RxTag := { r with base := BitVec.ofNat 64 (value.toNat / 4096 * 4096) }
      let clr : BitVec 8 := (value >>> 8).setWidth 8
      let kept : RxTag := { r with v := value.getLsbD 63, busy := r.busy &&& ~~~clr, unfired := r.unfired.filter (fun k => !clr.getLsbD k),
                                   held := r.held.filter fun k => !clr.getLsbD k.1 }
      let wide : RxTag := { kept with nslot := value.toNat % 8, next := r.next % (value.toNat % 8 + 1) }
      let meets : Bool := c.meetsRegion r.base.toNat wide.bytes
      (c.meetsRegion based.base.toNat based.bytes = false →
        exec (.rxbaseWrite chip n value) s = .next (s.updChip chip fun c => { c with rx := Tab.put c.rx n based })) ∧
      (c.meetsRegion based.base.toNat based.bytes = true → exec (.rxbaseWrite chip n value) s = .next refused) ∧
      (r.busy ≠ 0 → exec (.rxctlWrite chip n value) s =
        .next (s.updChip chip fun c => { c with rx := Tab.put c.rx n { kept with next := r.next % (r.nslot + 1) } })) ∧
      (r.busy = 0 → meets = false ∨ value.toNat % 8 = r.nslot →
        exec (.rxctlWrite chip n value) s = .next (s.updChip chip fun c => { c with rx := Tab.put c.rx n wide })) ∧
      (r.busy = 0 → meets = true → value.toNat % 8 ≠ r.nslot → exec (.rxctlWrite chip n value) s =
        .next (s.updChip chip fun c => { c with rx := Tab.put c.rx n kept, tide := { c.tide with err := true } }))) ∧
    (n < 64 →
      let r := Tab.getD c.tide.staged n ⟨0, 0, 0, 0⟩
      let writes (i : Instr) (w : Region) (fields : Bool) : Prop :=
        let ok : Bool := fields && s.mcOk c.guest w && (!w.valid || c.regionOk n w)
        let made : Chip := { c with tide := { c.tide with staged := Tab.put c.tide.staged n w, pend := true } }
        (ok = false → exec i s = .next refused) ∧
        (ok = true → ¬ (c.tide.c = 0 ∧ c.tide.closed = false) → exec i s = .next (s.updChip chip fun _ => made)) ∧
        (ok = true → c.tide.c = 0 → c.tide.closed = false → exec i s = .next (s.updChip chip fun _ => made.applyStaged))
      writes (.trbaseWrite chip n value) { r with base := value &&& ~~~0xFFFF } true ∧
      writes (.trwinWrite chip n value) { r with win := value &&& 0x0000FFFF7FFF0000 }
        ({ r with win := value &&& 0x0000FFFF7FFF0000 } : Region).placed ∧
      writes (.trctlWrite chip n value) { r with ctl := value } (ctlOk value) ∧
      writes (.trflagWrite chip n value) { r with flag := value &&& ~~~7 } true) ∧
    (c.tide.tlog ≤ value.toNat % 2 ^ 24 → exec (.tlogWrite chip value) s =
      .next (s.updChip chip fun c => { c with tide := { c.tide with tlog := value.toNat % 2 ^ 24, tlogDue := none } })) ∧
    (value.toNat % 2 ^ 24 < c.tide.tlog → exec (.tlogWrite chip value) s =
      .next (s.updChip chip fun c => { c with tide := ({ c.tide with tlogDue := some (value.toNat % 2 ^ 24) } : Tide).shrink })) ∧
    (∀ dev d, s.dev? dev = some d → d.ready = false → n ≤ 63 →
      exec (.gselWrite dev value) s = .next s ∧ exec (.mcsetWrite dev n value) s = .next s) ∧
    (∀ dev d, s.dev? dev = some d → d.ready = true → n ≤ 63 →
      exec (.gselWrite dev value) s = .next (s.updDev dev fun d =>
        { d with gselGuest := bitsOf value.toNat 11 0, gselChip := bitsOf value.toNat 21 12, gselErr := false }) ∧
      (∀ g, Tab.find s.guests d.gselGuest = some g → g.held = true → s.drained d.gselGuest = true →
        let sets (m : Tab DWord) : State :=
          let after : Guest := { g with mcset := m }
          State.recount { s with guests := Tab.put s.guests d.gselGuest after } d.gselGuest n (g.members n) (after.members n)
        (value.getLsbD 63 = false → exec (.mcsetWrite dev n value) s = .next (sets (Tab.drop g.mcset n))) ∧
        (value.getLsbD 63 = true → (∀ m ∈ setMembers value, m ≤ 1023 ∧ (Tab.getD g.vct m 0).getLsbD 31 = true) →
          exec (.mcsetWrite dev n value) s = .next (sets (Tab.put g.mcset n (value &&& 0x800000003FFFFFFF))))) ∧
      (∀ g, Tab.find s.guests d.gselGuest = some g →
        (g.held = false ∨ s.drained d.gselGuest = false ∨ value.getLsbD 63 = true ∧ ∃ m ∈ setMembers value, 1023 < m ∨ (Tab.getD g.vct m 0).getLsbD 31 = false) →
        exec (.mcsetWrite dev n value) s = .next (s.updDev dev fun d => { d with gselErr := true })) ∧
      (Tab.find s.guests d.gselGuest = none → exec (.mcsetWrite dev n value) s = .next (s.updDev dev fun d => { d with gselErr := true })))

/-- R1, R287, R388 to R390, R415: MIGCTL.EN takes a free slot and room at its target, in far memory or, where that is full, in near memory
within the near quota, and starts tracking with every page dirty, or sets FAIL; a round copies the dirty set to MIGBMP and its pages, all ones
of a revoked guest, to the staging copy; EN = 0 ends tracking and frees the copy. The host interrupt with code 0 at a round's end (log entry
39) and that MIGBMP is a host address that nothing translates (87) are the model's choices. -/
def Obligations.MigrationRounds : Prop :=
  ∀ (s : State) (chip : Nat) (value : DWord) (c : Chip), s.chip? chip = some c →
    let tdev := bitsOf value.toNat 24 15
    let tslot := bitsOf value.toNat 14 10
    (value.getLsbD 63 = true → c.mig.en = false →
      let place := s.settle none tdev c.quota c.nearQuota
      let failed : Prop := exec (.migrationEnable chip value) s =
        .next (s.updChip chip fun k => { k with mig := { k.mig with tdev, tslot, fail := true } })
      (s.tierUse tdev 3 none + c.quota ≤ tierBytes 3 → place = some []) ∧
      (∀ tiers, s.slotFree chip tdev tslot = true → place = some tiers → exec (.migrationEnable chip value) s = .next (s.updChip chip fun k =>
        { k with mig := { k.mig with en := true, tdev, tslot, fail := false, rounds := 0, dirty := List.range (c.quota / 65536), staging := some [],
                                     tiers } })) ∧
      (s.slotFree chip tdev tslot = false → failed) ∧ (place = none → failed)) ∧
    (c.mig.en = true → c.mig.busy = false → exec (.migrationRound chip) s =
      .next (State.updChip { s with hostMem := Mem.write s.hostMem c.mig.bmp.toNat c.bitmap } chip fun k =>
        { k with mig := { k.mig with busy := true, todo := k.mig.dirty, dirty := [] } })) ∧
    (c.mig.en = false ∨ c.mig.busy = true → exec (.migrationRound chip) s = .next s) ∧
    (c.mig.busy = true →
      let page (p : Nat) : Mem := if c.revoked then (List.range 65536).map fun k => (k, 0xFF) else Mem.slice c.mem (65536 * p) 65536
      let copy := c.mig.todo.foldl (fun m p => Mem.paste m (65536 * p) 65536 (page p)) (c.mig.staging.getD [])
      ∃ t, exec (.migrationRoundComplete chip) s = .next t ∧ t.irqs = s.irqs ++ [.host c.dev 0] ∧ t.chip? chip =
        some { c with mig := { c.mig with staging := some copy, busy := false, pages := c.mig.todo.length, rounds := (c.mig.rounds + 1) % 65536, todo := [] } }) ∧
    exec (.migrationDisable chip) s = .next (s.updChip chip fun c =>
      { c with mig := { c.mig with en := false, busy := false, dirty := [], todo := [], staging := none, tiers := [] } })

/-- R225, R257, R266, R276, R389, R397, R398, R402, R434: TCTL.EN leases the handler's code and its save frames, which no private backing meets,
or sets LERR, and cannot be cleared while a frame is held; the oldest waiting fault record is delivered where its queue has room. A write of a
register at a level that may changes that register, with its low bits and its read-only fields left out: the registers of turns, the budget, the
snapshot, the control routine, migration, the trap handler's (TCBASE, TCSIZE and TFBASE only while EN = 0), the fault queue and the conflict
queue. CAPCTL: EN = 1 is PRIV where HOSTOK is 0, only the host's level writes HOSTOK, and clearing HOSTOK clears EN. A level that may not, or
that comes from outside to a protected chip's own state, changes nothing (R9, R419). That moves of granules under its ranges are complete when
TCTL is written is the model's choice (log entry 60), and so is that a frame area that meets a backing sets LERR (16). -/
def Obligations.SystemRegisterWrites : Prop :=
  ∀ (s : State) (chip : Nat) (value : DWord) (c : Chip), s.chip? chip = some c →
    let tfn := value.toNat % 4096
    (value.getLsbD 63 = true → c.trap.en = false →
      let still : Chip := { c with moving := [] }
      let codeAt := c.trap.tcbase.toNat
      let areaAt := c.trap.tfbase.toNat
      let failed : Prop := exec (.trapHandlerEnable chip value) s =
        .next (s.updChip chip fun c => { c with trap := { c.trap with tfn, lerr := true } })
      (∀ code area, still.leaseRange .fetch codeAt (65536 * c.trap.tcsize) = .ok code →
        still.leaseRange .both areaAt (65536 * (tfn + 1)) = .ok area →
        (c.backs codeAt (65536 * c.trap.tcsize) code = false → c.backs areaAt (65536 * (tfn + 1)) area = false →
          ∃ t k, exec (.trapHandlerEnable chip value) s = .next t ∧ t.chip? chip = some k ∧
            k.trap = { c.trap with tfn, en := true, lerr := false, code, area }) ∧
        (c.backs codeAt (65536 * c.trap.tcsize) code = true ∨ c.backs areaAt (65536 * (tfn + 1)) area = true → failed)) ∧
      (∀ e, still.leaseRange .fetch codeAt (65536 * c.trap.tcsize) = .error e → failed) ∧
      (∀ e, still.leaseRange .both areaAt (65536 * (tfn + 1)) = .error e → failed)) ∧
    (value.getLsbD 63 = true → c.trap.en = true → exec (.trapHandlerEnable chip value) s = .next (s.updChip chip fun _ => c)) ∧
    (c.trap.en = true → c.trap.frames = [] → exec (.trapHandlerDisable chip) s =
      .next (s.updChip chip fun c => { c with trap := { c.trap with en := false, code := [], area := [] } })) ∧
    (c.trap.en = true → c.trap.frames ≠ [] → exec (.trapHandlerDisable chip) s = .next (s.updChip chip fun _ => c)) ∧
    (∀ bs task rest, c.trap.due = (bs, task) :: rest →
      let d := (s.updChip chip fun c => { c with trap := { c.trap with due := [] } }).deliverFault chip bs task
      d.2 = true → exec (.faultRecordDelivery chip) s =
        .next ((d.1.updChip chip fun c => { c with trap := { c.trap with due := rest } }).updTask chip task fun t => { t with undelivered := false })) ∧
    exec (.fqheadWrite chip value) s = .next (s.updChip chip fun c => { c with trap := { c.trap with fqhead := value.toNat % 64 } }) ∧
    (∀ n level t, n ≤ 127 → s.sysWrite chip level (0x6800 + n) value = .ok t →
      exec (.capctlWrite chip n value level) s = .next (if s.outsideMay chip level (0x6800 + n) true then t else s)) ∧
    (∀ n level, n ≤ 127 → s.sysWrite chip level (0x6800 + n) value = .priv → exec (.capctlWrite chip n value level) s = .next s) ∧
    (∀ index level tbit t, s.sysWrite chip level index value = .ok t →
      exec (.registerWrite (.chip chip tbit) index value level) s = .next (if s.outsideMay chip level index tbit then t else s)) ∧
    (∀ index level tbit, s.sysWrite chip level index value = .priv →
      exec (.registerWrite (.chip chip tbit) index value level) s = .next s) ∧
    (∀ index level rd wr, regLevels c.slot index = some (rd, wr) →
      (levelCode level < levelCode wr → s.sysWrite chip level index value = .priv) ∧
      (levelCode wr ≤ levelCode level →
        let gives (f : Chip → Chip) : Prop := s.sysWrite chip level index value = .ok (s.updChip chip f)
        let traps (f : Trap → Trap) : Prop := gives fun c => { c with trap := f c.trap }
        let page : DWord := value &&& ~~~0xFFFF
        let ring : DWord := value &&& ~~~0xFFF
        (index = 0x1141 → gives fun c => { c with slice := value }) ∧
        (index = 0x1142 → gives fun c => { c with wbudget := value }) ∧
        (index = 0x1144 → gives fun c => { c with snapa := ring }) ∧
        (index = 0x1146 → gives fun c => { c with cc := { c.cc with entry := value &&& ~~~3 } }) ∧
        (index = 0x1147 → gives fun c => { c with cc := { c.cc with area := page } }) ∧
        (index = 0x1148 → gives fun c =>
          { c with cc := { c.cc with stop := c.cc.stop && !value.getLsbD 0, drop := c.cc.drop && !value.getLsbD 1,
                                     limit := c.cc.limit && !value.getLsbD 2 } }) ∧
        (index = 0x1151 → gives fun c => { c with mig := { c.mig with bmp := value &&& ~~~7 } }) ∧
        (index = 0x2000 → traps fun t => if t.en then t else { t with tcbase := page }) ∧
        (index = 0x2001 → traps fun t => if t.en then t else { t with tcsize := value.toNat % 512 }) ∧
        (index = 0x2002 → traps fun t => if t.en then t else { t with tfbase := page }) ∧
        (index = 0x2005 → traps fun t => { t with fqbase := ring }) ∧
        (index = 0x2006 → traps fun t => { t with fqhead := value.toNat % 64 }) ∧
        (index = 0x3100 → gives fun c =>
          { c with tide := { c.tide with lost := c.tide.lost && !value.getLsbD 2, err := c.tide.err && !value.getLsbD 1 } }) ∧
        (index = 0x3101 → gives fun c => { c with tide := { c.tide with qbase := ring } }) ∧
        (index = 0x3102 → gives fun c => { c with tide := { c.tide with qhead := value.toNat % 128 } }) ∧
        (∀ q, q < 64 → index = 0x1000 + 4 * q →
          gives fun c => if (vget c.queues q).en then c else { c with queues := vset c.queues q { vget c.queues q with base := ring } }) ∧
        (let host : Bool := decide (levelCode .host ≤ levelCode level)
          let cap (ok : Bool) (put : Bool → Bool → Chip) : Prop :=
            (value.getLsbD 0 = true → ok = false → s.sysWrite chip level index value = .priv) ∧
            (value.getLsbD 0 = false ∨ ok = true →
              let now := if host then value.getLsbD 1 else ok
              gives fun _ => put now (value.getLsbD 0 && now))
          (index = 0x6803 → cap c.overOk fun ok en => { c with overOk := ok, overEn := en }) ∧
          (index = 0x6804 → cap c.scopeOk fun ok en => { c with scopeOk := ok, scopeEn := en }))))

/-! ### Events: Samphire and the links -/

/-- R351, R352, R354, R355, R360, R379, R391 to R393: the doorbell moves the tail of a ready device; HOLD holds its guest and ends with STATUS
1 once nothing of the guest is in the fabric; WVCT and WRLT write an entry of a held guest's table, WVCT of a chip that there is, a chip that
joins the pod starting at the pod's tide counter; XFER moves a descheduled chip to a free slot of a device with room; RELEASE lets the guest
go. A guest is held once its HOLD is complete, and a command whose guest is not, or whose chip still runs, changes nothing but its STATUS. A
chip's share of the inbound buffer moves with it, and its device must have room for that too (R4). When a joining chip is judged is the model's
(log entry 120), and that a HOLD that is not complete changes nothing (95). -/
def Obligations.SamphireCommands : Prop :=
  ∀ (s : State) (dev : Nat),
    (∀ d value, s.dev? dev = some d → exec (.samtailWrite dev value) s =
      .next (if d.ready then s.updDev dev fun d => { d with samtail := value.toNat % 128 } else s)) ∧
    (∀ x g, s.command dev = some x → Tab.find s.guests x.guest = some g →
      let holds (on : Bool) : State := s.updGuest x.guest fun g => { g with held := on }
      let held : Bool := g.held && s.drained x.guest
      (x.op = 1 → x.bare = true →
        (s.drained x.guest = true → g.remap = false → exec (.hold dev) s = .next ((holds true).status dev 1)) ∧
        (s.drained x.guest = false → g.held = false → exec (.hold dev) s = .next (holds true)) ∧
        (s.drained x.guest = false → g.held = true → exec (.hold dev) s = .next s)) ∧
      (x.op = 3 → x.clean = true → x.index < 1024 → x.value &&& ~~~0x83E003FF = 0 → (s.chip? (chipKey x.guest x.index)).isSome = true →
        let written : State := s.updGuest x.guest fun g => { g with vct := putEntry g.vct x.index x.value }
        let joins : Bool := x.value.getLsbD 31 && !s.inPod x.guest x.index
        (held = false → exec (.wvct dev) s = .next (s.status dev 2)) ∧
        (held = true → joins = false → exec (.wvct dev) s = .next (written.status dev 1)) ∧
        (held = true → joins = true → s.mayJoin x.guest x.index = false → exec (.wvct dev) s = .next (s.status dev 4)) ∧
        (held = true → joins = true → s.mayJoin x.guest x.index = true →
          (s.podCounters x.guest = [] → exec (.wvct dev) s = .next (written.status dev 1)) ∧
          (∀ n rest, s.podCounters x.guest = n :: rest → exec (.wvct dev) s =
            .next ((written.updChip (chipKey x.guest x.index) fun k => { k with tide := { k.tide with c := n } }).status dev 1)))) ∧
      (x.op = 3 → x.value.getLsbD 31 = true → s.chip? (chipKey x.guest x.index) = none → exec (.wvct dev) s = .next (s.status dev 4)) ∧
      (x.op = 4 → x.clean = true → x.index < 1024 → x.value &&& ~~~0x83FFFFFF = 0 →
        (held = true → exec (.wrlt dev) s =
          .next ((s.updGuest x.guest fun g => { g with rlt := putEntry g.rlt x.index x.value }).status dev 1)) ∧
        (held = false → exec (.wrlt dev) s = .next (s.status dev 2))) ∧
      (x.op = 5 → x.bare = true → (g.held = false → exec (.release dev) s = .next (s.status dev 2)) ∧
        (g.held = true → g.remap = false → exec (.release dev) s = .next ((holds false).status dev 1))) ∧
      (∀ c, x.op = 2 → x.clean = true → x.index < 1024 → bitsOf x.value.toNat 63 15 = 0 → s.chip? (chipKey x.guest x.index) = some c →
        let dest := bitsOf x.value.toNat 9 0
        let slot := bitsOf x.value.toNat 14 10
        let key := chipKey x.guest x.index
        let staged : Bool := c.mig.en && c.mig.tdev == dest && c.mig.tslot == slot && decide (1 ≤ c.mig.rounds)
        (s.dev? dest).isSome = true →
        (dest ≠ c.dev → 4096 < s.tibqTaken dest key + max c.tide.tibq (c.tide.tibqDue.getD 0) → s.tiersAt key c dest = none) ∧
        (held = false → exec (.xfer dev) s = .next (s.status dev 2)) ∧
        (held = true → s.dsch key c = false → exec (.xfer dev) s = .next (s.status dev 3)) ∧
        (held = true → s.dsch key c = true → s.slotFree key dest slot = false ∨ s.tiersAt key c dest = none →
          exec (.xfer dev) s = .next (s.status dev 5)) ∧
        (∀ tiers, held = true → s.dsch key c = true → s.slotFree key dest slot = true → s.tiersAt key c dest = some tiers →
          (staged = false → exec (.xfer dev) s = .next ((s.moveChip key c dest slot tiers).status dev 1)) ∧
          (staged = true → c.mig.busy = false → exec (.xfer dev) s = .next (((s.roundStart key).moveChip key c dest slot tiers).status dev 1)))))

/-- R363, R365: lanes that fail degrade a link, and below 2 lanes or 384 flits it fails and every guest is held; once the fabric has drained
the remap takes its plane out of LIVE and of the labels, and what the link has cut off leaves again; a degraded link is whole after
retraining, and a repaired one, degraded meanwhile or not, is used after a remap in reverse; one that fails again before that has no remap to
come, and the guests are let go where no other is due. -/
def Obligations.LinksFailAndReturn : Prop :=
  ∀ (s : State) (dev plane n : Nat) (d : Device), s.dev? dev = some d → plane ≤ 15 →
    let l := d.link plane
    let set (f : Link → Link) : State := s.updDev dev fun d => { d with links := Tab.put d.links plane (f (d.link plane)) }
    let allHeld (s : State) : State := { s with guests := s.guests.map fun g => (g.1, { g.2 with remap := true }) }
    (l.state ≠ .failed → n < l.lanes → ¬ (d.remapDue plane = true) →
      (2 ≤ n → exec (.linkLaneLoss dev plane n) s = .next (set fun l => { l with lanes := n, state := .degraded })) ∧
      (n < 2 → ∃ t e, exec (.linkLaneLoss dev plane n) s = .next t.endRemap ∧ t.guests = s.guests ∧ t.packets = s.packets ∧
        t.dev? dev = some e ∧ e.link plane = ⟨n, l.flits, .failed⟩ ∧ (d.live.getLsbD plane = true → t.endRemap = allHeld t))) ∧
    (d.remapDue plane = true → s.quiet = true → exec (.linkLaneLoss dev plane n) s =
      .next ((((s.setLive dev plane false).setPlanes dev plane false).resend dev plane).endRemap)) ∧
    (l.state ≠ .failed → n ≠ 0 → n ≤ l.flits →
      (384 ≤ l.flits - n → exec (.linkBufferRetire dev plane n) s = .next (set fun l => { l with flits := l.flits - n })) ∧
      (l.flits - n < 384 → ∃ t e, exec (.linkBufferRetire dev plane n) s = .next t.endRemap ∧ t.guests = s.guests ∧ t.packets = s.packets ∧
        t.dev? dev = some e ∧ e.link plane = ⟨l.lanes, l.flits - n, .failed⟩ ∧ (d.live.getLsbD plane = true → t.endRemap = allHeld t))) ∧
    (l.state = .degraded → exec (.linkRetrainComplete dev plane) s = .next (set fun l => { l with lanes := 8, state := .up })) ∧
    (l.state = .failed → d.live.getLsbD plane = false →
      exec (.linkRepair dev plane) s = .next (allHeld (set fun _ => ⟨8, 2048, .up⟩))) ∧
    (l.state ≠ .failed → d.live.getLsbD plane = false → s.quiet = true →
      exec (.linkRepair dev plane) s = .next (((s.setLive dev plane true).setPlanes dev plane true).endRemap))

/-! ### Events: protection and bring-up -/

/-- R414 to R417: a key-store command whose checks pass runs and leaves result 1: GEN fills a slot from Ilcia's generator, LOAD from KSDATA,
ACTIVATE binds it and retires its predecessor, REVOKE revokes it and, of an active XTS or SEAL slot, its guest's chips, ERASE empties it; one
that fails a check leaves its code and nothing else, and a device that is not ready takes none (R436). A slot that drains ends draining once
its memory is re-encrypted or nothing of its link is under way; a link key's counter warns at 2^47, once, and at 2^48 is exhausted, which is
no change by itself. No one but Ilcia, at the creation, activates a slot for a protected guest: its ACTIVATE fails with code 3. What code the
warning carries (log entry 39), that the creation makes the LINK slots of a protected guest (106), and that exhaustion changes nothing by
itself (88) are the model's. -/
def Obligations.KeyStore : Prop :=
  ∀ (s : State) (dev : Nat) (d : Device), s.dev? dev = some d →
    (∀ cmd : DWord,
      let x := KsCmd.of cmd
      let k := d.key x.slot
      let bits := s.generate (keyWords x.kind)
      let gone : State := s.updDev dev fun d => { d with keys := Tab.upd d.keys x.slot fun k => { k with state := 4, drain := false } }
      let runs (i : Instr) (t : State) : Prop :=
        (d.ready = false → exec i s = .next s) ∧
        (∀ code, d.ready = true → d.ksCheck s.protGuest x = some code → exec i s = .next (s.updDev dev fun d => { d with ksResult := code })) ∧
        (d.ready = true → d.ksCheck s.protGuest x = none → exec i s = .next (t.updDev dev fun d => { d with ksResult := 1 }))
      (x.op = 1 → runs (.gen dev cmd) (bits.2.updDev dev fun d => d.fillKey x.slot x.kind false bits.1)) ∧
      (x.op = 2 → runs (.load dev cmd) (s.updDev dev fun d => d.fillKey x.slot x.kind false (d.keyData.toList.take (keyWords x.kind)))) ∧
      (x.op = 3 → x.ok = true → (k.state = 1 → k.kind = x.kind) → s.protGuest x.guest = true → d.ksCheck s.protGuest x = some 3) ∧
      (x.op = 3 → runs (.activate dev cmd) (s.updDev dev fun d => d.bindKey x.slot x.guest x.chipA x.chipB (s.protGuest x.guest))) ∧
      (x.op = 4 → runs (.revoke dev cmd) (if k.state = 2 && (k.kind = 1 || k.kind = 3) then gone.revokeGuest k.guest else gone)) ∧
      (x.op = 5 → runs (.erase dev cmd) (s.updDev dev fun d => { d with keys := Tab.drop d.keys x.slot }))) ∧
    (∀ slot, let k := d.key slot
      let done : State := s.updDev dev fun d => { d with keys := Tab.put d.keys slot { k with drain := false } }
      (k.state = 3 → k.kind = 1 → k.drain = true → exec (.keyReencryptComplete dev slot) s = .next done) ∧
      (k.state = 3 → k.kind = 2 → k.drain = true →
        (∀ p ∈ s.packets, p.guest = k.guest → p.src = k.chipA → p.dst = k.chipB → p.left = true → p.delivered = false →
          ∀ q, p.cipher = some q → q.bits ≠ k.bits) →
        exec (.linkQueuesDrained dev slot) s = .next done) ∧
      (k.state = 2 → k.kind = 2 → 2 ^ 47 ≤ Tab.getD d.linkCtr slot 0 → d.warned.contains slot = false →
        let t := s.updDev dev fun d => { d with warned := slot :: d.warned }
        exec (.linkCounterWarn dev slot) s = .next (t.notice (chipKey k.guest k.chipA) 2)) ∧
      (k.state = 2 → k.kind = 2 → 2 ^ 48 ≤ Tab.getD d.linkCtr slot 0 → exec (.linkCounterExhausted dev slot) s = .next s))

/-- R418: the requests to an interface: what each answers, and where it takes its interface; a chip is protected once its memory is zero and
its keys are active; a change of its configuration and a function reset of a locked or running interface end it in ERROR. R419, R420: SPDM
requests at their point of the exchange are answered, every signature under an index of its own; a debug unlock is requested, and refused
while a protected chip is being created, and its token's verdict is DBGSTAT. Every slot that is bound to the guest is marked as a protected
one's from the creation on (R414, R417). The order of the exchange, the codes of the answers and the versions (log entry 79, from outside the
spec), which answers take a signature index (80), that only a chip without cores is locked (81), and that a refused debug request keeps no
address (83), are the model's. -/
def Obligations.SecurityRequests : Prop :=
  (∀ (s : State) (dev slot : Nat) (d : Device), s.dev? dev = some d → d.ready = true → slot ≤ 31 →
    let t := d.iface slot
    let reply (u : State) (request : Nat) (ok : Bool) (ws : List DWord) : State :=
      u.updDev dev fun d => { d with spdm := { d.spdm with answers := d.spdm.answers ++ [⟨request, ok, ws⟩] } }
    let set (u : Tdi) : State := s.updDev dev fun d => { d with tdi := Tab.put d.tdi slot u }
    (∀ key c, Tab.find d.slots slot = some key → s.chip? key = some c → t.state = .unlocked → c.descheduled = true →
      (∀ u ∈ c.tasks, u.2.core = none) →
      exec (.lockInterface dev slot) s = .next (reply (set { t with state := .creating, reason := 0 }) 0x83 true [])) ∧
    (t.state ≠ .unlocked → exec (.lockInterface dev slot) s = .next (reply s 0x83 false [])) ∧
    (∀ key c, Tab.find d.slots slot = some key → s.chip? key = some c → t.state = .creating → 3 ≤ d.freeKeys →
      Tab.rising none d.keys = true →
      ∃ u e, exec (.protectedCreationCommit dev slot) s = .next u ∧ u.dev? dev = some e ∧ (e.iface slot).state = .locked ∧
        (∀ kind ∈ [1, 3, 4], ∃ n k, Tab.find e.keys n = some k ∧ k.kind = kind ∧ k.state = 2 ∧ k.guest = c.guest ∧ k.prot = true) ∧
        (∀ n k, Tab.find e.keys n = some k → k.guest = c.guest → 2 ≤ k.state → k.prot = true) ∧
        ∃ k, u.chip? key = some k ∧ k.prot = true ∧ k.mem = []) ∧
    (t.state = .locked → exec (.startInterface dev slot) s = .next (reply (set { t with state := .run }) 0x86 true [])) ∧
    (t.state ≠ .locked → exec (.startInterface dev slot) s = .next (reply s 0x86 false [])) ∧
    (t.state ≠ .unlocked → ∃ u e, exec (.stopInterface dev slot) s = .next u ∧ u.dev? dev = some e ∧ (e.iface slot).state = .unlocked ∧
      e.spdm.answers = d.spdm.answers ++ [⟨0x87, true, []⟩]) ∧
    (t.state = .unlocked → exec (.stopInterface dev slot) s = .next (reply s 0x87 false [])) ∧
    exec (.tdispGetVersion dev slot) s = .next (reply s 0x81 true [0x10]) ∧
    (∃ ws, exec (.tdispGetCapabilities dev slot) s = .next (reply s 0x82 true ws)) ∧
    (t.state = .locked ∨ t.state = .run → ∃ w, exec (.getDeviceInterfaceReport dev slot) s = .next (reply s 0x84 true [w])) ∧
    (t.state ≠ .locked → t.state ≠ .run → exec (.getDeviceInterfaceReport dev slot) s = .next (reply s 0x84 false [])) ∧
    exec (.getDeviceInterfaceState dev slot) s = .next (reply s 0x85 true [BitVec.ofNat 64 t.state.code]) ∧
    (t.state = .locked ∨ t.state = .run →
      exec (.configurationChange dev slot) s = .next (s.tdiError dev slot 1) ∧
      exec (.functionReset dev slot) s = .next (s.tdiError dev slot 4)) ∧
    (d.spdm.finished = true → exec (.ideKm dev slot) s = .next (reply (set { t with ide := true }) 0x80 true [])) ∧
    (d.spdm.finished = false → exec (.ideKm dev slot) s = .next (reply s 0x80 false []))) ∧
  (∀ (s : State) (dev request : Nat) (d : Device), s.dev? dev = some d → d.ready = true →
    let p := d.spdm
    let gives (i : Instr) (f : Spdm → Spdm) (ws : List DWord) : Prop :=
      exec i s = .next (s.updDev dev fun d => { d with spdm := { f d.spdm with answers := (f d.spdm).answers ++ [⟨request, true, ws⟩] } })
    let answers (i : Instr) (f : Spdm → Spdm) : Prop := ∃ ws, gives i f ws
    let signed (i : Instr) : Prop :=
      ∃ ws, exec i s = .next (s.updDev dev fun d =>
        { d with spdm := { d.spdm with sigIndex := d.spdm.sigIndex + 1,
                                       answers := d.spdm.answers ++ [⟨request, true, BitVec.ofNat 64 d.spdm.sigIndex :: ws⟩] } })
    gives (.spdmGetVersion dev request)
      (fun p => { p with version := true, caps := false, algorithms := false, session := false, finished := false }) [0x12] ∧
    (p.version = true → gives (.spdmGetCapabilities dev request) (fun p => { p with caps := true })
      [0x84, 0xE1, 0xE3, 0x81, 0x82, 0x83, 0xE0, 0xE4, 0xE5]) ∧
    (p.caps = true → gives (.negotiateAlgorithms dev request) (fun p => { p with algorithms := true }) [0x1, 0x10, 0x2, 2, 8, 3]) ∧
    (p.algorithms = true → answers (.getDigests dev request) id ∧ answers (.getCertificate dev request) id ∧
      answers (.keyExchange dev request) fun p => { p with session := true, finished := false }) ∧
    (p.algorithms = true → p.sigIndex < 2 ^ 40 → signed (.challenge dev request) ∧ signed (.getMeasurements dev request)) ∧
    (p.session = true → answers (.finish dev request) fun p => { p with finished := true }) ∧
    (∀ addr : DWord, (∀ t ∈ d.tdi, t.2.state ≠ .creating) → exec (.debugUnlockRequest dev addr) s =
      .next (s.updDev dev fun d => { d with dbgReq := addr &&& ~~~0xFFF, dbgStat := 5 })) ∧
    (∀ addr t, t ∈ d.tdi → t.2.state = .creating → exec (.debugUnlockRequest dev addr) s =
      .next (s.updDev dev fun d => { d with dbgStat := 2 })) ∧
    (d.dbgStat = 5 →
      exec (.debugTokenVerified dev .accepted) s = .next (s.updDev dev fun d => { d with dbgStat := 1, unlocked := true }) ∧
      exec (.debugTokenVerified dev .badSignature) s = .next (s.updDev dev fun d => { d with dbgStat := 3 }) ∧
      exec (.debugTokenVerified dev .otherDevice) s = .next (s.updDev dev fun d => { d with dbgStat := 4 })))

/-- R7, R8, R306, R356, R413, R419, R436, R437: a reset device is at stage 0 and has no chips, its links and its used signature indices standing;
bring-up goes stage by stage, or stops with an error of its stage; until it is complete BAR0 reads BOOTSTAT, PART and SERIAL, and 0 elsewhere,
and writes are dropped; a chip is created in a free slot of a ready device with room for its quotas and destroyed with all it has; the clock
falls above 2,600 W; a core is ungated, and what it held while gated is zero. That DEVICE_RESET destroys the device's chips and leaves its links
(log entry 84), what ungating clears (63), and that a new chip has no cores (8) are the model's choices. -/
def Obligations.DevicesAndChips : Prop :=
  ∀ (s : State) (dev : Nat),
    (dev ≤ 1023 → ∃ t, exec (.deviceReset dev) s = .next t ∧ (∀ c ∈ t.chips, c.2.dev ≠ dev) ∧
      (s.dev? dev = none → t.dev? dev = some Device.reset) ∧
      (∀ d, s.dev? dev = some d → t.dev? dev =
        some { Device.reset with links := d.links, live := d.live, spdm := { Device.reset.spdm with sigIndex := d.spdm.sigIndex } })) ∧
    (∀ d index value level, s.dev? dev = some d →
      exec (.registerWrite (.vfEnable dev) index value level) s =
        .next (if d.ready then s.updDev dev fun d => { d with vfEnable := value.getLsbD 0 } else s) ∧
      (d.ready = false → isDevReg index = true → (regLevels 32 index).isSome = true →
        exec (.registerWrite (.device dev) index value level) s = .next s) ∧
      s.bar0 dev 0 = some (d.stage * 2 ^ 56 + d.bootErr * 2 ^ 48 + bitNat (d.stage == 6)) ∧ s.bar0 dev 8 = some 0x4C56394131390000 ∧
      s.bar0 dev 0x10 = some (Config.serial dev).toNat ∧
      (∀ off, off ≠ 0 → off ≠ 8 → off ≠ 0x10 → d.ready = false → s.bar0 dev off = some 0)) ∧
    (∀ d err, s.dev? dev = some d → d.stage < 6 → d.bootErr = 0 →
      (err = 0 → exec (.bringUpStage dev err) s = .next (s.updDev dev fun d => { d with stage := d.stage + 1 })) ∧
      (d.stage = 2 ∧ (err = 1 ∨ err = 2) ∨ d.stage = 3 ∧ (err = 3 ∨ err = 4) →
        exec (.bringUpStage dev err) s = .next (s.updDev dev fun d => { d with bootErr := err }))) ∧
    (∀ chip slot quota near, chip / 1024 < 4096 → s.chip? chip = none → quota % 65536 = 0 → quota ≠ 0 → near ≤ quota →
      (s.dev? dev).map Device.ready = some true → s.slotFree chip dev slot = true → (s.settle none dev quota near).isSome = true →
      s.nearTaken dev + near ≤ 192 * 2 ^ 30 →
      ∃ t c, exec (.chipCreation chip dev slot quota near) s = .next t ∧ t.chip? chip = some c ∧ c.dev = dev ∧ c.slot = slot ∧
        c.quota = quota ∧ c.mem = [] ∧ c.cores = 0 ∧ c.tasks = []) ∧
    (∀ chip c, s.chip? chip = some c → Tab.rising none s.chips = true → ∃ t, exec (.chipDestruction chip) s = .next t ∧ t.chip? chip = none) ∧
    (∀ d draw, s.dev? dev = some d →
      exec (.coreClockReduction dev draw) s = .next (s.updDev dev fun d => { d with clockLow := decide (2600 < draw) })) ∧
    (∀ d core, s.dev? dev = some d → core ≤ 159 →
      let r : CoreRef := ⟨dev, core⟩
      let idle := (s.tasksOn r).isEmpty && (s.core r).ctrl.isNone && (s.core r).copyq.isEmpty
      exec (.powerUngate r) s = .next (s.updCore r fun k =>
        { (if k.gated && idle then { k with holder := none, wants := [], copyq := [], subs := Core.idle.subs, scrub := false } else k) with gated := false }))

/-! ### Words -/

/-- R16 to R22, R59, R60: words that the spec prints decode to the instructions that it prints beside them; the words of reserved fields and
of opcodes without a row are unassigned; a fill word is one. -/
def Obligations.PrintedWordsDecode : Prop :=
  let reg (k : BitVec 8) : Src := ⟨.main k, false, 0⟩
  let num (k : BitVec 8) : Src := ⟨.special k, false, 0⟩
  let x (f : Form) (gp : BitVec 4) (d : BitVec 8) (a b : Src) (sub : BitVec 7) : Ops :=
    { form := f, gn := false, gp, la := 0, dst := .main d, a, b, c := Src.zero, sub, clp := 0, scl := 0, imm := 0 }
  decodeBits (0x8060F005 + 0x402 * 2 ^ 32 + 1000 * 2 ^ 64) = .iadd { x .D 15 3 ⟨.main 2, true, 0⟩ Src.zero 0 with imm := 1000 } ∧
  decodeBits 0x04068204_01A0F0BC = .shfl (x .A 15 13 (reg 8) (num 0x41) 2) ∧
  decodeBits 0x0007FFFF_000130A0 = .bra { x .A 3 0 (num 0xFE) (num 0xFF) 0 with gn := true } ∧
  decodeBits 0x00068003_0060F410 = .st (x .A 15 3 (reg 6) (num 0x40) 0) ∧
  decodeBits 0x040001A1_8000F42C = .fence (x .A 15 0 (num 0x43) Src.zero 2) ∧
  decodeBits 0x02000200_8040F818 = .mmul (x .A 15 2 (reg 1) (reg 1) 1) ∧
  decodeBits 0x000E0B82_0040F60C = .mmam { x .B 15 2 (num 4) (num 5) 0 with c := reg 1 } ∧
  decodeBits 0x00068001_0104FA14 = .rld { x .A 15 8 (reg 2) (num 0x40) 0 with la := 2 } ∧
  decodeBits 0x00001A06_01C0FE04 = .byteAbsDiffSum (x .A 15 14 (reg 12) (reg 13) 0) ∧
  decodeBits 3 = .fillWord ∧ decodeBits 7 = .unassignedOpcode 7 ∧ decodeBits 0xF000 = .unassignedOpcode 0xF000 ∧
  decodeBits (0xF005 + 2 ^ 63) = .unassignedOpcode 0xF005

/-- R16 to R36, R59 to R61: decoding what a well-formed instruction is encoded as gives it back with nothing left over, and a well-formed
instruction that bytes decode to has exactly those bytes: every bit of a word is in its instruction. -/
def Obligations.DecodeEncode : Prop :=
  (∀ (i : Instr) (rest : List Byte), i.wf = true → ∃ bs, encode i = some bs ∧ decode (bs ++ rest) = some (i, rest)) ∧
  (∀ (bs rest : List Byte) (i : Instr), decode bs = some (i, rest) → i.wf = true → ∃ p, encode i = some p ∧ bs = p ++ rest)

/-! ### The step -/

/-- R16, R17, R37 order 2: where someone issues, the step runs the instruction that the bytes at its address decode to; an instruction whose
bytes may not be fetched is EXTENT. With no issuer the step makes what stands first on the agenda (log entry 2). That the record of a fetch
fault has the bundle's lanes as ACTIVE is the model's choice (log entry 101). -/
def Obligations.StepRunsIssued : Prop :=
  (∀ (s : State) w g core chip lanes, s.issuing = some (w, g, core, chip, lanes) →
    let pc := vget g.pc (lowest lanes)
    let at_ := pc.toNat
    (∀ bs i, s.codeBytes w at_ bs.length = some bs → decode bs = some (i, []) → at_ % 32 + bs.length ≤ 32 → step s = exec i s) ∧
    (∀ head, s.codeBytes w at_ 4 = some head → at_ % 32 + lengthOf (leNat head) ≤ 32 → s.codeBytes w at_ (lengthOf (leNat head)) = none →
      step s = .next (s.takeFault w { cause := 5, lanes, addr := pc } lanes pc (pc + BitVec.ofNat 64 (lengthOf (leNat head))) [])) ∧
    (s.codeBytes w at_ 4 = none →
      ∃ (t : State) (resume : DWord), { t with fresh := s.fresh } = s ∧ step s = .next (t.takeFault w { cause := 5, lanes, addr := pc } lanes pc resume []))) ∧
  (∀ (s : State) i rest, s.issuer = none → s.agenda = i :: rest → step s = exec i { s with agenda := rest })

/-- R37 orders 3 to 7, R27, R30: the checks before an instruction's effect, each only where those before it pass: ILLEGAL_ENCODING,
ILLEGAL_OPERAND, PRIV, no lane active, a wait for results, NONUNIFORM, UNMAPPED_READ; past them all the instruction is ready. After EXIT and LDF
the EMPTY_ORPHAN test of R246 is made. That PRIV is taken where no lane is active (log entry 24), that NONUNIFORM names the lowest lane over all
its slots (123), and how far order 5 knows the register of SYSR and SYSW (129), are the model's choices. -/
def Obligations.ChecksInOrder : Prop :=
  ∀ (s : State) (i : Instr) (sp : OpSpec) (x : Ops) w g core chip lanes, i.spec = some sp → i.ops = some x →
    s.issuing = some (w, g, core, chip, lanes) →
    let c := (ctxOf s i sp x w g core chip lanes).1
    let r := (ctxOf s i sp x w g core chip lanes).2
    let after (t : State) : State :=
      match i, w with
      | .exit _, .gang h _ => t.orphanTest h.chip h.task
      | .ldf _, .gang h _ => t.orphanTest h.chip h.task
      | _, _ => t
    let faults (cause : Nat) (m : LaneMask) (addr : DWord) : Prop :=
      exec i s = .next (after (s.takeFault w { cause, lanes := m, addr } c.active c.pc c.next []))
    let encoded : Bool := encOk c.md c.sp x && placeOk c.md i c.sp
    let allowed : Prop := levelCode c.sp.lv ≤ levelCode g.pl ∧ s.scopeWriteOk chip i = true ∧ c.regPriv s r = false
    let diff : Option Nat :=
      ([differing c.sp.a c.active r.a, differing c.sp.b c.active r.b, differing c.sp.c c.active r.c].filterMap id).min?
    let gone := missingLanes c.active r.d ||| missingLanes c.active r.a ||| missingLanes c.active r.b ||| missingLanes c.active r.c
    (encoded = false → faults 1 lanes 0) ∧
    (encoded = true → opndOk c.md c.sp x = false → faults 2 lanes 0) ∧
    (encoded = true → opndOk c.md c.sp x = true →
      (¬ allowed → faults 19 lanes 0) ∧
      (allowed → c.active = 0 → exec i s = .next (after (c.pass s))) ∧
      (allowed → c.active ≠ 0 → c.mustWait = true → exec i s = .next (after (s.stall w lanes ⟨.result, 0, 0, i, [], 0⟩))) ∧
      (allowed → c.active ≠ 0 → c.mustWait = false → g.replaying lanes = none →
        (∀ n, diff = some n → faults 12 c.active (BitVec.ofNat 64 n)) ∧
        (diff = none → gone ≠ 0 → faults 4 gone 0) ∧
        (diff = none → gone = 0 → Ready s i x c)) ∧
      (allowed → c.active ≠ 0 → c.mustWait = false → (g.replaying lanes).isSome = true → Ready s i x c))

/-! ### What an instruction writes and keeps -/

/-- R22 to R25, R28, R29, R41, R42, R54, R55, R100, R115: what a completed instruction, of a gang or of the control core, leaves in its
destination in each active lane, whatever class the destination is of; v255 takes nothing and reads 0. Its IEEE and moment flags are added to
%fpflag and %mflag of the active lanes, and of those alone. A last-read bit clears the live bits of the active lanes and frees the register
where none is left and no result is awaited; a name that the instruction also writes holds the result. Every lane of the bundle stands at the
next instruction, or where a jump takes it. -/
def Obligations.DestinationsReceive : Prop :=
  ∀ (s : State) (i : Instr) (x : Ops) (c : Ctx) (o : Out) (v : Lanes Nat) (b : Gang), Ready s i x c →
    c.g.replaying c.lanes = none → o.s.gangOf c.w = some b → b.replay = c.g.replay → o.dst = some v → o.late = none →
    ∃ q, (c.finish o).gangOf c.w = some q ∧ (o.s.due.find? (Issuer.together c.w) = none → (c.finish o).issuer = none) ∧
      (∀ sl n, c.sp.dst.writeSlot = some sl → sl.cls = .V → x.dst = .main n → ∀ k : Fin 32, inMask c.active k = true →
        q.operand c.md.ctrl sl x.dst k = some (if n = 255 then 0 else v[k] % 2 ^ (32 * sl.regs))) ∧
      (∀ sl n, c.sp.dst.writeSlot = some sl → sl.cls = .V → x.dst = .file n → ∀ k : Fin 32, inMask c.active k = true →
        q.operand c.md.ctrl sl x.dst k = some (v[k] % 2 ^ (32 * sl.regs))) ∧
      (∀ sl n, c.sp.dst.writeSlot = some sl → sl.cls = .S → x.dst = .main n →
        vget q.sreg n.toNat = BitVec.ofNat 64 (vget v (lowest c.active))) ∧
      (∀ sl n, c.sp.dst.writeSlot = some sl → sl.cls = .M → x.dst = .main n → ∀ k : Fin 32, inMask c.active k = true →
        vget (vget q.mom n.toNat) k = BitVec.ofNat 64 v[k]) ∧
      (∀ sl n, c.sp.dst = .dst sl → sl.cls = .P → x.dst = .main n → ∀ k : Fin 32, inMask c.active k = true →
        v[k] ≤ 1 → (q.pred[k]).getLsbD n.toNat = decide (v[k] = 1)) ∧
      (∀ sl, c.sp.dst.writeSlot = some sl → sl.cls = .V → ∀ k : Fin 32, inMask c.active k = true →
        q.last[k] = (BitVec.ofNat 64 (v[k] % 2 ^ (32 * sl.regs)) :: b.last[k]).take 4) ∧
      (∀ k : Fin 32, q.fpflag[k] = if inMask c.active k then b.fpflag[k] ||| (o.flags[k]).setWidth 32 else b.fpflag[k]) ∧
      (∀ k : Fin 32, q.mflag[k] = if inMask c.active k then b.mflag[k] ||| (o.mflags[k]).setWidth 32 else b.mflag[k]) ∧
      (∀ u y sl m n r, c.md.ctrl = false → (u, y) ∈ [(c.sp.a, x.a), (c.sp.b, x.b), (c.sp.c, x.c)] → u = .src sl → y.opnd = .main m →
        y.lastRead = true → m.toNat ≠ 255 → m.toNat ≤ n → n < m.toNat + sl.regs → c.destName.covers n = false →
        Tab.rising none b.vmap = true → Tab.find b.vmap n = some r →
        Tab.find q.vmap n = if r.live &&& ~~~c.active = 0 ∧ b.awaits n = false then none else some { r with live := r.live &&& ~~~c.active }) ∧
      (∀ k : Fin 32, inMask c.lanes k = true →
        q.pc[k] = if inMask c.active k then (match o.jump with | some j => j[k] | none => c.next) else c.next)

/-- The frame of instructions that only write registers (R28, R29, R41, R54, R82): an integer, logic, lane, conversion or move instruction
that completes keeps every byte of memory, every flag, every other gang and everything outside the chip; of its gang it keeps what is
neither its destination nor last-read. A float instruction without traps keeps the same, but for the IEEE flags it raises. A control
routine's instruction keeps every chip but for its race record, host memory, the fabric and every other core. -/
def Obligations.RegisterFrames : Prop :=
  ∀ (s t : State) (i : Instr) (x : Ops) (c : Ctx), i.ops = some x → Ready s i x c → c.room s = true → exec i s = .next t →
    (i.registerOnly = true ∨ (i.floatOnly = true ∧ c.trapsOff)) →
    (∀ p, t.readByte p = s.readByte p) ∧ t.hostMem = s.hostMem ∧ t.guests = s.guests ∧ t.packets = s.packets ∧ t.irqs = s.irqs ∧
    t.agenda = s.agenda ∧ t.fresh = s.fresh ∧ (∀ k, (t.chip? k).map Chip.rest = (s.chip? k).map Chip.rest) ∧
    (∀ k n, (t.task? k n).map Task.rest = (s.task? k n).map Task.rest) ∧
    (∀ g lanes, c.w = .gang g lanes → OthersKept s t g ∧
      ∃ q, t.gang? g = some q ∧ c.kept q ∧ (i.registerOnly = true → q.fpflag = c.g.fpflag) ∧ q.mflag = c.g.mflag) ∧
    (∀ r, c.w = .ctrl r → (∀ k, (t.chip? k).map Chip.noRaces = (s.chip? k).map Chip.noRaces) ∧ ∀ k, k ≠ r → t.core k = s.core k)

/-- The frame of storing instructions (R144, R145, R150 to R152, R203): a store or an atomic that completes changes no byte but those at the
places of its active lanes, the places that its own address computation gives; it keeps every other gang, the devices, the tables and the
fabric, and of its gang what is neither its destination nor last-read. -/
def Obligations.StoreFrames : Prop :=
  ∀ (s t : State) (i : Instr) (x : Ops) (c : Ctx) (g : GangRef) (lanes : LaneMask) (ps : Lanes (List Place)), Ready s i x c →
    c.w = .gang g lanes → c.room s = true → exec i s = .next t →
    let n := szBytes (x.sb 2 0)
    let w := 32 * (x.sb 6 6 + 1)
    let op (k : Fin 32) (old : Nat) : Option Nat := some (atomicOp (x.sb 3 0) w old c.vd[k])
    let cas (k : Fin 32) (old : Nat) : Option Nat := if old = c.vd[k] then some c.vb[k] else none
    let clear (e need : Nat) (new : Fin 32 → Nat → Option Nat) : Prop := e ≤ 63 ∧ c.scopeTrouble s e = none ∧
      c.reach s c.active .both need (fun k => c.va[k]) = .ok ps ∧
      c.raceOf s (fun _ => true) (fun k => inMask (c.writers s ps new) k) c.active (fun k => c.va[k]) ps = none
    (i = .st x ∧ c.reach s c.active .write n c.ea = .ok ps ∧ c.raceOf s (c.boundStore s n true ps) (fun _ => true) c.active c.ea ps = none ∨
     i = .sts x ∧ c.reach s c.active .write n c.scratchAddr = .ok ps ∧ c.raceOf s (c.boundStore s n false ps) (fun _ => true) c.active c.scratchAddr ps = none ∨
     i = .mst x ∧ c.reach s c.active .write (moBytes x) c.ea = .ok ps ∧ c.raceOf s (fun _ => false) (fun _ => true) c.active c.ea ps = none ∨
     i = .atom x ∧ clear (c.once c.vb) (w / 8) op ∨ i = .red x ∧ clear (c.once c.vb) (w / 8) op ∨
     i = .atomCas x ∧ clear (c.once c.vc) (if x.sb 0 0 = 1 then 16 else 4 * (x.sb 3 3 + 1)) cas) →
    (∀ p, (∀ k : Fin 32, inMask c.active k = true → ∀ q ∈ ps[k], q.sameByte p = false) → t.readByte p = s.readByte p) ∧
    OthersKept s t g ∧ ∃ q, t.gang? g = some q ∧ c.kept q ∧ q.fpflag = c.g.fpflag ∧ q.mflag = c.g.mflag

/-- R395, R398, R399, R402: taking a fault of a gang that has no earlier one outstanding: where its chip's handler is on, the gang is not in it,
the cause does not end the task and a frame is free, its threads that have not exited stand at TCBASE at supervisor level with the
frame's address and the cause's word in s62 and s63 and the frame is held; with no frame free the gang stops and waits for one; else the task ends. -/
def Obligations.FaultTaken : Prop :=
  ∀ (s : State) (g : GangRef) (lanes active : LaneMask) (t : Trouble) (pc resume : DWord) (c : Chip) (k : Task) (q : Gang),
    s.chip? g.chip = some c → s.task? g.chip g.task = some k → s.gang? g = some q → q.replay = [] → (∀ p ∈ q.pend, p.traps = 0) →
    let u := s.takeFault (.gang g lanes) t active pc resume []
    let ends : Prop := q.frame.isSome = true ∨ c.trap.en = false ∨ t.cause = 5 ∨ t.cause = 22
    let record (ends : Bool) : List Byte := faultRecord t q.frame.isSome ends false active g.gang k.handle k.num pc resume
    (∀ n, ¬ ends → c.trap.freeFrame = some n →
      ∃ r d, u.gang? g = some r ∧ u.chip? g.chip = some d ∧ r.pl = .supervisor ∧ r.frame = some n ∧ r.exited = q.exited ∧
        (∀ i : Fin 32, r.pc[i] = if inMask q.exited i then q.pc[i] else c.trap.tcbase) ∧ r.fpctl = Lanes.all 0 ∧ r.pend = [] ∧
        vget r.sreg 62 = BitVec.ofNat 64 (c.trap.tfbase.toNat + 65536 * n) ∧
        vget r.sreg 63 = BitVec.ofNat 64 (field (record false) 0 4) ∧ d.trap = { c.trap with frames := n :: c.trap.frames } ∧
        u.issuer = none) ∧
    (¬ ends → c.trap.freeFrame = none → u.gang? g = some { q.stop with waiting := some (record false, []) } ∧ u.issuer = none) ∧
    (ends → ∃ v, u.task? g.chip g.task = some v ∧ v.ended = true ∧ u.issuer = none)

/-! ### The whole machine -/

/-- R436 and R306, R257, R371, R374, R389, R397, R434 for the values of a new chip: after reset a device is at stage 0 without an error, with
no key, no chip and nothing of any guest; a new chip has no cores, empty memory, its slice and budget at their values, and every queue,
region, tag and handler off. That the pod holds the one device 0 is the model's (log entry 5), and so are that a new chip has no cores (8) and
the canonical form of memory (1), which reset memory has. -/
def Obligations.ResetState : Prop :=
  (∃ d, State.reset.dev? 0 = some d ∧ d.stage = 0 ∧ d.bootErr = 0 ∧ d.keys = [] ∧ d.slots = [] ∧ d.quant0 = [] ∧ d.quant1 = []) ∧
  (∀ n, n ≠ 0 → State.reset.dev? n = none) ∧ (∀ k, State.reset.chip? k = none) ∧ State.reset.packets = [] ∧ State.reset.agenda = [] ∧
  State.reset.issuer = none ∧ Memory.wf State.reset = true ∧
  (∀ guest num dev slot quota near tiers (csarea : DWord), let c := Chip.new guest num dev slot quota near tiers csarea
    c.memWf = true ∧ c.cores = 0 ∧ c.slice = 3000000 ∧ c.wbudget = 3000000000 ∧ c.trap.en = false ∧ c.trap.csarea = csarea ∧
    c.tide.c = 0 ∧ c.tide.closed = false ∧ c.mig.en = false ∧ (∀ q : Fin 64, (c.queues[q]).en = false) ∧ (∀ n, Tab.find c.rx n = none))

/-- Every step keeps every memory canonical (log entry 1): equal memories are equal data. -/
def Obligations.StepKeepsMemoryCanonical : Prop :=
  ∀ (s t : State), Memory.wf s = true → step s = .next t → Memory.wf t = true

/-- R18: an instruction that would extend past the end of the aligned 32-byte block in which it starts takes FETCH_BOUNDARY and has no effect;
its fault record names the instruction's address. That it has the bundle's lanes as LANES and ACTIVE is the model's choice (log entry 101). -/
def Obligations.FetchBoundary : Prop :=
  ∀ (s : State) w g core chip lanes head, s.issuing = some (w, g, core, chip, lanes) →
    let pc := vget g.pc (lowest lanes)
    let resume := pc + BitVec.ofNat 64 (lengthOf (leNat head))
    let t : Trouble := { cause := 3, lanes }
    s.codeBytes w pc.toNat 4 = some head → 32 < pc.toNat % 32 + lengthOf (leNat head) →
    step s = .next (s.takeFault w t lanes pc resume []) ∧
    ∀ nest ends eng gang handle task, let record := faultRecord t nest ends eng lanes gang handle task pc resume
      field record 0 1 = 3 ∧ field record 4 4 = lanes.toNat ∧ field record 0x10 8 = pc.toNat

/-- R92: BTERN completes, and bit n of what an active lane receives is the bit of the table at the index whose bits 0, 1 and 2 are bit n of SA,
SB and SC; bit 7 of the table is the opcode's and bits 6 to 0 are SUB. -/
def Obligations.TernaryTable : Prop :=
  ∀ (s : State) (x : Ops) (c : Ctx), c.room s = true →
    let writes (i : Instr) (table : Nat) : Prop :=
      ∃ v : Lanes Nat, exec i s = .next (c.finish { s := s, dst := some v }) ∧ ∀ k : Fin 32, inMask c.active k = true → v[k] < 2 ^ 32 ∧
        ∀ n < 32, (v[k]).testBit n =
          table.testBit (((c.va[k]).testBit n).toNat + 2 * ((c.vb[k]).testBit n).toNat + 4 * ((c.vc[k]).testBit n).toNat)
    (Ready s (.bternTableBit7Clear x) x c → writes (.bternTableBit7Clear x) x.sub.toNat) ∧
    (Ready s (.bternTableBit7Set x) x c → writes (.bternTableBit7Set x) (128 + x.sub.toNat))
end

