-- ==== Sys2Proof/Laws/Tables.lean ====
section
/-! SUPPORT. Tables, byte memory and short vectors: what a write changes and what it leaves. -/

namespace Sys2Proof.Machine

/-! ### Tables -/

/-- A table reads a key that was put as it was put, and every other key as before. -/
theorem Tab.find_put {α : Type} (t : Tab α) (n : Nat) (a : α) (m : Nat) :
    Tab.find (Tab.put t n a) m = if n = m then some a else Tab.find t m := by
  induction t with
  | nil => simp [Tab.put, Tab.find]
  | cons p t ih =>
    obtain ⟨k, v⟩ := p
    simp only [Tab.put]
    split
    · simp [Tab.find]
    · split
      · subst_vars; simp only [Tab.find]; split <;> rfl
      · simp only [Tab.find, ih]
        split <;> split <;> simp_all

@[simp] theorem Tab.find_put_self {α : Type} (t : Tab α) (n : Nat) (a : α) : Tab.find (Tab.put t n a) n = some a := by
  simp [Tab.find_put]

theorem Tab.find_put_ne {α : Type} (t : Tab α) {n m : Nat} (a : α) (h : n ≠ m) : Tab.find (Tab.put t n a) m = Tab.find t m := by
  simp [Tab.find_put, h]

/-- Another key is read as before after a drop. -/
theorem Tab.find_drop_ne {α : Type} (t : Tab α) {n m : Nat} (h : n ≠ m) : Tab.find (Tab.drop t n) m = Tab.find t m := by
  induction t with
  | nil => rfl
  | cons p t ih =>
    obtain ⟨k, v⟩ := p
    simp only [Tab.drop]
    split
    · subst_vars; simp [Tab.find, h]
    · simp only [Tab.find, ih]

/-- A rewrite changes its own key only. -/
theorem Tab.find_upd {α : Type} (t : Tab α) (n : Nat) (f : α → α) (m : Nat) :
    Tab.find (Tab.upd t n f) m = if n = m then (Tab.find t m).map f else Tab.find t m := by
  unfold Tab.upd
  split
  · rename_i a h
    rw [Tab.find_put]
    split
    · subst_vars; simp [h]
    · rfl
  · split
    · subst_vars; simp_all
    · rfl

/-- A lower bound may sink. -/
theorem Tab.rising_weaken {α : Type} {t : Tab α} {a b : Option Nat} (h : Tab.rising a t = true)
    (hab : ∀ x, b = some x → ∃ y, a = some y ∧ x ≤ y) : Tab.rising b t = true := by
  cases t with
  | nil => rfl
  | cons p t =>
    obtain ⟨k, v⟩ := p
    simp only [Tab.rising, Bool.and_eq_true] at h ⊢
    refine ⟨?_, h.2⟩
    cases b with
    | none => rfl
    | some x =>
      obtain ⟨y, rfl, hxy⟩ := hab x rfl
      have := h.1
      simp only [decide_eq_true_eq] at this ⊢
      omega

/-- A put keeps the keys rising above a bound that its key is above. -/
theorem Tab.rising_put {α : Type} {t : Tab α} {lo : Option Nat} {n : Nat} (a : α) (h : Tab.rising lo t = true)
    (hn : ∀ x, lo = some x → x < n) : Tab.rising lo (Tab.put t n a) = true := by
  induction t generalizing lo with
  | nil => cases lo <;> simp_all [Tab.put, Tab.rising]
  | cons p t ih =>
    obtain ⟨k, v⟩ := p
    simp only [Tab.rising, Bool.and_eq_true] at h
    simp only [Tab.put]
    split
    · cases lo <;> simp_all [Tab.rising]
    · split
      · subst_vars; cases lo <;> simp_all [Tab.rising]
      · simp only [Tab.rising, Bool.and_eq_true]
        exact ⟨h.1, ih h.2 (by intro x hx; cases hx; omega)⟩

/-- A drop keeps the keys rising. -/
theorem Tab.rising_drop {α : Type} {t : Tab α} {lo : Option Nat} (n : Nat) (h : Tab.rising lo t = true) :
    Tab.rising lo (Tab.drop t n) = true := by
  induction t generalizing lo with
  | nil => rfl
  | cons p t ih =>
    obtain ⟨k, v⟩ := p
    simp only [Tab.rising, Bool.and_eq_true] at h
    simp only [Tab.drop]
    split
    · refine Tab.rising_weaken h.2 ?_
      intro x hx; subst hx
      refine ⟨k, rfl, ?_⟩
      have := h.1
      simp only [decide_eq_true_eq] at this
      omega
    · simp only [Tab.rising, Bool.and_eq_true]; exact ⟨h.1, ih h.2⟩

/-- A rising table does not hold a key at or below its bound. -/
theorem Tab.find_low {α : Type} {t : Tab α} {b n : Nat} (h : Tab.rising (some b) t = true) (hn : n ≤ b) : Tab.find t n = none := by
  induction t generalizing b with
  | nil => rfl
  | cons p t ih =>
    obtain ⟨k, v⟩ := p
    simp only [Tab.rising, Bool.and_eq_true, decide_eq_true_eq] at h
    have : k ≠ n := by omega
    simp only [Tab.find, this, if_false]
    exact ih h.2 (by omega)

/-- In a rising table a dropped key is not found. -/
theorem Tab.find_drop_self {α : Type} {t : Tab α} {lo : Option Nat} {n : Nat} (h : Tab.rising lo t = true) :
    Tab.find (Tab.drop t n) n = none := by
  induction t generalizing lo with
  | nil => rfl
  | cons p t ih =>
    obtain ⟨k, v⟩ := p
    simp only [Tab.rising, Bool.and_eq_true] at h
    simp only [Tab.drop]
    split
    · subst_vars; exact Tab.find_low h.2 (Nat.le_refl _)
    · rename_i hk
      simp only [Tab.find, hk, if_false]; exact ih h.2

/-- A filtered table is rising. -/
theorem Tab.rising_filter {α : Type} {t : Tab α} {lo : Option Nat} (f : Nat × α → Bool) (h : Tab.rising lo t = true) :
    Tab.rising lo (t.filter f) = true := by
  induction t generalizing lo with
  | nil => rfl
  | cons p t ih =>
    obtain ⟨k, v⟩ := p
    simp only [Tab.rising, Bool.and_eq_true] at h
    simp only [List.filter]
    split
    · simp only [Tab.rising, Bool.and_eq_true]; exact ⟨h.1, ih h.2⟩
    · refine ih (Tab.rising_weaken h.2 ?_)
      intro x hx; subst hx
      refine ⟨k, rfl, ?_⟩
      have := h.1
      simp only [decide_eq_true_eq] at this
      omega

/-! ### Byte memory -/

/-- Every entry of a put is the new one or an old one. -/
theorem Tab.all_put {α : Type} {t : Tab α} {n : Nat} {a : α} {f : Nat × α → Bool} (h : t.all f = true) (ha : f (n, a) = true) :
    (Tab.put t n a).all f = true := by
  induction t with
  | nil => simp [Tab.put, ha]
  | cons p t ih =>
    obtain ⟨k, v⟩ := p
    simp only [List.all_cons, Bool.and_eq_true] at h
    simp only [Tab.put]
    split
    · simp [ha, h]
    · split
      · simp [ha, h.2]
      · simp [h.1, ih h.2]

theorem Tab.all_drop {α : Type} {t : Tab α} {n : Nat} {f : Nat × α → Bool} (h : t.all f = true) : (Tab.drop t n).all f = true := by
  induction t with
  | nil => rfl
  | cons p t ih =>
    obtain ⟨k, v⟩ := p
    simp only [List.all_cons, Bool.and_eq_true] at h
    simp only [Tab.drop]
    split
    · exact h.2
    · simp [h.1, ih h.2]

/-- A byte write keeps the canonical form. -/
theorem Mem.wf_set {m : Mem} (a : Nat) (b : Byte) (h : Mem.wf m = true) : Mem.wf (Mem.set m a b) = true := by
  simp only [Mem.wf, Bool.and_eq_true] at h ⊢
  unfold Mem.set
  split
  · exact ⟨Tab.rising_drop a h.1, Tab.all_drop h.2⟩
  · rename_i hb
    exact ⟨Tab.rising_put b h.1 (by intro x hx; cases hx), Tab.all_put h.2 (by simp [hb])⟩

/-- A byte that was written is read back, in a memory of canonical form. -/
theorem Mem.get_set_self {m : Mem} (a : Nat) (b : Byte) (h : Mem.wf m = true) : Mem.get (Mem.set m a b) a = b := by
  simp only [Mem.wf, Bool.and_eq_true] at h
  unfold Mem.get Mem.set Tab.getD
  split
  · subst_vars; rw [Tab.find_drop_self h.1]; rfl
  · simp

/-- Every other byte reads as before. -/
theorem Mem.get_set_ne (m : Mem) {a c : Nat} (b : Byte) (h : a ≠ c) : Mem.get (Mem.set m a b) c = Mem.get m c := by
  unfold Mem.get Mem.set Tab.getD
  split
  · rw [Tab.find_drop_ne _ h]
  · rw [Tab.find_put_ne _ _ h]

/-- A little-endian store keeps the canonical form. -/
theorem Mem.wf_store {m : Mem} (a v n : Nat) (h : Mem.wf m = true) : Mem.wf (Mem.store m a v n) = true := by
  induction n generalizing m a v with
  | zero => exact h
  | succ n ih => exact ih _ _ (Mem.wf_set a _ h)

/-- A write of a list of bytes keeps the canonical form. -/
theorem Mem.wf_write {m : Mem} (a : Nat) (bs : List Byte) (h : Mem.wf m = true) : Mem.wf (Mem.write m a bs) = true := by
  induction bs generalizing m a with
  | nil => exact h
  | cons b bs ih => exact ih _ (Mem.wf_set a b h)

/-- Clearing a range keeps the canonical form. -/
theorem Mem.wf_clear {m : Mem} (a n : Nat) (h : Mem.wf m = true) : Mem.wf (Mem.clear m a n) = true := by
  simp only [Mem.wf, Bool.and_eq_true] at h ⊢
  refine ⟨Tab.rising_filter _ h.1, ?_⟩
  rw [List.all_eq_true] at *
  intro x hx
  exact h.2 x ((List.mem_filter.mp hx).1)

/-- Putting a part of another memory in place keeps the canonical form. -/
theorem Mem.wf_paste {m : Mem} (a n : Nat) (src : Mem) (h : Mem.wf m = true) : Mem.wf (Mem.paste m a n src) = true := by
  unfold Mem.paste
  generalize src.filter (fun p => decide (p.1 < n)) = l
  have h0 := Mem.wf_clear a n h
  revert h0
  generalize Mem.clear m a n = k
  induction l generalizing k with
  | nil => exact id
  | cons p l ih => exact fun h0 => ih _ (Mem.wf_set _ _ h0)

/-- Keys moved down stay rising. -/
theorem Tab.rising_sub {α : Type} {t : Tab α} (a : Nat) {lo hi : Option Nat} (h : Tab.rising hi t = true)
    (hge : ∀ p ∈ t, a ≤ p.1) (hlo : ∀ x, lo = some x → ∃ y, hi = some y ∧ x + a = y) :
    Tab.rising lo (t.map fun p => (p.1 - a, p.2)) = true := by
  induction t generalizing lo hi with
  | nil => rfl
  | cons p t ih =>
    obtain ⟨k, v⟩ := p
    simp only [Tab.rising, Bool.and_eq_true, List.map] at h ⊢
    have hk : a ≤ k := hge (k, v) (List.mem_cons_self ..)
    refine ⟨?_, ih (hi := some k) h.2 (fun q hq => hge q (List.mem_cons_of_mem _ hq)) ?_⟩
    · cases lo with
      | none => rfl
      | some x =>
        obtain ⟨y, rfl, hxy⟩ := hlo x rfl
        have := h.1
        simp only [decide_eq_true_eq] at this ⊢
        omega
    · intro x hx; cases hx; exact ⟨k, rfl, by omega⟩

/-- A part of a memory is canonical. -/
theorem Mem.wf_slice {m : Mem} (a n : Nat) (h : Mem.wf m = true) : Mem.wf (Mem.slice m a n) = true := by
  simp only [Mem.wf, Bool.and_eq_true] at h ⊢
  unfold Mem.slice
  refine ⟨Tab.rising_sub a (hi := none) (Tab.rising_filter _ h.1) ?_ (by intro x hx; cases hx), ?_⟩
  · intro p hp
    have := (List.mem_filter.mp hp).2
    simp only [decide_eq_true_eq] at this
    exact this.1
  · rw [List.all_map]
    rw [List.all_eq_true] at *
    intro x hx
    exact h.2 x ((List.mem_filter.mp hx).1)

/-- A little-endian value that was stored is read back, modulo its width. -/
theorem Mem.get_store_out (m : Mem) (a v n c : Nat) (h : c < a ∨ a + n ≤ c) : Mem.get (Mem.store m a v n) c = Mem.get m c := by
  induction n generalizing m a v with
  | zero => rfl
  | succ n ih =>
    simp only [Mem.store]
    rw [ih _ _ _ (by omega), Mem.get_set_ne _ _ (by omega)]

/-! ### Lanes -/

/-- The value of a lane. -/
theorem getElem_lanesFrom {α : Type} (f : Fin 32 → α) (k : Nat) (h : k < 32) : (lanesFrom f)[k]'h = f ⟨k, h⟩ := by
  simp [lanesFrom, laneList]

/-- As `getElem_lanesFrom`, for a lane number. -/
theorem fin_lanesFrom {α : Type} (f : Fin 32 → α) (k : Fin 32) : (lanesFrom f)[k] = f k := by
  simp [lanesFrom, laneList]

end Sys2Proof.Machine
end

