-- ==== Sys2Proof/Laws/Issue.lean ====
section
/-! SUPPORT. What an issue can do: the checks give back the context they were given, and a meaning that answers a completed
instruction ends in its completion. -/

namespace Sys2Proof.Machine

/-- The checks let through the context they were given. -/
theorem Ctx.checks_go {c d : Ctx} {s : State} {r : Reads} (h : c.checks s r = .go d) : d = c := by
  unfold Ctx.checks at h
  simp only [] at h
  repeat' (split at h)
  all_goals (cases h <;> rfl)

/-- An issue that executes is that of the issuer, with what it reads. -/
theorem prologue_go {s : State} {i : Instr} {sp : OpSpec} {x : Ops} {c : Ctx} (h : prologue s i sp x = .go c) :
    ∃ w g core chip lanes, s.issuing = some (w, g, core, chip, lanes) ∧ c = (ctxOf s i sp x w g core chip lanes).1 := by
  unfold prologue at h
  split at h
  · cases h
  · exact ⟨_, _, _, _, _, ‹_›, Ctx.checks_go h⟩

/-- A ready instruction has the fields that it was read from. -/
theorem ready_x {s : State} {i : Instr} {x : Ops} {c : Ctx} (h : Ready s i x c) : c.x = x := by
  obtain ⟨_, _, h⟩ := h
  obtain ⟨_, _, _, _, _, _, rfl⟩ := prologue_go h
  rfl

/-- A ready instruction's context names the instruction. -/
theorem ready_i {s : State} {i : Instr} {x : Ops} {c : Ctx} (h : Ready s i x c) : c.i = i := by
  obtain ⟨_, _, h⟩ := h
  obtain ⟨_, _, _, _, _, _, rfl⟩ := prologue_go h
  rfl

/-- A ready instruction's meaning decides its outcome. -/
theorem issue_ready {s : State} {i : Instr} {x : Ops} {c : Ctx} (body : Ctx → State → Res) (h : Ready s i x c) :
    issue s i x body =
      match body c s with
      | .ok o => .next (c.retire s o)
      | .trap t => .next (c.fault s t)
      | .wait k addr expect => .next (c.hold s k addr expect)
      | .whole t => .next t := by
  obtain ⟨sp, h1, h2⟩ := h
  simp only [issue, issueWith, h1, h2] <;> rfl

/-- The mask of no lane. -/
theorem maskOf_false : maskOf (fun _ => false) = 0 := by decide

/-- A mask is empty when no lane passes its test. -/
theorem maskOf_none {f : Fin 32 → Bool} (h : ∀ k, f k = false) : maskOf f = 0 := by
  rw [show f = fun _ => false from funext h, maskOf_false]

/-- A mask made of a test holds the lanes that pass it. -/
theorem inMask_maskOf (f : Fin 32 → Bool) (k : Fin 32) : inMask (maskOf f) k = f k := by
  have gen : ∀ (l : List (Fin 32)) (m : LaneMask),
      inMask (l.foldl (fun m i => if f i then m ||| (1#32 <<< i.val) else m) m) k = (inMask m k || l.any fun i => decide (i = k) && f i) := by
    intro l
    induction l with
    | nil => simp
    | cons i l ih =>
      intro m
      rw [List.foldl_cons, ih, List.any_cons]
      by_cases hf : f i = true
      · by_cases hik : i = k
        · subst hik; simp [hf, inMask]
        · have : i.val ≠ k.val := fun e => hik (Fin.ext e)
          have h2 : (1#32 <<< i.val).getLsbD k.val = false := by
            simp only [BitVec.getLsbD_shiftLeft, BitVec.getLsbD_one]
            by_cases hlt : k.val < i.val
            · simp [hlt]
            · have : k.val - i.val ≠ 0 := by omega
              simp [this]
          simp only [hf, if_true, inMask, BitVec.getLsbD_or, h2, Bool.or_false, hik, decide_false, Bool.false_and, Bool.false_or]
      · simp [hf]
  unfold maskOf
  rw [gen]
  have hz : inMask (0 : LaneMask) k = false := by simp [inMask]
  rw [hz, Bool.false_or]
  cases hf : f k with
  | true => exact List.any_eq_true.mpr ⟨k, List.mem_finRange k, by simp [hf]⟩
  | false =>
    refine List.any_eq_false.mpr fun i _ => ?_
    by_cases hik : i = k
    · subst hik; simp [hf]
    · simp [hik]

/-- A test whose mask is empty fails in every lane. -/
theorem of_maskOf_zero {f : Fin 32 → Bool} (h : maskOf f = 0) (k : Fin 32) : f k = false := by
  rw [← inMask_maskOf f k, h]
  simp [inMask]

/-- Lanes that pass no test in a mask. -/
theorem maskOf_in_none {m : LaneMask} {f : Fin 32 → Bool} (h : ∀ k : Fin 32, inMask m k = true → f k = false) :
    maskOf (fun k => inMask m k && f k) = 0 := by
  apply maskOf_none
  intro k
  cases hk : inMask m k with
  | false => rfl
  | true => rw [Bool.true_and]; exact h k hk

/-- A ready instruction's issuer is the machine's. -/
theorem ready_issuer {s : State} {i : Instr} {x : Ops} {c : Ctx} (h : Ready s i x c) : s.issuer = some c.w := by
  obtain ⟨_, _, h⟩ := h
  obtain ⟨w, g, core, chip, lanes, h3, rfl⟩ := prologue_go h
  unfold State.issuing at h3
  split at h3
  · cases h3
  · split at h3 <;> simp_all [ctxOf]

/-- A meaning that ends in a precise fault. -/
theorem issue_trap {s : State} {i : Instr} {x : Ops} {c : Ctx} {body : Ctx → State → Res} {t : Trouble} (h : Ready s i x c)
    (hb : body c s = .trap t) : issue s i x body = .next (c.fault s t) := by rw [issue_ready body h, hb]

/-- A meaning that ends in a wait. -/
theorem issue_wait {s : State} {i : Instr} {x : Ops} {c : Ctx} {body : Ctx → State → Res} {k : WaitKind} {a : DWord} {e : Word}
    (h : Ready s i x c) (hb : body c s = .wait k a e) : issue s i x body = .next (c.hold s k a e) := by rw [issue_ready body h, hb]

/-- A meaning that makes its whole next state. -/
theorem issue_whole {s : State} {i : Instr} {x : Ops} {c : Ctx} {body : Ctx → State → Res} {t : State} (h : Ready s i x c)
    (hb : body c s = .whole t) : issue s i x body = .next t := by rw [issue_ready body h, hb]

/-- Without flags nothing traps. -/
theorem trapLanes_none (g : Gang) (m : LaneMask) : trapLanes g m (Lanes.all 0) = 0 := by
  apply maskOf_none
  intro k
  simp

/-- A meaning that answers a completed instruction ends in its completion, where the pool has room and no flag traps. -/
theorem issue_ok {s : State} {i : Instr} {x : Ops} {c : Ctx} {body : Ctx → State → Res} {o : Out} (h : Ready s i x c)
    (hb : body c s = .ok o) (hr : o.dst.isSome = true → c.room s = true)
    (ht : trapLanes c.g c.active o.flags = 0 ∨ o.late.isSome = true) : issue s i x body = .next (c.finish o) := by
  rw [issue_ready body h, hb]
  simp only [Ctx.retire]
  rcases ht with ht | ht
  · cases hd : o.dst <;> simp_all
  · cases hd : o.dst <;> cases hl : o.late <;> simp_all

/-- As `issue_ok`, for a value. -/
theorem issue_value {s : State} {i : Instr} {x : Ops} {c : Ctx} {body : Ctx → State → Res} {u : State} {f : Fin 32 → Nat} (h : Ready s i x c)
    (hb : body c s = c.value u f) (hr : c.room s = true) :
    issue s i x body = .next (c.finish { s := u, dst := some (c.lanesOnly f) }) :=
  issue_ok h hb (fun _ => hr) (.inl (trapLanes_none _ _))

/-- As `issue_ok`, without a destination. -/
theorem issue_does {s : State} {i : Instr} {x : Ops} {c : Ctx} {body : Ctx → State → Res} {u : State} (h : Ready s i x c)
    (hb : body c s = .ok { s := u }) : issue s i x body = .next (c.finish { s := u }) :=
  issue_ok h hb (fun e => by cases e) (.inl (trapLanes_none _ _))

/-- No lane traps where none may (R116). -/
theorem trapLanes_off {c : Ctx} (h : c.trapsOff) (f : Lanes FpFlags) : trapLanes c.g c.active f = 0 := by
  apply maskOf_none
  intro k
  by_cases hk : inMask c.active k = true
  · have e := h k hk
    simp only [hk, e]
    simp
  · simp [hk]

/-- As `issue_ok`, for a float result. -/
theorem issue_floats {s : State} {i : Instr} {x : Ops} {c : Ctx} {body : Ctx → State → Res} {f : Fin 32 → Rounded} (h : Ready s i x c)
    (hb : body c s = c.floats s f) (hr : c.room s = true) (ht : c.trapsOff) :
    issue s i x body = .next (c.finish { s := s, dst := some (c.lanesOnly fun k => (f k).code),
                                         flags := lanesFrom fun k => if inMask c.active k then (f k).flags else 0 }) := by
  have e1 : (lanesFrom fun k => if inMask c.active k then f k else (⟨0, 0⟩ : Rounded)).map Rounded.code = c.lanesOnly fun k => (f k).code := by
    apply Vector.ext
    intro k hk
    simp only [Ctx.lanesOnly, Vector.getElem_map, getElem_lanesFrom]
    split <;> rfl
  have e2 : (lanesFrom fun k => if inMask c.active k then f k else (⟨0, 0⟩ : Rounded)).map Rounded.flags =
      lanesFrom fun k => if inMask c.active k then (f k).flags else 0 := by
    apply Vector.ext
    intro k hk
    simp only [Vector.getElem_map, getElem_lanesFrom]
    split <;> rfl
  rw [← e1, ← e2]
  exact issue_ok h hb (fun _ => hr) (.inl (trapLanes_off ht _))

end Sys2Proof.Machine
end

