-- ==== Sys2Proof/Laws/Gang.lean ====
section
/-! SUPPORT. What the named operations of a gang keep: the rest of the gang, and each register that is not the one they name. -/

namespace Sys2Proof.Machine

/-! ### The rest of the gang -/

theorem Gang.rest_writeV (g : Gang) (k : Nat) (m : LaneMask) (v : Lanes Nat) (n : Nat) : (g.writeV k m v n).rest = g.rest := by
  induction n generalizing g k v with
  | zero => rfl
  | succ n ih => unfold Gang.writeV; exact (ih ..).trans rfl

theorem Gang.rest_writeO (g : Gang) (k : Nat) (m : LaneMask) (v : Lanes Nat) (n : Nat) : (g.writeO k m v n).rest = g.rest := by
  induction n generalizing g k v with
  | zero => rfl
  | succ n ih => unfold Gang.writeO; exact (ih ..).trans rfl

theorem Gang.rest_mapName (g : Gang) (k n : Nat) : (g.mapName k n).rest = g.rest := by
  induction n generalizing g k with
  | zero => rfl
  | succ n ih =>
    unfold Gang.mapName
    rw [ih]
    split <;> rfl

theorem Gang.rest_release (g : Gang) (k : Nat) (m : LaneMask) (n : Nat) : (g.release k m n).rest = g.rest := by
  induction n generalizing g k with
  | zero => rfl
  | succ n ih =>
    unfold Gang.release
    rw [ih]
    split
    · rfl
    · simp only []
      split <;> rfl

theorem Gang.rest_writeName (g : Gang) (d : DstName) (m : LaneMask) (v : Lanes Nat) : (g.writeName d m v).rest = g.rest := by
  cases d with
  | vec k n => exact Gang.rest_writeV g k m v n
  | oper k n => exact Gang.rest_writeO g k m v n
  | uni k => rfl
  | mom k => rfl
  | sink => rfl

theorem Gang.rest_lastRead (g : Gang) (u : Use) (x : Src) (m : LaneMask) : (g.lastRead u x m).rest = g.rest := by
  unfold Gang.lastRead
  split
  · split
    · exact Gang.rest_release ..
    · rfl
  · rfl

theorem Gang.rest_countWindow (g : Gang) (m : LaneMask) : (g.countWindow m).rest = g.rest := by unfold Gang.rest Gang.countWindow; rfl
theorem Gang.rest_supersede (g : Gang) (d : DstName) (m : LaneMask) : (g.supersede d m).rest = g.rest := by unfold Gang.rest Gang.supersede; rfl
theorem Gang.rest_shiftLast (g : Gang) (m : LaneMask) (v : Lanes Nat) : (g.shiftLast m v).rest = g.rest := by unfold Gang.rest Gang.shiftLast; rfl
theorem Gang.rest_writeP (g : Gang) (k : Nat) (m : LaneMask) (v : Lanes Bool) : (g.writeP k m v).rest = g.rest := by unfold Gang.rest Gang.writeP; rfl
theorem Gang.rest_rebundle (g : Gang) (m : LaneMask) (bs : List Bundle) : (g.rebundle m bs).rest = g.rest := by unfold Gang.rest Gang.rebundle; rfl

theorem Gang.rest_advance (g : Gang) (lanes active : LaneMask) (next : DWord) (jump : Option (Lanes DWord)) :
    (g.advance lanes active next jump).rest = g.rest := by
  unfold Gang.advance
  simp only []
  split
  · unfold Gang.endReplay Gang.rebundle Gang.rest; rfl
  · unfold Gang.rebundle Gang.rest; rfl

theorem Ctx.rest_releases (c : Ctx) (g : Gang) : (c.releases g).rest = g.rest := by
  unfold Ctx.releases
  split
  · rfl
  · rw [Gang.rest_lastRead, Gang.rest_lastRead, Gang.rest_lastRead]

theorem Ctx.rest_writeNow (c : Ctx) (g : Gang) (v : Lanes Nat) : (c.writeNow g v).rest = g.rest := by
  unfold Ctx.writeNow
  split
  · exact Gang.rest_writeP ..
  · simp only []
    split
    · rw [Gang.rest_shiftLast, Gang.rest_writeName, Gang.rest_supersede]
    · rw [Gang.rest_writeName, Gang.rest_supersede]

theorem Ctx.rest_writeLate (c : Ctx) (g : Gang) (v : Lanes Nat) (flags : Lanes FpFlags) (kind : PendKind) (missing : LaneMask) :
    (c.writeLate g v flags kind missing).rest = g.rest := by
  unfold Ctx.writeLate
  simp only []
  split
  · exact (show _ = ((g.supersede c.destName c.active).mapName _ _).rest from rfl).trans (Gang.rest_mapName ..)
  · rfl

theorem Ctx.rest_raise (c : Ctx) (g : Gang) (o : Out) : (c.raise g o).rest = g.rest := by unfold Gang.rest Ctx.raise; rfl

/-- The gang with the destination of a completed instruction written. -/
def Ctx.written (c : Ctx) (g : Gang) (o : Out) : Gang :=
  match o.dst.map (fun v => v.map (· % 2 ^ c.destBits)), o.late with
  | some v, none => c.writeNow g v
  | some v, some (kind, missing) => c.writeLate g v o.flags kind missing
  | none, _ => g

/-- The gang with the destination written and no register kept for it any more. -/
def Ctx.settled (c : Ctx) (g : Gang) (o : Out) : Gang := if o.dst.isSome then (c.written g o).ungrant c.destName else c.written g o

/-- What an instruction that completes makes of its gang, step by step. -/
theorem Ctx.retireGang_eq (c : Ctx) (g : Gang) (o : Out) : c.retireGang g o =
    let a := c.settled (c.releases (if (c.g.replaying c.lanes).isSome then g else g.countWindow c.lanes)) o
    (if o.late.isSome then a else c.raise a o).advance c.lanes c.active c.next o.jump := rfl

/-- Only what is kept for a stalled instruction changes. -/
theorem Gang.ungrant_eq (g : Gang) (d : DstName) : g.ungrant d = { g with granted := (g.ungrant d).granted } := by cases d <;> rfl

/-- After a write of the destination only what is kept for it changes. -/
theorem Ctx.settled_eq (c : Ctx) (g : Gang) (o : Out) : c.settled g o = { c.written g o with granted := (c.settled g o).granted } := by
  unfold Ctx.settled
  split
  · exact Gang.ungrant_eq ..
  · rfl

theorem Ctx.rest_written (c : Ctx) (g : Gang) (o : Out) : (c.written g o).rest = g.rest := by
  unfold Ctx.written
  split
  · exact Ctx.rest_writeNow ..
  · exact Ctx.rest_writeLate ..
  · rfl

theorem Ctx.rest_settled (c : Ctx) (g : Gang) (o : Out) : (c.settled g o).rest = g.rest := by
  rw [Ctx.settled_eq]
  exact (show _ = (c.written g o).rest from rfl).trans (Ctx.rest_written ..)

/-- What an instruction that completes makes of its gang keeps the rest of it. -/
theorem Ctx.rest_retireGang (c : Ctx) (g : Gang) (o : Out) : (c.retireGang g o).rest = g.rest := by
  rw [Ctx.retireGang_eq]
  simp only []
  rw [Gang.rest_advance]
  have h : (if (c.g.replaying c.lanes).isSome = true then g else g.countWindow c.lanes).rest = g.rest := by
    split
    · rfl
    · exact Gang.rest_countWindow ..
  split
  · rw [Ctx.rest_settled, Ctx.rest_releases, h]
  · rw [Ctx.rest_raise, Ctx.rest_settled, Ctx.rest_releases, h]

/-! ### Vector registers -/

theorem Gang.find_writeV (g : Gang) (k : Nat) (m : LaneMask) (v : Lanes Nat) (n j : Nat) (h : j < k ∨ k + n ≤ j) :
    Tab.find (g.writeV k m v n).vmap j = Tab.find g.vmap j := by
  induction n generalizing g k v with
  | zero => rfl
  | succ n ih =>
    unfold Gang.writeV
    rw [ih _ _ _ (by omega)]
    exact Tab.find_put_ne _ _ (by omega)

theorem Gang.find_mapName (g : Gang) (k n j : Nat) (h : j < k ∨ k + n ≤ j) : Tab.find (g.mapName k n).vmap j = Tab.find g.vmap j := by
  induction n generalizing g k with
  | zero => rfl
  | succ n ih =>
    unfold Gang.mapName
    rw [ih _ _ (by omega)]
    split
    · exact Tab.find_put_ne _ _ (by omega)
    · rfl

theorem Gang.find_release (g : Gang) (k : Nat) (m : LaneMask) (n j : Nat) (h : j < k ∨ k + n ≤ j) :
    Tab.find (g.release k m n).vmap j = Tab.find g.vmap j := by
  induction n generalizing g k with
  | zero => rfl
  | succ n ih =>
    unfold Gang.release
    rw [ih _ _ (by omega)]
    split
    · rfl
    · simp only []
      split
      · exact Tab.find_drop_ne _ (by omega)
      · exact Tab.find_put_ne _ _ (by omega)

theorem Gang.vmap_writeO (g : Gang) (k : Nat) (m : LaneMask) (v : Lanes Nat) (n : Nat) : (g.writeO k m v n).vmap = g.vmap := by
  induction n generalizing g k v with
  | zero => rfl
  | succ n ih => unfold Gang.writeO; exact (ih ..).trans rfl

theorem Gang.find_writeName (g : Gang) (d : DstName) (m : LaneMask) (v : Lanes Nat) (j : Nat)
    (h : ∀ k n, d = .vec k n → j < k ∨ k + n ≤ j) : Tab.find (g.writeName d m v).vmap j = Tab.find g.vmap j := by
  cases d with
  | vec k n => exact Gang.find_writeV g k m v n j (h k n rfl)
  | oper k n => exact congrArg (Tab.find · j) (Gang.vmap_writeO g k m v n)
  | uni k => rfl
  | mom k => rfl
  | sink => rfl

/-! ### What changes one table only -/

theorem Gang.writeV_eq (g : Gang) (k : Nat) (m : LaneMask) (v : Lanes Nat) (n : Nat) :
    g.writeV k m v n = { g with vmap := (g.writeV k m v n).vmap } := by
  induction n generalizing g k v with
  | zero => rfl
  | succ n ih => unfold Gang.writeV; exact (ih ..)

theorem Gang.mapName_eq (g : Gang) (k n : Nat) : g.mapName k n = { g with vmap := (g.mapName k n).vmap } := by
  induction n generalizing g k with
  | zero => rfl
  | succ n ih =>
    unfold Gang.mapName
    split
    · exact ih ..
    · exact ih ..

theorem Gang.release_eq (g : Gang) (k : Nat) (m : LaneMask) (n : Nat) : g.release k m n = { g with vmap := (g.release k m n).vmap } := by
  induction n generalizing g k with
  | zero => rfl
  | succ n ih =>
    unfold Gang.release
    split
    · exact ih ..
    · simp only []
      split
      · exact ih ..
      · exact ih ..

theorem Gang.writeO_eq (g : Gang) (k : Nat) (m : LaneMask) (v : Lanes Nat) (n : Nat) :
    g.writeO k m v n = { g with ofile := (g.writeO k m v n).ofile } := by
  induction n generalizing g k v with
  | zero => rfl
  | succ n ih => unfold Gang.writeO; exact (ih ..)

theorem Gang.lastRead_eq (g : Gang) (u : Use) (x : Src) (m : LaneMask) : g.lastRead u x m = { g with vmap := (g.lastRead u x m).vmap } := by
  unfold Gang.lastRead
  split
  · split
    · exact Gang.release_eq ..
    · rfl
  · rfl

theorem Ctx.releases_eq (c : Ctx) (g : Gang) : c.releases g = { g with vmap := (c.releases g).vmap } := by
  unfold Ctx.releases
  split
  · rfl
  · rw [Gang.lastRead_eq (Gang.lastRead _ _ _ _), Gang.lastRead_eq (Gang.lastRead _ _ _ _), Gang.lastRead_eq g]

end Sys2Proof.Machine
end

