-- ==== Sys2Proof/Laws/State.lean ====
section
/-! SUPPORT. What each named update of the state leaves as it was, and what it makes of what it changes. -/

namespace Sys2Proof.Machine

/-! ### Fields that an update does not change -/

@[simp] theorem State.updChip_devs (s : State) (k : Nat) (f : Chip → Chip) : (s.updChip k f).devs = s.devs := rfl
@[simp] theorem State.updChip_guests (s : State) (k : Nat) (f : Chip → Chip) : (s.updChip k f).guests = s.guests := rfl
@[simp] theorem State.updChip_hostMem (s : State) (k : Nat) (f : Chip → Chip) : (s.updChip k f).hostMem = s.hostMem := rfl
@[simp] theorem State.updChip_packets (s : State) (k : Nat) (f : Chip → Chip) : (s.updChip k f).packets = s.packets := rfl
@[simp] theorem State.updChip_irqs (s : State) (k : Nat) (f : Chip → Chip) : (s.updChip k f).irqs = s.irqs := rfl
@[simp] theorem State.updChip_issuer (s : State) (k : Nat) (f : Chip → Chip) : (s.updChip k f).issuer = s.issuer := rfl
@[simp] theorem State.updChip_due (s : State) (k : Nat) (f : Chip → Chip) : (s.updChip k f).due = s.due := rfl
@[simp] theorem State.updChip_agenda (s : State) (k : Nat) (f : Chip → Chip) : (s.updChip k f).agenda = s.agenda := rfl
@[simp] theorem State.updChip_fresh (s : State) (k : Nat) (f : Chip → Chip) : (s.updChip k f).fresh = s.fresh := rfl

@[simp] theorem State.updDev_guests (s : State) (k : Nat) (f : Device → Device) : (s.updDev k f).guests = s.guests := rfl
@[simp] theorem State.updDev_chips (s : State) (k : Nat) (f : Device → Device) : (s.updDev k f).chips = s.chips := rfl
@[simp] theorem State.updDev_hostMem (s : State) (k : Nat) (f : Device → Device) : (s.updDev k f).hostMem = s.hostMem := rfl
@[simp] theorem State.updDev_packets (s : State) (k : Nat) (f : Device → Device) : (s.updDev k f).packets = s.packets := rfl
@[simp] theorem State.updDev_irqs (s : State) (k : Nat) (f : Device → Device) : (s.updDev k f).irqs = s.irqs := rfl
@[simp] theorem State.updDev_issuer (s : State) (k : Nat) (f : Device → Device) : (s.updDev k f).issuer = s.issuer := rfl
@[simp] theorem State.updDev_due (s : State) (k : Nat) (f : Device → Device) : (s.updDev k f).due = s.due := rfl
@[simp] theorem State.updDev_agenda (s : State) (k : Nat) (f : Device → Device) : (s.updDev k f).agenda = s.agenda := rfl
@[simp] theorem State.updDev_fresh (s : State) (k : Nat) (f : Device → Device) : (s.updDev k f).fresh = s.fresh := rfl

@[simp] theorem State.updCore_guests (s : State) (k : CoreRef) (f : Core → Core) : (s.updCore k f).guests = s.guests := rfl
@[simp] theorem State.updCore_chips (s : State) (k : CoreRef) (f : Core → Core) : (s.updCore k f).chips = s.chips := rfl
@[simp] theorem State.updCore_hostMem (s : State) (k : CoreRef) (f : Core → Core) : (s.updCore k f).hostMem = s.hostMem := rfl
@[simp] theorem State.updCore_packets (s : State) (k : CoreRef) (f : Core → Core) : (s.updCore k f).packets = s.packets := rfl
@[simp] theorem State.updCore_irqs (s : State) (k : CoreRef) (f : Core → Core) : (s.updCore k f).irqs = s.irqs := rfl
@[simp] theorem State.updCore_issuer (s : State) (k : CoreRef) (f : Core → Core) : (s.updCore k f).issuer = s.issuer := rfl
@[simp] theorem State.updCore_due (s : State) (k : CoreRef) (f : Core → Core) : (s.updCore k f).due = s.due := rfl
@[simp] theorem State.updCore_agenda (s : State) (k : CoreRef) (f : Core → Core) : (s.updCore k f).agenda = s.agenda := rfl
@[simp] theorem State.updCore_fresh (s : State) (k : CoreRef) (f : Core → Core) : (s.updCore k f).fresh = s.fresh := rfl

@[simp] theorem State.updTask_devs (s : State) (k t : Nat) (f : Task → Task) : (s.updTask k t f).devs = s.devs := rfl
@[simp] theorem State.updTask_guests (s : State) (k t : Nat) (f : Task → Task) : (s.updTask k t f).guests = s.guests := rfl
@[simp] theorem State.updTask_hostMem (s : State) (k t : Nat) (f : Task → Task) : (s.updTask k t f).hostMem = s.hostMem := rfl
@[simp] theorem State.updTask_packets (s : State) (k t : Nat) (f : Task → Task) : (s.updTask k t f).packets = s.packets := rfl
@[simp] theorem State.updTask_irqs (s : State) (k t : Nat) (f : Task → Task) : (s.updTask k t f).irqs = s.irqs := rfl
@[simp] theorem State.updTask_issuer (s : State) (k t : Nat) (f : Task → Task) : (s.updTask k t f).issuer = s.issuer := rfl
@[simp] theorem State.updTask_due (s : State) (k t : Nat) (f : Task → Task) : (s.updTask k t f).due = s.due := rfl
@[simp] theorem State.updTask_agenda (s : State) (k t : Nat) (f : Task → Task) : (s.updTask k t f).agenda = s.agenda := rfl
@[simp] theorem State.updTask_fresh (s : State) (k t : Nat) (f : Task → Task) : (s.updTask k t f).fresh = s.fresh := rfl

@[simp] theorem State.updGang_devs (s : State) (g : GangRef) (f : Gang → Gang) : (s.updGang g f).devs = s.devs := rfl
@[simp] theorem State.updGang_guests (s : State) (g : GangRef) (f : Gang → Gang) : (s.updGang g f).guests = s.guests := rfl
@[simp] theorem State.updGang_hostMem (s : State) (g : GangRef) (f : Gang → Gang) : (s.updGang g f).hostMem = s.hostMem := rfl
@[simp] theorem State.updGang_packets (s : State) (g : GangRef) (f : Gang → Gang) : (s.updGang g f).packets = s.packets := rfl
@[simp] theorem State.updGang_irqs (s : State) (g : GangRef) (f : Gang → Gang) : (s.updGang g f).irqs = s.irqs := rfl
@[simp] theorem State.updGang_issuer (s : State) (g : GangRef) (f : Gang → Gang) : (s.updGang g f).issuer = s.issuer := rfl
@[simp] theorem State.updGang_due (s : State) (g : GangRef) (f : Gang → Gang) : (s.updGang g f).due = s.due := rfl
@[simp] theorem State.updGang_agenda (s : State) (g : GangRef) (f : Gang → Gang) : (s.updGang g f).agenda = s.agenda := rfl
@[simp] theorem State.updGang_fresh (s : State) (g : GangRef) (f : Gang → Gang) : (s.updGang g f).fresh = s.fresh := rfl

@[simp] theorem State.dev?_updChip (s : State) (k : Nat) (f : Chip → Chip) (d : Nat) : (s.updChip k f).dev? d = s.dev? d := rfl
@[simp] theorem State.core_updChip (s : State) (k : Nat) (f : Chip → Chip) (c : CoreRef) : (s.updChip k f).core c = s.core c := rfl
@[simp] theorem State.chip?_updDev (s : State) (k : Nat) (f : Device → Device) (n : Nat) : (s.updDev k f).chip? n = s.chip? n := rfl
@[simp] theorem State.task?_updDev (s : State) (k : Nat) (f : Device → Device) (n m : Nat) : (s.updDev k f).task? n m = s.task? n m := rfl
@[simp] theorem State.gang?_updDev (s : State) (k : Nat) (f : Device → Device) (g : GangRef) : (s.updDev k f).gang? g = s.gang? g := rfl
@[simp] theorem State.chip?_updCore (s : State) (k : CoreRef) (f : Core → Core) (n : Nat) : (s.updCore k f).chip? n = s.chip? n := rfl
@[simp] theorem State.task?_updCore (s : State) (k : CoreRef) (f : Core → Core) (n m : Nat) : (s.updCore k f).task? n m = s.task? n m := rfl
@[simp] theorem State.gang?_updCore (s : State) (k : CoreRef) (f : Core → Core) (g : GangRef) : (s.updCore k f).gang? g = s.gang? g := rfl
@[simp] theorem State.dev?_updTask (s : State) (k t : Nat) (f : Task → Task) (d : Nat) : (s.updTask k t f).dev? d = s.dev? d := rfl
@[simp] theorem State.core_updTask (s : State) (k t : Nat) (f : Task → Task) (c : CoreRef) : (s.updTask k t f).core c = s.core c := rfl
@[simp] theorem State.dev?_updGang (s : State) (g : GangRef) (f : Gang → Gang) (d : Nat) : (s.updGang g f).dev? d = s.dev? d := rfl
@[simp] theorem State.core_updGang (s : State) (g : GangRef) (f : Gang → Gang) (c : CoreRef) : (s.updGang g f).core c = s.core c := rfl
/-! ### What an update makes of its part -/

/-- A chip after a rewrite. -/
theorem State.chip?_updChip (s : State) (n : Nat) (f : Chip → Chip) (k : Nat) :
    (s.updChip n f).chip? k = if n = k then (s.chip? k).map f else s.chip? k := Tab.find_upd s.chips n f k

/-- A chip after its own rewrite. -/
@[simp] theorem State.chip?_updChip_self (s : State) (n : Nat) (f : Chip → Chip) : (s.updChip n f).chip? n = (s.chip? n).map f := by
  rw [State.chip?_updChip, if_pos rfl]

/-- A chip after another's rewrite. -/
theorem State.chip?_updChip_ne (s : State) {n k : Nat} (f : Chip → Chip) (h : n ≠ k) : (s.updChip n f).chip? k = s.chip? k := by
  rw [State.chip?_updChip, if_neg h]

/-- A device after a rewrite. -/
theorem State.dev?_updDev (s : State) (n : Nat) (f : Device → Device) (k : Nat) :
    (s.updDev n f).dev? k = if n = k then (s.dev? k).map f else s.dev? k := Tab.find_upd s.devs n f k

/-- A device after its own rewrite. -/
@[simp] theorem State.dev?_updDev_self (s : State) (n : Nat) (f : Device → Device) : (s.updDev n f).dev? n = (s.dev? n).map f := by
  rw [State.dev?_updDev, if_pos rfl]

/-- A task after a rewrite. -/
theorem State.task?_updTask (s : State) (k t : Nat) (f : Task → Task) (j u : Nat) :
    (s.updTask k t f).task? j u = if k = j ∧ t = u then (s.task? j u).map f else s.task? j u := by
  unfold State.task? State.updTask
  rw [State.chip?_updChip]
  by_cases hk : k = j
  · subst hk
    cases s.chip? k with
    | none => simp
    | some c =>
      simp only [if_true, Option.map_some, Option.bind_some, Tab.find_upd, true_and]
  · simp [hk]

/-- A task after its own rewrite. -/
@[simp] theorem State.task?_updTask_self (s : State) (k t : Nat) (f : Task → Task) : (s.updTask k t f).task? k t = (s.task? k t).map f := by
  rw [State.task?_updTask, if_pos ⟨rfl, rfl⟩]

/-- A gang after a rewrite. -/
theorem State.gang?_updGang (s : State) (g : GangRef) (f : Gang → Gang) (h : GangRef) :
    (s.updGang g f).gang? h = if g = h then (s.gang? h).map f else s.gang? h := by
  unfold State.gang? State.updGang
  rw [State.task?_updTask]
  by_cases e : g.chip = h.chip ∧ g.task = h.task
  · rw [if_pos e]
    cases s.task? h.chip h.task with
    | none => simp
    | some t =>
      simp only [Option.map_some, Option.bind_some, Tab.find_upd]
      by_cases hg : g.gang = h.gang
      · have : g = h := by cases g; cases h; simp_all
        simp [this]
      · have : g ≠ h := fun x => hg (x ▸ rfl)
        simp [hg, this]
  · rw [if_neg e]
    have : g ≠ h := fun x => e (x ▸ ⟨rfl, rfl⟩)
    rw [if_neg this]

/-- A gang after its own rewrite. -/
@[simp] theorem State.gang?_updGang_self (s : State) (g : GangRef) (f : Gang → Gang) : (s.updGang g f).gang? g = (s.gang? g).map f := by
  rw [State.gang?_updGang, if_pos rfl]

/-- A rewrite of a table's entry depends on what it makes of that entry only. -/
theorem Tab.upd_congr {α : Type} {t : Tab α} {n : Nat} {f g : α → α} (h : ∀ a, Tab.find t n = some a → f a = g a) :
    Tab.upd t n f = Tab.upd t n g := by
  unfold Tab.upd
  split
  · rw [h _ ‹_›]
  · rfl

/-- Of two entries put under one key the later stands. -/
theorem Tab.put_put {α : Type} (t : Tab α) (n : Nat) (a b : α) : Tab.put (Tab.put t n a) n b = Tab.put t n b := by
  induction t with
  | nil => simp [Tab.put]
  | cons e t ih =>
    simp only [Tab.put]
    split
    · simp [Tab.put]
    · split
      · simp [Tab.put]
      · simp [Tab.put, *]

/-- Two rewrites of one entry are one. -/
theorem Tab.upd_upd {α : Type} (t : Tab α) (n : Nat) (f g : α → α) : Tab.upd (Tab.upd t n f) n g = Tab.upd t n fun a => g (f a) := by
  unfold Tab.upd
  cases h : Tab.find t n with
  | none => simp [h]
  | some a => simp [Tab.put_put]

/-- Two rewrites that agree on the chip that is there are one state. -/
theorem State.updChip_congr {s : State} {k : Nat} {f g : Chip → Chip} (h : ∀ c, s.chip? k = some c → f c = g c) :
    s.updChip k f = s.updChip k g := by
  unfold State.updChip
  rw [Tab.upd_congr h]

/-- Two rewrites that agree on the device that is there are one state. -/
theorem State.updDev_congr {s : State} {k : Nat} {f g : Device → Device} (h : ∀ c, s.dev? k = some c → f c = g c) :
    s.updDev k f = s.updDev k g := by
  unfold State.updDev
  rw [Tab.upd_congr h]

/-- Two rewrites of one chip are one. -/
theorem State.updChip_updChip (s : State) (k : Nat) (f g : Chip → Chip) : (s.updChip k f).updChip k g = s.updChip k fun c => g (f c) := by
  simp [State.updChip, Tab.upd_upd]

/-- Two rewrites of one device are one. -/
theorem State.updDev_updDev (s : State) (k : Nat) (f g : Device → Device) : (s.updDev k f).updDev k g = s.updDev k fun c => g (f c) := by
  simp [State.updDev, Tab.upd_upd]

/-- A core of a device that is there after its own rewrite. -/
theorem State.core_updCore_self {s : State} {c : CoreRef} {d : Device} (f : Core → Core) (h : s.dev? c.dev = some d) :
    (s.updCore c f).core c = f (s.core c) := by
  unfold State.updCore State.core
  rw [State.dev?_updDev_self, h]
  simp [Tab.getD]

/-- A core after another's rewrite. -/
theorem State.core_updCore_ne (s : State) {c k : CoreRef} (f : Core → Core) (h : c ≠ k) : (s.updCore c f).core k = s.core k := by
  unfold State.updCore State.core
  rw [State.dev?_updDev]
  split
  · rename_i e
    have hn : c.core ≠ k.core := fun x => h (by cases c; cases k; simp_all)
    cases s.dev? k.dev with
    | none => rfl
    | some d => simp [Tab.getD, Tab.find_put_ne _ _ hn]
  · rfl

/-- The bytes of memory do not depend on a device's state. -/
@[simp] theorem State.readByte_updDev (s : State) (k : Nat) (f : Device → Device) (p : Place) : (s.updDev k f).readByte p = s.readByte p := by
  cases p <;> rfl

end Sys2Proof.Machine
end

