-- ==== Sys2Proof/Laws/Finish.lean ====
section
/-! SUPPORT. What an instruction that completes keeps: of its gang, and of the machine. -/

namespace Sys2Proof.Machine

/-! ### One destination -/

/-- A destination is one of the four files. -/
theorem Gang.writeName_eq (g : Gang) (d : DstName) (m : LaneMask) (v : Lanes Nat) :
    g.writeName d m v = { g with vmap := (g.writeName d m v).vmap, ofile := (g.writeName d m v).ofile, sreg := (g.writeName d m v).sreg,
                                 mom := (g.writeName d m v).mom } := by
  cases d with
  | vec k n => unfold Gang.writeName; simp only []; rw [Gang.writeV_eq]
  | oper k n => unfold Gang.writeName; simp only []; rw [Gang.writeO_eq]
  | _ => rfl

theorem Gang.ofile_writeO (g : Gang) (k : Nat) (m : LaneMask) (v : Lanes Nat) (n : Nat) (j : Fin 8) (h : j.val < k ∨ k + n ≤ j.val)
    (hk : k + n ≤ 8) : (g.writeO k m v n).ofile[j] = g.ofile[j] := by
  induction n generalizing g k v with
  | zero => rfl
  | succ n ih =>
    unfold Gang.writeO
    rw [ih _ _ _ (by omega) (by omega)]
    show (vset g.ofile k _)[j] = g.ofile[j]
    unfold vset
    simp only [Fin.getElem_fin]
    rw [Vector.getElem_set_ne]
    simp only [Fin.ofNat]
    omega

/-- The other operand-file registers after a write of a name. -/
theorem Gang.ofile_writeName (g : Gang) (d : DstName) (m : LaneMask) (v : Lanes Nat) (j : Fin 8)
    (h : ∀ k n, d = .oper k n → (j.val < k ∨ k + n ≤ j.val) ∧ k + n ≤ 8) : (g.writeName d m v).ofile[j] = g.ofile[j] := by
  cases d with
  | vec k n => unfold Gang.writeName; simp only []; rw [Gang.writeV_eq]
  | oper k n => exact Gang.ofile_writeO g k m v n j (h k n rfl).1 (h k n rfl).2
  | _ => rfl

/-- The other uniform registers after a write of a name. -/
theorem Gang.sreg_writeName (g : Gang) (d : DstName) (m : LaneMask) (v : Lanes Nat) (j : Fin 64)
    (h : ∀ k, d = .uni k → k ≠ j.val ∧ k < 64) : (g.writeName d m v).sreg[j] = g.sreg[j] := by
  cases d with
  | vec k n => unfold Gang.writeName; simp only []; rw [Gang.writeV_eq]
  | oper k n => unfold Gang.writeName; simp only []; rw [Gang.writeO_eq]
  | uni k =>
    show (vset g.sreg k _)[j] = g.sreg[j]
    unfold vset
    simp only [Fin.getElem_fin]
    rw [Vector.getElem_set_ne]
    have := h k rfl
    simp only [Fin.ofNat]
    omega
  | _ => rfl

/-- The other moment registers after a write of a name. -/
theorem Gang.mom_writeName (g : Gang) (d : DstName) (m : LaneMask) (v : Lanes Nat) (j : Fin 32)
    (h : ∀ k, d = .mom k → k ≠ j.val ∧ k < 32) : (g.writeName d m v).mom[j] = g.mom[j] := by
  cases d with
  | vec k n => unfold Gang.writeName; simp only []; rw [Gang.writeV_eq]
  | oper k n => unfold Gang.writeName; simp only []; rw [Gang.writeO_eq]
  | mom k =>
    show (vset g.mom k _)[j] = g.mom[j]
    unfold vset
    simp only [Fin.getElem_fin]
    rw [Vector.getElem_set_ne]
    have := h k rfl
    simp only [Fin.ofNat]
    omega
  | _ => rfl

/-! ### What a completed instruction keeps of its gang -/

/-- The destination's index lies in its file. -/
def Ctx.destOk (c : Ctx) : Prop :=
  (∀ k n, c.destName = .oper k n → k + n ≤ 8) ∧ (∀ k, c.destName = .uni k → k < 64) ∧ (∀ k, c.destName = .mom k → k < 32)

/-- A step on a gang keeps what a completed instruction keeps, and the addresses. -/
structure Ctx.Keeps (c : Ctx) (g h : Gang) : Prop where
  vmap : ∀ n, (∀ k m, c.destName = .vec k m → n < k ∨ k + m ≤ n) → ¬ c.lastReads n → Tab.find h.vmap n = Tab.find g.vmap n
  ofile : ∀ n : Fin 8, (∀ k m, c.destName = .oper k m → n.val < k ∨ k + m ≤ n.val) → h.ofile[n] = g.ofile[n]
  sreg : ∀ n : Fin 64, c.destName ≠ .uni n.val → h.sreg[n] = g.sreg[n]
  mom : ∀ n : Fin 32, c.destName ≠ .mom n.val → h.mom[n] = g.mom[n]
  pred : c.writesP = false → h.pred = g.pred
  last : ∀ k : Fin 32, inMask c.active k = false ∨ c.writesV = false → h.last[k] = g.last[k]
  pc : h.pc = g.pc
  mflag : h.mflag = g.mflag
  fpflag : h.fpflag = g.fpflag

theorem Ctx.Keeps.rfl' (c : Ctx) (g : Gang) : c.Keeps g g := ⟨fun _ _ _ => rfl, fun _ _ => rfl, fun _ _ => rfl, fun _ _ => rfl, fun _ => rfl,
  fun _ _ => rfl, rfl, rfl, rfl⟩

theorem Ctx.Keeps.trans {c : Ctx} {g h k : Gang} (a : c.Keeps g h) (b : c.Keeps h k) : c.Keeps g k :=
  ⟨fun n x y => (b.vmap n x y).trans (a.vmap n x y), fun n x => (b.ofile n x).trans (a.ofile n x), fun n x => (b.sreg n x).trans (a.sreg n x),
   fun n x => (b.mom n x).trans (a.mom n x), fun x => (b.pred x).trans (a.pred x), fun n x => (b.last n x).trans (a.last n x),
   b.pc.trans a.pc, b.mflag.trans a.mflag, b.fpflag.trans a.fpflag⟩

theorem Ctx.keeps_countWindow (c : Ctx) (g : Gang) (m : LaneMask) : c.Keeps g (g.countWindow m) :=
  ⟨fun _ _ _ => rfl, fun _ _ => rfl, fun _ _ => rfl, fun _ _ => rfl, fun _ => rfl, fun _ _ => rfl, rfl, rfl, rfl⟩

theorem Ctx.keeps_supersede (c : Ctx) (g : Gang) (d : DstName) (m : LaneMask) : c.Keeps g (g.supersede d m) :=
  ⟨fun _ _ _ => rfl, fun _ _ => rfl, fun _ _ => rfl, fun _ _ => rfl, fun _ => rfl, fun _ _ => rfl, rfl, rfl, rfl⟩

/-- A gang with other mappings keeps all but them. -/
theorem Ctx.keeps_vmap (c : Ctx) {g h : Gang} (e : h = { g with vmap := h.vmap })
    (hv : ∀ n, (∀ k m, c.destName = .vec k m → n < k ∨ k + m ≤ n) → ¬ c.lastReads n → Tab.find h.vmap n = Tab.find g.vmap n) : c.Keeps g h := by
  refine ⟨hv, ?_, ?_, ?_, ?_, ?_, ?_, ?_, ?_⟩ <;> rw [e] <;> intros <;> rfl

theorem Gang.find_lastRead (g : Gang) (u : Use) (x : Src) (m : LaneMask) (n : Nat)
    (h : ∀ sl k, u = .src sl → x.opnd = .main k → x.lastRead = true → n < k.toNat ∨ k.toNat + sl.regs ≤ n) :
    Tab.find (g.lastRead u x m).vmap n = Tab.find g.vmap n := by
  unfold Gang.lastRead
  split
  · rename_i sl k hx
    split
    · rename_i hl
      exact Gang.find_release g _ m _ n (h sl k rfl hx (by simp_all))
    · rfl
  · rfl

theorem Ctx.keeps_releases (c : Ctx) (g : Gang) : c.Keeps g (c.releases g) := by
  refine c.keeps_vmap (Ctx.releases_eq c g) fun n _ hn => ?_
  have far : ∀ u y, (u, y) ∈ [(c.sp.a, c.x.a), (c.sp.b, c.x.b), (c.sp.c, c.x.c)] → ∀ sl k, u = Use.src sl → y.opnd = .main k →
      y.lastRead = true → n < k.toNat ∨ k.toNat + sl.regs ≤ n := by
    intro u y hm sl k hu hy hl
    by_cases h : k.toNat ≤ n ∧ n < k.toNat + sl.regs
    · exact absurd ⟨u, y, sl, k, hm, hu, hy, hl, h.1, h.2⟩ hn
    · omega
  unfold Ctx.releases
  split
  · rfl
  · rw [Gang.find_lastRead _ _ _ _ _ (far _ _ (by simp)), Gang.find_lastRead _ _ _ _ _ (far _ _ (by simp)),
      Gang.find_lastRead _ _ _ _ _ (far _ _ (by simp))]

theorem Ctx.keeps_writeName (c : Ctx) (h : c.destOk) (g : Gang) (m : LaneMask) (v : Lanes Nat) : c.Keeps g (g.writeName c.destName m v) := by
  refine ⟨fun n hn _ => Gang.find_writeName g _ m v n hn, fun n hn => Gang.ofile_writeName g _ m v n fun k j e => ⟨hn k j e, h.1 k j e⟩,
    fun n hn => Gang.sreg_writeName g _ m v n fun k e => ⟨fun x => hn (x ▸ e), h.2.1 k e⟩,
    fun n hn => Gang.mom_writeName g _ m v n fun k e => ⟨fun x => hn (x ▸ e), h.2.2 k e⟩, ?_, ?_, ?_, ?_, ?_⟩ <;>
    rw [Gang.writeName_eq] <;> intros <;> rfl

theorem Ctx.keeps_shiftLast (c : Ctx) (g : Gang) (v : Lanes Nat) (h : c.writesV = true) : c.Keeps g (g.shiftLast c.active v) := by
  unfold Gang.shiftLast
  refine ⟨fun _ _ _ => rfl, fun _ _ => rfl, fun _ _ => rfl, fun _ _ => rfl, fun _ => rfl, fun k hk => ?_, rfl, rfl, rfl⟩
  have hk : inMask c.active k = false := hk.resolve_right (by simp [h])
  show (lanesFrom _)[k] = _
  rw [fin_lanesFrom]
  simp [hk]

theorem Ctx.keeps_writeNow (c : Ctx) (h : c.destOk) (g : Gang) (v : Lanes Nat) : c.Keeps g (c.writeNow g v) := by
  unfold Ctx.writeNow
  split
  · rename_i hp
    unfold Gang.writeP
    exact ⟨fun _ _ _ => rfl, fun _ _ => rfl, fun _ _ => rfl, fun _ _ => rfl, fun x => absurd hp (by simp [x]), fun _ _ => rfl, rfl, rfl, rfl⟩
  · have w := (c.keeps_supersede g c.destName c.active).trans (c.keeps_writeName h (g.supersede c.destName c.active) c.active v)
    simp only []
    split
    · exact w.trans (c.keeps_shiftLast _ v ‹_›)
    · exact w

theorem Ctx.keeps_writeLate (c : Ctx) (g : Gang) (v : Lanes Nat) (flags : Lanes FpFlags) (kind : PendKind) (missing : LaneMask) :
    c.Keeps g (c.writeLate g v flags kind missing) := by
  have add : ∀ (k : Gang) (ps : List Pend), c.Keeps k { k with pend := ps } := fun k ps =>
    ⟨fun _ _ _ => rfl, fun _ _ => rfl, fun _ _ => rfl, fun _ _ => rfl, fun _ => rfl, fun _ _ => rfl, rfl, rfl, rfl⟩
  have w := c.keeps_supersede g c.destName c.active
  unfold Ctx.writeLate
  simp only []
  split
  · rename_i k n e
    refine (w.trans (c.keeps_vmap (Gang.mapName_eq _ k n) fun j hj _ => Gang.find_mapName _ k n j (hj k n e))).trans (add _ _)
  · exact w.trans (add _ _)

theorem Ctx.keeps_written (c : Ctx) (h : c.destOk) (g : Gang) (o : Out) : c.Keeps g (c.written g o) := by
  unfold Ctx.written
  split
  · exact c.keeps_writeNow h g _
  · exact c.keeps_writeLate ..
  · exact .rfl' c g

theorem Ctx.keeps_settled (c : Ctx) (h : c.destOk) (g : Gang) (o : Out) : c.Keeps g (c.settled g o) := by
  rw [Ctx.settled_eq]
  obtain ⟨a, b, d, e, f, i, j, k, l⟩ := c.keeps_written h g o
  exact ⟨a, b, d, e, f, i, j, k, l⟩

/-- The bundles' next addresses are all that an advance changes. -/
theorem Gang.advance_eq (g : Gang) (lanes active : LaneMask) (next : DWord) (jump : Option (Lanes DWord)) :
    g.advance lanes active next jump = { g with pc := (g.advance lanes active next jump).pc, bundles := (g.advance lanes active next jump).bundles,
                                                replay := (g.advance lanes active next jump).replay } := by
  unfold Gang.advance
  simp only []
  split
  · unfold Gang.endReplay Gang.rebundle; rfl
  · unfold Gang.rebundle; rfl

/-- Lanes of other bundles stand where they stood. -/
theorem Gang.pc_advance (g : Gang) (lanes active : LaneMask) (next : DWord) (jump : Option (Lanes DWord)) (k : Fin 32)
    (h : inMask lanes k = false) : (g.advance lanes active next jump).pc[k] = g.pc[k] := by
  unfold Gang.advance
  simp only []
  split
  · rename_i r hr
    have e : r.lanes = lanes := by
      unfold Gang.replaying at hr
      split at hr
      · split at hr
        · cases hr; assumption
        · cases hr
      · cases hr
    unfold Gang.endReplay Gang.rebundle Lanes.sel
    simp [e, h, getElem_lanesFrom]
  · unfold Gang.rebundle
    simp [h, getElem_lanesFrom]

/-- WHAT A COMPLETED INSTRUCTION KEEPS of its gang: every register that is neither its destination nor last-read, and the rest. -/
theorem Ctx.kept_retireGang (c : Ctx) (o : Out) (h : c.destOk) : c.kept (c.retireGang c.g o) := by
  refine ⟨Ctx.rest_retireGang .., ?_⟩
  rw [Ctx.retireGang_eq]
  simp only []
  generalize ha : c.settled (c.releases (if (c.g.replaying c.lanes).isSome = true then c.g else c.g.countWindow c.lanes)) o = a
  have k1 : c.Keeps c.g a := by
    rw [← ha]
    refine Ctx.Keeps.trans ?_ ((c.keeps_releases _).trans (c.keeps_settled h _ o))
    split
    · exact .rfl' ..
    · exact c.keeps_countWindow ..
  generalize hb : (if o.late.isSome = true then a else c.raise a o) = b
  have hb1 : b = { a with fpflag := b.fpflag, mflag := b.mflag } := by
    rw [← hb]
    split
    · rfl
    · unfold Ctx.raise; rfl
  refine ⟨fun n x y => ?_, fun n x => ?_, fun n x => ?_, fun n x => ?_, fun x => ?_, fun n x => ?_, fun n x => ?_⟩
  · rw [Gang.advance_eq, hb1]; exact k1.vmap n x y
  · rw [Gang.advance_eq, hb1]; exact k1.ofile n x
  · rw [Gang.advance_eq, hb1]; exact k1.sreg n x
  · rw [Gang.advance_eq, hb1]; exact k1.mom n x
  · rw [Gang.advance_eq, hb1]; exact k1.pred x
  · rw [Gang.advance_eq, hb1]; exact k1.last n x
  · rw [Gang.pc_advance _ _ _ _ _ _ x, hb1, ← k1.pc]

/-- A completed instruction that raises no moment flag keeps them. -/
theorem Ctx.mflag_retireGang (c : Ctx) (o : Out) (h : c.destOk) (hm : o.mflags = Lanes.all 0) : (c.retireGang c.g o).mflag = c.g.mflag := by
  rw [Ctx.retireGang_eq]
  simp only []
  generalize ha : c.settled (c.releases (if (c.g.replaying c.lanes).isSome = true then c.g else c.g.countWindow c.lanes)) o = a
  have k1 : c.Keeps c.g a := by
    rw [← ha]
    refine Ctx.Keeps.trans ?_ ((c.keeps_releases _).trans (c.keeps_settled h _ o))
    split
    · exact .rfl' ..
    · exact c.keeps_countWindow ..
  rw [Gang.advance_eq]
  split
  · exact k1.mflag
  · refine Eq.trans ?_ k1.mflag
    unfold Ctx.raise
    ext i hi
    simp [hm, Lanes.all, getElem_lanesFrom]

/-- A completed instruction that raises no IEEE flag, or whose flags come later, keeps them. -/
theorem Ctx.fpflag_retireGang (c : Ctx) (o : Out) (h : c.destOk) (hm : o.flags = Lanes.all 0 ∨ o.late.isSome = true) :
    (c.retireGang c.g o).fpflag = c.g.fpflag := by
  rw [Ctx.retireGang_eq]
  simp only []
  generalize ha : c.settled (c.releases (if (c.g.replaying c.lanes).isSome = true then c.g else c.g.countWindow c.lanes)) o = a
  have k1 : c.Keeps c.g a := by
    rw [← ha]
    refine Ctx.Keeps.trans ?_ ((c.keeps_releases _).trans (c.keeps_settled h _ o))
    split
    · exact .rfl' ..
    · exact c.keeps_countWindow ..
  rw [Gang.advance_eq]
  split
  · exact k1.fpflag
  · have hm := hm.resolve_right ‹_›
    refine Eq.trans ?_ k1.fpflag
    unfold Ctx.raise
    ext i hi
    simp [hm, Lanes.all, getElem_lanesFrom]

/-! ### A ready instruction's destination -/

/-- The checks of order 4 have passed for a context that executes. -/
theorem Ctx.checks_opnd {c d : Ctx} {s : State} {r : Reads} (h : c.checks s r = .go d) : opndOk c.md c.sp c.x = true := by
  unfold Ctx.checks at h
  simp only [] at h
  split at h
  · cases h
  · split at h
    · cases h
    · simp_all

/-- A ready instruction's operands are legal. -/
theorem ready_opnd {s : State} {i : Instr} {x : Ops} {c : Ctx} (h : Ready s i x c) : opndOk c.md c.sp c.x = true := by
  obtain ⟨_, _, h⟩ := h
  unfold prologue at h
  split at h
  · cases h
  · have e := Ctx.checks_go h
    exact e ▸ Ctx.checks_opnd h

/-- A legal destination's index lies in its file. -/
theorem dstName_ok {md : Mode} {t : Slot} {o : Opnd} (h : dstOk md t o = true) :
    (∀ k n, dstName t o = .oper k n → k + n ≤ 8) ∧ (∀ k, dstName t o = .uni k → k < 64) ∧ (∀ k, dstName t o = .mom k → k < 32) := by
  unfold dstName
  unfold dstOk at h
  split <;> rename_i hc
  · split
    · refine ⟨?_, ?_, ?_⟩ <;> intros <;> simp_all
    · refine ⟨?_, ?_, ?_⟩ <;> intros <;> simp_all
  · refine ⟨?_, ?_, ?_⟩
    · rintro k n e
      cases e
      simp [hc] at h
      omega
    · intro k e; cases e
    · intro k e; cases e
  · refine ⟨?_, ?_, ?_⟩
    · intro k n e; cases e
    · rintro k e
      cases e
      simp [hc] at h
      split at h <;> omega
    · intro k e; cases e
  · refine ⟨?_, ?_, ?_⟩
    · intro k n e; cases e
    · intro k e; cases e
    · rintro k e
      cases e
      simp [hc, srcOk] at h
      omega
  · refine ⟨?_, ?_, ?_⟩ <;> intros <;> simp_all

/-- A ready instruction's destination lies in its file. -/
theorem ready_destOk {s : State} {i : Instr} {x : Ops} {c : Ctx} (h : Ready s i x c) : c.destOk := by
  have ho := ready_opnd h
  have sink : (∀ k n, DstName.sink = .oper k n → k + n ≤ 8) ∧ (∀ k, DstName.sink = .uni k → k < 64) ∧ (∀ k, DstName.sink = .mom k → k < 32) :=
    ⟨fun _ _ e => (nomatch e), fun _ e => (nomatch e), fun _ e => (nomatch e)⟩
  unfold Ctx.destOk Ctx.destName
  split
  · exact sink
  · have hd : useOpnd c.md c.sp.dst c.x.dst = true := by
      unfold opndOk at ho
      simp only [Bool.and_eq_true] at ho
      exact ho.1.1.1
    split
    · rename_i t ht
      have : dstOk c.md t c.x.dst = true := by
        unfold useOpnd at hd
        unfold Use.writeSlot at ht
        split at ht <;> simp_all
      exact dstName_ok this
    · exact sink

/-! ### What a completed instruction keeps of the machine -/

/-- A ready gang's context names its chip and holds its gang. -/
theorem ready_gang {s : State} {i : Instr} {x : Ops} {c : Ctx} {g : GangRef} {lanes : LaneMask} (h : Ready s i x c) (hw : c.w = .gang g lanes) :
    c.chip = g.chip ∧ s.gang? g = some c.g ∧ c.lanes = lanes := by
  obtain ⟨_, _, h⟩ := h
  obtain ⟨w, k, core, chip, l, h3, rfl⟩ := prologue_go h
  change w = _ at hw
  subst hw
  unfold State.issuing at h3
  split at h3
  · cases h3
  · split at h3
    · rename_i a b e
      simp only [Option.some.injEq, Prod.mk.injEq] at h3
      obtain ⟨h3, rfl, rfl, rfl, h4⟩ := h3
      subst h3
      refine ⟨?_, a, ?_⟩
      · exact (Option.some.inj e).symm
      · exact h4.symm
    · cases h3

/-- Gangs before and after a fence is left. -/
theorem Ctx.gang?_leaveFence (c : Ctx) (s : State) (g : GangRef) : (c.leaveFence s).gang? g = s.gang? g := by
  unfold Ctx.leaveFence State.gang? State.task?
  rw [State.chip?_updChip]
  split
  · cases s.chip? g.chip <;> rfl
  · rfl

/-- Leaving a fence changes the happens-before record alone. -/
theorem Ctx.noRaces_leaveFence (c : Ctx) (s : State) (k : Nat) :
    ((c.leaveFence s).chip? k).map Chip.noRaces = (s.chip? k).map Chip.noRaces := by
  unfold Ctx.leaveFence
  rw [State.chip?_updChip]
  split
  · cases s.chip? k <;> rfl
  · rfl

theorem Ctx.chip?_leaveFence (c : Ctx) (s : State) (k : Nat) : ((c.leaveFence s).chip? k).map Chip.rest = (s.chip? k).map Chip.rest := by
  unfold Ctx.leaveFence
  rw [State.chip?_updChip]
  split
  · cases s.chip? k <;> rfl
  · rfl

theorem Ctx.task?_leaveFence (c : Ctx) (s : State) (k n : Nat) : (c.leaveFence s).task? k n = s.task? k n := by
  unfold Ctx.leaveFence State.task?
  rw [State.chip?_updChip]
  split
  · cases s.chip? k <;> rfl
  · rfl

/-- A gang's rewrite keeps the rest of every chip. -/
theorem State.rest_updGang (s : State) (g : GangRef) (f : Gang → Gang) (k : Nat) :
    ((s.updGang g f).chip? k).map Chip.rest = (s.chip? k).map Chip.rest := by
  unfold State.updGang State.updTask
  rw [State.chip?_updChip]
  split
  · cases s.chip? k <;> rfl
  · rfl

/-- A gang's rewrite keeps the rest of every task. -/
theorem State.taskRest_updGang (s : State) (g : GangRef) (f : Gang → Gang) (k n : Nat) :
    ((s.updGang g f).task? k n).map Task.rest = (s.task? k n).map Task.rest := by
  unfold State.updGang
  rw [State.task?_updTask]
  split
  · cases s.task? k n <;> rfl
  · rfl

/-- The bytes of memory are those of the chips' and tasks' rests and of host memory. -/
theorem State.readByte_congr {s t : State} (hh : t.hostMem = s.hostMem) (hc : ∀ k, (t.chip? k).map Chip.rest = (s.chip? k).map Chip.rest)
    (ht : ∀ k n, (t.task? k n).map Task.rest = (s.task? k n).map Task.rest) (p : Place) : t.readByte p = s.readByte p := by
  cases p with
  | dram k a r =>
    have e := hc k
    unfold State.readByte
    cases h1 : t.chip? k <;> cases h2 : s.chip? k <;> simp_all [Chip.rest]
  | host a => unfold State.readByte; rw [hh]
  | scratch k n o =>
    have e := ht k n
    unfold State.readByte
    cases h1 : t.task? k n <;> cases h2 : s.task? k n <;> simp_all [Task.rest]

/-- The turn goes to the other bundle of a pair, and nothing else changes. -/
theorem State.handOver_eq (s : State) (w : Issuer) :
    s.handOver w = { s with issuer := (s.handOver w).issuer, due := (s.handOver w).due } := by
  unfold State.handOver
  split <;> rfl

/-- Who issues next after a bundle of a gang is nobody, or a chosen bundle of the same gang. -/
theorem State.issuer_handOver {s : State} {g : GangRef} {lanes : LaneMask} {w : Issuer} (h : (s.handOver (.gang g lanes)).issuer = some w) :
    w ∈ s.due ∧ w.elsewhere g = false := by
  unfold State.handOver at h
  split at h
  · rename_i o ho
    split at h
    · cases h
      refine ⟨List.mem_of_find?_eq_some ho, ?_⟩
      have := List.find?_some ho
      cases w <;> simp_all [Issuer.elsewhere, Issuer.together]
    · cases h
  · cases h

/-- The chosen bundles of other gangs stay chosen. -/
theorem State.due_handOver (s : State) (g : GangRef) (lanes : LaneMask) :
    (s.handOver (.gang g lanes)).due.filter (Issuer.elsewhere g) = s.due.filter (Issuer.elsewhere g) := by
  unfold State.handOver
  split
  · rename_i o ho
    show (s.due.filter _).filter _ = _
    rw [List.filter_filter]
    refine List.filter_congr fun p _ => ?_
    by_cases hp : p = o
    · have := List.find?_some ho
      subst hp
      cases p <;> simp_all [Issuer.elsewhere, Issuer.together]
    · simp [hp]
  · rfl

/-- WHAT A COMPLETED INSTRUCTION OF A GANG KEEPS of the machine, beside what its meaning changed. -/
theorem Ctx.finish_gang (c : Ctx) (o : Out) {g : GangRef} {lanes : LaneMask} (hw : c.w = .gang g lanes) :
    OthersKept o.s (c.finish o) g ∧ (c.finish o).gang? g = (o.s.gang? g).map (fun q => c.retireGang q o) ∧ (∀ w, (c.finish o).issuer = some w → w ∈ o.s.due ∧ w.elsewhere g = false) ∧
    (c.finish o).hostMem = o.s.hostMem ∧ (∀ k, ((c.finish o).chip? k).map Chip.rest = (o.s.chip? k).map Chip.rest) ∧
    (∀ k n, ((c.finish o).task? k n).map Task.rest = (o.s.task? k n).map Task.rest) ∧ ∀ p, (c.finish o).readByte p = o.s.readByte p := by
  have e0 : c.finish o = ((c.leaveFence o.s).updGang g fun q => c.retireGang q o).handOver (.gang g lanes) := by
    unfold Ctx.finish; rw [hw]; rfl
  have e := e0.trans (State.handOver_eq ..)
  have f : ∀ {α : Type} (p : State → α), (∀ s f, p (s.updChip c.chip f) = p s) → p (c.leaveFence o.s) = p o.s := by
    intro α p hp
    exact hp ..
  have hm : (c.finish o).hostMem = o.s.hostMem := by rw [e]; exact f State.hostMem fun _ _ => rfl
  have hc : ∀ k, ((c.finish o).chip? k).map Chip.rest = (o.s.chip? k).map Chip.rest := by
    intro k
    rw [e]
    exact (State.rest_updGang ..).trans (Ctx.chip?_leaveFence ..)
  have ht : ∀ k n, ((c.finish o).task? k n).map Task.rest = (o.s.task? k n).map Task.rest := by
    intro k n
    rw [e]
    refine (State.taskRest_updGang ..).trans ?_
    rw [Ctx.task?_leaveFence]
  refine ⟨⟨?_, ?_, ?_, ?_, ?_, ?_, ?_, ?_⟩, ?_, ?_, hm, hc, ht, State.readByte_congr hm hc ht⟩
  · rw [e]; exact f State.devs fun _ _ => rfl
  · rw [e]; exact f State.guests fun _ _ => rfl
  · rw [e]; exact f State.packets fun _ _ => rfl
  · rw [e]; exact f State.irqs fun _ _ => rfl
  · rw [e0, State.due_handOver]; exact congrArg _ (f State.due fun _ _ => rfl)
  · rw [e]; exact f State.agenda fun _ _ => rfl
  · rw [e]; exact f State.fresh fun _ _ => rfl
  · intro h hh
    rw [e]
    refine (State.gang?_updGang ..).trans ?_
    rw [if_neg (Ne.symm hh), Ctx.gang?_leaveFence]
  · rw [e]
    refine (State.gang?_updGang_self ..).trans ?_
    rw [Ctx.gang?_leaveFence]
  · intro w h
    rw [e0] at h
    obtain ⟨h1, h2⟩ := State.issuer_handOver h
    exact ⟨(f State.due fun _ _ => rfl) ▸ h1, h2⟩

end Sys2Proof.Machine
end

