-- ==== Sys2Proof/Laws/PerInstr.lean ====
section
/-! SUPPORT. For every instruction: the major opcode that its encoding rules name is the one that the decoder reads it from (R19, R59). -/

namespace Sys2Proof.Laws

/-- The opcode of an instruction's encoding rules is one of 10 bits, the decoder reads the instruction from it, and a 64-bit form of it is
format B exactly where R59 says so. -/
def Opcode.Statement (i : Instr) : Prop :=
  ∀ sp x, i.spec = some sp → i.ops = some x → sp.ok = true →
    ofOpcode sp.opc x = some i ∧ Nat.blt sp.opc 1024 = true ∧
      (sp.forms.all fun f => match f with | .A => !formatB sp.opc | .B => formatB sp.opc | _ => true) = true

/-- The decoder's reading of a retired operation's opcode (R61). -/
theorem ofOpcode_retired (o : Nat) (x : Ops) (h1 : 896 ≤ o) (h2 : o ≤ 959) (h3 : o ≠ 897) :
    ofOpcode o x = some (.retiredOperation (BitVec.ofNat 6 (o - 896)) x) := by
  unfold ofOpcode
  split
  all_goals first | omega | exact if_pos ⟨h1, h2⟩

/-- A step of the hardware has no opcode. -/
theorem opcode_of_none {i : Instr} (h : i.spec = none) : Opcode.Statement i := fun sp _ e => by rw [h] at e; cases e


theorem Opcode.fillWord : Opcode.Statement .fillWord := opcode_of_none rfl
theorem Opcode.iadd (x : Ops) : Opcode.Statement (.iadd x) := by rintro sp y ⟨⟩ ⟨⟩ _; exact ⟨rfl, rfl, rfl⟩
theorem Opcode.isub (x : Ops) : Opcode.Statement (.isub x) := by rintro sp y ⟨⟩ ⟨⟩ _; exact ⟨rfl, rfl, rfl⟩
theorem Opcode.iaddc (x : Ops) : Opcode.Statement (.iaddc x) := by rintro sp y ⟨⟩ ⟨⟩ _; exact ⟨rfl, rfl, rfl⟩
theorem Opcode.imul (x : Ops) : Opcode.Statement (.imul x) := by rintro sp y ⟨⟩ ⟨⟩ _; exact ⟨rfl, rfl, rfl⟩
theorem Opcode.imin (x : Ops) : Opcode.Statement (.imin x) := by rintro sp y ⟨⟩ ⟨⟩ _; exact ⟨rfl, rfl, rfl⟩
theorem Opcode.imax (x : Ops) : Opcode.Statement (.imax x) := by rintro sp y ⟨⟩ ⟨⟩ _; exact ⟨rfl, rfl, rfl⟩
theorem Opcode.iabs (x : Ops) : Opcode.Statement (.iabs x) := by rintro sp y ⟨⟩ ⟨⟩ _; exact ⟨rfl, rfl, rfl⟩
theorem Opcode.imad (x : Ops) : Opcode.Statement (.imad x) := by rintro sp y ⟨⟩ ⟨⟩ _; exact ⟨rfl, rfl, rfl⟩
theorem Opcode.shl (x : Ops) : Opcode.Statement (.shl x) := by rintro sp y ⟨⟩ ⟨⟩ _; exact ⟨rfl, rfl, rfl⟩
theorem Opcode.shr (x : Ops) : Opcode.Statement (.shr x) := by rintro sp y ⟨⟩ ⟨⟩ _; exact ⟨rfl, rfl, rfl⟩
theorem Opcode.rot (x : Ops) : Opcode.Statement (.rot x) := by rintro sp y ⟨⟩ ⟨⟩ _; exact ⟨rfl, rfl, rfl⟩
theorem Opcode.and (x : Ops) : Opcode.Statement (.and x) := by rintro sp y ⟨⟩ ⟨⟩ _; exact ⟨rfl, rfl, rfl⟩
theorem Opcode.or (x : Ops) : Opcode.Statement (.or x) := by rintro sp y ⟨⟩ ⟨⟩ _; exact ⟨rfl, rfl, rfl⟩
theorem Opcode.xor (x : Ops) : Opcode.Statement (.xor x) := by rintro sp y ⟨⟩ ⟨⟩ _; exact ⟨rfl, rfl, rfl⟩
theorem Opcode.not (x : Ops) : Opcode.Statement (.not x) := by rintro sp y ⟨⟩ ⟨⟩ _; exact ⟨rfl, rfl, rfl⟩
theorem Opcode.popc (x : Ops) : Opcode.Statement (.popc x) := by rintro sp y ⟨⟩ ⟨⟩ _; exact ⟨rfl, rfl, rfl⟩
theorem Opcode.clz (x : Ops) : Opcode.Statement (.clz x) := by rintro sp y ⟨⟩ ⟨⟩ _; exact ⟨rfl, rfl, rfl⟩
theorem Opcode.ctz (x : Ops) : Opcode.Statement (.ctz x) := by rintro sp y ⟨⟩ ⟨⟩ _; exact ⟨rfl, rfl, rfl⟩
theorem Opcode.brev (x : Ops) : Opcode.Statement (.brev x) := by rintro sp y ⟨⟩ ⟨⟩ _; exact ⟨rfl, rfl, rfl⟩
theorem Opcode.bfe (x : Ops) : Opcode.Statement (.bfe x) := by rintro sp y ⟨⟩ ⟨⟩ _; exact ⟨rfl, rfl, rfl⟩
theorem Opcode.bfi (x : Ops) : Opcode.Statement (.bfi x) := by rintro sp y ⟨⟩ ⟨⟩ _; exact ⟨rfl, rfl, rfl⟩
theorem Opcode.bternTableBit7Clear (x : Ops) : Opcode.Statement (.bternTableBit7Clear x) := by rintro sp y ⟨⟩ ⟨⟩ _; exact ⟨rfl, rfl, rfl⟩
theorem Opcode.bternTableBit7Set (x : Ops) : Opcode.Statement (.bternTableBit7Set x) := by rintro sp y ⟨⟩ ⟨⟩ _; exact ⟨rfl, rfl, rfl⟩
theorem Opcode.icmp (x : Ops) : Opcode.Statement (.icmp x) := by rintro sp y ⟨⟩ ⟨⟩ _; exact ⟨rfl, rfl, rfl⟩
theorem Opcode.isel (x : Ops) : Opcode.Statement (.isel x) := by rintro sp y ⟨⟩ ⟨⟩ _; exact ⟨rfl, rfl, rfl⟩
theorem Opcode.lea (x : Ops) : Opcode.Statement (.lea x) := by rintro sp y ⟨⟩ ⟨⟩ _; exact ⟨rfl, rfl, rfl⟩
theorem Opcode.mov (x : Ops) : Opcode.Statement (.mov x) := by rintro sp y ⟨⟩ ⟨⟩ _; exact ⟨rfl, rfl, rfl⟩
theorem Opcode.movi (x : Ops) : Opcode.Statement (.movi x) := by rintro sp y ⟨⟩ ⟨⟩ _; exact ⟨rfl, rfl, rfl⟩
theorem Opcode.movu (x : Ops) : Opcode.Statement (.movu x) := by rintro sp y ⟨⟩ ⟨⟩ _; exact ⟨rfl, rfl, rfl⟩
theorem Opcode.icvt (x : Ops) : Opcode.Statement (.icvt x) := by rintro sp y ⟨⟩ ⟨⟩ _; exact ⟨rfl, rfl, rfl⟩
theorem Opcode.movs (x : Ops) : Opcode.Statement (.movs x) := by rintro sp y ⟨⟩ ⟨⟩ _; exact ⟨rfl, rfl, rfl⟩
theorem Opcode.pset (x : Ops) : Opcode.Statement (.pset x) := by rintro sp y ⟨⟩ ⟨⟩ _; exact ⟨rfl, rfl, rfl⟩
theorem Opcode.plop (x : Ops) : Opcode.Statement (.plop x) := by rintro sp y ⟨⟩ ⟨⟩ _; exact ⟨rfl, rfl, rfl⟩
theorem Opcode.pmov (x : Ops) : Opcode.Statement (.pmov x) := by rintro sp y ⟨⟩ ⟨⟩ _; exact ⟨rfl, rfl, rfl⟩
theorem Opcode.sadd (x : Ops) : Opcode.Statement (.sadd x) := by rintro sp y ⟨⟩ ⟨⟩ _; exact ⟨rfl, rfl, rfl⟩
theorem Opcode.smul (x : Ops) : Opcode.Statement (.smul x) := by rintro sp y ⟨⟩ ⟨⟩ _; exact ⟨rfl, rfl, rfl⟩
theorem Opcode.smov (x : Ops) : Opcode.Statement (.smov x) := by rintro sp y ⟨⟩ ⟨⟩ _; exact ⟨rfl, rfl, rfl⟩
theorem Opcode.sld (x : Ops) : Opcode.Statement (.sld x) := by rintro sp y ⟨⟩ ⟨⟩ _; exact ⟨rfl, rfl, rfl⟩
theorem Opcode.scmp (x : Ops) : Opcode.Statement (.scmp x) := by rintro sp y ⟨⟩ ⟨⟩ _; exact ⟨rfl, rfl, rfl⟩
theorem Opcode.bra (x : Ops) : Opcode.Statement (.bra x) := by rintro sp y ⟨⟩ ⟨⟩ _; exact ⟨rfl, rfl, rfl⟩
theorem Opcode.call (x : Ops) : Opcode.Statement (.call x) := by rintro sp y ⟨⟩ ⟨⟩ _; exact ⟨rfl, rfl, rfl⟩
theorem Opcode.brx (x : Ops) : Opcode.Statement (.brx x) := by rintro sp y ⟨⟩ ⟨⟩ _; exact ⟨rfl, rfl, rfl⟩
theorem Opcode.ret (x : Ops) : Opcode.Statement (.ret x) := by rintro sp y ⟨⟩ ⟨⟩ _; exact ⟨rfl, rfl, rfl⟩
theorem Opcode.exit (x : Ops) : Opcode.Statement (.exit x) := by rintro sp y ⟨⟩ ⟨⟩ _; exact ⟨rfl, rfl, rfl⟩
theorem Opcode.yield (x : Ops) : Opcode.Statement (.yield x) := by rintro sp y ⟨⟩ ⟨⟩ _; exact ⟨rfl, rfl, rfl⟩
theorem Opcode.nop (x : Ops) : Opcode.Statement (.nop x) := by rintro sp y ⟨⟩ ⟨⟩ _; exact ⟨rfl, rfl, rfl⟩
theorem Opcode.shfl (x : Ops) : Opcode.Statement (.shfl x) := by rintro sp y ⟨⟩ ⟨⟩ _; exact ⟨rfl, rfl, rfl⟩
theorem Opcode.vote (x : Ops) : Opcode.Statement (.vote x) := by rintro sp y ⟨⟩ ⟨⟩ _; exact ⟨rfl, rfl, rfl⟩
theorem Opcode.matchLanes (x : Ops) : Opcode.Statement (.matchLanes x) := by rintro sp y ⟨⟩ ⟨⟩ _; exact ⟨rfl, rfl, rfl⟩
theorem Opcode.lredux (x : Ops) : Opcode.Statement (.lredux x) := by rintro sp y ⟨⟩ ⟨⟩ _; exact ⟨rfl, rfl, rfl⟩
theorem Opcode.lprfx (x : Ops) : Opcode.Statement (.lprfx x) := by rintro sp y ⟨⟩ ⟨⟩ _; exact ⟨rfl, rfl, rfl⟩
theorem Opcode.elect (x : Ops) : Opcode.Statement (.elect x) := by rintro sp y ⟨⟩ ⟨⟩ _; exact ⟨rfl, rfl, rfl⟩
theorem Opcode.uniassert (x : Ops) : Opcode.Statement (.uniassert x) := by rintro sp y ⟨⟩ ⟨⟩ _; exact ⟨rfl, rfl, rfl⟩
theorem Opcode.fadd (x : Ops) : Opcode.Statement (.fadd x) := by rintro sp y ⟨⟩ ⟨⟩ _; exact ⟨rfl, rfl, rfl⟩
theorem Opcode.fsub (x : Ops) : Opcode.Statement (.fsub x) := by rintro sp y ⟨⟩ ⟨⟩ _; exact ⟨rfl, rfl, rfl⟩
theorem Opcode.fmul (x : Ops) : Opcode.Statement (.fmul x) := by rintro sp y ⟨⟩ ⟨⟩ _; exact ⟨rfl, rfl, rfl⟩
theorem Opcode.ffma (x : Ops) : Opcode.Statement (.ffma x) := by rintro sp y ⟨⟩ ⟨⟩ _; exact ⟨rfl, rfl, rfl⟩
theorem Opcode.ffmaF64Short (x : Ops) : Opcode.Statement (.ffmaF64Short x) := by rintro sp y ⟨⟩ ⟨⟩ _; exact ⟨rfl, rfl, rfl⟩
theorem Opcode.fdiv (x : Ops) : Opcode.Statement (.fdiv x) := by rintro sp y ⟨⟩ ⟨⟩ _; exact ⟨rfl, rfl, rfl⟩
theorem Opcode.fsqrt (x : Ops) : Opcode.Statement (.fsqrt x) := by rintro sp y ⟨⟩ ⟨⟩ _; exact ⟨rfl, rfl, rfl⟩
theorem Opcode.fmin (x : Ops) : Opcode.Statement (.fmin x) := by rintro sp y ⟨⟩ ⟨⟩ _; exact ⟨rfl, rfl, rfl⟩
theorem Opcode.fmax (x : Ops) : Opcode.Statement (.fmax x) := by rintro sp y ⟨⟩ ⟨⟩ _; exact ⟨rfl, rfl, rfl⟩
theorem Opcode.frcp (x : Ops) : Opcode.Statement (.frcp x) := by rintro sp y ⟨⟩ ⟨⟩ _; exact ⟨rfl, rfl, rfl⟩
theorem Opcode.frsq (x : Ops) : Opcode.Statement (.frsq x) := by rintro sp y ⟨⟩ ⟨⟩ _; exact ⟨rfl, rfl, rfl⟩
theorem Opcode.fex2 (x : Ops) : Opcode.Statement (.fex2 x) := by rintro sp y ⟨⟩ ⟨⟩ _; exact ⟨rfl, rfl, rfl⟩
theorem Opcode.flg2 (x : Ops) : Opcode.Statement (.flg2 x) := by rintro sp y ⟨⟩ ⟨⟩ _; exact ⟨rfl, rfl, rfl⟩
theorem Opcode.fsin (x : Ops) : Opcode.Statement (.fsin x) := by rintro sp y ⟨⟩ ⟨⟩ _; exact ⟨rfl, rfl, rfl⟩
theorem Opcode.fcos (x : Ops) : Opcode.Statement (.fcos x) := by rintro sp y ⟨⟩ ⟨⟩ _; exact ⟨rfl, rfl, rfl⟩
theorem Opcode.fcmp (x : Ops) : Opcode.Statement (.fcmp x) := by rintro sp y ⟨⟩ ⟨⟩ _; exact ⟨rfl, rfl, rfl⟩
theorem Opcode.fclass (x : Ops) : Opcode.Statement (.fclass x) := by rintro sp y ⟨⟩ ⟨⟩ _; exact ⟨rfl, rfl, rfl⟩
theorem Opcode.frnd (x : Ops) : Opcode.Statement (.frnd x) := by rintro sp y ⟨⟩ ⟨⟩ _; exact ⟨rfl, rfl, rfl⟩
theorem Opcode.fgetexp (x : Ops) : Opcode.Statement (.fgetexp x) := by rintro sp y ⟨⟩ ⟨⟩ _; exact ⟨rfl, rfl, rfl⟩
theorem Opcode.fldexp (x : Ops) : Opcode.Statement (.fldexp x) := by rintro sp y ⟨⟩ ⟨⟩ _; exact ⟨rfl, rfl, rfl⟩
theorem Opcode.fcpys (x : Ops) : Opcode.Statement (.fcpys x) := by rintro sp y ⟨⟩ ⟨⟩ _; exact ⟨rfl, rfl, rfl⟩
theorem Opcode.fcvt (x : Ops) : Opcode.Statement (.fcvt x) := by rintro sp y ⟨⟩ ⟨⟩ _; exact ⟨rfl, rfl, rfl⟩
theorem Opcode.f2i (x : Ops) : Opcode.Statement (.f2i x) := by rintro sp y ⟨⟩ ⟨⟩ _; exact ⟨rfl, rfl, rfl⟩
theorem Opcode.i2f (x : Ops) : Opcode.Statement (.i2f x) := by rintro sp y ⟨⟩ ⟨⟩ _; exact ⟨rfl, rfl, rfl⟩
theorem Opcode.fstat (x : Ops) : Opcode.Statement (.fstat x) := by rintro sp y ⟨⟩ ⟨⟩ _; exact ⟨rfl, rfl, rfl⟩
theorem Opcode.pkadd (x : Ops) : Opcode.Statement (.pkadd x) := by rintro sp y ⟨⟩ ⟨⟩ _; exact ⟨rfl, rfl, rfl⟩
theorem Opcode.pkfma (x : Ops) : Opcode.Statement (.pkfma x) := by rintro sp y ⟨⟩ ⟨⟩ _; exact ⟨rfl, rfl, rfl⟩
theorem Opcode.dot4 (x : Ops) : Opcode.Statement (.dot4 x) := by rintro sp y ⟨⟩ ⟨⟩ _; exact ⟨rfl, rfl, rfl⟩
theorem Opcode.dot2 (x : Ops) : Opcode.Statement (.dot2 x) := by rintro sp y ⟨⟩ ⟨⟩ _; exact ⟨rfl, rfl, rfl⟩
theorem Opcode.ld (x : Ops) : Opcode.Statement (.ld x) := by rintro sp y ⟨⟩ ⟨⟩ _; exact ⟨rfl, rfl, rfl⟩
theorem Opcode.lds (x : Ops) : Opcode.Statement (.lds x) := by rintro sp y ⟨⟩ ⟨⟩ _; exact ⟨rfl, rfl, rfl⟩
theorem Opcode.ldc (x : Ops) : Opcode.Statement (.ldc x) := by rintro sp y ⟨⟩ ⟨⟩ _; exact ⟨rfl, rfl, rfl⟩
theorem Opcode.st (x : Ops) : Opcode.Statement (.st x) := by rintro sp y ⟨⟩ ⟨⟩ _; exact ⟨rfl, rfl, rfl⟩
theorem Opcode.sts (x : Ops) : Opcode.Statement (.sts x) := by rintro sp y ⟨⟩ ⟨⟩ _; exact ⟨rfl, rfl, rfl⟩
theorem Opcode.ldf (x : Ops) : Opcode.Statement (.ldf x) := by rintro sp y ⟨⟩ ⟨⟩ _; exact ⟨rfl, rfl, rfl⟩
theorem Opcode.stf (x : Ops) : Opcode.Statement (.stf x) := by rintro sp y ⟨⟩ ⟨⟩ _; exact ⟨rfl, rfl, rfl⟩
theorem Opcode.testf (x : Ops) : Opcode.Statement (.testf x) := by rintro sp y ⟨⟩ ⟨⟩ _; exact ⟨rfl, rfl, rfl⟩
theorem Opcode.atom (x : Ops) : Opcode.Statement (.atom x) := by rintro sp y ⟨⟩ ⟨⟩ _; exact ⟨rfl, rfl, rfl⟩
theorem Opcode.atomCas (x : Ops) : Opcode.Statement (.atomCas x) := by rintro sp y ⟨⟩ ⟨⟩ _; exact ⟨rfl, rfl, rfl⟩
theorem Opcode.red (x : Ops) : Opcode.Statement (.red x) := by rintro sp y ⟨⟩ ⟨⟩ _; exact ⟨rfl, rfl, rfl⟩
theorem Opcode.fence (x : Ops) : Opcode.Statement (.fence x) := by rintro sp y ⟨⟩ ⟨⟩ _; exact ⟨rfl, rfl, rfl⟩
theorem Opcode.ifence (x : Ops) : Opcode.Statement (.ifence x) := by rintro sp y ⟨⟩ ⟨⟩ _; exact ⟨rfl, rfl, rfl⟩
theorem Opcode.awin (x : Ops) : Opcode.Statement (.awin x) := by rintro sp y ⟨⟩ ⟨⟩ _; exact ⟨rfl, rfl, rfl⟩
theorem Opcode.isspace (x : Ops) : Opcode.Statement (.isspace x) := by rintro sp y ⟨⟩ ⟨⟩ _; exact ⟨rfl, rfl, rfl⟩
theorem Opcode.pref (x : Ops) : Opcode.Statement (.pref x) := by rintro sp y ⟨⟩ ⟨⟩ _; exact ⟨rfl, rfl, rfl⟩
theorem Opcode.barInit (x : Ops) : Opcode.Statement (.barInit x) := by rintro sp y ⟨⟩ ⟨⟩ _; exact ⟨rfl, rfl, rfl⟩
theorem Opcode.barArrive (x : Ops) : Opcode.Statement (.barArrive x) := by rintro sp y ⟨⟩ ⟨⟩ _; exact ⟨rfl, rfl, rfl⟩
theorem Opcode.barExpect (x : Ops) : Opcode.Statement (.barExpect x) := by rintro sp y ⟨⟩ ⟨⟩ _; exact ⟨rfl, rfl, rfl⟩
theorem Opcode.barWait (x : Ops) : Opcode.Statement (.barWait x) := by rintro sp y ⟨⟩ ⟨⟩ _; exact ⟨rfl, rfl, rfl⟩
theorem Opcode.barTest (x : Ops) : Opcode.Statement (.barTest x) := by rintro sp y ⟨⟩ ⟨⟩ _; exact ⟨rfl, rfl, rfl⟩
theorem Opcode.tlwait (x : Ops) : Opcode.Statement (.tlwait x) := by rintro sp y ⟨⟩ ⟨⟩ _; exact ⟨rfl, rfl, rfl⟩
theorem Opcode.tlread (x : Ops) : Opcode.Statement (.tlread x) := by rintro sp y ⟨⟩ ⟨⟩ _; exact ⟨rfl, rfl, rfl⟩
theorem Opcode.scopew (x : Ops) : Opcode.Statement (.scopew x) := by rintro sp y ⟨⟩ ⟨⟩ _; exact ⟨rfl, rfl, rfl⟩
theorem Opcode.scopebind (x : Ops) : Opcode.Statement (.scopebind x) := by rintro sp y ⟨⟩ ⟨⟩ _; exact ⟨rfl, rfl, rfl⟩
theorem Opcode.scopeq (x : Ops) : Opcode.Statement (.scopeq x) := by rintro sp y ⟨⟩ ⟨⟩ _; exact ⟨rfl, rfl, rfl⟩
theorem Opcode.scoperet (x : Ops) : Opcode.Statement (.scoperet x) := by rintro sp y ⟨⟩ ⟨⟩ _; exact ⟨rfl, rfl, rfl⟩
theorem Opcode.hmk (x : Ops) : Opcode.Statement (.hmk x) := by rintro sp y ⟨⟩ ⟨⟩ _; exact ⟨rfl, rfl, rfl⟩
theorem Opcode.cpy (x : Ops) : Opcode.Statement (.cpy x) := by rintro sp y ⟨⟩ ⟨⟩ _; exact ⟨rfl, rfl, rfl⟩
theorem Opcode.cpyg (x : Ops) : Opcode.Statement (.cpyg x) := by rintro sp y ⟨⟩ ⟨⟩ _; exact ⟨rfl, rfl, rfl⟩
theorem Opcode.wld (x : Ops) : Opcode.Statement (.wld x) := by rintro sp y ⟨⟩ ⟨⟩ _; exact ⟨rfl, rfl, rfl⟩
theorem Opcode.wsel (x : Ops) : Opcode.Statement (.wsel x) := by rintro sp y ⟨⟩ ⟨⟩ _; exact ⟨rfl, rfl, rfl⟩
theorem Opcode.mma (x : Ops) : Opcode.Statement (.mma x) := by rintro sp y ⟨⟩ ⟨⟩ _; exact ⟨rfl, rfl, rfl⟩
theorem Opcode.mmam (x : Ops) : Opcode.Statement (.mmam x) := by rintro sp y ⟨⟩ ⟨⟩ _; exact ⟨rfl, rfl, rfl⟩
theorem Opcode.aclr (x : Ops) : Opcode.Statement (.aclr x) := by rintro sp y ⟨⟩ ⟨⟩ _; exact ⟨rfl, rfl, rfl⟩
theorem Opcode.adrn (x : Ops) : Opcode.Statement (.adrn x) := by rintro sp y ⟨⟩ ⟨⟩ _; exact ⟨rfl, rfl, rfl⟩
theorem Opcode.epld (x : Ops) : Opcode.Statement (.epld x) := by rintro sp y ⟨⟩ ⟨⟩ _; exact ⟨rfl, rfl, rfl⟩
theorem Opcode.msave (x : Ops) : Opcode.Statement (.msave x) := by rintro sp y ⟨⟩ ⟨⟩ _; exact ⟨rfl, rfl, rfl⟩
theorem Opcode.mres (x : Ops) : Opcode.Statement (.mres x) := by rintro sp y ⟨⟩ ⟨⟩ _; exact ⟨rfl, rfl, rfl⟩
theorem Opcode.qnt (x : Ops) : Opcode.Statement (.qnt x) := by rintro sp y ⟨⟩ ⟨⟩ _; exact ⟨rfl, rfl, rfl⟩
theorem Opcode.qwait (x : Ops) : Opcode.Statement (.qwait x) := by rintro sp y ⟨⟩ ⟨⟩ _; exact ⟨rfl, rfl, rfl⟩
theorem Opcode.mld (x : Ops) : Opcode.Statement (.mld x) := by rintro sp y ⟨⟩ ⟨⟩ _; exact ⟨rfl, rfl, rfl⟩
theorem Opcode.mst (x : Ops) : Opcode.Statement (.mst x) := by rintro sp y ⟨⟩ ⟨⟩ _; exact ⟨rfl, rfl, rfl⟩
theorem Opcode.mset (x : Ops) : Opcode.Statement (.mset x) := by rintro sp y ⟨⟩ ⟨⟩ _; exact ⟨rfl, rfl, rfl⟩
theorem Opcode.mmov (x : Ops) : Opcode.Statement (.mmov x) := by rintro sp y ⟨⟩ ⟨⟩ _; exact ⟨rfl, rfl, rfl⟩
theorem Opcode.madd (x : Ops) : Opcode.Statement (.madd x) := by rintro sp y ⟨⟩ ⟨⟩ _; exact ⟨rfl, rfl, rfl⟩
theorem Opcode.msub (x : Ops) : Opcode.Statement (.msub x) := by rintro sp y ⟨⟩ ⟨⟩ _; exact ⟨rfl, rfl, rfl⟩
theorem Opcode.mmul (x : Ops) : Opcode.Statement (.mmul x) := by rintro sp y ⟨⟩ ⟨⟩ _; exact ⟨rfl, rfl, rfl⟩
theorem Opcode.mscl (x : Ops) : Opcode.Statement (.mscl x) := by rintro sp y ⟨⟩ ⟨⟩ _; exact ⟨rfl, rfl, rfl⟩
theorem Opcode.mfma (x : Ops) : Opcode.Statement (.mfma x) := by rintro sp y ⟨⟩ ⟨⟩ _; exact ⟨rfl, rfl, rfl⟩
theorem Opcode.mrelu (x : Ops) : Opcode.Statement (.mrelu x) := by rintro sp y ⟨⟩ ⟨⟩ _; exact ⟨rfl, rfl, rfl⟩
theorem Opcode.mexp (x : Ops) : Opcode.Statement (.mexp x) := by rintro sp y ⟨⟩ ⟨⟩ _; exact ⟨rfl, rfl, rfl⟩
theorem Opcode.msigm (x : Ops) : Opcode.Statement (.msigm x) := by rintro sp y ⟨⟩ ⟨⟩ _; exact ⟨rfl, rfl, rfl⟩
theorem Opcode.mtanh (x : Ops) : Opcode.Statement (.mtanh x) := by rintro sp y ⟨⟩ ⟨⟩ _; exact ⟨rfl, rfl, rfl⟩
theorem Opcode.mrcp (x : Ops) : Opcode.Statement (.mrcp x) := by rintro sp y ⟨⟩ ⟨⟩ _; exact ⟨rfl, rfl, rfl⟩
theorem Opcode.mcol (x : Ops) : Opcode.Statement (.mcol x) := by rintro sp y ⟨⟩ ⟨⟩ _; exact ⟨rfl, rfl, rfl⟩
theorem Opcode.tst (x : Ops) : Opcode.Statement (.tst x) := by rintro sp y ⟨⟩ ⟨⟩ _; exact ⟨rfl, rfl, rfl⟩
theorem Opcode.tred (x : Ops) : Opcode.Statement (.tred x) := by rintro sp y ⟨⟩ ⟨⟩ _; exact ⟨rfl, rfl, rfl⟩
theorem Opcode.tideClose (x : Ops) : Opcode.Statement (.tideClose x) := by rintro sp y ⟨⟩ ⟨⟩ _; exact ⟨rfl, rfl, rfl⟩
theorem Opcode.tideWait (x : Ops) : Opcode.Statement (.tideWait x) := by rintro sp y ⟨⟩ ⟨⟩ _; exact ⟨rfl, rfl, rfl⟩
theorem Opcode.tideQuery (x : Ops) : Opcode.Statement (.tideQuery x) := by rintro sp y ⟨⟩ ⟨⟩ _; exact ⟨rfl, rfl, rfl⟩
theorem Opcode.rld (x : Ops) : Opcode.Statement (.rld x) := by rintro sp y ⟨⟩ ⟨⟩ _; exact ⟨rfl, rfl, rfl⟩
theorem Opcode.ratom (x : Ops) : Opcode.Statement (.ratom x) := by rintro sp y ⟨⟩ ⟨⟩ _; exact ⟨rfl, rfl, rfl⟩
theorem Opcode.send (x : Ops) : Opcode.Statement (.send x) := by rintro sp y ⟨⟩ ⟨⟩ _; exact ⟨rfl, rfl, rfl⟩
theorem Opcode.arm (x : Ops) : Opcode.Statement (.arm x) := by rintro sp y ⟨⟩ ⟨⟩ _; exact ⟨rfl, rfl, rfl⟩
theorem Opcode.disarm (x : Ops) : Opcode.Statement (.disarm x) := by rintro sp y ⟨⟩ ⟨⟩ _; exact ⟨rfl, rfl, rfl⟩
theorem Opcode.launch (x : Ops) : Opcode.Statement (.launch x) := by rintro sp y ⟨⟩ ⟨⟩ _; exact ⟨rfl, rfl, rfl⟩
theorem Opcode.hint (x : Ops) : Opcode.Statement (.hint x) := by rintro sp y ⟨⟩ ⟨⟩ _; exact ⟨rfl, rfl, rfl⟩
theorem Opcode.trap (x : Ops) : Opcode.Statement (.trap x) := by rintro sp y ⟨⟩ ⟨⟩ _; exact ⟨rfl, rfl, rfl⟩
theorem Opcode.tret (x : Ops) : Opcode.Statement (.tret x) := by rintro sp y ⟨⟩ ⟨⟩ _; exact ⟨rfl, rfl, rfl⟩
theorem Opcode.csave (x : Ops) : Opcode.Statement (.csave x) := by rintro sp y ⟨⟩ ⟨⟩ _; exact ⟨rfl, rfl, rfl⟩
theorem Opcode.crest (x : Ops) : Opcode.Statement (.crest x) := by rintro sp y ⟨⟩ ⟨⟩ _; exact ⟨rfl, rfl, rfl⟩
theorem Opcode.sysr (x : Ops) : Opcode.Statement (.sysr x) := by rintro sp y ⟨⟩ ⟨⟩ _; exact ⟨rfl, rfl, rfl⟩
theorem Opcode.sysw (x : Ops) : Opcode.Statement (.sysw x) := by rintro sp y ⟨⟩ ⟨⟩ _; exact ⟨rfl, rfl, rfl⟩
theorem Opcode.cap (x : Ops) : Opcode.Statement (.cap x) := by rintro sp y ⟨⟩ ⟨⟩ _; exact ⟨rfl, rfl, rfl⟩
theorem Opcode.halt (x : Ops) : Opcode.Statement (.halt x) := by rintro sp y ⟨⟩ ⟨⟩ _; exact ⟨rfl, rfl, rfl⟩
theorem Opcode.evqPop (x : Ops) : Opcode.Statement (.evqPop x) := by rintro sp y ⟨⟩ ⟨⟩ _; exact ⟨rfl, rfl, rfl⟩
theorem Opcode.trel (x : Ops) : Opcode.Statement (.trel x) := by rintro sp y ⟨⟩ ⟨⟩ _; exact ⟨rfl, rfl, rfl⟩
theorem Opcode.byteAbsDiffSum (x : Ops) : Opcode.Statement (.byteAbsDiffSum x) := by rintro sp y ⟨⟩ ⟨⟩ _; exact ⟨rfl, rfl, rfl⟩
theorem Opcode.unassignedOpcode (w : Word) : Opcode.Statement (.unassignedOpcode w) := opcode_of_none rfl
theorem Opcode.retiredOperation (k : BitVec 6) (x : Ops) : Opcode.Statement (.retiredOperation k x) := by
  intro sp y h1 h2 h3
  cases h1
  cases h2
  have hk : k.toNat < 64 := k.isLt
  have h1 : k.toNat ≠ 1 := fun e => by
    have : k = 1 := BitVec.eq_of_toNat_eq e
    subst this
    cases h3
  have h2 : BitVec.ofNat 6 (896 + k.toNat - 896) = k := by
    apply BitVec.eq_of_toNat_eq
    rw [BitVec.toNat_ofNat]
    omega
  refine ⟨?_, ?_, ?_⟩
  · show ofOpcode (896 + k.toNat) x = _
    rw [ofOpcode_retired _ _ (by omega) (by omega) (by omega), h2]
  · show Nat.blt (896 + k.toNat) 1024 = true
    rw [Nat.blt_eq]
    omega
  · show ([Form.A].all fun f => match f with | .A => !formatB (896 + k.toNat) | .B => formatB (896 + k.toNat) | _ => true) = true
    have : formatB (896 + k.toNat) = false := by
      simp only [formatB, List.contains_eq_mem, List.mem_cons, List.not_mem_nil, or_false, decide_eq_false_iff_not]
      omega
    simp [this]

theorem Opcode.resultArrival (g : GangRef) (k : Nat) : Opcode.Statement (.resultArrival g k) := opcode_of_none rfl
theorem Opcode.registerAllocation (g : GangRef) (lanes : LaneMask) : Opcode.Statement (.registerAllocation g lanes) := opcode_of_none rfl
theorem Opcode.spillComplete (g : GangRef) : Opcode.Statement (.spillComplete g) := opcode_of_none rfl
theorem Opcode.gangRefill (g : GangRef) : Opcode.Statement (.gangRefill g) := opcode_of_none rfl
theorem Opcode.bundleReformation (core : CoreRef) (sub : Nat) : Opcode.Statement (.bundleReformation core sub) := opcode_of_none rfl
theorem Opcode.ldfWaitEnd (g : GangRef) (lanes : LaneMask) : Opcode.Statement (.ldfWaitEnd g lanes) := opcode_of_none rfl
theorem Opcode.barWaitEnd (g : GangRef) (lanes : LaneMask) : Opcode.Statement (.barWaitEnd g lanes) := opcode_of_none rfl
theorem Opcode.tlwaitEnd (g : GangRef) (lanes : LaneMask) : Opcode.Statement (.tlwaitEnd g lanes) := opcode_of_none rfl
theorem Opcode.qwaitEnd (g : GangRef) (lanes : LaneMask) : Opcode.Statement (.qwaitEnd g lanes) := opcode_of_none rfl
theorem Opcode.tideWaitEnd (g : GangRef) (lanes : LaneMask) : Opcode.Statement (.tideWaitEnd g lanes) := opcode_of_none rfl
theorem Opcode.tideCloseUnblock (g : GangRef) (lanes : LaneMask) : Opcode.Statement (.tideCloseUnblock g lanes) := opcode_of_none rfl
theorem Opcode.msaveDone (g : GangRef) (lanes : LaneMask) : Opcode.Statement (.msaveDone g lanes) := opcode_of_none rfl
theorem Opcode.mresDone (g : GangRef) (lanes : LaneMask) : Opcode.Statement (.mresDone g lanes) := opcode_of_none rfl
theorem Opcode.copyStart (core : CoreRef) (k : Nat) : Opcode.Statement (.copyStart core k) := opcode_of_none rfl
theorem Opcode.copyByteLanding (core : CoreRef) (k : Nat) (n : Nat) : Opcode.Statement (.copyByteLanding core k n) := opcode_of_none rfl
theorem Opcode.copyFollowOnEntry (core : CoreRef) (k : Nat) : Opcode.Statement (.copyFollowOnEntry core k) := opcode_of_none rfl
theorem Opcode.copyComplete (core : CoreRef) (k : Nat) : Opcode.Statement (.copyComplete core k) := opcode_of_none rfl
theorem Opcode.wldExecute (core : CoreRef) : Opcode.Statement (.wldExecute core) := opcode_of_none rfl
theorem Opcode.wselLatch (core : CoreRef) : Opcode.Statement (.wselLatch core) := opcode_of_none rfl
theorem Opcode.mmaPass (core : CoreRef) : Opcode.Statement (.mmaPass core) := opcode_of_none rfl
theorem Opcode.aclrExecute (core : CoreRef) : Opcode.Statement (.aclrExecute core) := opcode_of_none rfl
theorem Opcode.epldLoad (core : CoreRef) : Opcode.Statement (.epldLoad core) := opcode_of_none rfl
theorem Opcode.drain (core : CoreRef) : Opcode.Statement (.drain core) := opcode_of_none rfl
theorem Opcode.matrixCommandComplete (core : CoreRef) : Opcode.Statement (.matrixCommandComplete core) := opcode_of_none rfl
theorem Opcode.qntExecute (dev : Nat) (die : Nat) : Opcode.Statement (.qntExecute dev die) := opcode_of_none rfl
theorem Opcode.qntComplete (dev : Nat) (die : Nat) : Opcode.Statement (.qntComplete dev die) := opcode_of_none rfl
theorem Opcode.lovageService (dev : Nat) (die : Nat) : Opcode.Statement (.lovageService dev die) := opcode_of_none rfl
theorem Opcode.taskDispatch (chip : Nat) (handle : Nat) (task : Nat) (core : CoreRef) (base : Nat) (priv : Nat) : Opcode.Statement (.taskDispatch chip handle task core base priv) := opcode_of_none rfl
theorem Opcode.taskRetire (chip : Nat) (task : Nat) : Opcode.Statement (.taskRetire chip task) := opcode_of_none rfl
theorem Opcode.taskMigration (chip : Nat) (task : Nat) (core : CoreRef) (base : Nat) : Opcode.Statement (.taskMigration chip task core base) := opcode_of_none rfl
theorem Opcode.sliceExpiry (chip : Nat) : Opcode.Statement (.sliceExpiry chip) := opcode_of_none rfl
theorem Opcode.taskResume (chip : Nat) (task : Nat) (core : CoreRef) (base : Nat) : Opcode.Statement (.taskResume chip task core base) := opcode_of_none rfl
theorem Opcode.arrivalHintReceive (dev : Nat) (chip : Nat) (peer : Nat) : Opcode.Statement (.arrivalHintReceive dev chip peer) := opcode_of_none rfl
theorem Opcode.hintAgreementTimeout (dev : Nat) (chip : Nat) : Opcode.Statement (.hintAgreementTimeout dev chip) := opcode_of_none rfl
theorem Opcode.waitBudgetExpiry (chip : Nat) (core : CoreRef) : Opcode.Statement (.waitBudgetExpiry chip core) := opcode_of_none rfl
theorem Opcode.qtailWrite (chip : Nat) (q : Nat) (value : Nat) : Opcode.Statement (.qtailWrite chip q value) := opcode_of_none rfl
theorem Opcode.queueResume (chip : Nat) (q : Nat) : Opcode.Statement (.queueResume chip q) := opcode_of_none rfl
theorem Opcode.launchAcceptance (chip : Nat) (q : Nat) : Opcode.Statement (.launchAcceptance chip q) := opcode_of_none rfl
theorem Opcode.launchTranslation (chip : Nat) (handle : Nat) : Opcode.Statement (.launchTranslation chip handle) := opcode_of_none rfl
theorem Opcode.xlfaultRetry (chip : Nat) : Opcode.Statement (.xlfaultRetry chip) := opcode_of_none rfl
theorem Opcode.xlfaultAbort (chip : Nat) : Opcode.Statement (.xlfaultAbort chip) := opcode_of_none rfl
theorem Opcode.ltWrite (chip : Nat) (n : Nat) (value : DWord) : Opcode.Statement (.ltWrite chip n value) := opcode_of_none rfl
theorem Opcode.eventRecordPost (core : CoreRef) (chip : Nat) : Opcode.Statement (.eventRecordPost core chip) := opcode_of_none rfl
theorem Opcode.controlRoutineEntry (core : CoreRef) (chip : Nat) : Opcode.Statement (.controlRoutineEntry core chip) := opcode_of_none rfl
theorem Opcode.controlCoreLimit (core : CoreRef) : Opcode.Statement (.controlCoreLimit core) := opcode_of_none rfl
theorem Opcode.ccstatWrite (chip : Nat) (value : DWord) : Opcode.Statement (.ccstatWrite chip value) := opcode_of_none rfl
theorem Opcode.coresWrite (chip : Nat) (value : DWord) : Opcode.Statement (.coresWrite chip value) := opcode_of_none rfl
theorem Opcode.granuleMigration (chip : Nat) (granule : Nat) (tier : Nat) : Opcode.Statement (.granuleMigration chip granule tier) := opcode_of_none rfl
theorem Opcode.granuleMigrationComplete (chip : Nat) (granule : Nat) : Opcode.Statement (.granuleMigrationComplete chip granule) := opcode_of_none rfl
theorem Opcode.hostInvalidation (chip : Nat) (page : Nat) : Opcode.Statement (.hostInvalidation chip page) := opcode_of_none rfl
theorem Opcode.hostAtomicOp (chip : Nat) (addr : DWord) (op : Nat) (wide : Bool) (value cmp : DWord) (phase : HostAtomicPhase) : Opcode.Statement (.hostAtomicOp chip addr op wide value cmp phase) := opcode_of_none rfl
theorem Opcode.packetDeparture (k : Nat) : Opcode.Statement (.packetDeparture k) := opcode_of_none rfl
theorem Opcode.sendOutboundEntry (core : CoreRef) (k : Nat) : Opcode.Statement (.sendOutboundEntry core k) := opcode_of_none rfl
theorem Opcode.sendPayloadRead (chip : Nat) (k : Nat) : Opcode.Statement (.sendPayloadRead chip k) := opcode_of_none rfl
theorem Opcode.messageDelivery (k : Nat) : Opcode.Statement (.messageDelivery k) := opcode_of_none rfl
theorem Opcode.firedLaunchPlacement (chip : Nat) (k : Nat) : Opcode.Statement (.firedLaunchPlacement chip k) := opcode_of_none rfl
theorem Opcode.inboundLogConsume (chip : Nat) : Opcode.Statement (.inboundLogConsume chip) := opcode_of_none rfl
theorem Opcode.rldServe (k : Nat) : Opcode.Statement (.rldServe k) := opcode_of_none rfl
theorem Opcode.mailboxAtomicArrival (k : Nat) : Opcode.Statement (.mailboxAtomicArrival k) := opcode_of_none rfl
theorem Opcode.remoteReplyArrival (k : Nat) : Opcode.Statement (.remoteReplyArrival k) := opcode_of_none rfl
theorem Opcode.tidalWriteArrival (k : Nat) : Opcode.Statement (.tidalWriteArrival k) := opcode_of_none rfl
theorem Opcode.closeRecordArrival (k : Nat) : Opcode.Statement (.closeRecordArrival k) := opcode_of_none rfl
theorem Opcode.tideTurn (chip : Nat) : Opcode.Statement (.tideTurn chip) := opcode_of_none rfl
theorem Opcode.samtailWrite (dev : Nat) (value : DWord) : Opcode.Statement (.samtailWrite dev value) := opcode_of_none rfl
theorem Opcode.hold (dev : Nat) : Opcode.Statement (.hold dev) := opcode_of_none rfl
theorem Opcode.xfer (dev : Nat) : Opcode.Statement (.xfer dev) := opcode_of_none rfl
theorem Opcode.wvct (dev : Nat) : Opcode.Statement (.wvct dev) := opcode_of_none rfl
theorem Opcode.wrlt (dev : Nat) : Opcode.Statement (.wrlt dev) := opcode_of_none rfl
theorem Opcode.release (dev : Nat) : Opcode.Statement (.release dev) := opcode_of_none rfl
theorem Opcode.linkLaneLoss (dev : Nat) (plane : Nat) (lanes : Nat) : Opcode.Statement (.linkLaneLoss dev plane lanes) := opcode_of_none rfl
theorem Opcode.linkBufferRetire (dev : Nat) (plane : Nat) (flits : Nat) : Opcode.Statement (.linkBufferRetire dev plane flits) := opcode_of_none rfl
theorem Opcode.linkRetrainComplete (dev : Nat) (plane : Nat) : Opcode.Statement (.linkRetrainComplete dev plane) := opcode_of_none rfl
theorem Opcode.linkRepair (dev : Nat) (plane : Nat) : Opcode.Statement (.linkRepair dev plane) := opcode_of_none rfl
theorem Opcode.mcsetWrite (dev : Nat) (n : Nat) (value : DWord) : Opcode.Statement (.mcsetWrite dev n value) := opcode_of_none rfl
theorem Opcode.gselWrite (dev : Nat) (value : DWord) : Opcode.Statement (.gselWrite dev value) := opcode_of_none rfl
theorem Opcode.mbxbaseWrite (chip : Nat) (n : Nat) (value : DWord) : Opcode.Statement (.mbxbaseWrite chip n value) := opcode_of_none rfl
theorem Opcode.mbxsizeWrite (chip : Nat) (n : Nat) (value : DWord) : Opcode.Statement (.mbxsizeWrite chip n value) := opcode_of_none rfl
theorem Opcode.rxbaseWrite (chip : Nat) (n : Nat) (value : DWord) : Opcode.Statement (.rxbaseWrite chip n value) := opcode_of_none rfl
theorem Opcode.rxctlWrite (chip : Nat) (n : Nat) (value : DWord) : Opcode.Statement (.rxctlWrite chip n value) := opcode_of_none rfl
theorem Opcode.trbaseWrite (chip : Nat) (n : Nat) (value : DWord) : Opcode.Statement (.trbaseWrite chip n value) := opcode_of_none rfl
theorem Opcode.trwinWrite (chip : Nat) (n : Nat) (value : DWord) : Opcode.Statement (.trwinWrite chip n value) := opcode_of_none rfl
theorem Opcode.trctlWrite (chip : Nat) (n : Nat) (value : DWord) : Opcode.Statement (.trctlWrite chip n value) := opcode_of_none rfl
theorem Opcode.trflagWrite (chip : Nat) (n : Nat) (value : DWord) : Opcode.Statement (.trflagWrite chip n value) := opcode_of_none rfl
theorem Opcode.tlogWrite (chip : Nat) (value : DWord) : Opcode.Statement (.tlogWrite chip value) := opcode_of_none rfl
theorem Opcode.migrationEnable (chip : Nat) (value : DWord) : Opcode.Statement (.migrationEnable chip value) := opcode_of_none rfl
theorem Opcode.migrationRound (chip : Nat) : Opcode.Statement (.migrationRound chip) := opcode_of_none rfl
theorem Opcode.migrationRoundComplete (chip : Nat) : Opcode.Statement (.migrationRoundComplete chip) := opcode_of_none rfl
theorem Opcode.migrationDisable (chip : Nat) : Opcode.Statement (.migrationDisable chip) := opcode_of_none rfl
theorem Opcode.trapEntry (g : GangRef) : Opcode.Statement (.trapEntry g) := opcode_of_none rfl
theorem Opcode.trapHandlerEnable (chip : Nat) (value : DWord) : Opcode.Statement (.trapHandlerEnable chip value) := opcode_of_none rfl
theorem Opcode.trapHandlerDisable (chip : Nat) : Opcode.Statement (.trapHandlerDisable chip) := opcode_of_none rfl
theorem Opcode.faultRecordDelivery (chip : Nat) : Opcode.Statement (.faultRecordDelivery chip) := opcode_of_none rfl
theorem Opcode.fqheadWrite (chip : Nat) (value : DWord) : Opcode.Statement (.fqheadWrite chip value) := opcode_of_none rfl
theorem Opcode.gen (dev : Nat) (cmd : DWord) : Opcode.Statement (.gen dev cmd) := opcode_of_none rfl
theorem Opcode.load (dev : Nat) (cmd : DWord) : Opcode.Statement (.load dev cmd) := opcode_of_none rfl
theorem Opcode.activate (dev : Nat) (cmd : DWord) : Opcode.Statement (.activate dev cmd) := opcode_of_none rfl
theorem Opcode.revoke (dev : Nat) (cmd : DWord) : Opcode.Statement (.revoke dev cmd) := opcode_of_none rfl
theorem Opcode.erase (dev : Nat) (cmd : DWord) : Opcode.Statement (.erase dev cmd) := opcode_of_none rfl
theorem Opcode.keyReencryptComplete (dev : Nat) (slot : Nat) : Opcode.Statement (.keyReencryptComplete dev slot) := opcode_of_none rfl
theorem Opcode.linkCounterWarn (dev : Nat) (slot : Nat) : Opcode.Statement (.linkCounterWarn dev slot) := opcode_of_none rfl
theorem Opcode.linkCounterExhausted (dev : Nat) (slot : Nat) : Opcode.Statement (.linkCounterExhausted dev slot) := opcode_of_none rfl
theorem Opcode.lockInterface (dev : Nat) (slot : Nat) : Opcode.Statement (.lockInterface dev slot) := opcode_of_none rfl
theorem Opcode.protectedCreationCommit (dev : Nat) (slot : Nat) : Opcode.Statement (.protectedCreationCommit dev slot) := opcode_of_none rfl
theorem Opcode.startInterface (dev : Nat) (slot : Nat) : Opcode.Statement (.startInterface dev slot) := opcode_of_none rfl
theorem Opcode.stopInterface (dev : Nat) (slot : Nat) : Opcode.Statement (.stopInterface dev slot) := opcode_of_none rfl
theorem Opcode.tdispGetVersion (dev : Nat) (slot : Nat) : Opcode.Statement (.tdispGetVersion dev slot) := opcode_of_none rfl
theorem Opcode.tdispGetCapabilities (dev : Nat) (slot : Nat) : Opcode.Statement (.tdispGetCapabilities dev slot) := opcode_of_none rfl
theorem Opcode.getDeviceInterfaceReport (dev : Nat) (slot : Nat) : Opcode.Statement (.getDeviceInterfaceReport dev slot) := opcode_of_none rfl
theorem Opcode.getDeviceInterfaceState (dev : Nat) (slot : Nat) : Opcode.Statement (.getDeviceInterfaceState dev slot) := opcode_of_none rfl
theorem Opcode.configurationChange (dev : Nat) (slot : Nat) : Opcode.Statement (.configurationChange dev slot) := opcode_of_none rfl
theorem Opcode.functionReset (dev : Nat) (slot : Nat) : Opcode.Statement (.functionReset dev slot) := opcode_of_none rfl
theorem Opcode.spdmGetVersion (dev : Nat) (request : Nat) : Opcode.Statement (.spdmGetVersion dev request) := opcode_of_none rfl
theorem Opcode.spdmGetCapabilities (dev : Nat) (request : Nat) : Opcode.Statement (.spdmGetCapabilities dev request) := opcode_of_none rfl
theorem Opcode.negotiateAlgorithms (dev : Nat) (request : Nat) : Opcode.Statement (.negotiateAlgorithms dev request) := opcode_of_none rfl
theorem Opcode.getDigests (dev : Nat) (request : Nat) : Opcode.Statement (.getDigests dev request) := opcode_of_none rfl
theorem Opcode.getCertificate (dev : Nat) (request : Nat) : Opcode.Statement (.getCertificate dev request) := opcode_of_none rfl
theorem Opcode.challenge (dev : Nat) (request : Nat) : Opcode.Statement (.challenge dev request) := opcode_of_none rfl
theorem Opcode.getMeasurements (dev : Nat) (request : Nat) : Opcode.Statement (.getMeasurements dev request) := opcode_of_none rfl
theorem Opcode.keyExchange (dev : Nat) (request : Nat) : Opcode.Statement (.keyExchange dev request) := opcode_of_none rfl
theorem Opcode.finish (dev : Nat) (request : Nat) : Opcode.Statement (.finish dev request) := opcode_of_none rfl
theorem Opcode.debugUnlockRequest (dev : Nat) (addr : DWord) : Opcode.Statement (.debugUnlockRequest dev addr) := opcode_of_none rfl
theorem Opcode.debugTokenVerified (dev : Nat) (verdict : TokenVerdict) : Opcode.Statement (.debugTokenVerified dev verdict) := opcode_of_none rfl
theorem Opcode.capctlWrite (chip : Nat) (n : Nat) (value : DWord) (level : Level) : Opcode.Statement (.capctlWrite chip n value level) := opcode_of_none rfl
theorem Opcode.deviceReset (dev : Nat) : Opcode.Statement (.deviceReset dev) := opcode_of_none rfl
theorem Opcode.bringUpStage (dev : Nat) (err : Nat) : Opcode.Statement (.bringUpStage dev err) := opcode_of_none rfl
theorem Opcode.registerWrite (place : RegPlace) (index : Nat) (value : DWord) (level : Level) : Opcode.Statement (.registerWrite place index value level) := opcode_of_none rfl
theorem Opcode.coreClockReduction (dev : Nat) (draw : Nat) : Opcode.Statement (.coreClockReduction dev draw) := opcode_of_none rfl
theorem Opcode.haltedCoreResume (core : CoreRef) (reset : Bool) : Opcode.Statement (.haltedCoreResume core reset) := opcode_of_none rfl
theorem Opcode.chipCreation (chip : Nat) (dev : Nat) (slot : Nat) (quota : Nat) (near : Nat) : Opcode.Statement (.chipCreation chip dev slot quota near) := opcode_of_none rfl
theorem Opcode.chipDestruction (chip : Nat) : Opcode.Statement (.chipDestruction chip) := opcode_of_none rfl
theorem Opcode.deliveryAcknowledgement (k : Nat) : Opcode.Statement (.deliveryAcknowledgement k) := opcode_of_none rfl
theorem Opcode.atsPriResponse (chip : Nat) (page : Nat) (answer : HostAnswer) : Opcode.Statement (.atsPriResponse chip page answer) := opcode_of_none rfl
theorem Opcode.ideKm (dev : Nat) (slot : Nat) : Opcode.Statement (.ideKm dev slot) := opcode_of_none rfl
theorem Opcode.powerUngate (core : CoreRef) : Opcode.Statement (.powerUngate core) := opcode_of_none rfl
theorem Opcode.linkQueuesDrained (dev : Nat) (slot : Nat) : Opcode.Statement (.linkQueuesDrained dev slot) := opcode_of_none rfl
theorem Opcode.hostMemoryWrite (place : HostTarget) (addr : DWord) (bytes : List Byte) : Opcode.Statement (.hostMemoryWrite place addr bytes) := opcode_of_none rfl
theorem Opcode.turnGivenUpEarly (chip : Nat) : Opcode.Statement (.turnGivenUpEarly chip) := opcode_of_none rfl

end Sys2Proof.Laws
end

