-- ==== Sys2Proof/Laws/Races.lean ====
section
/-! SUPPORT. What changes nothing but the happens-before record, and the scope of a migration. -/

namespace Sys2Proof.Machine

theorem SameButRaces.refl (s : State) : SameButRaces s s := ⟨rfl, rfl, rfl, rfl, rfl, rfl, rfl, rfl, rfl, fun _ => rfl⟩

theorem SameButRaces.trans {s t u : State} (a : SameButRaces s t) (b : SameButRaces t u) : SameButRaces s u := by
  obtain ⟨a1, a2, a3, a4, a5, a6, a7, a8, a9, a10⟩ := a
  obtain ⟨b1, b2, b3, b4, b5, b6, b7, b8, b9, b10⟩ := b
  exact ⟨b1.trans a1, b2.trans a2, b3.trans a3, b4.trans a4, b5.trans a5, b6.trans a6, b7.trans a7, b8.trans a8, b9.trans a9,
    fun k => (b10 k).trans (a10 k)⟩

/-- A rewrite of a chip that respects the relation keeps two states related. -/
theorem SameButRaces.updChip {s u : State} (h : SameButRaces s u) (n : Nat) (f g : Chip → Chip)
    (hf : ∀ c d : Chip, d.noRaces = c.noRaces → (g d).noRaces = (f c).noRaces) : SameButRaces (s.updChip n f) (u.updChip n g) := by
  obtain ⟨a1, a2, a3, a4, a5, a6, a7, a8, a9, a10⟩ := h
  refine ⟨a1, a2, a3, a4, a5, a6, a7, a8, a9, fun k => ?_⟩
  rw [State.chip?_updChip, State.chip?_updChip]
  have e := a10 k
  split
  · cases hs : s.chip? k <;> cases hu : u.chip? k <;> simp_all only [Option.map, Option.some.injEq, reduceCtorEq]
    exact hf _ _ e
  · exact e

/-- A change of a chip's happens-before record. -/
theorem SameButRaces.hb (s : State) (n : Nat) (f : Hb → Hb) : SameButRaces s (s.updChip n fun c => { c with hb := f c.hb }) := by
  refine ⟨rfl, rfl, rfl, rfl, rfl, rfl, rfl, rfl, rfl, fun k => ?_⟩
  rw [State.chip?_updChip]
  split
  · cases s.chip? k <;> rfl
  · rfl

theorem SameButRaces.ctxHb (c : Ctx) (s : State) (f : Hb → Hb) : SameButRaces s (c.hb s f) := .hb s c.chip f

/-- The record of an access. -/
theorem SameButRaces.noteAccess (s : State) (a : Actor) (atomic write : Bool) (ps : List Place) :
    SameButRaces s (s.noteAccess a atomic write ps) := by
  unfold State.noteAccess
  induction ps generalizing s with
  | nil => exact .refl s
  | cons p ps ih =>
    refine SameButRaces.trans ?_ (ih _)
    cases p with
    | dram k x r => cases r with
      | false => exact .refl s
      | true => exact .hb s k fun h => h.note a atomic write x
    | host _ => exact .refl s
    | scratch _ _ _ => exact .refl s

/-- A fold of steps of which each changes the record only. -/
theorem SameButRaces.fold {α : Type} (l : List α) (f : State → α → State) (h : ∀ s a, SameButRaces s (f s a)) (s : State) :
    SameButRaces s (l.foldl f s) := by
  induction l generalizing s with
  | nil => exact .refl s
  | cons a l ih => exact (h s a).trans (ih _)

/-- A fold of two steps that keep two states related. -/
theorem SameButRaces.fold₂ {α : Type} (l : List α) (f g : State → α → State)
    (h : ∀ s u a, SameButRaces s u → SameButRaces (f s a) (g u a)) {s u : State} (hs : SameButRaces s u) :
    SameButRaces (l.foldl f s) (l.foldl g u) := by
  induction l generalizing s u with
  | nil => exact hs
  | cons a l ih => exact ih (h _ _ a hs)

/-- A byte written on both sides. -/
theorem SameButRaces.writeByte {s u : State} (h : SameButRaces s u) (p : Place) (b : Byte) :
    SameButRaces (s.writeByte p b) (u.writeByte p b) := by
  cases p with
  | dram k a r =>
    refine h.updChip k _ _ fun c d e => ?_
    cases c; cases d
    simp only [Chip.noRaces, Chip.mk.injEq, true_and] at e
    obtain ⟨rfl, rfl, rfl, rfl, rfl, rfl, rfl, rfl, rfl, rfl, rfl, rfl, rfl, rfl, rfl, rfl, rfl, rfl, rfl, rfl, rfl, rfl, rfl, rfl, rfl, rfl, rfl,
      rfl, rfl, rfl, rfl, rfl, rfl, rfl, rfl, rfl, rfl, rfl, rfl, rfl, rfl, rfl, rfl, rfl, rfl, rfl, rfl, rfl, rfl, rfl, rfl, rfl⟩ := e
    simp only [Chip.touch]
    split
    · rfl
    · split <;> rfl
  | host a =>
    obtain ⟨a1, a2, a3, a4⟩ := h
    exact ⟨a1, a2, congrArg (Mem.set · a b) a3, a4⟩
  | scratch k t o =>
    refine h.updChip k _ _ fun c d e => ?_
    cases c; cases d
    simp only [Chip.noRaces, Chip.mk.injEq, true_and] at e ⊢
    simp_all

/-- Bytes written on both sides. -/
theorem SameButRaces.writePlaces (ps : List Place) {s u : State} (h : SameButRaces s u) (v : Nat) :
    SameButRaces (s.writePlaces ps v) (u.writePlaces ps v) := by
  induction ps generalizing s u v with
  | nil => exact h
  | cons p ps ih => exact ih (h.writeByte p _) _

/-- The scope of a migration holds both cores (R305), so that the release on the old core and the acquire on the new one meet (R252). -/
theorem Chip.narrowScope_holds (c : Chip) (a b : Nat) (ha : c.coreMask.getLsbD a = true) (hb : c.coreMask.getLsbD b = true) :
    (c.scopeSet (narrowScope a b) a).getLsbD b = true := by
  have hlt : ∀ k, c.coreMask.getLsbD k = true → k < 160 := fun k h => by
    by_contra hk
    rw [BitVec.getLsbD_of_ge _ _ (Nat.le_of_not_lt hk)] at h
    cases h
  have hA := hlt a ha
  have hB := hlt b hb
  unfold narrowScope
  split
  · subst b; simp [Chip.scopeSet, hA]
  · split
    · next e =>
      have : b - 8 * clusterOf a < 8 ∧ 8 * clusterOf a ≤ b := by unfold clusterOf at *; omega
      have h8 : ∀ k : Fin 8, (0xFF#160).getLsbD k = true := by decide
      simp only [Chip.scopeSet, BitVec.getLsbD_and, hb, BitVec.getLsbD_shiftLeft, hB, decide_true, Bool.true_and, h8 ⟨_, this.1⟩, Bool.and_true]
      simpa using this.2
    · split
      · next e =>
        have hm : (dieMask (dieOf a)).getLsbD b = true := by
          unfold dieMask
          have : b - 80 * dieOf a < 80 ∧ 80 * dieOf a ≤ b := by unfold dieOf at *; omega
          simp only [BitVec.getLsbD_ofNat, hB, decide_true, Bool.true_and, Nat.testBit_mul_two_pow, this.2, Nat.testBit_two_pow_sub_one, this.1]
        simp [Chip.scopeSet, hb, hm]
      · simpa [Chip.scopeSet] using hb

end Sys2Proof.Machine
end

