-- ==== Sys2Proof/Tests/Slice0.lean ====
section
/-! SUPPORT. Tests of the decoder on words written out from the encoding tables, of the checks on ill-formed terms, of single steps against
results that the spec prints, and states that meet the hypotheses of every statement. -/

open Sys2Proof Sys2Proof.Machine

namespace Sys2Proof.Tests

set_option Elab.async false

/-! ### Words written out from the encoding tables -/

/-- The fields that the format A words below carry (R19, R20, R22). -/
def fieldsA : Ops :=
  { form := .A, gn := true, gp := 5, la := 2, dst := .file 4, a := ⟨.special 7, true, 1⟩, b := ⟨.last 1, false, 2⟩, c := Src.zero, sub := 0x55,
    clp := 0, scl := 0, imm := 0 }

/-- The fields that the format B words below carry. -/
def fieldsB : Ops :=
  { form := .B, gn := true, gp := 5, la := 2, dst := .file 4, a := ⟨.special 7, true, 0⟩, b := ⟨.last 1, false, 0⟩, c := ⟨.file 9, true, 0⟩,
    sub := 0, clp := 0, scl := 0, imm := 0 }

/-- The fields that the format E words below carry. -/
def fieldsE : Ops :=
  { form := .E, gn := true, gp := 5, la := 2, dst := .file 4, a := ⟨.special 7, true, 0xABC⟩, b := ⟨.last 1, false, 0x123⟩,
    c := ⟨.file 9, true, 0x7F0⟩, sub := 0x55, clp := 2, scl := 5, imm := 0 }

/-- R19, R20, R59: words of the integer opcodes, each written out from the encoding tables. -/
theorem test_decode_integer :
    ([(0xAB2C0383A0855004, 64, Instr.iadd fieldsA), (0xAB2C0383A0855008, 64, Instr.isub fieldsA), (0xAB2C0383A085500C, 64, Instr.iaddc fieldsA), (0xAB2C0383A0855010, 64, Instr.imul fieldsA)] ++
     [(0xAB2C0383A0855014, 64, Instr.imin fieldsA), (0xAB2C0383A0855018, 64, Instr.imax fieldsA), (0xAB2C0383A085501C, 64, Instr.shl fieldsA), (0xAB2C0383A0855020, 64, Instr.shr fieldsA)] ++
     [(0xAB2C0383A0855024, 64, Instr.rot fieldsA), (0xAB2C0383A0855028, 64, Instr.and fieldsA), (0xAB2C0383A085502C, 64, Instr.or fieldsA), (0xAB2C0383A0855030, 64, Instr.xor fieldsA)] ++
     [(0xAB2C0383A0855034, 64, Instr.lea fieldsA), (0xAB2C0383A0855038, 64, Instr.not fieldsA), (0xAB2C0383A085503C, 64, Instr.iabs fieldsA), (0xAB2C0383A0855040, 64, Instr.popc fieldsA)] ++
     [(0xAB2C0383A0855044, 64, Instr.clz fieldsA), (0xAB2C0383A0855048, 64, Instr.ctz fieldsA), (0xAB2C0383A085504C, 64, Instr.brev fieldsA), (0xAB2C0383A0855050, 64, Instr.icvt fieldsA)] ++
     [(0xAB2C0383A0855054, 64, Instr.bfe fieldsA), (0xAB2C0383A0855058, 64, Instr.icmp fieldsA), (0xAB2C0383A085505C, 64, Instr.mov fieldsA), (0xAB2C0383A0855060, 64, Instr.movi fieldsA)] ++
     [(0xAB2C0383A0855064, 64, Instr.movs fieldsA), (0xAB2C0383A0855068, 64, Instr.movu fieldsA), (0xA84C0383A085506C, 64, Instr.imad fieldsB), (0xA84C0383A0855070, 64, Instr.bfi fieldsB)] ++
     [(0xA84C0383A0855074, 64, Instr.isel fieldsB), (0x16AAFE0247579509807072085507A, 128, Instr.bternTableBit7Clear fieldsE), (0x16AAFE0247579509807072085507E, 128, Instr.bternTableBit7Set fieldsE), (0xAB2C0383A0855080, 64, Instr.pset fieldsA)] ++
     [(0xAB2C0383A0855084, 64, Instr.plop fieldsA), (0xAB2C0383A0855088, 64, Instr.pmov fieldsA), (0xAB2C0383A085508C, 64, Instr.sadd fieldsA), (0xAB2C0383A0855090, 64, Instr.smul fieldsA)] ++
     [(0xAB2C0383A0855094, 64, Instr.smov fieldsA), (0xAB2C0383A0855098, 64, Instr.sld fieldsA), (0xAB2C0383A085509C, 64, Instr.scmp fieldsA)]).all
      (fun p => decide (decodeTableWord p.2.1 p.1 = some p.2.2)) = true := by decide +kernel

/-- R19, R20, R59: words of the control and lane opcodes, each written out from the encoding tables. -/
theorem test_decode_control_lane :
    ([(0xAB2C0383A08550A0, 64, Instr.bra fieldsA), (0xAB2C0383A08550A4, 64, Instr.call fieldsA), (0xAB2C0383A08550A8, 64, Instr.brx fieldsA), (0xAB2C0383A08550AC, 64, Instr.ret fieldsA)] ++
     [(0xAB2C0383A08550B0, 64, Instr.exit fieldsA), (0xAB2C0383A08550B4, 64, Instr.yield fieldsA), (0xAB2C0383A08550B8, 64, Instr.nop fieldsA), (0xAB2C0383A08550BC, 64, Instr.shfl fieldsA)] ++
     [(0xAB2C0383A08550C0, 64, Instr.vote fieldsA), (0xAB2C0383A08550C4, 64, Instr.matchLanes fieldsA), (0xAB2C0383A08550C8, 64, Instr.lredux fieldsA), (0xAB2C0383A08550CC, 64, Instr.lprfx fieldsA)] ++
     [(0xAB2C0383A08550D0, 64, Instr.elect fieldsA), (0xAB2C0383A08550D4, 64, Instr.uniassert fieldsA)]).all
      (fun p => decide (decodeTableWord p.2.1 p.1 = some p.2.2)) = true := by decide +kernel

/-- R19, R20, R59: words of the float opcodes, each written out from the encoding tables. -/
theorem test_decode_float :
    ([(0xAB2C0383A0855200, 64, Instr.fadd fieldsA), (0xAB2C0383A0855204, 64, Instr.fsub fieldsA), (0xAB2C0383A0855208, 64, Instr.fmul fieldsA), (0xAB2C0383A085520C, 64, Instr.fmin fieldsA)] ++
     [(0xAB2C0383A0855210, 64, Instr.fmax fieldsA), (0xAB2C0383A0855214, 64, Instr.fdiv fieldsA), (0xAB2C0383A0855218, 64, Instr.fsqrt fieldsA), (0xAB2C0383A085521C, 64, Instr.frcp fieldsA)] ++
     [(0xAB2C0383A0855220, 64, Instr.frsq fieldsA), (0xAB2C0383A0855224, 64, Instr.fex2 fieldsA), (0xAB2C0383A0855228, 64, Instr.flg2 fieldsA), (0xAB2C0383A085522C, 64, Instr.fsin fieldsA)] ++
     [(0xAB2C0383A0855230, 64, Instr.fcos fieldsA), (0xAB2C0383A0855234, 64, Instr.fcmp fieldsA), (0xAB2C0383A0855238, 64, Instr.fclass fieldsA), (0xAB2C0383A085523C, 64, Instr.frnd fieldsA)] ++
     [(0xAB2C0383A0855240, 64, Instr.fgetexp fieldsA), (0xAB2C0383A0855244, 64, Instr.fcpys fieldsA), (0xAB2C0383A0855248, 64, Instr.fldexp fieldsA), (0xAB2C0383A085524C, 64, Instr.fcvt fieldsA)] ++
     [(0xAB2C0383A0855250, 64, Instr.f2i fieldsA), (0xAB2C0383A0855254, 64, Instr.i2f fieldsA), (0xAB2C0383A0855258, 64, Instr.fstat fieldsA), (0xAB2C0383A085525C, 64, Instr.pkadd fieldsA)] ++
     [(0xA84C0383A0855260, 64, Instr.ffma fieldsB), (0xA84C0383A0855264, 64, Instr.pkfma fieldsB), (0xA84C0383A0855268, 64, Instr.dot4 fieldsB), (0xA84C0383A085526C, 64, Instr.dot2 fieldsB)] ++
     [(0xA84C0383A0855270, 64, Instr.ffmaF64Short fieldsB)]).all
      (fun p => decide (decodeTableWord p.2.1 p.1 = some p.2.2)) = true := by decide +kernel

/-- R19, R20, R59: words of the memory and sync opcodes, each written out from the encoding tables. -/
theorem test_decode_memory_sync :
    ([(0xAB2C0383A0855400, 64, Instr.ld fieldsA), (0xAB2C0383A0855404, 64, Instr.lds fieldsA), (0xAB2C0383A0855408, 64, Instr.ldc fieldsA), (0xAB2C0383A085540C, 64, Instr.ldf fieldsA)] ++
     [(0xAB2C0383A0855410, 64, Instr.st fieldsA), (0xAB2C0383A0855414, 64, Instr.sts fieldsA), (0xAB2C0383A0855418, 64, Instr.stf fieldsA), (0xAB2C0383A085541C, 64, Instr.testf fieldsA)] ++
     [(0xAB2C0383A0855420, 64, Instr.atom fieldsA), (0xA84C0383A0855424, 64, Instr.atomCas fieldsB), (0xAB2C0383A0855428, 64, Instr.red fieldsA), (0xAB2C0383A085542C, 64, Instr.fence fieldsA)] ++
     [(0xAB2C0383A0855430, 64, Instr.ifence fieldsA), (0xAB2C0383A0855434, 64, Instr.isspace fieldsA), (0xAB2C0383A0855438, 64, Instr.awin fieldsA), (0xAB2C0383A085543C, 64, Instr.pref fieldsA)] ++
     [(0xAB2C0383A0855440, 64, Instr.barInit fieldsA), (0xAB2C0383A0855444, 64, Instr.barArrive fieldsA), (0xAB2C0383A0855448, 64, Instr.barExpect fieldsA), (0xAB2C0383A085544C, 64, Instr.barWait fieldsA)] ++
     [(0xAB2C0383A0855450, 64, Instr.barTest fieldsA), (0xAB2C0383A0855454, 64, Instr.tlwait fieldsA), (0xAB2C0383A0855458, 64, Instr.tlread fieldsA), (0xAB2C0383A085545C, 64, Instr.scopew fieldsA)] ++
     [(0xAB2C0383A0855460, 64, Instr.scopebind fieldsA), (0xAB2C0383A0855464, 64, Instr.scopeq fieldsA), (0xAB2C0383A0855468, 64, Instr.scoperet fieldsA), (0xA84C0383A085546C, 64, Instr.cpy fieldsB)] ++
     [(0xA84C0383A0855470, 64, Instr.cpyg fieldsB), (0xAB2C0383A0855474, 64, Instr.hmk fieldsA)]).all
      (fun p => decide (decodeTableWord p.2.1 p.1 = some p.2.2)) = true := by decide +kernel

/-- R19, R20, R59: words of the matrix opcodes, each written out from the encoding tables. -/
theorem test_decode_matrix :
    ([(0xAB2C0383A0855600, 64, Instr.wld fieldsA), (0xAB2C0383A0855604, 64, Instr.wsel fieldsA), (0xA84C0383A0855608, 64, Instr.mma fieldsB), (0xA84C0383A085560C, 64, Instr.mmam fieldsB)] ++
     [(0xAB2C0383A0855610, 64, Instr.aclr fieldsA), (0xAB2C0383A0855614, 64, Instr.adrn fieldsA), (0xAB2C0383A0855618, 64, Instr.epld fieldsA), (0xAB2C0383A085561C, 64, Instr.msave fieldsA)] ++
     [(0xAB2C0383A0855620, 64, Instr.mres fieldsA), (0xA84C0383A0855624, 64, Instr.qnt fieldsB), (0xAB2C0383A0855628, 64, Instr.qwait fieldsA)]).all
      (fun p => decide (decodeTableWord p.2.1 p.1 = some p.2.2)) = true := by decide +kernel

/-- R19, R20, R59: words of the moment opcodes, each written out from the encoding tables. -/
theorem test_decode_moment :
    ([(0xAB2C0383A0855800, 64, Instr.mld fieldsA), (0xAB2C0383A0855804, 64, Instr.mst fieldsA), (0xAB2C0383A0855808, 64, Instr.mset fieldsA), (0xAB2C0383A085580C, 64, Instr.mmov fieldsA)] ++
     [(0xAB2C0383A0855810, 64, Instr.madd fieldsA), (0xAB2C0383A0855814, 64, Instr.msub fieldsA), (0xAB2C0383A0855818, 64, Instr.mmul fieldsA), (0xAB2C0383A085581C, 64, Instr.mscl fieldsA)] ++
     [(0xA84C0383A0855820, 64, Instr.mfma fieldsB), (0xAB2C0383A0855824, 64, Instr.mrelu fieldsA), (0xAB2C0383A0855828, 64, Instr.mexp fieldsA), (0xAB2C0383A085582C, 64, Instr.msigm fieldsA)] ++
     [(0xAB2C0383A0855830, 64, Instr.mtanh fieldsA), (0xAB2C0383A0855834, 64, Instr.mrcp fieldsA), (0xAB2C0383A0855838, 64, Instr.mcol fieldsA)]).all
      (fun p => decide (decodeTableWord p.2.1 p.1 = some p.2.2)) = true := by decide +kernel

/-- R19, R20, R59: words of the pod and system opcodes, each written out from the encoding tables. -/
theorem test_decode_pod_system :
    ([(0xAB2C0383A0855A00, 64, Instr.tst fieldsA), (0xAB2C0383A0855A04, 64, Instr.tred fieldsA), (0xAB2C0383A0855A08, 64, Instr.tideClose fieldsA), (0xAB2C0383A0855A0C, 64, Instr.tideWait fieldsA)] ++
     [(0xAB2C0383A0855A10, 64, Instr.tideQuery fieldsA), (0xAB2C0383A0855A14, 64, Instr.rld fieldsA), (0xAB2C0383A0855A18, 64, Instr.ratom fieldsA), (0xAB2C0383A0855A1C, 64, Instr.send fieldsA)] ++
     [(0xAB2C0383A0855A20, 64, Instr.arm fieldsA), (0xAB2C0383A0855A24, 64, Instr.disarm fieldsA), (0xAB2C0383A0855A28, 64, Instr.launch fieldsA), (0xAB2C0383A0855A2C, 64, Instr.hint fieldsA)] ++
     [(0xAB2C0383A0855A30, 64, Instr.trap fieldsA), (0xAB2C0383A0855A34, 64, Instr.tret fieldsA), (0xAB2C0383A0855A38, 64, Instr.csave fieldsA), (0xAB2C0383A0855A3C, 64, Instr.crest fieldsA)] ++
     [(0xAB2C0383A0855A40, 64, Instr.sysr fieldsA), (0xAB2C0383A0855A44, 64, Instr.sysw fieldsA), (0xAB2C0383A0855A48, 64, Instr.cap fieldsA), (0xAB2C0383A0855A4C, 64, Instr.halt fieldsA)] ++
     [(0xAB2C0383A0855A50, 64, Instr.evqPop fieldsA), (0xAB2C0383A0855A54, 64, Instr.trel fieldsA), (0xAB2C0383A0855E04, 64, Instr.byteAbsDiffSum fieldsA), (0xAB2C0383A0855EFC, 64, Instr.retiredOperation 0x3F fieldsA)]).all
      (fun p => decide (decodeTableWord p.2.1 p.1 = some p.2.2)) = true := by decide +kernel

/-- R20: one word of each longer format, every field different. -/
theorem test_decode_formats :
    decodeBits 0x5123ABC5558070720855005 = .iadd { fieldsE with form := .C, c := Src.zero } ∧
    decodeBits 0xDEADBEEFAAD5E707A0855005 = .iadd { fieldsE with form := .D, a := ⟨.special 7, true, 0xABC⟩, b := Src.zero, c := Src.zero, scl := 0, imm := 0xDEADBEEF } ∧
    decodeBits 0x16AAFE02475795098070720855262 = .ffma fieldsE ∧
    decodeBits 0x123456789ABCDEFAAD5E707A0855062 = .movi { fieldsE with form := .F, b := Src.zero, c := Src.zero, scl := 0, imm := 0x0123456789ABCDEF } := by
  decide +kernel


/-! ### Instructions and states to test with -/

/-- An instruction without modifiers, guard or lookahead. -/
def ops (f : Form) (sub : BitVec 7) (d a b c : Opnd) : Ops :=
  { form := f, gn := false, gp := 15, la := 0, dst := d, a := ⟨a, false, 0⟩, b := ⟨b, false, 0⟩, c := ⟨c, false, 0⟩, sub, clp := 0, scl := 0,
    imm := 0 }

/-- The field of zeros. -/
def z : Opnd := .main 0

/-- The integer 1 of R23. -/
def one : Opnd := .special 0x41

/-- An instruction is ready in a state, with a context that passes a test. -/
def Met (s : State) (i : Instr) (p : Ops → Ctx → Bool) : Prop := ∃ x c, i.ops = some x ∧ Ready s i x c ∧ p x c = true

/-- As `Met`, as a test. -/
def met (s : State) (i : Instr) (p : Ops → Ctx → Bool) : Bool :=
  match i.spec, i.ops with
  | some sp, some x => match (prologue s i sp x).ctx? with | some c => p x c | none => false
  | _, _ => false

theorem met_of {s : State} {i : Instr} {p : Ops → Ctx → Bool} (h : met s i p = true) : Met s i p := by
  unfold met at h
  split at h
  · rename_i sp x h1 h2
    split at h
    · rename_i c h3
      refine ⟨x, c, h2, ⟨sp, h1, ?_⟩, h⟩
      unfold Pre.ctx? at h3
      split at h3
      · cases h3; assumption
      · cases h3
    · cases h
  · cases h

/-- Every pair of an instruction and a test is met in a state. -/
def Meets (s : State) (l : List (Instr × (Ops → Ctx → Bool))) : Prop := ∀ q ∈ l, Met s q.1 q.2

theorem meets_of {s : State} {l : List (Instr × (Ops → Ctx → Bool))} (h : (l.all fun q => met s q.1 q.2) = true) : Meets s l :=
  fun q hq => met_of (List.all_eq_true.mp h q hq)

/-- The instructions are ready in a state and their destinations find registers. -/
def roomy (s : State) (l : List Instr) : List (Instr × (Ops → Ctx → Bool)) := l.map fun i => (i, fun _ c => c.room s)

/-- No trap is enabled in an active lane: `Ctx.trapsOff` as a test. -/
def calm (c : Ctx) : Bool := decide (∀ k : Fin 32, inMask c.active k = true → (c.g.fpctl[k] >>> 8).setWidth 5 = 0#5)

theorem calm_iff (c : Ctx) : calm c = true ↔ c.trapsOff := decide_eq_true_iff

/-- An access succeeds with a value that passes a test. -/
def good {ε α : Type} (e : Except ε α) (q : α → Bool) : Bool := match e with | .ok v => q v | .error _ => false

/-- An access fails. -/
def bad {ε α : Type} (e : Except ε α) : Bool := match e with | .ok _ => false | .error _ => true

/-- The machine with one task of one gang; its gang is the issuer. -/
abbrev plain : State := placed false false []

/-- The gang of `plain`. -/
def g0 : GangRef := ⟨0, 0, 0⟩

/-- The core of `plain`. -/
def k0 : CoreRef := ⟨0, 0⟩

/-- `plain` with its gang changed. -/
def rig (f : Gang → Gang) : State := plain.updGang g0 f

/-- `plain` at a level. -/
def atLevel (l : Level) : State := rig fun g => { g with pl := l }

/-- `plain` with a second extent, for reading and writing, at s2, the scratchpad window at s3, a moment command word in s4, the pod's
tidal regions and mailbox at s5 to s7, and records in the second extent at s8 to s11, a register's number in s12 and the
private window at s13. -/
def data : State :=
  (rig fun g => { g with sreg := [0x8000000000100000, 0xFFFFF00000000000, 0xE000001, 0xFFFFF80000000000, 0xFFFFF80000010000, 0xFFFFF80080000000,
      0x8000000000100100, 0x8000000000100200, 0x8000000000100300, 0x8000000000100400, 0x1000, 0xFFFFF20000000000].zipIdx.foldl (fun v p => vset v (p.2 + 2) p.1) g.sreg }).updTask
    0 0 fun t => { t with extents := t.extents ++ [⟨0x8000000000100000, 65536, 2, [⟨0x8000000000100000, 65536, false, 131072⟩]⟩] }

/-- `data` with one thread in the issuing bundle. -/
def data1 : State := { data with issuer := some (.gang g0 1) }

/-- A state with fields (offset, bytes, value) in the second extent. -/
def holding (s : State) (fields : List (Nat × Nat × Nat)) : State :=
  s.updChip 0 fun c => { c with mem := fields.foldl (fun m f => Mem.store m (131072 + f.1) f.2.2 f.2.1) c.mem }

/-- A state whose gang runs at a level. -/
def levelled (s : State) (l : Level) : State := s.updGang g0 fun g => { g with pl := l }

/-- How an access of a system register ends. -/
def regOk {α : Type} (r : RegRes α) : Bool := match r with | .ok _ => true | _ => false
def regPriv {α : Type} (r : RegRes α) : Bool := match r with | .priv => true | _ => false
def regNone {α : Type} (r : RegRes α) : Bool := match r with | .undefined => true | _ => false


/-- What the end of a wait asks: the hypotheses of `EndsWait`. -/
def EndsMet (s : State) (g : GangRef) (lanes : LaneMask) (kind : WaitKind) (own : Instr → Bool) (may : Wait → Ctx → State → Prop) : Prop :=
  ∃ k x c q, s.waiting g lanes kind = some k ∧ s.mayIssue g = true ∧ own k.instr = true ∧ k.instr.ops = some x ∧ s.gang? g = some q ∧
    (∀ b ∈ q.bundles, b.lanes = lanes ∨ b.lanes &&& lanes = 0) ∧ Ready (s.released g lanes) k.instr x c ∧
    may k (c.asIssued k) (s.released g lanes)

/-- As `EndsMet`, as a test. -/
def endsMet (s : State) (g : GangRef) (lanes : LaneMask) (kind : WaitKind) (own : Instr → Bool) (may : Wait → Ctx → State → Bool) : Bool :=
  match s.waiting g lanes kind, s.gang? g with
  | some k, some q => s.mayIssue g && own k.instr && q.bundles.all (fun b => b.lanes == lanes || b.lanes &&& lanes == 0) &&
      met (s.released g lanes) k.instr fun _ c => may k (c.asIssued k) (s.released g lanes)
  | _, _ => false

theorem ends_of {s : State} {g : GangRef} {lanes : LaneMask} {kind : WaitKind} {own : Instr → Bool} {may : Wait → Ctx → State → Bool}
    (h : endsMet s g lanes kind own may = true) : EndsMet s g lanes kind own fun k c v => may k c v = true := by
  unfold endsMet at h
  split at h
  · rename_i k q hk hq
    simp only [Bool.and_eq_true, List.all_eq_true, Bool.or_eq_true, beq_iff_eq] at h
    obtain ⟨x, c, hx, hr, h'⟩ := met_of h.2
    exact ⟨k, x, c, q, hk, h.1.1.1, h.1.1.2, hx, hq, h.1.2, hr, h'⟩
  · cases h

/-- A state whose gang waits with one thread for an instruction to go on. -/
def held (s : State) (kind : WaitKind) (addr : DWord) (i : Instr) (vals : List (Lanes DWord)) : State :=
  s.updGang g0 fun g => { g with exited := 0xFFFFFFFE, bundles := [⟨1, 0, some ⟨kind, addr, 0, i, vals, 0⟩, []⟩] }

/-- An event happens in a state: its answer is a next state. -/
def nexts (s : State) (i : Instr) : Bool := match exec i s with | .next _ => true | _ => false

/-- A value is there and passes a test. -/
def Has {α : Type} (o : Option α) (p : α → Bool) : Prop := ∃ a, o = some a ∧ p a = true

theorem has_of {α : Type} {o : Option α} {p : α → Bool} (h : o.any p = true) : Has o p := by
  cases o with
  | none => cases h
  | some a => exact ⟨a, rfl, h⟩


/-! ### Witnesses: integer, lane and float instructions -/

theorem witness_IntegerArithmetic : Meets plain (roomy plain
    [(.iadd (ops .A 0 (.main 8) one one z)), (.isub (ops .A 0 (.main 8) one one z)), (.imin (ops .A 0 (.main 8) one one z)), (.imax (ops .A 0 (.main 8) one one z)), (.iabs (ops .A 0 (.main 8) one z z)), (.imul (ops .A 0 (.main 8) one one z)), (.imad (ops .B 0 (.main 8) one one one)), (.iaddc (ops .A 0 (.main 8) one one z))]) := meets_of (by decide +kernel)

theorem witness_ShiftsLogicBitFields : Meets plain (roomy plain
    [(.shl (ops .A 0 (.main 8) one one z)), (.shr (ops .A 0 (.main 8) one one z)), (.rot (ops .A 0 (.main 8) one one z)), (.and (ops .A 0 (.main 8) one one z)), (.or (ops .A 0 (.main 8) one one z)), (.xor (ops .A 0 (.main 8) one one z)), (.not (ops .A 0 (.main 8) one z z)), (.popc (ops .A 0 (.main 8) one z z)), (.clz (ops .A 0 (.main 8) one z z)), (.ctz (ops .A 0 (.main 8) one z z)), (.brev (ops .A 0 (.main 8) one z z)), (.bfe (ops .A 0 (.main 8) one one z)), (.bfi (ops .B 0 (.main 8) one one one)), (.bternTableBit7Clear (ops .E 0 (.main 8) one one one)), (.bternTableBit7Set (ops .E 0 (.main 8) one one one))]) :=
  meets_of (by decide +kernel)

theorem witness_TernaryTable : Meets data1 (roomy data1 [(.bternTableBit7Clear (ops .E 0 (.main 8) one one one)), (.bternTableBit7Set (ops .E 0 (.main 8) one one one))]) := meets_of (by decide +kernel)

theorem witness_CompareSelectMove : Meets plain (roomy plain
    [(.icmp (ops .A 0 (.main 1) one one z)), (.isel (ops .B 0 (.main 8) one one (.main 15))), (.lea (ops .A 0 (.main 8) one one z)), (.mov (ops .A 0 (.main 8) one z z)), (.movi (ops .A 0 (.main 8) one z z)), (.movu (ops .A 0 (.main 8) z z z)), (.icvt (ops .A 0 (.main 8) one z z)), (.pset (ops .A 0 (.main 1) one z z)), (.plop (ops .A 0 (.main 1) (.main 15) (.main 15) z))]) := meets_of (by decide +kernel)

theorem witness_UniformSpecialMoves : Meets plain (roomy plain
    [(.sadd (ops .A 0 (.main 1) z z z)), (.smul (ops .A 0 (.main 1) z z z)), (.smov (ops .A 0 (.main 1) z z z)), (.scmp (ops .A 0 (.main 1) z z z)), (.tlread (ops .A 0 (.main 1) z z z)), (.movs (ops .A 0 (.main 8) (.special 0) z z)), (.movs (ops .A 1 z (.special 7) one z)), (.pmov (ops .A 0 (.main 8) z z z)), (.pmov (ops .A 1 z one z z))] ++
    [((.movs (ops .A 1 z (.special 5) (.special 64) z)), fun _ c => (c.once c.vb).testBit 7 == c.md.diag)]) := meets_of (by decide +kernel)

theorem witness_UniformSpecialMoves_mode : Meets (rig fun g => { g with pl := .firmware, sreg := vset g.sreg 2 0x80 })
    [((.movs (ops .A 1 z (.special 5) (.special 2) z)), fun _ c => (c.once c.vb).testBit 7 != c.md.diag && c.g.pl == .firmware)] := meets_of (by decide +kernel)

theorem witness_UniformSpecialMoves_priv : Meets (rig fun g => { g with sreg := vset g.sreg 2 0x80 })
    [((.movs (ops .A 1 z (.special 5) (.special 2) z)), fun _ c => (c.once c.vb).testBit 7 != c.md.diag && c.g.pl != .firmware)] := meets_of (by decide +kernel)

theorem witness_LaneResults : Meets plain
    (((.shfl (ops .A 0 (.main 8) one one z)), fun x c => c.room plain && (c.g.replaying c.lanes).isNone && (List.finRange 32).all fun k => (c.g.readSrc c.md.ctrl c.md.diag x.form (slotBits 1) x.a
        (shflLane (x.sb 1 0) 32 k.val c.vb[k])).isSome) ::
     roomy plain [(.vote (ops .A 0 (.main 1) (.main 15) z z)), (.matchLanes (ops .A 0 (.main 8) one z z)), (.lredux (ops .A 0 (.main 8) one z z)), (.lprfx (ops .A 0 (.main 8) one z z)), (.elect (ops .A 0 (.main 1) z z z)), (.uniassert (ops .A 0 z one z z))]) := meets_of (by decide +kernel)

theorem witness_FloatArithmetic : Meets plain ((roomy plain [(.fadd (ops .A 0 (.main 8) one one z)), (.fsub (ops .A 0 (.main 8) one one z)), (.fmul (ops .A 0 (.main 8) one one z)), (.ffma (ops .B 0 (.main 8) one one one)), (.ffmaF64Short (ops .B 0 (.main 8) one one one)), (.fdiv (ops .A 0 (.main 8) one one z)), (.fsqrt (ops .A 0 (.main 8) one z z))]).map fun q =>
    (q.1, fun x c => q.2 x c && calm c)) := meets_of (by decide +kernel)

theorem witness_FloatFunctions : Meets plain ((roomy plain [(.frcp (ops .A 0 (.main 8) one z z)), (.frsq (ops .A 0 (.main 8) one z z)), (.fex2 (ops .A 0 (.main 8) one z z)), (.flg2 (ops .A 0 (.main 8) one z z)), (.fsin (ops .A 0 (.main 8) one z z)), (.fcos (ops .A 0 (.main 8) one z z)), (.fmin (ops .A 0 (.main 8) one one z)), (.fmax (ops .A 0 (.main 8) one one z)), (.fcmp (ops .A 0 (.main 1) one one z)), (.fclass (ops .A 0 (.main 8) one z z)),
    (.frnd (ops .A 0 (.main 8) one z z)), (.fgetexp (ops .A 0 (.main 8) one z z)), (.fldexp (ops .A 0 (.main 8) one one z)), (.fcpys (ops .A 0 (.main 8) one one z)), (.fcvt (ops .A 0 (.main 8) one z z)), (.f2i (ops .A 0 (.main 8) one z z)), (.i2f (ops .A 0 (.main 8) one z z))]).map fun q => (q.1, fun x c => q.2 x c && calm c)) := meets_of (by decide +kernel)

theorem witness_PackedDotStatus : Meets plain ((roomy plain [(.pkadd (ops .A 0 (.main 8) one one z)), (.pkfma (ops .B 0 (.main 8) one one one)), (.dot2 (ops .B 0 (.main 8) one one one)), (.dot4 (ops .B 0 (.main 8) (.main 255) (.main 255) one)), (.dot4 (ops .E 24 (.main 8) (.main 255) (.main 255) one)), (.fstat (ops .A 0 (.main 8) one z z))]).map fun q =>
    (q.1, fun x c => q.2 x c && calm c)) := meets_of (by decide +kernel)

/-- `plain` with every trap enabled, a number that is a signalling NaN as binary32 and, in its low half, as binary16 in v1 and a signalling
binary64 NaN in v2 and v3. -/
def trapped : State := rig fun g =>
  { g with fpctl := Lanes.all 0x1F00, mom := vset g.mom 1 (Lanes.all 0x4000000000000000),
           vmap := [(1, ⟨0xFFFFFFFF, Lanes.all 0x7F807C01⟩), (2, ⟨0xFFFFFFFF, Lanes.all 1⟩), (3, ⟨0xFFFFFFFF, Lanes.all 0x7FF00000⟩)] }

/-- Instructions whose float results trap in a state. -/
def traps (s : State) (l : List (Instr × (Ops → Ctx → Fin 32 → Rounded))) : List (Instr × (Ops → Ctx → Bool)) :=
  l.map fun q => (q.1, fun x c => c.room s && c.trapping (q.2 x c) != 0)

/-- Operands v1: one and two in form A, three in form B. -/
def unary : Ops := ops .A 0 (.main 8) (.main 1) z z
def one1 : Ops := ops .A 0 (.main 8) (.main 1) (.main 1) z
def one3 : Ops := ops .B 0 (.main 8) (.main 1) (.main 1) (.main 1)

theorem witness_FloatArithmetic_traps : Meets trapped (traps trapped
    [(.fadd one1, fun _ c k => c.put .f32 k (fpAdd (c.rm 0 k) (c.fsrc .f32 k c.va[k]) (c.fsrc .f32 k c.vb[k]))),
     (.fsub one1, fun _ c k => c.put .f32 k (fpSub (c.rm 0 k) (c.fsrc .f32 k c.va[k]) (c.fsrc .f32 k c.vb[k]))),
     (.fmul one1, fun _ c k => c.put .f32 k (fpMul (c.fsrc .f32 k c.va[k]) (c.fsrc .f32 k c.vb[k]))),
     (.ffma one3, fun _ c k => c.put .f32 k (fpFma (c.rm 0 k) (c.fsrc .f32 k c.va[k]) (c.fsrc .f32 k c.vb[k]) (c.fsrc .f32 k c.vc[k]))),
     (.ffmaF64Short (ops .B 0 (.main 8) (.main 2) (.main 2) (.main 2)), fun _ c k =>
       c.put .f64 k (fpFma (c.rm 0 k) (c.fsrc .f64 k c.va[k]) (c.fsrc .f64 k c.vb[k]) (c.fsrc .f64 k c.vc[k])))]) := meets_of (by decide +kernel)

theorem witness_FloatFunctions_traps : Meets trapped (traps trapped
    (([(.frcp unary, 0, rcpOf), (.frsq unary, 1, rsqOf), (.fex2 unary, 2, ex2Of), (.flg2 unary, 3, lg2Of), (.fsin unary, 4, trigOf false), (.fcos unary, 5, trigOf true)] :
        List (Instr × Nat × (Fm → Val → Apx))).map fun q => (q.1, fun x c k =>
          (q.2.2 .f32 (c.fsrc .f32 k c.va[k])).write (q.2.1 + x.sb 4 3 * 8) (c.va[k] % 2 ^ 32) .f32 (c.ftz k) x.clp x.scl))) ∧
  Meets trapped (traps trapped
      [(.fmin one1, fun _ c k => minMax .f32 false false (flushedCode .f32 (c.ftz k) c.va[k]) (flushedCode .f32 (c.ftz k) c.vb[k]) (c.fsrc .f32 k c.va[k]) (c.fsrc .f32 k c.vb[k])),
       (.fmax one1, fun _ c k => minMax .f32 true false (flushedCode .f32 (c.ftz k) c.va[k]) (flushedCode .f32 (c.ftz k) c.vb[k]) (c.fsrc .f32 k c.va[k]) (c.fsrc .f32 k c.vb[k])),
       (.fcmp (ops .A 0 (.main 1) (.main 1) (.main 1) z), fun _ c k => ⟨0, if (c.fsrc .f32 k c.va[k]).isSig then flagInv else 0⟩),
       (.frnd unary, fun _ c k => c.put .f32 k (integralOf (c.rm 0 k) false (c.fsrc .f32 k c.va[k]))),
       (.fgetexp unary, fun _ c k => match c.fsrc .f32 k c.va[k] with | .fin .. => ⟨0, 0⟩ | _ => ⟨0x7FFFFFFF, flagInv⟩),
       (.fldexp one1, fun _ c k =>
         let v := c.fsrc .f32 k c.va[k]
         c.put .f32 k (withNans [v] ⟨if v.isZero then v else v.scale (max (-10000) (min 10000 (sext c.vb[k] 32))), 0⟩)),
       (.fcvt unary, fun _ c k => c.put .f32 k (withNans [c.fsrc .f32 k c.va[k]] ⟨c.fsrc .f32 k c.va[k], 0⟩)),
       (.f2i unary, fun _ c k => ⟨0, (toInt (c.rm 0 k) 32 false false (c.fsrc .f32 k c.va[k])).2⟩),
       (.i2f unary, fun _ c k => c.put .f32 k ⟨Val.ofInt (extTy (tyOf 0) c.va[k]), 0⟩)]) :=
  ⟨meets_of (by decide +kernel), meets_of (by decide +kernel)⟩

theorem witness_PackedDotStatus_traps : Meets trapped (traps trapped
    [(.pkadd one1, fun _ c k => bothHalves fun h => c.put .f16 k (fpAdd (c.rm 0 k) (c.fsrc .f16 k (half c.va[k] h)) (c.fsrc .f16 k (half c.vb[k] h)))),
     (.pkfma one3, fun _ c k => bothHalves fun h =>
       c.put .f16 k (fpFma (c.rm 0 k) (c.fsrc .f16 k (half c.va[k] h)) (c.fsrc .f16 k (half c.vb[k] h)) (c.fsrc .f16 k (half c.vc[k] h)))),
     (.dot2 one3, fun _ c k =>
       let elems (v : Nat) : List Val := (List.range 2).map fun n => Fm.f16.decode (half v n)
       c.put .f32 k (dotVal (c.rm 0 k) (elems c.va[k]) (elems c.vb[k]) (c.fsrc .f32 k c.vc[k]))),
     (.dot4 one3, fun _ c k =>
       let elems (v : Nat) : List Val := (List.range 4).map fun n => Fm.e4m3.decode (v / 2 ^ (8 * n) % 256)
       c.put .f32 k (dotVal (c.rm 0 k) (elems c.va[k]) (elems c.vb[k]) (c.fsrc .f32 k c.vc[k])))]) := meets_of (by decide +kernel)

theorem witness_BranchesComplete :
    Meets plain [((.bra (ops .A 0 z z z z)), fun _ _ => true), ((.call (ops .A 0 (.main 8) z z z)), fun _ c => c.room plain),
      ((.brx (ops .A 0 z (.special 68) z z)), fun _ c => decide (∀ k : Fin 32, inMask c.active k = true → c.va[k] % 4 = 0)),
      ((.ret (ops .A 0 z (.special 68) z z)), fun _ c => !c.md.ctrl && decide (∀ k : Fin 32, inMask c.active k = true → c.va[k] % 4 = 0)),
      ((.brx (ops .A 0 z (.special 69) z z)), fun _ c => maskOf (fun k => inMask c.active k && c.va[k] % 4 != 0) != 0),
      ((.ret (ops .A 0 z (.special 69) z z)), fun _ c => !c.md.ctrl && maskOf (fun k => inMask c.active k && c.va[k] % 4 != 0) != 0)] := meets_of (by decide +kernel)

theorem witness_BranchesComplete_routine : Meets (placed true false []) [((.ret (ops .A 0 z (.main 8) z z)), fun _ c => c.md.ctrl && c.once c.va == 0)] :=
  meets_of (by decide +kernel)

theorem witness_ExitYieldNop :
    Meets plain ([(.exit (ops .A 0 z z z z)), (.yield (ops .A 0 z z z z)), (.nop (ops .A 0 z z z z))].map fun i => (i, fun _ c => match c.w with | .gang _ _ => true | _ => false)) ∧
      plain.issuing.isSome = true := ⟨meets_of (by decide +kernel), by decide +kernel⟩


/-! ### Witnesses: memory and synchronisation -/

/-- An access of the active lanes reaches its places and races with nothing. -/
def free (s : State) (c : Ctx) (need : Acc) (n : Nat) (addr : Fin 32 → Nat) (bound : Lanes (List Place) → Fin 32 → Bool) : Bool :=
  good (c.reach s c.active need n addr) fun ps => (c.raceOf s (bound ps) (fun _ => need != .read) c.active addr ps).isNone

theorem witness_LoadsComplete : Meets data1
    [((.ld (ops .A 0 (.main 8) (.special 2) (.special 64) z)), fun _ c => c.room data1 && free data1 c .read 4 c.ea (c.boundLoad data1 4)),
     ((.lds (ops .A 0 (.main 8) (.special 64) (.special 64) z)), fun _ c => c.room data1 && free data1 c .read 4 c.scratchAddr (c.boundLoad data1 4)),
     ((.sld (ops .A 0 (.main 1) (.main 2) (.main 0) z)), fun _ c => c.room data1 && good (c.reach data1 1 .read 8 fun _ => (c.once c.va + c.once c.vb) % 2 ^ 64) fun ps =>
       (c.raceOf data1 (fun _ => true) (fun _ => false) 1 (fun _ => (c.once c.va + c.once c.vb) % 2 ^ 64) ps).isNone)] := meets_of (by decide +kernel)

theorem witness_LoadsComplete_image : Meets data1
    [((.ldc (ops .A 0 (.main 8) (.special 64) (.special 64) z)), fun _ c => c.room data1 && (data1.task? 0 0).any fun t =>
       let addr (k : Fin 32) : Nat := (t.image.toNat + c.off k) % 2 ^ 64
       let ps : Lanes (List Place) := lanesFrom fun k =>
         if inMask c.active k then (List.range 4).filterMap fun j => extentPlace c.chip (t.extents.take 1) .read (addr k + j) else []
       decide (∀ k : Fin 32, inMask c.active k = true → addr k % 4 = 0 ∧
         (List.range 4).map (fun j => extentPlace c.chip (t.extents.take 1) .read (addr k + j)) = ps[k].map some) &&
       (c.raceOf data1 (fun _ => false) (fun _ => false) c.active addr ps).isNone)] := meets_of (by decide +kernel)

/-- `data1` where another task has written the second extent without order. -/
def raced : State := data1.updChip 0 fun c =>
  { c with hb := { c.hb with past := (List.range 4).map fun k => (131072 + k, [⟨2 ^ 50, 1, 7, false, true, 0, 1, 0⟩]) } }

theorem witness_StoresAndFaults : Meets data1
    [((.st (ops .A 0 (.main 255) (.special 2) (.special 64) z)), fun _ c => free data1 c .write 4 c.ea (c.boundStore data1 4 true)),
     ((.sts (ops .A 0 (.main 255) (.special 64) (.special 64) z)), fun _ c => free data1 c .write 4 c.scratchAddr (c.boundStore data1 4 false)),
     ((.ld (ops .A 0 (.main 8) (.special 2) (.special 66) z)), fun _ c => bad (c.reach data1 c.active .read 4 c.ea)),
     ((.ld (ops .A 0 (.main 8) (.special 64) (.special 64) z)), fun _ c => bad (c.reach data1 c.active .read 4 c.ea)),
     ((.lds (ops .A 0 (.main 8) (.special 66) (.special 64) z)), fun _ c => bad (c.reach data1 c.active .read 4 c.scratchAddr)),
     ((.st (ops .A 0 (.main 255) (.special 64) (.special 64) z)), fun _ c => bad (c.reach data1 c.active .write 4 c.ea)),
     ((.sts (ops .A 0 (.main 255) (.special 66) (.special 64) z)), fun _ c => bad (c.reach data1 c.active .write 4 c.scratchAddr))] := meets_of (by decide +kernel)

theorem witness_StoresAndFaults_race : Meets raced
    [((.ld (ops .A 0 (.main 8) (.special 2) (.special 64) z)), fun _ c => good (c.reach raced c.active .read 4 c.ea) fun ps =>
       (c.raceOf raced (c.boundLoad raced 4 ps) (fun _ => false) c.active c.ea ps).isSome),
     ((.st (ops .A 0 (.main 255) (.special 2) (.special 64) z)), fun _ c => good (c.reach raced c.active .write 4 c.ea) fun ps =>
       (c.raceOf raced (c.boundStore raced 4 true ps) (fun _ => true) c.active c.ea ps).isSome)] := meets_of (by decide +kernel)

/-- An atomic at a scope entry that serves reaches its places and races with nothing. -/
def clearFor (s : State) (c : Ctx) (e n : Nat) (new : Fin 32 → Nat → Option Nat) : Bool :=
  decide (e ≤ 63) && (c.scopeTrouble s e).isNone && good (c.reach s c.active .both n fun k => c.va[k]) fun ps =>
    (c.raceOf s (fun _ => true) (fun k => inMask (c.writers s ps new) k) c.active (fun k => c.va[k]) ps).isNone

/-- `data1` where another task has written the image and the scratchpad's first word without order. -/
def racedImage : State := data1.updChip 0 fun c =>
  { c with hb := { c.hb with past := (List.range 4).map fun k => (65536 + k, [⟨2 ^ 50, 1, 7, false, true, 0, 1, 0⟩]) } }

/-- An access reaches its places and races with something. -/
def races (s : State) (c : Ctx) (m : LaneMask) (need : Acc) (n : Nat) (addr : Fin 32 → Nat) (atomic write : Fin 32 → Bool) : Bool :=
  good (c.reach s m need n addr) fun ps => (c.raceOf s atomic write m addr ps).isSome

theorem witness_StoresAndFaults_refused : Meets data1
    ([((.mld (ops .A 0 (.main 1) (.special 2) (.special 66) z)), fun x c => bad (c.reach data1 c.active .read (moBytes x) c.ea)),
      ((.mst (ops .A 0 z (.special 2) (.special 66) z)), fun x c => bad (c.reach data1 c.active .write (moBytes x) c.ea)),
      ((.stf (ops .A 0 (.main 255) (.special 66) (.special 64) z)), fun _ c => bad (c.reach data1 c.active .write 4 c.scratchAddr)),
      ((.testf (ops .A 0 (.main 1) (.special 66) (.special 64) z)), fun _ c => bad (c.reach data1 c.active .read 4 c.scratchAddr)),
      ((.ldf (ops .A 0 (.main 8) (.special 66) (.special 64) z)), fun _ c => bad (c.reach data1 c.active .read 4 c.scratchAddr)),
      ((.sld (ops .A 0 (.main 1) (.main 0) (.main 0) z)), fun _ c => bad (c.reach data1 1 .read 8 fun _ => (c.once c.va + c.once c.vb) % 2 ^ 64))] ++
     ([64, 66].flatMap fun a => [((.atom (ops .A 0 (.main 255) (.special a) (.special 64) z)), fun _ c => (c.scopeTrouble data1 (c.once c.vb)).isNone && bad (c.reach data1 c.active .both 4 fun k => c.va[k])),
      ((.red (ops .A 0 (.main 255) (.special a) (.special 64) z)), fun _ c => (c.scopeTrouble data1 (c.once c.vb)).isNone && bad (c.reach data1 c.active .both 4 fun k => c.va[k])),
      ((.atomCas (ops .B 0 (.main 255) (.special a) (.special 64) (.special 64))), fun _ c =>
        (c.scopeTrouble data1 (c.once c.vc)).isNone && bad (c.reach data1 c.active .both 4 fun k => c.va[k]))])) := meets_of (by decide +kernel)

theorem witness_StoresAndFaults_races : Meets raced
    [((.mld (ops .A 0 (.main 1) (.special 2) (.special 64) z)), fun x c => races raced c c.active .read (moBytes x) c.ea (fun _ => false) fun _ => false),
     ((.mst (ops .A 0 z (.special 2) (.special 64) z)), fun x c => races raced c c.active .write (moBytes x) c.ea (fun _ => false) fun _ => true),
     ((.sld (ops .A 0 (.main 1) (.main 2) (.main 0) z)), fun _ c =>
       races raced c 1 .read 8 (fun _ => (c.once c.va + c.once c.vb) % 2 ^ 64) (fun _ => true) fun _ => false),
     ((.atom (ops .A 0 (.main 255) (.special 2) (.special 64) z)), fun _ c => (c.scopeTrouble raced (c.once c.vb)).isNone && decide (c.once c.vb ≤ 63) &&
       races raced c c.active .both 4 (fun k => c.va[k]) (fun _ => true) fun k => inMask c.active k),
     ((.red (ops .A 0 (.main 255) (.special 2) (.special 64) z)), fun _ c => (c.scopeTrouble raced (c.once c.vb)).isNone && decide (c.once c.vb ≤ 63) &&
       races raced c c.active .both 4 (fun k => c.va[k]) (fun _ => true) fun k => inMask c.active k),
     ((.atomCas (ops .B 0 (.main 255) (.special 2) (.special 64) (.special 64))), fun _ c => (c.scopeTrouble raced (c.once c.vc)).isNone && decide (c.once c.vc ≤ 63) &&
       races raced c c.active .both 4 (fun k => c.va[k]) (fun _ => true) fun _ => false)] := meets_of (by decide +kernel)

/-- LDC off the grid, outside its image, and where it races. -/
theorem witness_StoresAndFaults_ldc :
    let off (s : State) (c : Ctx) (q : (Fin 32 → Nat) → Machine.Task → Bool) : Bool :=
      (s.task? 0 0).any fun t => q (fun k => (t.image.toNat + c.off k) % 2 ^ 64) t
    Meets data1 [((.ldc (ops .A 0 (.main 8) (.special 65) (.special 64) z)), fun _ c => off data1 c fun a _ => inMask c.active 0 && a 0 % 4 != 0),
      ((.ldc (ops .A 0 (.main 8) (.special 2) (.special 64) z)), fun _ c => off data1 c fun a t => inMask c.active 0 && a 0 % 4 == 0 &&
        (List.range 4).any fun j => (extentPlace c.chip (t.extents.take 1) .read (a 0 + j)).isNone)] ∧
    Meets racedImage [((.ldc (ops .A 0 (.main 8) (.special 64) (.special 64) z)), fun _ c => off racedImage c fun a t =>
      let ps : Lanes (List Place) := lanesFrom fun k =>
        if inMask c.active k then (List.range 4).filterMap fun j => extentPlace c.chip (t.extents.take 1) .read (a k + j) else []
      (vget ps 0).length == 4 && (c.raceOf racedImage (fun _ => false) (fun _ => false) c.active a ps).isSome)] :=
  ⟨meets_of (by decide +kernel), meets_of (by decide +kernel)⟩

theorem witness_AtomicsComplete : Meets data1
    [((.atom (ops .A 0 (.main 255) (.special 2) (.special 64) z)), fun x c => c.room data1 &&
       clearFor data1 c (c.once c.vb) 4 fun k old => some (atomicOp (x.sb 3 0) 32 old c.vd[k])),
     ((.red (ops .A 0 (.main 255) (.special 2) (.special 64) z)), fun x c =>
       clearFor data1 c (c.once c.vb) 4 fun k old => some (atomicOp (x.sb 3 0) 32 old c.vd[k])),
     ((.atomCas (ops .B 0 (.main 255) (.special 2) (.special 64) (.special 64))), fun _ c => c.room data1 &&
       clearFor data1 c (c.once c.vc) 4 fun k old => if old = c.vd[k] then some c.vb[k] else none)] := meets_of (by decide +kernel)

/-- STALE_SCOPE of entry 5, which the gang has not bound, and an index that names no entry. -/
theorem witness_AtomicsComplete_scope : Meets data1
    [((.atom (ops .A 0 (.main 255) (.special 2) (.special 69) z)), fun _ c => (c.scopeTrouble data1 (c.once c.vb)).isSome),
     ((.red (ops .A 0 (.main 255) (.special 2) (.special 69) z)), fun _ c => (c.scopeTrouble data1 (c.once c.vb)).isSome),
     ((.atomCas (ops .B 0 (.main 255) (.special 2) (.special 64) (.special 69))), fun _ c => (c.scopeTrouble data1 (c.once c.vc)).isSome),
     ((.atom (ops .A 0 (.main 255) (.special 2) (.special 2) z)), fun _ c => 63 < c.once c.vb && good (c.reach data1 c.active .both 4 fun k => c.va[k]) fun _ => true),
     ((.red (ops .A 0 (.main 255) (.special 2) (.special 2) z)), fun _ c => 63 < c.once c.vb && good (c.reach data1 c.active .both 4 fun k => c.va[k]) fun _ => true),
     ((.atomCas (ops .B 0 (.main 255) (.special 2) (.special 64) (.special 2))), fun _ c =>
       63 < c.once c.vc && good (c.reach data1 c.active .both 4 fun k => c.va[k]) fun _ => true)] := meets_of (by decide +kernel)

/-- `data1` with the scratchpad's first word full. -/
def filled : State := data1.updTask 0 0 fun t => { t with full := Mem.set t.full 0 1 }

theorem witness_FullEmptyWords : Meets data1
    [((.ldf (ops .A 0 (.main 8) (.special 64) (.special 64) z)), fun _ c => inMask c.active 0 && c.g.orphaned.isEmpty &&
       good (c.reach data1 c.active .read 4 c.scratchAddr) fun ps => !data1.fullAt c.chip ps[0]),
     ((.stf (ops .A 0 (.main 255) (.special 64) (.special 64) z)), fun _ c => good (c.reach data1 c.active .write 4 c.scratchAddr) fun _ => true),
     ((.testf (ops .A 0 (.main 1) (.special 64) (.special 64) z)), fun _ c => c.room data1 && good (c.reach data1 c.active .read 4 c.scratchAddr) fun _ => true)] := meets_of (by decide +kernel)

theorem witness_FullEmptyWords_full : Meets filled [((.ldf (ops .A 0 (.main 8) (.special 64) (.special 64) z)), fun _ c => c.room filled && c.g.orphaned.isEmpty && good (c.reach filled c.active .read 4 c.scratchAddr) fun ps =>
      decide (∀ k : Fin 32, inMask c.active k = true → filled.fullAt c.chip ps[k] = true))] := meets_of (by decide +kernel)

theorem witness_FencesWindows : Meets data1
    [((.fence (ops .A 0 z (.special 64) z z)), fun _ c => c.once c.va ≤ 63 && (c.scopeTrouble data1 (c.once c.va)).isNone),
     ((.fence (ops .A 0 z (.special 2) z z)), fun _ c => decide (63 < c.once c.va)),
     ((.fence (ops .A 0 z (.special 69) z z)), fun _ c => (c.scopeTrouble data1 (c.once c.va)).isSome),
     ((.ifence (ops .A 0 z z z z)), fun _ _ => true), ((.pref (ops .A 0 z one one z)), fun _ _ => true), ((.awin (ops .A 0 (.main 8) one one z)), fun _ c => c.room data1),
     ((.awin (ops .A 4 (.main 8) one one z)), fun _ c => c.room data1), ((.isspace (ops .A 0 (.main 1) one z z)), fun _ c => c.room data1), ((.isspace (ops .A 4 (.main 1) one z z)), fun _ c => c.room data1),
     ((.isspace (ops .A 5 (.main 1) one z z)), fun _ c => c.room data1)] := meets_of (by decide +kernel)

/-- A valid barrier object, with and without an arrival of two expected. -/
def fresh0 : BarObj := ⟨true, 0, 0, 0, 0⟩

theorem witness_BarrierObject :
    [fresh0.v, (fresh0.arrive 1 1).isSome, (fresh0.arrive 2 1).isNone, (fresh0.arrive 1 0).isNone, (BarObj.arrive { fresh0 with v := false } 1 1).isNone,
     (BarObj.arrive { fresh0 with count := 2 } 1 1).isNone, decide (fresh0.bytes < 2 ^ 31), (fresh0.expect (2 ^ 31 - 1)).isSome, (fresh0.expect (2 ^ 31)).isNone,
     (BarObj.expect { fresh0 with v := false } 0).isNone, decide (-2 ^ 31 ≤ fresh0.bytes - 2 ^ 31),
     (BarObj.land { fresh0 with v := false, bytes := 1, count := 1, arrived := 1 } 1).phase == 0, (BarObj.land { fresh0 with bytes := 1, count := 1, arrived := 1 } 1).phase == 1,
     (BarObj.land { fresh0 with bytes := -2 ^ 31 } 1).bytes == 2 ^ 31 - 1].all id = true := by decide +kernel

/-- A barrier's bytes are reached and race with nothing. -/
def barFree (s : State) (c : Ctx) (need : Acc) (q : BarObj → Bool) : Bool :=
  good (c.barReach s need (c.once c.va)) fun ps =>
    (c.raceOf s (fun _ => true) (fun _ => need != .read) c.active (fun _ => c.once c.va) (Lanes.all ps)).isNone && q (BarObj.ofNat (s.readPlaces ps))

/-- `data1` with a valid barrier object at the second extent. -/
def barred : State := holding data1 [(12, 4, 2 ^ 31)]

theorem witness_BarriersComplete : Meets barred
    [((.barInit (ops .A 0 z (.special 2) z z)), fun _ c => barFree barred c .write fun _ => true),
     ((.barArrive (ops .A 0 (.main 8) (.special 2) (.special 65) z)), fun _ c => c.room barred && barFree barred c .both fun b => (b.arrive (laneCount c.active) (c.once c.vb)).isSome),
     ((.barArrive (ops .A 0 (.main 8) (.special 2) (.special 64) z)), fun _ c => barFree barred c .both fun b => (b.arrive (laneCount c.active) (c.once c.vb)).isNone),
     ((.barExpect (ops .A 0 z (.special 2) (.special 95) z)), fun _ c => c.once c.vb < 2 ^ 31 && barFree barred c .both fun b => (b.expects (c.once c.vb) (laneCount c.active)).isSome),
     ((.barWait (ops .A 0 z (.special 2) (.special 65) z)), fun _ c => barFree barred c .read fun b => decide (∀ k : Fin 32, inMask c.active k = true → c.vb[k] ≠ b.phase)),
     ((.barWait (ops .A 0 z (.special 2) (.special 64) z)), fun _ c => inMask c.active 0 && barFree barred c .read fun b => c.vb[(0 : Fin 32)] == b.phase),
     ((.barTest (ops .A 0 (.main 1) (.special 2) (.special 64) z)), fun _ c => c.room barred && barFree barred c .read fun _ => true)] := meets_of (by decide +kernel)

/-- The supervisor's gang, with one core in the chip and a scope record of that core at the second extent; 63 in s14. -/
def super1 : State := holding (((levelled data1 .supervisor).updGang g0 fun g => { g with sreg := vset g.sreg 14 63 }).updChip 0 fun c =>
  { c with scopeEn := true }) [(0, 1, 1)]

theorem witness_CountersScopes : Meets super1
    [((.tlwait (ops .A 0 z z (.special 64) z)), fun x c => decide (c.once c.vb ≤ c.counter super1 (opndBits x.a.opnd % 8))),
     ((.tlwait (ops .A 0 z z (.special 65) z)), fun x c => decide (c.counter super1 (opndBits x.a.opnd % 8) < c.once c.vb)),
     ((.scopew (ops .A 0 z (.special 69) (.special 2) z)), fun _ c => c.once c.va == 5 && good (c.record super1 (c.once c.vb) 64 64) fun r =>
       (super1.chip? c.chip).any fun k => field r.2 0 20 != 0 && (BitVec.ofNat 160 (field r.2 0 20) &&& ~~~k.coreMask) == 0 &&
         decide (field r.2 0x14 1 ≤ 3) && field r.2 0x15 43 == 0),
     ((.scoperet (ops .A 0 z (.special 69) z z)), fun _ c => c.once c.va == 5),
     ((.scopew (ops .A 0 z (.special 68) (.special 2) z)), fun _ c => c.once c.va == 4 && good (c.recordAt super1 (c.once c.vb) 64 64) fun _ => true),
     ((.scopew (ops .A 0 z (.special 2) (.special 2) z)), fun _ c => decide (63 < c.once c.va) && good (c.recordAt super1 (c.once c.vb) 64 64) fun _ => true),
     ((.scoperet (ops .A 0 z (.special 14) z z)), fun _ c => c.once c.va == 63),
     ((.scoperet (ops .A 0 z (.special 2) z z)), fun _ c => decide (63 < c.once c.va)), ((.scopebind (ops .A 0 z (.special 2) z z)), fun _ c => decide (63 < c.once c.va)),
     ((.scopeq (ops .A 0 (.main 1) (.special 2) z z)), fun _ c => decide (63 < c.once c.va)),
     ((.scoperet (ops .A 0 z (.special 68) z z)), fun _ c => c.once c.va == 4), ((.scopebind (ops .A 0 z (.special 69) z z)), fun _ c => c.once c.va ≤ 63 && (super1.chip? c.chip).isSome),
     ((.scopeq (ops .A 0 (.main 1) (.special 69) z z)), fun _ c => c.room super1 && c.once c.va ≤ 63 && (super1.chip? c.chip).isSome)] := meets_of (by decide +kernel)


/-! ### Witnesses: engines, moments, the pod, messages -/

/-- The stalls of R171 do not hold a matrix command. -/
def mayQueue (s : State) (c : Ctx) : Bool :=
  (c.ownTask s).any fun p => (s.holdArray c.core p.1 p.2.1).isSome && !p.2.2.arrayDue && decide (p.2.2.arr.depth < 16) && !p.2.2.mresWaits

theorem witness_MatrixInstructions : Meets data1
    ([((.wld (ops .A 0 z (.special 64) (.special 64) z)), fun _ c => c.once c.vb < 2 ^ 20 && c.once c.va % 4 == 0), ((.wsel (ops .A 0 z (.special 65) z z)), fun _ c => c.once c.va ≤ 63),
      ((.mma (ops .B 0 z (.special 64) (.special 65) z)), fun x c => (mcwFault 2048 (Mcw.of (c.once c.vb)) (c.once c.va) (opndBits x.dst % 256) false).isNone),
      ((.mmam (ops .B 0 z (.special 64) (.special 4) z)), fun x c => (mcwFault 2048 (Mcw.of (c.once c.vb)) (c.once c.va) (opndBits x.dst % 256) true).isNone),
      ((.aclr (ops .A 0 (.main 15) z z z)), fun x _ => opndBits x.dst % 256 + (x.sb 3 0 + 1) ≤ 16),
      ((.adrn (ops .A 0 z (.special 65) (.special 64) z)), fun x c => ((Dw.of (c.once c.va) (c.once c.vb)).fault 2048 (opndBits x.dst % 256)).isNone)].map fun q =>
        (q.1, fun x c => q.2 x c && mayQueue data1 c && c.scratchBytes data1 == 2048)) := meets_of (by decide +kernel)

theorem witness_MatrixInstructions_epld : Meets data1
    [((.epld (ops .A 0 z (.special 64) z z)), fun _ c => mayQueue data1 c && (data1.task? 0 0).any fun t => c.once c.va % 64 == 0 &&
      (List.range 128).all fun k => (extentPlace 0 (t.extents.take 1) .read ((t.image.toNat + c.once c.va) % 2 ^ 64 + k)).isSome)] :=
  meets_of (by decide +kernel)

/-- An engine command's issuer. -/
def who : IssuedBy := ⟨0, 1, 0, 8, [], 2 ^ 60, 1, 1, 0⟩

/-- `data1` whose core's array is held by another task; by its own, which has still to restore it; and by its own with 16 commands. -/
def heldElse : State := data1.updCore k0 fun k => { k with holder := some (0, 5) }
def heldDue : State := (data1.updCore k0 fun k => { k with holder := some (0, 0) }).updTask 0 0 fun t => { t with arrayDue := true }
def heldFull : State := (data1.updCore k0 fun k => { k with holder := some (0, 0) }).updArr 0 0 fun a =>
  { a with queue := List.replicate 16 ⟨4, 0, 0, 1, 0, 0, 0, who⟩ }

def heldMres : State := (data1.updCore k0 fun k => { k with holder := some (0, 0) }).updTask 0 0 fun t => { t with gangs := t.gangs.map fun g => (g.1, { g.2 with bundles := [⟨0xFFFFFFFE, 0, some ⟨.msaveMres, 0, 0, .mres (ops .A 0 z z z z), [], 0⟩, []⟩] }) }

theorem witness_MatrixInstructions_held :
    Meets heldElse [((.wsel (ops .A 0 z (.special 65) z z)), fun _ c => c.once c.va ≤ 63 && (heldElse.core c.core).holder == some (0, 5))] ∧
    Meets heldDue [((.wsel (ops .A 0 z (.special 65) z z)), fun _ c => (c.ownTask heldDue).any fun p => p.2.2.arrayDue)] ∧
    Meets heldFull [((.wsel (ops .A 0 z (.special 65) z z)), fun _ c => (heldFull.core c.core).holder == some (0, 0) &&
      (c.ownTask heldFull).any fun p => !p.2.2.arrayDue && 16 ≤ p.2.2.arr.depth)] ∧
    Meets heldMres [((.wsel (ops .A 0 z (.special 65) z z)), fun _ c => (heldMres.core c.core).holder == some (0, 0) &&
      (c.ownTask heldMres).any fun p => !p.2.2.arrayDue && p.2.2.mresWaits)] :=
  ⟨meets_of (by decide +kernel), meets_of (by decide +kernel), meets_of (by decide +kernel), meets_of (by decide +kernel)⟩

/-- `data1` with a quantiser record at s11: one row of 32 binary32 numbers to format 4. -/
def quantised : State := holding data1
  [(0x400, 8, 0x8000000000101000), (0x408, 8, 0x8000000000102000), (0x410, 8, 0x8000000000103000), (0x418, 4, 1), (0x41C, 4, 32), (0x431, 1, 4)]

theorem witness_Quantiser : Meets quantised
    [((.qnt (ops .B 0 z (.special 11) z z)), fun _ c => good (c.record quantised (c.once c.va) 64 64) fun r => (QRec.of r.2).ok r.2 && (r.1.dev? c.core.dev).any fun d =>
       decide ((d.quant (dieOf c.core.core)).length < 256) && (c.ownTask quantised).any fun p =>
         good (p.2.2.ranges p.1 .read (QRec.of r.2).sources) fun _ => good (p.2.2.ranges p.1 .write (QRec.of r.2).outputs) fun _ => true),
     ((.qwait (ops .A 0 z z z z)), fun _ c => (c.ownTask quantised).any fun p => !quantised.quantBusy p.1 p.2.1 p.2.2.seq && !p.2.2.matrixBusy p.2.2.seq)] :=
  meets_of (by decide +kernel)

/-- `heldFull` where the commands are among those issued. -/
def engineBusy : State := heldFull.updTask 0 0 fun t => { t with seq := 16 }

theorem witness_Quantiser_busy : Meets engineBusy [((.qwait (ops .A 2 z z z z)), fun x c => x.sub.toNat % 4 != 0 &&
    (c.ownTask engineBusy).any fun p => p.2.2.matrixBusy p.2.2.seq)] := meets_of (by decide +kernel)

/-- `data1` with a tensor descriptor of four 4-byte elements at s2, a copy record at s8 and a handle in h0. -/
def tensors : State := (holding data1 [(0, 8, 0x8000000000100800), (8, 1, 1), (9, 1, 2), (0x10, 4, 4), (0x50, 8, 4), (0x148, 2, 4)]).updGang g0 fun g =>
  { g with hand := vset g.hand 0 (some ⟨0x8000000000100800, 1, 2, [4], [4]⟩) }

/-- As `tensors`, with two dimensions and a record for gathered rows. -/
def gathered : State := (holding data1 [(0x148, 2, 4), (0x14A, 2, 1)]).updGang g0 fun g =>
  { g with hand := vset g.hand 0 (some ⟨0x8000000000100800, 2, 2, [4, 4], [4, 16]⟩) }

theorem witness_TensorCopies :
    Meets tensors [((.hmk (ops .A 0 (.main 1) (.special 2) (.special 64) z)), fun _ c => good (c.record tensors ((c.once c.va + c.once c.vb) % 2 ^ 64) 64 256) fun r => (handleOf r.2).isSome),
      ((.cpy (ops .B 0 z z (.special 8) z)), fun _ c => good (c.record tensors (c.once c.vb) 64 128) fun r => good (c.handle r.1) fun q => q.2.any fun h =>
        let b : Box := ⟨h, CopyRec.of r.2, none⟩
        (c.copyFault q.1 b r.2 (c.copyTask q.1)).isNone && (q.1.copyHeld c.chip b).isNone && decide ((q.1.core c.core).copyq.length < 64))] ∧
    Meets gathered [((.cpyg (ops .B 0 z z (.special 8) (.special 64))), fun _ c => good (c.record gathered (c.once c.vb) 64 128) fun r => good (c.handle r.1) fun q => q.2.any fun h =>
        let b : Box := ⟨h, CopyRec.of r.2, some ((lanesOf c.active).map fun k => c.vc[k])⟩
        (c.copyFault q.1 b r.2 (c.copyTask q.1)).isNone && (q.1.copyHeld c.chip b).isNone && decide ((q.1.core c.core).copyq.length < 64))] :=
  ⟨meets_of (by decide +kernel), meets_of (by decide +kernel)⟩

/-- Every active lane's variance is good. -/
def fair (c : Ctx) (v : Lanes Nat) : Bool := decide (∀ k : Fin 32, inMask c.active k = true → badVar (Mo.of v[k]).var = false)

theorem witness_MomentResults : Meets data1
    [((.madd (ops .A 0 (.main 1) z z z)), fun _ c => c.room data1 && good c.rho (fun _ => true) && fair c c.va && fair c c.vb),
     ((.msub (ops .A 1 (.main 1) z z z)), fun _ c => c.room data1 && good c.rho (fun _ => true) && fair c c.va && fair c c.vb),
     ((.mmul (ops .A 2 (.main 1) z z z)), fun _ c => c.room data1 && good c.rho (fun _ => true) && fair c c.va && fair c c.vb),
     ((.mfma (ops .E 15 (.main 1) z z z)), fun _ c => c.room data1 && good c.rho (fun _ => true) && fair c c.va && fair c c.vb && fair c c.vc),
     ((.mscl (ops .A 0 (.main 1) z one z)), fun _ c => c.room data1 && fair c c.va), ((.mmov (ops .A 0 (.main 1) z z z)), fun _ c => c.room data1),
     ((.mset (ops .A 0 (.main 1) one one z)), fun _ c => c.room data1 && decide (∀ k : Fin 32, inMask c.active k = true → badVar (Fm.decode .f32 c.vb[k]) = false))] :=
  meets_of (by decide +kernel)

/-- `data1` with 2.0, which is no correlation, in s12, a negative variance in m1 and −1.0 in o0. -/
def unfair : State := data1.updGang g0 fun g =>
  { g with sreg := vset g.sreg 12 0x40000000, mom := vset g.mom 1 (Lanes.all 0xBF80000000000000),
           ofile := vset g.ofile 0 (Lanes.all 0xBF800000) }

theorem witness_MomentFunctionsFaults :
    Meets data1
      [((.mrelu (ops .A 0 (.main 1) z z z)), fun _ c => c.room data1 && fair c c.va), ((.mexp (ops .A 0 (.main 1) z z z)), fun _ c => c.room data1 && fair c c.va),
       ((.msigm (ops .A 0 (.main 1) z z z)), fun _ c => c.room data1 && fair c c.va), ((.mtanh (ops .A 0 (.main 1) z z z)), fun _ c => c.room data1 && fair c c.va),
       ((.mrcp (ops .A 0 (.main 1) z z z)), fun _ c => c.room data1 && fair c c.va), ((.mcol (ops .A 0 (.main 8) z z z)), fun _ c => c.room data1 && calm c && fair c c.va),
       ((.mld (ops .A 0 (.main 1) (.special 2) (.special 64) z)), fun x c => c.room data1 && good (c.reach data1 c.active .read (moBytes x) c.ea) fun ps =>
         (c.raceOf data1 (fun _ => false) (fun _ => false) c.active c.ea ps).isNone),
       ((.mst (ops .A 0 z (.special 2) (.special 64) z)), fun x c => good (c.reach data1 c.active .write (moBytes x) c.ea) fun ps =>
         (c.raceOf data1 (fun _ => false) (fun _ => true) c.active c.ea ps).isNone)] ∧
    Meets unfair
      ([(.madd (ops .A 51 (.main 1) z z z)), (.msub (ops .A 51 (.main 1) z z z)), (.mmul (ops .A 51 (.main 1) z z z)),
          (.mfma (ops .E 51 (.main 1) z z z))].map (fun i => (i, fun _ c => bad c.rho)) ++
        [(.madd (ops .A 0 (.main 1) z (.main 1) z)), (.msub (ops .A 0 (.main 1) z (.main 1) z)), (.mmul (ops .A 0 (.main 1) z (.main 1) z)),
          (.mfma (ops .E 0 (.main 1) z (.main 1) z))].map (fun i => (i, fun _ c =>
            good c.rho (fun _ => true) && inMask c.active 0 && badVar (Mo.of c.vb[(0 : Fin 32)]).var)) ++
        [(.mscl (ops .A 0 (.main 2) (.main 1) one z)), (.mrelu (ops .A 0 (.main 2) (.main 1) z z)), (.mexp (ops .A 0 (.main 2) (.main 1) z z)),
          (.msigm (ops .A 0 (.main 2) (.main 1) z z)), (.mtanh (ops .A 0 (.main 2) (.main 1) z z)), (.mrcp (ops .A 0 (.main 2) (.main 1) z z)),
          (.mcol (ops .A 0 (.main 8) (.main 1) z z))].map (fun i => (i, fun _ c => inMask c.active 0 && badVar (Mo.of c.va[(0 : Fin 32)]).var)) ++
        [((.mset (ops .A 0 (.main 2) one (.file 0) z)), fun _ c => inMask c.active 0 && badVar (Fm.decode .f32 c.vb[(0 : Fin 32)]))]) :=
  ⟨meets_of (by decide +kernel), meets_of (by decide +kernel)⟩

theorem witness_MomentFunctionsFaults_traps : Meets trapped [((.mcol (ops .A 2 (.main 8) (.main 1) z z)), fun x c => c.room trapped && fair c c.va &&
    c.trapping (fun k => (collapse 2 (c.rm 0 k) (Mo.of c.va[k]) (Fm.decode .f32 c.vb[k])).write .f32 (c.rm 0 k) false x.clp x.scl) != 0)] := meets_of (by decide +kernel)

/-- `data1` in a pod of one chip, with an assigning and an adding region, a mailbox, and an open queue. -/
def podded : State :=
  { data1.updChip 0 fun c =>
      { c with tide := { c.tide with eff := [(0, ⟨0x8000000000200000, 0x100000000, 0x8000000000000000, 0⟩),
                                             (1, ⟨0x8000000000210000, 0x100010000, 0x8000000000000001, 0⟩)] },
               mbxBase := vset c.mbxBase 0 131072, mbxSize := vset c.mbxSize 0 65536,
               queues := vset c.queues 0 { vget c.queues 0 with base := 0x8000000000300000, en := true, dev := true, lg := 4, head := 1, tail := 1 } } with
    guests := [(0, { Guest.reset with vct := [(0, 0x80000000)], rlt := [(0, 0x83FFFC00)] })] }

theorem witness_TidalStores : Meets podded
    [((.tst (ops .A 0 (.main 255) (.special 5) (.special 64) z)), fun _ c => good (c.podReach 4 c.ea (podded.tidalAt c.guest)) fun v =>
       decide (∀ k : Fin 32, inMask c.active k = true → v[k].all fun p => (p.2.rule == 0 || p.2.rule == 6) &&
         (podded.regionTargets c.guest p.1.vchip p.2).all fun d => !podded.heldTo c.guest (c.chip % 1024) d)),
     ((.tred (ops .A 0 (.main 255) (.special 6) (.special 64) z)), fun x c => good (c.podReach (etBytes (x.sb 6 3)) c.ea (podded.tidalAt c.guest)) fun v =>
       decide (∀ k : Fin 32, inMask c.active k = true → v[k].all fun p => p.2.rule == x.sb 2 0 + 1 && p.2.et == x.sb 6 3 &&
         (podded.regionTargets c.guest p.1.vchip p.2).all fun d => !podded.heldTo c.guest (c.chip % 1024) d))] := meets_of (by decide +kernel)

/-- A write's packet, while the tide is open and while it is closed. -/
theorem witness_TidalStores_packet : Has (podded.chip? 0) (fun c => !c.tide.closed) ∧
    Has ((podded.updChip 0 fun c => { c with tide := { c.tide with closed := true } }).chip? 0) (fun c => c.tide.closed) :=
  ⟨has_of (by decide +kernel), has_of (by decide +kernel)⟩

/-- `podded` with its tide closed. -/
def closed : State := podded.updChip 0 fun c => { c with tide := { c.tide with closed := true } }

theorem witness_Tides :
    Meets podded
      [((.tideClose (ops .A 0 z (.special 64) z z)), fun _ c => (podded.chip? c.chip).any fun k => c.once c.va == k.tide.c.toNat && !k.tide.closed &&
         decide (∀ j : Fin 32, inMask c.active j = true → podded.copiesBefore c.chip (c.actor podded j).clock = false)),
       ((.tideClose (ops .A 0 z (.special 65) z z)), fun _ c => (podded.chip? c.chip).any fun k => k.tide.c.toNat < c.once c.va && !k.tide.closed),
       ((.tideWait (ops .A 0 z (.special 64) z z)), fun _ c => (podded.chip? c.chip).any fun k => k.tide.c.toNat ≤ c.once c.va),
       ((.tideQuery (ops .A 1 (.main 1) z z z)), fun _ c => c.room podded && (podded.chip? c.chip).isSome)] ∧
    Meets closed
      [((.tideClose (ops .A 0 z (.special 64) z z)), fun _ c => (closed.chip? c.chip).any fun k => c.once c.va == k.tide.c.toNat && k.tide.closed),
       ((.tideClose (ops .A 0 z (.special 65) z z)), fun _ c => (closed.chip? c.chip).any fun k => c.once c.va == k.tide.c.toNat + 1 && k.tide.closed),
       ((.tideClose (ops .A 0 z (.special 66) z z)), fun _ c => (closed.chip? c.chip).any fun k => k.tide.c.toNat + 1 < c.once c.va && k.tide.closed)] :=
  ⟨meets_of (by decide +kernel), meets_of (by decide +kernel)⟩

/-- `podded` with a tidal copy that its first thread has issued and that has not moved. -/
def copying : State := (podded.updCore k0 fun k => { k with copyq := [⟨1, 0, 0, 0, who, le 128 1, some ⟨0xFFFFF80000000000, 1, 2, [4], [4]⟩, [], 0, .queued, none, []⟩] }).updChip
  0 fun c => { c with hb := { c.hb with clocks := [(0, [(0, 9)])] } }

/-- `closed` with its turn's writes all come, and with the turn begun. -/
def due : State := closed.updChip 0 fun c => { c with tide := { c.tide with now := { c.tide.now with closes := [(0, 0)] } } }
def applying : State := due.updChip 0 fun c => { c with tide := { c.tide with apply := true } }

/-- As `applying`, with a granule of a region under way to another tier. -/
def applyMoving : State := applying.updChip 0 fun c =>
  { c with moving := [0], tide := { c.tide with held := [(0, [⟨0x8000000000200000, 4096, false, 0⟩])] } }

theorem witness_Tides_copies : Meets copying
    [((.tideClose (ops .A 0 z (.special 64) z z)), fun _ c => (copying.chip? c.chip).any fun k => c.once c.va == k.tide.c.toNat && !k.tide.closed &&
       inMask c.active 0 && copying.copiesBefore c.chip (c.actor copying 0).clock)] := meets_of (by decide +kernel)

/-- `podded` after its first turn. -/
def turned : State := podded.updChip 0 fun c => { c with tide := { c.tide with c := 1 } }

theorem witness_Tides_turn :
    Meets turned [((.tideWait (ops .A 0 z (.special 64) z z)), fun _ c => (turned.chip? c.chip).any fun k => c.once c.va < k.tide.c.toNat),
      ((.tideClose (ops .A 0 z (.special 64) z z)), fun _ c => (turned.chip? c.chip).any fun k => c.once c.va < k.tide.c.toNat)] ∧
    Has (podded.chip? 0) (fun c => !c.tide.apply && !podded.turnReady c) ∧ Has (due.chip? 0) (fun c => !c.tide.apply && due.turnReady c) ∧
    Has (applying.chip? 0) (fun c => c.tide.apply && !c.regionMoves) ∧ Has (applyMoving.chip? 0) (fun c => c.tide.apply && c.regionMoves) :=
  ⟨meets_of (by decide +kernel), has_of (by decide +kernel), has_of (by decide +kernel), has_of (by decide +kernel), has_of (by decide +kernel)⟩

/-- Either half of R206 reaches the word. -/
def podAny (s : State) (c : Ctx) (a : Nat) : Option PodAddr := match s.tidalAt c.guest a with | some p => some p.1 | none => s.mailboxAt c.guest a

/-- `podded` with 32 remote results outstanding. -/
def waiting : State := podded.updGang g0 fun g =>
  { g with pend := List.replicate 32 ⟨0, .rld false, .sink, 0, 0, Lanes.all 0, Lanes.all 0, 0, Lanes.all 0, false, false, 0, 0, .fillWord, []⟩ }

theorem witness_RemoteAccesses :
    Meets podded
      [((.rld (ops .A 0 (.main 8) (.special 5) (.special 64) z)), fun _ c => c.room podded && good (c.podReach 4 c.ea (podAny podded c)) fun _ => !c.g.remoteFull),
       ((.ratom (ops .A 0 (.main 255) (.special 7) z z)), fun _ c => c.room podded && good (c.podReach 4 (fun k => c.va[k]) (podded.mailboxAt c.guest)) fun _ => !c.g.remoteFull)] ∧
    Meets waiting
      [((.rld (ops .A 0 (.main 8) (.special 5) (.special 64) z)), fun _ c => good (c.podReach 4 c.ea (podAny waiting c)) fun _ => c.g.remoteFull),
       ((.ratom (ops .A 0 (.main 255) (.special 7) z z)), fun _ c => good (c.podReach 4 (fun k => c.va[k]) (waiting.mailboxAt c.guest)) fun _ => c.g.remoteFull)] :=
  ⟨meets_of (by decide +kernel), meets_of (by decide +kernel)⟩

/-- `podded` at supervisor level with a send descriptor at s9 and a launch record at s10. -/
def posted : State := levelled (holding podded
  [(0x200, 8, 0x8000000000100000), (0x208, 4, 8), (0x300, 8, 0x8000000000000000), (0x320, 4, 1), (0x324, 1, 1), (0x325, 1, 255)]) .supervisor

/-- `posted` with queue 0 full. -/
def ringFull : State := posted.updChip 0 fun c => { c with queues := vset c.queues 0 { vget c.queues 0 with tail := 0 } }

theorem witness_MessagesLaunches :
    Meets posted
      [((.send (ops .A 0 z (.special 9) z z)), fun _ c => good (c.record posted (c.once c.va) 32 32) fun r => r.1.sendOk c.guest r.2 &&
         good (r.1.enginePlaces c.chip 0 .read (SendRec.of r.2).paddr (SendRec.of r.2).len) (fun _ => true) &&
         decide ((r.1.core c.core).copyq.length < 64)),
       ((.arm (ops .A 0 z (.special 95) (.special 10) z)), fun _ c => good (c.record posted (c.once c.vb) 64 128) fun r => (r.1.chip? c.chip).any fun k => c.once c.va ≤ 255 &&
         r.1.issueOk c.chip (LaunchRec.of r.2) && decide ((LaunchRec.of r.2).aq ≤ 63) && (vget k.queues (LaunchRec.of r.2).aq).open_),
       ((.disarm (ops .A 0 z (.special 95) z z)), fun _ c => c.once c.va ≤ 255), ((.hint (ops .A 0 z z z z)), fun _ _ => true),
       ((.launch (ops .A 0 z (.special 10) (.special 64) z)), fun _ c => good (c.record posted (c.once c.va) 64 128) fun r => (r.1.chip? c.chip).any fun k => c.once c.vb ≤ 63 &&
         r.1.issueOk c.chip (LaunchRec.of r.2) && (vget k.queues (c.once c.vb)).open_ && !k.queueFull (c.once c.vb)),
       ((.launch (ops .A 0 z (.special 10) (.special 65) z)), fun _ c => good (c.record posted (c.once c.va) 64 128) fun r => (r.1.chip? c.chip).any fun k => c.once c.vb ≤ 63 &&
         !(vget k.queues (c.once c.vb)).open_)] ∧
    Meets ringFull
      [((.launch (ops .A 0 z (.special 10) (.special 64) z)), fun _ c => good (c.record ringFull (c.once c.va) 64 128) fun r => (r.1.chip? c.chip).any fun k =>
         r.1.issueOk c.chip (LaunchRec.of r.2) && (vget k.queues (c.once c.vb)).open_ && k.queueFull (c.once c.vb))] :=
  ⟨meets_of (by decide +kernel), meets_of (by decide +kernel)⟩


/-! ### Witnesses: traps, system instructions, words without a meaning -/

/-- `data1` in handler mode with frame 3 and one thread that has not exited. -/
def handling : State := data1.updGang g0 fun g =>
  { g with pl := .supervisor, frame := some 3, mark := some ⟨0x40, 0x48, 1, 0, []⟩, exited := 0xFFFFFFFE }

/-- As `handling`, with a second thread that has not issued TRET. -/
def handlingTwo : State := handling.updGang g0 fun g => { g with exited := 0xFFFFFFFC }

theorem witness_TrapAndReturn : Meets data1 [((.trap (ops .A 0 z z one z)), fun x _ => x.form == .A)] ∧
    Meets handlingTwo [((.tret (ops .A 0 z z z z)), fun _ c => c.g.frame == some 3 && (c.g.inTret ||| c.active) != ~~~c.g.exited)] :=
  ⟨meets_of (by decide +kernel), meets_of (by decide +kernel)⟩

/-- An outstanding result of the gang: of kind `kind`, with lanes still to come. -/
def outstanding (kind : PendKind) (lanes missing traps : LaneMask) : Pend :=
  ⟨0, kind, .sink, lanes, missing, Lanes.all 0, Lanes.all 0, traps, Lanes.all 0, false, false, 0, lanes, .fillWord, []⟩

/-- `data1` at firmware level, with a remote result outstanding, and its control core with an event and without one. -/
def firm : State := levelled data1 .firmware
def firmAwaits : State := firm.updGang g0 fun g => { g with pend := [outstanding (.rld false) 2 2 0] }
def ctrl : State := (placed true false []).updCore k0 fun k => { k with evq := [(0, [7])] }
def ctrlIdle : State := placed true false []

theorem witness_SystemInstructions :
    Meets data1
      [((.sysr (ops .A 0 (.main 1) z (.special 67) z)), fun _ c => c.room data1 && regOk (data1.sysRead c.chip (some c.core) c.g.pl (c.once c.vb))),
       ((.sysr (ops .A 0 (.main 1) z (.special 2) z)), fun _ c => regNone (data1.sysRead c.chip (some c.core) c.g.pl (c.once c.vb))),
       ((.sysw (ops .A 0 z (.special 65) (.special 2) z)), fun _ c => regNone (data1.sysWrite c.chip c.g.pl (c.once c.vb) (BitVec.ofNat 64 (c.once c.va)))),
       ((.cap (ops .A 0 (.main 1) (.special 65) z z)), fun _ c => c.room data1 && (data1.chip? c.chip).isSome),
       ((.cap (ops .A 1 (.main 1) (.special 65) z z)), fun _ c => c.room data1 && (data1.chip? c.chip).isSome)] ∧
    Meets firm
      [((.sysw (ops .A 0 z (.special 65) (.special 12) z)), fun _ c => regOk (firm.sysWrite c.chip c.g.pl (c.once c.vb) (BitVec.ofNat 64 (c.once c.va)))),
       ((.halt (ops .A 0 z z z z)), fun _ c => (firm.dev? c.core.dev).isSome && !firm.awaitsRemote c.core)] ∧
    Meets firmAwaits [((.halt (ops .A 0 z z z z)), fun _ c => firmAwaits.awaitsRemote c.core)] ∧
    Meets ctrl
      [((.evqPop (ops .A 0 (.main 8) z z z)), fun _ c => c.room ctrl && !(Tab.getD (ctrl.core c.core).evq c.chip []).isEmpty), ((.trel (ops .A 0 z (.special 64) z z)), fun _ c => (ctrl.chip? c.chip).isSome)] ∧
    Meets ctrlIdle
      [((.evqPop (ops .A 0 (.main 8) z z z)), fun _ c => c.room ctrlIdle && (Tab.getD (ctrlIdle.core c.core).evq c.chip []).isEmpty),
       ((.evqPop (ops .A 1 (.main 8) z z z)), fun x c => x.sub == 1 && (Tab.getD (ctrlIdle.core c.core).evq c.chip []).isEmpty)] :=
  ⟨meets_of (by decide +kernel), meets_of (by decide +kernel), meets_of (by decide +kernel), meets_of (by decide +kernel),
   meets_of (by decide +kernel)⟩

/-- What the checks have of an instruction at order 5. -/
def atOrder5 (s : State) (i : Instr) (p : Ctx → Reads → Bool) : Bool :=
  match s.issuing, i.spec, i.ops with
  | some (w, q, core, chip, lanes), some sp, some x =>
    let r := ctxOf s i sp x w q core chip lanes
    (encOk r.1.md r.1.sp r.1.x && placeOk r.1.md r.1.i r.1.sp) && opndOk r.1.md r.1.sp r.1.x && p r.1 r.2
  | _, _, _ => false

/-- A register above the gang's level is known at order 5 from SB, read or written, and from IMM32; one at its level is none of these. -/
theorem witness_SystemInstructions_priv :
    [(.sysr (ops .A 0 (.main 1) z (.special 66) z)), (.sysw (ops .A 0 z (.special 65) (.special 12) z)),
      (.sysw { ops .D 0 z (.special 65) z z with imm := 0x1000 })].all (fun i => atOrder5 data1 i fun c r => (c.regIndex r).isSome && c.regPriv data1 r) = true ∧
    atOrder5 data1 (.sysr (ops .A 0 (.main 1) z (.special 67) z)) (fun c r => (c.regIndex r).isSome && !c.regPriv data1 r) = true := by
  decide +kernel

/-- The gang of a C16 kernel, and a queue of its Lovage unit with its request. -/
def legacy : State := placed false true []
def request : LovEntry := ⟨g0, 0, 1, ops .A 0 (.main 8) one one z, 1, 1, 0, Lanes.all 1, Lanes.all 1⟩

theorem witness_WordsWithoutMeaning :
    Meets legacy ([(.byteAbsDiffSum (ops .A 0 (.main 8) one one z)), (.retiredOperation 0x3F (ops .A 0 z z z z))].map fun i => (i, fun _ c => c.room legacy && (legacy.dev? c.core.dev).any fun d =>
      decide ((d.lov (dieOf c.core.core)).length < 256) && decide (((d.lov (dieOf c.core.core)).filter fun e => e.core == c.core.core).length < 4))) :=
  meets_of (by decide +kernel)


/-! ### Witnesses: the ends of waits -/

/-- The Lovage unit of die 0 with the request of a thread that waits for it, and with one that no thread waits for. -/
def asked : State := (held (legacy.updDev 0 fun d => d.setLov 0 [{ request with lanes := 1, bundle := 1 }]) .lovage 0 { request with lanes := 1, bundle := 1 }.instr [])
def other : LovEntry := { request with lanes := 1, bundle := 1, k := 0x3F, x := ops .A 0 z z z z }
def askedOther : State := held (legacy.updDev 0 fun d => d.setLov 0 [other]) .lovage 0 other.instr []
def unasked : State := legacy.updDev 0 fun d => d.setLov 0 [request]

theorem witness_WordsWithoutMeaning_service :
    Has (asked.dev? 0) (fun d => match d.lov 0 with
      | e :: rest => let t := asked.updDev 0 fun d => d.setLov 0 rest
          (t.waiting e.g e.bundle .lovage).any (fun w => w.instr == e.instr) && e.k == 1 && e.x.sub == 0 &&
            endsMet t e.g e.bundle .lovage anyInstr (fun _ c v => c.room v) && nexts asked (.lovageService 0 0)
      | [] => false) ∧
    Has (askedOther.dev? 0) (fun d => match d.lov 0 with
      | e :: rest => let t := askedOther.updDev 0 fun d => d.setLov 0 rest
          (t.waiting e.g e.bundle .lovage).any (fun w => w.instr == e.instr) && e.k != 1 &&
            endsMet t e.g e.bundle .lovage anyInstr (fun _ _ _ => true) && nexts askedOther (.lovageService 0 0)
      | [] => false) ∧
    Has (unasked.dev? 0) (fun d => match d.lov 0 with
      | e :: rest => ((unasked.updDev 0 fun d => d.setLov 0 rest).waiting e.g e.bundle .lovage).isNone && nexts unasked (.lovageService 0 0)
      | [] => false) :=
  ⟨has_of (by decide +kernel), has_of (by decide +kernel), has_of (by decide +kernel)⟩

/-- A gang that stops has its request's answer first (R432): nothing of it is left in the queue, and its thread stands past the operation. -/
theorem test_lovage_answers_a_stop :
    (((asked.settleGang g0).dev? 0).any fun d => (d.lov 0).isEmpty) = true ∧
    (((asked.settleGang g0).gang? g0).any fun q => (asked.gang? g0).any fun p => q.pc[0] == p.pc[0] + 8) = true := by decide +kernel

/-- Threads whose waits may end: a full word, a turned barrier, a counter at its value, idle engines, a tide that has turned. -/
def onWord : State := held filled .ldf 0 (.ldf (ops .A 0 (.main 8) (.special 64) (.special 64) z)) []
def onBarrier : State := held barred .barWait 0 (.barWait (ops .A 0 z (.special 2) (.special 65) z)) []
def onCounter : State := held data1 .tlwait 0 (.tlwait (ops .A 0 z z (.special 64) z)) []
def onQueues : State := held data1 .qwait 0 (.qwait (ops .A 0 z z z z)) []
def onMatrix : State := held data1 .qwait 0 (.qwait (ops .A 1 z z z z)) []
def onTide : State := held turned .tideWait 0 (.tideWait (ops .A 0 z (.special 64) z z)) []
def onClose : State := held podded .tideClose 0 (.tideClose (ops .A 0 z (.special 64) z z)) []

def onLate : State := held turned .tideClose 0 (.tideClose (ops .A 0 z (.special 64) z z)) []
def onClosed : State := held closed .tideClose 0 (.tideClose (ops .A 0 z (.special 64) z z)) []

theorem witness_WaitsEnd :
    EndsMet onWord g0 1 .ldf anyInstr (fun _ c v => (c.room v && (match c.w with | .gang _ _ => true | _ => false) && c.g.orphaned.isEmpty &&
      good (c.reach v c.active .read 4 c.scratchAddr) fun ps => decide (∀ k : Fin 32, inMask c.active k = true → v.fullAt c.chip ps[k] = true)) = true) ∧
    EndsMet onBarrier g0 1 .barWait anyInstr (fun _ c v => (good (c.barReach v .read (c.once c.va)) fun ps =>
      decide (c.raceOf v (fun _ => true) (fun _ => false) c.active (fun _ => c.once c.va) (Lanes.all ps) = none) &&
        decide (∀ k : Fin 32, inMask c.active k = true → c.vb[k] ≠ (BarObj.ofNat (v.readPlaces ps)).phase)) = true) ∧
    EndsMet onCounter g0 1 .tlwait anyInstr (fun _ c v => decide (c.once c.vb ≤ c.counter v (opndBits c.x.a.opnd % 8)) = true) ∧
    EndsMet onQueues g0 1 .qwait anyInstr (fun k c v => ((c.ownTask v).any fun p => c.x.sub.toNat % 4 == 0 && !v.quantBusy p.1 p.2.1 k.mark) = true) ∧
    EndsMet onMatrix g0 1 .qwait anyInstr (fun k c v => ((c.ownTask v).any fun p => c.x.sub.toNat % 4 == 1 && !p.2.2.matrixBusy k.mark) = true) ∧
    EndsMet onTide g0 1 .tideWait anyInstr (fun _ c v => ((v.chip? c.chip).any fun k => decide (c.once c.va < k.tide.c.toNat)) = true) :=
  ⟨ends_of (by decide +kernel), ends_of (by decide +kernel), ends_of (by decide +kernel), ends_of (by decide +kernel),
   ends_of (by decide +kernel), ends_of (by decide +kernel)⟩

theorem witness_WaitsEnd_close :
    EndsMet onLate g0 1 .tideClose anyInstr (fun _ c v => ((v.chip? c.chip).any fun k => decide (c.once c.va < k.tide.c.toNat)) = true) ∧
    EndsMet onClosed g0 1 .tideClose anyInstr (fun _ c v => ((v.chip? c.chip).any fun k => c.once c.va == k.tide.c.toNat && k.tide.closed) = true) ∧
    EndsMet onClose g0 1 .tideClose anyInstr (fun _ c v => (((v.chip? c.chip).any fun k => c.once c.va == k.tide.c.toNat && !k.tide.closed) &&
      decide (∀ j : Fin 32, inMask c.active j = true → v.copiesBefore c.chip (c.actor v j).clock = false)) = true) :=
  ⟨ends_of (by decide +kernel), ends_of (by decide +kernel), ends_of (by decide +kernel)⟩

theorem test_waits_end : (nexts onWord (.ldfWaitEnd g0 1) && nexts onBarrier (.barWaitEnd g0 1) && nexts onCounter (.tlwaitEnd g0 1) &&
    nexts onQueues (.qwaitEnd g0 1) && nexts onTide (.tideWaitEnd g0 1) && nexts onClose (.tideCloseUnblock g0 1)) = true := by decide +kernel


/-! ### Witnesses with images of thousands of bytes, in the private window -/

/-- The places of n bytes of device memory whose races are not detected. -/
def mine (b n : Nat) : List Place := (List.range n).map fun j => .dram 0 (b + j) false

theorem mine_succ (b n : Nat) : mine b (n + 1) = .dram 0 b false :: mine (b + 1) n := by
  unfold mine
  rw [List.range_succ_eq_map, List.map_cons, List.map_map]
  refine congrArg (_ :: ·) (List.map_congr_left fun j _ => ?_)
  simp only [Function.comp_apply, Nat.succ_eq_add_one]
  rw [show b + (j + 1) = b + 1 + j by omega]

theorem places_mine (s : State) (w : Issuer) (lane : Nat) (need : Acc) : ∀ (n a b : Nat),
    (∀ j < n, s.place w lane need (a + j) = some (.dram 0 (b + j) false)) → s.places w lane need a n = some (mine b n)
  | 0, _, _, _ => rfl
  | n + 1, a, b, h => by
    have f : s.place w lane need a = some (.dram 0 b false) := h 0 (by omega)
    have e := places_mine s w lane need n (a + 1) (b + 1) fun j hj => by
      have := h (j + 1) (by omega)
      rw [show a + 1 + j = a + (j + 1) by omega, show b + 1 + j = b + (j + 1) by omega]
      exact this
    unfold State.places
    rw [f, e, mine_succ]

theorem place_own {s : State} {c : Chip} {t : Task} {g : Gang} (hc : s.chip? 0 = some c) (ht : s.task? 0 0 = some t) (hg : s.gang? g0 = some g)
    (lanes : LaneMask) (lane : Nat) (need : Acc) (j : Nat) (h : j < 32768) :
    s.place (.gang g0 lanes) lane need (privateBase + j) = some (.dram 0 (t.priv + lane * privateSize + j) false) := by
  have e1 : inWin scratchBase scratchSize (privateBase + j) = false := by
    simp only [inWin, Bool.and_eq_false_imp, decide_eq_true_eq, decide_eq_false_iff_not]
    intro _
    unfold scratchBase scratchSize privateBase
    omega
  have e2 : inWin privateBase privateSize (privateBase + j) = true := by
    simp only [inWin, Bool.and_eq_true, decide_eq_true_eq]
    unfold privateSize
    omega
  have e3 : privateBase + j - privateBase = j := by omega
  simp only [State.place, show g0.chip = 0 from rfl, show g0.task = 0 from rfl, show g0.gang = 0 from rfl, hc, ht, hg, Chip.place, e1, e2, e3, if_true]
  simp

theorem findRace_mine (s : State) (a : Actor) (b w : Bool) (ps : List Place) (h : ∀ p ∈ ps, ∃ n, p = .dram 0 n false) :
    ∀ addr, s.findRace a b w addr ps = none := by
  induction ps with
  | nil => intro _; rfl
  | cons p ps ih =>
    intro addr
    obtain ⟨n, rfl⟩ := h p (by simp)
    exact ih (fun q hq => h q (by simp [hq])) (addr + 1)

theorem noteAccess_mine (s : State) (a : Actor) (b w : Bool) : ∀ ps : List Place, (∀ p ∈ ps, ∃ n, p = .dram 0 n false) →
    s.noteAccess a b w ps = s
  | [], _ => rfl
  | p :: ps, h => by
    obtain ⟨n, rfl⟩ := h p (by simp)
    exact noteAccess_mine s a b w ps fun q hq => h q (by simp [hq])

theorem imageAccess_mine (c : Ctx) (s : State) (w : Bool) (ps : List Place) (h : ∀ p ∈ ps, ∃ n, p = .dram 0 n false) :
    c.imageAccess s w ps = .ok s := by
  have e0 (i : Fin 32) : (Lanes.all ps)[i] = ps := by simp [Lanes.all]
  have e (i : Fin 32) : s.findRace (c.actor s i) false w (c.once c.va) (Lanes.all ps)[i] = none := by
    rw [e0]
    exact findRace_mine s _ _ _ ps h _
  have h1 : c.raceOf s (fun _ => false) (fun _ => w) (1#32 <<< lowest c.active) (fun _ => c.once c.va) (Lanes.all ps) = none := by
    unfold Ctx.raceOf
    simp only [e, Option.map_none, ite_self]
    rfl
  have h2 : c.noteAll s (fun _ => false) (fun _ => w) (1#32 <<< lowest c.active) (Lanes.all ps) = s := by
    unfold Ctx.noteAll
    induction lanesOf (1#32 <<< lowest c.active) with
    | nil => rfl
    | cons i l ih => rw [List.foldl_cons, e0, noteAccess_mine s _ _ _ ps h]; exact ih
  unfold Ctx.imageAccess
  simp only [h1, h2]

theorem mine_unraced (b n : Nat) : ∀ p ∈ mine b n, ∃ k, p = .dram 0 k false := by
  intro p hp
  obtain ⟨j, _, rfl⟩ := List.mem_map.mp hp
  exact ⟨_, rfl⟩

/-- `data1` at supervisor level without moments, one thread running: an image stands in its thread's private window, s13. -/
def own : State := levelled (data1.updGang g0 fun g => { g with moments := false, exited := 0xFFFFFFFE }) .supervisor

theorem parts_of {s : State} {b : Nat} (h : ((s.chip? 0).any fun _ => (s.task? 0 0).any fun t => (s.gang? g0).any fun _ => t.priv == b) = true) :
    ∃ c t g, s.chip? 0 = some c ∧ s.task? 0 0 = some t ∧ s.gang? g0 = some g ∧ t.priv = b := by
  cases hc : s.chip? 0 with
  | none => simp [hc] at h
  | some c =>
    cases ht : s.task? 0 0 with
    | none => simp [hc, ht] at h
    | some t =>
      cases hg : s.gang? g0 with
      | none => simp [hc, ht, hg] at h
      | some g => exact ⟨c, t, g, rfl, rfl, rfl, by simpa [hc, ht, hg] using h⟩

/-- R192: the hypotheses of MSAVE's completion. -/
theorem witness_MatrixInstructions_msave : ∃ x c ps chip task u v w, Ready own (.msave x) x c ∧ c.ownTask own = some (chip, task, u) ∧
    own.holdArray c.core chip task = some v ∧ u.arrayDue = false ∧ u.arr.mayStop = true ∧
    c.imageReach own .write = .ok ps ∧ c.imageAccess v true ps = .ok w := by
  obtain ⟨x, c, hx, hr, h⟩ : Met own (.msave (ops .A 0 z (.special 13) z z)) fun _ c => decide (c.w = .gang g0 1) && c.once c.va == privateBase &&
    (match c.ownTask own with
     | some (chip, task, u) => (own.holdArray c.core chip task).isSome && !u.arrayDue && u.arr.mayStop
     | none => false) := met_of (by decide +kernel)
  cases hx
  simp only [Bool.and_eq_true, decide_eq_true_eq, beq_iff_eq] at h
  obtain ⟨⟨h1, h2⟩, h3⟩ := h
  split at h3
  · rename_i chip task u he
    simp only [Bool.and_eq_true, Bool.not_eq_true'] at h3
    obtain ⟨⟨h4, h5⟩, h6⟩ := h3
    obtain ⟨v, hv⟩ := Option.isSome_iff_exists.mp h4
    obtain ⟨k, t, g, hc, ht, hg, hb⟩ := parts_of (s := own) (b := 2 ^ 20) (by decide +kernel)
    have hp := places_mine own (.gang g0 1) (lowest c.active) .write 4096 privateBase _ fun j hj => place_own hc ht hg 1 _ _ j (by omega)
    have hw := imageAccess_mine c v true _ (mine_unraced (t.priv + lowest c.active * privateSize) 4096)
    refine ⟨_, c, _, chip, task, u, v, v, hr, he, hv, h5, h6, ?_, hw⟩
    unfold Ctx.imageReach
    simp only [h1, h2, hp]
    rfl
  · cases h3


/-! Bytes of a long list, given by a function. -/

theorem field_map (N : Nat) (f : Nat → Byte) (o n : Nat) (h : o + n ≤ N) :
    field ((List.range N).map f) o n = leNat ((List.range n).map fun j => f (o + j)) := by
  unfold field
  refine congrArg leNat (List.ext_getElem ?_ ?_)
  · simp; omega
  · intro k h1 h2
    simp

theorem field_drop (bs : List Byte) (k o n : Nat) : field (bs.drop k) o n = field bs (k + o) n := by
  unfold field
  rw [List.drop_drop]

theorem leNat_zero : ∀ l : List Byte, (∀ b ∈ l, b = 0) → leNat l = 0
  | [], _ => rfl
  | b :: l, h => by
    rw [leNat, leNat_zero l fun c hc => h c (by simp [hc]), h b (by simp)]
    rfl

theorem field_zero (N : Nat) (f : Nat → Byte) (o n : Nat) (h : o + n ≤ N) (hf : ∀ j < n, f (o + j) = 0) : field ((List.range N).map f) o n = 0 := by
  rw [field_map N f o n h]
  refine leNat_zero _ fun b hb => ?_
  obtain ⟨j, hj, rfl⟩ := List.mem_map.mp hb
  exact hf j (List.mem_range.mp hj)

/-- An image whose first record ends the list is taken. -/
theorem restore_some (g : Gang) (bs : List Byte) (h0 : field bs 0 4 = 0x47490001) (h1 : field bs 4 1 = g.nreg)
    (h2 : (field bs 5 1 % 2 == 1) = g.moments) (h3 : field (bs.drop 0x4700) 2 1 = 0xFF) (h4 : field (bs.drop 0x4700) 1 1 = 0) : ∃ r, g.restore bs = some r ∧ r.vmap = [] := by
  unfold Gang.restore
  rw [if_neg (by simp [h0, h1, h2])]
  unfold readRecords
  simp only [h3, h4]
  exact ⟨_, rfl, rfl⟩

theorem length_le : ∀ n v, (le n v).length = n
  | 0, _ => rfl
  | n + 1, v => congrArg (· + 1) (length_le n (v / 256))

theorem length_flat {α : Type} (f : α → List Byte) (k : Nat) (h : ∀ a, (f a).length = k) : ∀ l : List α, (l.flatMap f).length = l.length * k
  | [] => by simp
  | a :: l => by rw [List.flatMap_cons, List.length_append, h, length_flat f k h l, List.length_cons, Nat.add_mul, Nat.one_mul, Nat.add_comm]

theorem image_length (g : Gang) (pcs : Lanes DWord) (pred : Lanes (BitVec 15)) (h : Option Nat) (b : Bool) (hp : g.pend = []) (hm : g.moments = false)
    (hv : g.vmap = []) : (g.image pcs pred h b []).length = 0x4708 := by
  have w (v : Lanes Word) : (laneWords v).length = 128 := by unfold laneWords; rw [length_flat _ 4 fun _ => length_le ..]; simp
  have d (x : Handle) : x.bytes.length = 256 := by
    unfold Handle.bytes
    simp only [List.length_append, length_le, length_flat _ 4 fun _ => length_le .., length_flat _ 8 fun _ => length_le ..]
    simp [zeros]
  unfold Gang.image Gang.records
  simp only [hp, hm, hv, List.length_append, length_le, w, length_flat _ 8 fun _ => length_le .., length_flat _ 2 fun _ => length_le ..,
    length_flat _ 128 w]
  rw [length_flat _ 4 (by intro a; cases a <;> exact length_le ..), length_flat _ 256 (fun a => match a with | none => List.length_replicate .. | some x => d x),
    length_flat _ 256 (fun a => by rw [length_flat _ 8 fun _ => length_le ..]; simp)]
  simp only [zeros, List.length_replicate, Vector.length_toList, List.length_range, List.flatMap_nil, List.filter_nil, List.take_nil, List.length_nil, List.length_cons, if_false, Bool.false_eq_true]


/-- `own` with fields in the private window of its first thread. -/
def ownWith (fields : List (Nat × Nat × Nat)) : State :=
  own.updChip 0 fun c => { c with mem := fields.foldl (fun m f => Mem.store m (2 ^ 20 + f.1) f.2.2 f.2.1) c.mem }

theorem bytesAt_mine (s : State) (b n : Nat) : s.bytesAt (mine b n) = (List.range n).map fun j => s.readByte (.dram 0 (b + j) false) := by
  unfold State.bytesAt mine
  rw [List.map_map]
  rfl

theorem readable_mine (c : Ctx) (s : State) : ∀ (m n a b : Nat), m < n →
    (∀ j < m, s.place c.w (lowest c.active) .read (a + j) = some (.dram 0 (b + j) false)) → s.place c.w (lowest c.active) .read (a + m) = none →
    c.readable s a n = mine b m
  | 0, n + 1, a, b, _, _, h => by
    have h : s.place c.w (lowest c.active) .read a = none := h
    unfold Ctx.readable
    simp only [h]
    rfl
  | m + 1, n + 1, a, b, hn, h, h0 => by
    have f : s.place c.w (lowest c.active) .read a = some (.dram 0 b false) := h 0 (by omega)
    have e := readable_mine c s m n (a + 1) (b + 1) (by omega) (fun j hj => by
      have := h (j + 1) (by omega)
      rw [show a + 1 + j = a + (j + 1) by omega, show b + 1 + j = b + (j + 1) by omega]
      exact this) (by rw [show a + 1 + m = a + (m + 1) by omega]; exact h0)
    unfold Ctx.readable
    simp only [f]
    rw [e, mine_succ]

theorem place_past {s : State} {c : Chip} {t : Task} {g : Gang} (hc : s.chip? 0 = some c) (ht : s.task? 0 0 = some t) (hg : s.gang? g0 = some g)
    (lanes : LaneMask) (lane : Nat) : s.place (.gang g0 lanes) lane .read (privateBase + 32768) = none := by
  have e1 : inWin scratchBase scratchSize (privateBase + 32768) = false := by decide
  have e2 : inWin privateBase privateSize (privateBase + 32768) = false := by decide
  have e3 : inWin clusterBase clusterSize (privateBase + 32768) = false := by decide
  have e4 : (hostHalf (privateBase + 32768) || deviceHalf (privateBase + 32768)) = false := by decide
  simp only [State.place, show g0.chip = 0 from rfl, show g0.task = 0 from rfl, show g0.gang = 0 from rfl, hc, ht, hg, Chip.place, e1, e2, e3, e4]
  rfl

/-- A matrix save image with nothing in it: magic, and no latched slot. -/
def ownArray : State := ownWith [(0, 4, 0x4D580001), (0xE, 1, 255)]

theorem ownArray_byte (j : Nat) (hj : 16 ≤ j) : ownArray.readByte (.dram 0 (2 ^ 20 + j) false) = 0 := by
  have h : (ownArray.chip? 0).map (fun c => (c.mem, c.revoked)) =
      some ([(2 ^ 20, 1), (2 ^ 20 + 2, 0x58), (2 ^ 20 + 3, 0x4D), (2 ^ 20 + 14, 0xFF)], false) := by decide +kernel
  obtain ⟨c, hc, h⟩ := Option.map_eq_some_iff.mp h
  simp only [Prod.mk.injEq] at h
  have e (n : Nat) (hn : n < 16) : ¬ (2 ^ 20 + n = 2 ^ 20 + j) := by omega
  have e0 : ¬ (2 ^ 20 = 2 ^ 20 + j) := by omega
  simp only [State.readByte, hc, h.1, h.2, Mem.get, Tab.getD, Tab.find, e0, e 2 (by omega), e 3 (by omega), e 14 (by omega), if_false]
  rfl

theorem ownArray_ok (epld : Nat → Bool) : imageOk 2048 epld ((List.range 4096).map fun j => ownArray.readByte (.dram 0 (2 ^ 20 + j) false)) = true := by
  have z (o n : Nat) (h : 16 ≤ o) (h2 : o + n ≤ 4096) :
      field ((List.range 4096).map fun j => ownArray.readByte (.dram 0 (2 ^ 20 + j) false)) o n = 0 :=
    field_zero 4096 _ o n h2 fun j _ => ownArray_byte (o + j) (by omega)
  have f (o n : Nat) (h : o + n ≤ 4096) := field_map 4096 (fun j => ownArray.readByte (.dram 0 (2 ^ 20 + j) false)) o n h
  have f0 : leNat ((List.range 4).map fun j => ownArray.readByte (.dram 0 (2 ^ 20 + (0 + j)) false)) = 0x4D580001 := by decide +kernel
  have f4 : leNat ((List.range 4).map fun j => ownArray.readByte (.dram 0 (2 ^ 20 + (4 + j)) false)) = 0 := by decide +kernel
  have fF : leNat ((List.range 1).map fun j => ownArray.readByte (.dram 0 (2 ^ 20 + (0xF + j)) false)) = 0 := by decide +kernel
  have fE : leNat ((List.range 1).map fun j => ownArray.readByte (.dram 0 (2 ^ 20 + (0xE + j)) false)) = 255 := by decide +kernel
  have a1 : ((List.range 256).all fun n => !(field ((List.range 4096).map fun j => ownArray.readByte (.dram 0 (2 ^ 20 + j) false))
      (0x40 + 8 * n) 8).testBit 60) = true := List.all_eq_true.mpr fun n hn => by
    rw [z _ _ (by omega) (by have := List.mem_range.mp hn; omega)]; rfl
  have a2 : ((List.range 64).all fun n => decide (field ((List.range 4096).map fun j => ownArray.readByte (.dram 0 (2 ^ 20 + j) false))
      (0xAC0 + 8 * n) 8 < 2 ^ 34)) = true := List.all_eq_true.mpr fun n hn => by
    rw [z _ _ (by omega) (by have := List.mem_range.mp hn; omega)]; rfl
  unfold imageOk
  simp only [f 0 4 (by omega), f 4 4 (by omega), f 0xF 1 (by omega), f 0xE 1 (by omega), f0, f4, fF, fE, a1, a2, z 0x30 16 (by omega) (by omega),
    z 0xA20 32 (by omega) (by omega), z 0xCC0 832 (by omega) (by omega)]
  rfl

/-- R194: the hypotheses of MRES's completion. -/
theorem witness_MatrixInstructions_mres : ∃ x c ps chip task u v w, Ready ownArray (.mres x) x c ∧ c.ownTask ownArray = some (chip, task, u) ∧
    ownArray.holdArray c.core chip task = some v ∧ u.arrayDue = false ∧ c.imageReach ownArray .read = .ok ps ∧
    u.arr.depth = 0 ∧ c.imageAccess v false ps = .ok w ∧
    imageOk (u.scrp * 2048) (u.epldReach chip) (ownArray.bytesAt ps) = true := by
  obtain ⟨x, c, hx, hr, h⟩ : Met ownArray (.mres (ops .A 0 z (.special 13) z z)) fun _ c => decide (c.w = .gang g0 1) && c.once c.va == privateBase &&
    lowest c.active == 0 && (match c.ownTask ownArray with
     | some (chip, task, u) => (ownArray.holdArray c.core chip task).isSome && !u.arrayDue && u.arr.depth == 0 && u.scrp == 1
     | none => false) := met_of (by decide +kernel)
  cases hx
  simp only [Bool.and_eq_true, decide_eq_true_eq, beq_iff_eq] at h
  obtain ⟨⟨⟨h1, h2⟩, h0⟩, h3⟩ := h
  split at h3
  · rename_i chip task u he
    simp only [Bool.and_eq_true, Bool.not_eq_true', beq_iff_eq] at h3
    obtain ⟨⟨⟨h4, h5⟩, h6⟩, h7⟩ := h3
    obtain ⟨v, hv⟩ := Option.isSome_iff_exists.mp h4
    obtain ⟨k, t, g, hc, ht, hg, hb⟩ := parts_of (s := ownArray) (b := 2 ^ 20) (by decide +kernel)
    have hp := places_mine ownArray (.gang g0 1) 0 .read 4096 privateBase (2 ^ 20) fun j hj => by
      have := place_own hc ht hg 1 0 .read j (by omega)
      rwa [hb, Nat.zero_mul, Nat.add_zero] at this
    have hw := imageAccess_mine c v false _ (mine_unraced (2 ^ 20) 4096)
    refine ⟨_, c, mine (2 ^ 20) 4096, chip, task, u, v, v, hr, he, hv, h5, ?_, h6, hw, ?_⟩
    · unfold Ctx.imageReach
      simp only [h0, h1, h2, hp]
      rfl
    · rw [h7, bytesAt_mine]
      exact ownArray_ok _
  · cases h3

/-- R224: the hypotheses of CSAVE's completion. -/
theorem witness_GangImages_csave : ∃ x c ps u k, Ready own (.csave x) x c ∧ c.room own = true ∧ x.dst = .main k ∧ c.active = ~~~c.g.exited ∧
    c.once c.va % 256 = 0 ∧
    c.span own .write (c.once c.va) (c.g.image (Lanes.sel c.active (Lanes.all c.next) c.g.pc) (c.g.writeP k.toNat c.active (Lanes.all true)).pred
      c.g.frame true []).length = .ok ps ∧ c.imageAccess own true ps = .ok u := by
  obtain ⟨x, c, hx, hr, h⟩ : Met own (.csave (ops .A 0 (.main 1) (.special 13) z z)) fun _ c => decide (c.w = .gang g0 1) && c.once c.va == privateBase && c.room own &&
    c.active == ~~~c.g.exited && decide (c.g.pend = []) && !c.g.moments && decide (c.g.vmap = []) && lowest c.active == 0 :=
    met_of (by decide +kernel)
  cases hx
  simp only [Bool.and_eq_true, decide_eq_true_eq, beq_iff_eq, Bool.not_eq_true'] at h
  obtain ⟨⟨⟨⟨⟨⟨⟨h1, h2⟩, h3⟩, h4⟩, h5⟩, h6⟩, h7⟩, h8⟩ := h
  obtain ⟨k, t, g, hc, ht, hg, hb⟩ := parts_of (s := own) (b := 2 ^ 20) (by decide +kernel)
  have hp := places_mine own (.gang g0 1) 0 .write 0x4708 privateBase (2 ^ 20) fun j hj => by
    have := place_own hc ht hg 1 0 .write j (by omega)
    rwa [hb, Nat.zero_mul, Nat.add_zero] at this
  have hu := imageAccess_mine c own true _ (mine_unraced (2 ^ 20) 0x4708)
  refine ⟨_, c, mine (2 ^ 20) 0x4708, own, 1, hr, h3, rfl, h4, by rw [h2]; rfl, ?_, hu⟩
  rw [image_length _ _ _ _ _ h5 h6 h7]
  unfold Ctx.span
  simp only [h1, h2, h8, hp]

/-- A gang image in the private window: its head, and the end of its register records. -/
def ownGang : State := ownWith [(0, 4, 0x47490001), (4, 1, 64), (0x4702, 1, 0xFF)]

/-- The byte at a place of the window. -/
def gangByte (j : Nat) : Byte := ownGang.readByte (.dram 0 (2 ^ 20 + j) false)

/-- R224: the hypotheses of CREST's completion. -/
theorem witness_GangImages_crest : ∃ x c g lanes n r u, Ready ownGang (.crest x) x c ∧ c.w = .gang g lanes ∧
    0x4700 ≤ (ownGang.bytesAt (c.readable ownGang (c.once c.va) 61568)).length ∧
    recordsLength 512 ((ownGang.bytesAt (c.readable ownGang (c.once c.va) 61568)).drop 0x4700) = some n ∧
    c.imageAccess ownGang false ((c.readable ownGang (c.once c.va) 61568).take (0x4700 + n)) = .ok u ∧
    c.g.restore (ownGang.bytesAt (c.readable ownGang (c.once c.va) 61568)) = some r ∧
    u.poolHas c.w (r.vmap.length - c.g.vmap.length) = true := by
  obtain ⟨x, c, hx, hr, h⟩ : Met ownGang (.crest (ops .A 0 z (.special 13) z z)) fun _ c => decide (c.w = .gang g0 1) && c.once c.va == privateBase &&
    c.g.nreg == 64 && !c.g.moments && lowest c.active == 0 := met_of (by decide +kernel)
  cases hx
  simp only [Bool.and_eq_true, decide_eq_true_eq, beq_iff_eq, Bool.not_eq_true'] at h
  obtain ⟨⟨⟨⟨h1, h2⟩, h3⟩, h4⟩, h5⟩ := h
  obtain ⟨k, t, g, hc, ht, hg, hb⟩ := parts_of (s := ownGang) (b := 2 ^ 20) (by decide +kernel)
  have hp : c.readable ownGang (c.once c.va) 61568 = mine (2 ^ 20) 32768 := by
    rw [h2]
    refine readable_mine c ownGang 32768 61568 privateBase (2 ^ 20) (by omega) (fun j hj => ?_) ?_
    · have := place_own hc ht hg 1 0 .read j hj
      rw [hb, Nat.zero_mul, Nat.add_zero] at this
      rw [h1, h5]
      exact this
    · rw [h1, h5]
      exact place_past hc ht hg 1 0
  have hs : ownGang.bytesAt (mine (2 ^ 20) 32768) = (List.range 32768).map gangByte := bytesAt_mine ..
  have f (o n : Nat) (h : o + n ≤ 32768) := field_map 32768 gangByte o n h
  have b0 : leNat ((List.range 4).map fun j => gangByte (0 + j)) = 0x47490001 := by decide +kernel
  have b4 : leNat ((List.range 1).map fun j => gangByte (4 + j)) = 64 := by decide +kernel
  have b5 : leNat ((List.range 1).map fun j => gangByte (5 + j)) = 0 := by decide +kernel
  have b1 : leNat ((List.range 1).map fun j => gangByte (0x4701 + j)) = 0 := by decide +kernel
  have b2 : leNat ((List.range 1).map fun j => gangByte (0x4702 + j)) = 0xFF := by decide +kernel
  have d2 : field (((List.range 32768).map gangByte).drop 0x4700) 2 1 = 0xFF := by rw [field_drop, f _ _ (by omega)]; exact b2
  have d1 : field (((List.range 32768).map gangByte).drop 0x4700) 1 1 = 0 := by rw [field_drop, f _ _ (by omega)]; exact b1
  obtain ⟨r, hrs, hv⟩ := restore_some c.g ((List.range 32768).map gangByte) (by rw [f 0 4 (by omega), b0]) (by rw [f 4 1 (by omega), b4, h3])
    (by rw [f 5 1 (by omega), b5, h4]; rfl) d2 d1
  have hu := imageAccess_mine c ownGang false ((mine (2 ^ 20) 32768).take (0x4700 + 8)) fun p hp =>
    mine_unraced (2 ^ 20) 32768 p (List.mem_of_mem_take hp)
  refine ⟨_, c, g0, 1, 8, r, ownGang, hr, h1, ?_, ?_, ?_, ?_, ?_⟩
  · rw [hp, hs, List.length_map, List.length_range]; omega
  · rw [hp, hs]
    have hl : ¬ (((List.range 32768).map gangByte).drop 0x4700).length < 8 := by
      rw [List.length_drop, List.length_map, List.length_range]; omega
    unfold recordsLength
    simp only [d1, d2, if_neg hl]
    rfl
  · rw [hp]; exact hu
  · rw [hp, hs]; exact hrs
  · rw [hv, h1, List.length_nil, Nat.zero_sub]
    decide +kernel

/-- A gang of `data1` without moments in the handler, with frame 3: its image's head, the end of its records and ACTION are in the frame. -/
def framed (action : Nat) : State :=
  (levelled (data1.updGang g0 fun g =>
    { g with moments := false, frame := some 3, mark := some ⟨0x40, 0x48, 1, 0, []⟩, exited := 0xFFFFFFFE }) .supervisor).updChip 0 fun c =>
    { c with trap := { c.trap with area := [⟨0x30000, 65536, false, 2 ^ 21⟩] },
             mem := [(0xC, 1, action), (0x40, 4, 0x47490001), (0x44, 1, 64), (0x4742, 1, 0xFF)].foldl (fun m f => Mem.store m (2 ^ 21 + f.1) f.2.2 f.2.1) c.mem }

/-- The frame of `framed`, from its byte o on. -/
def frameBytes (action o n : Nat) : List Byte := (framed action).leaseRead 0 [⟨0x30000, 65536, false, 2 ^ 21⟩] (0x30000 + o) n

/-- The hypotheses of TRET's completion, with its ACTION. -/
def Returns (s : State) (action : Nat) : Prop := ∃ x c g lanes f k mark r, Ready s (.tret x) x c ∧ c.w = .gang g lanes ∧ c.g.frame = some f ∧
    c.g.inTret ||| c.active = ~~~c.g.exited ∧ s.chip? g.chip = some k ∧ c.g.mark = some mark ∧
    c.g.restore (s.leaseRead g.chip k.trap.area (k.trap.tfbase.toNat + 65536 * f + 0x40) 61568) = some r ∧
    field (s.leaseRead g.chip k.trap.area (k.trap.tfbase.toNat + 65536 * f) 64) 0xC 1 = action ∧ action ≤ 2 ∧
    s.poolHas c.w (r.vmap.length - c.g.vmap.length) = true

theorem returns_of (a : Nat)
    (h : met (framed a) (.tret (ops .A 0 z z z z)) (fun _ c => decide (c.w = .gang g0 1) && decide (c.g.frame = some 3) &&
      (c.g.inTret ||| c.active) == ~~~c.g.exited && c.g.mark.isSome && c.g.nreg == 64 && !c.g.moments) = true)
    (hk : ((framed a).chip? 0).any (fun k => decide (k.trap.tfbase.toNat = 0) && decide (k.trap.area = [⟨0x30000, 65536, false, 2 ^ 21⟩])) = true)
    (hf : [field (frameBytes a 0x40 4) 0 4 == 0x47490001, field (frameBytes a 0x44 1) 0 1 == 64, field (frameBytes a 0x45 1) 0 1 == 0,
      field (frameBytes a 0x4741 1) 0 1 == 0, field (frameBytes a 0x4742 1) 0 1 == 0xFF, field (frameBytes a 0 64) 0xC 1 == a].all id = true)
    (hp : (framed a).poolHas (.gang g0 1) 0 = true) (ha : a ≤ 2) : Returns (framed a) a := by
  obtain ⟨x, c, hx, hr, h⟩ := met_of h
  cases hx
  simp only [Bool.and_eq_true, decide_eq_true_eq, beq_iff_eq, Bool.not_eq_true'] at h
  obtain ⟨⟨⟨⟨⟨h1, h2⟩, h3⟩, h4⟩, h5⟩, h6⟩ := h
  obtain ⟨mark, hm⟩ := Option.isSome_iff_exists.mp h4
  obtain ⟨k, hc, hk⟩ := has_of hk
  simp only [Bool.and_eq_true, decide_eq_true_eq] at hk
  simp only [List.all_cons, List.all_nil, id_eq, Bool.and_eq_true, beq_iff_eq] at hf
  obtain ⟨f0, f4, f5, f1, f2, fa, -⟩ := hf
  have f (o n : Nat) (h : o + n ≤ 61568) : field (frameBytes a 0x40 61568) o n = field (frameBytes a (0x40 + o) n) 0 n := by
    unfold frameBytes State.leaseRead
    rw [field_map _ _ _ _ h, field_map _ _ _ _ (by omega)]
    simp only [Nat.add_assoc, Nat.zero_add]
  obtain ⟨r, hrs, hv⟩ := restore_some c.g (frameBytes a 0x40 61568) (by rw [f 0 4 (by omega)]; exact f0) (by rw [f 4 1 (by omega), h5]; exact f4)
    (by rw [f 5 1 (by omega), h6, f5]; rfl) (by rw [field_drop, f _ 1 (by omega)]; exact f2) (by rw [field_drop, f _ 1 (by omega)]; exact f1)
  have hb : k.trap.tfbase.toNat + 65536 * 3 = 0x30000 := by omega
  refine ⟨_, c, g0, 1, 3, k, mark, r, hr, h1, h2, h3, hc, hm, ?_, ?_, ha, ?_⟩
  · rw [hb, hk.2]; exact hrs
  · rw [hb, hk.2]; exact fa
  · rw [hv, h1, List.length_nil, Nat.zero_sub]; exact hp

/-- R401: the hypotheses of TRET's completion, for each ACTION. -/
theorem witness_TrapAndReturn_return : Returns (framed 0) 0 ∧ Returns (framed 1) 1 ∧ Returns (framed 2) 2 :=
  ⟨returns_of 0 (by decide +kernel) (by decide +kernel) (by decide +kernel) (by decide +kernel) (by omega),
   returns_of 1 (by decide +kernel) (by decide +kernel) (by decide +kernel) (by decide +kernel) (by omega),
   returns_of 2 (by decide +kernel) (by decide +kernel) (by decide +kernel) (by decide +kernel) (by omega)⟩

theorem bytesAt_same {s t : State} (h : (s.chip? 0).map (fun c => (c.mem, c.revoked)) = (t.chip? 0).map fun c => (c.mem, c.revoked)) (b n : Nat) :
    s.bytesAt (mine b n) = t.bytesAt (mine b n) := by
  rw [bytesAt_mine, bytesAt_mine]
  refine List.map_congr_left fun j _ => ?_
  unfold State.readByte
  cases hs : s.chip? 0 <;> cases ht : t.chip? 0 <;> simp only [hs, ht, Option.map_some, Option.map_none] at h ⊢
  · cases h
  · cases h
  · injection h with h
    injection h with h1 h2
    rw [h1, h2]

/-- Threads of `own` and of `ownArray` that wait for the array. -/
def ownSaves : State := held own .msaveMres 0 (.msave (ops .A 0 z (.special 13) z z)) []
def ownLoads : State := held ownArray .msaveMres 0 (.mres (ops .A 0 z (.special 13) z z)) []

/-- The hypotheses of `EndsWait` from those on the waiting instruction's context, where nothing it read counts. -/
theorem ends_met {s : State} {kind : WaitKind} {own : Instr → Bool} {i : Instr} {x : Ops} {c : Ctx} {may : Ctx → State → Prop}
    (hx : i.ops = some x) (hr : Ready (s.released g0 1) i x c) (ho : own i = true)
    (h : (((s.waiting g0 1 kind).any fun k => decide (k.vals = []) && decide (k.instr = i)) &&
      (s.mayIssue g0 && (s.gang? g0).any fun q => q.bundles.all fun b => b.lanes == 1)) = true)
    (hm : may c (s.released g0 1)) : EndsMet s g0 1 kind own fun _ => may := by
  simp only [Bool.and_eq_true] at h
  obtain ⟨k, hk, h1⟩ := has_of h.1
  obtain ⟨q, hq, h2⟩ := has_of h.2.2
  simp only [Bool.and_eq_true, decide_eq_true_eq, List.all_eq_true, beq_iff_eq] at h1 h2
  have ha : c.asIssued k = c := by unfold Ctx.asIssued; rw [h1.1]
  exact ⟨k, x, c, q, hk, h.2.1, by rw [h1.2]; exact ho, by rw [h1.2]; exact hx, hq, fun b hb => .inl (h2 b hb), by rw [h1.2]; exact hr, by rw [ha]; exact hm⟩

theorem witness_WaitsEnd_msave : EndsMet ownSaves g0 1 .msaveMres isMsave fun _ c v => ∃ ps chip task t w u, c.imageReach v .write = .ok ps ∧
    c.ownTask v = some (chip, task, t) ∧ v.holdArray c.core chip task = some w ∧ t.arrayDue = false ∧ t.arr.mayStop = true ∧
    c.imageAccess w true ps = .ok u := by
  obtain ⟨x, c, hx, hr, h⟩ : Met (ownSaves.released g0 1) (.msave (ops .A 0 z (.special 13) z z)) fun _ c => decide (c.w = .gang g0 1) && c.once c.va == privateBase &&
    (match c.ownTask (ownSaves.released g0 1) with
     | some (chip, task, u) => ((ownSaves.released g0 1).holdArray c.core chip task).isSome && !u.arrayDue && u.arr.mayStop
     | none => false) := met_of (by decide +kernel)
  simp only [Bool.and_eq_true, decide_eq_true_eq, beq_iff_eq] at h
  obtain ⟨⟨h1, h2⟩, h3⟩ := h
  split at h3
  · rename_i chip task u he
    simp only [Bool.and_eq_true, Bool.not_eq_true'] at h3
    obtain ⟨⟨h4, h5⟩, h6⟩ := h3
    obtain ⟨v, hv⟩ := Option.isSome_iff_exists.mp h4
    obtain ⟨kk, t, g, hc, ht, hg, hb⟩ := parts_of (s := ownSaves.released g0 1) (b := 2 ^ 20) (by decide +kernel)
    have hp := places_mine (ownSaves.released g0 1) (.gang g0 1) (lowest c.active) .write 4096 privateBase _ fun j hj =>
      place_own hc ht hg 1 _ _ j (by omega)
    refine ends_met hx hr rfl (by decide +kernel) ⟨mine (t.priv + lowest c.active * privateSize) 4096, chip, task, u, v, v, ?_, he, hv, h5, h6,
      imageAccess_mine c v true _ (mine_unraced (t.priv + lowest c.active * privateSize) 4096)⟩
    unfold Ctx.imageReach
    simp only [h1, h2, hp]
    rfl
  · cases h3

theorem witness_WaitsEnd_mres : EndsMet ownLoads g0 1 .msaveMres isMres fun _ c v => ∃ ps chip task t w u, c.imageReach v .read = .ok ps ∧
    c.ownTask v = some (chip, task, t) ∧ v.holdArray c.core chip task = some w ∧ t.arrayDue = false ∧ t.arr.depth = 0 ∧
    c.imageAccess w false ps = .ok u ∧ imageOk (t.scrp * 2048) (t.epldReach chip) (v.bytesAt ps) = true := by
  obtain ⟨x, c, hx, hr, h⟩ : Met (ownLoads.released g0 1) (.mres (ops .A 0 z (.special 13) z z)) fun _ c => decide (c.w = .gang g0 1) && c.once c.va == privateBase &&
    lowest c.active == 0 && (match c.ownTask (ownLoads.released g0 1) with
     | some (chip, task, u) =>
       ((ownLoads.released g0 1).holdArray c.core chip task).isSome && !u.arrayDue && decide (u.arr.depth = 0) && u.scrp == 1
     | none => false) := met_of (by decide +kernel)
  simp only [Bool.and_eq_true, decide_eq_true_eq, beq_iff_eq] at h
  obtain ⟨⟨⟨h1, h2⟩, h0⟩, h3⟩ := h
  split at h3
  · rename_i chip task u he
    simp only [Bool.and_eq_true, Bool.not_eq_true', beq_iff_eq, decide_eq_true_eq] at h3
    obtain ⟨⟨⟨h4, h5⟩, h6⟩, h7⟩ := h3
    obtain ⟨v, hv⟩ := Option.isSome_iff_exists.mp h4
    obtain ⟨kk, t, g, hc, ht, hg, hb⟩ := parts_of (s := ownLoads.released g0 1) (b := 2 ^ 20) (by decide +kernel)
    have hp := places_mine (ownLoads.released g0 1) (.gang g0 1) 0 .read 4096 privateBase (2 ^ 20) fun j hj => by
      have := place_own hc ht hg 1 0 .read j (by omega)
      rwa [hb, Nat.zero_mul, Nat.add_zero] at this
    have hs : (ownLoads.released g0 1).bytesAt (mine (2 ^ 20) 4096) = ownArray.bytesAt (mine (2 ^ 20) 4096) :=
      bytesAt_same (by decide +kernel) ..
    refine ends_met hx hr rfl (by decide +kernel) ⟨_, chip, task, u, v, v, ?_, he, hv, h5, h6,
      imageAccess_mine c v false _ (mine_unraced (2 ^ 20) 4096), ?_⟩
    · unfold Ctx.imageReach
      simp only [h0, h1, h2, hp]
      rfl
    · rw [hs, h7, bytesAt_mine]
      exact ownArray_ok _
  · cases h3


/-! ### Witnesses: results, the pool, matrix commands -/

/-- A local result for v8 that has come, with an IEEE trap in some lanes. -/
def arrived (traps : LaneMask) : Pend := ⟨0, .here, .vec 8 1, 0xFFFFFFFF, 0, Lanes.all 7, Lanes.all 0, traps, Lanes.all 0, false, false, 0, 0xFFFFFFFF, .fillWord, []⟩

/-- The gang is there, with its task on its core, and passes a test. -/
def HasGang (s : State) (p : Chip → Machine.Task → Gang → Bool) : Prop :=
  Has (s.chip? 0) fun c => (s.task? 0 0).any fun t => (s.gang? g0).any fun q => t.core == some k0 && p c t q

/-- Oversubscribed gangs: one stalls for registers outside the active set; one is spilled. -/
def stalled : State := ((held plain .alloc 0 (.iadd (ops .A 0 (.main 8) one one z)) []).updGang g0 fun g => { g with moments := false, nreg := 1 }).updChip 0 fun c => { c with overEn := true }
def dozing : State := (stalled.updCore k0 fun k => { k with subs := vset k.subs 0 ⟨Vector.replicate 4 none, 0⟩ }).updGang g0 fun g =>
  { g with bundles := [⟨1, 0, some ⟨.alloc, 0, 3000, .fillWord, [], 0⟩, []⟩] }
def crowded : State := dozing.updGang g0 fun g => { g with vmap := (List.range 20).map fun k => (k, ⟨BitVec.allOnes 32, Lanes.all 7⟩) }
def spilledOut : State := (dozing.updGang g0 fun g => { g with spilled := true, bundles := [⟨1, 0, none, []⟩] }).updChip 0 fun c =>
  { c with mem := Mem.set c.mem (2 ^ 20 + 2 ^ 20 + 2) 0xFF }
def spoilt : State := spilledOut.updChip 0 fun c => { c with mem := Mem.set c.mem (2 ^ 20 + 2 ^ 20 + 1) 5 }

/-- A chip whose handler is on, and its gang waiting for a frame; and with the handler off. -/
def frameless : State := (rig fun g => { g with waiting := some ([], []) }).updChip 0 fun c => { c with trap := { c.trap with en := true, tfn := 0 } }
def trapless : State := frameless.updChip 0 fun c => { c with trap := { c.trap with en := false } }

theorem witness_ResultsAndPool :
    HasGang (rig fun g => { g with pend := [arrived 0] }) (fun _ _ q => q.pend[0]?.any (fun p => q.mayArrive p && p.traps == 0) && q.waiting == none) ∧
    HasGang (rig fun g => { g with pend := [arrived 2] }) (fun _ _ q => q.pend[0]?.any (fun p => q.mayArrive p && p.traps != 0) && q.waiting == none) ∧
    HasGang stalled (fun _ _ _ => (stalled.waiting g0 1 .alloc).any fun w => stalled.poolHas (.gang g0 1) w.expect.toNat) ∧
    HasGang dozing (fun c t q => c.overEn && dozing.mayspill k0 (subOf t.base 0) (g0, q) && dozing.poolShort (dozing.residents k0 (subOf t.base 0)) &&
      ((dozing.residents k0 (subOf t.base 0)).all fun x => decide (q.moved ≤ x.2.moved)) && decide (q.records.length ≤ (t.spillArea 0).2)) ∧
    HasGang crowded (fun c t q => c.overEn && crowded.mayspill k0 (subOf t.base 0) (g0, q) && crowded.poolShort (crowded.residents k0 (subOf t.base 0)) &&
      ((crowded.residents k0 (subOf t.base 0)).all fun x => decide (q.moved ≤ x.2.moved)) && decide ((t.spillArea 0).2 < q.records.length)) ∧
    HasGang spilledOut (fun c t q => q.spilled &&
      decide (spilledOut.poolUsed k0 (subOf t.base 0) + spilledOut.owed k0 (subOf t.base 0) g0 0 + ({ q with spilled := false } : Gang).held c.overEn ≤ 2048) &&
      (readRecords (Mem.bytes c.mem (t.spillArea 0).1 (t.spillArea 0).2) 512 { q with vmap := [], spilled := false }).isSome) ∧
    HasGang spoilt (fun c t q => q.spilled &&
      decide (spoilt.poolUsed k0 (subOf t.base 0) + spoilt.owed k0 (subOf t.base 0) g0 0 + ({ q with spilled := false } : Gang).held c.overEn ≤ 2048) &&
      (readRecords (Mem.bytes c.mem (t.spillArea 0).1 (t.spillArea 0).2) 512 { q with vmap := [], spilled := false }).isNone) ∧
    HasGang frameless (fun c _ q => q.waiting.isSome && c.trap.freeFrame == some 0 && c.trap.en) ∧
    HasGang trapless (fun c _ q => q.waiting.isSome && !c.trap.en) ∧
    Has (plain.dev? 0) (fun _ => plain.cycle k0 % 4 == 0 && (plain.gang? g0).isSome && (vget (plain.core k0).subs 0).active.toList.any Option.isNone &&
      (vget (plain.core k0).subs 0).active.toList.any Option.isSome) :=
  ⟨has_of (by decide +kernel), has_of (by decide +kernel), has_of (by decide +kernel), has_of (by decide +kernel), has_of (by decide +kernel),
   has_of (by decide +kernel), has_of (by decide +kernel), has_of (by decide +kernel), has_of (by decide +kernel), has_of (by decide +kernel)⟩

/-- A result of each class of destination lands whole; one whose value is still out lands nowhere, and one whose window has not ended only in
the lane that exits. -/
def landing (dst : DstName) : Pend := { arrived 0 with dst }
theorem witness_ResultsAndPool_landing :
    [.vec 8 1, .vec 8 4, .oper 2 1, .mom 1, .uni 1].all (fun d => ((rig fun g => { g with pend := [landing d] }).gang? g0).any fun q =>
      decide (landing d ∈ q.pend) && q.landing (landing d) == (landing d).lanes && inMask (q.landing (landing d)) 0) = true ∧
    Has ((rig fun g => { g with pend := [{ arrived 0 with missing := 1 }], vmap := [(1, ⟨1, Lanes.all 5⟩)] }).gang? g0) (fun q =>
      q.pend.any (fun p => q.landing p == 0 && (q.arrive p).pend.any fun e => e.id == p.id) && (Tab.find q.vmap 1).any fun v => v.live != 0) ∧
    Has ((rig fun g => { g with exiting := 1, pend := [{ arrived 0 with wleft := Lanes.all 2 }] }).gang? g0) (fun q =>
      q.pend.any fun p => q.landing p == 1 && (q.arrive p).pend.any fun e => e.id == p.id && e.lanes == 0xFFFFFFFE) :=
  ⟨by decide +kernel, has_of (by decide +kernel), has_of (by decide +kernel)⟩

theorem test_results_and_pool : (nexts (rig fun g => { g with pend := [arrived 0] }) (.resultArrival g0 0) && nexts stalled (.registerAllocation g0 1) &&
    nexts dozing (.spillComplete g0) && nexts spilledOut (.gangRefill g0) && nexts frameless (.trapEntry g0) &&
    nexts plain (.bundleReformation k0 0)) = true := by decide +kernel

/-- A matrix command, and a core whose task holds the array with commands in its queue. -/
def cmd (op : Nat) (aoff : Nat) (w0 : DWord) : MCmd := ⟨op, 0, 0, 1, aoff, w0, 0, who⟩
def epCmd : MCmd := { cmd 5 0 1 with w1 := 0x400000 }
def arrayed (f : Arr → Arr) : State := ((data1.updCore k0 fun k => { k with holder := some (0, 0) }).updTask 0 0 fun t =>
  { t with scrp := 2, scratch := Mem.store [] 4 0x810 4 }).updArr 0 0 f
def loaded (a : Arr) : Arr := { a with slots := [(0, ⟨0, 17, 0⟩)], wbuf := Mem.store [] 4 0x810 4 }
def programmed : State := (arrayed fun a => { a with queue := [cmd 6 64 0] }).updChip 0 fun c => { c with mem := Mem.store c.mem (65536 + 64) 0x78FFF000 4 }

/-- The core's task holds the array, and it passes a test. -/
def HasArray (s : State) (p : Machine.Task → Bool) : Prop := Has (s.holderOf k0) fun h => h.1 == 0 && h.2.1 == 0 && p h.2.2

theorem witness_MatrixCommandsRun :
    HasArray (arrayed fun a => { a with queue := [cmd 0 0 0] }) (fun u => u.arr.flight.isNone && u.arr.queue == [cmd 0 0 0] &&
      decide (16 ≤ u.scrp * 2048) && (blockHead u.scratch 0).any (fun h => decide (h.2.2 ≤ u.scrp * 2048) && decide (h.2.2 ≤ 2 ^ 21)) &&
      (blockGroups u.scratch 0).isSome) ∧
    HasArray (arrayed fun a => loaded { a with queue := [cmd 1 0 0] }) (fun u => u.arr.flight.isNone && (u.arr.latchSlot 0).isSome) ∧
    HasArray (arrayed fun a => { a with queue := [cmd 1 0 0] }) (fun u => u.arr.flight.isNone && (u.arr.latchSlot 0).isNone) ∧
    HasArray (arrayed fun a => { a with queue := [cmd 4 0 0] }) (fun u => u.arr.flight.isNone && u.arr.queue == [cmd 4 0 0]) ∧
    HasArray programmed (fun u => u.arr.flight.isNone &&
      let all := (List.range 128).filterMap fun j => extentPlace 0 (u.extents.take 1) .read ((u.image.toNat + 64) % 2 ^ 64 + j)
      let ws := (List.range 32).map fun j => BitVec.ofNat 32 (field (programmed.bytesAt all) (4 * j) 4)
      (programmed.engineRace 0 0 who false ((u.image.toNat + 64) % 2 ^ 64) (all.take (4 * loadedWords ws))).isNone && (programOf ws).isSome) ∧
    HasArray (arrayed fun a => loaded { a with queue := [cmd 2 0 1] }) (fun u => u.arr.flight.isNone &&
      good (u.runRow { u.arr with queue := [] } (cmd 2 0 1).begun) fun _ => true) ∧
    HasArray (arrayed fun a => { a with queue := [cmd 2 0 1] }) (fun u => u.arr.flight.isNone && bad (u.runRow { u.arr with queue := [] } (cmd 2 0 1).begun)) ∧
    HasArray (arrayed fun a => { a with queue := [epCmd] }) (fun u => u.arr.flight.isNone &&
      (drainCheck (u.scrp * 2048) u.arr (Dw.of 1 0x400000)).isSome) ∧
    HasArray (arrayed fun a => { a with flight := some ⟨epCmd, 0, 0, 0, 0, [], false, 0, []⟩ }) (fun u =>
      u.arr.flight.any fun f => !f.finished && (drainCheck (u.scrp * 2048) u.arr (Dw.of 1 0x400000)).isSome) ∧
    HasArray (arrayed fun a => { a with queue := [cmd 5 0 1] }) (fun u => u.arr.flight.isNone &&
      (drainCheck (u.scrp * 2048) u.arr (Dw.of 1 0)).isNone) ∧
    HasArray (arrayed fun a => { a with flight := some ⟨cmd 5 0 2, 1, 0, 0, 0, [], false, 0, []⟩ }) (fun u =>
      u.arr.flight.any fun f => !f.finished && (drainCheck (u.scrp * 2048) u.arr (Dw.of 2 0)).isNone) ∧
    HasArray (arrayed fun a => loaded { a with flight := some ⟨cmd 3 0 0xE000002, 1, 0, 0, 0, [], false, 0, []⟩ }) (fun u =>
      u.arr.flight.any fun f => !f.finished && good (u.runRow u.arr f) fun _ => true) ∧
    HasArray (arrayed fun a => { a with flight := some ⟨cmd 2 0 2, 1, 0, 0, 0, [], false, 0, []⟩ }) (fun u =>
      u.arr.flight.any fun f => !f.finished && bad (u.runRow u.arr f)) ∧
    HasArray (arrayed fun a => { a with flight := some ⟨cmd 2 0 2, 2, 0, 0, 0, [], true, 0, []⟩ }) (fun u => u.arr.flight.any fun f => f.finished) :=
  ⟨has_of (by decide +kernel), has_of (by decide +kernel), has_of (by decide +kernel), has_of (by decide +kernel), has_of (by decide +kernel),
   has_of (by decide +kernel), has_of (by decide +kernel), has_of (by decide +kernel), has_of (by decide +kernel), has_of (by decide +kernel),
   has_of (by decide +kernel), has_of (by decide +kernel), has_of (by decide +kernel), has_of (by decide +kernel)⟩

theorem test_matrix_commands : (
    nexts (arrayed fun a => loaded { a with queue := [cmd 1 0 0] }) (.wselLatch k0) && nexts programmed (.epldLoad k0) &&
    nexts (arrayed fun a => { a with queue := [cmd 4 0 0] }) (.aclrExecute k0) &&
    nexts (arrayed fun a => { a with queue := [cmd 5 0 1] }) (.drain k0) &&
    nexts (arrayed fun a => { a with flight := some ⟨cmd 2 0 2, 2, 0, 0, 0, [], true, 0, []⟩ }) (.matrixCommandComplete k0)) = true := by decide +kernel


/-! ### Witnesses: tasks, turns, pages, launches -/

/-- A change of the chip of `plain`. -/
def chipped (f : Chip → Chip) : State := plain.updChip 0 f

/-- `plain` before its task's dispatch, with its task saved, with all threads exited, and with its task ended. -/
def undispatched : State := chipped fun c => { c with tasks := [], launches := Tab.upd c.launches 0 fun l => { l with dispatched := [] } }
def saved : State := plain.updTask 0 0 fun t => { t with core := none }
def exited : State := rig fun g => { g with exited := 0xFFFFFFFF }
def endedTask : State := plain.updTask 0 0 fun t => { t with ended := true }

/-- `saved` on a protected chip, whose tags fail; `exited` where the launch has another task to come. -/
def unsealed : State := saved.updChip 0 fun c => { c with prot := true }
def exitedOne : State := exited.updChip 0 fun c => { c with launches := Tab.upd c.launches 0 fun l => { l with record := { l.record with ntask := 2 } } }

/-- The saved task of a chip finds a seat on core 0 and the rest of R394's conditions hold. -/
def resumes (s : State) (c : Chip) (p : Machine.Task → Bool) : Bool :=
  c.onTurn && (s.task? 0 0).any fun t => (Tab.find c.launches t.handle).any fun l => t.core.isNone && !t.ended && p t &&
    (s.seat 0 c [] t k0 0).any fun first =>
      l.clusterOk ((c.tasks.filter fun u => u.2.handle == t.handle && u.2.core.isSome).map Prod.snd) first && s.arrayPlaceOk 0 c l first &&
      (s.placeAll 0 c l first ((c.savedWith l t).map Prod.snd)).isSome

/-- The task of `plain` may move to a core. -/
def moves (core : CoreRef) (c : Chip) : Bool :=
  c.onTurn && (plain.task? 0 0).any fun t => (Tab.find c.launches t.handle).any fun l => t.core == some k0 && !t.ended && core != k0 &&
    let keys := ((if clusterOf core.core = clusterOf k0.core then [t.num] else l.movesWith t.num).map (taskKey t.handle)).filter fun k =>
      match Tab.find c.tasks k with | some u => u.core.isSome && !u.ended | none => false
    let v := plain.preempt 0 keys
    !c.entering keys && (v.chip? 0).any fun d => (v.task? 0 0).any fun u =>
      let rest := (keys.filter fun k => k != 0).filterMap fun k => Tab.find d.tasks k
      ((u :: rest).all fun w => !w.ended && w.core.isNone) && (v.seat 0 d [] u core 0).any fun first =>
        v.arrayPlaceOk 0 d l first && (v.placeAll 0 d l first rest).isSome

theorem witness_TasksPlacedRetired :
    Has (undispatched.chip? 0) (fun c => c.onTurn && (Tab.find c.launches 0).any fun l => c.servedNext 0 0 &&
      let rest := ((l.closure [0]).filter fun m => m != 0).map fun m => c.newTask l 0 m 0
      (undispatched.seat 0 c [] (c.newTask l 0 0 (2 ^ 20)) k0 0).any fun first => (undispatched.spread 0 c l first rest).any fun ts =>
        match ts with
        | t :: more => (t :: c.assignPriv (2 ^ 20 + t.backing) more).all c.backingFree
        | [] => false) ∧
    Has (saved.chip? 0) (fun c => resumes saved c (saved.sealHolds c)) ∧
    Has (unsealed.chip? 0) (fun c => resumes unsealed c fun t => !unsealed.sealHolds c t) ∧
    Has (plain.chip? 0) (moves ⟨0, 1⟩) ∧ Has (plain.chip? 0) (fun c => (plain.seat 0 c [] (c.newTask (placedLaunch false) 0 0 (2 ^ 22)) ⟨0, 1⟩ 0).isSome) ∧
    Has (exited.chip? 0) (fun c => (exited.task? 0 0).any fun t => (Tab.find c.launches t.handle).any (fun l => l.retired + 1 == l.record.ntask) &&
      Tab.rising none c.tasks && Tab.rising none c.launches && exited.taskQuiet 0 0 t && (t.gangs.all fun g => g.2.exited == BitVec.allOnes 32) &&
      t.core.isSome && !t.ended) ∧
    Has (exitedOne.chip? 0) (fun c => (exitedOne.task? 0 0).any fun t => (Tab.find c.launches t.handle).any (fun l => l.retired + 1 != l.record.ntask) &&
      Tab.rising none c.tasks && Tab.rising none c.launches && exitedOne.taskQuiet 0 0 t && (t.gangs.all fun g => g.2.exited == BitVec.allOnes 32) &&
      t.core.isSome && !t.ended) ∧
    Has (endedTask.chip? 0) (fun c => (endedTask.task? 0 0).any fun t => (Tab.find c.launches t.handle).isSome && Tab.rising none c.tasks &&
      Tab.rising none c.launches && endedTask.taskQuiet 0 0 t && t.ended && !t.undelivered) :=
  ⟨has_of (by decide +kernel), has_of (by decide +kernel), has_of (by decide +kernel), has_of (by decide +kernel), has_of (by decide +kernel),
   has_of (by decide +kernel), has_of (by decide +kernel), has_of (by decide +kernel)⟩

theorem test_tasks : (nexts undispatched (.taskDispatch 0 0 0 k0 0 (2 ^ 20)) && nexts saved (.taskResume 0 0 k0 0) &&
    nexts unsealed (.taskResume 0 0 k0 0) && nexts plain (.taskMigration 0 0 ⟨0, 1⟩ 0) && nexts exited (.taskRetire 0 0) &&
    nexts endedTask (.taskRetire 0 0)) = true := by decide +kernel

/-- A sliced chip at the end of its slice; one with nothing to run beside another with a task to dispatch. -/
def turning : State := chipped fun c => { c with sliced := true, turnHeld := true, slice := 0 }
def idleTurn : State := { turning with chips := [(0, { (placedChip false []) with sliced := true, turnHeld := true, tasks := [], launches := [] }),
  (1, { (placedChip false []) with num := 1, slot := 1, sliced := true })] }

/-- A chip with a core whose waiting run has reached the budget. -/
def overdue : State := chipped fun c => { c with wbudget := 1, waitRun := [(3, 1)] }

/-- A device with an arrival hint. -/
def hinted : State := plain.updDev 0 fun d => { d with hints := [(0, 1)] }

/-- A chip with a granule on tier 2, one with a near quota, and one with a granule that moves. -/
def tiered : State := chipped fun c => { c with tiers := [(5, 2)] }
def nearing : State := chipped fun c => { c with nearQuota := 2 ^ 21 }
def movingTier : State := chipped fun c => { c with moving := [5] }

/-- A leaf of the device tables over the first 2^29 bytes names a tier. -/
def named (tier : Nat) (s : State) : State := s.updChip 0 fun c =>
  { c with mem := Mem.store (Mem.store c.mem 0 0x40001 8) 0x40000 (0x1F + tier * 2 ^ 62) 8 }

/-- Granule 5 of the chip may move to a tier. -/
def granuleGoes (s : State) (tier : Nat) (c : Chip) : Bool :=
  !c.moving.contains 5 && decide (5 * 2 ^ 21 < c.quota) && Tab.getD c.tiers 5 3 != tier &&
    ((c.leases false).all fun l => l.host || !rangesMeet l.frame l.bytes (5 * 2 ^ 21) (2 ^ 21)) &&
    (c.tasks.all fun t => !rangesMeet t.2.priv t.2.backing (5 * 2 ^ 21) (2 ^ 21)) &&
    let d : Chip := { c with tiers := Tab.drop c.tiers 5 }
    let t := s.updChip 0 fun _ => d
    (c.wantedTier 5 == 0 || c.wantedTier 5 == tier || tier == 3 && !t.nearRoom d (c.wantedTier 5) 5) &&
      if tier = 3 then t.tierRoom c.dev 3 0 else t.nearRoom d tier 5

/-- A core with an event for its idle control core; with a routine that has run too long; and one that is halted. -/
def called : State := plain.updCore k0 fun k => { k with evq := [(0, [7])] }
def overrun : State := ((placed true false []).updDev 0 fun d => { d with cycle0 := 100000, cycle1 := 100000 })
def haltedCore : State := plain.updCore k0 fun k => { k with halted := true }

/-- A chip whose interface runs, and one whose interface is in creation. -/
def running (f : Chip → Chip) : State := (chipped f).updDev 0 fun d => { d with tdi := [(0, ⟨.run, 0, false⟩)] }
def beingMade : State := plain.updDev 0 fun d => { d with tdi := [(0, ⟨.creating, 0, false⟩)] }

theorem witness_TurnsControlPages :
    Has (turning.chip? 0) (fun c => c.sliced && c.turnHeld && c.mayLeave && decide (c.turnFrom + c.slice.toNat ≤ turning.cycle ⟨c.dev, 0⟩)) ∧
    Has (idleTurn.chip? 0) (fun c => c.sliced && c.turnHeld && c.mayLeave && (c.tasks.all fun t => t.2.core.all fun r => !c.readyOn r) &&
      (c.launches.all fun l => l.2.nextTask.isNone) && (idleTurn.rivals 0 c).any fun k => (idleTurn.chip? k).any Chip.hasWork) ∧
    Has (plain.chip? 0) (fun c => c.dev == 0 && (plain.dev? 0).isSome) ∧
    Has (hinted.dev? 0) (fun d => d.hints.any fun h => h.1 == 0) ∧
    Has (overdue.chip? 0) (fun c => decide (0 < c.wbudget.toNat) && decide (c.wbudget.toNat ≤ Tab.getD c.waitRun 3 0) && c.mayLeave &&
      (List.range 3).all fun k => decide (Tab.getD c.waitRun k 0 < c.wbudget.toNat)) ∧
    Has (plain.chip? 0) (fun c => (c.leases true).all fun l => !l.host || l.va != 7 * 4096) ∧
    Has (tiered.chip? 0) (granuleGoes tiered 3) ∧ Has (nearing.chip? 0) (granuleGoes nearing 1) ∧
    Has ((named 1 nearing).chip? 0) (fun c => c.wantedTier 5 == 1 && granuleGoes (named 1 nearing) 1 c) ∧
    Has ((named 1 tiered).chip? 0) (fun c => c.wantedTier 5 == 1 && granuleGoes (named 1 tiered) 3 c) ∧
    Has (movingTier.chip? 0) (fun c => c.moving.contains 5) ∧
    Has (called.chip? 0) (fun c => c.dev == 0 && (called.core k0).ctrl.isNone && !(called.core k0).halted && !(called.core k0).scrub &&
      (called.rotation k0).head? == some 0) ∧
    Has (overrun.core k0).ctrl (fun r => r.chip == 0 && decide (r.began + 65536 < overrun.cycle k0)) ∧ (haltedCore.core k0).halted = true :=
    ⟨has_of (by decide +kernel), has_of (by decide +kernel), has_of (by decide +kernel), has_of (by decide +kernel), has_of (by decide +kernel),
   has_of (by decide +kernel), has_of (by decide +kernel), has_of (by decide +kernel), has_of (by decide +kernel), has_of (by decide +kernel),
   has_of (by decide +kernel), has_of (by decide +kernel), has_of (by decide +kernel), by decide +kernel⟩

/-- A chip with its device and a CORES write's conditions on it and on its interface's state. -/
def HasCores (s : State) (p : Chip → TdiState → Bool) : Prop :=
  Has (s.chip? 0) fun c => (s.dev? c.dev).any fun d => p c (d.iface c.slot).state

/-- A CORES write takes clusters: its bits name some, and nothing forbids it. -/
def takesCores (c : Chip) (state : TdiState) : Bool := !c.stopped && state != .creating && (!c.prot || state == .run)

theorem witness_TurnsControlPages_cores : (3 : DWord).toNat % 2 ^ 20 ≠ 0 ∧ (2 ^ 20 : DWord).toNat % 2 ^ 20 = 0 ∧
    HasCores (chipped fun c => { c with stopped := true }) (fun c _ => c.stopped) ∧ HasCores beingMade (fun _ state => state == .creating) ∧
    HasCores (chipped fun c => { c with prot := true }) (fun c state => c.prot && state != .run) ∧
    HasCores plain (fun c state => takesCores c state && !c.placed.isEmpty && (plain.rivals 0 c).isEmpty) ∧
    HasCores (running fun c => { c with prot := true }) (fun c state => takesCores c state && c.prot) ∧
    HasCores undispatched (fun c state => takesCores c state && c.placed.isEmpty && (undispatched.rivals 0 c).isEmpty) :=
  ⟨by decide, by decide, has_of (by decide +kernel), has_of (by decide +kernel), has_of (by decide +kernel), has_of (by decide +kernel),
   has_of (by decide +kernel), has_of (by decide +kernel)⟩

theorem test_turns_and_pages : (nexts turning (.sliceExpiry 0) && nexts idleTurn (.turnGivenUpEarly 0) && nexts overdue (.waitBudgetExpiry 0 ⟨0, 3⟩) &&
    nexts tiered (.granuleMigration 0 5 3) && nexts nearing (.granuleMigration 0 5 1) && nexts movingTier (.granuleMigrationComplete 0 5) && nexts called (.controlRoutineEntry k0 0) &&
    nexts overrun (.controlCoreLimit k0) && nexts haltedCore (.haltedCoreResume k0 false)) = true := by decide +kernel

/-- A chip with a record in a host ring, one whose ring's page has no answer yet, one with a launch in XLFAULT, a ring of the device, and an
event that waits for its queue. -/
def ringed : State := chipped fun c => { c with launches := [], tasks := [], queues := vset c.queues 0 { vget c.queues 0 with en := true, lg := 4, tail := 1 } }
def unanswered : State := ringed.updChip 0 fun c => { c with ats := [] }
def pageless : State := chipped fun c => { c with xlfault := 0x1000000 }
def posting : State := plain.updCore k0 fun k => { k with evWait := [(0, [7])] }
def deviceRing : State := chipped fun c => { c with queues := vset c.queues 0 { vget c.queues 0 with dev := true, lg := 4 } }

/-- A chip without tasks whose launch is to be translated, from an image and with a code size; the device half maps onto the first 2^29 bytes. -/
def translates (image : DWord) (code : Nat) (f : Chip → Chip) : State := chipped fun c => f
  { c with tasks := [], mem := Mem.store (Mem.store c.mem 0 0x40001 8) 0x40000 0x1F 8,
           launches := Tab.upd c.launches 0 fun l => { l with state := .translating, record := { l.record with image := image }, code, extents := [] } }
def translating : State := translates 0 1024 id

/-- The launch of a chip is to be translated, with what R261 asks of its ranges first. -/
def toLease (c : Chip) (p : Launch → List Extent × Option NoLease → Bool) : Bool :=
  (Tab.find c.launches 0).any fun l => l.state == .translating && c.xlfault == 0 &&
    (l.ranges.all fun r => decide (r.2.1 + r.2.2.1 ≤ 2 ^ 64) && !c.rangeBarred r.2.1 r.2.2.1 r.2.2.2) && p l (c.leaseAll l.ranges l.extents)

theorem witness_LaunchesProceed :
    Has (ringed.chip? 0) (fun c => let k := vget c.queues 0
      k.en && !k.err && k.head != k.tail && c.xlfault == 0 && !c.entryHeld 0 k.head &&
        good (ringed.readOn 0 [] (k.base.toNat + 128 * k.head) 128).1 fun _ => true) ∧
    Has (unanswered.chip? 0) (fun c => let k := vget c.queues 0
      k.en && !k.err && k.head != k.tail && c.xlfault == 0 && !c.entryHeld 0 k.head && bad (unanswered.readOn 0 [] (k.base.toNat + 128 * k.head) 128).1) ∧
    Has ((translates 0 1024 fun c => { c with launches := Tab.upd c.launches 0 fun l => { l with state := .waiting } }).chip? 0) (fun c =>
      (Tab.find c.launches 0).any fun l => l.state == .waiting && c.launchReady 0 l) ∧
    Has ((translates 0 1024 fun c => { c with xlfault := 0x1000005, launches := Tab.upd c.launches 0 fun l => { l with state := .waiting } }).chip? 0) (fun c =>
      (Tab.find c.launches 0).any fun l => l.state == .waiting && c.launchReady 0 l && c.xlfault != 0) ∧
    Has ((translates 0xFFFFFFFFFFFFFFC0 1024 id).chip? 0) (fun c => (Tab.find c.launches 0).any fun l => c.xlfault == 0 &&
      l.ranges.any fun r => decide (2 ^ 64 < r.2.1 + r.2.2.1)) ∧
    Has ((translates 0x9000000000000000 1024 id).chip? 0) (fun c => (Tab.find c.launches 0).any fun l => c.xlfault == 0 &&
      (l.ranges.all fun r => decide (r.2.1 + r.2.2.1 ≤ 2 ^ 64)) && l.ranges.any fun r => c.rangeBarred r.2.1 r.2.2.1 r.2.2.2) ∧
    Has ((translates 0x8000 1024 id).chip? 0) (fun c => toLease c fun _ r => r.2.isSome) ∧
    Has ((translates 0x800000001FFFFF00 1024 fun c => { c with quota := 2 ^ 29 + 2 ^ 21, mem := Mem.store c.mem 0x40008 0x1F 8 }).chip? 0) (fun c => toLease c fun _ r => r.2.isNone && decide (c.quota < pageBytes r.1)) ∧
    Has ((translates 0x8000000000100000 1024 fun c => { c with tasks := (placedChip false []).tasks }).chip? 0) (fun c => toLease c fun _ r =>
      r.2.isNone && decide (pageBytes r.1 ≤ c.quota) && c.meetsBacking r.1) ∧
    Has (translating.chip? 0) (fun c => toLease c fun _ r => r.2.isNone && decide (pageBytes r.1 ≤ c.quota) && !c.meetsBacking r.1) ∧
    Has (pageless.chip? 0) (fun c => c.xlfault != 0 && (Tab.find c.launches (c.xlfault.toNat % 65536)).isSome) ∧
    Has ((ringed.updChip 0 fun c => { c with xlfault := 0x1000005 }).chip? 0) (fun c => let k := vget c.queues 0
      k.en && !k.err && k.head != k.tail && c.xlfault != 0 && c.xlfault.toNat % 65536 != k.head && !c.entryHeld 0 k.head) ∧
    Has (deviceRing.chip? 0) (fun c => (vget c.queues 0).dev) ∧
    Has (ringed.chip? 0) (fun c => !(vget c.queues 0).dev && (vget c.queues 0).lg != 0) ∧
    (Tab.getD (posting.core k0).evWait 0 [] = [7] ∧ (Tab.getD (posting.core k0).evq 0 []).length < 64) :=
  ⟨has_of (by decide +kernel), has_of (by decide +kernel), has_of (by decide +kernel), has_of (by decide +kernel), has_of (by decide +kernel), has_of (by decide +kernel),
   has_of (by decide +kernel), has_of (by decide +kernel), has_of (by decide +kernel), has_of (by decide +kernel), has_of (by decide +kernel),
   has_of (by decide +kernel), has_of (by decide +kernel), has_of (by decide +kernel), by decide +kernel⟩

theorem test_launches : (nexts ringed (.launchAcceptance 0 0) && nexts translating (.launchTranslation 0 0) && nexts pageless (.xlfaultRetry 0) &&
    nexts pageless (.xlfaultAbort 0) && nexts ringed (.qtailWrite 0 0 3) && nexts posting (.eventRecordPost k0 0)) = true := by decide +kernel


/-! ### Witnesses: the host, the fabric, messages, registers of the pod -/

/-- `plain` with a page table that maps the device half onto its first bytes, with SYSA or without, and a page of host memory at 2^17. -/
def mapped (sysa : Bool) : State := chipped fun c =>
  { c with mem := Mem.store (Mem.store c.mem 0 0x40001 8) 0x40000 (if sysa then 0x200000000000001F else 0x1F) 8,
           ats := (c.ats ++ [(32, ⟨.mapped 0x20000 true true true⟩)]) }
def readOnce (sysa : Bool) : State := (mapped sysa).updChip 0 fun c => { c with hostRead := [⟨0x8000000000000100, 12, false, 1, 5, 5⟩] }
def shut : State := chipped fun c => { c with prot := true }

/-- A protected chip's interface in RUN with its IDE stream. -/
def streamed (s : State) : State := (s.updChip 0 fun c => { c with prot := true }).updDev 0 fun d => { d with tdi := [(0, ⟨.run, 0, true⟩)] }

/-- A word of a chip of `mapped`, with SYSA or without, for an AtomicOp, and a half of one that has read it. -/
def wordAt (s : State) (sysa tbit may : Bool) (n : Nat) : Bool :=
  (s.chip? 0).any fun c => s.hostMay c tbit == may && (c.hostWord 0 0x8000000000000100 n).any fun w => w.2 == sysa
def halfAt (s : State) : Bool := (s.chip? 0).any fun c => (c.hostRead.find? fun h => h.same 0x8000000000000100 12 false 1 5).isSome

theorem witness_HostAccesses :
    [hostHalf ((0x1000 : DWord).toNat + [1, 2].length), (plain.chip? 0).any (fun c => decide ((0x100 : DWord).toNat + 1 ≤ c.quota) && plain.hostMay c false),
      (shut.chip? 0).any (fun c => !shut.hostMay c true), (streamed plain).chip? 0 |>.any fun c => (streamed plain).hostMay c true && !(streamed plain).hostMay c false,
      wordAt (mapped true) true false true 8, wordAt (streamed (mapped true)) true true true 8, wordAt (streamed (mapped true)) true false false 8,
      wordAt (mapped false) false false true 4, wordAt (streamed (mapped false)) false false false 4,
      halfAt (readOnce false), wordAt (readOnce false) false false true 4, halfAt (streamed (readOnce false)),
      wordAt (streamed (readOnce false)) false false false 4].all id = true := by decide +kernel

/-- An event's answer is the state as it was. -/
def keeps (s : State) (i : Instr) : Bool := match exec i s with | .next t => t == s | _ => false

theorem test_host_accesses : (nexts plain (.hostMemoryWrite .hostHalf 0x1000 [1, 2]) && nexts plain (.hostMemoryWrite (.chip 0 false) 0x100 [1]) &&
    keeps shut (.hostMemoryWrite (.chip 0 true) 0x100 [1]) && ((shut.hostBytes 0 0x100 2 true) == [0xFF, 0xFF]) &&
    nexts (mapped true) (.hostAtomicOp 0 0x8000000000000100 0 true 1 0 (.whole false)) &&
    nexts (mapped false) (.hostAtomicOp 0 0x8000000000000100 0 false 1 0 (.readHalf false)) &&
    nexts (readOnce false) (.hostAtomicOp 0 0x8000000000000100 12 false 1 5 (.writeHalf false))) = true := by decide +kernel

/-- A packet from chip 0 that has not left, one that has, and a pod of two chips that holds one. -/
def packet (dst : Nat) (body : PBody) : Packet := Packet.new 0 0 dst body
def sent (body : PBody) : Packet := { packet 0 body with left := true, passed := true }
def fabric (p : Packet) : State :=
  { (podded.updChip 0 fun c => { c with ats := c.ats ++ [(32, ⟨.mapped 0x20000 true true true⟩)], tide := { c.tide with tlog := 1 } }) with
    packets := [p], guests := [(0, { Guest.reset with vct := [(0, 0x80000000), (1, 0x80000000)], rlt := [(0, 0x83FFFC00)] })] }
def keyed (n : Nat) : State :=
  let s := (fabric (packet 1 (.close 0 0))).updDev 0 fun d => { d with keys := [(5, { KeySlot.empty with state := 2, kind := 2, guest := 0, chipA := 0, chipB := 1 })], linkCtr := [(5, n)] }
  { s with guests := s.guests.map fun g => (g.1, { g.2 with prot := true }) }

/-- A message, a chip whose tag takes it, and planes on which a packet before it fills the buffers of its channel. -/
def mail : Msg := ⟨0, 0, 3, [1, 2, 3, 4, 5, 6, 7, 8], 0, 0, []⟩
def open3 (p : Packet) : State := (fabric p).updChip 0 fun c => { c with rx := [(3, { RxTag.reset with base := 0x8000000000400000, v := true, nslot := 0 })] }
def jam (s : State) (body : PBody) (p : Packet) : State :=
  { s.updDev 0 fun d => { d with links := (List.range 16).map fun k => (k, ⟨8, 0, .up⟩) } with
    packets := ((List.range 16).flatMap fun k => [{ sent body with plane := k }, { sent body with plane := k, passed := false }]) ++ [p] }
def jammed : State := jam (fabric (packet 0 (.close 0 0))) (.close 0 0) (packet 0 (.close 0 0))
def jammedKey : State := jam (keyed 7) (.close 0 0) (packet 1 (.close 0 0))

/-- A write to a multicast set of chips 0 and 9, and one whose set names no chip; its way is free, or full. -/
def spread : Packet := { packet 0 (.tidal 0 64 4 0 0 7) with mset := some 2 }
def many (s : State) : State := { s with guests := s.guests.map fun g => (g.1, { g.2 with mcset := [(2, 0x8000000000000001)] }) }

/-- A half whose room is taken, and a link key that is revoked; tables that name no plane. -/
def filledHalf (s : State) : State := s.updChip 0 fun c =>
  { c with tide := { c.tide with now := { c.tide.now with elems := (List.range 1024).map fun k => (4096 + 8 * k, ⟨4, []⟩) } } }
def revokedKey : State := (keyed 7).updDev 0 fun d =>
  { d with keys := [(5, { KeySlot.empty with state := 4, kind := 2, guest := 0, chipA := 0, chipB := 1 })] }
def labelled (n : Nat) : State :=
  let s := fabric (packet 0 (.close 0 0))
  { s with guests := s.guests.map fun g => (g.1, { g.2 with rlt := [(0, BitVec.ofNat 64 n)] }) }

/-- The packet at a place stands first of its flow at its sender, with its guest, its table entries and its device. -/
def atSender (s : State) (k : Nat) (q : Packet → Guest → DWord → DWord → Device → State → Bool) : Prop :=
  Has s.packets[k]? fun p => (Tab.find s.guests p.guest).any fun g => !p.left && !g.held && !g.remap &&
    ((s.packets.take k).all fun q => q.left || !q.sameFlow p) && s.devOf p.guest p.src == 0 && (s.dev? 0).any fun d =>
      let v := s.vctEntry p.guest p.dst
      q p g v (Tab.getD g.rlt (bitsOf v.toNat 9 0) 0) d (s.passOn.dropPacket k)

/-- The target would take the packet, where it must. -/
def mayGo (s : State) (p : Packet) : Bool :=
  !(p.refused || (match p.body with | .msg _ => true | _ => false)) || (s.chip? (chipKey p.guest p.dst)).any fun c => c.accepts p

/-- The packet of no multicast set may go, both its table entries are valid, and its device has a plane for it. -/
def leavesAt (s : State) (k : Nat) (q : Device → Packet → Guest → Bool → Bool) : Prop :=
  atSender s k fun p g v label d t => p.mset.isNone && mayGo s p && v.getLsbD 31 && label.getLsbD 31 &&
    (p.choose d.live (BitVec.ofNat 16 (bitsOf label.toNat 25 10))).any fun plane => q d p g (t.credits 0 plane p.body.vc p.body.flits true)

/-- The packet travels a sealed link, whose active key passes a test. -/
def sealedBy (d : Device) (p : Packet) (g : Guest) (q : Nat → Bool) : Bool := g.prot && p.src != p.dst && (d.linkSlot p.guest p.src p.dst 2).any q

theorem witness_PacketsTravel_leave :
    atSender (filledHalf (fabric { packet 0 (.tidal 0 64 4 0 0 7) with refused := true })) 0 (fun p _ _ _ _ _ => p.mset.isNone &&
      !mayGo (filledHalf (fabric p)) p) ∧
    atSender (fabric (packet 9 (.close 0 0))) 0 (fun p _ v _ _ _ => mayGo (fabric p) p && !v.getLsbD 31) ∧
    atSender (labelled 0) 0 (fun p _ v label _ _ => mayGo (labelled 0) p && v.getLsbD 31 && !label.getLsbD 31) ∧
    atSender (labelled 0x80000000) 0 (fun p _ v label d _ => mayGo (labelled 0x80000000) p && v.getLsbD 31 && label.getLsbD 31 &&
      (p.choose d.live (BitVec.ofNat 16 (bitsOf label.toNat 25 10))).isNone) ∧
    leavesAt (fabric (packet 0 (.close 0 0))) 0 (fun _ p g credit => !g.prot && p.src == p.dst && credit) ∧
    leavesAt (fabric (packet 1 (.close 0 0))) 0 (fun _ p g credit => !g.prot && p.src != p.dst && credit) ∧
    leavesAt jammed 32 (fun _ p g credit => !g.prot && p.src == p.dst && !credit) ∧
    leavesAt revokedKey 0 (fun d p g _ => g.prot && p.src != p.dst && (d.linkSlot p.guest p.src p.dst 2).isNone && (d.linkSlot p.guest p.src p.dst 4).isSome) ∧
    leavesAt (keyed 7) 0 (fun d p g credit => credit && sealedBy d p g fun n => decide (Tab.getD d.linkCtr n 0 < 2 ^ 48)) ∧
    leavesAt jammedKey 32 (fun d p g credit => !credit && sealedBy d p g fun n => decide (Tab.getD d.linkCtr n 0 < 2 ^ 48)) ∧
    leavesAt (keyed (2 ^ 48)) 0 (fun d p g _ => sealedBy d p g fun n => decide (2 ^ 48 ≤ Tab.getD d.linkCtr n 0)) ∧
    leavesAt (fabric { packet 0 (.tidal 0 64 4 0 0 7) with refused := true }) 0 (fun _ p _ _ => p.refused) ∧
    leavesAt (open3 (packet 0 (.msg mail))) 0 (fun _ _ _ _ => true) ∧
    atSender (many (fabric spread)) 0 (fun p g _ _ _ t => p.mset.any fun m =>
      (((g.members m).map fun n => { p with dst := n, mset := none }).foldlM State.leave t).isSome) ∧
    atSender (many (jam (fabric spread) spread.body spread)) 32 (fun p g _ _ _ t => p.mset.any fun m =>
      (((g.members m).map fun n => { p with dst := n, mset := none }).foldlM State.leave t).isNone) ∧
    Has ((fabric { sent (.close 0 0) with delivered := true }).packets[0]?) (fun p => p.delivered && !p.standing) :=
  ⟨has_of (by decide +kernel), has_of (by decide +kernel), has_of (by decide +kernel), has_of (by decide +kernel), has_of (by decide +kernel),
   has_of (by decide +kernel), has_of (by decide +kernel), has_of (by decide +kernel), has_of (by decide +kernel), has_of (by decide +kernel),
   has_of (by decide +kernel), has_of (by decide +kernel), has_of (by decide +kernel), has_of (by decide +kernel), has_of (by decide +kernel),
   has_of (by decide +kernel)⟩

def read (off : Nat) (tide : DWord) : PBody := .rld g0 32 0 off true false tide false
def atomic : PBody := .ratom g0 32 [0] 64 0 0 false [(1, 0)] [] []

/-- A compare and swap whose comparison fails, and one whose comparison succeeds. -/
def swap (expect : DWord) : PBody := .ratom g0 32 [0] 64 12 0 false [(expect, 9)] [] []

/-- The packet of a state lands at chip 0, which passes a test. -/
def landsIn (s : State) (p : Packet) (q : Chip → Bool) : Prop :=
  s.passOn.packets = [p] ∧ (p.left && p.passed && !p.delivered && !s.cut p && s.unseals p && p.toDev == 0) = true ∧
    (s.dev? 0).any (fun d => Tab.find d.slots p.toSlot == some 0) = true ∧ Has (s.chip? (chipKey p.guest p.dst)) q

def lands (body : PBody) (q : State → Chip → Bool) : Prop := landsIn (fabric (sent body)) (sent body) (q (fabric (sent body)))

/-- The pod's chip without room for another element; one whose mailbox lies in device memory, where another task has written. -/
def narrow : State := (fabric (sent (.tidal 0 64 4 0 0 7))).updChip 0 fun c =>
  { c with tide := { c.tide with now := { c.tide.now with elems := (List.range 1024).map fun k => (4096 + 8 * k, ⟨4, []⟩) } } }
def homed (body : PBody) : State := (fabric (sent body)).updChip 0 fun c =>
  { c with mem := Mem.store (Mem.store c.mem 0 0x40001 8) 0x40000 0x1F 8, mbxBase := vset c.mbxBase 0 0x8000000000500000,
           hb := { c.hb with past := [(0x500040, [⟨2 ^ 50, 1, 7, false, true, 0, 1, 0⟩])] } }

/-- Whether the atomic of a state's packet writes, and what it races with. -/
def racesAt (s : State) (c : Chip) (op : Nat) (vals : List (DWord × DWord)) (write : Bool) : Option (Nat × PastAccess) :=
  (c.podPlaces 0 64 4 true).bind fun ps =>
    let at_ := ps.map Place.tracked
    if mailboxWrites op 32 vals (mailboxSteps op 32 ([0].zip vals) (s.readPlaces at_)).1 == write then
      s.findRace (s.podActor (sent atomic) g0 0 []) true write (podBase + 2 ^ 31 + 64) at_
    else none

/-- An atomic of a state's packet writes or does not, and races with nothing. -/
def calmAt (s : State) (c : Chip) (op : Nat) (vals : List (DWord × DWord)) (write : Bool) : Bool :=
  (c.podPlaces 0 64 4 true).any fun ps => mailboxWrites op 32 vals (mailboxSteps op 32 ([0].zip vals) (s.readPlaces (ps.map Place.tracked))).1 == write &&
    (racesAt s c op vals write).isNone

/-- As `homed`, where the issuing gang waits for a trap frame. -/
def busyHome : State := (homed atomic).updGang g0 fun g => { g with waiting := some ([], []) }

theorem witness_PacketsTravel_land :
    lands (.tidal 0 64 4 0 0 7) (fun _ c => (c.tide.half 0).any fun h => c.tide.room h 64) ∧
    landsIn narrow (sent (.tidal 0 64 4 0 0 7)) (fun c => (c.tide.half 0).any fun h => !c.tide.room h 64) ∧
    lands (.close 0 3) (fun _ c => (c.tide.half 0).isSome) ∧
    lands (read 64 0) (fun _ c => decide ((0 : DWord) ≤ c.tide.c) && (c.podPlaces 0 64 4 true).isSome) ∧
    landsIn (fabric { sent (read 64 0) with kept := some 5 }) { sent (read 64 0) with kept := some 5 } (fun c => decide ((0 : DWord) ≤ c.tide.c)) ∧
    lands (read 64 5) (fun _ c => decide (c.tide.c < (5 : DWord))) ∧
    lands atomic (fun s c => calmAt s c 0 [(1, 0)] true) ∧ lands (swap 3) (fun s c => calmAt s c 12 [(3, 9)] false) ∧
    lands (swap 0) (fun s c => calmAt s c 12 [(0, 9)] true) ∧
    landsIn (homed atomic) (sent atomic) (fun c => (racesAt (homed atomic) c 0 [(1, 0)] true).isSome && !(homed atomic).gangBusy g0) ∧
    landsIn (homed (swap 3)) (sent (swap 3)) (fun c => (racesAt (homed (swap 3)) c 12 [(3, 9)] false).isSome && !(homed (swap 3)).gangBusy g0) ∧
    landsIn busyHome (sent atomic) (fun c => (racesAt busyHome c 0 [(1, 0)] true).isSome && busyHome.gangBusy g0) ∧
    lands (.reply g0 32 [(0, 9)] [] false) (fun s _ => ((s.updGang g0 fun g => { g with pend := [{ arrived 0 with id := 32 }] }).gang? g0).any fun q =>
      q.pend.any fun e => e.id == 32) ∧
    lands (.fetched 0 0 0 1 [1, 2]) (fun _ _ => true) := by
  refine ⟨⟨?_, ?_, ?_, ?_⟩, ⟨?_, ?_, ?_, ?_⟩, ⟨?_, ?_, ?_, ?_⟩, ⟨?_, ?_, ?_, ?_⟩, ⟨?_, ?_, ?_, ?_⟩, ⟨?_, ?_, ?_, ?_⟩, ⟨?_, ?_, ?_, ?_⟩, ⟨?_, ?_, ?_, ?_⟩,
    ⟨?_, ?_, ?_, ?_⟩, ⟨?_, ?_, ?_, ?_⟩, ⟨?_, ?_, ?_, ?_⟩, ⟨?_, ?_, ?_, ?_⟩, ⟨?_, ?_, ?_, ?_⟩, ⟨?_, ?_, ?_, ?_⟩⟩
  all_goals first | exact has_of (by decide +kernel) | decide +kernel

/-- A read that stands at its target. -/
def stands (body : PBody) : Packet := { sent body with delivered := true, standing := true }

theorem witness_PacketsTravel_stand :
    Has ((fabric (stands (read 64 0))).packets[0]?) (fun p => p.delivered && p.standing && p.body.reads.isSome &&
      ((fabric p).chip? 0).any fun c => decide ((0 : DWord) ≤ c.tide.c)) ∧
    Has ((fabric (stands (.fetch 0 0 0 1 64 4 true 5 false))).packets[0]?) (fun p => p.delivered && p.standing && p.body.reads.isSome &&
      ((fabric p).chip? 0).any fun c => decide (c.tide.c < (5 : DWord))) := ⟨has_of (by decide +kernel), has_of (by decide +kernel)⟩

/-- Chip 1's packet to chip 0 on a protected guest's link, and the receiver's device with the link's slot in a state. -/
def close1 : Packet := { Packet.new 0 1 0 (.close 0 0) with left := true, passed := true }
def ciphered (count : Nat) : Packet := { close1 with cipher := some ⟨[7], count, close1.tag [7] count⟩ }
def reading (state seen : Nat) : State :=
  (keyed 0).updDev 0 fun d => { d with keys := [(5, { KeySlot.empty with state, kind := 2, chipA := 1, bits := [7] })], linkSeen := [(5, seen)] }

theorem opens_ciphered {state seen count : Nat} (h : state = 2 ∨ state = 3) {d : Device} (hd : (reading state seen).dev? 0 = some d) :
    d.opens (ciphered count) ⟨[7], count, close1.tag [7] count⟩ = some 5 := by
  cases hd
  obtain rfl | rfl := h <;> simp [Device.opens, ciphered, close1, Packet.new, KeySlot.empty, Packet.tag, Packet.nonce]

theorem unseals_ciphered {state seen count : Nat} (h : state = 2 ∨ state = 3) (hg : ((reading state seen).linkGate 0 (ciphered 0)).1 ≠ 2) :
    (reading state seen).unseals (ciphered count) = decide (seen ≤ count) := by
  have hd : ∃ d, (reading state seen).dev? 0 = some d ∧ d.linkSeen = [(5, seen)] := ⟨_, rfl, rfl⟩
  obtain ⟨d, hd, hs⟩ := hd
  have e : (reading state seen).sealedLink (ciphered count) = true := rfl
  have g : (((reading state seen).linkGate ((reading state seen).devOf 0 1) (ciphered count)).1 != 2) = true := bne_iff_ne.mpr hg
  unfold State.unseals
  show (!(reading state seen).sealedLink (ciphered count) || (((reading state seen).linkGate ((reading state seen).devOf 0 1) (ciphered count)).1 != 2 &&
    match some (⟨[7], count, close1.tag [7] count⟩ : LinkSeal), (reading state seen).dev? 0 with
    | some q, some d => (d.opens (ciphered count) q).any fun k => decide (Tab.getD d.linkSeen k 0 ≤ q.count)
    | _, _ => false)) = _
  rw [e, hd, g]
  simp only [opens_ciphered h hd, hs, Tab.getD, Tab.find, Option.any_some, Bool.not_true, Bool.false_or, Bool.true_and, if_true, Option.getD_some]

/-- R415, R416: a retiring slot opens what its key has sealed, a counter that is not above the last accepted one does not pass, nor does a packet
without a seal or under a revoked key. -/
theorem test_link_opens : (reading 2 3).unseals (ciphered 3) = true ∧ (reading 3 3).unseals (ciphered 9) = true ∧
    (reading 2 3).unseals (ciphered 2) = false ∧ (reading 2 0).unseals { ciphered 3 with cipher := none } = false ∧
    (reading 4 0).unseals (ciphered 3) = false :=
  ⟨(unseals_ciphered (.inl rfl) (by decide +kernel)).trans (by decide), (unseals_ciphered (.inr rfl) (by decide +kernel)).trans (by decide),
   (unseals_ciphered (.inl rfl) (by decide +kernel)).trans (by decide), by decide +kernel, by decide +kernel⟩

theorem test_packets_travel : (nexts (fabric (packet 0 (.close 0 0))) (.packetDeparture 0) && nexts (keyed 7) (.packetDeparture 0) &&
    nexts (fabric (packet 9 (.close 0 0))) (.packetDeparture 0) && keeps (keyed (2 ^ 48)) (.packetDeparture 0) && keeps jammed (.packetDeparture 32) &&
    nexts (many (fabric spread)) (.packetDeparture 0) &&
    nexts (fabric { sent (.close 0 0) with delivered := true }) (.deliveryAcknowledgement 0) && nexts (fabric (sent (.tidal 0 64 4 0 0 7))) (.tidalWriteArrival 0) &&
    nexts narrow (.tidalWriteArrival 0) && nexts (fabric (sent (.close 0 3))) (.closeRecordArrival 0) && nexts (fabric (sent (read 64 0))) (.rldServe 0) &&
    nexts (fabric (sent (read 64 5))) (.rldServe 0) && keeps (fabric (stands (read 64 5))) (.rldServe 0) &&
    nexts (fabric (sent atomic)) (.mailboxAtomicArrival 0) && nexts (homed atomic) (.mailboxAtomicArrival 0) &&
    nexts (fabric (sent (.reply g0 32 [(0, 9)] [] false))) (.remoteReplyArrival 0) &&
    nexts (fabric (sent (.fetched 0 0 0 1 [1, 2]))) (.remoteReplyArrival 0)) = true := by decide +kernel

/-- A core with a SEND in its queue, a chip with a message whose payload is to be read, and what a message meets. -/
def sending : State := posted.updCore k0 fun k => { k with copyq := [⟨3, 0, 0, 0, who, [], none, [], 0, .queued, none, []⟩] }
def outgoing : State := posted.updChip 0 fun c => { c with outbound := [⟨⟨0, 0, 3, [], 0, 0, []⟩, 0x8000000000100000, 8, false, 0, 0, who⟩] }
def mailed : State := fabric (sent (.msg mail))
def away : State := (open3 (sent (.msg mail))).updChip 0 fun c => { c with cores := 0, inlogSize := 64 }
def logged : State := (open3 (sent (.msg mail))).updChip 0 fun c => { c with inlog := [mail] }
def firing : State := podded.updChip 0 fun c => { c with fired := [⟨⟨3, 0, 0⟩, ⟨List.replicate 128 0, [], false⟩⟩] }

theorem witness_MessagesMove :
    Has (sending.copyAt k0 0) (fun q => q.kind == 3 && (sending.chip? q.chip).any fun c => decide (c.outbound.length < 16)) ∧
    Has (outgoing.chip? 0) (fun c => c.outbound[0]?.any fun o => !o.read && good (outgoing.enginePlaces 0 o.task .read o.paddr.toNat o.len) fun ps =>
      (outgoing.engineRace 0 o.task o.by_ false o.paddr.toNat ps).isNone) ∧
    landsIn mailed (sent (.msg mail)) (fun c => !c.takes mail) ∧
    landsIn away (sent (.msg mail)) (fun c => c.takes mail && c.descheduled) ∧
    landsIn (open3 (sent (.msg mail))) (sent (.msg mail)) (fun c => c.takes mail &&
      !c.descheduled) ∧
    Has (logged.chip? 0) (fun c => c.inlog == [mail] && !c.descheduled && Chip.takes { c with inlog := [] } mail) ∧
    Has (firing.chip? 0) (fun c => c.fired[0]?.any fun f => let q := field f.entry.record 0x27 1
      (vget c.queues q).open_ && !(vget c.queues q).err && !c.queueFull q) := by
  refine ⟨has_of (by decide +kernel), has_of (by decide +kernel), ⟨?_, ?_, ?_, ?_⟩, ⟨?_, ?_, ?_, ?_⟩, ⟨?_, ?_, ?_, ?_⟩, has_of (by decide +kernel),
    has_of (by decide +kernel)⟩
  all_goals first | exact has_of (by decide +kernel) | decide +kernel

theorem test_messages_move : (nexts sending (.sendOutboundEntry k0 0) && nexts outgoing (.sendPayloadRead 0 0) && nexts mailed (.messageDelivery 0) &&
    nexts away (.messageDelivery 0) && nexts (open3 (sent (.msg mail))) (.messageDelivery 0) && nexts logged (.inboundLogConsume 0) &&
    nexts firing (.firedLaunchPlacement 0 0)) = true := by decide +kernel

/-- A tag whose slot is busy, and tags whose buffer lies beside and in a region; a held guest; a device that is not ready. -/
def busyTag : State := podded.updChip 0 fun c => { c with rx := [(3, { RxTag.reset with v := true, next := 1, busy := 1, nslot := 1 })] }
def nearTag : State := podded.updChip 0 fun c => { c with rx := [(3, { RxTag.reset with base := 0x80000000001FE000 })] }
def heldGuest : State := { podded with guests := podded.guests.map fun g => (g.1, { g.2 with held := true }) }
def heldBusy : State := { heldGuest with packets := [{ Packet.new 0 0 0 (.close 0 0) with left := true }] }
def unready : State := podded.updDev 0 fun d => { d with stage := 3 }

/-- Regions staged: a free one, and one like region 0, which is staged too. -/
def twice : State := podded.updChip 0 fun c => { c with tide := { c.tide with staged := c.tide.eff ++ [(5, Tab.getD c.tide.eff 0 ⟨0, 0, 0, 0⟩)] } }
def base0 : DWord := 0x8000000000200000
def win0 : DWord := 0x100000000

/-- What R376 says of a staged write, in a chip that passes a test. -/
def stages (s : State) (ok : Bool) (w : Region → Region × Bool) (q : Chip → Bool) : Prop :=
  Has (s.chip? 0) fun c => q c &&
    let r := Tab.getD c.tide.staged 5 ⟨0, 0, 0, 0⟩
    ((w r).2 && s.mcOk c.guest (w r).1 && (!(w r).1.valid || c.regionOk 5 (w r).1)) == ok

theorem witness_FabricRegisterWrites :
    Has (podded.chip? 0) (fun c => !c.meetsRegion 0x8000000000800000 (vget c.mbxSize 0) && c.meetsRegion 0x8000000000200000 (vget c.mbxSize 0) &&
      !c.meetsRegion (vget c.mbxBase 0).toNat 65536) ∧
    Has ((podded.updChip 0 fun c => { c with mbxBase := vset c.mbxBase 0 0x8000000000200000 }).chip? 0) (fun c =>
      c.meetsRegion (vget c.mbxBase 0).toNat 65536) ∧
    Has (podded.chip? 0) (fun c => let r := Tab.getD c.rx 4 RxTag.reset
      !c.meetsRegion (BitVec.ofNat 64 0x8000000000800000 : DWord).toNat ({ r with base := 0x8000000000800000 } : RxTag).bytes &&
      c.meetsRegion (BitVec.ofNat 64 0x8000000000200000 : DWord).toNat ({ r with base := 0x8000000000200000 } : RxTag).bytes) ∧
    Has (busyTag.chip? 0) (fun c => (Tab.getD c.rx 3 RxTag.reset).busy != 0) ∧
    Has (nearTag.chip? 0) (fun c => let r := Tab.getD c.rx 3 RxTag.reset
      r.busy == 0 && !c.meetsRegion r.base.toNat ({ r with v := true, nslot := 1, next := 0 } : RxTag).bytes) ∧
    Has (nearTag.chip? 0) (fun c => let r := Tab.getD c.rx 3 RxTag.reset
      r.busy == 0 && c.meetsRegion r.base.toNat ({ r with v := true, nslot := 7, next := 0 } : RxTag).bytes && r.nslot != 7) ∧
    Has (podded.chip? 0) (fun c => decide (c.tide.tlog ≤ 5)) ∧ Has ((fabric (sent (.close 0 0))).chip? 0) (fun c => decide (0 < c.tide.tlog)) ∧
    Has (unready.dev? 0) (fun d => !d.ready) ∧
    Has (heldGuest.dev? 0) (fun d => d.ready && heldGuest.drained d.gselGuest && (Tab.find heldGuest.guests d.gselGuest).any fun g => g.held &&
      ((setMembers 0x8000000000000000).all fun m => decide (m ≤ 1023) && (Tab.getD g.vct m 0).getLsbD 31) &&
      (setMembers 0x8000000000000009).any fun m => decide (1023 < m) || !(Tab.getD g.vct m 0).getLsbD 31) ∧
    Has (podded.dev? 0) (fun d => d.ready && (Tab.find podded.guests d.gselGuest).any fun g => !g.held) ∧
    Has (heldBusy.dev? 0) (fun d => d.ready && !heldBusy.drained d.gselGuest && (Tab.find heldBusy.guests d.gselGuest).any fun g => g.held) ∧
    Has ((podded.updDev 0 fun d => { d with gselGuest := 9 }).dev? 0) (fun d => d.ready && (Tab.find podded.guests d.gselGuest).isNone) :=
  ⟨has_of (by decide +kernel), has_of (by decide +kernel), has_of (by decide +kernel), has_of (by decide +kernel), has_of (by decide +kernel), has_of (by decide +kernel),
   has_of (by decide +kernel), has_of (by decide +kernel), has_of (by decide +kernel), has_of (by decide +kernel), has_of (by decide +kernel),
   has_of (by decide +kernel), has_of (by decide +kernel)⟩

theorem witness_FabricRegisterWrites_staged :
    (∀ w ∈ ([(fun r => ({ r with base := base0 }, true)), (fun r => ({ r with win := win0 }, ({ r with win := win0 } : Region).placed)),
        (fun r => ({ r with flag := 8 }, true)), (fun r => ({ r with ctl := 0x8000000000000007 }, ctlOk 0x8000000000000007))] :
        List (Region → Region × Bool)), stages twice false w fun _ => true) ∧
    (∀ w ∈ ([(fun r => ({ r with base := 0x8000000000900000 }, true)), (fun r => ({ r with win := win0 }, ({ r with win := win0 } : Region).placed)),
        (fun r => ({ r with flag := 8 }, true)), (fun r => ({ r with ctl := 0 }, ctlOk 0))] : List (Region → Region × Bool)),
      (stages closed true w fun c => c.tide.c == 0 && c.tide.closed) ∧ stages podded true w fun c => c.tide.c == 0 && !c.tide.closed) := by
  refine ⟨fun w hw => ?_, fun w hw => ?_⟩
  · simp only [List.mem_cons, List.not_mem_nil, or_false] at hw
    obtain rfl | rfl | rfl | rfl := hw <;> exact has_of (by decide +kernel)
  · simp only [List.mem_cons, List.not_mem_nil, or_false] at hw
    obtain rfl | rfl | rfl | rfl := hw <;> exact ⟨has_of (by decide +kernel), has_of (by decide +kernel)⟩

theorem test_fabric_registers : (nexts podded (.mbxbaseWrite 0 1 0x8000000000800000) && nexts podded (.mbxsizeWrite 0 1 65536) && nexts podded (.rxbaseWrite 0 3 0) &&
    nexts busyTag (.rxctlWrite 0 3 0) && nexts podded (.trbaseWrite 0 5 0x8000000000900000) && nexts closed (.trwinWrite 0 5 0) && nexts podded (.trctlWrite 0 5 7) &&
    nexts podded (.trflagWrite 0 5 8) && nexts podded (.tlogWrite 0 5) && nexts podded (.gselWrite 0 0) && nexts heldGuest (.mcsetWrite 0 0 0x8000000000000000)) =
    true := by decide +kernel

/-- A chip under migration, between rounds and in one. -/
def tracked : State := chipped fun c => { c with mig := { c.mig with en := true, tslot := 1, staging := some [] } }
def copyRound : State := tracked.updChip 0 fun c => { c with mig := { c.mig with busy := true, todo := [1] } }

/-- A chip whose quota no device holds. -/
def vast : State := chipped fun c => { c with quota := 2 ^ 41, nearQuota := 0 }

theorem witness_MigrationRounds :
    Has (plain.chip? 0) (fun c => !c.mig.en && plain.slotFree 0 0 1 && !plain.slotFree 0 0 0 && (plain.settle none 0 c.quota c.nearQuota).isSome &&
      decide (plain.tierUse 0 3 none + c.quota ≤ tierBytes 3)) ∧
    Has (vast.chip? 0) (fun c => !c.mig.en && (vast.settle none 0 c.quota c.nearQuota).isNone) ∧
    Has (tracked.chip? 0) (fun c => c.mig.en && !c.mig.busy) ∧ Has (copyRound.chip? 0) (fun c => c.mig.busy) :=
  ⟨has_of (by decide +kernel), has_of (by decide +kernel), has_of (by decide +kernel), has_of (by decide +kernel)⟩

theorem test_migration : (nexts plain (.migrationEnable 0 0x8000000000000400) && nexts tracked (.migrationRound 0) && nexts copyRound (.migrationRoundComplete 0) &&
    nexts copyRound (.migrationDisable 0)) = true := by decide +kernel


/-! ### Witnesses: system registers, Samphire, links, keys, security, bring-up -/

/-- Chips at the points that TCTL meets: its ranges can be leased, its code cannot, a handler is on, a frame is held, a record waits. -/
def leasable : State := chipped fun c => { c with ats := (List.range 16).map fun k => (k, ⟨.mapped (4096 * k) true true true⟩) }
def unleasable : State := chipped fun c => { c with trap := { c.trap with tcbase := 0x100000, tcsize := 1 } }
def handled : State := leasable.updChip 0 fun c => { c with trap := { c.trap with en := true } }
def inFrame : State := leasable.updChip 0 fun c => { c with trap := { c.trap with en := true, frames := [0] } }
def recorded : State := leasable.updChip 0 fun c => { c with trap := { c.trap with due := [(List.replicate 64 0, 0)] } }

/-- The private backing of the placed task lies where a handler's code, or its frames, would stand. -/
def backedCode : State := (mapped false).updChip 0 fun c =>
  { c with trap := { c.trap with tcbase := 0x8000000000100000, tcsize := 1, tfbase := 0x8000000000000000 } }
def backedArea : State := (mapped false).updChip 0 fun c =>
  { c with trap := { c.trap with tcbase := 0x8000000000000000, tcsize := 1, tfbase := 0x8000000000100000 } }

/-- TCTL's ranges in a chip whose handler is off: what the leases of code and frames give passes a test. -/
def tctl (s : State) (q : Chip → Except NoLease (List Lease) → Except NoLease (List Lease) → Bool) : Prop :=
  Has (s.chip? 0) fun c => let still : Chip := { c with moving := [] }
    !c.trap.en && q c (still.leaseRange .fetch c.trap.tcbase.toNat (65536 * c.trap.tcsize)) (still.leaseRange .both c.trap.tfbase.toNat 65536)

/-- Both ranges can be leased; whether a backing meets them. -/
def backing (code area : Bool) (c : Chip) (x y : Except NoLease (List Lease)) : Bool :=
  good x (fun ls => c.backs c.trap.tcbase.toNat (65536 * c.trap.tcsize) ls == code) && good y fun ls => c.backs c.trap.tfbase.toNat 65536 ls == area

theorem witness_SystemRegisterWrites :
    tctl leasable (backing false false) ∧ tctl backedCode (backing true false) ∧ tctl backedArea (backing false true) ∧
    tctl unleasable (fun _ x _ => bad x) ∧ tctl plain (fun _ _ y => bad y) ∧
    Has (handled.chip? 0) (fun c => c.trap.en && c.trap.frames == []) ∧ Has (inFrame.chip? 0) (fun c => c.trap.en && c.trap.frames != []) ∧
    Has (recorded.chip? 0) (fun c => match c.trap.due with
      | (bs, task) :: _ => ((recorded.updChip 0 fun c => { c with trap := { c.trap with due := [] } }).deliverFault 0 bs task).2
      | [] => false) :=
  ⟨has_of (by decide +kernel), has_of (by decide +kernel), has_of (by decide +kernel), has_of (by decide +kernel), has_of (by decide +kernel),
   has_of (by decide +kernel), has_of (by decide +kernel), has_of (by decide +kernel)⟩

/-- CAPCTL and other registers from outside: written, not for the level, not for a protected chip but by its own stream's requests. -/
theorem witness_SystemRegisterWrites_outside :
    ([regOk (plain.sysWrite 0 .host 0x6803 2), plain.outsideMay 0 .host 0x6803 true, regPriv (plain.sysWrite 0 .user 0x6803 2),
      regOk (shut.sysWrite 0 .host 0x6803 2), regOk (shut.sysWrite 0 .supervisor 0x6803 0), !shut.outsideMay 0 .supervisor 0x6803 true,
      regOk (plain.sysWrite 0 .host 0x1141 1), plain.outsideMay 0 .host 0x1141 false, regPriv (plain.sysWrite 0 .user 0x1141 1),
      regOk (shut.sysWrite 0 .supervisor 0x1146 4), !shut.outsideMay 0 .supervisor 0x1146 true,
      regOk ((streamed plain).sysWrite 0 .supervisor 0x1146 4), (streamed plain).outsideMay 0 .supervisor 0x1146 true,
      !(streamed plain).outsideMay 0 .supervisor 0x1146 false] : List Bool).all id = true := by decide +kernel

/-- The registers whose writes the statement gives, each at a level that may and but one at a level that may not. -/
theorem witness_SystemRegisterWrites_levels :
    (([0x1141, 0x1142, 0x1144, 0x1146, 0x1147, 0x1148, 0x1151, 0x2000, 0x2001, 0x2002, 0x2005, 0x2006, 0x3100, 0x3101, 0x3102, 0x1000, 0x10FC, 0x6803,
      0x6804] : List Nat).all fun n => (regLevels 0 n).any fun l => decide (levelCode l.2 ≤ levelCode .firmware) && decide (levelCode .user < levelCode l.2)) =
      true ∧
    ((plain.chip? 0).any fun c => !c.overOk && !c.scopeOk) = true ∧
    (((chipped fun c => { c with overOk := true, scopeOk := true }).chip? 0).any fun c => c.overOk && c.scopeOk) = true :=
  ⟨by decide +kernel, by decide +kernel, by decide +kernel⟩

theorem test_system_registers : (nexts leasable (.trapHandlerEnable 0 0x8000000000000000) && nexts unleasable (.trapHandlerEnable 0 0x8000000000000000) &&
    nexts backedArea (.trapHandlerEnable 0 0x8000000000000000) &&
    nexts handled (.trapHandlerDisable 0) && nexts inFrame (.trapHandlerDisable 0) && nexts recorded (.faultRecordDelivery 0) &&
    nexts plain (.fqheadWrite 0 5) && nexts plain (.capctlWrite 0 3 1 .user) && nexts plain (.registerWrite (.chip 0 false) 0x1141 1 .host)) = true := by
  decide +kernel

/-- A device with a Samphire command at its head; its guest is held or not; its chip 1 of guest 0 is off its cores. -/
def ordered (op index value : Nat) (g : Guest → Guest) : State :=
  let s := podded.updDev 0 fun d => { d with samtail := 1 }
  { s with hostMem := Mem.store (Mem.store (Mem.store s.hostMem 0 op 4) 4 index 4) 8 value 8, guests := s.guests.map fun e => (e.1, g e.2),
           chips := s.chips ++ [(1, Chip.new 0 1 0 1 (2 ^ 20) 0 [] 0)] }
def busyFabric (g : Guest → Guest) : State := { ordered 1 0 0 g with packets := [sent (.close 0 0)] }
def holdIt (g : Guest) : Guest := { g with held := true }

/-- The command and its guest pass a test. -/
def HasCommand (s : State) (p : SamCmd → Guest → Bool) : Prop := Has (s.command 0) fun x => (Tab.find s.guests x.guest).any fun g => p x g

/-- A WVCT with fields that R354 allows, for a chip that there is; whether it joins; a pod with a closed tide; and one of no chips. -/
def tableClean (s : State) (x : SamCmd) : Bool :=
  x.op == 3 && x.clean && decide (x.index < 1024) && x.value &&& ~~~0x83E003FF == 0 && (s.chip? (chipKey x.guest x.index)).isSome
def joinsPod (s : State) (x : SamCmd) : Bool := x.value.getLsbD 31 && !s.inPod x.guest x.index
def shutPod : State := (ordered 3 1 0x80200000 holdIt).updChip 0 fun c => { c with tide := { c.tide with closed := true } }
def emptied (g : Guest) : Guest := { g with held := true, vct := [] }

/-- As a state, with a packet in flight. -/
def undrained (s : State) : State := { s with packets := [sent (.close 0 0)] }

theorem witness_SamphireCommands :
    HasCommand (ordered 1 0 0 id) (fun x g => x.op == 1 && x.bare && (ordered 1 0 0 id).drained x.guest && !g.remap) ∧
    HasCommand (busyFabric id) (fun x g => x.op == 1 && x.bare && !(busyFabric id).drained x.guest && !g.held) ∧
    HasCommand (busyFabric holdIt) (fun x g => x.op == 1 && x.bare && !(busyFabric holdIt).drained x.guest && g.held) ∧
    Has ((ordered 1 0 0 id).dev? 0) Device.ready ∧ Has ((unready).dev? 0) (fun d => !d.ready) ∧
    HasCommand (ordered 3 1 0x80200000 id) (fun x g => tableClean (ordered 3 1 0x80200000 id) x && !g.held) ∧
    HasCommand (undrained (ordered 3 1 0x80200000 holdIt)) (fun x g => let s := undrained (ordered 3 1 0x80200000 holdIt)
      tableClean s x && g.held && !s.drained x.guest) ∧
    HasCommand (undrained (ordered 4 1023 0x83FFFC00 holdIt)) (fun x g => x.op == 4 && x.clean && decide (x.index < 1024) &&
      x.value &&& ~~~0x83FFFFFF == 0 && g.held && !(undrained (ordered 4 1023 0x83FFFC00 holdIt)).drained x.guest) ∧
    HasCommand (ordered 3 0 0x80000000 holdIt) (fun x g => tableClean (ordered 3 0 0x80000000 holdIt) x && g.held &&
      (ordered 3 0 0x80000000 holdIt).drained x.guest && !joinsPod (ordered 3 0 0x80000000 holdIt) x) ∧
    HasCommand shutPod (fun x g => tableClean shutPod x && g.held && shutPod.drained x.guest && joinsPod shutPod x && !shutPod.mayJoin x.guest x.index) ∧
    HasCommand (ordered 3 1 0x80200000 emptied) (fun x g => let s := ordered 3 1 0x80200000 emptied
      tableClean s x && g.held && s.drained x.guest && joinsPod s x && s.mayJoin x.guest x.index && s.podCounters x.guest == []) ∧
    HasCommand (ordered 3 1 0x80200000 holdIt) (fun x g => let s := ordered 3 1 0x80200000 holdIt
      tableClean s x && g.held && s.drained x.guest && joinsPod s x && s.mayJoin x.guest x.index && s.podCounters x.guest == [0]) ∧
    HasCommand (ordered 3 7 0x80000001 holdIt) (fun x _ => x.op == 3 && x.value.getLsbD 31 && ((ordered 3 7 0x80000001 holdIt).chip? (chipKey x.guest x.index)).isNone) ∧
    HasCommand (ordered 4 1023 0x83FFFC00 holdIt) (fun x g => x.op == 4 && x.clean && decide (x.index < 1024) && x.value &&& ~~~0x83FFFFFF == 0 && g.held &&
      (ordered 4 1023 0x83FFFC00 holdIt).drained x.guest) ∧
    HasCommand (ordered 4 1023 0x83FFFC00 id) (fun x g => x.op == 4 && x.clean && decide (x.index < 1024) && x.value &&& ~~~0x83FFFFFF == 0 && !g.held) ∧
    HasCommand (ordered 5 0 0 id) (fun x g => x.op == 5 && x.bare && !g.held) ∧
    HasCommand (ordered 5 0 0 holdIt) (fun x g => x.op == 5 && x.bare && g.held && !g.remap) :=
  ⟨has_of (by decide +kernel), has_of (by decide +kernel), has_of (by decide +kernel), has_of (by decide +kernel), has_of (by decide +kernel),
   has_of (by decide +kernel), has_of (by decide +kernel), has_of (by decide +kernel), has_of (by decide +kernel), has_of (by decide +kernel),
   has_of (by decide +kernel), has_of (by decide +kernel), has_of (by decide +kernel), has_of (by decide +kernel), has_of (by decide +kernel),
   has_of (by decide +kernel), has_of (by decide +kernel)⟩

/-- Where XFER's chip stands: off its cores with a free slot, on its cores, or with a staged copy. -/
def HasMove (s : State) (p : SamCmd → Guest → Chip → Bool) : Prop :=
  HasCommand s fun x g => x.op == 2 && x.clean && decide (x.index < 1024) && bitsOf x.value.toNat 63 15 == 0 &&
    (s.dev? (bitsOf x.value.toNat 9 0)).isSome && (s.chip? (chipKey x.guest x.index)).any fun c => p x g c

def stagedMove (busy : Bool) : State := (ordered 2 1 0x1400 holdIt).updChip 1 fun c =>
  { c with mig := { c.mig with en := true, tslot := 5, rounds := 1, busy, staging := some [] } }

/-- A second device, whose chip has all the inbound buffer; without room in its memory. -/
def twoDevs (s : State) (tibq quota : Nat) : State :=
  { s with devs := s.devs ++ [(1, { Device.reset with stage := 6, slots := [(0, 9)] })],
           chips := s.chips ++ [(9, { (Chip.new 0 9 1 0 quota 0 [] 0) with tide := { (Chip.new 0 9 1 0 quota 0 [] 0).tide with tibq } })] }

theorem witness_SamphireCommands_xfer :
    HasMove (ordered 2 1 0x1400 id) (fun _ g _ => !g.held) ∧
    HasMove (undrained (ordered 2 1 0x1400 holdIt)) (fun x g _ => g.held && !(undrained (ordered 2 1 0x1400 holdIt)).drained x.guest) ∧
    HasMove (ordered 2 0 0x1400 holdIt) (fun x g c => g.held && (ordered 2 0 0x1400 holdIt).drained x.guest && !(ordered 2 0 0x1400 holdIt).dsch 0 c) ∧
    HasMove (ordered 2 1 0 holdIt) (fun _ g c => g.held && (ordered 2 1 0 holdIt).dsch 1 c && !(ordered 2 1 0 holdIt).slotFree 1 0 0) ∧
    HasMove (twoDevs (ordered 2 1 0x1401 holdIt) 0 (2 ^ 40)) (fun x g c => let s := twoDevs (ordered 2 1 0x1401 holdIt) 0 (2 ^ 40)
      g.held && s.drained x.guest && s.dsch 1 c && s.slotFree 1 1 5 && (s.tiersAt 1 c 1).isNone) ∧
    HasMove (twoDevs (ordered 2 1 0x1401 holdIt) 4097 65536) (fun _ _ c => c.dev != 1 &&
      decide (4096 < (twoDevs (ordered 2 1 0x1401 holdIt) 4097 65536).tibqTaken 1 1 + max c.tide.tibq (c.tide.tibqDue.getD 0))) ∧
    HasMove (twoDevs (ordered 2 1 0x1401 holdIt) 0 65536) (fun x g c => let s := twoDevs (ordered 2 1 0x1401 holdIt) 0 65536
      g.held && s.drained x.guest && s.dsch 1 c && s.slotFree 1 1 5 && (s.tiersAt 1 c 1).isSome && !c.mig.en) ∧
    HasMove (ordered 2 1 0x1400 holdIt) (fun x g c => g.held && (ordered 2 1 0x1400 holdIt).drained x.guest && (ordered 2 1 0x1400 holdIt).dsch 1 c &&
      (ordered 2 1 0x1400 holdIt).slotFree 1 0 5 && ((ordered 2 1 0x1400 holdIt).tiersAt 1 c 0).isSome && !c.mig.en) ∧
    HasMove (stagedMove false) (fun x g c => g.held && (stagedMove false).drained x.guest && (stagedMove false).dsch 1 c &&
      (stagedMove false).slotFree 1 0 5 && ((stagedMove false).tiersAt 1 c 0).isSome && c.mig.en &&
      c.mig.tdev == 0 && c.mig.tslot == 5 && decide (1 ≤ c.mig.rounds) && !c.mig.busy) :=
  ⟨has_of (by decide +kernel), has_of (by decide +kernel), has_of (by decide +kernel), has_of (by decide +kernel), has_of (by decide +kernel),
   has_of (by decide +kernel), has_of (by decide +kernel), has_of (by decide +kernel), has_of (by decide +kernel)⟩

theorem test_samphire_commands : (nexts (ordered 1 0 0 id) (.hold 0) && nexts (busyFabric id) (.hold 0) && keeps (busyFabric holdIt) (.hold 0) &&
    nexts (ordered 3 1 0x80200000 holdIt) (.wvct 0) && nexts (ordered 3 7 0x80000001 holdIt) (.wvct 0) && nexts (ordered 4 1023 0x83FFFC00 id) (.wrlt 0) && nexts (ordered 5 0 0 holdIt) (.release 0) &&
    nexts (ordered 2 0 0x1400 holdIt) (.xfer 0) && nexts (ordered 2 1 0x1400 holdIt) (.xfer 0) && nexts (stagedMove false) (.xfer 0) &&
    nexts podded (.samtailWrite 0 3)) = true := by decide +kernel

/-- A device whose plane 3 has a link in a state. -/
def linked (live : BitVec 16) (l : Link) : State := podded.updDev 0 fun d => { d with live, links := [(3, l)] }

theorem witness_LinksFailAndReturn :
    Has ((linked 0xFFFF ⟨8, 2048, .up⟩).dev? 0) (fun d => (d.link 3).state != .failed && decide (2 < (d.link 3).lanes) && !d.remapDue 3 &&
      d.live.getLsbD 3 && decide (2048 - 100 ≥ 384)) ∧
    Has ((linked 0xFFFF ⟨2, 400, .degraded⟩).dev? 0) (fun d => (d.link 3).state == .degraded && decide (1 < (d.link 3).lanes) && !d.remapDue 3 &&
      decide (100 ≤ (d.link 3).flits) && decide ((d.link 3).flits - 100 < 384)) ∧
    Has ((linked 0xFFF7 ⟨8, 2048, .up⟩).dev? 0) (fun d => (d.link 3).state != .failed && decide (1 < (d.link 3).lanes) && !d.remapDue 3 &&
      !d.live.getLsbD 3) ∧
    Has ((linked 0xFFFF ⟨0, 2048, .failed⟩).dev? 0) (fun d => d.remapDue 3 && (linked 0xFFFF ⟨0, 2048, .failed⟩).quiet) ∧
    Has ((linked 0xFFF7 ⟨0, 2048, .failed⟩).dev? 0) (fun d => (d.link 3).state == .failed && !d.live.getLsbD 3) ∧
    Has ((linked 0xFFF7 ⟨8, 2048, .up⟩).dev? 0) (fun d => (d.link 3).state == .up && !d.live.getLsbD 3 && (linked 0xFFF7 ⟨8, 2048, .up⟩).quiet) ∧
    Has ((linked 0xFFF7 ⟨4, 2048, .degraded⟩).dev? 0) (fun d => (d.link 3).state == .degraded && !d.live.getLsbD 3 &&
      (linked 0xFFF7 ⟨4, 2048, .degraded⟩).quiet) :=
  ⟨has_of (by decide +kernel), has_of (by decide +kernel), has_of (by decide +kernel), has_of (by decide +kernel), has_of (by decide +kernel),
   has_of (by decide +kernel), has_of (by decide +kernel)⟩

theorem test_links : (nexts (linked 0xFFFF ⟨8, 2048, .up⟩) (.linkLaneLoss 0 3 2) && nexts (linked 0xFFFF ⟨8, 2048, .up⟩) (.linkLaneLoss 0 3 1) &&
    nexts (linked 0xFFFF ⟨0, 2048, .failed⟩) (.linkLaneLoss 0 3 0) && nexts (linked 0xFFFF ⟨2, 400, .degraded⟩) (.linkBufferRetire 0 3 100) &&
    nexts (linked 0xFFFF ⟨2, 400, .degraded⟩) (.linkRetrainComplete 0 3) && nexts (linked 0xFFF7 ⟨0, 2048, .failed⟩) (.linkRepair 0 3) &&
    nexts (linked 0xFFF7 ⟨8, 2048, .up⟩) (.linkRepair 0 3)) = true := by decide +kernel

/-- A device with one key slot and its link counter. -/
def stored (k : KeySlot) (n : Nat) : State := podded.updDev 0 fun d => { d with keys := [(5, k)], linkCtr := [(5, n)] }
def bound (kind state : Nat) (drain : Bool) : KeySlot := { KeySlot.empty with state, kind, drain, chipB := 1 }
def ks (op kind : Nat) : DWord := BitVec.ofNat 64 (op * 2 ^ 60 + kind * 2 ^ 56 + 5)

/-- A command's checks pass, or give a code. -/
def checks (s : State) (cmd : DWord) (code : Option Nat) : Prop := Has (s.dev? 0) fun d => d.ready && d.ksCheck s.protGuest (KsCmd.of cmd) == code

/-- As a state, where the guest is protected. -/
def guardedGuest (s : State) : State := { s with guests := s.guests.map fun g => (g.1, { g.2 with prot := true }) }

/-- A retiring link slot beside a packet of its link that its successor has sealed. -/
def cleared (state : Nat) : State :=
  { stored { bound 2 state true with bits := [9] } 0 with packets := [{ Packet.new 0 0 1 (.close 0 0) with left := true, cipher := some ⟨[7], 3, 0⟩ }] }

theorem witness_KeyStore :
    checks podded (ks 1 2) none ∧ checks podded (ks 2 2) none ∧ checks (stored (bound 2 1 false) 0) (ks 3 2) none ∧
    checks (stored (bound 1 2 false) 0) (ks 4 0) none ∧ checks (stored (bound 2 2 false) 0) (ks 4 0) none ∧
    checks (stored (bound 2 4 false) 0) (ks 5 0) none ∧
    ((KsCmd.of (ks 3 2)).ok && (guardedGuest (stored (bound 2 1 false) 0)).protGuest (KsCmd.of (ks 3 2)).guest) = true ∧
    Has ((guardedGuest (stored (bound 2 1 false) 0)).dev? 0) (fun d => d.ready && (d.key 5).state == 1 && (d.key 5).kind == (KsCmd.of (ks 3 2)).kind) ∧
    checks (stored (bound 2 2 false) 0) (ks 1 2) (some 2) ∧ checks podded (ks 3 2) (some 2) ∧ checks podded (ks 4 0) (some 2) ∧
    checks podded (ks 5 0) (some 2) ∧ checks podded (ks 2 9) (some 4) ∧
    Has (unready.dev? 0) (fun d => !d.ready) ∧
    Has ((stored (bound 1 3 true) 0).dev? 0) (fun d => (d.key 5).state == 3 && (d.key 5).kind == 1 && (d.key 5).drain) ∧
    Has ((stored (bound 2 3 true) 0).dev? 0) (fun d => (d.key 5).state == 3 && (d.key 5).kind == 2 && (d.key 5).drain && podded.packets == []) ∧
    Has ((cleared 3).dev? 0) (fun d => (d.key 5).state == 3 && (d.key 5).kind == 2 && (d.key 5).drain && (cleared 3).packets.all fun p =>
      p.cipher.all fun q => q.bits != (d.key 5).bits) ∧
    Has ((stored (bound 2 2 false) (2 ^ 47)).dev? 0) (fun d => (d.key 5).state == 2 && (d.key 5).kind == 2 && decide (2 ^ 47 ≤ Tab.getD d.linkCtr 5 0) &&
      !d.warned.contains 5) ∧
    Has ((stored (bound 2 2 false) (2 ^ 48)).dev? 0) (fun d => (d.key 5).state == 2 && (d.key 5).kind == 2 && decide (2 ^ 48 ≤ Tab.getD d.linkCtr 5 0)) :=
  ⟨has_of (by decide +kernel), has_of (by decide +kernel), has_of (by decide +kernel), has_of (by decide +kernel), has_of (by decide +kernel),
   has_of (by decide +kernel), by decide +kernel, has_of (by decide +kernel), has_of (by decide +kernel), has_of (by decide +kernel),
   has_of (by decide +kernel), has_of (by decide +kernel), has_of (by decide +kernel), has_of (by decide +kernel), has_of (by decide +kernel),
   has_of (by decide +kernel), has_of (by decide +kernel), has_of (by decide +kernel), has_of (by decide +kernel)⟩

theorem test_key_store : (nexts podded (.gen 0 (ks 1 2)) && nexts podded (.load 0 (ks 2 2)) && nexts (stored (bound 2 1 false) 0) (.activate 0 (ks 3 2)) &&
    nexts (stored (bound 2 2 false) 0) (.revoke 0 (ks 4 0)) && nexts (stored (bound 2 4 false) 0) (.erase 0 (ks 5 0)) &&
    nexts (stored (bound 1 3 true) 0) (.keyReencryptComplete 0 5) && nexts (stored (bound 2 3 true) 0) (.linkQueuesDrained 0 5) &&
    nexts (stored (bound 2 2 false) (2 ^ 47)) (.linkCounterWarn 0 5) && nexts (stored (bound 2 2 false) (2 ^ 48)) (.linkCounterExhausted 0 5)) = true := by
  decide +kernel

/-- A device with an interface of slot 0 in a state, whose chip has no cores, and an SPDM responder at a point of the exchange. -/
def faced (t : TdiState) (p : Spdm) : State := ((placed false false []).updDev 0 fun d => { d with tdi := [(0, ⟨t, 0, false⟩)], spdm := p, dbgStat := 5 }).updChip 0 fun c =>
  { c with cores := 0, tasks := [], launches := [] }
def agreed : Spdm := ⟨true, true, true, true, true, 0, []⟩

theorem witness_SecurityRequests :
    Has ((faced .unlocked agreed).dev? 0) (fun d => d.ready && (d.iface 0).state == .unlocked && Tab.find d.slots 0 == some 0 &&
      ((faced .unlocked agreed).chip? 0).any fun c => c.descheduled && c.tasks.all fun u => u.2.core.isNone) ∧
    Has ((faced .creating agreed).dev? 0) (fun d => d.ready && (d.iface 0).state == .creating && Tab.find d.slots 0 == some 0 && decide (3 ≤ d.freeKeys) &&
      ((faced .creating agreed).chip? 0).isSome && Tab.rising none d.keys && d.tdi.any fun t => t.2.state == .creating) ∧
    Has ((faced .unlocked ⟨false, false, false, false, false, 0, []⟩).dev? 0) (fun d => d.ready && !d.spdm.finished && (d.iface 0).state != .locked) ∧
    Has ((faced .locked agreed).dev? 0) (fun d => d.ready && (d.iface 0).state == .locked && d.spdm.finished && d.spdm.session && d.spdm.version && d.spdm.caps &&
      d.spdm.algorithms && decide (d.spdm.sigIndex < 2 ^ 40) && (d.tdi.all fun t => t.2.state != .creating) && d.dbgStat == 5) ∧
    Has ((faced .run agreed).dev? 0) (fun d => d.ready && (d.iface 0).state == .run) :=
  ⟨has_of (by decide +kernel), has_of (by decide +kernel), has_of (by decide +kernel), has_of (by decide +kernel), has_of (by decide +kernel)⟩

theorem test_security_requests :
    (([.lockInterface 0 0, .startInterface 0 0, .stopInterface 0 0, .tdispGetVersion 0 0, .tdispGetCapabilities 0 0, .getDeviceInterfaceState 0 0, .ideKm 0 0,
      .spdmGetVersion 0 1, .spdmGetCapabilities 0 1, .negotiateAlgorithms 0 1, .getDigests 0 1, .getCertificate 0 1, .keyExchange 0 1, .challenge 0 1,
      .getMeasurements 0 1, .finish 0 1, .debugUnlockRequest 0 4096, .debugTokenVerified 0 .accepted] : List Instr).all (nexts (faced .unlocked agreed))) = true ∧
    (([.startInterface 0 0, .stopInterface 0 0, .getDeviceInterfaceReport 0 0, .configurationChange 0 0, .functionReset 0 0] : List Instr).all
      (nexts (faced .locked agreed))) = true ∧
    (([.protectedCreationCommit 0 0, .debugUnlockRequest 0 4096] : List Instr).all (nexts (faced .creating agreed))) = true :=
  ⟨by decide +kernel, by decide +kernel, by decide +kernel⟩

/-- A device at a stage of its bring-up. -/
def staged (n : Nat) : State := State.reset.updDev 0 fun d => { d with stage := n }

theorem witness_DevicesAndChips :
    Has ((staged 0).dev? 0) (fun d => decide (d.stage < 6) && d.bootErr == 0) ∧ Has ((staged 2).dev? 0) (fun d => d.stage == 2 && d.bootErr == 0) ∧
    Has ((staged 3).dev? 0) (fun d => d.stage == 3 && d.bootErr == 0) ∧
    (((staged 6).chip? 1).isNone && (staged 6).slotFree 1 0 3 && ((staged 6).settle none 0 65536 65536).isSome &&
      ((staged 6).dev? 0).map Device.ready == some true && decide ((staged 6).nearTaken 0 + 65536 ≤ 192 * 2 ^ 30)) = true ∧
    Has (plain.chip? 0) (fun _ => Tab.rising none plain.chips) ∧ Has (plain.dev? 0) (fun _ => decide (5 ≤ 159)) ∧
    (State.reset.dev? 7).isNone = true ∧ Has (plain.dev? 0) (fun d => d.ready) ∧
    Has ((staged 3).dev? 0) (fun d => !d.ready && isDevReg 0x4301 && (regLevels 32 0x4301).isSome) :=
  ⟨has_of (by decide +kernel), has_of (by decide +kernel), has_of (by decide +kernel), by decide +kernel, has_of (by decide +kernel),
   has_of (by decide +kernel), by decide +kernel, has_of (by decide +kernel), has_of (by decide +kernel)⟩

theorem test_devices_and_chips : (nexts plain (.deviceReset 0) && nexts plain (.deviceReset 7) && nexts plain (.registerWrite (.vfEnable 0) 0 1 .host) && nexts (staged 0) (.bringUpStage 0 0) && nexts (staged 2) (.bringUpStage 0 1) &&
    nexts (staged 6) (.chipCreation 1 0 3 65536 65536) && nexts plain (.chipDestruction 0) && nexts plain (.coreClockReduction 0 3000) &&
    nexts plain (.powerUngate ⟨0, 5⟩)) = true := by decide +kernel


/-! ### Witnesses: the step, the checks, destinations, frames, faults -/

/-- A NOP, and the machine with its bytes at the issuer's address, at the end of a 32-byte block, and at the end of the image. -/
def nop : Instr := (.nop (ops .A 0 z z z z))
def nopCode : List Byte := (encode nop).getD []
def nopAt : State := placed false false nopCode
def crossing : State := (placed false false (zeros 0x1C ++ nopCode)).updGang g0 fun g => { g with pc := Lanes.all (placedImage + 0x9C) }
def cutOff : State := nopAt.updTask 0 0 fun t => { t with extents := t.extents.map fun e => { e with size := 0x84 } }
def outside : State := nopAt.updGang g0 fun g => { g with pc := Lanes.all 0x8000000000700000 }

/-- Someone issues, and the bytes that the fetch finds pass a test. -/
def fetches (s : State) (q : Issuer → Nat → Bool) : Prop := Has s.issuing fun x => q x.1 (vget x.2.1.pc (lowest x.2.2.2.2)).toNat

theorem witness_StepRunsIssued :
    fetches nopAt (fun w a => nopAt.codeBytes w a nopCode.length == some nopCode && decode nopCode == some (nop, []) && decide (a % 32 + nopCode.length ≤ 32)) ∧
    fetches cutOff (fun w a => (cutOff.codeBytes w a 4).any fun h => decide (a % 32 + lengthOf (leNat h) ≤ 32) && (cutOff.codeBytes w a (lengthOf (leNat h))).isNone) ∧
    fetches outside (fun w a => (outside.codeBytes w a 4).isNone) ∧
    ({ nopAt with issuer := none, agenda := [nop] } : State).issuer = none ∧ Memory.wf nopAt = true ∧
    (match step nopAt with | .next _ => true | _ => false) = true :=
  ⟨has_of (by decide +kernel), has_of (by decide +kernel), has_of (by decide +kernel), rfl, by decide +kernel, by decide +kernel⟩

theorem witness_FetchBoundary : fetches crossing (fun w a => (crossing.codeBytes w a 4).any fun h => decide (32 < a % 32 + lengthOf (leNat h))) :=
  has_of (by decide +kernel)

/-- An instruction's checks in a state, as the context and reads that they work on. -/
def checked (s : State) (i : Instr) (q : Ctx → Reads → Gang → LaneMask → Bool) : Prop :=
  Has i.spec fun sp => i.ops.any fun x => s.issuing.any fun p =>
    let k := ctxOf s i sp x p.1 p.2.1 p.2.2.1 p.2.2.2.1 p.2.2.2.2
    q k.1 k.2 p.2.1 p.2.2.2.2

/-- The first two checks pass, and then the level. -/
def passes (s : State) (i : Instr) (c : Ctx) (r : Reads) (g : Gang) : Bool :=
  encOk c.md c.sp c.x && placeOk c.md i c.sp && opndOk c.md c.sp c.x && decide (levelCode c.sp.lv ≤ levelCode g.pl) && s.scopeWriteOk c.chip i &&
    !c.regPriv s r
def differs (c : Ctx) (r : Reads) : Bool :=
  ([differing c.sp.a c.active r.a, differing c.sp.b c.active r.b, differing c.sp.c c.active r.c].filterMap id).min?.isSome
def gone (c : Ctx) (r : Reads) : LaneMask :=
  missingLanes c.active r.d ||| missingLanes c.active r.a ||| missingLanes c.active r.b ||| missingLanes c.active r.c

/-- `plain` with a result outstanding for v8, with lanes of v1 that differ, and with a replay due. -/
def awaited : State := rig fun g => { g with pend := [{ arrived 0 with missing := 1 }] }
def uneven : State := rig fun g => { g with vmap := [(1, ⟨0xFFFFFFFF, Vector.ofFn fun k => BitVec.ofNat 32 k.val⟩)] }
def again : State := rig fun g => { g with replay := [⟨0xFFFFFFFF, 0, Lanes.all 0, [], false⟩] }

theorem witness_ChecksInOrder :
    checked plain (.iadd (ops .B 0 (.main 8) one one z)) (fun c _ _ _ => !(encOk c.md c.sp c.x && placeOk c.md (.iadd (ops .B 0 (.main 8) one one z)) c.sp)) ∧
    checked plain (.iadd (ops .A 0 (.main 8) (.special 255) one z)) (fun c _ _ _ => encOk c.md c.sp c.x && placeOk c.md (.iadd (ops .A 0 (.main 8) (.special 255) one z)) c.sp && !opndOk c.md c.sp c.x) ∧
    checked plain (.halt (ops .A 0 z z z z)) (fun c r g _ => encOk c.md c.sp c.x && placeOk c.md (.halt (ops .A 0 z z z z)) c.sp && opndOk c.md c.sp c.x && !passes plain (.halt (ops .A 0 z z z z)) c r g) ∧
    checked plain (.iadd { ops .A 0 (.main 8) one one z with gp := 0 }) (fun c r g _ => passes plain (.iadd (ops .A 0 (.main 8) one one z)) c r g && c.active == 0) ∧
    checked awaited (.iadd (ops .A 0 (.main 8) (.main 8) one z)) (fun c r g _ => passes awaited (.iadd (ops .A 0 (.main 8) one one z)) c r g && c.active != 0 && c.mustWait) ∧
    checked uneven (.wsel (ops .A 0 z (.main 1) z z)) (fun c r g m => passes uneven (.wsel (ops .A 0 z one z z)) c r g && c.active != 0 && !c.mustWait && (g.replaying m).isNone && differs c r) ∧
    checked plain (.iadd (ops .A 0 (.main 8) (.main 1) one z)) (fun c r g m => passes plain (.iadd (ops .A 0 (.main 8) one one z)) c r g && c.active != 0 && !c.mustWait && (g.replaying m).isNone && !differs c r && gone c r != 0) ∧
    checked plain (.iadd (ops .A 0 (.main 8) one one z)) (fun c r g m => passes plain (.iadd (ops .A 0 (.main 8) one one z)) c r g && c.active != 0 && !c.mustWait && (g.replaying m).isNone && !differs c r && gone c r == 0) ∧
    checked again (.iadd (ops .A 0 (.main 8) (.main 1) one z)) (fun c r g m => passes again (.iadd (ops .A 0 (.main 8) one one z)) c r g && c.active != 0 && !c.mustWait && (g.replaying m).isSome) :=
  ⟨has_of (by decide +kernel), has_of (by decide +kernel), has_of (by decide +kernel), has_of (by decide +kernel), has_of (by decide +kernel),
   has_of (by decide +kernel), has_of (by decide +kernel), has_of (by decide +kernel), has_of (by decide +kernel)⟩

/-- Where a destination stands: the class of its slot and the operand that names it; the state has the issuer's gang. -/
def writes (s : State) (cls : Cls) (o : Opnd) (x : Ops) (c : Ctx) : Bool :=
  (match c.sp.dst with | .dst sl => sl.cls == cls | d => d.writeSlot.any fun sl => sl.cls == cls) && x.dst == o &&
    (c.g.replaying c.lanes).isNone && (s.due.find? (Issuer.together c.w)).isNone && (s.gangOf c.w).any fun b => b.replay == c.g.replay

/-- `data1` with v1 live in the issuing thread and v2 in one more. -/
def lived : State := data1.updGang g0 fun g => { g with vmap := [(1, ⟨1, Lanes.all 3⟩), (2, ⟨3, Lanes.all 4⟩)] }
def lastly (m : BitVec 8) : Ops := { ops .A 0 (.main 8) one one z with a := ⟨.main m, true, 0⟩ }

theorem witness_DestinationsReceive :
    Meets data1
      [((.iadd (ops .A 0 (.main 8) one one z)), writes data1 .V (.main 8)), ((.iadd (ops .A 0 (.main 255) one one z)), writes data1 .V (.main 255)),
       ((.iadd (ops .A 0 (.file 4) one one z)), writes data1 .V (.file 4)), ((.sadd (ops .A 0 (.main 5) z z z)), writes data1 .S (.main 5)),
       ((.mmov (ops .A 0 (.main 1) z z z)), writes data1 .M (.main 1)), ((.icmp (ops .A 0 (.main 2) one one z)), writes data1 .P (.main 2))] ∧
    Meets ctrlIdle [((.iadd (ops .A 0 (.main 8) one one z)), fun x c => writes ctrlIdle .V (.main 8) x c && (match c.w with | .ctrl _ => true | _ => false))] ∧
    Meets lived (([(1, true), (2, false)] : List (Nat × Bool)).map fun p => ((.iadd (lastly p.1) : Instr), fun x c => writes lived .V (.main 8) x c && !c.md.ctrl && x.a.lastRead &&
      (match c.sp.a with | .src sl => sl.regs == 1 | _ => false) && !c.destName.covers p.1 && (lived.gangOf c.w).any fun b => Tab.rising none b.vmap &&
        !b.awaits p.1 && (Tab.find b.vmap p.1).any fun r => (r.live &&& ~~~c.active == 0) == p.2)) :=
  ⟨meets_of (by decide +kernel), meets_of (by decide +kernel), meets_of (by decide +kernel)⟩

theorem witness_RegisterFrames : Meets data1
    [((.iadd (ops .A 0 (.main 8) one one z)), fun _ c => c.room data1 && nexts data1 (.iadd (ops .A 0 (.main 8) one one z)) && Instr.registerOnly (.iadd (ops .A 0 (.main 8) one one z))),
     ((.fadd (ops .A 0 (.main 8) one one z)), fun _ c => c.room data1 && nexts data1 (.fadd (ops .A 0 (.main 8) one one z)) && Instr.floatOnly (.fadd (ops .A 0 (.main 8) one one z)) && calm c)] ∧
    Meets ctrlIdle [((.iadd (ops .A 0 (.main 255) one one z)), fun _ c => c.room ctrlIdle && nexts ctrlIdle (.iadd (ops .A 0 (.main 255) one one z)) && (match c.w with | .ctrl _ => true | _ => false))] :=
  ⟨meets_of (by decide +kernel), meets_of (by decide +kernel)⟩

theorem witness_StoreFrames : Meets data1
    [((.st (ops .A 0 (.main 255) (.special 2) (.special 64) z)), fun _ c => c.room data1 && nexts data1 (.st (ops .A 0 (.main 255) (.special 2) (.special 64) z)) && free data1 c .write 4 c.ea (c.boundStore data1 4 true)),
     ((.sts (ops .A 0 (.main 255) (.special 64) (.special 64) z)), fun _ c => c.room data1 && nexts data1 (.sts (ops .A 0 (.main 255) (.special 64) (.special 64) z)) && free data1 c .write 4 c.scratchAddr (c.boundStore data1 4 false)),
     ((.mst (ops .A 0 z (.special 2) (.special 64) z)), fun x c => c.room data1 && nexts data1 (.mst (ops .A 0 z (.special 2) (.special 64) z)) && free data1 c .write (moBytes x) c.ea fun _ _ => false),
     ((.atom (ops .A 0 (.main 255) (.special 2) (.special 64) z)), fun x c => c.room data1 && nexts data1 (.atom (ops .A 0 (.main 255) (.special 2) (.special 64) z)) &&
       clearFor data1 c (c.once c.vb) 4 fun k old => some (atomicOp (x.sb 3 0) 32 old c.vd[k])),
     ((.red (ops .A 0 (.main 255) (.special 2) (.special 64) z)), fun x c => c.room data1 && nexts data1 (.red (ops .A 0 (.main 255) (.special 2) (.special 64) z)) &&
       clearFor data1 c (c.once c.vb) 4 fun k old => some (atomicOp (x.sb 3 0) 32 old c.vd[k])),
     ((.atomCas (ops .B 0 (.main 255) (.special 2) (.special 64) (.special 64))), fun _ c => c.room data1 && nexts data1 (.atomCas (ops .B 0 (.main 255) (.special 2) (.special 64) (.special 64))) &&
       clearFor data1 c (c.once c.vc) 4 fun k old => if old = c.vd[k] then some c.vb[k] else none)] := meets_of (by decide +kernel)

/-- A gang whose chip's handler is on with a frame to spare; with none; and one in the handler. -/
def guarded (frames : List Nat) (frame : Option Nat) : State := (rig fun g => { g with frame }).updChip 0 fun c =>
  { c with trap := { c.trap with en := true, frames } }

theorem witness_FaultTaken :
    HasGang (guarded [] none) (fun c _ q => q.replay == [] && q.pend == [] && q.frame.isNone && c.trap.en && c.trap.freeFrame == some 0) ∧
    HasGang (guarded [0] none) (fun c _ q => q.replay == [] && q.pend == [] && q.frame.isNone && c.trap.en && c.trap.freeFrame.isNone) ∧
    HasGang (guarded [0] (some 0)) (fun c _ q => q.replay == [] && q.pend == [] && q.frame.isSome && c.trap.en) :=
  ⟨has_of (by decide +kernel), has_of (by decide +kernel), has_of (by decide +kernel)⟩

theorem witness_DecodeEncode : Instr.wf (.iadd (ops .A 0 (.main 8) one one z)) = true ∧ Instr.wf nop = true ∧ decode (nopCode ++ [7]) = some (nop, [7]) :=
  ⟨by decide +kernel, by decide +kernel, by decide +kernel⟩


/-! ### Single steps, with results that the spec prints -/

/-- A vector register that is live in every lane. -/
def lanesOf32 (f : Nat → Nat) : VReg := ⟨0xFFFFFFFF, Vector.ofFn fun k => BitVec.ofNat 32 (f k.val)⟩

/-- The gang after one step of the placed machine with the instruction of a word, its gang first changed. -/
def run (word : Nat) (f : Gang → Gang) : Option Gang :=
  match step ((placed false false (leBytes word 16)).updGang g0 f) with
  | .next t => t.gang? g0
  | _ => none

/-- As `run`, after a change of the machine. -/
def runIn (word : Nat) (f : State → State) : Option Gang :=
  match step (f (placed false false (leBytes word 16))) with
  | .next t => t.gang? g0
  | _ => none

/-- A lane of a vector register. -/
def lane (g : Option Gang) (name k : Nat) : Option Nat := g.bind fun q => (Tab.find q.vmap name).map fun r => (vget r.data k).toNat

/-- The table of "Worked example: one conversion into T8 and E4M3" (chapter 5). -/
def eight : Nat → Nat := fun k =>
  ([0x40400000, 0x447A0000, 0x80000000, 0x3089705F, 0x4E800000, 0xC0400000, 0x7FC00000, 0xC0200000] : List Nat).getD k 0

theorem test_fcvt_t8 : (List.range 8).map (lane (run 0x4000000100C0F24C fun g => { g with vmap := [(2, lanesOf32 eight)] }) 6) =
    [0x4C, 0x74, 0x00, 0x01, 0x7F, 0xCC, 0x80, 0xCA].map some := by decide +kernel

theorem test_fcvt_e4m3 : (List.range 8).map (lane (run 0x6000000100C0F24C fun g => { g with vmap := [(2, lanesOf32 eight)] }) 6) =
    [0x44, 0x7E, 0x80, 0x00, 0x7E, 0xC4, 0x7F, 0xC2].map some := by decide +kernel

/-- "Worked example: one shuffle, two modes" (chapter 4). -/
def selectors : Nat → Nat := fun k => ([3, 17, 31, 40] : List Nat).getD (k % 16) 0

theorem test_shfl : [0, 1, 2, 3, 16, 17, 18].map (lane (run 0x000006010080F0BC fun g => { g with vmap := [(2, lanesOf32 (100 + ·)), (3, lanesOf32 selectors)] }) 4) =
    [103, 117, 131, 108, 103, 117, 131].map some := by decide +kernel

/-- The square of (3.0, 4.0) under .pos ("Two worked cases", chapter 17). -/
theorem test_mmul_pos : ((run 0x020002008040F818 fun g => { g with mom := vset g.mom 1 (Lanes.all 0x4080000040400000) }).map fun q => vget (vget q.mom 2) 5) =
    some 0x4330000041500000 := by decide +kernel

/-- The walk of the capabilities (chapter 25): the head at position 2, that at position 3 before and after EN, and nothing at 5. -/
theorem test_cap : ((run 0x020001A10080FA48 id).map fun q => vget q.sreg 4) = some 0x0003010000010002 ∧
    (plain.chip? 0).map (fun c => ({ c with overOk := true } : Chip).capHead 3) = some 0x001001C000010003 ∧
    (plain.chip? 0).map (fun c => ({ c with overOk := true, overEn := true } : Chip).capHead 3) = some 0x001001E000010003 ∧
    (plain.chip? 0).map (fun c => c.capHead 5) = some 0 := ⟨by decide +kernel, by decide +kernel, by decide +kernel, by decide +kernel⟩

/-- The examples of R87: IADD.i8 with and without .sat, and IMAD.wide.n32. -/
theorem test_iadd_sat : writeInt (tyOf 6) 3 (extTy (tyOf 6) 100 + extTy (tyOf 6) 100) = 0x7F ∧
    writeInt (tyOf 6) 0 (extTy (tyOf 6) 100 + extTy (tyOf 6) 100) = 0xFFFFFFC8 := by decide +kernel

/-- The example of R108: LPRFX.add.excl over lanes 2, 3, 5 and 8. -/
theorem test_lprfx : ([2, 3, 5, 8] : List (Fin 32)).map (fun k => reduxOver 0 (tyOf 1) (([2, 3, 5, 8] : List (Fin 32)).filter (· < k))
    (Vector.ofFn fun j : Fin 32 => match j.val with | 2 => 4 | 3 => 1 | 5 => 7 | 8 => 2 | _ => 0)) = [0, 4, 5, 12] := by decide +kernel

/-- ISUB of 0 and 1 wraps (R85). -/
theorem test_isub_wraps : lane (run (0x0000F008 + 8 * 2 ^ 21 + 0x340 % 2 * 2 ^ 31 + (0x340 / 2) * 2 ^ 32 + 0x341 * 2 ^ 41) id) 8 31 = some 0xFFFFFFFF := by
  decide +kernel

/-- A task whose gang has no handler ends when it reads a register that is not mapped (R30, R37, R398). -/
theorem test_unmapped_read : (match step ((placed false false (leBytes (0x0000F004 + 8 * 2 ^ 21) 16))) with
    | .next t => (t.task? 0 0).map fun k => k.ended | _ => none) = some true := by decide +kernel

/-! ### Ill-formed terms, one for each check -/

/-- An instruction whose fields do not fit its format. -/
def misfits : List Instr :=
  [.iadd { ops .A 0 (.main 8) one one z with c := ⟨one, false, 0⟩ }, .iadd { ops .A 0 (.main 8) one one z with imm := 1 },
   .iadd { ops .A 0 (.main 8) one one z with clp := 3 }, .iadd { ops .A 0 (.main 8) one one z with scl := 1 },
   .iadd { ops .A 0 (.main 8) one one z with a := ⟨one, false, 4⟩ }, .imad { ops .B 1 (.main 8) one one one with sub := 1 },
   .imad { ops .B 0 (.main 8) one one one with imm := 1 }, .imad { ops .B 0 (.main 8) one one one with c := ⟨one, false, 1⟩ },
   .iadd { ops .C 0 (.main 8) one one z with c := ⟨one, false, 0⟩ }, .iadd { ops .C 0 (.main 8) one one z with imm := 7 },
   .iadd (ops .D 0 (.main 8) one one z), .iadd { ops .D 0 (.main 8) one z z with imm := 2 ^ 32 }, .imad { ops .E 0 (.main 8) one one one with imm := 1 }]

theorem test_wf_fields : (misfits.all fun i => !i.wf) = true := by decide +kernel

/-- Why the normal mode refuses an instruction. -/
def why (i : Instr) : Option Reject := i.check Mode.normal

/-- Form, SUB, lookahead, guard, clamp, immediate, a destination that is not there, a modifier, an unused source, an unassigned word, an event. -/
theorem test_wf_encoding :
    (([.iadd (ops .B 0 (.main 8) one one z), .iadd (ops .A 0x60 (.main 8) one one z), .iadd { ops .A 0 (.main 8) one one z with la := 1 },
       .iadd { ops .A 0 (.main 8) one one z with gn := true }, .shl { ops .C 0 (.main 8) one one z with clp := 3 }, .iadd { ops .D 0 (.main 8) one z z with clp := 1 },
       .uniassert (ops .A 0 (.main 8) one z z), .mov { ops .A 0 (.main 8) one one z with sub := 0 }, .unassignedOpcode 7, .sliceExpiry 0] : List Instr).all
      fun i => why i == some .illegalEncoding) = true := by decide +kernel

/-- A special that names nothing, a pair at an odd name, a name past the file, p15 as a destination, s64, a moment in a kernel without moments. -/
theorem test_wf_operands :
    (([.iadd (ops .A 0 (.main 8) (.special 255) one z), .iadd (ops .A 2 (.main 9) one one z), .iadd (ops .A 0 (.file 8) one one z),
       .iadd (ops .A 0 (.last 0) one one z), .icmp (ops .A 0 (.main 15) one one z), .sadd (ops .A 0 (.main 64) z z z),
       .mmov (ops .A 0 (.main 32) z z z)] : List Instr).all fun i => why i == some .illegalOperand) = true := by decide +kernel

theorem test_wf_accepts : ([(.iadd (ops .A 0 (.main 8) one one z)), (.shfl (ops .A 0 (.main 8) (.main 8) one z)), (.ld (ops .A 0 (.main 8) one one z)), (.mmul (ops .A 0 (.main 1) z z z)), nop, (.trap (ops .A 0 z z one z))] : List Instr).all Instr.wf = true := by decide +kernel


/-! ### Witnesses: the quantiser and the copy engine at work, a turn -/

/-- A copy command of the gang: four elements of 4 bytes from the second extent to the scratchpad;
with a follow-on command where ctl sets bit 3. -/
def copyCmd (base : DWord) (ctl : Byte) (phase : CopyPhase) : CopyCmd :=
  ⟨1, 0, 0, 0, who, [ctl] ++ zeros 0x47 ++ [4] ++ zeros 0x37, some ⟨base, 1, 2, [4], [4]⟩, [], 0, phase, none, []⟩
def copyingAt (base : DWord) (ctl : Byte) (phase : CopyPhase) : State := data1.updCore k0 fun k => { k with copyq := [copyCmd base ctl phase] }

/-- A copy that meets the accesses of `raced`, and one from pod space. -/
def racing : State := raced.updCore k0 fun k => { k with copyq := [copyCmd 0x8000000000100000 0 .moving] }
def asking : State := podded.updCore k0 fun k => { k with copyq := [copyCmd 0xFFFFF80000000000 0 .moving] }

/-- The copy is there and passes a test. -/
def HasCopy (s : State) (p : CopyCmd → Bool) : Prop := Has (s.copyAt k0 0) fun q => q.kind != 3 && p q

/-- Two elements of a moving copy move, and what comes of it passes a test. -/
def movesTwo (s : State) (p : State × Nat × Option Trouble → CopyCmd → Box → Bool) : Prop :=
  HasCopy s fun q => q.phase == .moving && q.toBox.any fun b => 
    let m := min 2 (b.count - q.prog)
    p (s.moveElems k0 q b q.prog (m + b.inWord (q.prog + m) 3)) q b

theorem witness_TensorCopies_engine :
    HasCopy (copyingAt 0x8000000000100800 0 .queued) (fun q => q.phase == .queued) ∧
    movesTwo (copyingAt 0x8000000000100800 0 .moving) (fun r _ _ => r.2.2.isNone && r.2.1 == 2) ∧
    movesTwo asking (fun r q b => r.2.2.isNone && r.2.1 == 0 && (asking.askElem q b).isSome) ∧
    movesTwo racing (fun r _ _ => r.2.2.isSome) ∧
    HasCopy (copyingAt 0x8000000000100800 8 .landed) (fun q => q.phase == .landed && (CopyRec.of q.record).fmm &&
      ((copyingAt 0x8000000000100800 8 .landed).task? 0 0).any fun t => ((copyingAt 0x8000000000100800 8 .landed).holdArray k0 0 0).isSome &&
        !t.arrayDue && !t.ended && !t.mresWaits && decide (t.arr.depth < 16)) ∧
    HasCopy ((copyingAt 0x8000000000100800 8 .landed).updTask 0 0 fun t => { t with ended := true }) (fun q => q.phase == .landed &&
      (((copyingAt 0x8000000000100800 8 .landed).updTask 0 0 fun t => { t with ended := true }).task? 0 0).any fun t => t.ended) ∧
    HasCopy (copyingAt 0x8000000000100800 0 .landed) (fun q => q.phase == .landed && !(CopyRec.of q.record).fmm) ∧
    HasCopy (copyingAt 0x8000000000100800 8 .entered) (fun q => q.phase == .entered) :=
  ⟨has_of (by decide +kernel), has_of (by decide +kernel), has_of (by decide +kernel), has_of (by decide +kernel), has_of (by decide +kernel), has_of (by decide +kernel),
   has_of (by decide +kernel), has_of (by decide +kernel)⟩

theorem test_copy_engine : (nexts (copyingAt 0x8000000000100800 0 .queued) (.copyStart k0 0) &&
    nexts (copyingAt 0x8000000000100800 0 .moving) (.copyByteLanding k0 0 2) && nexts racing (.copyByteLanding k0 0 2) &&
    nexts asking (.copyByteLanding k0 0 2) &&
    nexts (copyingAt 0x8000000000100800 8 .landed) (.copyFollowOnEntry k0 0) && nexts (copyingAt 0x8000000000100800 8 .entered) (.copyComplete k0 0)) = true := by
  decide +kernel

/-- A die's quantiser with the command of `quantised`, waiting and running. -/
def quantRecord : List Byte :=
  le 8 0x8000000000101000 ++ le 8 0x8000000000102000 ++ le 8 0x8000000000103000 ++ le 4 1 ++ le 4 32 ++ zeros 0x11 ++ [4] ++ zeros 14
def quantising (running : Bool) : State := data1.updDev 0 fun d => d.setQuant 0 [⟨0, 0, 0, who, quantRecord, running⟩]

/-- The quantiser's head command is there with its ranges, and passes a test. -/
def HasQuant (s : State) (p : QCmd → List (Nat × List Place) → List (Nat × List Place) → Bool) : Prop :=
  Has (s.dev? 0) fun d => match d.quant 0 with
    | q :: _ => (s.task? 0 0).any fun t => good (t.ranges 0 .read (QRec.of q.record).sources) fun rs =>
        good (t.ranges 0 .write (QRec.of q.record).outputs) fun os => p q rs os
    | [] => false

theorem witness_Quantiser_engine :
    HasQuant (quantising false) (fun q rs _ => !q.running && ((quantising false).engineRaces q.chip q.task q.by_ false rs).isNone) ∧
    HasQuant (quantising true) (fun q rs os => q.running &&
      let plane := (os.getLast?.map fun o => (quantising true).bytesAt o.2).getD []
      let outs := (QRec.of q.record).results (rs.map fun p => (quantising true).bytesAt p.2) plane
      let ws := (outs.zip os).map fun p => (p.1.1, p.2.2.take p.1.2.length, p.1.2)
      ((quantising true).engineRaces q.chip q.task q.by_ true (ws.map fun w => (w.1, w.2.1))).isNone) ∧
    HasQuant ((quantising true).updTask 0 0 fun t => { t with core := none }) (fun q _ _ => q.running) :=
  ⟨has_of (by decide +kernel), has_of (by decide +kernel), has_of (by decide +kernel)⟩

/-- A chip whose tide has all closes. -/
def turnable : State := closed.updChip 0 fun c => { c with tide := { c.tide with now := { c.tide.now with closes := [(0, 0)] } } }

theorem test_turn : (nexts turnable (.tideTurn 0) && keeps closed (.tideTurn 0) && nexts (quantising false) (.qntExecute 0 0) &&
    nexts (quantising true) (.qntComplete 0 0)) = true := by decide +kernel


end Sys2Proof.Tests
end

section
/-! SUPPORT. Migration (R388 to R390): what each of its events makes of the chip that migrates. -/

namespace Sys2Proof.Machine

/-- Where far memory has room for the whole quota, no granule lies in near memory (R1, R287). -/
theorem State.settle_of_far_room {s : State} {but : Option Nat} {dev quota near : Nat} (h : s.tierUse dev 3 but + quota ≤ tierBytes 3) :
    s.settle but dev quota near = some [] := by
  have hspill : (s.tierUse dev 3 but + quota - tierBytes 3 + 2 ^ 21 - 1) / 2 ^ 21 = 0 := by
    rw [Nat.sub_eq_zero_of_le h, Nat.zero_add]
    exact Nat.div_eq_of_lt (Nat.sub_lt (Nat.two_pow_pos 21) Nat.one_pos)
  unfold State.settle
  simp only [hspill]
  simp

theorem exec_migrationEnable {s : State} {chip : Nat} {value : DWord} {c : Chip} (hc : s.chip? chip = some c)
    (hv : value.getLsbD 63 = true) (hen : c.mig.en = false) : exec (.migrationEnable chip value) s = .next (s.migEnable chip value) := by
  change execMigrationEnable chip value s = _
  simp [execMigrationEnable, hc, hv, hen]

/-- Tracking starts where the target has a free slot and room (R390). -/
theorem State.migEnable_starts {s : State} {chip : Nat} {v : DWord} {c : Chip} {tiers : Tab Nat} (hc : s.chip? chip = some c)
    (hslot : s.slotFree chip (bitsOf v.toNat 24 15) (bitsOf v.toNat 14 10) = true)
    (hplace : s.settle none (bitsOf v.toNat 24 15) c.quota c.nearQuota = some tiers) :
    s.migEnable chip v = s.updChip chip fun k =>
      { k with mig := { k.mig with en := true, tdev := bitsOf v.toNat 24 15, tslot := bitsOf v.toNat 14 10, fail := false, rounds := 0,
                                   dirty := List.range (c.quota / 65536), staging := some [], tiers } } := by
  unfold State.migEnable
  rw [hc]
  refine State.updChip_congr fun k hk => ?_
  obtain rfl : c = k := Option.some.inj (hc.symm.trans hk)
  rw [hslot, hplace]

/-- FAIL is set where the target lacks a free slot or room (R390). -/
theorem State.migEnable_fails {s : State} {chip : Nat} {v : DWord} {c : Chip} (hc : s.chip? chip = some c)
    (h : s.slotFree chip (bitsOf v.toNat 24 15) (bitsOf v.toNat 14 10) = false ∨
      s.settle none (bitsOf v.toNat 24 15) c.quota c.nearQuota = none) :
    s.migEnable chip v = s.updChip chip fun k =>
      { k with mig := { k.mig with tdev := bitsOf v.toNat 24 15, tslot := bitsOf v.toNat 14 10, fail := true } } := by
  unfold State.migEnable
  rw [hc]
  refine State.updChip_congr fun k hk => ?_
  obtain rfl : c = k := Option.some.inj (hc.symm.trans hk)
  rcases h with h | h
  · rw [h]
  · rw [h]; cases s.slotFree chip (bitsOf v.toNat 24 15) (bitsOf v.toNat 14 10) <;> rfl

theorem exec_migrationRound {s : State} {chip : Nat} {c : Chip} (hc : s.chip? chip = some c) :
    exec (.migrationRound chip) s = .next (if c.mig.en && !c.mig.busy then s.roundStart chip else s) := by
  change execMigrationRound chip s = _
  simp [execMigrationRound, hc]

theorem exec_migrationRoundComplete {s : State} {chip : Nat} {c : Chip} (hc : s.chip? chip = some c) (hb : c.mig.busy = true) :
    exec (.migrationRoundComplete chip) s =
      .next { s.updChip chip Chip.roundCopy with irqs := s.irqs ++ [.host c.dev 0] } := by
  change execMigrationRoundComplete chip s = _
  simp [execMigrationRoundComplete, hc, hb]

/-- A write of a chip's registers that the chip takes. -/
theorem State.chipWrite_of_chip {s : State} {chip : Nat} {c : Chip} (hc : s.chip? chip = some c) (f : Chip → Chip) :
    s.chipWrite chip true f = .next (s.updChip chip f) := by simp [State.chipWrite, hc]

/-- Settles O42: each event of a migration is read off its own equation. -/
theorem migrationRounds : Obligations.MigrationRounds := by
  intro s chip value c hc
  refine ⟨fun hv hen => ?_, fun hen hbusy => ?_, fun h => ?_, fun hbusy => ?_, State.chipWrite_of_chip hc _⟩
  · have hexec := exec_migrationEnable hc hv hen
    refine ⟨State.settle_of_far_room, fun tiers hslot hplace => ?_, fun hslot => ?_, fun hplace => ?_⟩
    · rw [hexec, State.migEnable_starts hc hslot hplace]
    · rw [hexec, State.migEnable_fails hc (.inl hslot)]
    · rw [hexec, State.migEnable_fails hc (.inr hplace)]
  · rw [exec_migrationRound hc]
    simp [hen, hbusy, State.roundStart, hc]
  · rw [exec_migrationRound hc]
    rcases h with h | h <;> simp [h]
  · refine ⟨_, exec_migrationRoundComplete hc hbusy, rfl, ?_⟩
    change (s.updChip chip Chip.roundCopy).chip? chip = _
    rw [State.chip?_updChip_self, hc]
    rfl

end Sys2Proof.Machine
end

section
/-! SUPPORT. Writes of system registers (R225, R257, R266, R374, R389, R397, R402, R434): what TCTL, CAPCTL and the plain registers of a chip
make of it, and who may write them. -/

namespace Sys2Proof.Machine

/-! ### TCTL (R397, R398) -/

/-- A chip's trap registers after an enabling that finds no lease (R398). -/
def Chip.leaseFailed (c : Chip) (value : DWord) : Chip := { c with trap := { c.trap with tfn := value.toNat % 4096, lerr := true } }

/-- The lease of a handler's code, once the moves under it are complete (R288, R398). -/
def Chip.codeLease (c : Chip) : Except NoLease (List Lease) :=
  Chip.leaseRange { c with moving := [] } .fetch c.trap.tcbase.toNat (65536 * c.trap.tcsize)

/-- The lease of a handler's save frames, once the moves under it are complete (R288, R398). -/
def Chip.frameLease (c : Chip) (value : DWord) : Except NoLease (List Lease) :=
  Chip.leaseRange { c with moving := [] } .both c.trap.tfbase.toNat (65536 * (value.toNat % 4096 + 1))

/-- A task's own backing meets the code or the frames (R276; log entry 16). -/
def Chip.backsHandler (c : Chip) (value : DWord) (code area : List Lease) : Bool :=
  c.backs c.trap.tcbase.toNat (65536 * c.trap.tcsize) code || c.backs c.trap.tfbase.toNat (65536 * (value.toNat % 4096 + 1)) area

section
variable {c : Chip} {value : DWord} (hv : value.getLsbD 63 = true) (hen : c.trap.en = false)
include hv hen

theorem Chip.writeTctl_leases {code area : List Lease} (hcode : c.codeLease = .ok code) (harea : c.frameLease value = .ok area)
    (hback : c.backsHandler value code area = false) :
    (c.writeTctl value).trap = { c.trap with tfn := value.toNat % 4096, en := true, lerr := false, code, area } := by
  unfold Chip.codeLease at hcode
  unfold Chip.frameLease at harea
  unfold Chip.backsHandler at hback
  simp only [Chip.writeTctl, hv, hen, hcode, harea, hback, Bool.false_eq_true, Bool.not_true, if_false]

theorem Chip.writeTctl_backed {code area : List Lease} (hcode : c.codeLease = .ok code) (harea : c.frameLease value = .ok area)
    (hback : c.backsHandler value code area = true) : c.writeTctl value = c.leaseFailed value := by
  unfold Chip.codeLease at hcode
  unfold Chip.frameLease at harea
  unfold Chip.backsHandler at hback
  simp only [Chip.writeTctl, Chip.leaseFailed, hv, hen, hcode, harea, hback, Bool.false_eq_true, Bool.not_true, if_false, if_true]

theorem Chip.writeTctl_no_code {e : NoLease} (hcode : c.codeLease = .error e) : c.writeTctl value = c.leaseFailed value := by
  unfold Chip.codeLease at hcode
  simp only [Chip.writeTctl, Chip.leaseFailed, hv, hen, hcode, Bool.false_eq_true, Bool.not_true, if_false]

theorem Chip.writeTctl_no_area {e : NoLease} (harea : c.frameLease value = .error e) : c.writeTctl value = c.leaseFailed value := by
  cases hcode : c.codeLease with
  | error e => exact Chip.writeTctl_no_code hv hen hcode
  | ok code =>
    unfold Chip.codeLease at hcode
    unfold Chip.frameLease at harea
    simp only [Chip.writeTctl, Chip.leaseFailed, hv, hen, hcode, harea, Bool.false_eq_true, Bool.not_true, if_false]

end

/-- A write of EN = 1 changes nothing while EN = 1. -/
theorem Chip.writeTctl_again {c : Chip} {value : DWord} (hv : value.getLsbD 63 = true) (hen : c.trap.en = true) : c.writeTctl value = c := by
  simp [Chip.writeTctl, hv, hen]

/-- A write of EN = 0 while EN = 1 ends the leases where no frame is held. -/
theorem Chip.writeTctl_off {c : Chip} {value : DWord} (hv : value.getLsbD 63 = false) (hen : c.trap.en = true) :
    c.writeTctl value = if c.trap.frames = [] then { c with trap := { c.trap with en := false, code := [], area := [] } } else c := by
  simp only [Chip.writeTctl, hv, hen, if_true, Bool.false_or, Bool.not_eq_true', List.isEmpty_eq_false_iff]
  by_cases h : c.trap.frames = []
  · rw [if_neg (fun hn => hn h), if_pos h]
  · rw [if_pos h, if_neg h]

theorem exec_trapHandlerEnable {s : State} {chip : Nat} {value : DWord} {c : Chip} (hc : s.chip? chip = some c)
    (hv : value.getLsbD 63 = true) : exec (.trapHandlerEnable chip value) s = .next (s.updChip chip fun _ => c.writeTctl value) := by
  change execTrapHandlerEnable chip value s = _
  simp [execTrapHandlerEnable, hc, hv]

/-- TRAP_HANDLER_DISABLE while the handler is enabled. -/
theorem exec_trapHandlerDisable {s : State} {chip : Nat} {c : Chip} (hc : s.chip? chip = some c) (hen : c.trap.en = true) :
    exec (.trapHandlerDisable chip) s = .next (s.updChip chip fun _ =>
      if c.trap.frames = [] then { c with trap := { c.trap with en := false, code := [], area := [] } } else c) := by
  have hv : (BitVec.ofNat 64 (c.trap.tfn % 4096)).getLsbD 63 = false := by
    rw [BitVec.getLsbD_ofNat, Nat.testBit_lt_two_pow (by omega), Bool.and_false]
  change execTrapHandlerDisable chip s = _
  rw [← Chip.writeTctl_off hv hen]
  simp [execTrapHandlerDisable, hc]

/-- A rewrite of a chip by what it is made of. -/
theorem State.updChip_of_chip {s : State} {chip : Nat} {c : Chip} (hc : s.chip? chip = some c) (f : Chip → Chip) :
    s.updChip chip (fun _ => f c) = s.updChip chip f :=
  State.updChip_congr fun k hk => by rw [Option.some.inj (hc.symm.trans hk)]

theorem exec_faultRecordDelivery {s : State} {chip : Nat} {c : Chip} {bs : List Byte} {task : Nat} {rest : List (List Byte × Nat)}
    (hc : s.chip? chip = some c) (hdue : c.trap.due = (bs, task) :: rest)
    (hroom : ((s.updChip chip fun c => { c with trap := { c.trap with due := [] } }).deliverFault chip bs task).2 = true) :
    exec (.faultRecordDelivery chip) s = .next (((((s.updChip chip fun c => { c with trap := { c.trap with due := [] } }).deliverFault chip bs
      task).1.updChip chip fun c => { c with trap := { c.trap with due := rest } }).updTask chip task fun t => { t with undelivered := false })) := by
  change execFaultRecordDelivery chip s = _
  unfold execFaultRecordDelivery
  rw [hc]
  simp only [hdue, hroom, Bool.not_true, Bool.false_eq_true, if_false]

theorem exec_fqheadWrite {s : State} {chip : Nat} {value : DWord} {c : Chip} (hc : s.chip? chip = some c) :
    exec (.fqheadWrite chip value) s = .next (s.updChip chip fun c => { c with trap := { c.trap with fqhead := value.toNat % 64 } }) := by
  change execFqheadWrite chip value s = _
  unfold execFqheadWrite
  rw [hc]

/-! ### Who may write a register (R9, R225, R419, R434) -/

section
variable {s : State} {chip index : Nat} {level : Level} {value : DWord}

/-- A level below the register's is PRIV. -/
theorem State.sysWrite_low {c : Chip} {rd wr : Level} (hc : s.chip? chip = some c) (hl : regLevels c.slot index = some (rd, wr))
    (h : levelCode level < levelCode wr) : s.sysWrite chip level index value = .priv := by
  simp only [State.sysWrite, hc, hl, h, if_true]

/-- A level that may writes the register. -/
theorem State.sysWrite_may {c : Chip} {rd wr : Level} (hc : s.chip? chip = some c) (hl : regLevels c.slot index = some (rd, wr))
    (h : levelCode wr ≤ levelCode level) : s.sysWrite chip level index value = s.writeReg chip c level index value := by
  simp only [State.sysWrite, hc, hl, Nat.not_lt.mpr h, if_false]

theorem exec_registerWrite_ok {tbit : Bool} {t : State} (h : s.sysWrite chip level index value = .ok t) :
    exec (.registerWrite (.chip chip tbit) index value level) s = .next (if s.outsideMay chip level index tbit then t else s) := by
  change execRegisterWrite (.chip chip tbit) index value level s = _
  simp only [execRegisterWrite, h]

theorem exec_registerWrite_priv {tbit : Bool} (h : s.sysWrite chip level index value = .priv) :
    exec (.registerWrite (.chip chip tbit) index value level) s = .next s := by
  change execRegisterWrite (.chip chip tbit) index value level s = _
  simp only [execRegisterWrite, h]

theorem exec_capctlWrite_ok {n : Nat} {c : Chip} {t : State} (hc : s.chip? chip = some c) (hn : n ≤ 127)
    (h : s.sysWrite chip level (0x6800 + n) value = .ok t) :
    exec (.capctlWrite chip n value level) s = .next (if s.outsideMay chip level (0x6800 + n) true then t else s) := by
  change execCapctlWrite chip n value level s = _
  simp only [execCapctlWrite, Nat.not_lt.mpr hn, if_false, hc, h]
  cases s.outsideMay chip level (0x6800 + n) true <;> rfl

theorem exec_capctlWrite_priv {n : Nat} {c : Chip} (hc : s.chip? chip = some c) (hn : n ≤ 127)
    (h : s.sysWrite chip level (0x6800 + n) value = .priv) : exec (.capctlWrite chip n value level) s = .next s := by
  change execCapctlWrite chip n value level s = _
  simp only [execCapctlWrite, Nat.not_lt.mpr hn, if_false, hc, h]
  cases s.outsideMay chip level (0x6800 + n) true <;> rfl

end

/-! ### What a write makes of a chip -/

/-- Trap registers that stay while EN = 1 (R397). -/
theorem State.updChip_unless_enabled (s : State) (chip : Nat) (f : Chip → Trap) :
    (s.updChip chip fun c => if c.trap.en then c else { c with trap := f c }) =
      s.updChip chip fun c => { c with trap := if c.trap.en then c.trap else f c } :=
  State.updChip_congr fun c _ => by cases c.trap.en <;> rfl

/-- A queue's base, which stays while the queue is enabled (R257). -/
theorem State.writeReg_queueBase (s : State) (chip : Nat) (c : Chip) (level : Level) (value : DWord) {q : Nat} (hq : q < 64) :
    s.writeReg chip c level (0x1000 + 4 * q) value = .ok (s.updChip chip fun c =>
      if (vget c.queues q).en then c else { c with queues := vset c.queues q { vget c.queues q with base := value &&& ~~~0xFFF } }) := by
  have hnum : (0x1000 + 4 * q - 0x1000) / 4 = q := by omega
  have hwhich : (0x1000 + 4 * q) % 4 = 0 := by omega
  simp (disch := omega) only [State.writeReg, State.writeSched, State.writeQueue, hnum, hwhich, if_pos, if_neg]

/-- The bits of a CAPCTL after a write by a level, from its HOSTOK before (R434): EN is PRIV where HOSTOK is 0. -/
def capBits (host ok : Bool) (value : DWord) : Option (Bool × Bool) :=
  if value.getLsbD 0 && !ok then none
  else some (if host then value.getLsbD 1 else ok, value.getLsbD 0 && if host then value.getLsbD 1 else ok)

theorem capBits_priv {host ok : Bool} {value : DWord} (hv : value.getLsbD 0 = true) (hok : ok = false) : capBits host ok value = none := by
  simp only [capBits, hv, hok, Bool.not_false, Bool.and_self, if_true]

theorem capBits_written {host ok : Bool} {value : DWord} (h : value.getLsbD 0 = false ∨ ok = true) : capBits host ok value =
    some (if host then value.getLsbD 1 else ok, value.getLsbD 0 && if host then value.getLsbD 1 else ok) := by
  rcases h with h | h <;> simp only [capBits, h, Bool.false_and, Bool.not_true, Bool.and_false, Bool.false_eq_true, if_false]

/-- CAPCTL(3), the override permission. -/
theorem Chip.writeCapctl_override (c : Chip) (value : DWord) (level : Level) : c.writeCapctl 3 value level =
    (capBits (decide (levelCode .host ≤ levelCode level)) c.overOk value).map fun b => { c with overOk := b.1, overEn := b.2 } := rfl

/-- CAPCTL(4), the scope-write permission. -/
theorem Chip.writeCapctl_scope (c : Chip) (value : DWord) (level : Level) : c.writeCapctl 4 value level =
    (capBits (decide (levelCode .host ≤ levelCode level)) c.scopeOk value).map fun b => { c with scopeOk := b.1, scopeEn := b.2 } := rfl

/-- A write of CAPCTL that the chip refuses is PRIV, and one that it takes changes the chip. -/
theorem State.writeReg_capctl (s : State) (chip : Nat) (c : Chip) (n : Nat) (level : Level) (value : DWord) :
    s.writeReg chip c level (0x6800 + n) value = (c.writeCapctl n value level).elim .priv fun d => .ok (s.updChip chip fun _ => d) := by
  simp (disch := omega) only [State.writeReg, if_neg, Nat.add_sub_cancel_left]
  cases c.writeCapctl n value level <;> rfl

/-- A write of a permission from its HOSTOK before and the chip that its two bits make (R434). -/
theorem State.writeReg_permission (s : State) (chip : Nat) {c : Chip} {n : Nat} {level : Level} {value : DWord} {ok : Bool}
    (put : Bool → Bool → Chip)
    (h : c.writeCapctl n value level = (capBits (decide (levelCode .host ≤ levelCode level)) ok value).map fun b => put b.1 b.2) :
    (value.getLsbD 0 = true → ok = false → s.writeReg chip c level (0x6800 + n) value = .priv) ∧
    (value.getLsbD 0 = false ∨ ok = true →
      let now := if decide (levelCode .host ≤ levelCode level) then value.getLsbD 1 else ok
      s.writeReg chip c level (0x6800 + n) value = .ok (s.updChip chip fun _ => put now (value.getLsbD 0 && now))) := by
  rw [State.writeReg_capctl, h]
  refine ⟨fun hv hok => ?_, fun hw => ?_⟩
  · rw [capBits_priv hv hok]; rfl
  · rw [capBits_written hw]; rfl

/-- Settles O43: TCTL by what its two leases give, the events by their own equations, and each register by its write at a level that may. -/
theorem systemRegisterWrites : Obligations.SystemRegisterWrites := by
  intro s chip value c hc
  refine ⟨fun hv hen => ?_, fun hv hen => ?_, fun hen hframes => ?_, fun hen hframes => ?_, fun bs task rest hdue hroom => ?_,
    exec_fqheadWrite hc, fun n level t hn h => exec_capctlWrite_ok hc hn h, fun n level hn h => exec_capctlWrite_priv hc hn h,
    fun index level tbit t h => exec_registerWrite_ok h, fun index level tbit h => exec_registerWrite_priv h,
    fun index level rd wr hl => ⟨fun h => State.sysWrite_low hc hl h, fun h => ?_⟩⟩
  · have hexec := exec_trapHandlerEnable hc hv
    have hfailed (h : c.writeTctl value = c.leaseFailed value) : exec (.trapHandlerEnable chip value) s =
        .next (s.updChip chip fun c => c.leaseFailed value) := by
      rw [hexec, h, State.updChip_of_chip hc (Chip.leaseFailed · value)]
    refine ⟨fun code area hcode harea => ⟨fun hbc hba => ?_, fun hback => hfailed ?_⟩, fun e hcode => hfailed ?_, fun e harea => hfailed ?_⟩
    · refine ⟨_, c.writeTctl value, hexec, ?_, Chip.writeTctl_leases hv hen hcode harea ?_⟩
      · rw [State.chip?_updChip_self, hc]; rfl
      · rw [Chip.backsHandler, hbc, hba]; rfl
    · exact Chip.writeTctl_backed hv hen hcode harea (Bool.or_eq_true_iff.mpr hback)
    · exact Chip.writeTctl_no_code hv hen hcode
    · exact Chip.writeTctl_no_area hv hen harea
  · rw [exec_trapHandlerEnable hc hv, Chip.writeTctl_again hv hen]
  · rw [exec_trapHandlerDisable hc hen, if_pos hframes]
    exact congrArg _ (State.updChip_of_chip hc fun c => { c with trap := { c.trap with en := false, code := [], area := [] } })
  · rw [exec_trapHandlerDisable hc hen, if_neg hframes]
  · exact exec_faultRecordDelivery hc hdue hroom
  · rw [State.sysWrite_may hc hl h]
    have unlessEnabled (f : Chip → Trap) := congrArg RegRes.ok (State.updChip_unless_enabled s chip f)
    refine ⟨?slice, ?wbudget, ?snapa, ?ccentry, ?ccarea, ?ccstat, ?migbmp, ?tcbase, ?tcsize, ?tfbase, ?fqbase, ?fqhead, ?tide, ?tqbase, ?tqhead,
      ?queue, ?override, ?scope⟩
    case tcbase | tcsize | tfbase => rintro rfl; exact unlessEnabled _
    case queue => rintro q hq rfl; exact State.writeReg_queueBase s chip c level value hq
    case override => rintro rfl; exact s.writeReg_permission chip (fun ok en => { c with overOk := ok, overEn := en }) (c.writeCapctl_override value level)
    case scope => rintro rfl; exact s.writeReg_permission chip (fun ok en => { c with scopeOk := ok, scopeEn := en }) (c.writeCapctl_scope value level)
    all_goals rintro rfl; rfl

end Sys2Proof.Machine
end

section
/-! SUPPORT. Devices and virtual chips (R7, R8, R306, R356, R358, R413, R418, R436, R437): which operations bring no new chip, and what each event
of bring-up, of creation and of power makes of its device. -/

namespace Sys2Proof.Machine

/-! ### Operations that bring no new chip -/

/-- A table rewritten at one key stays rising. -/
theorem Tab.rising_upd {α : Type} {t : Tab α} {lo : Option Nat} {n : Nat} (f : α → α) (h : Tab.rising lo t = true) :
    Tab.rising lo (Tab.upd t n f) = true := by
  unfold Tab.upd
  split
  · rename_i a hfind
    refine Tab.rising_put _ h fun x hx => ?_
    subst hx
    by_contra hle
    rw [Tab.find_low h (Nat.le_of_not_lt hle)] at hfind
    cases hfind
  · exact h

/-- A step that keeps the keys of the table of chips rising and leaves no chip where there was none. -/
structure State.NoNewChips (s t : State) : Prop where
  rising : Tab.rising none s.chips = true → Tab.rising none t.chips = true
  absent : ∀ k, s.chip? k = none → t.chip? k = none

namespace State.NoNewChips

theorem refl (s : State) : s.NoNewChips s := ⟨id, fun _ => id⟩

theorem trans {s t u : State} (a : s.NoNewChips t) (b : t.NoNewChips u) : s.NoNewChips u :=
  ⟨b.rising ∘ a.rising, fun k => b.absent k ∘ a.absent k⟩

/-- The chips are untouched. -/
theorem of_chips {s t : State} (h : t.chips = s.chips) : s.NoNewChips t :=
  ⟨fun hr => h ▸ hr, fun k hk => by unfold State.chip? at hk ⊢; rwa [h]⟩

theorem fold {α : Type} {f : State → α → State} (h : ∀ (s : State) a, s.NoNewChips (f s a)) (l : List α) (s : State) : s.NoNewChips (l.foldl f s) := by
  induction l generalizing s with
  | nil => exact .refl s
  | cons a l ih => exact (h s a).trans (ih _)

theorem updChip (s : State) (k : Nat) (f : Chip → Chip) : s.NoNewChips (s.updChip k f) := by
  refine ⟨Tab.rising_upd f, fun j hj => ?_⟩
  rw [State.chip?_updChip, hj]
  split <;> rfl

theorem updTask (s : State) (k t : Nat) (f : Task → Task) : s.NoNewChips (s.updTask k t f) := updChip ..

theorem updDev (s : State) (k : Nat) (f : Device → Device) : s.NoNewChips (s.updDev k f) := of_chips rfl

theorem updCore (s : State) (k : CoreRef) (f : Core → Core) : s.NoNewChips (s.updCore k f) := of_chips rfl

theorem writeByte (s : State) (p : Place) (b : Byte) : s.NoNewChips (s.writeByte p b) := by
  cases p with
  | dram k a r => exact updChip ..
  | host a => exact of_chips rfl
  | scratch k t o => exact updTask ..

theorem endSequence (s : State) (p : Place) : s.NoNewChips (s.endSequence p) := by
  cases p with
  | dram k a r => exact updChip ..
  | host a => exact .refl s
  | scratch k t o => exact .refl s

theorem devWrite (s : State) (chip a : Nat) (bs : List Byte) : s.NoNewChips (s.devWrite chip a bs) := by
  induction bs generalizing s a with
  | nil => exact .refl s
  | cons b bs ih =>
    unfold State.devWrite
    split
    · exact ((writeByte ..).trans (endSequence ..)).trans (ih ..)
    · exact ih ..

theorem deliverFault (s : State) (chip : Nat) (bs : List Byte) (task : Nat) : s.NoNewChips (s.deliverFault chip bs task).1 := by
  unfold State.deliverFault
  split
  · exact .refl s
  · dsimp only
    split
    · exact ((devWrite ..).trans (updChip ..)).trans (of_chips rfl)
    · exact updChip ..

theorem endTask (s : State) (chip task : Nat) (record : List Byte) : s.NoNewChips (s.endTask chip task record) := by
  unfold State.endTask
  split
  · exact .refl s
  · dsimp only
    have marked (f : Task → Task) := (deliverFault s chip record task).trans (updTask _ chip task f)
    split <;> exact (marked _).trans (of_chips rfl)

theorem endRoutine (s : State) (r : CoreRef) : s.NoNewChips (s.endRoutine r) := by
  unfold State.endRoutine
  split
  · exact .refl s
  · exact updCore ..

theorem stopService (s : State) (chip : Nat) (b : IssuedBy) (t : Trouble) : s.NoNewChips (s.stopService chip b t) := by
  unfold State.stopService
  split
  · exact .refl s
  · dsimp only
    split
    · exact ((updChip s chip _).trans (endRoutine ..)).trans (of_chips rfl)
    · exact (updChip s chip _).trans (of_chips rfl)

theorem engineFault (s : State) (chip task : Nat) (b : IssuedBy) (t : Trouble) : s.NoNewChips (s.engineFault chip task b t) := by
  unfold State.engineFault
  split
  · exact stopService ..
  · split
    · exact .refl s
    · split
      · exact .refl s
      · exact endTask ..

theorem noRoute (s : State) (g : GangRef) (id : Nat) : s.NoNewChips (s.noRoute g id) := by
  unfold State.noRoute
  split
  · split
    · exact .refl s
    · exact endTask ..
  · exact .refl s

theorem countDiscard (s : State) (dev : Nat) : s.NoNewChips (s.countDiscard dev) := of_chips rfl

theorem discarded (s : State) (p : Packet) (dev : Nat) : s.NoNewChips (s.discarded p dev) := by
  unfold State.discarded
  dsimp only
  split
  case h_1 | h_2 | h_3 => exact (countDiscard s dev).trans (noRoute ..)
  case h_4 | h_5 =>
    split
    · exact (countDiscard s dev).trans (engineFault ..)
    · exact countDiscard s dev
  case h_6 => exact countDiscard s dev

theorem leaveCore (s : State) (chip key : Nat) (core : CoreRef) (prot : Bool) : s.NoNewChips (s.leaveCore chip key core prot) := by
  unfold State.leaveCore
  dsimp only
  split
  · exact (updChip ..).trans (of_chips rfl)
  · exact of_chips rfl

theorem freeArray (s : State) (core : CoreRef) : s.NoNewChips (s.freeArray core) := by
  unfold State.freeArray
  split
  · exact .refl s
  · split
    · exact updCore ..
    · exact (updTask ..).trans (updCore ..)

theorem clearCores (s : State) (chip : Nat) : s.NoNewChips (s.clearCores chip) := by
  unfold State.clearCores
  split
  · exact .refl s
  · rename_i c _
    dsimp only
    refine .trans ?left (fold (fun s k => ?free) _ _)
    case left =>
      refine .trans (t := List.foldl _ s c.placed) (fold (fun s k => ?_) _ s) (of_chips rfl)
      split
      · exact (leaveCore ..).trans (updTask ..)
      · exact .refl s
    case free =>
      split
      · exact freeArray ..
      · exact .refl s

theorem startTurn (s : State) (chip : Nat) : s.NoNewChips (s.startTurn chip) := by
  unfold State.startTurn
  split
  · exact .refl s
  · split
    · exact .refl s
    · exact updChip ..

theorem leaveTurn (s : State) (chip : Nat) (old : Chip) : s.NoNewChips (s.leaveTurn chip old) := by
  unfold State.leaveTurn
  split
  · exact fold startTurn _ s
  · exact .refl s

theorem stopChip (s : State) (chip : Nat) : s.NoNewChips (s.stopChip chip) := by
  unfold State.stopChip
  split
  · exact .refl s
  · exact ((clearCores ..).trans (updChip ..)).trans (leaveTurn ..)

theorem setTdi (s : State) (dev slot : Nat) (t : Tdi) : s.NoNewChips (s.setTdi dev slot t) := of_chips rfl

theorem tdiError (s : State) (dev slot reason : Nat) : s.NoNewChips (s.tdiError dev slot reason) := by
  unfold State.tdiError
  split
  · exact .refl s
  · dsimp only
    split
    · split
      · exact (setTdi s dev slot _).trans (stopChip ..)
      · exact setTdi s dev slot _
    · exact .refl s

theorem purge (s : State) (chip : Nat) : s.NoNewChips (s.purge chip) := by
  unfold State.purge
  split
  · exact .refl s
  · dsimp only
    refine .trans ?_ (fold (fun s p => discarded s p _) _ _)
    exact (clearCores s chip).trans (of_chips rfl)

end State.NoNewChips

/-! ### Devices (R7, R413, R436, R437) -/

section
variable {s : State} {dev : Nat} {d : Device}

theorem exec_vfEnable (hd : s.dev? dev = some d) (index : Nat) (value : DWord) (level : Level) :
    exec (.registerWrite (.vfEnable dev) index value level) s =
      .next (if d.ready then s.updDev dev fun d => { d with vfEnable := value.getLsbD 0 } else s) := by
  change execRegisterWrite (.vfEnable dev) index value level s = _
  simp only [execRegisterWrite, hd]

/-- A device's registers drop every write until its bring-up is complete. -/
theorem exec_registerWrite_unready (hd : s.dev? dev = some d) (hready : d.ready = false) (index : Nat) (value : DWord) (level : Level) :
    exec (.registerWrite (.device dev) index value level) s = .next s := by
  change execRegisterWrite (.device dev) index value level s = _
  simp only [execRegisterWrite, hd, hready, Bool.false_and, Bool.false_eq_true, if_false]
  split <;> rfl

theorem State.bar0_bootstat (hd : s.dev? dev = some d) : s.bar0 dev 0 = some (d.stage * 2 ^ 56 + d.bootErr * 2 ^ 48 + bitNat (d.stage == 6)) := by
  simp only [State.bar0, hd]; rfl

theorem State.bar0_part (hd : s.dev? dev = some d) : s.bar0 dev 8 = some 0x4C56394131390000 := by
  simp only [State.bar0, hd]; rfl

theorem State.bar0_serial (hd : s.dev? dev = some d) : s.bar0 dev 0x10 = some (Config.serial dev).toNat := by
  simp only [State.bar0, hd]

theorem State.bar0_unready (hd : s.dev? dev = some d) (hready : d.ready = false) {off : Nat} (h0 : off ≠ 0) (h8 : off ≠ 8) (h10 : off ≠ 0x10) :
    s.bar0 dev off = some 0 := by
  simp only [State.bar0, hd, hready, Bool.false_eq_true, if_false]

/-- An error belongs to its stage of bring-up. -/
theorem bootErrAt_iff (stage err : Nat) :
    bootErrAt stage err = true ↔ stage = 2 ∧ (err = 1 ∨ err = 2) ∨ stage = 3 ∧ (err = 3 ∨ err = 4) := by
  simp [bootErrAt]

/-- Bring-up goes to the next stage. -/
theorem exec_bringUpStage_next (hd : s.dev? dev = some d) (hstage : d.stage < 6) (herr : d.bootErr = 0) :
    exec (.bringUpStage dev 0) s = .next (s.updDev dev fun d => { d with stage := d.stage + 1 }) := by
  change execBringUpStage dev 0 s = _
  simp [execBringUpStage, hd, herr, Nat.not_le.mpr hstage]

/-- Bring-up stops with an error of its stage. -/
theorem exec_bringUpStage_error (hd : s.dev? dev = some d) (hstage : d.stage < 6) (herr : d.bootErr = 0) {err : Nat}
    (hat : bootErrAt d.stage err = true) : exec (.bringUpStage dev err) s = .next (s.updDev dev fun d => { d with bootErr := err }) := by
  have hne : err ≠ 0 := by
    rcases (bootErrAt_iff d.stage err).mp hat with ⟨-, h⟩ | ⟨-, h⟩ <;> omega
  change execBringUpStage dev err s = _
  simp [execBringUpStage, hd, herr, Nat.not_le.mpr hstage, hne, hat]

theorem exec_coreClockReduction (hd : s.dev? dev = some d) (draw : Nat) :
    exec (.coreClockReduction dev draw) s = .next (s.updDev dev fun d => { d with clockLow := decide (2600 < draw) }) := by
  change execCoreClockReduction dev draw s = _
  simp only [execCoreClockReduction, hd]

theorem exec_powerUngate {core : CoreRef} (hd : s.dev? core.dev = some d) (hcore : core.core ≤ 159) :
    exec (.powerUngate core) s = .next (s.updCore core fun k =>
      { (if k.gated && ((s.tasksOn core).isEmpty && (s.core core).ctrl.isNone && (s.core core).copyq.isEmpty) then k.scrubbed else k) with
        gated := false }) := by
  change execPowerUngate core s = _
  simp only [execPowerUngate, hd, Nat.not_lt.mpr hcore, if_false]

/-- The device that a reset leaves: at stage 0, its links and its used signature indices standing (log entry 84). -/
def Device.afterReset (d : Device) : Device :=
  { Device.reset with links := d.links, live := d.live, spdm := { Device.reset.spdm with sigIndex := d.spdm.sigIndex } }

/-- What a reset makes of the machine: the device is as new but for what stands, none of its chips is left, and another's remap may go on. -/
theorem exec_deviceReset (hdev : dev ≤ 1023) : ∃ t, exec (.deviceReset dev) s = .next t ∧ (∀ c ∈ t.chips, c.2.dev ≠ dev) ∧
    t.dev? dev = some ((s.dev? dev).elim Device.reset Device.afterReset) := by
  change ∃ t, execDeviceReset dev s = .next t ∧ _
  simp only [execDeviceReset, Nat.not_lt.mpr hdev, if_false]
  refine ⟨_, rfl, fun c hc => ?_, ?_⟩
  · simpa using (List.mem_filter.mp hc).2
  · refine (Tab.find_put_self ..).trans ?_
    cases s.dev? dev <;> rfl

end

/-! ### Virtual chips (R306, R356, R358) -/

/-- A chip is created where the device is ready and has a free slot and room for the quotas. -/
theorem exec_chipCreation {s : State} {chip dev slot quota near : Nat} {d : Device} {tiers : Tab Nat} (hguest : chip / 1024 < 4096)
    (hnone : s.chip? chip = none) (hpages : quota % 65536 = 0) (hquota : quota ≠ 0) (hnear : near ≤ quota) (hd : s.dev? dev = some d)
    (hready : d.ready = true) (hslot : s.slotFree chip dev slot = true) (hplace : s.settle none dev quota near = some tiers)
    (hroom : s.nearTaken dev + near ≤ 192 * 2 ^ 30) :
    ∃ t csarea, exec (.chipCreation chip dev slot quota near) s = .next t ∧
      t.chip? chip = some (Chip.new (chip / 1024) (chip % 1024) dev slot quota near tiers csarea) := by
  change ∃ t csarea, execChipCreation chip dev slot quota near s = .next t ∧ _
  unfold execChipCreation
  rw [if_neg]
  · simp only [hplace]
    exact ⟨_, _, rfl, Tab.find_put_self ..⟩
  · simp [hnone, hpages, hquota, hd, hready, hslot]
    omega

/-- A destroyed chip is gone, where the table of chips is canonical. -/
theorem exec_chipDestruction {s : State} {chip : Nat} {c : Chip} (hc : s.chip? chip = some c) (hrising : Tab.rising none s.chips = true) :
    ∃ t, exec (.chipDestruction chip) s = .next t ∧ t.chip? chip = none := by
  change ∃ t, execChipDestruction chip s = .next t ∧ _
  simp only [execChipDestruction, hc]
  have hpurged := ((State.NoNewChips.tdiError s c.dev c.slot 1).trans (.purge _ chip)).rising hrising
  exact ⟨_, rfl, (State.NoNewChips.leaveTurn ..).absent chip (Tab.find_drop_self hpurged)⟩

/-- Settles O48: each event by its own equation; a destroyed chip is dropped from a rising table, and what follows brings no chip back. -/
theorem devicesAndChips : Obligations.DevicesAndChips := by
  intro s dev
  refine ⟨fun hdev => ?_, fun d index value level hd => ?_, fun d err hd hstage herr => ?_, ?_, fun chip c hc hrising => exec_chipDestruction hc hrising,
    fun d draw hd => exec_coreClockReduction hd draw, fun d core hd hcore => exec_powerUngate hd hcore⟩
  · obtain ⟨t, hexec, hchips, htdev⟩ := exec_deviceReset (s := s) hdev
    exact ⟨t, hexec, hchips, fun h => by rw [htdev, h]; rfl, fun d h => by rw [htdev, h]; rfl⟩
  · exact ⟨exec_vfEnable hd index value level, fun hready _ _ => exec_registerWrite_unready hd hready index value level,
      State.bar0_bootstat hd, State.bar0_part hd, State.bar0_serial hd, fun off h0 h8 h10 hready => State.bar0_unready hd hready h0 h8 h10⟩
  · refine ⟨?_, fun hat => exec_bringUpStage_error hd hstage herr ((bootErrAt_iff ..).mpr hat)⟩
    rintro rfl
    exact exec_bringUpStage_next hd hstage herr
  · intro chip slot quota near hguest hnone hpages hquota hnear hready hslot hplace hroom
    obtain ⟨d, hd, hready⟩ := Option.map_eq_some_iff.mp hready
    obtain ⟨tiers, hplace⟩ := Option.isSome_iff_exists.mp hplace
    obtain ⟨t, csarea, hexec, hchip⟩ := exec_chipCreation hguest hnone hpages hquota hnear hd hready hslot hplace hroom
    exact ⟨t, _, hexec, hchip, rfl, rfl, rfl, rfl, rfl, rfl⟩

end Sys2Proof.Machine
end

section
/-! SUPPORT. The checks before an instruction's effect (R9, R27, R30, R36, R37, R205, R246): their order, and that every instruction with fields
runs through them. -/

namespace Sys2Proof.Machine

/-! ### Every instruction with fields is issued -/

/-- What follows an issue: the EMPTY_ORPHAN test of the issuing gang's task after EXIT and LDF (R246). -/
def State.afterIssue (s : State) (i : Instr) (w : Issuer) : State :=
  match i, w with
  | .exit _, .gang h _ => s.orphanTest h.chip h.task
  | .ldf _, .gang h _ => s.orphanTest h.chip h.task
  | _, _ => s

theorem State.afterIssue_other (s : State) {i : Instr} (w : Issuer) (hexit : ∀ y, i ≠ .exit y) (hldf : ∀ y, i ≠ .ldf y) :
    s.afterIssue i w = s := by
  unfold State.afterIssue
  split
  · exact absurd rfl (hexit _)
  · exact absurd rfl (hldf _)
  · rfl

/-- But for EXIT and LDF, an instruction with fields is its issue with some meaning: an event has no fields, and the arm of every other
constructor is an issue as it stands. -/
theorem exec_eq_issue {s : State} {i : Instr} {x : Ops} (hx : i.ops = some x) (hexit : ∀ y, i ≠ .exit y) (hldf : ∀ y, i ≠ .ldf y) :
    ∃ body, exec i s = issue s i x body := by
  cases i
  case exit y => exact absurd rfl (hexit y)
  case ldf y => exact absurd rfl (hldf y)
  all_goals cases hx <;> (unfold exec; exact ⟨_, rfl⟩)

/-- The lanes of a bundle that issues; a control core has one. -/
def Issuer.lanes : Issuer → LaneMask
  | .gang _ l => l
  | .ctrl _ => 1

theorem State.issuing_some {s : State} {w : Issuer} {g : Gang} {core : CoreRef} {chip : Nat} {lanes : LaneMask}
    (h : s.issuing = some (w, g, core, chip, lanes)) : s.issuer = some w ∧ lanes = w.lanes := by
  unfold State.issuing at h
  split at h
  · cases h
  · rename_i v hv
    split at h
    · cases h
      exact ⟨hv, by cases w <;> rfl⟩
    · cases h

/-- An issue whose outcome no meaning decides is the instruction's, followed by its orphan test. -/
theorem exec_of_issue {s t : State} {i : Instr} {x : Ops} {w : Issuer} (hx : i.ops = some x) (hw : s.issuer = some w)
    (h : ∀ body, issue s i x body = .next t) : exec i s = .next (t.afterIssue i w) := by
  by_cases hexit : ∃ y, i = .exit y
  · obtain ⟨y, rfl⟩ := hexit
    cases hx
    change execExit x s = _
    unfold execExit
    rw [h, hw]
    cases w <;> rfl
  by_cases hldf : ∃ y, i = .ldf y
  · obtain ⟨y, rfl⟩ := hldf
    cases hx
    change execLdf x s = _
    unfold execLdf
    rw [h, hw]
    cases w <;> rfl
  have hexit : ∀ y, i ≠ .exit y := fun y e => hexit ⟨y, e⟩
  have hldf : ∀ y, i ≠ .ldf y := fun y e => hldf ⟨y, e⟩
  obtain ⟨body, hbody⟩ := exec_eq_issue (s := s) hx hexit hldf
  rw [hbody, h, State.afterIssue_other t w hexit hldf]

/-! ### How an issue ends that reaches no meaning -/

section
variable {s : State} {i : Instr} {sp : OpSpec} {x : Ops} (hsp : i.spec = some sp)
include hsp

theorem issue_of_trap {w : Issuer} {t : Trouble} {active : LaneMask} {pc next : DWord} (h : prologue s i sp x = .trap w t active pc next)
    (body : Ctx → State → Res) : issue s i x body = .next (s.takeFault w t active pc next []) := by
  simp only [issue, issueWith, hsp, h]

theorem issue_of_idle {c : Ctx} (h : prologue s i sp x = .idle c) (body : Ctx → State → Res) : issue s i x body = .next (c.pass s) := by
  simp only [issue, issueWith, hsp, h]

theorem issue_of_wait {w : Issuer} {lanes : LaneMask} (hlanes : lanes = w.lanes) (h : prologue s i sp x = .wait w) (body : Ctx → State → Res) :
    issue s i x body = .next (s.stall w lanes ⟨.result, 0, 0, i, [], 0⟩) := by
  simp only [issue, issueWith, hsp, h, hlanes]
  cases w <;> rfl

end

/-! ### The order of the checks (R30, R37) -/

/-- Order 3: the encoding and the place are legal. -/
def Ctx.encoded (c : Ctx) : Bool := encOk c.md c.sp c.x && placeOk c.md c.i c.sp

/-- Order 5: the gang's level, its scope-write permission and the register's level suffice. -/
def Ctx.allowed (c : Ctx) (s : State) (r : Reads) : Prop :=
  levelCode c.sp.lv ≤ levelCode c.g.pl ∧ s.scopeWriteOk c.chip c.i = true ∧ c.regPriv s r = false

/-- Order 6: the lowest lane in which a slot of class U differs. -/
def Ctx.nonuniform (c : Ctx) (r : Reads) : Option Nat :=
  ([differing c.sp.a c.active r.a, differing c.sp.b c.active r.b, differing c.sp.c c.active r.c].filterMap id).min?

/-- Order 7: the lanes in which some read failed. -/
def Ctx.unmapped (c : Ctx) (r : Reads) : LaneMask :=
  missingLanes c.active r.d ||| missingLanes c.active r.a ||| missingLanes c.active r.b ||| missingLanes c.active r.c

/-- Checks that end in a precise fault of the instruction. -/
def Ctx.stop (c : Ctx) (cause : Nat) (m : LaneMask) (addr : DWord) : Pre := .trap c.w { cause, lanes := m, addr } c.active c.pc c.next

section
variable {c : Ctx} {s : State} {r : Reads}

theorem Ctx.checks_encoding (henc : c.encoded = false) : c.checks s r = c.stop cIllegalEncoding c.lanes 0 := by
  unfold Ctx.encoded at henc
  simp only [Ctx.checks, henc, Bool.not_false, if_true, Ctx.stop]

variable (henc : c.encoded = true)
include henc

theorem Ctx.checks_operand (hop : opndOk c.md c.sp c.x = false) : c.checks s r = c.stop cIllegalOperand c.lanes 0 := by
  unfold Ctx.encoded at henc
  simp only [Ctx.checks, henc, hop, Bool.not_true, Bool.not_false, Bool.false_eq_true, if_true, if_false, Ctx.stop]

variable (hop : opndOk c.md c.sp c.x = true)
include hop

theorem Ctx.checks_priv (h : ¬ c.allowed s r) : c.checks s r = c.stop cPriv c.lanes 0 := by
  have hlow : (decide (levelCode c.g.pl < levelCode c.sp.lv) || !s.scopeWriteOk c.chip c.i || c.regPriv s r) = true := by
    by_contra hn
    simp at hn
    exact h ⟨hn.1.1, hn.1.2, hn.2⟩
  unfold Ctx.encoded at henc
  simp only [Ctx.checks, henc, hop, hlow, Bool.not_true, Bool.false_eq_true, if_true, if_false, Ctx.stop]

variable (hallowed : c.allowed s r)
include hallowed

/-- Past order 5 come the empty bundle, the wait for results, the replay, and orders 6 and 7. -/
theorem Ctx.checks_allowed : c.checks s r =
    if c.active = 0 then .idle c
    else if c.mustWait then .wait c.w
    else if (c.g.replaying c.lanes).isSome then .go c
    else (c.nonuniform r).elim (if c.unmapped r ≠ 0 then c.stop cUnmappedRead (c.unmapped r) 0 else .go c) fun n =>
      c.stop cNonuniform c.active (BitVec.ofNat 64 n) := by
  obtain ⟨hlevel, hscope, hreg⟩ := hallowed
  unfold Ctx.encoded at henc
  simp only [Ctx.checks, henc, hop, Nat.not_lt.mpr hlevel, hscope, hreg, Bool.not_true, Bool.false_eq_true, decide_false, Bool.or_self, if_false]
  unfold Ctx.nonuniform
  cases ([differing c.sp.a c.active r.a, differing c.sp.b c.active r.b, differing c.sp.c c.active r.c].filterMap id).min? <;> rfl

theorem Ctx.checks_idle (hactive : c.active = 0) : c.checks s r = .idle c := by
  rw [Ctx.checks_allowed henc hop hallowed, if_pos hactive]

variable (hactive : c.active ≠ 0)
include hactive

theorem Ctx.checks_wait (hwait : c.mustWait = true) : c.checks s r = .wait c.w := by
  rw [Ctx.checks_allowed henc hop hallowed, if_neg hactive, if_pos hwait]

variable (hwait : c.mustWait = false)
include hwait

/-- A replay is past orders 6 and 7 (R401). -/
theorem Ctx.checks_replay (hreplay : (c.g.replaying c.lanes).isSome = true) : c.checks s r = .go c := by
  simp only [Ctx.checks_allowed henc hop hallowed, hactive, hwait, hreplay, Bool.false_eq_true, if_true, if_false]

variable (hreplay : c.g.replaying c.lanes = none)
include hreplay

theorem Ctx.checks_nonuniform {n : Nat} (h : c.nonuniform r = some n) : c.checks s r = c.stop cNonuniform c.active (BitVec.ofNat 64 n) := by
  simp only [Ctx.checks_allowed henc hop hallowed, hactive, hwait, hreplay, h, Option.isSome_none, Bool.false_eq_true, if_false, Option.elim_some]

theorem Ctx.checks_unmapped (h : c.nonuniform r = none) (hgone : c.unmapped r ≠ 0) :
    c.checks s r = c.stop cUnmappedRead (c.unmapped r) 0 := by
  simp only [Ctx.checks_allowed henc hop hallowed, hactive, hwait, hreplay, h, Option.isSome_none, Bool.false_eq_true, if_false, Option.elim_none,
    if_pos hgone]

theorem Ctx.checks_pass (h : c.nonuniform r = none) (hgone : c.unmapped r = 0) : c.checks s r = .go c := by
  simp only [Ctx.checks_allowed henc hop hallowed, hactive, hwait, hreplay, h, hgone, Option.isSome_none, Bool.false_eq_true, if_false,
    Option.elim_none, ne_eq, not_true_eq_false]

end

/-- Settles O52: each outcome of the checks, taken in their order, is the outcome of the issue, and the orphan test follows. -/
theorem checksInOrder : Obligations.ChecksInOrder := by
  intro s i sp x w g core chip lanes hsp hx hissuing c r after faults encoded allowed diff gone
  obtain ⟨hw, hlanes⟩ := State.issuing_some hissuing
  have hpro : prologue s i sp x = c.checks s r := by
    unfold prologue
    rw [hissuing]
  have hfault {cause : Nat} {m : LaneMask} {addr : DWord} (h : c.checks s r = c.stop cause m addr) : faults cause m addr :=
    exec_of_issue hx hw (issue_of_trap hsp (hpro.trans h))
  refine ⟨fun henc => hfault (Ctx.checks_encoding henc), fun henc hop => hfault (Ctx.checks_operand henc hop), fun henc hop => ?_⟩
  refine ⟨fun hpriv => hfault (Ctx.checks_priv henc hop hpriv), fun hallowed hactive => ?idle, fun hallowed hactive hwait => ?wait,
    fun hallowed hactive hwait hreplay => ⟨fun n hn => ?nonuniform, fun hn hgone => ?unmapped, fun hn hgone => ?ready⟩,
    fun hallowed hactive hwait hreplay => ?replay⟩
  case idle => exact exec_of_issue hx hw (issue_of_idle hsp (hpro.trans (Ctx.checks_idle henc hop hallowed hactive)))
  case wait => exact exec_of_issue hx hw (issue_of_wait hsp hlanes (hpro.trans (Ctx.checks_wait henc hop hallowed hactive hwait)))
  case nonuniform => exact hfault (Ctx.checks_nonuniform henc hop hallowed hactive hwait hreplay hn)
  case unmapped => exact hfault (Ctx.checks_unmapped henc hop hallowed hactive hwait hreplay hn hgone)
  case ready => exact ⟨sp, hsp, hpro.trans (Ctx.checks_pass henc hop hallowed hactive hwait hreplay hn hgone)⟩
  case replay => exact ⟨sp, hsp, hpro.trans (Ctx.checks_replay henc hop hallowed hactive hwait hreplay)⟩

end Sys2Proof.Machine
end

section
/-! SUPPORT. Words and their fields (R16 to R22): a word is its fields side by side, so that writing and reading them undo each other. -/

namespace Sys2Proof.Machine

/-! ### Fields side by side -/

/-- Fields side by side from the low end, each a width with its value. -/
def packed : List (Nat × Nat) → Nat
  | [] => 0
  | (w, v) :: fs => v + 2 ^ w * packed fs

/-- The fields of some widths that a number holds from bit k on. -/
def fieldsAt (n : Nat) : Nat → List Nat → List (Nat × Nat)
  | _, [] => []
  | k, w :: ws => (w, bitsAt n k w) :: fieldsAt n (k + w) ws

theorem bitsAt_lt (n k w : Nat) : bitsAt n k w < 2 ^ w := Nat.mod_lt _ (Nat.two_pow_pos w)

/-- Reading the fields of a number and putting them side by side gives its bits back. -/
theorem packed_fieldsAt (n k : Nat) (ws : List Nat) : packed (fieldsAt n k ws) = bitsAt n k ws.sum := by
  induction ws generalizing k with
  | nil => simp [fieldsAt, packed, bitsAt, Nat.mod_one]
  | cons w ws ih => simp only [fieldsAt, packed, ih, bitsAt, List.sum_cons, Nat.pow_add, Nat.mod_mul, Nat.div_div_eq_div_mul]

/-- Fields within their widths are read back from where they stand, whatever stands below them. -/
theorem fieldsAt_packed {fs : List (Nat × Nat)} (h : ∀ f ∈ fs, f.2 < 2 ^ f.1) {low k : Nat} (hlow : low < 2 ^ k) :
    fieldsAt (low + 2 ^ k * packed fs) k (fs.map Prod.fst) = fs := by
  induction fs generalizing low k with
  | nil => rfl
  | cons f fs ih =>
    obtain ⟨w, v⟩ := f
    have hv : v < 2 ^ w := h _ (List.mem_cons_self ..)
    have hread : bitsAt (low + 2 ^ k * packed ((w, v) :: fs)) k w = v := by
      simp only [bitsAt, packed, Nat.add_mul_div_left _ _ (Nat.two_pow_pos k), Nat.div_eq_of_lt hlow, Nat.zero_add, Nat.add_mul_mod_self_left,
        Nat.mod_eq_of_lt hv]
    have hnext : low + 2 ^ k * v < 2 ^ (k + w) := by
      calc low + 2 ^ k * v < 2 ^ k + 2 ^ k * v := Nat.add_lt_add_right hlow _
        _ = 2 ^ k * (v + 1) := by ring
        _ ≤ 2 ^ k * 2 ^ w := Nat.mul_le_mul_left _ hv
        _ = 2 ^ (k + w) := (Nat.pow_add ..).symm
    have hsplit : low + 2 ^ k * packed ((w, v) :: fs) = low + 2 ^ k * v + 2 ^ (k + w) * packed fs := by
      simp only [packed, Nat.pow_add]; ring
    rw [List.map_cons, fieldsAt, hread, hsplit, ih (fun f hf => h f (List.mem_cons_of_mem _ hf)) hnext]

/-- Fields within their widths take the bits of their widths together. -/
theorem packed_lt {fs : List (Nat × Nat)} (h : ∀ f ∈ fs, f.2 < 2 ^ f.1) : packed fs < 2 ^ (fs.map Prod.fst).sum := by
  have hback := packed_fieldsAt (packed fs) 0 (fs.map Prod.fst)
  have hsame := fieldsAt_packed h (low := 0) (k := 0) Nat.one_pos
  rw [Nat.pow_zero, Nat.one_mul, Nat.zero_add] at hsame
  rw [hsame] at hback
  exact hback ▸ bitsAt_lt ..

/-! ### Bytes -/

theorem leBytes_length (n k : Nat) : (leBytes n k).length = k := by
  induction k generalizing n with
  | zero => rfl
  | succ k ih => simp [leBytes, ih]

theorem leNat_leBytes (n k : Nat) : leNat (leBytes n k) = n % 2 ^ (8 * k) := by
  induction k generalizing n with
  | zero => simp [leBytes, leNat, Nat.mod_one]
  | succ k ih =>
    have hpow : 2 ^ (8 * (k + 1)) = 256 * 2 ^ (8 * k) := by ring
    simp only [leBytes, leNat, ih, hpow, Nat.mod_mul, BitVec.toNat_ofNat, Nat.reducePow]

theorem leBytes_leNat (bs : List Byte) : leBytes (leNat bs) bs.length = bs := by
  induction bs with
  | nil => rfl
  | cons b bs ih =>
    have hb : b.toNat < 256 := b.isLt
    have hlow : BitVec.ofNat 8 (b.toNat + 256 * leNat bs) = b := BitVec.eq_of_toNat_eq (by simp [Nat.mod_eq_of_lt hb])
    have hhigh : (b.toNat + 256 * leNat bs) / 256 = leNat bs := by omega
    simp only [List.length_cons, leNat, leBytes, hlow, hhigh, ih]

theorem leNat_lt (bs : List Byte) : leNat bs < 2 ^ (8 * bs.length) := by
  rw [← leBytes_leNat bs, leNat_leBytes, leBytes_length]
  exact Nat.mod_lt _ (Nat.two_pow_pos _)

theorem take_leBytes {j k : Nat} (n : Nat) (h : j ≤ k) : (leBytes n k).take j = leBytes n j := by
  induction j generalizing n k with
  | zero => rfl
  | succ j ih =>
    obtain ⟨k, rfl⟩ := Nat.exists_eq_add_of_le' (Nat.zero_lt_of_lt h)
    rw [leBytes, leBytes, List.take_succ_cons, ih _ (Nat.le_of_succ_le_succ h)]

/-- The first bytes of a list hold the low bits of its number. -/
theorem leNat_take (bs : List Byte) (j : Nat) : leNat (bs.take j) = leNat bs % 2 ^ (8 * j) := by
  induction j generalizing bs with
  | zero => simp [leNat, Nat.mod_one]
  | succ j ih =>
    cases bs with
    | nil => simp [leNat]
    | cons b bs =>
      have hpow : 2 ^ (8 * (j + 1)) = 256 * 2 ^ (8 * j) := by ring
      have hb : b.toNat < 256 := b.isLt
      have hlow : (b.toNat + 256 * leNat bs) % 256 = b.toNat := by omega
      have hhigh : (b.toNat + 256 * leNat bs) / 256 = leNat bs := by omega
      simp only [List.take_succ_cons, leNat, ih, hpow, Nat.mod_mul, hlow, hhigh]

/-! ### The fields of a word (R19 to R22) -/

theorem opndBits_lt (o : Opnd) : opndBits o < 2 ^ 10 := by
  cases o <;> simp only [opndBits] <;> rename_i i <;> have := i.isLt <;> omega

@[simp] theorem opndOf_opndBits (o : Opnd) : opndOf (opndBits o) = o := by
  cases o <;> rename_i i <;> have hi : i.toNat < 256 := i.isLt <;> simp only [opndOf, opndBits]
  case main => simp [Nat.div_eq_of_lt hi]
  case file => simp only [show (256 + i.toNat) / 256 % 4 = 1 by omega]; simp [BitVec.ofNat_add]
  case last => simp only [show (512 + i.toNat) / 256 % 4 = 2 by omega]; simp [BitVec.ofNat_add]
  case special => simp only [show (768 + i.toNat) / 256 % 4 = 3 by omega]; simp [BitVec.ofNat_add]

theorem opndBits_opndOf {n : Nat} (h : n < 2 ^ 10) : opndBits (opndOf n) = n := by
  have htier : n / 256 % 4 = 0 ∨ n / 256 % 4 = 1 ∨ n / 256 % 4 = 2 ∨ n / 256 % 4 = 3 := by omega
  rcases htier with e | e | e | e <;> simp only [opndOf, e, opndBits, BitVec.toNat_ofNat] <;> omega

theorem bitNat_lt (b : Bool) : bitNat b < 2 ^ 1 := by cases b <;> decide

theorem bitAt_eq (n k : Nat) : bitAt n k = (bitsAt n k 1 == 1) := by simp [bitAt, bitsAt]

@[simp] theorem bitsAt_zero (n k : Nat) : bitsAt n k 0 = 0 := Nat.mod_one _

@[simp] theorem bitNat_bitAt (n k : Nat) : bitNat (bitAt n k) = bitsAt n k 1 := by
  rw [bitAt_eq]
  have := bitsAt_lt n k 1
  rcases (by omega : bitsAt n k 1 = 0 ∨ bitsAt n k 1 = 1) with e | e <;> rw [e] <;> rfl

theorem bitAt_eq_false {n k : Nat} : bitAt n k = false ↔ bitsAt n k 1 = 0 := by
  rw [← bitNat_bitAt]
  cases bitAt n k <;> simp [bitNat]

@[simp] theorem bitNat_beq_one (b : Bool) : (bitNat b == 1) = b := by cases b <;> rfl

/-- The fields that every format begins with, but for LEN: opcode, GP, GN, LA and DST (R19). -/
def headFields (opc : Nat) (x : Ops) : List (Nat × Nat) :=
  [(10, opc), (4, x.gp.toNat), (1, bitNat x.gn), (4, x.la.toNat), (10, opndBits x.dst)]

/-- The fields of a format's word from the low end, LEN, X and the reserved ones among them (R20). -/
def wordFields (opc : Nat) (x : Ops) : List (Nat × Nat) :=
  match x.form with
  | .A => (2, 0) :: headFields opc x ++ [(10, opndBits x.a.opnd), (10, opndBits x.b.opnd), (1, bitNat x.a.lastRead), (1, bitNat x.b.lastRead),
      (2, x.a.modf.toNat), (2, x.b.modf.toNat), (7, x.sub.toNat)]
  | .B => (2, 0) :: headFields opc x ++ [(10, opndBits x.a.opnd), (10, opndBits x.b.opnd), (10, opndBits x.c.opnd), (1, bitNat x.a.lastRead),
      (1, bitNat x.b.lastRead), (1, bitNat x.c.lastRead)]
  | .C => (2, 1) :: headFields opc x ++ [(1, 0), (10, opndBits x.a.opnd), (10, opndBits x.b.opnd), (1, bitNat x.a.lastRead),
      (1, bitNat x.b.lastRead), (7, x.sub.toNat), (2, x.clp.toNat), (1, 0), (12, x.a.modf.toNat), (12, x.b.modf.toNat), (3, x.scl.toNat), (5, 0)]
  | .D => (2, 1) :: headFields opc x ++ [(1, 1), (10, opndBits x.a.opnd), (1, bitNat x.a.lastRead), (12, x.a.modf.toNat), (7, x.sub.toNat),
      (2, x.clp.toNat), (32, x.imm.toNat)]
  | .E => (2, 2) :: headFields opc x ++ [(1, 0), (10, opndBits x.a.opnd), (10, opndBits x.b.opnd), (10, opndBits x.c.opnd),
      (1, bitNat x.a.lastRead), (1, bitNat x.b.lastRead), (1, bitNat x.c.lastRead), (12, x.a.modf.toNat), (12, x.b.modf.toNat),
      (12, x.c.modf.toNat), (7, x.sub.toNat), (2, x.clp.toNat), (3, x.scl.toNat), (15, 0)]
  | .F => (2, 2) :: headFields opc x ++ [(1, 1), (10, opndBits x.a.opnd), (1, bitNat x.a.lastRead), (12, x.a.modf.toNat), (7, x.sub.toNat),
      (2, x.clp.toNat), (64, x.imm.toNat)]

/-- The widths of a format's fields. -/
def Form.widths : Form → List Nat
  | .A => [2, 10, 4, 1, 4, 10, 10, 10, 1, 1, 2, 2, 7]
  | .B => [2, 10, 4, 1, 4, 10, 10, 10, 10, 1, 1, 1]
  | .C => [2, 10, 4, 1, 4, 10, 1, 10, 10, 1, 1, 7, 2, 1, 12, 12, 3, 5]
  | .D => [2, 10, 4, 1, 4, 10, 1, 10, 1, 12, 7, 2, 32]
  | .E => [2, 10, 4, 1, 4, 10, 1, 10, 10, 10, 1, 1, 1, 12, 12, 12, 7, 2, 3, 15]
  | .F => [2, 10, 4, 1, 4, 10, 1, 10, 1, 12, 7, 2, 64]

theorem wordFields_widths (opc : Nat) (x : Ops) : (wordFields opc x).map Prod.fst = Form.widths x.form := by
  unfold wordFields
  cases x.form <;> rfl

theorem Form.widths_sum (f : Form) : (Form.widths f).sum = 8 * f.bytes := by cases f <;> rfl

/-- The word of an opcode with fields is its fields side by side. -/
theorem encodeFields_eq (opc : Nat) (x : Ops) : encodeFields opc x = packed (wordFields opc x) := by
  unfold encodeFields wordFields headBits
  cases x.form <;> simp only [headFields, List.cons_append, List.nil_append, packed] <;> ring

/-- Fields that fit their format lie within their widths. -/
theorem wordFields_fit {opc : Nat} {x : Ops} (hopc : opc < 2 ^ 10) (hx : x.fits = true) : ∀ f ∈ wordFields opc x, f.2 < 2 ^ f.1 := by
  have hnum {w : Nat} (v : BitVec w) : v.toNat < 2 ^ w := v.isLt
  unfold Ops.fits at hx
  unfold wordFields
  cases hform : x.form <;> simp only [hform, Bool.and_eq_true, decide_eq_true_eq] at hx <;>
    simp only [headFields, List.cons_append, List.nil_append, List.forall_mem_cons, List.not_mem_nil, false_implies, implies_true, hopc, hnum,
      opndBits_lt, bitNat_lt, and_true, true_and] <;> omega

/-- Where a number stands for the fields of a word, they are what it holds. -/
theorem fieldsOf_packed {opc : Nat} {x : Ops} (hopc : opc < 2 ^ 10) (hx : x.fits = true) (hB : x.form = .A ∨ x.form = .B → (formatB opc = true ↔ x.form = .B)) :
    bitsAt (packed (wordFields opc x)) 2 10 = opc ∧ packed (wordFields opc x) % 4 ≠ 3 ∧ reservedZero (packed (wordFields opc x)) = true ∧
      fieldsOf (packed (wordFields opc x)) = x := by
  have hread := fieldsAt_packed (wordFields_fit hopc hx) (low := 0) (k := 0) Nat.one_pos
  rw [Nat.pow_zero, Nat.one_mul, Nat.zero_add, wordFields_widths] at hread
  generalize packed (wordFields opc x) = n at hread
  have hlen : n % 4 = bitsAt n 0 2 := by simp [bitsAt]
  obtain ⟨form, gn, gp, la, dst, ⟨ao, al, am⟩, ⟨bo, bl, bm⟩, ⟨co, cl, cm⟩, sub, clp, scl, imm⟩ := x
  unfold wordFields Form.widths at hread
  unfold Ops.fits Src.zero at hx
  cases form <;>
    simp only [fieldsAt, headFields, List.cons_append, List.nil_append, List.cons.injEq, Prod.mk.injEq, true_and, and_true, Nat.reduceAdd] at hread <;>
    simp only [Bool.and_eq_true, decide_eq_true_eq, Src.mk.injEq, beq_iff_eq] at hx hB
  all_goals simp_all [fieldsOf, formOf, reservedZero, srcOf, bitAt_eq, Src.zero]

theorem fieldsOf_form (n : Nat) : (fieldsOf n).form = formOf n := by
  unfold fieldsOf
  cases formOf n <;> rfl

/-- A format's LEN code and X bit (R16, R20); the formats of 64 bits have no X. -/
def Form.marks : Form → Nat × Option Nat
  | .A | .B => (0, none)
  | .C => (1, some 0)
  | .D => (1, some 1)
  | .E => (2, some 0)
  | .F => (2, some 1)

/-- A word of a length that has formats bears its format's marks. -/
theorem formOf_marks {n : Nat} (h : n % 4 ≠ 3) :
    bitsAt n 0 2 = (Form.marks (formOf n)).1 ∧ ∀ x, (Form.marks (formOf n)).2 = some x → bitsAt n 31 1 = x := by
  have hcode : bitsAt n 0 2 = n % 4 := by simp [bitsAt]
  have hx := bitNat_bitAt n 31
  rw [hcode, ← hx]
  unfold formOf
  rcases (by omega : n % 4 = 0 ∨ n % 4 = 1 ∨ n % 4 = 2) with e | e | e <;> rw [e]
  · cases formatB (bitsAt n 2 10) <;> simp [Form.marks]
  · cases bitAt n 31 <;> simp [Form.marks, bitNat]
  · cases bitAt n 31 <;> simp [Form.marks, bitNat]

/-- The length of a word's format is that of its LEN field. -/
theorem formOf_bytes {n : Nat} (h : n % 4 ≠ 3) : (formOf n).bytes = lengthOf n := by
  have hcode : bitsAt n 0 2 = n % 4 := by simp [bitsAt]
  unfold lengthOf
  rw [← hcode, (formOf_marks h).1]
  cases formOf n <;> rfl

/-- Every bit of a word with a meaning is in its fields or its opcode. -/
theorem wordFields_fieldsOf {n : Nat} (hlen : n % 4 ≠ 3) (hres : reservedZero n = true) :
    wordFields (bitsAt n 2 10) (fieldsOf n) = fieldsAt n 0 (Form.widths (formOf n)) := by
  have hopnd (k : Nat) : opndBits (opndOf (bitsAt n k 10)) = bitsAt n k 10 := opndBits_opndOf (bitsAt_lt ..)
  have hnum (k w v : Nat) (hw : w ≤ v) : (BitVec.ofNat v (bitsAt n k w)).toNat = bitsAt n k w := by
    rw [BitVec.toNat_ofNat, Nat.mod_eq_of_lt ((bitsAt_lt ..).trans_le (Nat.pow_le_pow_right Nat.two_pos hw))]
  obtain ⟨hcode, hx⟩ := formOf_marks hlen
  unfold fieldsOf wordFields Form.widths
  unfold reservedZero at hres
  cases e : formOf n <;> simp only [e, Form.marks, Option.some.injEq, forall_eq', Bool.and_eq_true, beq_iff_eq, bitAt_eq_false] at hcode hx hres <;>
    simp only [fieldsAt, headFields, srcOf, List.cons_append, List.nil_append, Nat.reduceAdd, hopnd, hnum, Nat.reduceLeDiff, bitNat_bitAt, hcode,
      hx, hres]

/-- A word with a meaning is the word of its opcode with its fields. -/
theorem encodeFields_fieldsOf {n : Nat} (hlen : n % 4 ≠ 3) (hres : reservedZero n = true) (hn : n < 2 ^ (8 * lengthOf n)) :
    encodeFields (bitsAt n 2 10) (fieldsOf n) = n := by
  rw [encodeFields_eq, wordFields_fieldsOf hlen hres, packed_fieldsAt, Form.widths_sum, formOf_bytes hlen, bitsAt, Nat.pow_zero, Nat.div_one,
    Nat.mod_eq_of_lt hn]

end Sys2Proof.Machine
end

section
/-! SUPPORT. Decoding and encoding of instructions (R16 to R22, R58 to R61) undo each other. -/

namespace Sys2Proof.Machine

open Sys2Proof.Laws

/-! ### Opcodes -/

/-- The opcode of every instruction's encoding rules is the one that the decoder reads it from. -/
theorem opcode_statement (i : Instr) : Opcode.Statement i := by
  cases i
  all_goals first
    | exact opcode_of_none rfl
    | simp only [Opcode.iadd, Opcode.isub, Opcode.iaddc, Opcode.imul, Opcode.imin, Opcode.imax, Opcode.iabs, Opcode.imad, Opcode.shl, Opcode.shr,
        Opcode.rot, Opcode.and, Opcode.or, Opcode.xor, Opcode.not, Opcode.popc, Opcode.clz, Opcode.ctz, Opcode.brev, Opcode.bfe, Opcode.bfi,
        Opcode.bternTableBit7Clear, Opcode.bternTableBit7Set, Opcode.icmp, Opcode.isel, Opcode.lea, Opcode.mov, Opcode.movi, Opcode.movu, Opcode.icvt,
        Opcode.movs, Opcode.pset, Opcode.plop, Opcode.pmov, Opcode.sadd, Opcode.smul, Opcode.smov, Opcode.sld, Opcode.scmp, Opcode.bra, Opcode.call,
        Opcode.brx, Opcode.ret, Opcode.exit, Opcode.yield, Opcode.nop, Opcode.shfl, Opcode.vote, Opcode.matchLanes, Opcode.lredux, Opcode.lprfx,
        Opcode.elect, Opcode.uniassert, Opcode.fadd, Opcode.fsub, Opcode.fmul, Opcode.ffma, Opcode.ffmaF64Short, Opcode.fdiv, Opcode.fsqrt,
        Opcode.fmin, Opcode.fmax, Opcode.frcp, Opcode.frsq, Opcode.fex2, Opcode.flg2, Opcode.fsin, Opcode.fcos, Opcode.fcmp, Opcode.fclass,
        Opcode.frnd, Opcode.fgetexp, Opcode.fldexp, Opcode.fcpys, Opcode.fcvt, Opcode.f2i, Opcode.i2f, Opcode.fstat, Opcode.pkadd, Opcode.pkfma,
        Opcode.dot4, Opcode.dot2, Opcode.ld, Opcode.lds, Opcode.ldc, Opcode.st, Opcode.sts, Opcode.ldf, Opcode.stf, Opcode.testf, Opcode.atom,
        Opcode.atomCas, Opcode.red, Opcode.fence, Opcode.ifence, Opcode.awin, Opcode.isspace, Opcode.pref, Opcode.barInit, Opcode.barArrive,
        Opcode.barExpect, Opcode.barWait, Opcode.barTest, Opcode.tlwait, Opcode.tlread, Opcode.scopew, Opcode.scopebind, Opcode.scopeq,
        Opcode.scoperet, Opcode.hmk, Opcode.cpy, Opcode.cpyg, Opcode.wld, Opcode.wsel, Opcode.mma, Opcode.mmam, Opcode.aclr, Opcode.adrn, Opcode.epld,
        Opcode.msave, Opcode.mres, Opcode.qnt, Opcode.qwait, Opcode.mld, Opcode.mst, Opcode.mset, Opcode.mmov, Opcode.madd, Opcode.msub, Opcode.mmul,
        Opcode.mscl, Opcode.mfma, Opcode.mrelu, Opcode.mexp, Opcode.msigm, Opcode.mtanh, Opcode.mrcp, Opcode.mcol, Opcode.tst, Opcode.tred,
        Opcode.tideClose, Opcode.tideWait, Opcode.tideQuery, Opcode.rld, Opcode.ratom, Opcode.send, Opcode.arm, Opcode.disarm, Opcode.launch,
        Opcode.hint, Opcode.trap, Opcode.tret, Opcode.csave, Opcode.crest, Opcode.sysr, Opcode.sysw, Opcode.cap, Opcode.halt, Opcode.evqPop,
        Opcode.trel, Opcode.byteAbsDiffSum, Opcode.retiredOperation]

/-- What the decoder reads from an opcode has the fields it is given, and that opcode. -/
theorem ofOpcode_some {opc : Nat} {x : Ops} {i : Instr} (h : ofOpcode opc x = some i) : i.ops = some x ∧ ∃ sp, i.spec = some sp ∧ sp.opc = opc := by
  unfold ofOpcode at h
  split at h
  on_goal -1 =>
    split at h
    · cases h
      refine ⟨rfl, _, rfl, ?_⟩
      simp only [OpSpec.row, BitVec.toNat_ofNat]
      omega
    · cases h
  all_goals cases h; exact ⟨rfl, _, rfl, rfl⟩

/-! ### Words and instructions -/

/-- A well-formed instruction is a fill word, or its fields fit their format, which is one of its opcode's. -/
theorem Instr.wf_cases {i : Instr} (h : i.wf = true) :
    i = .fillWord ∨ ∃ sp x, i.spec = some sp ∧ i.ops = some x ∧ x.fits = true ∧ sp.ok = true ∧ x.form ∈ sp.forms := by
  obtain ⟨hfits, hcheck⟩ := Bool.and_eq_true_iff.mp h
  obtain ⟨md, hpass⟩ : ∃ md, i.check md = none := by
    rcases Bool.or_eq_true_iff.mp hcheck with h | h
    · exact ⟨_, eq_of_beq h⟩
    · exact ⟨_, eq_of_beq h⟩
  unfold Instr.check at hpass
  split at hpass
  · rename_i sp x hsp hx
    rw [hx] at hfits
    have henc : encOk md sp x = true := by
      by_contra hno
      rw [Bool.eq_false_of_not_eq_true hno] at hpass
      cases hpass
    simp only [encOk, Bool.and_eq_true, List.contains_iff_mem] at henc
    exact .inr ⟨sp, x, hsp, hx, hfits, by simp only [henc], by simp only [henc]⟩
  · exact .inl (by simpa using hpass)

theorem four_le_lengthOf (n : Nat) : 4 ≤ lengthOf n := by
  unfold lengthOf
  split <;> decide

theorem lengthOf_mod (n : Nat) : lengthOf (n % 2 ^ 32) = lengthOf n := by
  unfold lengthOf
  rw [Nat.mod_mod_of_dvd _ (by decide)]

/-- The instruction of a word with a meaning. -/
theorem decodeBits_of_opcode {n : Nat} {i : Instr} (hlen : n % 4 ≠ 3) (hres : reservedZero n = true)
    (h : ofOpcode (bitsAt n 2 10) (fieldsOf n) = some i) : decodeBits n = i := by
  have hlen : n % 2 ^ 32 % 4 ≠ 3 := by omega
  simp only [decodeBits, hlen, hres, h, if_false, if_true, Option.getD_some]

/-- A word that decodes to a well-formed instruction is a fill word's, or one with a meaning. -/
theorem decodeBits_wf {n : Nat} (h : (decodeBits n).wf = true) :
    n % 2 ^ 32 = 3 ∨ (n % 4 ≠ 3 ∧ reservedZero n = true ∧ ofOpcode (bitsAt n 2 10) (fieldsOf n) = some (decodeBits n)) := by
  have hun (w : Word) : (Instr.unassignedOpcode w).wf ≠ true := by simp [Instr.wf, Instr.check, Instr.spec, Instr.ops]
  have h' := h
  simp only [decodeBits] at h'
  split at h'
  · split at h'
    · exact .inl ‹_›
    · exact absurd h' (hun _)
  · split at h'
    case isFalse.isTrue hlen hres =>
      have hlen : n % 4 ≠ 3 := by omega
      cases hof : ofOpcode (bitsAt n 2 10) (fieldsOf n) with
      | none => exact absurd (hof ▸ h') (hun _)
      | some i => exact .inr ⟨hlen, hres, congrArg some (decodeBits_of_opcode hlen hres hof).symm⟩
    · exact absurd h' (hun _)

/-- The bytes of an instruction's bits decode to it, with nothing left over. -/
theorem decode_append {n : Nat} {i : Instr} (rest : List Byte) (hn : n < 2 ^ (8 * lengthOf n)) (h : decodeBits n = i) :
    decode (leBytes n (lengthOf n) ++ rest) = some (i, rest) := by
  have hfour := four_le_lengthOf n
  have hlen := leBytes_length n (lengthOf n)
  have hhead : lengthOf (leNat ((leBytes n (lengthOf n) ++ rest).take 4)) = lengthOf n := by
    rw [List.take_append_of_le_length (hlen.symm ▸ hfour), take_leBytes n hfour, leNat_leBytes, lengthOf_mod]
  have hlong : ¬ ((leBytes n (lengthOf n) ++ rest).length < 4 ∨ (leBytes n (lengthOf n) ++ rest).length < lengthOf n) := by
    rw [List.length_append, hlen]; omega
  simp only [decode, hhead, hlong, if_false, List.take_left' hlen, List.drop_left' hlen, leNat_leBytes, Nat.mod_eq_of_lt hn, h]

/-- Bytes that decode to an instruction begin with the bytes of its bits. -/
theorem decode_some {bs rest : List Byte} {i : Instr} (h : decode bs = some (i, rest)) :
    ∃ n, n < 2 ^ (8 * lengthOf n) ∧ i = decodeBits n ∧ bs = leBytes n (lengthOf n) ++ rest := by
  unfold decode at h
  simp only at h
  split at h
  · cases h
  rename_i hlong
  cases h
  generalize hlen : lengthOf (leNat (bs.take 4)) = len at hlong ⊢
  have hfour : 4 ≤ len := hlen ▸ four_le_lengthOf _
  have htake : (bs.take len).length = len := List.length_take_of_le (by omega)
  have hlength : lengthOf (leNat (bs.take len)) = len := by
    rw [← lengthOf_mod, ← leNat_take _ 4, List.take_take, Nat.min_eq_left hfour, hlen]
  refine ⟨leNat (bs.take len), ?_, rfl, ?_⟩
  · rw [hlength]; exact (leNat_lt _).trans_eq (by rw [htake])
  · have hback := leBytes_leNat (bs.take len)
    rw [htake] at hback
    rw [hlength, hback, List.take_append_drop]

/-- The bits of an instruction with a form. -/
theorem encode_of_spec {i : Instr} {sp : OpSpec} {x : Ops} (hsp : i.spec = some sp) (hx : i.ops = some x) :
    encode i = some (leBytes (encodeFields sp.opc x) x.form.bytes) := by
  simp only [encode, encodeBits, Instr.bytes, hsp, hx, Option.map_some]

/-- The bits of a well-formed instruction's word: of its length, and read back as the instruction. -/
theorem encodeFields_spec {i : Instr} {sp : OpSpec} {x : Ops} (hsp : i.spec = some sp) (hx : i.ops = some x) (hfits : x.fits = true)
    (hok : sp.ok = true) (hform : x.form ∈ sp.forms) :
    lengthOf (encodeFields sp.opc x) = x.form.bytes ∧ encodeFields sp.opc x < 2 ^ (8 * x.form.bytes) ∧ decodeBits (encodeFields sp.opc x) = i := by
  obtain ⟨hof, hopc, hforms⟩ := opcode_statement i sp x hsp hx hok
  have hopc : sp.opc < 2 ^ 10 := Nat.le_of_ble_eq_true hopc
  have hB : x.form = .A ∨ x.form = .B → (formatB sp.opc = true ↔ x.form = .B) := by
    have := List.all_eq_true.mp hforms _ hform
    rintro (e | e) <;> simp_all
  have hsize := packed_lt (wordFields_fit hopc hfits)
  obtain ⟨hread, hlen, hres, hfields⟩ := fieldsOf_packed hopc hfits hB
  rw [wordFields_widths, Form.widths_sum, ← encodeFields_eq] at hsize
  rw [← encodeFields_eq] at hread hlen hres hfields
  refine ⟨?_, hsize, decodeBits_of_opcode hlen hres (by rw [hread, hfields, hof])⟩
  rw [← formOf_bytes hlen, ← fieldsOf_form, hfields]

/-- Settles O50: a word is its fields side by side, and the opcode and the fields are read back from where they stand. -/
theorem decodeEncode : Obligations.DecodeEncode := by
  constructor
  · intro i rest hwf
    rcases Instr.wf_cases hwf with rfl | ⟨sp, x, hsp, hx, hfits, hok, hform⟩
    · exact ⟨_, rfl, decode_append (n := 3) rest (by decide) rfl⟩
    · obtain ⟨hlen, hsize, hback⟩ := encodeFields_spec hsp hx hfits hok hform
      refine ⟨_, encode_of_spec hsp hx, ?_⟩
      rw [← hlen] at hsize ⊢
      exact decode_append rest hsize hback
  · intro bs rest i hdec hwf
    obtain ⟨n, hn, rfl, rfl⟩ := decode_some hdec
    refine ⟨_, ?_, rfl⟩
    rcases decodeBits_wf hwf with h3 | ⟨hlen, hres, hof⟩
    · have hlength : lengthOf n = 4 := by rw [← lengthOf_mod, h3]; rfl
      obtain rfl : n = 3 := by rw [hlength] at hn; omega
      rfl
    · obtain ⟨hx, sp, hsp, hopc⟩ := ofOpcode_some hof
      rw [encode_of_spec hsp hx, hopc, encodeFields_fieldsOf hlen hres hn, fieldsOf_form, formOf_bytes hlen]

end Sys2Proof.Machine
end

section
/-! SUPPORT. Fetch and step (R16 to R18, R37 orders 1 and 2): what an issuer's next step is, by the bytes at its address. -/

namespace Sys2Proof.Machine

/-- Settles O49: the decoder reads the fields and the opcode of each word. -/
theorem printedWordsDecode : Obligations.PrintedWordsDecode :=
  ⟨rfl, rfl, rfl, rfl, rfl, rfl, rfl, rfl, rfl, rfl, rfl, rfl, rfl⟩

/-! ### Code bytes -/

section
variable {s : State} {w : Issuer} {a : Nat}

theorem State.codeBytes_length {n : Nat} {bs : List Byte} (h : s.codeBytes w a n = some bs) : bs.length = n := by
  induction n generalizing a bs with
  | zero => cases h; rfl
  | succ n ih =>
    unfold State.codeBytes at h
    split at h
    · cases h; simp [ih ‹_›]
    · cases h

/-- Where some code bytes may be fetched, so may those before them. -/
theorem State.codeBytes_take {n m : Nat} {bs : List Byte} (h : s.codeBytes w a n = some bs) (hm : m ≤ n) :
    s.codeBytes w a m = some (bs.take m) := by
  induction m generalizing a n bs with
  | zero => rfl
  | succ m ih =>
    obtain ⟨n, rfl⟩ := Nat.exists_eq_add_of_le' (Nat.zero_lt_of_lt hm)
    unfold State.codeBytes at h ⊢
    split at h
    · rename_i p bs hp hbs
      cases h
      rw [hp, ih hbs (Nat.le_of_succ_le_succ hm)]
      rfl
    · cases h

/-! ### Fetches (R18, R37) -/

theorem State.fetch_extent_none (h : s.codeBytes w a 4 = none) : s.fetch w a = .extent none := by simp only [State.fetch, h]

variable {head : List Byte} (hhead : s.codeBytes w a 4 = some head)
include hhead

theorem State.fetch_boundary (h : 32 < a % 32 + lengthOf (leNat head)) : s.fetch w a = .boundary (lengthOf (leNat head)) := by
  simp only [State.fetch, hhead, h, if_true]

variable (hin : a % 32 + lengthOf (leNat head) ≤ 32)
include hin

theorem State.fetch_extent_some (h : s.codeBytes w a (lengthOf (leNat head)) = none) : s.fetch w a = .extent (some (lengthOf (leNat head))) := by
  simp only [State.fetch, hhead, Nat.not_lt.mpr hin, if_false, h]

theorem State.fetch_instr {bs rest : List Byte} {i : Instr} (h : s.codeBytes w a (lengthOf (leNat head)) = some bs) (hdec : decode bs = some (i, rest)) :
    s.fetch w a = .instr i (lengthOf (leNat head)) := by
  simp only [State.fetch, hhead, Nat.not_lt.mpr hin, if_false, h, hdec]

end

/-- Bytes that decode to one instruction are as many as its first word says. -/
theorem decode_length {bs : List Byte} {i : Instr} (h : decode bs = some (i, [])) : 4 ≤ bs.length ∧ bs.length = lengthOf (leNat (bs.take 4)) := by
  unfold decode at h
  simp only at h
  split at h
  · cases h
  · have hdrop := congrArg Prod.snd (Option.some.inj h)
    have := List.drop_eq_nil_iff.mp hdrop
    omega

/-! ### Steps -/

section
variable {s : State} {w : Issuer} {g : Gang} {core : CoreRef} {chip : Nat} {lanes : LaneMask} (h : s.issuing = some (w, g, core, chip, lanes))
include h

/-- Where someone issues, the step is an issue. -/
theorem step_of_issuing : step s = s.issueNow := by
  unfold step State.proceed
  rw [(State.issuing_some h).1]

theorem step_of_instr {i : Instr} {n : Nat} (hf : s.fetch w (vget g.pc (lowest lanes)).toNat = .instr i n) : step s = exec i s := by
  rw [step_of_issuing h]
  simp only [State.issueNow, h, hf]

theorem step_of_boundary {n : Nat} (hf : s.fetch w (vget g.pc (lowest lanes)).toNat = .boundary n) :
    step s = .next (s.takeFault w { cause := cFetchBoundary, lanes } lanes (vget g.pc (lowest lanes))
      (vget g.pc (lowest lanes) + BitVec.ofNat 64 n) []) := by
  rw [step_of_issuing h]
  simp only [State.issueNow, h, hf]

theorem step_of_extent_some {n : Nat} (hf : s.fetch w (vget g.pc (lowest lanes)).toNat = .extent (some n)) :
    step s = .next (s.takeFault w { cause := cExtent, lanes, addr := vget g.pc (lowest lanes) } lanes (vget g.pc (lowest lanes))
      (vget g.pc (lowest lanes) + BitVec.ofNat 64 n) []) := by
  rw [step_of_issuing h]
  simp only [State.issueNow, h, hf]

theorem step_of_extent_none (hf : s.fetch w (vget g.pc (lowest lanes)).toNat = .extent none) :
    step s = .next (s.free.2.takeFault w { cause := cExtent, lanes, addr := vget g.pc (lowest lanes) } lanes (vget g.pc (lowest lanes))
      s.free.1 []) := by
  rw [step_of_issuing h]
  simp only [State.issueNow, h, hf]

end

/-- Settles O51: each outcome of the fetch is the outcome of the step. -/
theorem stepRunsIssued : Obligations.StepRunsIssued := by
  refine ⟨fun s w g core chip lanes hiss => ?_, fun s i rest hnone hagenda => ?agenda⟩
  case agenda =>
    unfold step State.proceed
    rw [hnone, hagenda]
  intro pc at_
  refine ⟨fun bs i hbs hdec hin => ?instr, fun head hhead hin hnone => ?extent, fun hnone => ?unread⟩
  case instr =>
    obtain ⟨hfour, hlen⟩ := decode_length hdec
    have hhead := State.codeBytes_take hbs hfour
    rw [hlen] at hin hbs
    exact step_of_instr hiss (State.fetch_instr hhead hin hbs hdec)
  case extent => exact step_of_extent_some hiss (State.fetch_extent_some hhead hin hnone)
  case unread => exact ⟨s.free.2, s.free.1, rfl, step_of_extent_none hiss (State.fetch_extent_none hnone)⟩

/-! ### Fault records (R396) -/

@[simp] theorem le_length (n v : Nat) : (le n v).length = n := leBytes_length v n

/-- The low bytes of the number that stands first. -/
theorem field_le_append {m n : Nat} (h : n ≤ m) (v : Nat) (bs : List Byte) : field (le m v ++ bs) 0 n = v % 2 ^ (8 * n) := by
  unfold field
  rw [List.drop_zero, List.take_append_of_le_length (h.trans_eq (le_length m v).symm), le, take_leBytes v h, leNat_leBytes]

/-- A field past the bytes that stand first. -/
theorem field_append_skip {as : List Byte} {o : Nat} (h : as.length ≤ o) (bs : List Byte) (n : Nat) :
    field (as ++ bs) o n = field bs (o - as.length) n := by
  unfold field
  rw [List.drop_append, List.drop_eq_nil_of_le h, List.nil_append]

section
variable (t : Trouble) (nest ends eng : Bool) (active : LaneMask) (gang handle task : Nat) (pc resume : DWord)

theorem field_faultRecord_cause (h : t.cause < 256) : field (faultRecord t nest ends eng active gang handle task pc resume) 0 1 = t.cause := by
  simp only [faultRecord, List.append_assoc]
  rw [field_le_append (by decide)]
  omega

theorem field_faultRecord_lanes : field (faultRecord t nest ends eng active gang handle task pc resume) 4 4 = t.lanes.toNat := by
  simp only [faultRecord, List.append_assoc, field_append_skip, le_length, Nat.le_refl, Nat.sub_self]
  rw [field_le_append (Nat.le_refl 4), Nat.mod_eq_of_lt t.lanes.isLt]

theorem field_faultRecord_pc : field (faultRecord t nest ends eng active gang handle task pc resume) 0x10 8 = pc.toNat := by
  simp only [faultRecord, List.append_assoc, field_append_skip, le_length, List.length_singleton, Nat.reduceLeDiff, Nat.reduceSub, Nat.le_refl]
  rw [field_le_append (Nat.le_refl 8), Nat.mod_eq_of_lt pc.isLt]

end

/-- Settles O59: the first word's length reaches past the block, so that the fetch ends in the boundary; its record by its fields. -/
theorem fetchBoundary : Obligations.FetchBoundary := by
  intro s w g core chip lanes head hiss pc resume t hhead hpast
  refine ⟨step_of_boundary hiss (State.fetch_boundary hhead hpast), fun nest ends eng gang handle task => ?_⟩
  exact ⟨field_faultRecord_cause t nest ends eng lanes gang handle task pc resume (show 3 < 256 by decide), field_faultRecord_lanes ..,
    field_faultRecord_pc ..⟩

end Sys2Proof.Machine
end

section
/-! SUPPORT. What instructions that write registers alone keep (R28, R29, R41, R54, R82): each completes with the state it met, so that what a
completion keeps is what it keeps. -/

namespace Sys2Proof.Machine

/-! ### What a completion keeps, for either issuer -/

@[simp] theorem State.core_handOver (s : State) (w : Issuer) (k : CoreRef) : (s.handOver w).core k = s.core k := by
  rw [State.handOver_eq]; rfl

/-- What a completed instruction of a control routine keeps of the machine, beside what its meaning changed. -/
theorem Ctx.finish_ctrl (c : Ctx) (o : Out) {r : CoreRef} (hw : c.w = .ctrl r) :
    (c.finish o).guests = o.s.guests ∧ (c.finish o).hostMem = o.s.hostMem ∧ (c.finish o).packets = o.s.packets ∧ (c.finish o).irqs = o.s.irqs ∧
    (c.finish o).agenda = o.s.agenda ∧ (c.finish o).fresh = o.s.fresh ∧
    (∀ k, ((c.finish o).chip? k).map Chip.noRaces = (o.s.chip? k).map Chip.noRaces) ∧
    (∀ k n, (c.finish o).task? k n = o.s.task? k n) ∧ ∀ k, k ≠ r → (c.finish o).core k = o.s.core k := by
  have hfinish : c.finish o = ((c.leaveFence o.s).updCore r fun k =>
      { k with ctrl := k.ctrl.map fun run => { run with gang := c.retireGang run.gang o } }).handOver (.ctrl r) := by
    unfold Ctx.finish; rw [hw]; rfl
  rw [hfinish]
  refine ⟨?_, ?_, ?_, ?_, ?_, ?_, fun k => ?_, fun k n => ?_, fun k hk => ?_⟩
  case refine_7 => rw [State.handOver_eq]; exact Ctx.noRaces_leaveFence c o.s k
  case refine_8 => rw [State.handOver_eq]; exact Ctx.task?_leaveFence c o.s k n
  case refine_9 => exact (State.core_handOver ..).trans (State.core_updCore_ne (c.leaveFence o.s) _ (Ne.symm hk))
  all_goals rw [State.handOver_eq]; rfl

/-- The rest of a chip is the same whatever its race record. -/
theorem Chip.rest_of_noRaces {a b : Option Chip} (h : a.map Chip.noRaces = b.map Chip.noRaces) : a.map Chip.rest = b.map Chip.rest := by
  have h := congrArg (Option.map Chip.rest) h
  rwa [Option.map_map, Option.map_map] at h

/-- What any completed instruction keeps of the machine outside who issues and the issuer's gang, beside what its meaning changed. -/
theorem Ctx.finish_keeps (c : Ctx) (o : Out) :
    (∀ p, (c.finish o).readByte p = o.s.readByte p) ∧ (c.finish o).hostMem = o.s.hostMem ∧ (c.finish o).guests = o.s.guests ∧
    (c.finish o).packets = o.s.packets ∧ (c.finish o).irqs = o.s.irqs ∧ (c.finish o).agenda = o.s.agenda ∧ (c.finish o).fresh = o.s.fresh ∧
    (∀ k, ((c.finish o).chip? k).map Chip.rest = (o.s.chip? k).map Chip.rest) ∧
    (∀ k n, ((c.finish o).task? k n).map Task.rest = (o.s.task? k n).map Task.rest) := by
  cases hw : c.w with
  | gang g lanes =>
    obtain ⟨⟨-, hguests, hpackets, hirqs, -, hagenda, hfresh, -⟩, -, -, hmem, hchips, htasks, hbytes⟩ := c.finish_gang o hw
    exact ⟨hbytes, hmem, hguests, hpackets, hirqs, hagenda, hfresh, hchips, htasks⟩
  | ctrl r =>
    obtain ⟨hguests, hmem, hpackets, hirqs, hagenda, hfresh, hchips, htasks, -⟩ := c.finish_ctrl o hw
    have hchips k := Chip.rest_of_noRaces (hchips k)
    have htasks k n := congrArg (Option.map Task.rest) (htasks k n)
    exact ⟨State.readByte_congr hmem hchips htasks, hmem, hguests, hpackets, hirqs, hagenda, hfresh, hchips, htasks⟩

/-! ### Instructions that write registers alone -/

/-- The instruction completes in the state it met, and raises no moment flag, and no IEEE flag unless it may. -/
def Completes (s : State) (i : Instr) (c : Ctx) (mayFlag : Prop) : Prop :=
  ∃ o, exec i s = .next (c.finish o) ∧ o.s = s ∧ o.mflags = Lanes.all 0 ∧ (o.flags = Lanes.all 0 ∨ mayFlag)

section
variable {s : State} {i : Instr} {x : Ops} {c : Ctx} {p : Prop} {body : Ctx → State → Res} (hr : Ready s i x c)
include hr

theorem completes_of_does (hexec : exec i s = issue s i x body) (hb : body c s = .ok { s }) : Completes s i c p :=
  ⟨_, hexec.trans (issue_does hr hb), rfl, rfl, .inl rfl⟩

variable (hroom : c.room s = true)
include hroom

theorem completes_of_value (hexec : exec i s = issue s i x body) (hb : ∃ f, body c s = c.value s f) : Completes s i c p := by
  obtain ⟨f, hb⟩ := hb
  exact ⟨_, hexec.trans (issue_value hr hb hroom), rfl, rfl, .inl rfl⟩

theorem completes_of_floats (hoff : c.trapsOff) (hexec : exec i s = issue s i x body)
    (hb : ∃ f, body c s = c.floats s f ∨ body c s = c.floatsLate s f) : Completes s i c True := by
  obtain ⟨f, hb | hb⟩ := hb <;>
    exact ⟨_, hexec.trans (issue_ok hr hb (fun _ => hroom) (.inl (trapLanes_off hoff _))), rfl, rfl, .inr trivial⟩

/-- A register instruction completes in the state it met and raises no flag. -/
theorem completes_of_registerOnly (hx : i.ops = some x) (h : i.registerOnly = true) : Completes s i c False := by
  cases i
  case nop | hint | ifence | pref | uniassert => cases hx; exact completes_of_does hr (body := fun _ s => .ok { s }) rfl rfl
  case vote | matchLanes =>
    cases hx
    apply completes_of_value hr hroom
    case hexec => unfold exec; exact rfl
    case hb => dsimp only; split <;> exact ⟨_, rfl⟩
  all_goals
    cases hx <;> cases h <;>
      (apply completes_of_value hr hroom
       case hexec => unfold exec; exact rfl
       case hb => exact ⟨_, rfl⟩)

/-- A float instruction of which no flag traps completes in the state it met and raises no moment flag. -/
theorem completes_of_floatOnly (hx : i.ops = some x) (h : i.floatOnly = true) (hoff : c.trapsOff) : Completes s i c True := by
  cases i
  case dot4 =>
    cases hx
    by_cases hint : 3 ≤ x.sb 5 3
    · apply completes_of_value hr hroom
      case hexec => unfold exec; exact rfl
      case hb => exact ⟨_, if_pos hint⟩
    · apply completes_of_floats hr hroom hoff
      case hexec => unfold exec; exact rfl
      case hb => exact ⟨_, .inl (if_neg hint)⟩
  case fdiv | fsqrt =>
    cases hx
    apply completes_of_floats hr hroom hoff
    case hexec => unfold exec; exact rfl
    case hb => exact ⟨_, .inr rfl⟩
  all_goals
    cases hx <;> cases h <;>
      (apply completes_of_floats hr hroom hoff
       case hexec => unfold exec; exact rfl
       case hb => exact ⟨_, .inl rfl⟩)

end

/-- Settles O54: the instruction completes in the state it met, and the completion keeps the rest. -/
theorem registerFrames : Obligations.RegisterFrames := by
  intro s t i x c hx hr hroom hexec hkind
  have hcompletes : Completes s i c (i.floatOnly = true) := by
    rcases hkind with h | ⟨h, hoff⟩
    · obtain ⟨o, hfin, hs, hm, hf⟩ := completes_of_registerOnly hr hroom hx h
      exact ⟨o, hfin, hs, hm, .inl (hf.resolve_right id)⟩
    · obtain ⟨o, hfin, hs, hm, -⟩ := completes_of_floatOnly hr hroom hx h hoff
      exact ⟨o, hfin, hs, hm, .inr h⟩
  obtain ⟨o, hfin, rfl, hm, hf⟩ := hcompletes
  have hflags (hreg : i.registerOnly = true) : o.flags = Lanes.all 0 :=
    hf.resolve_right (by cases i <;> simp_all [Instr.registerOnly, Instr.floatOnly])
  obtain rfl : c.finish o = t := Host.Outcome.next.inj (hfin.symm.trans hexec)
  obtain ⟨hbytes, hmem, hguests, hpackets, hirqs, hagenda, hfresh, hchips, htasks⟩ := c.finish_keeps o
  refine ⟨hbytes, hmem, hguests, hpackets, hirqs, hagenda, hfresh, hchips, htasks, fun g lanes hw => ?gang, fun r hw => ?ctrl⟩
  case gang =>
    obtain ⟨hothers, hgang, -⟩ := c.finish_gang o hw
    have hdest := ready_destOk hr
    rw [(ready_gang hr hw).2.1] at hgang
    exact ⟨hothers, _, hgang, c.kept_retireGang o hdest, fun hreg => c.fpflag_retireGang o hdest (.inl (hflags hreg)),
      c.mflag_retireGang o hdest hm⟩
  case ctrl =>
    obtain ⟨-, -, -, -, -, -, hchips, -, hcores⟩ := c.finish_ctrl o hw
    exact ⟨hchips, hcores⟩

end Sys2Proof.Machine
end

section
/-! SUPPORT. What a completed instruction writes (R22 to R25, R28, R29, R41, R42, R54, R55, R100, R115): each register file after a write of a
name, and the gang after the retirement of an instruction with a result. -/

namespace Sys2Proof.Machine

/-! ### Short vectors and numbers -/

@[simp] theorem vget_vset_self {α : Type} {n : Nat} [NeZero n] (v : Vector α n) (k : Nat) (a : α) : vget (vset v k a) k = a := by
  simp [vget, vset]

theorem vget_vset_ne {α : Type} {n : Nat} [NeZero n] (v : Vector α n) {j k : Nat} (a : α) (hj : j < n) (hk : k < n) (h : j ≠ k) :
    vget (vset v j a) k = vget v k := by
  simp only [vget, vset, Fin.getElem_fin]
  exact Vector.getElem_set_ne _ _ (by simpa [Fin.ofNat, Nat.mod_eq_of_lt, hj, hk] using h)

@[simp] theorem vget_map {α β : Type} {n : Nat} [NeZero n] (v : Vector α n) (f : α → β) (k : Nat) : vget (v.map f) k = f (vget v k) := by
  simp [vget]

@[simp] theorem vget_lane {α : Type} (v : Lanes α) (k : Fin 32) : vget v k.val = v[k] := by
  simp [vget, Fin.ofNat, Nat.mod_eq_of_lt k.isLt]

@[simp] theorem map_lane {α β : Type} (v : Lanes α) (f : α → β) (k : Fin 32) : (v.map f)[k] = f v[k] := by simp

theorem sel_lane {α : Type} {m : LaneMask} {k : Fin 32} (h : inMask m k = true) (new old : Lanes α) : (Lanes.sel m new old)[k] = new[k] := by
  simp only [Lanes.sel, fin_lanesFrom, h, if_true]

/-- A number's low n + 1 words are its lowest word and the low n words above it. -/
theorem mod_words (v n : Nat) : v % 2 ^ (32 * (n + 1)) = v % 2 ^ 32 + 2 ^ 32 * (v / 2 ^ 32 % 2 ^ (32 * n)) := by
  rw [show 32 * (n + 1) = 32 + 32 * n by ring, Nat.pow_add, Nat.mod_mul]

/-- A doubleword takes a result's low 64 bits. -/
theorem ofNat_mod_word (a : Nat) : BitVec.ofNat 64 (a % 2 ^ 128) = BitVec.ofNat 64 a :=
  BitVec.eq_of_toNat_eq (by simp only [BitVec.toNat_ofNat]; exact Nat.mod_mod_of_dvd a (pow_dvd_pow 2 (by decide)))

/-! ### A name after it was written -/

theorem Gang.vlane_congr {g h : Gang} (e : g.vmap = h.vmap) (ctrl : Bool) (n i : Nat) : g.vlane ctrl n i = h.vlane ctrl n i := by
  unfold Gang.vlane
  rw [e]

theorem Gang.vread_congr {g h : Gang} (e : g.vmap = h.vmap) (ctrl : Bool) (n i k : Nat) : g.vread ctrl n i k = h.vread ctrl n i k := by
  induction k generalizing n with
  | zero => rfl
  | succ k ih => simp only [Gang.vread, Gang.vlane_congr e, ih]

theorem Gang.oread_congr {g h : Gang} (e : g.ofile = h.ofile) (n i k : Nat) : g.oread n i k = h.oread n i k := by
  induction k generalizing n with
  | zero => rfl
  | succ k ih => simp only [Gang.oread, e, ih]

/-- Vector registers read, in a lane that was written, the value that was written (R24, R41). -/
theorem Gang.vread_writeV (g : Gang) (ctrl : Bool) (k : Nat) {m : LaneMask} {i : Fin 32} (hi : inMask m i = true) (v : Lanes Nat) (n : Nat) :
    (g.writeV k m v n).vread ctrl k i n = some (v[i] % 2 ^ (32 * n)) := by
  induction n generalizing g k v with
  | zero => simp [Gang.vread, Nat.mod_one]
  | succ n ih =>
    have hlane : (g.writeV k m v (n + 1)).vlane ctrl k i = some (v[i] % 2 ^ 32) := by
      have hlive : inMask ((Tab.getD g.vmap k ⟨0, Lanes.all 0⟩).live ||| m) i = true := by
        unfold inMask at hi ⊢
        rw [BitVec.getLsbD_or, hi, Bool.or_true]
      have hkeep (h : Gang) : Tab.find (h.writeV (k + 1) m (v.map (· / 2 ^ 32)) n).vmap k = Tab.find h.vmap k :=
        h.find_writeV (k + 1) m _ n k (.inl (Nat.lt_succ_self k))
      simp only [Gang.vlane, Gang.writeV, hkeep, Tab.find_put_self, hlive, Bool.or_true, if_true, vget_lane, sel_lane hi, map_lane,
        BitVec.toNat_ofNat]
    rw [Gang.vread, hlane]
    simp only [Gang.writeV, ih, map_lane]
    rw [mod_words]

/-- Operand-file registers read, in a lane that was written, the value that was written. -/
theorem Gang.oread_writeO (g : Gang) (k : Nat) {m : LaneMask} {i : Fin 32} (hi : inMask m i = true) (v : Lanes Nat) (n : Nat) (hn : k + n ≤ 8) :
    (g.writeO k m v n).oread k i n = v[i] % 2 ^ (32 * n) := by
  induction n generalizing g k v with
  | zero => simp [Gang.oread, Nat.mod_one]
  | succ n ih =>
    have hlane : (vget (vget (g.writeO k m v (n + 1)).ofile k) i).toNat = v[i] % 2 ^ 32 := by
      have hkeep (h : Gang) : vget (h.writeO (k + 1) m (v.map (· / 2 ^ 32)) n).ofile k = vget h.ofile k :=
        h.ofile_writeO (k + 1) m _ n (Fin.ofNat 8 k) (by simp [Fin.ofNat]; omega) (by omega)
      simp only [Gang.writeO, hkeep, vget_vset_self, vget_lane, sel_lane hi, map_lane, BitVec.toNat_ofNat]
    rw [Gang.oread, hlane]
    simp only [Gang.writeO, ih _ _ _ (by omega : k + 1 + n ≤ 8), map_lane]
    rw [mod_words]

/-! ### Released registers -/

/-- What a last-read of some lanes makes of a register: a register without a live lane is freed, unless a result is awaited for it. -/
def VReg.released (r : VReg) (m : LaneMask) (awaited : Bool) : Option VReg :=
  if r.live &&& ~~~m = 0 ∧ awaited = false then none else some { r with live := r.live &&& ~~~m }

/-- A release of a released register changes nothing. -/
theorem VReg.released_bind (r : VReg) (m : LaneMask) (awaited : Bool) :
    (r.released m awaited).bind (·.released m awaited) = r.released m awaited := by
  unfold VReg.released
  have hand : r.live &&& ~~~m &&& ~~~m = r.live &&& ~~~m := by rw [BitVec.and_assoc, BitVec.and_self]
  split
  · rfl
  · simp_all

/-- Whether a register awaits a result does not depend on what is mapped, nor on the lanes of the results. -/
theorem Gang.awaits_congr {g h : Gang} (hgranted : g.granted = h.granted) (hpend : g.pend.map Pend.dst = h.pend.map Pend.dst)
    (hbundles : g.bundles = h.bundles) (k : Nat) : g.awaits k = h.awaits k := by
  have hany (g : Gang) : (g.pend.any fun p => p.dst.covers k) = (g.pend.map Pend.dst).any fun d => d.covers k := by rw [List.any_map]; rfl
  unfold Gang.awaits
  rw [hgranted, hbundles, hany, hany, hpend]

theorem Gang.awaits_release (g : Gang) (k : Nat) (m : LaneMask) (n j : Nat) : (g.release k m n).awaits j = g.awaits j := by
  rw [Gang.release_eq]; rfl

theorem Gang.release_succ (g : Gang) (k : Nat) (m : LaneMask) (n : Nat) : g.release k m (n + 1) = (g.release k m 1).release (k + 1) m n := rfl

theorem Gang.rising_release {g : Gang} (k : Nat) (m : LaneMask) (n : Nat) (h : Tab.rising none g.vmap = true) :
    Tab.rising none (g.release k m n).vmap = true := by
  induction n generalizing g k with
  | zero => exact h
  | succ n ih =>
    unfold Gang.release
    refine ih _ ?_
    split
    · exact h
    · dsimp only
      split
      · exact Tab.rising_drop _ h
      · exact Tab.rising_put _ h fun _ e => nomatch e

/-- The first register that a release names is released. -/
theorem Gang.find_release_first {g : Gang} (k : Nat) (m : LaneMask) (h : Tab.rising none g.vmap = true) :
    Tab.find (g.release k m 1).vmap k = (Tab.find g.vmap k).bind fun r => r.released m (g.awaits k) := by
  unfold Gang.release Gang.release
  cases hk : Tab.find g.vmap k with
  | none => exact hk
  | some r =>
    simp only [Option.bind_some, VReg.released, Bool.and_eq_true, decide_eq_true_eq, Bool.not_eq_true']
    split
    · exact Tab.find_drop_self h
    · exact Tab.find_put_self ..

/-- Each register that a release names is released once. -/
theorem Gang.find_release_of_mem {g : Gang} {k n j : Nat} (m : LaneMask) (h : Tab.rising none g.vmap = true) (hk : k ≤ j) (hj : j < k + n) :
    Tab.find (g.release k m n).vmap j = (Tab.find g.vmap j).bind fun r => r.released m (g.awaits j) := by
  induction n generalizing g k with
  | zero => omega
  | succ n ih =>
    rw [Gang.release_succ]
    rcases Nat.eq_or_lt_of_le hk with rfl | hlt
    · rw [Gang.find_release _ (k + 1) m n k (.inl (Nat.lt_succ_self k)), Gang.find_release_first k m h]
    · rw [ih (Gang.rising_release k m 1 h) hlt (by omega), Gang.find_release g k m 1 j (.inr hlt), Gang.awaits_release]

/-- A source with its last-read bit set that reads the vector register j. -/
def Src.lastReads (u : Use) (x : Src) (j : Nat) : Prop :=
  ∃ sl k, u = .src sl ∧ x.opnd = .main k ∧ x.lastRead = true ∧ k.toNat ≠ 255 ∧ k.toNat ≤ j ∧ j < k.toNat + sl.regs

theorem Gang.lastRead_cases (g : Gang) (u : Use) (x : Src) (m : LaneMask) :
    g.lastRead u x m = g ∧ (∀ j, ¬ Src.lastReads u x j) ∨
      ∃ k n, g.lastRead u x m = g.release k m n ∧ ∀ j, Src.lastReads u x j ↔ k ≤ j ∧ j < k + n := by
  unfold Gang.lastRead
  split
  · rename_i sl k hopnd
    split
    · rename_i h
      simp only [Bool.and_eq_true, bne_iff_ne] at h
      refine .inr ⟨_, _, rfl, fun j => ⟨?_, fun hj => ⟨sl, k, rfl, hopnd, h.1, h.2, hj⟩⟩⟩
      rintro ⟨sl, k, ⟨⟩, hopnd', -, -, hj⟩
      cases hopnd.symm.trans hopnd'
      exact hj
    · rename_i h
      refine .inl ⟨rfl, ?_⟩
      rintro j ⟨sl, k, ⟨⟩, hopnd', hlr, hk, -⟩
      cases hopnd.symm.trans hopnd'
      simp [hlr, hk] at h
  · rename_i hno
    refine .inl ⟨rfl, ?_⟩
    rintro j ⟨sl, k, rfl, hopnd, -⟩
    exact hno sl k rfl hopnd

theorem Gang.awaits_lastRead (g : Gang) (u : Use) (x : Src) (m : LaneMask) (j : Nat) : (g.lastRead u x m).awaits j = g.awaits j := by
  rw [Gang.lastRead_eq]; rfl

theorem Gang.rising_lastRead {g : Gang} (u : Use) (x : Src) (m : LaneMask) (h : Tab.rising none g.vmap = true) :
    Tab.rising none (g.lastRead u x m).vmap = true := by
  rcases g.lastRead_cases u x m with ⟨e, -⟩ | ⟨k, n, e, -⟩ <;> rw [e]
  · exact h
  · exact Gang.rising_release k m n h

/-- A source's last-read releases the registers that it reads and no other. -/
theorem Gang.find_lastRead_eq {g : Gang} (u : Use) (x : Src) (m : LaneMask) (j : Nat) (h : Tab.rising none g.vmap = true) [Decidable (Src.lastReads u x j)] :
    Tab.find (g.lastRead u x m).vmap j =
      if Src.lastReads u x j then (Tab.find g.vmap j).bind fun r => r.released m (g.awaits j) else Tab.find g.vmap j := by
  rcases g.lastRead_cases u x m with ⟨e, hno⟩ | ⟨k, n, e, hiff⟩ <;> rw [e]
  · rw [if_neg (hno j)]
  · split
    · rename_i hlast
      obtain ⟨hk, hj⟩ := (hiff j).mp hlast
      exact Gang.find_release_of_mem m h hk hj
    · rename_i hno
      rw [hiff] at hno
      exact Gang.find_release g k m n j (by omega)

/-- A register that some source of an issue last-reads is released once, however many of them do (R28, R42). -/
theorem Ctx.find_releases {c : Ctx} {g : Gang} {u : Use} {y : Src} {n : Nat} (hctrl : c.md.ctrl = false)
    (hreplay : c.g.replaying c.lanes = none) (hmem : (u, y) ∈ [(c.sp.a, c.x.a), (c.sp.b, c.x.b), (c.sp.c, c.x.c)]) (hlast : Src.lastReads u y n)
    (h : Tab.rising none g.vmap = true) :
    Tab.find (c.releases g).vmap n = (Tab.find g.vmap n).bind fun r => r.released c.active (g.awaits n) := by
  classical
  have honce : ((Tab.find g.vmap n).bind fun r => r.released c.active (g.awaits n)).bind (fun r => r.released c.active (g.awaits n)) =
      (Tab.find g.vmap n).bind fun r => r.released c.active (g.awaits n) := by
    cases Tab.find g.vmap n with
    | none => rfl
    | some r => exact r.released_bind ..
  have hsome : Src.lastReads c.sp.a c.x.a n ∨ Src.lastReads c.sp.b c.x.b n ∨ Src.lastReads c.sp.c c.x.c n := by
    simp only [List.mem_cons, Prod.mk.injEq, List.not_mem_nil, or_false] at hmem
    rcases hmem with ⟨rfl, rfl⟩ | ⟨rfl, rfl⟩ | ⟨rfl, rfl⟩
    · exact .inl hlast
    · exact .inr (.inl hlast)
    · exact .inr (.inr hlast)
  have ha := Gang.rising_lastRead c.sp.a c.x.a c.active h
  have hb := Gang.rising_lastRead c.sp.b c.x.b c.active ha
  simp only [Ctx.releases, hctrl, hreplay, Option.isSome_none, Bool.false_and, Bool.or_self, Bool.false_eq_true, if_false, Gang.find_lastRead_eq _ _ _ _ hb,
    Gang.find_lastRead_eq _ _ _ _ ha, Gang.find_lastRead_eq _ _ _ _ h, Gang.awaits_lastRead]
  split <;> split <;> split <;> simp_all

/-! ### The retirement of an instruction with a result -/

/-- The gang of an issue as its destination is written: its windows counted, its last-reads released. -/
def Ctx.beforeWrite (c : Ctx) (b : Gang) : Gang := c.releases (b.countWindow c.lanes)

/-- The gang of an issue with a result as its destination has been written. -/
def Ctx.afterWrite (c : Ctx) (b : Gang) (v : Lanes Nat) : Gang := c.writeNow (c.beforeWrite b) (v.map (· % 2 ^ c.destBits))

theorem Ctx.replay_writeNow (c : Ctx) (g : Gang) (v : Lanes Nat) : (c.writeNow g v).replay = g.replay := by
  unfold Ctx.writeNow
  split
  · rfl
  · dsimp only
    split
    · exact (show _ = ((g.supersede c.destName c.active).writeName _ _ _).replay from rfl).trans (by rw [Gang.writeName_eq]; rfl)
    · rw [Gang.writeName_eq]; rfl

theorem Ctx.replay_afterWrite (c : Ctx) (b : Gang) (v : Lanes Nat) : (c.afterWrite b v).replay = b.replay := by
  rw [Ctx.afterWrite, Ctx.replay_writeNow, Ctx.beforeWrite, Ctx.releases_eq]; rfl

/-- Where no replay is made, an advance puts every lane of the bundle at the next instruction, or where a jump takes it. -/
theorem Gang.pc_advance_of_mem {g : Gang} {lanes active : LaneMask} {next : DWord} {jump : Option (Lanes DWord)} {k : Fin 32}
    (h : g.replaying lanes = none) (hk : inMask lanes k = true) :
    (g.advance lanes active next jump).pc[k] = if inMask active k then (match jump with | some j => j[k] | none => next) else next := by
  simp only [Gang.advance, h, Gang.rebundle, fin_lanesFrom, hk, Bool.not_true, Bool.false_eq_true, if_false]
  cases jump <;> simp

section
variable {c : Ctx} {o : Out} {b : Gang} {v : Lanes Nat} (hreplay : c.g.replaying c.lanes = none) (hdst : o.dst = some v) (hlate : o.late = none)
include hreplay hdst hlate

/-- The files after the retirement of an issue with a result are those after the write of its destination; the flags that it raises are added. -/
theorem Ctx.retireGang_of_value : ∃ granted pc bundles replay, c.retireGang b o =
    { c.afterWrite b v with
        granted, pc, bundles, replay,
        fpflag := lanesFrom fun k => if inMask c.active k then (c.afterWrite b v).fpflag[k] ||| (o.flags[k]).setWidth 32 else (c.afterWrite b v).fpflag[k],
        mflag := lanesFrom fun k => if inMask c.active k then (c.afterWrite b v).mflag[k] ||| (o.mflags[k]).setWidth 32 else (c.afterWrite b v).mflag[k] } := by
  rw [Ctx.retireGang_eq, Gang.advance_eq]
  simp only [hreplay, hlate, Option.isSome_none, Bool.false_eq_true, if_false]
  rw [Ctx.settled_eq]
  simp only [Ctx.written, hdst, hlate, Option.map_some]
  exact ⟨_, _, _, _, rfl⟩

/-- Every lane of the bundle stands at the next instruction, or where a jump takes it. -/
theorem Ctx.pc_retireGang (hb : b.replay = c.g.replay) {k : Fin 32} (hk : inMask c.lanes k = true) :
    (c.retireGang b o).pc[k] = if inMask c.active k then (match o.jump with | some j => j[k] | none => c.next) else c.next := by
  have hsettled : (c.settled (c.beforeWrite b) o).replay = c.g.replay := by
    rw [Ctx.settled_eq]
    simp only [Ctx.written, hdst, hlate, Option.map_some]
    exact (c.replay_afterWrite b v).trans hb
  rw [Ctx.retireGang_eq]
  simp only [hreplay, hlate, Option.isSome_none, Bool.false_eq_true, if_false]
  refine Gang.pc_advance_of_mem ?_ hk
  unfold Gang.replaying at hreplay ⊢
  rw [← hsettled] at hreplay
  exact hreplay

end

/-! ### The destination, by the class of its slot -/

section
variable {c : Ctx} (hreplay : c.g.replaying c.lanes = none)
include hreplay

theorem Ctx.superseded_of_no_replay : c.superseded = false := by simp [Ctx.superseded, hreplay]

variable {sl : Slot} (hslot : c.sp.dst.writeSlot = some sl)
include hslot

theorem Ctx.destName_of_slot : c.destName = dstName sl c.x.dst := by
  simp [Ctx.destName, Ctx.superseded_of_no_replay hreplay, hslot]

theorem Ctx.writesV_of_slot : c.writesV = (sl.cls == .V) := by
  simp [Ctx.writesV, Ctx.superseded_of_no_replay hreplay, hslot]

omit hreplay in
theorem Ctx.destBits_of_slot : c.destBits = if sl.cls = .V then 32 * sl.regs else 128 := by
  simp [Ctx.destBits, hslot]

omit hreplay in
theorem Ctx.writesP_of_slot (h : sl.cls ≠ .P) : c.writesP = false := by
  unfold Ctx.writesP
  unfold Use.writeSlot at hslot
  split at hslot <;> simp_all

end

/-- A destination that is no predicate is written by its name, and a result of class V enters the last-result file. -/
theorem Ctx.writeNow_eq {c : Ctx} (h : c.writesP = false) (g : Gang) (v : Lanes Nat) : c.writeNow g v =
    { (g.supersede c.destName c.active).writeName c.destName c.active v with
        last := if c.writesV then (g.shiftLast c.active v).last else g.last } := by
  have hlast (g : Gang) : (g.writeName c.destName c.active v).last = g.last := by rw [Gang.writeName_eq]
  unfold Ctx.writeNow
  simp only [h, Bool.false_eq_true, if_false]
  split
  · simp only [Gang.shiftLast, hlast]; rfl
  · exact (show _ = { (g.supersede c.destName c.active).writeName c.destName c.active v with last := g.last } by
      rw [← show ((g.supersede c.destName c.active).writeName c.destName c.active v).last = g.last from hlast _])

/-- The gang of an issuer after its own rewrite. -/
theorem State.gangOf_updGangOf {s : State} {w : Issuer} {b : Gang} (f : Gang → Gang) (h : s.gangOf w = some b) :
    (s.updGangOf w f).gangOf w = some (f b) := by
  cases w with
  | gang g lanes => exact (State.gang?_updGang_self ..).trans (congrArg (Option.map f) h)
  | ctrl r =>
    obtain ⟨run, hrun, rfl⟩ := Option.map_eq_some_iff.mp h
    have hdev : ∃ d, s.dev? r.dev = some d := by
      cases hd : s.dev? r.dev with
      | some d => exact ⟨d, rfl⟩
      | none => simp [State.core, hd, Core.idle] at hrun
    obtain ⟨d, hd⟩ := hdev
    change ((s.updCore r _).core r).ctrl.map CtrlRun.gang = _
    rw [State.core_updCore_self _ hd, hrun]
    rfl

theorem State.gangOf_handOver (s : State) (v w : Issuer) : (s.handOver v).gangOf w = s.gangOf w := by
  rw [State.handOver_eq]
  cases w <;> rfl

theorem Ctx.gangOf_leaveFence (c : Ctx) (s : State) (w : Issuer) : (c.leaveFence s).gangOf w = s.gangOf w := by
  cases w with
  | gang g lanes => exact c.gang?_leaveFence s g
  | ctrl r => rfl

/-- What a completed instruction makes of its gang is the gang of its issuer. -/
theorem Ctx.gangOf_finish {c : Ctx} {o : Out} {b : Gang} (h : o.s.gangOf c.w = some b) : (c.finish o).gangOf c.w = some (c.retireGang b o) := by
  unfold Ctx.finish
  rw [State.gangOf_handOver]
  exact State.gangOf_updGangOf _ ((c.gangOf_leaveFence ..).trans h)

/-- Where no chosen bundle of the gang is left, nobody issues after a completed instruction. -/
theorem Ctx.issuer_finish {c : Ctx} {o : Out} (h : o.s.due.find? (Issuer.together c.w) = none) : (c.finish o).issuer = none := by
  have hdue : ((c.leaveFence o.s).updGangOf c.w fun g => c.retireGang g o).due = o.s.due := by cases c.w <;> rfl
  unfold Ctx.finish State.handOver
  rw [hdue, h]

/-! ### What each register file holds -/

section
variable {c : Ctx} {o : Out} {b : Gang} {v : Lanes Nat} {sl : Slot} (hreplay : c.g.replaying c.lanes = none) (hdst : o.dst = some v)
  (hlate : o.late = none) (hslot : c.sp.dst.writeSlot = some sl)
include hreplay hdst hlate hslot

/-- The files after the retirement of a result that is no predicate. -/
theorem Ctx.retireGang_files (hcls : sl.cls ≠ .P) : ∃ g : Gang,
    let w := g.writeName (dstName sl c.x.dst) c.active (v.map (· % 2 ^ if sl.cls = .V then 32 * sl.regs else 128))
    (c.retireGang b o).vmap = w.vmap ∧ (c.retireGang b o).ofile = w.ofile ∧ (c.retireGang b o).sreg = w.sreg ∧ (c.retireGang b o).mom = w.mom := by
  obtain ⟨_, _, _, _, e⟩ := Ctx.retireGang_of_value (b := b) hreplay hdst hlate
  rw [e, Ctx.afterWrite, Ctx.writeNow_eq (Ctx.writesP_of_slot hslot hcls), Ctx.destName_of_slot hreplay hslot, Ctx.destBits_of_slot hslot]
  exact ⟨_, rfl, rfl, rfl, rfl⟩

/-- A vector destination holds the result in every active lane; v255 takes nothing and reads 0 (R22, R24, R41). -/
theorem Ctx.operand_main {n : BitVec 8} (hcls : sl.cls = .V) (hx : c.x.dst = .main n) {k : Fin 32} (hk : inMask c.active k = true) :
    (c.retireGang b o).operand c.md.ctrl sl c.x.dst k = some (if n = 255 then 0 else v[k] % 2 ^ (32 * sl.regs)) := by
  obtain ⟨g, hvmap, -⟩ := Ctx.retireGang_files (b := b) hreplay hdst hlate hslot (by rw [hcls]; decide)
  have h255 : n = 255 ↔ n.toNat = 255 := ⟨fun e => by rw [e]; rfl, fun e => BitVec.eq_of_toNat_eq e⟩
  rw [hx] at hvmap ⊢
  by_cases hn : n.toNat = 255
  · obtain rfl := h255.mpr hn
    simp [Gang.operand, hcls]
  · simp only [dstName, hcls, hn, if_false, if_true] at hvmap
    simp only [Gang.operand, hcls, h255, hn, if_false]
    rw [Gang.vread_congr hvmap, Gang.writeName, Gang.vread_writeV _ _ _ hk, map_lane, Nat.mod_mod]

/-- An operand-file destination holds the result in every active lane. -/
theorem Ctx.operand_file {n : BitVec 8} (hdest : c.destOk) (hcls : sl.cls = .V) (hx : c.x.dst = .file n) {k : Fin 32} (hk : inMask c.active k = true) :
    (c.retireGang b o).operand c.md.ctrl sl c.x.dst k = some (v[k] % 2 ^ (32 * sl.regs)) := by
  obtain ⟨g, -, hofile, -⟩ := Ctx.retireGang_files (b := b) hreplay hdst hlate hslot (by rw [hcls]; decide)
  have hname : c.destName = .oper n.toNat sl.regs := by simp only [Ctx.destName_of_slot hreplay hslot, dstName, hcls, hx]
  rw [hx] at hofile ⊢
  simp only [dstName, hcls, if_true] at hofile
  simp only [Gang.operand, hcls]
  rw [Gang.oread_congr hofile, Gang.writeName, Gang.oread_writeO _ _ hk _ _ (hdest.1 _ _ hname), map_lane, Nat.mod_mod]

/-- A uniform destination holds the result of the lowest active lane. -/
theorem Ctx.sreg_main {n : BitVec 8} (hcls : sl.cls = .S) (hx : c.x.dst = .main n) :
    vget (c.retireGang b o).sreg n.toNat = BitVec.ofNat 64 (vget v (lowest c.active)) := by
  obtain ⟨g, -, -, hsreg, -⟩ := Ctx.retireGang_files (b := b) hreplay hdst hlate hslot (by rw [hcls]; decide)
  simp only [dstName, hcls, hx, reduceCtorEq, if_false, Gang.writeName] at hsreg
  rw [hsreg, vget_vset_self, vget_map, ofNat_mod_word]

/-- A moment destination holds the result in every active lane. -/
theorem Ctx.mom_main {n : BitVec 8} (hcls : sl.cls = .M) (hx : c.x.dst = .main n) {k : Fin 32} (hk : inMask c.active k = true) :
    vget (vget (c.retireGang b o).mom n.toNat) k = BitVec.ofNat 64 v[k] := by
  obtain ⟨g, -, -, -, hmom⟩ := Ctx.retireGang_files (b := b) hreplay hdst hlate hslot (by rw [hcls]; decide)
  simp only [dstName, hcls, hx, reduceCtorEq, if_false, Gang.writeName] at hmom
  rw [hmom, vget_vset_self, vget_lane, sel_lane hk, map_lane, map_lane, ofNat_mod_word]

/-- The last-result file of an active lane takes a result of class V (R29). -/
theorem Ctx.last_retireGang (hcls : sl.cls = .V) {k : Fin 32} (hk : inMask c.active k = true) :
    (c.retireGang b o).last[k] = (BitVec.ofNat 64 (v[k] % 2 ^ (32 * sl.regs)) :: b.last[k]).take 4 := by
  obtain ⟨_, _, _, _, e⟩ := Ctx.retireGang_of_value (b := b) hreplay hdst hlate
  have hlast : (c.beforeWrite b).last = b.last := by rw [Ctx.beforeWrite, Ctx.releases_eq]; rfl
  rw [e, Ctx.afterWrite, Ctx.writeNow_eq (Ctx.writesP_of_slot hslot (by rw [hcls]; decide)), Ctx.writesV_of_slot hreplay hslot,
    Ctx.destBits_of_slot hslot, hcls]
  simp only [beq_self_eq_true, if_true, Gang.shiftLast, hlast, fin_lanesFrom, hk, map_lane]

end

/-- A predicate destination holds in every active lane whether the result is 1 (R22, R23). -/
theorem Gang.pred_writeP (g : Gang) {k : Nat} (hk : k < 15) {m : LaneMask} {i : Fin 32} (hi : inMask m i = true) (v : Lanes Bool) :
    ((g.writeP k m v).pred[i]).getLsbD k = v[i] := by
  simp only [Gang.writeP, fin_lanesFrom, hi, if_true]
  split <;> simp_all

/-- A ready instruction's predicate destination is one that can be written (R22). -/
theorem ready_dst_pred {s : State} {i : Instr} {x : Ops} {c : Ctx} {sl : Slot} {n : BitVec 8} (h : Ready s i x c) (hdst : c.sp.dst = .dst sl)
    (hcls : sl.cls = .P) (hx : c.x.dst = .main n) : n.toNat < 15 := by
  have ho := ready_opnd h
  simp only [opndOk, Bool.and_eq_true] at ho
  have hd := ho.1.1.1
  simpa only [hdst, hx, useOpnd, dstOk, hcls, decide_eq_true_eq] using hd

/-- The flags after the retirement of a result: those that it raises are added in the active lanes, and in those alone (R54, R55, R115). -/
theorem Ctx.flags_retireGang {c : Ctx} {o : Out} {b : Gang} {v : Lanes Nat} (hreplay : c.g.replaying c.lanes = none) (hdst : o.dst = some v)
    (hlate : o.late = none) (hdest : c.destOk) (k : Fin 32) :
    (c.retireGang b o).fpflag[k] = (if inMask c.active k then b.fpflag[k] ||| (o.flags[k]).setWidth 32 else b.fpflag[k]) ∧
    (c.retireGang b o).mflag[k] = if inMask c.active k then b.mflag[k] ||| (o.mflags[k]).setWidth 32 else b.mflag[k] := by
  obtain ⟨_, _, _, _, e⟩ := Ctx.retireGang_of_value (b := b) hreplay hdst hlate
  have hkeeps : c.Keeps b (c.afterWrite b v) := (c.keeps_countWindow b c.lanes).trans ((c.keeps_releases _).trans (c.keeps_writeNow hdest _ _))
  rw [e]
  simp only [fin_lanesFrom, hkeeps.fpflag, hkeeps.mflag, and_self]

/-- A last-read register that the destination does not take is released (R28, R42). -/
theorem Ctx.find_retireGang {c : Ctx} {o : Out} {b : Gang} {v : Lanes Nat} {u : Use} {y : Src} {n : Nat} (hreplay : c.g.replaying c.lanes = none)
    (hdst : o.dst = some v) (hlate : o.late = none) (hctrl : c.md.ctrl = false)
    (hmem : (u, y) ∈ [(c.sp.a, c.x.a), (c.sp.b, c.x.b), (c.sp.c, c.x.c)]) (hlast : Src.lastReads u y n) (hcov : c.destName.covers n = false)
    (hrise : Tab.rising none b.vmap = true) :
    Tab.find (c.retireGang b o).vmap n = (Tab.find b.vmap n).bind fun r => r.released c.active (b.awaits n) := by
  obtain ⟨_, _, _, _, e⟩ := Ctx.retireGang_of_value (b := b) hreplay hdst hlate
  have hwrite (g : Gang) (v : Lanes Nat) : Tab.find (c.writeNow g v).vmap n = Tab.find g.vmap n := by
    by_cases hp : c.writesP = true
    · simp only [Ctx.writeNow, hp, if_true, Gang.writeP]
    · rw [Ctx.writeNow_eq (by simpa using hp)]
      refine Gang.find_writeName _ _ _ _ _ fun k m hd => ?_
      simp only [hd, DstName.covers, Bool.and_eq_false_iff, decide_eq_false_iff_not] at hcov
      omega
  have hawaits : (b.countWindow c.lanes).awaits n = b.awaits n :=
    Gang.awaits_congr (g := b.countWindow c.lanes) (h := b) rfl (by simp [Gang.countWindow, Function.comp_def]) rfl n
  rw [e]
  exact (hwrite _ _).trans ((Ctx.find_releases (g := b.countWindow c.lanes) hctrl hreplay hmem hlast hrise).trans (by rw [hawaits]; rfl))

/-- Settles O53: the gang after the step is the retired gang, and each register file of it is read off the one write of its destination name. -/
theorem destinationsReceive : Obligations.DestinationsReceive := by
  intro s i x c o v b hr hreplay hb hbr hdst hlate
  obtain rfl := ready_x hr
  have hdest := ready_destOk hr
  refine ⟨_, Ctx.gangOf_finish hb, Ctx.issuer_finish, fun sl n hslot hcls hx k hk => ?_, fun sl n hslot hcls hx k hk => ?_,
    fun sl n hslot hcls hx => ?_, fun sl n hslot hcls hx k hk => ?_, fun sl n hsp hcls hx k hk hv => ?pred, fun sl hslot hcls k hk => ?_, fun k => ?fpflag,
    fun k => ?mflag, fun u y sl m n r hctrl hmem hu hopnd hlr hm hle hlt hcov hrise hfind => ?lastRead,
    fun k hk => Ctx.pc_retireGang hreplay hdst hlate hbr hk⟩
  · exact Ctx.operand_main hreplay hdst hlate hslot hcls hx hk
  · exact Ctx.operand_file hreplay hdst hlate hslot hdest hcls hx hk
  · exact Ctx.sreg_main hreplay hdst hlate hslot hcls hx
  · exact Ctx.mom_main hreplay hdst hlate hslot hcls hx hk
  case pred =>
    obtain ⟨_, _, _, _, e⟩ := Ctx.retireGang_of_value (b := b) hreplay hdst hlate
    have hp : c.writesP = true := by simp [Ctx.writesP, hsp, hcls, Ctx.superseded_of_no_replay hreplay]
    rw [e, Ctx.afterWrite, Ctx.writeNow, if_pos hp, hx]
    exact (Gang.pred_writeP _ (ready_dst_pred hr hsp hcls hx) hk _).trans (by
      rw [map_lane, map_lane]
      rcases Nat.le_one_iff_eq_zero_or_eq_one.mp hv with h | h <;> rw [h] <;> simp [Ctx.destBits, hsp, Use.writeSlot, hcls])
  · exact Ctx.last_retireGang hreplay hdst hlate hslot hcls hk
  case fpflag => exact (Ctx.flags_retireGang hreplay hdst hlate hdest k).1
  case mflag => exact (Ctx.flags_retireGang hreplay hdst hlate hdest k).2
  case lastRead =>
    rw [Ctx.find_retireGang hreplay hdst hlate hctrl hmem ⟨sl, m, hu, hopnd, hlr, hm, hle, hlt⟩ hcov hrise, hfind]
    rfl

end Sys2Proof.Machine
end

section
/-! SUPPORT. The arrival of results (R30, R41, R44, R116), the re-formation of a subcore's bundles and the choice of its active set (R235, R241). -/

namespace Sys2Proof.Machine

/-! ### Registers after a sweep -/

theorem Tab.find_filter_of_find {α : Type} {t : Tab α} {n : Nat} {v : α} {f : Nat × α → Bool} (h : Tab.find t n = some v) (hf : f (n, v) = true) :
    Tab.find (t.filter f) n = some v := by
  induction t with
  | nil => cases h
  | cons p t ih =>
    obtain ⟨k, w⟩ := p
    by_cases hk : k = n
    · obtain rfl : w = v := by simpa [Tab.find, hk] using h
      simp [Tab.find, hk, hf]
    · have ht : Tab.find (t.filter f) n = some v := ih (by simpa [Tab.find, hk] using h)
      rw [List.filter_cons]
      split
      · simpa [Tab.find, hk] using ht
      · exact ht

/-- A sweep keeps a register with a live lane (R42). -/
theorem Gang.find_sweep {g : Gang} {n : Nat} {r : VReg} (h : Tab.find g.vmap n = some r) (hr : r.live ≠ 0) : Tab.find g.sweep.vmap n = some r :=
  Tab.find_filter_of_find h (by simp [show r.live ≠ 0#32 from hr])

/-- A sweep keeps what a lane reads. -/
theorem Gang.vlane_sweep {g : Gang} {n i a : Nat} (h : g.vlane false n i = some a) : g.sweep.vlane false n i = some a := by
  unfold Gang.vlane at h
  split at h
  · next r hr =>
    have hlive : r.live ≠ 0 := by
      rintro h0
      simp [h0, inMask] at h
    simpa only [Gang.vlane, Gang.find_sweep hr hlive] using h
  · simp at h

theorem Gang.vread_sweep {g : Gang} {n i k a : Nat} (h : g.vread false n i k = some a) : g.sweep.vread false n i k = some a := by
  induction k generalizing n a with
  | zero => exact h
  | succ k ih =>
    unfold Gang.vread at h ⊢
    split at h
    · next lo hi hlo hhi => rw [Gang.vlane_sweep hlo, ih hhi]; exact h
    · cases h

/-! ### The arrival of a result -/

/-- The outstanding results of a gang after one of them has arrived. -/
def Gang.pendAfter (g : Gang) (p : Pend) : List Pend :=
  let rest := p.lanes &&& ~~~g.landing p
  if rest = 0 then g.pend.filter fun q => q.id != p.id
  else g.pend.map fun q => if q.id = p.id then { p with lanes := rest, flags := Lanes.all 0, come := true } else q

/-- A gang as one of its results is about to arrive: of the results, those that are left. -/
def Gang.arriving (g : Gang) (p : Pend) : Gang := { g with pend := g.pendAfter p }

/-- The gang of an arrival before the sweep: its flags raised, its lanes written. -/
def Gang.landed (g : Gang) (p : Pend) : Gang :=
  { (g.arriving p).writePend p (g.landing p) with
      fpflag := lanesFrom fun i => ((g.arriving p).writePend p (g.landing p)).fpflag[i] ||| (p.flags[i]).setWidth 32 }

theorem Gang.arrive_eq (g : Gang) (p : Pend) : g.arrive p = (g.landed p).sweep := rfl

theorem Gang.writePend_eq (g : Gang) (p : Pend) {m : LaneMask} (hm : m ≠ 0) : g.writePend p m = g.writeName p.dst m (p.vals.map BitVec.toNat) := by
  simp only [Gang.writePend, hm, if_false]

theorem ne_zero_of_inMask {m : LaneMask} {i : Nat} (h : inMask m i = true) : m ≠ 0 := by
  rintro rfl
  simp [inMask] at h

section
variable {q : Gang} {p : Pend}

/-- A vector destination holds the value that has arrived in every lane that lands (R41). -/
theorem Gang.vread_arrive {n j : Nat} {i : Fin 32} (hd : p.dst = .vec n j) (hi : inMask (q.landing p) i = true) :
    (q.arrive p).vread false n i j = some ((p.vals[i]).toNat % 2 ^ (32 * j)) := by
  have h : (q.landed p).vmap = ((q.arriving p).writeV n (q.landing p) (p.vals.map BitVec.toNat) j).vmap := by
    simp only [Gang.landed, Gang.writePend_eq _ _ (ne_zero_of_inMask hi), hd, Gang.writeName]
  rw [Gang.arrive_eq]
  refine Gang.vread_sweep ?_
  rw [Gang.vread_congr h, Gang.vread_writeV _ _ _ hi, map_lane]

/-- An operand-file destination holds the value that has arrived in every lane that lands. -/
theorem Gang.oread_arrive {n j : Nat} {i : Fin 32} (hd : p.dst = .oper n j) (hn : n + j ≤ 8) (hi : inMask (q.landing p) i = true) :
    (q.arrive p).oread n i j = (p.vals[i]).toNat % 2 ^ (32 * j) := by
  have h : (q.arrive p).ofile = ((q.arriving p).writeO n (q.landing p) (p.vals.map BitVec.toNat) j).ofile := by
    rw [Gang.arrive_eq]
    simp only [Gang.sweep, Gang.landed, Gang.writePend_eq _ _ (ne_zero_of_inMask hi), hd, Gang.writeName]
  rw [Gang.oread_congr h, Gang.oread_writeO _ _ hi _ _ hn, map_lane]

/-- A moment destination holds the value that has arrived in every lane that lands. -/
theorem Gang.mom_arrive {n : Nat} {i : Fin 32} (hd : p.dst = .mom n) (hi : inMask (q.landing p) i = true) :
    vget (vget (q.arrive p).mom n) i = (p.vals[i]).setWidth 64 := by
  rw [Gang.arrive_eq]
  simp only [Gang.sweep, Gang.landed, Gang.writePend_eq _ _ (ne_zero_of_inMask hi), hd, Gang.writeName, vget_vset_self]
  rw [vget_lane, sel_lane hi, map_lane, map_lane, BitVec.ofNat_toNat]

/-- A uniform destination holds the value of the lowest lane that lands. -/
theorem Gang.sreg_arrive {n : Nat} (hd : p.dst = .uni n) (hm : q.landing p ≠ 0) :
    vget (q.arrive p).sreg n = (vget p.vals (lowest (q.landing p))).setWidth 64 := by
  rw [Gang.arrive_eq]
  simp only [Gang.sweep, Gang.landed, Gang.writePend_eq _ _ hm, hd, Gang.writeName, vget_vset_self, vget_map, BitVec.ofNat_toNat]

/-- A result with no value missing lands whole when every window of it has ended (R30 rule 1). -/
theorem Gang.landing_of_past (hmiss : p.missing = 0) (hwin : ∀ k : Fin 32, inMask p.lanes k = true → p.wleft[k] = 0) : q.landing p = p.lanes := by
  have hpast : p.past = p.lanes := by
    refine BitVec.eq_of_getLsbD_eq fun k hk => ?_
    have := inMask_maskOf (fun i => inMask p.lanes i && p.wleft[i] == 0) ⟨k, hk⟩
    by_cases hl : inMask p.lanes k = true
    · rw [hwin ⟨k, hk⟩ hl] at this
      simp_all [Pend.past, inMask]
    · simp_all [Pend.past, inMask]
  have hall : p.past ||| q.closing p.lanes = p.lanes := by
    refine BitVec.eq_of_getLsbD_eq fun k hk => ?_
    have := inMask_maskOf (fun i => inMask p.lanes i && (inMask q.exiting i || match q.bundleOf i with
      | some b => (match b.wait with | some w => w.kind == .result && waitsAll q b.lanes w.instr | none => false)
      | none => false)) ⟨k, hk⟩
    rw [BitVec.getLsbD_or, hpast]
    cases hl : p.lanes.getLsbD k
    · rw [Bool.false_or]
      exact this.trans (by simp [inMask, hl])
    · rfl
  simp only [Gang.landing, hmiss, ne_eq, not_true_eq_false, if_false, hall, if_true]

theorem Gang.writePend_fields (g : Gang) (p : Pend) (m : LaneMask) : (g.writePend p m).fpflag = g.fpflag ∧ (g.writePend p m).pend = g.pend := by
  unfold Gang.writePend
  split
  · exact ⟨rfl, rfl⟩
  · rw [Gang.writeName_eq]
    exact ⟨rfl, rfl⟩

/-- The flags of a result that arrives are raised (R116). -/
theorem Gang.fpflag_arrive (k : Fin 32) : (q.arrive p).fpflag[k] = q.fpflag[k] ||| (p.flags[k]).setWidth 32 := by
  rw [Gang.arrive_eq]
  simp only [Gang.sweep, Gang.landed, fin_lanesFrom, (Gang.writePend_fields ..).1]
  rfl

/-- The lanes of a result that do not land stay outstanding, its flags raised (R30, R116). -/
theorem Gang.pend_arrive {e : Pend} (he : e ∈ (q.arrive p).pend) (hid : e.id = p.id) :
    e.lanes = p.lanes &&& ~~~q.landing p ∧ e.lanes ≠ 0 ∧ e.come = true ∧ e.flags = Lanes.all 0 := by
  have he : e ∈ q.pendAfter p := by
    rw [Gang.arrive_eq] at he
    have h : (q.landed p).pend = q.pendAfter p := (Gang.writePend_fields (q.arriving p) p (q.landing p)).2
    exact h ▸ he
  unfold Gang.pendAfter at he
  dsimp only at he
  split at he
  · simp [hid] at he
  · next hrest =>
    obtain ⟨a, -, ha⟩ := List.mem_map.mp he
    split at ha
    · subst ha
      exact ⟨rfl, hrest, rfl, rfl⟩
    · next hne => exact absurd (ha ▸ hid) hne

/-- An arrival keeps a live register that its destination does not take. -/
theorem Gang.find_arrive {n : Nat} {v : VReg} (hn : ∀ k j, p.dst = .vec k j → n < k ∨ k + j ≤ n) (hv : Tab.find q.vmap n = some v) (hlive : v.live ≠ 0) :
    Tab.find (q.arrive p).vmap n = some v := by
  rw [Gang.arrive_eq]
  refine Gang.find_sweep ?_ hlive
  refine Eq.trans ?_ hv
  show Tab.find ((q.arriving p).writePend p (q.landing p)).vmap n = Tab.find (q.arriving p).vmap n
  unfold Gang.writePend
  split
  · rfl
  · exact Gang.find_writeName _ _ _ _ _ hn

end

/-! ### The events of one gang -/

section
variable {s : State} {g : GangRef} {c : Chip} {t : Task} {q : Gang} {core : CoreRef} (hc : s.chip? g.chip = some c)
  (ht : s.task? g.chip g.task = some t) (hq : s.gang? g = some q) (hcore : t.core = some core)

include ht hq hcore in
/-- A result that may arrive does, or is taken as the fault that it traps with. -/
theorem exec_resultArrival {k : Nat} {p : Pend} (hp : q.pend[k]? = some p) (hmay : q.mayArrive p = true) (hw : q.waiting = none) :
    exec (.resultArrival g k) s = .next (if p.traps ≠ 0 then s.takeDeferred g p else (s.updGang g fun q => q.arrive p).settleExits g) := by
  show execResultArrival g k s = _
  simp only [execResultArrival, hq, ht, Option.bind_some, hcore, hp, hmay, hw, Option.isSome_none, Bool.not_true, Bool.or_self, Bool.false_eq_true,
    if_false]
  split <;> rfl

omit g in
/-- A stalled allocation is made when the pool has its registers (R46). -/
theorem exec_registerAllocation {g : GangRef} {lanes : LaneMask} {w : Wait} (hw : s.waiting g lanes .alloc = some w)
    (hpool : s.poolHas (.gang g lanes) w.expect.toNat = true) :
    exec (.registerAllocation g lanes) s = .next (s.updGang g fun q => (q.grant lanes).unwait lanes) := by
  show execRegisterAllocation g lanes s = _
  simp only [execRegisterAllocation, hw, hpool, if_true]

include hc ht hq hcore in
/-- The gang that has been drowsy longest is spilled, or its task ends where its records are more than its area takes (R47). -/
theorem exec_spillComplete (hover : c.overEn = true) (hmay : s.mayspill core (subOf t.base g.gang) (g, q) = true)
    (hshort : s.poolShort (s.residents core (subOf t.base g.gang)) = true)
    (hfirst : ∀ x ∈ s.residents core (subOf t.base g.gang), s.mayspill core (subOf t.base g.gang) x = true → q.moved ≤ x.2.moved) :
    exec (.spillComplete g) s = .next (if (t.spillArea g.gang).2 < q.records.length then s.spillFault g
      else (s.updChip g.chip fun c => c.writeMem (t.spillArea g.gang).1 q.records).updGang g fun q => { q with spilled := true }) := by
  have hall : ((s.residents core (subOf t.base g.gang)).all fun x =>
      !s.mayspill core (subOf t.base g.gang) x || decide (q.moved ≤ x.2.moved)) = true := by
    simp only [List.all_eq_true, Bool.or_eq_true, Bool.not_eq_true', decide_eq_true_eq]
    exact fun x hx => (Bool.eq_false_or_eq_true _).symm.imp id (hfirst x hx)
  show execSpillComplete g s = _
  simp only [execSpillComplete, hc, ht, hq, hcore, hover, hshort, hmay, hall, Bool.and_self, Bool.not_true, Bool.false_eq_true, if_false]
  split <;> rfl

include hc ht hq hcore in
/-- A spilled gang is refilled when the pool has room, or its task ends at a bad record (R47, R48). -/
theorem exec_gangRefill (hsp : q.spilled = true) (hroom : s.poolUsed core (subOf t.base g.gang) + s.owed core (subOf t.base g.gang) g 0 +
      ({ q with spilled := false }).held (s.loose c core (subOf t.base g.gang)) ≤ 2048) :
    exec (.gangRefill g) s = .next (match readRecords (Mem.bytes c.mem (t.spillArea g.gang).1 (t.spillArea g.gang).2) 512
      { q with vmap := [], spilled := false } with | some r => s.updGang g fun _ => r | none => s.spillFault g) := by
  show execGangRefill g s = _
  simp only [execGangRefill, hc, ht, hq, hcore, hsp, Nat.not_lt.mpr hroom, Bool.not_true, Bool.false_or, decide_false, Bool.false_eq_true, if_false]
  split <;> simp_all

include hc hq in
/-- A gang that waits for a frame takes the lowest that is free (R399). -/
theorem exec_trapEntry_of_frame {record : List Byte} {repl : List (Lanes (BitVec 128))} {n : Nat} (hw : q.waiting = some (record, repl))
    (hn : c.trap.freeFrame = some n) (hen : c.trap.en = true) :
    exec (.trapEntry g) s = .next (((s.forget g.chip g.task).enterHandler g record repl n).finishLeaving g.chip) := by
  show execTrapEntry g s = _
  simp only [execTrapEntry, hc, hq, hw, hn, hen]

include hc hq in
/-- The task of a gang that waits for a frame ends where traps are off by then (R402). -/
theorem exec_trapEntry_of_off {record : List Byte} {repl : List (Lanes (BitVec 128))} (hw : q.waiting = some (record, repl)) (hen : c.trap.en = false) :
    exec (.trapEntry g) s =
      .next ((s.endTask g.chip g.task (record.take 2 ++ [record.getD 2 0 ||| 8] ++ record.drop 3)).finishLeaving g.chip) := by
  show execTrapEntry g s = _
  simp only [execTrapEntry, hc, hq, hw, hen]

end

end Sys2Proof.Machine
end

section
/-! SUPPORT. The re-formation of a subcore's bundles and the choice of its active set (R235, R241): gangs that differ only in when they moved and
whether they yielded, the members of a set that gangs enter, and the order in which gangs wait. -/

namespace Sys2Proof.Machine

/-! ### The entries of a table that is rewritten -/

theorem Tab.mem_of_find {α : Type} {t : Tab α} {n : Nat} {a : α} (h : Tab.find t n = some a) : (n, a) ∈ t := by
  induction t with
  | nil => cases h
  | cons p t ih =>
    obtain ⟨k, v⟩ := p
    by_cases hk : k = n
    · simp_all [Tab.find]
    · exact List.mem_cons_of_mem _ (ih (by simpa [Tab.find, hk] using h))

theorem Tab.mem_put_self {α : Type} (t : Tab α) (n : Nat) (a : α) : (n, a) ∈ Tab.put t n a := Tab.mem_of_find (Tab.find_put_self t n a)

theorem Tab.eq_or_mem_of_mem_put {α : Type} {t : Tab α} {n : Nat} {a : α} {x : Nat × α} (h : x ∈ Tab.put t n a) : x = (n, a) ∨ x ∈ t := by
  induction t with
  | nil => exact .inl (List.mem_singleton.mp h)
  | cons p t ih =>
    unfold Tab.put at h
    split at h
    · exact List.mem_cons.mp h
    · split at h
      · exact (List.mem_cons.mp h).imp_right (List.mem_cons_of_mem _)
      · rcases List.mem_cons.mp h with rfl | h
        · exact .inr (List.mem_cons_self ..)
        · exact (ih h).imp_right (List.mem_cons_of_mem _)

/-- A write keeps every entry but the one that is found at its key. -/
theorem Tab.find_or_mem_put {α : Type} {t : Tab α} {n : Nat} {a : α} {x : Nat × α} (h : x ∈ t) :
    Tab.find t n = some x.2 ∧ n = x.1 ∨ x ∈ Tab.put t n a := by
  induction t with
  | nil => cases h
  | cons p t ih =>
    obtain ⟨k, v⟩ := p
    by_cases hlt : n < k
    · exact .inr (by rw [Tab.put, if_pos hlt]; exact List.mem_cons_of_mem _ h)
    · by_cases hk : n = k
      · rw [Tab.put, if_neg hlt, if_pos hk]
        rcases List.mem_cons.mp h with rfl | h
        · exact .inl ⟨by simp [Tab.find, hk], hk⟩
        · exact .inr (List.mem_cons_of_mem _ h)
      · rw [Tab.put, if_neg hlt, if_neg hk]
        rcases List.mem_cons.mp h with rfl | h
        · exact .inr (List.mem_cons_self ..)
        · refine (ih h).imp (fun e => ?_) (List.mem_cons_of_mem _)
          rwa [Tab.find, if_neg (Ne.symm hk)]

/-- Every entry of each of two tables has one of the other at the same key that corresponds to it. -/
def Tab.Like {α : Type} (R : α → α → Prop) (t u : Tab α) : Prop :=
  (∀ x ∈ t, ∃ y ∈ u, y.1 = x.1 ∧ R x.2 y.2) ∧ ∀ y ∈ u, ∃ x ∈ t, y.1 = x.1 ∧ R x.2 y.2

theorem Tab.Like.refl {α : Type} {R : α → α → Prop} (hR : ∀ a, R a a) (t : Tab α) : Tab.Like R t t :=
  ⟨fun x hx => ⟨x, hx, rfl, hR _⟩, fun x hx => ⟨x, hx, rfl, hR _⟩⟩

/-- A rewrite within a relation leaves a table whose entries correspond, whatever the order of its keys. -/
theorem Tab.like_upd {α : Type} {R : α → α → Prop} (hR : ∀ a, R a a) {f : α → α} (hf : ∀ a, R a (f a)) (t : Tab α) (n : Nat) :
    Tab.Like R t (Tab.upd t n f) := by
  unfold Tab.upd
  split
  · next a ha =>
    refine ⟨fun x hx => ?_, fun y hy => ?_⟩
    · rcases Tab.find_or_mem_put (n := n) (a := f a) hx with ⟨hfind, rfl⟩ | hmem
      · obtain rfl : a = x.2 := by simpa [ha] using hfind
        exact ⟨_, Tab.mem_put_self .., rfl, hf _⟩
      · exact ⟨x, hmem, rfl, hR _⟩
    · rcases Tab.eq_or_mem_of_mem_put hy with rfl | hmem
      · exact ⟨_, Tab.mem_of_find ha, rfl, hf a⟩
      · exact ⟨y, hmem, rfl, hR _⟩
  · exact Tab.Like.refl hR t

/-! ### Gangs that differ in when they moved and whether they yielded -/

/-- A gang is another but for when it moved and whether it has yielded. -/
def Gang.Reseated (q r : Gang) : Prop := { q with moved := r.moved, yielded := r.yielded } = r

theorem Gang.Reseated.refl (q : Gang) : q.Reseated q := rfl

theorem Gang.Reseated.trans {p q r : Gang} (a : p.Reseated q) (b : q.Reseated r) : p.Reseated r := by
  unfold Gang.Reseated at *
  rw [← b, ← a]

theorem Gang.Reseated.eligible {q r : Gang} (h : q.Reseated r) : r.eligible = q.eligible := by
  rw [← h]; rfl

theorem Gang.Reseated.retired {q r : Gang} (h : q.Reseated r) : r.retired = q.retired := by
  rw [← h]; rfl

/-- A task stands where another does, and their gangs correspond. -/
def Task.Reseated (t u : Task) : Prop := u.core = t.core ∧ u.base = t.base ∧ Tab.Like Gang.Reseated t.gangs u.gangs

theorem Task.Reseated.refl (t : Task) : t.Reseated t := ⟨rfl, rfl, Tab.Like.refl Gang.Reseated.refl _⟩

/-- The tasks of two chips correspond. -/
def Chip.Reseated (c d : Chip) : Prop := Tab.Like Task.Reseated c.tasks d.tasks

theorem Chip.Reseated.refl (c : Chip) : c.Reseated c := Tab.Like.refl Task.Reseated.refl _

theorem State.mem_residents {s : State} {core : CoreRef} {sub : Nat} {x : GangRef × Gang} : x ∈ s.residents core sub ↔
    ∃ c ∈ s.chips, ∃ t ∈ c.2.tasks, ∃ g ∈ t.2.gangs, t.2.core = some core ∧ subOf t.2.base g.1 = sub ∧ g.2.retired = false ∧
      x = (⟨c.1, t.1, g.1⟩, g.2) := by
  simp only [State.residents, State.tasksOn, List.mem_flatMap, List.mem_map, List.mem_filter, Bool.and_eq_true, beq_iff_eq, Bool.not_eq_true']
  constructor
  · rintro ⟨_, ⟨c, hc, t, ⟨ht, hcore⟩, rfl⟩, g, ⟨hg, hsub, hret⟩, rfl⟩
    exact ⟨c, hc, t, ht, g, hg, hcore, hsub, hret, rfl⟩
  · rintro ⟨c, hc, t, ht, g, hg, hcore, hsub, hret, rfl⟩
    exact ⟨_, ⟨c, hc, t, ⟨ht, hcore⟩, rfl⟩, g, ⟨hg, hsub, hret⟩, rfl⟩

/-- A state is another but for when gangs moved and whether they yielded, and nothing outside its chips differs. -/
structure State.Reseated (s t : State) : Prop where
  devs : t.devs = s.devs
  hostMem : t.hostMem = s.hostMem
  packets : t.packets = s.packets
  gang : ∀ g q, s.gang? g = some q → ∃ r, t.gang? g = some r ∧ q.Reseated r
  stays : ∀ core sub, ∀ x ∈ s.residents core sub, ∃ y ∈ t.residents core sub, y.1 = x.1 ∧ x.2.Reseated y.2
  stood : ∀ core sub, ∀ y ∈ t.residents core sub, ∃ x ∈ s.residents core sub, y.1 = x.1 ∧ x.2.Reseated y.2

theorem State.Reseated.refl (s : State) : s.Reseated s :=
  ⟨rfl, rfl, rfl, fun _ q h => ⟨q, h, .refl q⟩, fun _ _ x h => ⟨x, h, rfl, .refl _⟩, fun _ _ x h => ⟨x, h, rfl, .refl _⟩⟩

theorem State.Reseated.trans {s t u : State} (a : s.Reseated t) (b : t.Reseated u) : s.Reseated u where
  devs := b.devs.trans a.devs
  hostMem := b.hostMem.trans a.hostMem
  packets := b.packets.trans a.packets
  gang g q h := by
    obtain ⟨r, hr, hqr⟩ := a.gang g q h
    obtain ⟨p, hp, hrp⟩ := b.gang g r hr
    exact ⟨p, hp, hqr.trans hrp⟩
  stays core sub x hx := by
    obtain ⟨y, hy, hxy, rxy⟩ := a.stays core sub x hx
    obtain ⟨z, hz, hyz, ryz⟩ := b.stays core sub y hy
    exact ⟨z, hz, hyz.trans hxy, rxy.trans ryz⟩
  stood core sub z hz := by
    obtain ⟨y, hy, hyz, ryz⟩ := b.stood core sub z hz
    obtain ⟨x, hx, hxy, rxy⟩ := a.stood core sub y hy
    exact ⟨x, hx, hyz.trans hxy, rxy.trans ryz⟩

/-- The residents of chips that correspond do. -/
theorem State.residents_of_like {s t : State} (h : Tab.Like Chip.Reseated s.chips t.chips) (core : CoreRef) (sub : Nat) :
    (∀ x ∈ s.residents core sub, ∃ y ∈ t.residents core sub, y.1 = x.1 ∧ x.2.Reseated y.2) ∧
    ∀ y ∈ t.residents core sub, ∃ x ∈ s.residents core sub, y.1 = x.1 ∧ x.2.Reseated y.2 := by
  constructor
  · intro x hx
    obtain ⟨c, hc, t, ht, g, hg, hcore, hsub, hret, rfl⟩ := State.mem_residents.mp hx
    obtain ⟨c', hc', ec, hcc⟩ := h.1 c hc
    obtain ⟨t', ht', et, htcore, htbase, hgangs⟩ := hcc.1 t ht
    obtain ⟨g', hg', eg, hgg⟩ := hgangs.1 g hg
    exact ⟨_, State.mem_residents.mpr ⟨c', hc', t', ht', g', hg', htcore.trans hcore, by rw [htbase, eg, hsub], hgg.retired.trans hret, rfl⟩,
      by rw [ec, et, eg], hgg⟩
  · intro y hy
    obtain ⟨c', hc', t', ht', g', hg', hcore, hsub, hret, rfl⟩ := State.mem_residents.mp hy
    obtain ⟨c, hc, ec, hcc⟩ := h.2 c' hc'
    obtain ⟨t, ht, et, htcore, htbase, hgangs⟩ := hcc.2 t' ht'
    obtain ⟨g, hg, eg, hgg⟩ := hgangs.2 g' hg'
    exact ⟨_, State.mem_residents.mpr ⟨c, hc, t, ht, g, hg, htcore.symm.trans hcore, by rw [← htbase, ← eg, hsub], hgg.retired.symm.trans hret, rfl⟩,
      by rw [ec, et, eg], hgg⟩

theorem State.reseated_updGang (s : State) (g : GangRef) {f : Gang → Gang} (hf : ∀ q : Gang, q.Reseated (f q)) : s.Reseated (s.updGang g f) := by
  let gangs (t : Task) : Task := { t with gangs := Tab.upd t.gangs g.gang f }
  let tasks (c : Chip) : Chip := { c with tasks := Tab.upd c.tasks g.task gangs }
  have htask (t : Task) : t.Reseated (gangs t) := ⟨rfl, rfl, Tab.like_upd Gang.Reseated.refl hf ..⟩
  have hchip (c : Chip) : c.Reseated (tasks c) := Tab.like_upd Task.Reseated.refl htask ..
  have hlike : Tab.Like Chip.Reseated s.chips (s.updGang g f).chips := Tab.like_upd Chip.Reseated.refl hchip ..
  refine ⟨rfl, rfl, rfl, fun h q hq => ?_, fun core sub => (State.residents_of_like hlike core sub).1,
    fun core sub => (State.residents_of_like hlike core sub).2⟩
  rw [State.gang?_updGang, hq]
  split
  · exact ⟨_, rfl, hf q⟩
  · exact ⟨q, rfl, .refl q⟩

theorem State.reseated_foldl (l : List GangRef) {f : Gang → Gang} (hf : ∀ q : Gang, q.Reseated (f q)) (s : State) :
    s.Reseated (l.foldl (fun s g => s.updGang g f) s) := by
  induction l generalizing s with
  | nil => exact .refl s
  | cons g l ih => exact (s.reseated_updGang g hf).trans (ih _)

/-! ### The re-formation of the gangs of a list -/

/-- The gangs of a list re-formed, one after the other. -/
def State.reformed (s : State) (l : List (GangRef × Gang)) : State := l.foldl (fun s x => s.updGang x.1 Gang.reform) s

theorem State.reformed_keeps (s : State) (l : List (GangRef × Gang)) :
    (s.reformed l).devs = s.devs ∧ (s.reformed l).hostMem = s.hostMem ∧ (s.reformed l).packets = s.packets := by
  induction l generalizing s with
  | nil => exact ⟨rfl, rfl, rfl⟩
  | cons x l ih => exact ih (s.updGang x.1 Gang.reform)

/-- A gang is re-formed as often as it stands in the list. -/
theorem State.gang?_reformed (s : State) (l : List (GangRef × Gang)) (g : GangRef) :
    (s.reformed l).gang? g = (s.gang? g).map Gang.reform^[(l.filter fun x => x.1 == g).length] := by
  induction l generalizing s with
  | nil => simp [State.reformed]
  | cons x l ih =>
    refine (ih (s.updGang x.1 Gang.reform)).trans ?_
    rw [State.gang?_updGang, List.filter_cons]
    by_cases hx : x.1 = g
    · simp [hx, Function.comp_def]
    · simp [hx]

/-! ### The order in which gangs wait -/

theorem waitOrder_perm (x : GangRef × Gang) (l : List (GangRef × Gang)) : (waitOrder x l).Perm (x :: l) := by
  induction l with
  | nil => exact .refl _
  | cons y l ih =>
    have hlater : (y :: waitOrder x l).Perm (x :: y :: l) := (ih.cons y).trans (.swap x y l)
    unfold waitOrder
    split <;> split
    · exact .refl _
    · exact hlater
    · exact .refl _
    · exact hlater

/-- A queue has the gangs of a list and no others. -/
theorem mem_foldl_waitOrder {l : List (GangRef × Gang)} {x : GangRef × Gang} : x ∈ l.foldl (fun l x => waitOrder x l) [] ↔ x ∈ l := by
  have hperm (l acc : List (GangRef × Gang)) : (l.foldl (fun l x => waitOrder x l) acc).Perm (l.reverse ++ acc) := by
    induction l generalizing acc with
    | nil => exact .refl _
    | cons y l ih =>
      refine (ih _).trans ?_
      rw [List.reverse_cons, List.append_assoc]
      exact (waitOrder_perm y acc).append_left _
  simpa using (hperm l []).mem_iff (a := x)

/-! ### The members of an active set -/

theorem mem_iff_vget {α : Type} {n : Nat} [NeZero n] {v : Vector α n} {a : α} : a ∈ v ↔ ∃ j, vget v j = a := by
  rw [Vector.mem_iff_getElem]
  constructor
  · rintro ⟨i, hi, rfl⟩
    exact ⟨i, by simp [vget, Nat.mod_eq_of_lt hi]⟩
  · rintro ⟨j, rfl⟩
    exact ⟨_, (Fin.ofNat n j).isLt, rfl⟩

/-- The free places of an active set. -/
def vacancies (a : Vector (Option GangRef) 4) : Nat := (a.toList.filter Option.isNone).length

theorem vacancies_eq_zero {a : Vector (Option GangRef) 4} (h : none ∉ a) : vacancies a = 0 := by
  simp only [vacancies, List.length_eq_zero_iff, List.filter_eq_nil_iff]
  intro o ho hnone
  obtain rfl : o = none := Option.isNone_iff_eq_none.mp hnone
  exact h (by simpa using ho)

theorem vacancies_set {a : Vector (Option GangRef) 4} {k : Nat} (hk : k < 4) (h : a[k] = none) (g : GangRef) :
    vacancies (a.set k (some g)) + 1 = vacancies a := by
  have hpos : 0 < a.toList.countP Option.isNone := List.countP_pos_iff.mpr ⟨none, by simp [← h], rfl⟩
  simp only [vacancies, ← List.countP_eq_length_filter, Vector.toList_set]
  rw [List.countP_set (by simp [hk])]
  simp only [Vector.getElem_toList, h, Option.isNone_none, Option.isNone_some, if_true, Bool.false_eq_true, if_false]
  omega

/-- A gang enters a set with a free place, and no other set. -/
theorem enterSet_cases (a : Vector (Option GangRef) 4) (g : GangRef) :
    enterSet a g = a ∧ none ∉ a ∨ ∃ k, ∃ hk : k < 4, a[k] = none ∧ enterSet a g = a.set k (some g) := by
  unfold enterSet
  split
  · next k hk =>
    have hlt : k < 4 := List.mem_range.mp (List.mem_of_find?_eq_some hk)
    have hnone : (vget a k).isNone = true := by simpa using List.find?_some hk
    refine .inr ⟨k, hlt, ?_, ?_⟩
    · simpa [vget, Nat.mod_eq_of_lt hlt] using hnone
    · simp [vset, Nat.mod_eq_of_lt hlt]
  · next hk =>
    refine .inl ⟨rfl, fun hmem => ?_⟩
    obtain ⟨j, hj, hnone⟩ := Vector.mem_iff_getElem.mp hmem
    have := List.find?_eq_none.mp hk j (List.mem_range.mpr hj)
    simp [vget, Nat.mod_eq_of_lt hj, hnone] at this

theorem mem_enterSet_of_mem {a : Vector (Option GangRef) 4} {g h : GangRef} (hmem : some h ∈ a) : some h ∈ enterSet a g := by
  rcases enterSet_cases a g with ⟨e, -⟩ | ⟨k, hk, hnone, e⟩
  · rwa [e]
  · obtain ⟨j, hj, hjh⟩ := Vector.mem_iff_getElem.mp hmem
    rw [e, Vector.mem_iff_getElem]
    refine ⟨j, hj, ?_⟩
    rw [Vector.getElem_set_ne _ _ (fun ekj => by subst ekj; simp [hnone] at hjh), hjh]

theorem mem_of_mem_enterSet {a : Vector (Option GangRef) 4} {g h : GangRef} (hmem : some h ∈ enterSet a g) : some h ∈ a ∨ h = g := by
  rcases enterSet_cases a g with ⟨e, -⟩ | ⟨k, hk, -, e⟩
  · exact .inl (e ▸ hmem)
  · rw [e] at hmem
    exact (Vector.mem_or_eq_of_mem_set hmem).imp_right fun e => Option.some.inj e

theorem mem_of_mem_foldl_enterSet {l : List GangRef} {a : Vector (Option GangRef) 4} {h : GangRef} (hmem : some h ∈ l.foldl enterSet a) :
    some h ∈ a ∨ h ∈ l := by
  induction l generalizing a with
  | nil => exact .inl hmem
  | cons g l ih =>
    rcases ih hmem with hmem | hmem
    · exact (mem_of_mem_enterSet hmem).imp_right fun e => by rw [e]; exact List.mem_cons_self ..
    · exact .inr (List.mem_cons_of_mem _ hmem)

theorem mem_foldl_enterSet_of_mem {l : List GangRef} {a : Vector (Option GangRef) 4} {h : GangRef} (hmem : some h ∈ a) : some h ∈ l.foldl enterSet a := by
  induction l generalizing a with
  | nil => exact hmem
  | cons g l ih => exact ih (mem_enterSet_of_mem hmem)

/-- Where a place is free after gangs have entered, all of them have, and there were more places than gangs. -/
theorem foldl_enterSet_of_vacancy {l : List GangRef} {a : Vector (Option GangRef) 4} (h : none ∈ l.foldl enterSet a) :
    l.length < vacancies a ∧ ∀ g ∈ l, some g ∈ l.foldl enterSet a := by
  induction l generalizing a with
  | nil =>
    refine ⟨List.length_pos_of_mem (a := none) ?_, fun _ hg => nomatch hg⟩
    exact List.mem_filter.mpr ⟨by simpa using h, rfl⟩
  | cons g l ih =>
    obtain ⟨hlen, hall⟩ := ih h
    rcases enterSet_cases a g with ⟨e, hfull⟩ | ⟨k, hk, hnone, e⟩
    · rw [e, vacancies_eq_zero hfull] at hlen
      exact absurd hlen (Nat.not_lt_zero _)
    · have hg : some g ∈ enterSet a g := e ▸ Vector.mem_set ..
      refine ⟨?_, List.forall_mem_cons.mpr ⟨mem_foldl_enterSet_of_mem (l := l) hg, hall⟩⟩
      rw [e] at hlen
      have := vacancies_set hk hnone g
      simp only [List.length_cons]
      omega

/-- The members that stay may be in the set (R241). -/
theorem State.eligible_of_mem_stayers {s : State} {a : Vector (Option GangRef) 4} {gs : List (GangRef × Gang)} {now : Nat} {g : GangRef}
    (h : some g ∈ s.stayers a gs now) : ∃ x ∈ gs, x.1 = g ∧ x.2.eligible = true := by
  have hkeep (f : GangRef → Bool) (a : Vector (Option GangRef) 4)
      (h : some g ∈ a.map fun g => match g with | some r => if f r then some r else none | none => none) : some g ∈ a ∧ f g = true := by
    obtain ⟨o, ho, e⟩ := Vector.mem_map.mp h
    split at e
    · split at e
      · cases e; exact ⟨ho, ‹_›⟩
      · cases e
    · cases e
  have hokay := (hkeep _ _ (hkeep _ _ h).1).2
  simp only [Bool.and_eq_true, List.any_eq_true, beq_iff_eq] at hokay
  exact hokay.1

/-! ### The choice of an active set -/

/-- The members of a subcore's active set that stay once its gangs are formed anew. -/
def State.staying (s : State) (core : CoreRef) (sub : Nat) (now : Nat) : Vector (Option GangRef) 4 :=
  s.stayers (vget (s.core core).subs sub).active (s.residents core sub) now

/-- The gangs outside a set that may be in it, in the order in which they wait. -/
def State.queueFor (s : State) (core : CoreRef) (sub : Nat) (stay : Vector (Option GangRef) 4) : List (GangRef × Gang) :=
  ((s.residents core sub).filter fun x => x.2.eligible && !stay.contains (some x.1)).foldl (fun l x => waitOrder x l) []

theorem State.mem_queueFor {s : State} {core : CoreRef} {sub : Nat} {stay : Vector (Option GangRef) 4} {x : GangRef × Gang} :
    x ∈ s.queueFor core sub stay ↔ x ∈ s.residents core sub ∧ x.2.eligible = true ∧ some x.1 ∉ stay := by
  rw [State.queueFor, mem_foldl_waitOrder, List.mem_filter]
  simp

/-- The gangs that enter a set: as many of those that wait as it has places. -/
def State.entering (s : State) (core : CoreRef) (sub : Nat) (stay : Vector (Option GangRef) 4) : List GangRef :=
  ((s.queueFor core sub stay).take (vacancies stay)).map Prod.fst

/-- A subcore's members that do not stay have left its active set at a time, and those that stay have not yielded. -/
def State.departed (s : State) (core : CoreRef) (sub : Nat) (now : Nat) : State :=
  let stay := s.staying core sub now
  let left := ((vget (s.core core).subs sub).active.toList.filterMap id).filter fun g => !stay.contains (some g)
  (stay.toList.filterMap id).foldl (fun s g => s.updGang g fun q => { q with yielded := false })
    (left.foldl (fun s g => s.updGang g fun q => { q with moved := now }) s)

/-- Gangs have entered an active set at a time. -/
def State.entered (s : State) (l : List GangRef) (now : Nat) : State :=
  l.foldl (fun s g => s.updGang g fun q => { q with moved := now, yielded := false }) s

theorem State.reseated_departed (s : State) (core : CoreRef) (sub : Nat) (now : Nat) : s.Reseated (s.departed core sub now) := by
  refine (State.reseated_foldl _ ?_ _).trans (State.reseated_foldl _ ?_ _)
  all_goals exact fun _ => rfl

theorem State.reseated_entered (s : State) (l : List GangRef) (now : Nat) : s.Reseated (s.entered l now) := by
  refine State.reseated_foldl _ ?_ _
  exact fun _ => rfl

/-- A re-formation: the gangs are formed anew, some leave the active set, and others enter it. -/
theorem exec_bundleReformation {s : State} {core : CoreRef} {sub : Nat} (hcyc : s.cycle core % 4 = 0) (hsub : sub ≤ 3) :
    let now := s.cycle core
    let formed := s.reformed (s.residents core sub)
    let stay := formed.staying core sub now
    let enter := (formed.departed core sub now).entering core sub stay
    exec (.bundleReformation core sub) s = .next (((formed.departed core sub now).entered enter now).updCore core fun k =>
      { k with subs := vset k.subs sub { vget k.subs sub with active := enter.foldl enterSet stay } }) := by
  have hguard : (decide (s.cycle core % 4 ≠ 0) || decide (3 < sub)) = false := by simp [hcyc, hsub]
  show execBundleReformation core sub s = _
  unfold execBundleReformation
  dsimp only
  rw [hguard]
  rfl

section
variable {f u : State} {core : CoreRef} {sub : Nat} {now : Nat} (hu : f.Reseated u)
include hu

/-- Every member of the new set may be in it. -/
theorem State.eligible_of_mem_set {g : GangRef} (h : some g ∈ (u.entering core sub (f.staying core sub now)).foldl enterSet (f.staying core sub now)) :
    ∃ q, (g, q) ∈ f.residents core sub ∧ q.eligible = true := by
  rcases mem_of_mem_foldl_enterSet h with hstay | henter
  · obtain ⟨⟨_, q⟩, hx, rfl, he⟩ := State.eligible_of_mem_stayers hstay
    exact ⟨q, hx, he⟩
  · obtain ⟨y, hy, rfl⟩ := List.mem_map.mp henter
    obtain ⟨hres, he, -⟩ := State.mem_queueFor.mp (List.mem_of_mem_take hy)
    obtain ⟨⟨_, q⟩, hx, exy, hseat⟩ := hu.stood core sub y hres
    exact ⟨q, exy ▸ hx, hseat.eligible ▸ he⟩

/-- With a place free in the new set, no gang that may be in it is outside. -/
theorem State.mem_set_of_vacancy (h : none ∈ (u.entering core sub (f.staying core sub now)).foldl enterSet (f.staying core sub now))
    {x : GangRef × Gang} (hx : x ∈ f.residents core sub) (he : x.2.eligible = true) :
    some x.1 ∈ (u.entering core sub (f.staying core sub now)).foldl enterSet (f.staying core sub now) := by
  obtain ⟨hlen, hall⟩ := foldl_enterSet_of_vacancy h
  by_cases hstay : some x.1 ∈ f.staying core sub now
  · exact mem_foldl_enterSet_of_mem hstay
  · obtain ⟨y, hy, exy, hseat⟩ := hu.stays core sub x hx
    have hqueue : y ∈ u.queueFor core sub (f.staying core sub now) :=
      State.mem_queueFor.mpr ⟨hy, hseat.eligible.trans he, exy ▸ hstay⟩
    have hshort : (u.queueFor core sub (f.staying core sub now)).length ≤ vacancies (f.staying core sub now) := by
      simp only [State.entering, List.length_map, List.length_take] at hlen
      omega
    refine hall _ (exy ▸ List.mem_map_of_mem ?_)
    rwa [List.take_of_length_le hshort]

end

/-- Settles O33: an arrival is one write of the result's name and a sweep, each event of the pool and of a waiting gang is a branch of its own
definition, and a re-formation changes gangs by `Gang.reform` and their place in the schedule alone, its set filled from those that wait. -/
theorem resultsAndPool : Obligations.ResultsAndPool := by
  constructor
  · intro s g c t q core hc ht hq hcore
    refine ⟨fun k p hp hmay hw => exec_resultArrival ht hq hcore hp hmay hw, fun p _ => ⟨fun n j i hd hi => Gang.vread_arrive hd hi,
        fun n j i hd hn hi => Gang.oread_arrive hd hn hi, fun n i hd _ hi => Gang.mom_arrive hd hi, fun n hd _ hm => Gang.sreg_arrive hd hm,
        Gang.landing_of_past, Gang.fpflag_arrive, fun e => Gang.pend_arrive, fun n hn v => Gang.find_arrive hn⟩,
      fun lanes w => exec_registerAllocation, fun hover hmay hshort hfirst => ⟨fun hle => ?_, fun hlt => ?_⟩,
      fun hsp hroom => ⟨fun r hr => ?_, fun hr => ?_⟩,
      fun record repl hw => ⟨fun n hn hen => exec_trapEntry_of_frame hc hq hw hn hen, exec_trapEntry_of_off hc hq hw⟩⟩
    · rw [exec_spillComplete hc ht hq hcore hover hmay hshort hfirst, if_neg (Nat.not_lt.mpr hle)]
    · rw [exec_spillComplete hc ht hq hcore hover hmay hshort hfirst, if_pos hlt]
    · rw [exec_gangRefill hc ht hq hcore hsp hroom, hr]
    · rw [exec_gangRefill hc ht hq hcore hsp hroom, hr]
  · intro s core sub d hd hcyc hsub
    have hexec := exec_bundleReformation hcyc hsub
    obtain ⟨hdevs, hhost, hpackets⟩ := s.reformed_keeps (s.residents core sub)
    have hu := (s.reformed (s.residents core sub)).reseated_departed core sub (s.cycle core)
    have hfv enter := hu.trans (State.reseated_entered _ enter (s.cycle core))
    have hdev enter := (congrArg (Tab.find · core.dev) ((hfv enter).devs.trans hdevs)).trans hd
    refine ⟨_, hexec, (hfv _).hostMem.trans hhost, (hfv _).packets.trans hpackets, fun g q hq => ?_, fun j g hj => ?_, fun ⟨j, hj⟩ x hx he => ?_⟩
    · exact (hfv _).gang g _ (by rw [State.gang?_reformed, hq]; rfl)
    all_goals simp only [State.core_updCore_self _ (hdev _), vget_vset_self] at hj ⊢
    · exact State.eligible_of_mem_set hu (mem_iff_vget.mpr ⟨j, hj⟩)
    · exact Vector.contains_iff_mem.mpr (State.mem_set_of_vacancy hu (mem_iff_vget.mpr ⟨j, hj⟩) hx he)

end Sys2Proof.Machine
end

section
/-! SUPPORT. Instructions whose meaning is one value in every active lane or one change of the state, and the writes of special registers
and of predicates (R53 to R56, R95, R97, R98, R160). -/

namespace Sys2Proof.Machine

/-! ### One value, or one change of the state -/

section
variable {s : State} {i : Instr} {x : Ops} {body : Ctx → State → Res} {made : Ctx → State}

/-- An instruction whose meaning is a value in every active lane delivers it. -/
theorem yields_of_value {f : Ctx → Fin 32 → Nat} (hexec : exec i s = issue s i x body) (hb : ∀ c, body c s = c.value (made c) (f c)) :
    Yields s i x made f :=
  fun c hr hroom => hexec.trans (issue_value hr (hb c) hroom)

/-- An instruction whose meaning is a change of the state makes it. -/
theorem does_of_ok (hexec : exec i s = issue s i x body) (hb : ∀ c, body c s = .ok { s := made c }) : Does s i x made :=
  fun c hr => hexec.trans (issue_does hr (hb c))

end

/-! ### Moves of special registers and predicates -/

section
variable {s : State} {x : Ops}

/-- MOVS of a special register into vector registers (R52, R95). -/
theorem yields_movs_read (hsub : x.sub = 0) :
    Yields s (.movs x) x (fun _ => s) (fun c k => specialValue s c (opndBits x.a.opnd % 256) k) := by
  refine yields_of_value (by unfold exec; exact rfl) ?_
  exact fun _ => if_pos hsub

/-- MOVS into %fpctl, %fpflag or %mflag (R53 to R55). -/
theorem does_movs_write (hsub : x.sub ≠ 0) (hn : opndBits x.a.opnd % 256 ≠ 5) :
    Does s (.movs x) x fun c => s.updGangOf c.w fun g => g.writeSpecial (opndBits x.a.opnd % 256) c.active c.vb := by
  refine does_of_ok (by unfold exec; exact rfl) ?_
  exact fun _ => (if_neg hsub).trans (if_neg hn)

/-- PMOV of all predicates of a lane into a vector register (R97). -/
theorem yields_pmov_read (hsub : x.sub = 0) : Yields s (.pmov x) x (fun _ => s) (fun c k => (c.g.pred[k]).toNat) := by
  refine yields_of_value (by unfold exec; exact rfl) ?_
  exact fun _ => if_pos hsub

/-- PMOV of a vector register into all predicates of a lane (R97). -/
theorem does_pmov_write (hsub : x.sub ≠ 0) :
    Does s (.pmov x) x fun c => s.updGangOf c.w fun g =>
      { g with pred := lanesFrom fun k => if inMask c.active k then BitVec.ofNat 15 c.va[k] else g.pred[k] } := by
  refine does_of_ok (by unfold exec; exact rfl) ?_
  exact fun _ => if_neg hsub

/-! ### Writes of %mode (R56) -/

section
variable {c : Ctx} (hsub : x.sub ≠ 0) (hn : opndBits x.a.opnd % 256 = 5) (hr : Ready s (.movs x) x c)
include hsub hn hr

/-- A write of %mode that keeps DIAG changes nothing. -/
theorem exec_movs_mode_keeps (hdiag : (c.once c.vb).testBit 7 = c.md.diag) : exec (.movs x) s = .next (c.finish { s := s }) := by
  unfold exec execMovs
  exact issue_does hr (((if_neg hsub).trans (if_pos hn)).trans (if_pos hdiag))

variable (hdiag : (c.once c.vb).testBit 7 ≠ c.md.diag)
include hdiag

/-- Firmware sets DIAG of its core. -/
theorem exec_movs_mode_firmware (hpl : c.g.pl = .firmware) :
    exec (.movs x) s = .next (c.finish { s := s.updCore c.core fun k => { k with diag := (c.once c.vb).testBit 7 } }) := by
  unfold exec execMovs
  exact issue_does hr (((if_neg hsub).trans (if_pos hn)).trans ((if_neg hdiag).trans (if_pos hpl)))

/-- Below firmware level a write of %mode that changes DIAG takes PRIV. -/
theorem exec_movs_mode_priv (hpl : c.g.pl ≠ .firmware) : exec (.movs x) s = .next (c.fault s { cause := 19, lanes := c.active }) := by
  unfold exec execMovs
  exact issue_trap hr (((if_neg hsub).trans (if_pos hn)).trans ((if_neg hdiag).trans (if_neg hpl)))

end
end

/-- Settles O4: the meaning of each uniform instruction is one value, and MOVS and PMOV are decided by SUB, the special register, DIAG and the
level in turn. -/
theorem uniformSpecialMoves : Obligations.UniformSpecialMoves := by
  refine ⟨fun s x => ?uniform, fun s x => ⟨yields_movs_read, does_movs_write, fun hsub hn c => exec_movs_mode_keeps hsub hn,
    fun hsub hn c => exec_movs_mode_firmware hsub hn, fun hsub hn c => exec_movs_mode_priv hsub hn, yields_pmov_read, does_pmov_write⟩⟩
  case uniform =>
    refine ⟨?sadd, ?smul, ?smov, ?scmp, ?tlread⟩
    all_goals
      refine yields_of_value (by unfold exec; exact rfl) ?_
      exact fun _ => rfl

end Sys2Proof.Machine
end

section
/-! SUPPORT. The service of the Lovage unit (R431, R432) where a bundle keeps a joined wait of a thread that is not
its own: a state in which the oldest request's answer does not end its wait. -/

namespace Sys2Proof.Machine

/-! ### A gang with a joined wait of a lane outside its bundle -/

/-- The gang of the placed task. -/
def strayGang : GangRef := ⟨0, 0, 0⟩

/-- A request of thread 0 for a sum of absolute differences (R421), into V8, with the integer 1 of R23 as both sources. -/
def strayRequest : LovEntry :=
  { g := strayGang, core := 0, k := 1, lanes := 1, bundle := 1, pc := 0, a := Lanes.all 1, b := Lanes.all 1,
    x := { form := .A, gn := false, gp := 15, la := 0, dst := .main 8, a := ⟨.special 0x41, false, 0⟩, b := ⟨.special 0x41, false, 0⟩,
           c := ⟨.main 0, false, 0⟩, sub := 0, clp := 0, scl := 0, imm := 0 } }

/-- The wait for its answer. -/
def strayWait : Wait := ⟨.lovage, 0, 0, strayRequest.instr, [], 0⟩

/-- Thread 0 waits in a bundle of its own, and a bundle that holds no lane keeps a wait of thread 0 as one that joined it. -/
def strayBundles : List Bundle := [⟨0, 0, some strayWait, [(1, strayWait)]⟩, ⟨1, 0, some strayWait, []⟩]

/-- The replay of thread 0's instruction (R401). -/
def strayReplay : Replay := ⟨1, 0, Lanes.all 0, [], false⟩

/-- The placed machine with these bundles and this replay, and the request in the queue of its Lovage unit. Thread 0 has exited, so that the end of
its replay takes no lane out of any bundle. -/
def strayAsked : State :=
  ((placed false true []).updGang strayGang fun g => { g with exited := 1, replay := [strayReplay], bundles := strayBundles }).updDev 0 fun d =>
    d.setLov 0 [strayRequest]

/-- The same when the request has left the queue. -/
def strayServed : State := strayAsked.updDev 0 fun d => d.setLov 0 []

/-- The replays that are due in the gang after an answer. -/
def strayReplays : Ans → Option (List Replay)
  | .next s => (s.gang? strayGang).map Gang.replay
  | _ => none

/-- The state in which thread 0 is free to complete its instruction. -/
def strayReleased : State := strayServed.released strayGang 1

/-- What the unit answers to a request for a sum of absolute differences (R421). -/
def Ctx.sumAnswer (c : Ctx) (s : State) : Out := { s, dst := some (c.lanesOnly fun k => byteAbsDiff c.va[k] c.vb[k]) }

/-! ### The answer does not end the wait -/

/-- The context with which an instruction is ready, where it is. -/
def readyCtx? (s : State) (i : Instr) (x : Ops) : Option Ctx := i.spec.bind fun sp => (prologue s i sp x).ctx?

theorem ready_of_readyCtx? {s : State} {i : Instr} {x : Ops} {c : Ctx} (h : readyCtx? s i x = some c) : Ready s i x c := by
  obtain ⟨sp, hsp, hctx⟩ := Option.bind_eq_some_iff.mp h
  refine ⟨sp, hsp, ?_⟩
  unfold Pre.ctx? at hctx
  split at hctx
  · next hgo => rw [hgo, Option.some.inj hctx]
  · cases hctx

/-- The waiting instruction is ready to complete, and its completion ends the replay. -/
theorem strayReleased_completion_ends_replay : ∃ c, Ready strayReleased strayRequest.instr strayRequest.x c ∧ c.room strayReleased = true ∧
    strayReplays (.next (c.finish (c.sumAnswer strayReleased))) = some [] := by
  have htest : (readyCtx? strayReleased strayRequest.instr strayRequest.x).any (fun c =>
      c.room strayReleased && decide (strayReplays (.next (c.finish (c.sumAnswer strayReleased))) = some [])) = true := by decide +kernel
  obtain ⟨c, hctx, hc⟩ := (Option.any_eq_true _ _).mp htest
  obtain ⟨hroom, hends⟩ := Bool.and_eq_true_iff.mp hc
  exact ⟨c, ready_of_readyCtx? hctx, hroom, of_decide_eq_true hends⟩

/-- With its replay the wait that joined the empty bundle would become that of a bundle of thread 0, which then waits still: so the event does not
happen, and the replay stays due. -/
theorem strayAsked_keeps_replay : strayReplays (exec (.lovageService 0 0) strayAsked) = some [strayReplay] := by decide +kernel

/-- Refutes O31: the end of a wait (`EndsWait`) asks that no bundle shares a lane with the waiting one, and says nothing of the lanes of the waits
that have joined a bundle; the statement ranges over all states, ill-formed ones too. In `strayAsked` a bundle without lanes keeps such a wait of
the waiting thread. The completion of the thread's replay would make it the thread's bundle, so the unit's answer does not end the wait. -/
theorem not_wordsWithoutMeaning : ¬ Obligations.WordsWithoutMeaning := by
  rintro ⟨-, hservice⟩
  obtain ⟨d, hd, hqueue⟩ := Option.map_eq_some_iff.mp
    (show (strayAsked.dev? 0).map (Device.lov · 0) = some [strayRequest] by decide +kernel)
  obtain ⟨q, hq, hbundles⟩ := Option.map_eq_some_iff.mp
    (show (strayServed.gang? strayGang).map Gang.bundles = some strayBundles by decide +kernel)
  have hwaiting : strayServed.waiting strayGang 1 .lovage = some strayWait := by decide +kernel
  have hmay : strayServed.mayIssue strayGang = true := by decide +kernel
  have hapart : ∀ b ∈ q.bundles, b.lanes = 1 ∨ b.lanes &&& 1 = 0 := by rw [hbundles]; decide
  obtain ⟨c, hready, hroom, hends⟩ := strayReleased_completion_ends_replay
  obtain ⟨hanswer, -, -⟩ := hservice strayAsked 0 0 d strayRequest [] hd (Nat.zero_le 1) hqueue
  obtain ⟨o, rfl, hexec⟩ := hanswer strayWait hwaiting rfl rfl rfl strayWait strayRequest.x c q hwaiting hmay rfl rfl hq hapart hready hroom
  have hkeeps := strayAsked_keeps_replay
  rw [hexec] at hkeeps
  cases hends.symm.trans hkeeps

end Sys2Proof.Machine
end

section
/-! SUPPORT. Integer instructions and lane instructions: the shared shapes of their meanings, a ternary table read bit by bit, and what SHFL reads
once its checks have passed (R37, R87 to R94, R97, R107, R108). -/

namespace Sys2Proof.Machine

/-! ### Values in the active lanes -/

theorem Ctx.lanesOnly_lane {c : Ctx} {k : Fin 32} (hk : inMask c.active k = true) (f : Fin 32 → Nat) : (c.lanesOnly f)[k] = f k := by
  simp only [Ctx.lanesOnly, fin_lanesFrom, hk, if_true]

/-- Values that agree in the active lanes are delivered alike. -/
theorem Ctx.lanesOnly_congr {c : Ctx} {f g : Fin 32 → Nat} (h : ∀ k : Fin 32, inMask c.active k = true → f k = g k) :
    c.lanesOnly f = c.lanesOnly g := by
  refine congrArg lanesFrom (funext fun k => ?_)
  split
  · next hk => exact h k hk
  · rfl

/-! ### A ternary table (R92) -/

/-- The place in a table that bit n of the three sources selects. -/
def tablePlace (a b d n : Nat) : Nat := (a.testBit n).toNat + 2 * (b.testBit n).toNat + 4 * (d.testBit n).toNat

theorem bitNat_eq_toNat (b : Bool) : bitNat b = b.toNat := by cases b <;> rfl

theorem ternary_succ (tab a b d n : Nat) :
    ternary tab a b d (n + 1) = (if tab.testBit (tablePlace a b d n) then 2 ^ n else 0) + ternary tab a b d n := by
  simp only [tablePlace, ← bitNat_eq_toNat]; rfl

theorem ternary_lt (tab a b d n : Nat) : ternary tab a b d n < 2 ^ n := by
  induction n with
  | zero => exact Nat.one_pos
  | succ n ih => rw [ternary_succ]; split <;> omega

/-- Each bit of the result is the table's at the place that the sources select; the bits above it do not reach down. -/
theorem testBit_ternary (tab a b d : Nat) {n w : Nat} (h : n < w) : (ternary tab a b d w).testBit n = tab.testBit (tablePlace a b d n) := by
  induction w with
  | zero => omega
  | succ w ih =>
    rw [ternary_succ]
    rcases Nat.lt_succ_iff_lt_or_eq.mp h with hlt | rfl
    · split
      · rw [Nat.testBit_two_pow_add_gt hlt, ih hlt]
      · rw [Nat.zero_add, ih hlt]
    · have hbelow := Nat.testBit_lt_two_pow (ternary_lt tab a b d n)
      split
      · next hset => rw [Nat.testBit_two_pow_add_eq, hbelow, hset]; rfl
      · next hclear => rw [Nat.zero_add, hbelow]; exact (Bool.eq_false_iff.mpr hclear).symm

section
variable (s : State) (x : Ops)

theorem yields_bternTableBit7Clear :
    Yields s (.bternTableBit7Clear x) x (fun _ => s) fun c k => ternary x.sub.toNat c.va[k] c.vb[k] c.vc[k] 32 :=
  yields_of_value (by unfold exec; exact rfl) fun _ => rfl

theorem yields_bternTableBit7Set :
    Yields s (.bternTableBit7Set x) x (fun _ => s) fun c k => ternary (128 + x.sub.toNat) c.va[k] c.vb[k] c.vc[k] 32 :=
  yields_of_value (by unfold exec; exact rfl) fun _ => rfl

end

/-- Settles O60: either form yields the ternary function of its table, of which each bit is the table's. -/
theorem ternaryTable : Obligations.TernaryTable := by
  intro s x c hroom writes
  have hbits {i : Instr} {table : Nat} (h : Yields s i x (fun _ => s) fun c k => ternary table c.va[k] c.vb[k] c.vc[k] 32)
      (hr : Ready s i x c) : writes i table := by
    refine ⟨_, h c hr hroom, fun k hk => ?_⟩
    rw [Ctx.lanesOnly_lane hk]
    exact ⟨ternary_lt .., fun n hn => testBit_ternary _ _ _ _ hn⟩
  exact ⟨hbits (yields_bternTableBit7Clear s x), hbits (yields_bternTableBit7Set s x)⟩

/-! ### Integer arithmetic (R87, R88) -/

/-- A result of two sources at a type, written under the instruction's CLP. -/
theorem yields_arith2 {s : State} {i : Instr} {x : Ops} {t : Ty} {f : Int → Int → Int} (hexec : exec i s = issue s i x (arith2 t f)) :
    Yields s i x (fun _ => s) fun c k => writeInt t x.clp (f (extTy t c.va[k]) (extTy t c.vb[k])) := by
  intro c hr hroom
  obtain rfl := ready_x hr
  exact hexec.trans (issue_value hr rfl hroom)

/-- Settles O1: the instructions of two sources share one meaning, and that of each other one is a value, IADDC's beside the write of its
predicate. -/
theorem integerArithmetic : Obligations.IntegerArithmetic := by
  refine ⟨fun s x => ⟨?iadd, ?isub, ?imin, ?imax, ?iabs, ?imul, ?imad⟩, fun s x => ?iaddc⟩
  case iadd | isub | imin | imax => exact yields_arith2 (by unfold exec; exact rfl)
  all_goals exact yields_of_value (by unfold exec; exact rfl) fun _ => rfl

/-- Settles O2: each meaning is one value; both forms of BTERN as for its table. -/
theorem shiftsLogicBitFields : Obligations.ShiftsLogicBitFields := by
  intro s x
  refine ⟨?shl, ?shr, ?rot, ?and, ?or, ?xor, ?not, ?popc, ?clz, ?ctz, ?brev, ?bfe, ?bfi, yields_bternTableBit7Clear s x,
    yields_bternTableBit7Set s x⟩
  all_goals exact yields_of_value (by unfold exec; exact rfl) fun _ => rfl

/-- Settles O3: each meaning is one value, that of a comparison 1 where its condition holds and 0 elsewhere. -/
theorem compareSelectMove : Obligations.CompareSelectMove := by
  intro s x
  refine ⟨?icmp, ?isel, ?lea, ?mov, ?movi, ?movu, ?icvt, ?pset, ?plop⟩
  all_goals exact yields_of_value (by unfold exec; exact rfl) fun _ => rfl

/-! ### The reads of a ready instruction (R37 order 7) -/

/-- Checks that let a new instruction through have found every read mapped. -/
theorem Ctx.unmapped_of_go {c d : Ctx} {s : State} {r : Reads} (h : c.checks s r = .go d) (hreplay : c.g.replaying c.lanes = none) :
    c.unmapped r = 0 := by
  cases henc : c.encoded with
  | false => rw [Ctx.checks_encoding henc] at h; cases h
  | true =>
    cases hop : opndOk c.md c.sp c.x with
    | false => rw [Ctx.checks_operand henc hop] at h; cases h
    | true =>
      by_cases hallowed : c.allowed s r
      · by_contra hgone
        simp only [Ctx.checks_allowed henc hop hallowed, hreplay, hgone, Option.isSome_none, Bool.false_eq_true, if_false, ne_eq,
          not_false_eq_true, if_true] at h
        split at h
        · cases h
        · split at h
          · cases h
          · cases hn : c.nonuniform r <;> rw [hn] at h <;> cases h
      · rw [Ctx.checks_priv henc hop hallowed] at h; cases h

/-- A new instruction that is ready has read its SA and SB in every active lane. -/
theorem ready_reads {s : State} {i : Instr} {x : Ops} {c : Ctx} (h : Ready s i x c) (hreplay : c.g.replaying c.lanes = none) {k : Fin 32}
    (hk : inMask c.active k = true) :
    (readAll c.g c.md i c.sp x c.active none).a[k] = some c.va[k] ∧ (readAll c.g c.md i c.sp x c.active none).b[k] = some c.vb[k] := by
  obtain ⟨sp, -, hgo⟩ := h
  unfold prologue at hgo
  split at hgo
  · cases hgo
  · next w g core chip lanes _ =>
    obtain rfl := Ctx.checks_go hgo
    obtain ⟨hdab, -⟩ := BitVec.or_eq_zero_iff.mp (Ctx.unmapped_of_go hgo hreplay)
    obtain ⟨hda, hb⟩ := BitVec.or_eq_zero_iff.mp hdab
    obtain ⟨-, ha⟩ := BitVec.or_eq_zero_iff.mp hda
    have hagain : g.replaying lanes = none := hreplay
    have hread {m : LaneMask} {v : Lanes (Option Nat)} (hm : inMask m k = true) (hv : missingLanes m v = 0) :
        v[k] = some (lanesFrom fun k => v[k].getD 0)[k] := by
      have hlane := of_maskOf_zero hv k
      rw [hm, Bool.true_and, Option.isNone_eq_false_iff] at hlane
      obtain ⟨n, hn⟩ := Option.isSome_iff_exists.mp hlane
      rw [fin_lanesFrom, hn]
      rfl
    simp only [ctxOf, hagain] at ha hb hk ⊢
    exact ⟨hread hk ha, hread hk hb⟩

/-! ### SHFL (R107) -/

theorem yields_shfl (s : State) (x : Ops) : Yields s (.shfl x) x (fun _ => s) fun c k => c.va[k] :=
  yields_of_value (by unfold exec; exact rfl) fun _ => rfl

/-- The lane from which SHFL reads a lane's value. -/
def Ctx.shflFrom (c : Ctx) (x : Ops) (k : Fin 32) : Nat :=
  let size := 2 ^ (5 - x.sb 5 3)
  shflLane (x.sb 1 0) (if c.g.c16 && size == 32 then 16 else size) k.val c.vb[k]

/-- What SHFL reads for a lane. -/
def Ctx.shflRead (c : Ctx) (x : Ops) (k : Fin 32) : Option Nat :=
  c.g.readSrc c.md.ctrl c.md.diag x.form (slotBits (if x.sb 6 6 = 1 then 2 else 1)) x.a (c.shflFrom x k)

/-- What a new SHFL that is ready holds for an active lane is its register in the lane that SB selects. -/
theorem shflRead_of_ready {s : State} {x : Ops} {c : Ctx} (h : Ready s (.shfl x) x c) (hreplay : c.g.replaying c.lanes = none) {k : Fin 32}
    (hk : inMask c.active k = true) : c.shflRead x k = some c.va[k] := by
  obtain ⟨ha, hb⟩ := ready_reads h hreplay hk
  rw [← ha]
  simp only [readAll, againValues, shflReads, fin_lanesFrom] at hb ⊢
  simp only [hk, hb, Ctx.shflRead, Ctx.shflFrom]

/-! ### The other lane instructions (R108) -/

/-- What VOTE delivers: whether some active lane's predicate holds, whether every one's does, or the mask of those whose does. -/
def Ctx.voted (c : Ctx) (x : Ops) : Nat :=
  let m := maskOf fun k => inMask c.active k && ((c.va[k] == 1) != (x.sb 2 2 == 1))
  match x.sb 1 0 with
  | 0 => if m != 0 then 1 else 0
  | 1 => if m == c.active then 1 else 0
  | _ => c.maskBits m

theorem yields_vote (s : State) (x : Ops) : Yields s (.vote x) x (fun _ => s) fun c _ => c.voted x := by
  refine yields_of_value (by unfold exec; exact rfl) fun c => ?_
  dsimp only [Ctx.voted]
  generalize x.sb 1 0 = mode
  match mode with
  | 0 | 1 | _ + 2 => rfl

/-- Settles O5: a new SHFL has read the lane that SB selects, and each other meaning is one value for each lane. -/
theorem laneResults : Obligations.LaneResults := by
  intro s x
  refine ⟨fun c hr hroom hreplay => ?shfl, yields_shfl s x, yields_vote s x, ?matchLanes, ?lredux, ?lprfx, ?elect, ?uniassert⟩
  case shfl =>
    have hread (k : Fin 32) (hk : inMask c.active k = true) := shflRead_of_ready hr hreplay hk
    refine ⟨fun k hk => Option.isSome_of_eq_some (hread k hk), (yields_shfl s x c hr hroom).trans ?_⟩
    have hlanes : c.lanesOnly (fun k => c.va[k]) = c.lanesOnly fun k => (c.shflRead x k).getD 0 :=
      Ctx.lanesOnly_congr fun k hk => by rw [hread k hk]; rfl
    rw [hlanes]
    rfl
  case matchLanes =>
    refine yields_of_value (by unfold exec; exact rfl) fun c => ?_
    dsimp only
    split <;> rfl
  case lredux | lprfx | elect => exact yields_of_value (by unfold exec; exact rfl) fun _ => rfl
  case uniassert => exact does_of_ok (by unfold exec; exact rfl) fun _ => rfl

end Sys2Proof.Machine
end

section
/-! SUPPORT. Branches, calls and returns, EXIT, YIELD, NOP and fill words (R16, R100, R101, R103, R104, R234, R246, R265, R413). -/

namespace Sys2Proof.Machine

/-! ### Branches to what each lane holds (R101) -/

/-- The active lanes whose source is no instruction's address. -/
def Ctx.misaligned (c : Ctx) : LaneMask := maskOf fun k => inMask c.active k && c.va[k] % 4 != 0

theorem indirect_of_aligned {c : Ctx} (h : ∀ k : Fin 32, inMask c.active k = true → c.va[k] % 4 = 0) (s : State) :
    indirect c s = .ok { s, jump := some (c.va.map (BitVec.ofNat 64)) } := by
  have hnone : c.misaligned = 0 := maskOf_in_none fun k hk => by rw [h k hk]; rfl
  exact if_neg (not_not.mpr hnone)

theorem indirect_of_misaligned {c : Ctx} (h : c.misaligned ≠ 0) (s : State) :
    indirect c s = .trap { cause := cMisalign, lanes := c.misaligned, addr := BitVec.ofNat 64 (vget c.va (lowest c.misaligned)) } :=
  if_pos h

section
variable {s : State} {i : Instr} {x : Ops} {c : Ctx}

/-- An instruction that only sends its lanes elsewhere completes. -/
theorem issue_jump {body : Ctx → State → Res} {pcs : Lanes DWord} (h : Ready s i x c) (hb : body c s = .ok { s, jump := some pcs }) :
    issue s i x body = .next (c.finish { s, jump := some pcs }) :=
  issue_ok h hb (fun e => by cases e) (.inl (trapLanes_none _ _))

theorem issue_indirect_of_aligned (h : Ready s i x c) (haligned : ∀ k : Fin 32, inMask c.active k = true → c.va[k] % 4 = 0) :
    issue s i x indirect = .next (c.finish { s, jump := some (c.va.map (BitVec.ofNat 64)) }) :=
  issue_jump h (indirect_of_aligned haligned s)

theorem issue_indirect_of_misaligned (h : Ready s i x c) (hbad : c.misaligned ≠ 0) :
    issue s i x indirect =
      .next (c.fault s { cause := cMisalign, lanes := c.misaligned, addr := BitVec.ofNat 64 (vget c.va (lowest c.misaligned)) }) :=
  issue_trap h (indirect_of_misaligned hbad s)

end

/-! ### The branching instructions (R100, R101, R265) -/

section
variable {s : State} {x : Ops} {c : Ctx}

theorem exec_bra (h : Ready s (.bra x) x c) : exec (.bra x) s = .next (c.finish { s, jump := some (Lanes.all c.target) }) := by
  change execBra x s = _
  exact issue_jump h rfl

theorem exec_call (h : Ready s (.call x) x c) (hroom : c.room s = true) :
    exec (.call x) s = .next (c.finish { s, dst := some (c.lanesOnly fun _ => c.next.toNat), jump := some (Lanes.all c.target) }) := by
  change execCall x s = _
  exact issue_ok h rfl (fun _ => hroom) (.inl (trapLanes_none _ _))

theorem exec_brx : exec (.brx x) s = issue s (.brx x) x indirect := by
  unfold exec
  exact rfl

/-- RET goes where each lane's source says, but for a control-core routine's RET of 0. -/
theorem exec_ret_indirect (h : Ready s (.ret x) x c) (hroutine : ¬ (c.md.ctrl = true ∧ c.once c.va = 0)) :
    exec (.ret x) s = issue s (.ret x) x indirect := by
  have htest : ¬ (c.md.ctrl && c.once c.va == 0) = true := by simpa using hroutine
  change execRet x s = _
  unfold execRet
  rw [issue_ready _ h, issue_ready _ h, if_neg htest]

/-- RET of 0 ends a control-core routine. -/
theorem exec_ret_endRoutine (h : Ready s (.ret x) x c) (hctrl : c.md.ctrl = true) (hzero : c.once c.va = 0) :
    exec (.ret x) s = .next { s.endRoutine c.core with issuer := none } := by
  change execRet x s = _
  unfold execRet
  exact issue_whole h (if_pos (by rw [hctrl, hzero]; rfl))

/-- The end of a running routine: the scrub is due where it was the last of a protected context on its core (R413). -/
theorem State.endRoutine_of_run {r : CoreRef} {run : CtrlRun} (h : (s.core r).ctrl = some run) :
    s.endRoutine r =
      let last := ((s.chip? run.chip).map fun k => k.prot && !(k.tasks.any fun t => t.2.core == some r)).getD false
      s.updCore r fun k => { k with ctrl := none, scrub := k.scrub || last, gated := k.gated || last } := by
  unfold State.endRoutine
  rw [h]

end

/-- Settles O9: BRX and RET share one meaning, which the alignment of the active lanes decides; RET tests for a routine's end before. -/
theorem branchesComplete : Obligations.BranchesComplete := by
  refine ⟨fun s x => ⟨fun c hr => ?bra, fun c hr hroom => ?call, fun c hr haligned => ?brx, fun c hr haligned hroutine => ?ret,
    fun c run hr hctrl hzero hrun => ?endRoutine⟩, fun s x c hbad => ⟨fun hr => ?brxFault, fun hr hroutine => ?retFault⟩⟩
  case bra => obtain rfl := ready_x hr; exact exec_bra hr
  case call => obtain rfl := ready_x hr; exact exec_call hr hroom
  case brx => exact exec_brx.trans (issue_indirect_of_aligned hr haligned)
  case ret => exact (exec_ret_indirect hr hroutine).trans (issue_indirect_of_aligned hr haligned)
  case endRoutine => rw [exec_ret_endRoutine hr hctrl hzero, State.endRoutine_of_run hrun]
  case brxFault => exact exec_brx.trans (issue_indirect_of_misaligned hr hbad)
  case retFault => exact (exec_ret_indirect hr hroutine).trans (issue_indirect_of_misaligned hr hbad)

/-! ### EXIT, YIELD, NOP and fill words (R16, R103, R104, R246) -/

/-- EXIT of a gang's lanes, and then the EMPTY_ORPHAN test of its task. -/
theorem exec_exit {s : State} {x : Ops} {c : Ctx} {g : GangRef} {lanes : LaneMask} (h : Ready s (.exit x) x c) (hw : c.w = .gang g lanes) :
    exec (.exit x) s = .next ((c.finish { s := s.updGangOf c.w fun k => k.exitLanes c.active }).orphanTest g.chip g.task) := by
  change execExit x s = _
  unfold execExit
  rw [issue_does h rfl, ready_issuer h, hw]

/-- A fill word moves the issuer's lanes to the next word. -/
theorem exec_fillWord {s : State} {w : Issuer} {g : Gang} {core : CoreRef} {chip : Nat} {lanes : LaneMask}
    (h : s.issuing = some (w, g, core, chip, lanes)) :
    exec .fillWord s =
      .next (s.updGangOf w fun k => { k with pc := lanesFrom fun i => if inMask lanes i then g.pc[i] + 4 else g.pc[i] }) := by
  change execFillWord s = _
  unfold execFillWord
  rw [h]

/-- Settles O10: the test for orphans follows the issue of EXIT, and YIELD and NOP are issues that complete. -/
theorem exitYieldNop : Obligations.ExitYieldNop := by
  intro s x
  refine ⟨fun c g lanes => exec_exit, ?yield, ?nop, fun w g core chip lanes => exec_fillWord⟩
  all_goals exact does_of_ok (by unfold exec; exact rfl) fun _ => rfl

end Sys2Proof.Machine
end

section
/-! SUPPORT. Float instructions (R30, R44, R113 to R137): a result that is rounded in each active lane completes with its flags or takes FP_TRAP, and
one that is outstanding completes with its flags kept for its arrival. -/

namespace Sys2Proof.Machine

/-! ### Rounded results in the active lanes (R115, R116) -/

theorem map_lanesFrom {α β : Type} (f : Fin 32 → α) (g : α → β) : (lanesFrom f).map g = lanesFrom fun k => g (f k) :=
  Vector.ext fun k hk => by rw [Vector.getElem_map, getElem_lanesFrom, getElem_lanesFrom]

section
variable (c : Ctx) (s : State) (f : Fin 32 → Rounded)

theorem Ctx.map_code_active :
    (lanesFrom fun k => if inMask c.active k then f k else (⟨0, 0⟩ : Rounded)).map Rounded.code = c.lanesOnly fun k => (f k).code :=
  (map_lanesFrom _ _).trans (congrArg lanesFrom (funext fun _ => apply_ite Rounded.code _ _ _))

theorem Ctx.map_flags_active : (lanesFrom fun k => if inMask c.active k then f k else (⟨0, 0⟩ : Rounded)).map Rounded.flags = c.flagsOf f :=
  (map_lanesFrom _ _).trans (congrArg lanesFrom (funext fun _ => apply_ite Rounded.flags _ _ _))

/-- The outcome of rounded results: their codes and their flags. -/
theorem Ctx.floats_eq : c.floats s f = .ok { s, dst := some (c.lanesOnly fun k => (f k).code), flags := c.flagsOf f } := by
  rw [← c.map_code_active, ← c.map_flags_active]; rfl

/-- The outcome of rounded results that are outstanding (R44). -/
theorem Ctx.floatsLate_eq :
    c.floatsLate s f = .ok { s, dst := some (c.lanesOnly fun k => (f k).code), flags := c.flagsOf f, late := some (.here, 0) } := by
  rw [← c.map_code_active, ← c.map_flags_active]; rfl

/-- The lanes that trap on the flags of rounded results are those in which an enabled one is raised. -/
theorem Ctx.trapLanes_flagsOf : trapLanes c.g c.active (c.flagsOf f) = c.trapping f := by
  refine congrArg maskOf (funext fun k => ?_)
  unfold Ctx.flagsOf
  rw [fin_lanesFrom]
  cases inMask c.active k <;> rfl

end

/-! ### What an issue makes of them -/

section
variable {s : State} {i : Instr} {x : Ops} {c : Ctx} {body : Ctx → State → Res}

/-- A completed meaning that raises an enabled flag takes FP_TRAP, unless its result is outstanding (R116). -/
theorem issue_fpTrap {o : Out} (h : Ready s i x c) (hb : body c s = .ok o) (hroom : c.room s = true)
    (htraps : trapLanes c.g c.active o.flags ≠ 0) (hnow : o.late = none) :
    issue s i x body = .next (s.takeFault c.w { cause := cFpTrap, lanes := trapLanes c.g c.active o.flags,
                                                xd := flagStream c.active o.flags } c.active c.pc c.next []) := by
  have hplaced : ¬ (o.dst.isSome && !c.room s) = true := by simp [hroom]
  have hfault : (decide (trapLanes c.g c.active o.flags ≠ 0) && o.late.isNone) = true := by simpa [hnow] using htraps
  rw [issue_ready body h, hb]
  exact congrArg Host.Outcome.next ((if_neg hplaced).trans (if_pos hfault))

variable {f : Ctx → Fin 32 → Rounded}

/-- An instruction whose meaning is a rounded result in every active lane delivers it, or takes FP_TRAP. -/
theorem yieldsFloat_of_floats (hexec : exec i s = issue s i x body) (hb : ∀ c, c.x = x → body c s = c.floats s (f c)) :
    YieldsFloat s i x f := by
  intro c hr hroom
  have hbody := (hb c (ready_x hr)).trans (c.floats_eq s (f c))
  have htraps := c.trapLanes_flagsOf (f c)
  refine ⟨fun hnone => ?completes, fun hsome => ?traps⟩
  case completes => exact hexec.trans (issue_ok hr hbody (fun _ => hroom) (.inl (htraps.trans hnone)))
  case traps =>
    rw [← htraps] at hsome ⊢
    have hfault := issue_fpTrap hr hbody hroom hsome rfl
    exact hexec.trans hfault

/-- An instruction whose meaning is an outstanding rounded result completes with it at once, whatever flag it raises (R30, R44). -/
theorem exec_floatsLate {r : Fin 32 → Rounded} (hexec : exec i s = issue s i x body) (hb : body c s = c.floatsLate s r) (hr : Ready s i x c)
    (hroom : c.room s = true) :
    exec i s = .next (c.finish { s, dst := some (c.lanesOnly fun k => (r k).code), flags := c.flagsOf r, late := some (.here, 0) }) :=
  hexec.trans (issue_ok hr (hb.trans (c.floatsLate_eq s r)) (fun _ => hroom) (.inr rfl))

end

/-! ### Arithmetic (R118, R119) -/

/-- FFMA at a format, in either form. -/
theorem yieldsFloat_fma {s : State} {i : Instr} {x : Ops} {f : Fm} (hexec : exec i s = issue s i x (fmaAt f)) :
    YieldsFloat s i x fun c k =>
      c.put f k (fpFma (c.rm (x.sb 2 0) k) (c.fsrc f k c.va[k]) (c.fsrc f k c.vb[k]) (c.fsrc f k c.vc[k])) :=
  yieldsFloat_of_floats hexec fun _ hx => by subst hx; rfl

/-- Settles O6: the results of FADD, FSUB, FMUL and FFMA are rounded in each lane, those of FDIV and FSQRT are so and outstanding. -/
theorem floatArithmetic : Obligations.FloatArithmetic := by
  refine ⟨fun s x => ⟨?fadd, ?fsub, ?fmul, ?ffma, ?short⟩, fun s x => ⟨fun c hr hroom => ?fdiv, fun c hr hroom => ?fsqrt⟩⟩
  case fadd | fsub | fmul => exact yieldsFloat_of_floats (by unfold exec; exact rfl) fun _ _ => rfl
  case ffma | short => exact yieldsFloat_fma (by unfold exec; exact rfl)
  case fdiv | fsqrt => exact exec_floatsLate (by unfold exec; exact rfl) rfl hr hroom

/-! ### Approximate functions, minimum and maximum (R120 to R122) -/

/-- An approximate function of its source. -/
theorem yieldsFloat_approx {s : State} {i : Instr} {x : Ops} {n : Nat} {g : Fm → Val → Apx}
    (hexec : exec i s = issue s i x fun c s => c.approx s n g) :
    YieldsFloat s i x fun c k =>
      (g (opsFt x) (c.fsrc (opsFt x) k c.va[k])).write n (c.va[k] % 2 ^ (opsFt x).width) (opsFt x) (c.ftz k) x.clp x.scl :=
  yieldsFloat_of_floats hexec fun _ hx => by subst hx; rfl

/-- The smaller or the larger of two sources. -/
theorem yieldsFloat_minMax {s : State} {i : Instr} {x : Ops} {max : Bool} (hexec : exec i s = issue s i x fun c s => c.minMax max s) :
    YieldsFloat s i x fun c k =>
      minMax (opsFt x) max (x.sb 5 5 == 1) (flushedCode (opsFt x) (c.ftz k) c.va[k]) (flushedCode (opsFt x) (c.ftz k) c.vb[k])
        (c.fsrc (opsFt x) k c.va[k]) (c.fsrc (opsFt x) k c.vb[k]) :=
  yieldsFloat_of_floats hexec fun _ hx => by subst hx; rfl

/-- Settles O7: the approximate functions share one meaning, FMIN and FMAX another; FCLASS and FCPYS are values without a flag, and each other
meaning is a rounded result in each lane. -/
theorem floatFunctions : Obligations.FloatFunctions := by
  intro s x
  refine ⟨?frcp, ?frsq, ?fex2, ?flg2, ?fsin, ?fcos, fun max => ?minMax, ?fcmp, ?fclass, ?frnd, ?fgetexp, ?fldexp, ?fcpys, ?fcvt, ?f2i, ?i2f⟩
  case frcp | frsq | fex2 | flg2 | fsin | fcos => exact yieldsFloat_approx (by unfold exec; exact rfl)
  case minMax => cases max <;> exact yieldsFloat_minMax (by unfold exec; exact rfl)
  case fclass | fcpys => exact yields_of_value (by unfold exec; exact rfl) fun _ => rfl
  all_goals exact yieldsFloat_of_floats (by unfold exec; exact rfl) fun _ _ => rfl

/-! ### Packed pairs, dot products and FSTAT (R135 to R137) -/

/-- Settles O8: packed pairs and dot products are rounded results in each lane, but for DOT4 of integers, which is a value; so is the mask that
FSTAT delivers, beside the flags that it clears. -/
theorem packedDotStatus : Obligations.PackedDotStatus := by
  intro s x
  refine ⟨?pkadd, ?pkfma, ?dot2, fun hint => ?dot4Int, fun hfloat => ?dot4Float, fun c hr hroom => ?fstat⟩
  case pkadd | pkfma | dot2 => exact yieldsFloat_of_floats (by unfold exec; exact rfl) fun _ _ => rfl
  case dot4Int => exact yields_of_value (by unfold exec; exact rfl) fun _ => if_pos hint
  case dot4Float => exact yieldsFloat_of_floats (by unfold exec; exact rfl) fun _ _ => if_neg (Nat.not_le.mpr hfloat)
  case fstat =>
    change execFstat x s = _
    exact issue_value hr rfl hroom

end Sys2Proof.Machine
end

section
/-! SUPPORT. States that differ in the happens-before record alone (R292 to R301): what they share, and which steps of an access lead from one to
another. -/

namespace Sys2Proof.Machine

/-! ### What such states share -/

namespace SameButRaces

variable {s u : State} (h : SameButRaces s u)
include h

theorem chip?_map {α : Type} (k : Nat) {f : Chip → α} (hf : ∀ c : Chip, f c.noRaces = f c) : (u.chip? k).map f = (s.chip? k).map f := by
  obtain ⟨-, -, -, -, -, -, -, -, -, hchips⟩ := h
  have hmap := congrArg (Option.map f) (hchips k)
  simpa only [Option.map_map, Function.comp_def, hf] using hmap

theorem task?_eq (k t : Nat) : u.task? k t = s.task? k t := by
  have hmap := h.chip?_map k (f := fun c => Tab.find c.tasks t) fun _ => rfl
  unfold State.task?
  simpa only [Option.bind_map, Function.id_comp, Function.comp_def, id] using congrArg (Option.bind · id) hmap

theorem gang?_eq (g : GangRef) : u.gang? g = s.gang? g := by unfold State.gang?; rw [h.task?_eq]

theorem readByte_eq (p : Place) : u.readByte p = s.readByte p := by
  cases p with
  | dram k a r =>
    have hmap := h.chip?_map k (f := fun c => if c.revoked then 0xFF else Mem.get c.mem a) fun _ => rfl
    unfold State.readByte
    cases hu : u.chip? k <;> cases hs : s.chip? k <;> simp_all
  | host a =>
    obtain ⟨-, -, hhost, -⟩ := h
    unfold State.readByte
    rw [hhost]
  | scratch k t o => simp only [State.readByte, h.task?_eq]

theorem readPlaces_eq (ps : List Place) : u.readPlaces ps = s.readPlaces ps := by
  induction ps with
  | nil => rfl
  | cons p ps ih => unfold State.readPlaces; rw [h.readByte_eq, ih]

theorem fullAt_eq (chip : Nat) (ps : List Place) : u.fullAt chip ps = s.fullAt chip ps := by
  unfold State.fullAt
  split
  · rw [h.task?_eq]
  · rfl

end SameButRaces

/-! ### Steps that change the record alone -/

theorem SameButRaces.noteAll (c : Ctx) (s : State) (atomic write : Fin 32 → Bool) (m : LaneMask) (ps : Lanes (List Place)) :
    SameButRaces s (c.noteAll s atomic write m ps) :=
  .fold _ _ (fun s _ => .noteAccess s _ _ _ _) s

theorem SameButRaces.atomicAll (c : Ctx) (s : State) (m : LaneMask) (ps : Lanes (List Place)) (k : AtomicStep) :
    SameButRaces s (c.atomicAll s m ps k) :=
  .fold _ _ (fun s _ => .ctxHb c s _) s

theorem SameButRaces.endSequences (c : Ctx) (s : State) (m : LaneMask) (ps : Lanes (List Place)) : SameButRaces s (c.endSequences s m ps) :=
  .ctxHb c s _

/-- A fold of changes of the record, by a lane each. -/
theorem SameButRaces.foldHb (c : Ctx) (s : State) (l : List (Fin 32)) (f : State → Fin 32 → Hb → Hb) :
    SameButRaces s (l.foldl (fun s i => c.hb s (f s i)) s) :=
  .fold _ _ (fun s _ => .ctxHb c s _) s

/-- A task's rewrite on both sides. -/
theorem SameButRaces.updTask {s u : State} (h : SameButRaces s u) (k t : Nat) (f : Task → Task) :
    SameButRaces (s.updTask k t f) (u.updTask k t f) := by
  refine h.updChip k _ _ fun c d e => ?_
  have htasks : d.tasks = c.tasks := show d.noRaces.tasks = c.noRaces.tasks from congrArg Chip.tasks e
  show { d.noRaces with tasks := Tab.upd d.tasks t f } = { c.noRaces with tasks := Tab.upd c.tasks t f }
  rw [e, htasks]

/-- A word marked on both sides. -/
theorem SameButRaces.markWord {s u : State} (h : SameButRaces s u) (chip : Nat) (p : List Place) (v : Byte) :
    SameButRaces (s.markWord chip p v) (u.markWord chip p v) := by
  unfold State.markWord
  split
  · exact h.updTask _ _ _
  · exact h

end Sys2Proof.Machine
end

section
/-! SUPPORT. Loads, stores and atomics (R138 to R156, R292 to R301): what their checks answer, and how each ends by the first check that fails. -/

namespace Sys2Proof.Machine

/-! ### What a ready instruction's meaning answers -/

/-- The meaning of an instruction answers `r` in the context `c`. -/
def Answers (i : Instr) (x : Ops) (c : Ctx) (s : State) (r : Res) : Prop := ∃ body : Ctx → State → Res, exec i s = issue s i x body ∧ body c s = r

section
variable {i : Instr} {x : Ops} {c : Ctx} {s u : State} {r : Res} (h : Answers i x c s r) (hr : Ready s i x c)
include h hr

theorem Answers.fault {t : Trouble} (e : r = .trap t) : exec i s = .next (c.fault s t) := by
  obtain ⟨body, hexec, hb⟩ := h
  exact hexec.trans (issue_trap hr (hb.trans e))

theorem Answers.hold {k : WaitKind} {a : DWord} {w : Word} (e : r = .wait k a w) : exec i s = .next (c.hold s k a w) := by
  obtain ⟨body, hexec, hb⟩ := h
  exact hexec.trans (issue_wait hr (hb.trans e))

theorem Answers.does (e : r = .ok { s := u }) : exec i s = .next (c.finish { s := u }) := by
  obtain ⟨body, hexec, hb⟩ := h
  exact hexec.trans (issue_does hr (hb.trans e))

variable (hroom : c.room s = true)
include hroom

theorem Answers.value {f : Fin 32 → Nat} (e : r = c.value u f) : exec i s = .next (c.finish { s := u, dst := some (c.lanesOnly f) }) := by
  obtain ⟨body, hexec, hb⟩ := h
  exact hexec.trans (issue_value hr (hb.trans e) hroom)

theorem Answers.late {v : Lanes Nat} (e : r = .ok { s := u, dst := some v, late := some (.here, 0) }) :
    exec i s = .next (c.finish { s := u, dst := some v, late := some (.here, 0) }) := by
  obtain ⟨body, hexec, hb⟩ := h
  exact hexec.trans (issue_ok hr (hb.trans e) (fun _ => hroom) (.inr rfl))

end

theorem vget_lanesFrom {α : Type} (f : Fin 32 → α) (k : Nat) : vget (lanesFrom f) k = f (Fin.ofNat 32 k) := fin_lanesFrom f _

/-- Values of lanes that agree in each lane are the same. -/
theorem Lanes.ext_of {α : Type} {a b : Lanes α} (h : ∀ k : Fin 32, a[k] = b[k]) : a = b := Vector.ext fun k hk => h ⟨k, hk⟩

/-! ### The checks of R142 and R299 -/

section
variable {c : Ctx} {s : State} {m : LaneMask} {need : Acc} {n : Nat} {addr : Fin 32 → Nat} {t : Trouble}

/-- A refused access is misaligned, or aligned and not granted in some lane, at the address of its lowest such lane. -/
theorem Ctx.reach_error (h : c.reach s m need n addr = .error t) :
    t.addr = BitVec.ofNat 64 (addr (Fin.ofNat 32 (lowest t.lanes))) ∧
    ((t.cause = 7 ∧ t.lanes = maskOf fun k => inMask m k && addr k % n != 0) ∨
     (t.cause = 5 ∧ (∀ k : Fin 32, inMask m k = true → addr k % n = 0) ∧
       t.lanes = maskOf fun k => inMask m k && (s.places c.w k.val need (addr k) n).isNone)) := by
  unfold Ctx.reach at h
  simp only [vget_lanesFrom, fin_lanesFrom] at h
  split at h
  · cases h; exact ⟨rfl, .inl ⟨rfl, rfl⟩⟩
  · next hbad =>
    have haligned (k : Fin 32) (hk : inMask m k = true) : addr k % n = 0 := by
      have := of_maskOf_zero (not_not.mp hbad) k
      simpa [hk] using this
    have hout : (fun k : Fin 32 => inMask m k && (if inMask m k = true then s.places c.w k.val need (addr k) n else some []).isNone) =
        fun k : Fin 32 => inMask m k && (s.places c.w k.val need (addr k) n).isNone := by
      funext k
      cases inMask m k <;> rfl
    split at h
    · cases h; exact ⟨rfl, .inr ⟨rfl, haligned, congrArg maskOf hout⟩⟩
    · cases h

variable {atomic write : Fin 32 → Bool} {ps : Lanes (List Place)}

/-- A race is MMRACE of the lanes that race. -/
theorem Ctx.raceOf_some (h : c.raceOf s atomic write m addr ps = some t) :
    t.cause = 8 ∧ t.lanes = maskOf fun k => inMask m k && (s.findRace (c.actor s k) (atomic k) (write k) (addr k) ps[k]).isSome := by
  have hlanes : (fun k : Fin 32 => (if inMask m k = true then
        (s.findRace (c.actor s k) (atomic k) (write k) (addr k) ps[k]).map fun r => (r.1, write k, r.2) else none).isSome) =
      fun k : Fin 32 => inMask m k && (s.findRace (c.actor s k) (atomic k) (write k) (addr k) ps[k]).isSome := by
    funext k
    cases inMask m k <;> simp
  unfold Ctx.raceOf at h
  simp only [fin_lanesFrom, hlanes] at h
  split at h
  · cases h
  · cases h; exact ⟨rfl, rfl⟩

/-- A scope entry that does not serve is STALE_SCOPE of the active lanes. -/
theorem Ctx.scopeTrouble_some {e : Nat} (h : c.scopeTrouble s e = some t) : t.cause = 9 ∧ t.lanes = c.active ∧ e ≤ 63 := by
  unfold Ctx.scopeTrouble at h
  split at h
  · cases h
  · split at h
    · cases h; exact ⟨rfl, rfl, by omega⟩
    · cases h

theorem Ctx.scopeTrouble_of_large {e : Nat} (h : 63 < e) : c.scopeTrouble s e = none := if_pos h

theorem Ctx.scopeIndex_of_large {e : Nat} (h : 63 < e) : c.scopeIndex e = some { cause := 2, lanes := c.active } := if_pos h

theorem Ctx.scopeIndex_of_le {e : Nat} (h : e ≤ 63) : c.scopeIndex e = none := if_neg (Nat.not_lt.mpr h)

end

/-! ### Loads (R139, R144, R145) -/

section
variable {c : Ctx} {s : State} {n : Nat} {addr : Fin 32 → Nat} {ps : Lanes (List Place)} {t : Trouble} {bind : Bool} {val : Nat → Nat}

theorem Ctx.loadFrom_of_race (h : c.raceOf s (fun k => bind && c.boundLoad s n ps k) (fun _ => false) c.active addr ps = some t) :
    c.loadFrom s bind n addr ps val = .trap t := by
  simp only [Ctx.loadFrom, h]

theorem Ctx.loadFrom_of_none (h : c.raceOf s (fun k => bind && c.boundLoad s n ps k) (fun _ => false) c.active addr ps = none) :
    ∃ u, SameButRaces s u ∧
      c.loadFrom s bind n addr ps val = .ok { s := u, dst := some (c.lanesOnly fun k => val (s.readPlaces ps[k])), late := some (.here, 0) } := by
  simp only [Ctx.loadFrom, h]
  exact ⟨_, (SameButRaces.noteAll ..).trans (.atomicAll ..), rfl⟩

theorem Ctx.load_of_error (h : c.reach s c.active .read (szBytes (c.x.sb 2 0)) addr = .error t) : c.load s addr = .trap t := by
  simp only [Ctx.load, h]

theorem Ctx.load_of_ok (h : c.reach s c.active .read (szBytes (c.x.sb 2 0)) addr = .ok ps) :
    c.load s addr = c.loadFrom s true (szBytes (c.x.sb 2 0)) addr ps (loadExt (c.x.sb 2 0)) := by
  simp only [Ctx.load, h]

variable {i : Instr} {x : Ops} (ha : Answers i x c s (c.loadFrom s bind n addr ps val)) (hr : Ready s i x c)
include ha hr

theorem Answers.load_fault (h : c.raceOf s (fun k => bind && c.boundLoad s n ps k) (fun _ => false) c.active addr ps = some t) :
    exec i s = .next (c.fault s t) :=
  ha.fault hr (Ctx.loadFrom_of_race h)

/-- A load from places that nothing races with completes. -/
theorem Answers.load_completes (hroom : c.room s = true)
    (h : c.raceOf s (fun k => bind && c.boundLoad s n ps k) (fun _ => false) c.active addr ps = none) :
    ∃ u, SameButRaces s u ∧
      exec i s = .next (c.finish { s := u, dst := some (c.lanesOnly fun k => val (s.readPlaces ps[k])), late := some (.here, 0) }) := by
  obtain ⟨u, hsame, hload⟩ := Ctx.loadFrom_of_none (val := val) h
  exact ⟨u, hsame, ha.late hr hroom hload⟩

end

/-! ### Stores (R144, R145) -/

section
variable {c : Ctx} {s : State} {n : Nat} {addr : Fin 32 → Nat} {ps : Lanes (List Place)} {t : Trouble} {bind : Bool} {val : Fin 32 → Nat}

theorem Ctx.storeTo_of_error (h : c.reach s c.active .write n addr = .error t) : c.storeTo s n addr val bind = .trap t := by
  simp only [Ctx.storeTo, h]

variable (hps : c.reach s c.active .write n addr = .ok ps)
include hps

theorem Ctx.storeTo_of_race (h : c.raceOf s (c.boundStore s n bind ps) (fun _ => true) c.active addr ps = some t) :
    c.storeTo s n addr val bind = .trap t := by
  simp only [Ctx.storeTo, hps, h]

theorem Ctx.storeTo_of_none (h : c.raceOf s (c.boundStore s n bind ps) (fun _ => true) c.active addr ps = none) :
    ∃ u, SameButRaces (c.storedAt s ps val) u ∧ c.storeTo s n addr val bind = .ok { s := u } := by
  simp only [Ctx.storeTo, hps, h]
  refine ⟨_, SameButRaces.fold₂ _ _ _ (fun s u k hsu => ?_) (SameButRaces.endSequences c s c.active ps), rfl⟩
  have hwritten := hsu.writePlaces ps[k] (val k)
  split
  · exact (hwritten.trans (.noteAccess ..)).trans (.ctxHb ..)
  · exact hwritten.trans (.noteAccess ..)

/-- A store to places that nothing races with completes. -/
theorem Answers.store_completes {i : Instr} {x : Ops} (ha : Answers i x c s (c.storeTo s n addr val bind)) (hr : Ready s i x c)
    (h : c.raceOf s (c.boundStore s n bind ps) (fun _ => true) c.active addr ps = none) :
    ∃ u, SameButRaces (c.storedAt s ps val) u ∧ exec i s = .next (c.finish { s := u }) := by
  obtain ⟨u, hsame, hstore⟩ := Ctx.storeTo_of_none (val := val) hps h
  exact ⟨u, hsame, ha.does hr hstore⟩

end

/-! ### Atomics and reductions (R150 to R152, R159, R307) -/

/-- A fold of two steps that keep two states related and deliver the same. -/
theorem SameButRaces.foldPair {α β : Type} (l : List α) (f g : State × β → α → State × β)
    (h : ∀ p q a, SameButRaces p.1 q.1 → q.2 = p.2 → SameButRaces (f p a).1 (g q a).1 ∧ (g q a).2 = (f p a).2) {p q : State × β}
    (hs : SameButRaces p.1 q.1) (hv : q.2 = p.2) : SameButRaces (l.foldl f p).1 (l.foldl g q).1 ∧ (l.foldl g q).2 = (l.foldl f p).2 :=
  List.foldl_rel (r := fun p q : State × β => SameButRaces p.1 q.1 ∧ q.2 = p.2) ⟨hs, hv⟩ fun a _ p q hpq => h p q a hpq.1 hpq.2

/-- One lane's step on both sides. -/
theorem SameButRaces.rmw {s u : State} (h : SameButRaces s u) (ps : List Place) (new : Nat → Option Nat) :
    (u.rmw ps new).1 = (s.rmw ps new).1 ∧ SameButRaces (s.rmw ps new).2.2 (u.rmw ps new).2.2 := by
  unfold State.rmw
  rw [h.readPlaces_eq]
  cases hnew : new (s.readPlaces ps) with
  | none => simpa [hnew] using h
  | some v => simpa [hnew] using h.writePlaces ps v

/-- The steps of the active lanes, each that of `State.rmw`. -/
theorem Ctx.rmwAt_eq (c : Ctx) (s : State) (ps : Lanes (List Place)) (new : Fin 32 → Nat → Option Nat) : c.rmwAt s ps new =
    (lanesOf c.active).foldl (fun r k => ((r.1.rmw ps[k] (new k)).2.2, vset r.2 k.val (r.1.rmw ps[k] (new k)).1)) (s, Lanes.all 0) := by
  unfold Ctx.rmwAt
  congr 1
  funext r k
  unfold State.rmw
  dsimp only
  cases new k (r.1.readPlaces ps[k]) <;> rfl

/-- What an atomic delivers: the old values where it fetches them, as outstanding results. -/
def fetchOut (fetch : Bool) (u : State) (old : Lanes Nat) : Out := if fetch then { s := u, dst := some old, late := some (.here, 0) } else { s := u }

section
variable {c : Ctx} {s : State} {n e ord : Nat} {ps : Lanes (List Place)} {t : Trouble} {new : Fin 32 → Nat → Option Nat} {fetch : Bool}

theorem Ctx.atomics_of_stale (h : c.scopeTrouble s e = some t) : c.atomics s n e ord new fetch = .trap t := by
  simp only [Ctx.atomics, h]

variable (hscope : c.scopeTrouble s e = none)
include hscope

theorem Ctx.atomics_of_error (h : c.reach s c.active .both n (fun k => c.va[k]) = .error t) : c.atomics s n e ord new fetch = .trap t := by
  simp only [Ctx.atomics, hscope, h]

variable (hps : c.reach s c.active .both n (fun k => c.va[k]) = .ok ps)
include hps

theorem Ctx.atomics_of_index (h : 63 < e) : c.atomics s n e ord new fetch = .trap { cause := 2, lanes := c.active } := by
  simp only [Ctx.atomics, hscope, hps, Ctx.scopeIndex_of_large h]

variable (he : e ≤ 63)
include he

theorem Ctx.atomics_of_race
    (h : c.raceOf s (fun _ => true) (fun k => inMask (c.writers s ps new) k) c.active (fun k => c.va[k]) ps = some t) :
    c.atomics s n e ord new fetch = .trap t := by
  simp only [Ctx.atomics, hscope, hps, Ctx.scopeIndex_of_le he, h]

theorem Ctx.atomics_of_none
    (h : c.raceOf s (fun _ => true) (fun k => inMask (c.writers s ps new) k) c.active (fun k => c.va[k]) ps = none) :
    ∃ u, SameButRaces (c.rmwAt s ps new).1 u ∧ c.atomics s n e ord new fetch = .ok (fetchOut fetch u (c.rmwAt s ps new).2) := by
  simp only [Ctx.atomics, hscope, hps, Ctx.scopeIndex_of_le he, h]
  generalize hr : List.foldl _ _ _ = r
  have hsame : SameButRaces (c.rmwAt s ps new).1 r.1 ∧ r.2 = (c.rmwAt s ps new).2 := by
    rw [← hr, Ctx.rmwAt_eq]
    refine SameButRaces.foldPair _ _ _ (fun p q k hs hv => ?_) (.refl s) rfl
    obtain ⟨hold, hstate⟩ := hs.rmw ps[k] (new k)
    exact ⟨(hstate.trans (.noteAccess ..)).trans (.ctxHb ..), by rw [hv, hold]⟩
  refine ⟨r.1, hsame.1, ?_⟩
  rw [← hsame.2]
  cases fetch <;> rfl

/-- An atomic that no check stops. -/
theorem Answers.atomic_completes {i : Instr} {x : Ops} (ha : Answers i x c s (c.atomics s n e ord new fetch)) (hr : Ready s i x c)
    (hroom : fetch = true → c.room s = true)
    (h : c.raceOf s (fun _ => true) (fun k => inMask (c.writers s ps new) k) c.active (fun k => c.va[k]) ps = none) :
    ∃ u, SameButRaces (c.rmwAt s ps new).1 u ∧ exec i s = .next (c.finish (fetchOut fetch u (c.rmwAt s ps new).2)) := by
  obtain ⟨u, hsame, hdone⟩ := Ctx.atomics_of_none (ord := ord) (fetch := fetch) hscope hps he h
  refine ⟨u, hsame, ?_⟩
  cases fetch with
  | true => exact ha.late hr (hroom rfl) hdone
  | false => exact ha.does hr hdone

end

end Sys2Proof.Machine
end

section
/-! SUPPORT. What the meaning of each load, store and atomic answers (R98, R99, R139, R144, R145, R150 to R152, R203). -/

namespace Sys2Proof.Machine

/-! ### The meanings of the loads, stores and atomics -/

section
variable (s : State) (x : Ops) (c : Ctx)

theorem answers_ld : Answers (.ld x) x c s (c.load s c.ea) := ⟨_, by unfold exec; exact rfl, rfl⟩
theorem answers_lds : Answers (.lds x) x c s (c.load s c.scratchAddr) := ⟨_, by unfold exec; exact rfl, rfl⟩

theorem answers_st : Answers (.st x) x c s (c.storeTo s (szBytes (x.sb 2 0)) c.ea (fun k => c.vd[k]) true) :=
  ⟨_, by unfold exec; exact rfl, rfl⟩

theorem answers_sts : Answers (.sts x) x c s (c.storeTo s (szBytes (x.sb 2 0)) c.scratchAddr (fun k => c.vd[k]) false) :=
  ⟨_, by unfold exec; exact rfl, rfl⟩

theorem answers_mst : Answers (.mst x) x c s (c.storeTo s (moBytes x) c.ea (fun k => moNarrow x c.vd[k]) false) :=
  ⟨_, by unfold exec; exact rfl, rfl⟩

/-- The width in bits of ATOM and RED. -/
def atomBits (x : Ops) : Nat := 32 * (x.sb 6 6 + 1)

/-- The bytes of a compare-and-swap. -/
def casBytes (x : Ops) : Nat := if x.sb 0 0 = 1 then 16 else 4 * (x.sb 3 3 + 1)

/-- What ATOM and RED write over an old value. -/
def Ctx.atomNew (c : Ctx) (x : Ops) (k : Fin 32) (old : Nat) : Option Nat := some (atomicOp (x.sb 3 0) (atomBits x) old c.vd[k])

/-- What a compare-and-swap writes over an old value. -/
def Ctx.casNew (c : Ctx) (k : Fin 32) (old : Nat) : Option Nat := if old = c.vd[k] then some c.vb[k] else none

theorem answers_atom : Answers (.atom x) x c s (c.atomics s (atomBits x / 8) (c.once c.vb) (x.sb 5 4) (c.atomNew x) true) :=
  ⟨_, by unfold exec; exact rfl, rfl⟩

theorem answers_red : Answers (.red x) x c s (c.atomics s (atomBits x / 8) (c.once c.vb) (x.sb 5 4) (c.atomNew x) false) :=
  ⟨_, by unfold exec; exact rfl, rfl⟩

theorem answers_atomCas : Answers (.atomCas x) x c s (c.atomics s (casBytes x) (c.once c.vc) (x.sb 2 1) c.casNew true) :=
  ⟨_, by unfold exec; exact rfl, rfl⟩

end

/-! ### MLD (R203) -/

section
variable {s : State} {x : Ops} {c : Ctx}

theorem answers_mld_of_error {t : Trouble} (h : c.reach s c.active .read (moBytes x) c.ea = .error t) : Answers (.mld x) x c s (.trap t) :=
  ⟨_, by unfold exec; exact rfl, by simp only [h]⟩

theorem answers_mld_of_ok {ps : Lanes (List Place)} (h : c.reach s c.active .read (moBytes x) c.ea = .ok ps) :
    Answers (.mld x) x c s (c.loadFrom s false (moBytes x) c.ea ps (moWiden x)) :=
  ⟨_, by unfold exec; exact rfl, by simp only [h]⟩

end

/-! ### SLD: one load for the bundle (R98, R99, R293) -/

/-- The address that SLD reads. -/
def Ctx.sum (c : Ctx) : Nat := (c.once c.va + c.once c.vb) % 2 ^ 64

/-- The lowest active lane as a mask. -/
def Ctx.low (c : Ctx) : LaneMask := 1#32 <<< lowest c.active

section
variable {s : State} {x : Ops} {c : Ctx}

theorem answers_sld_of_error {t : Trouble} (h : c.reach s c.low .read 8 (fun _ => c.sum) = .error t) : Answers (.sld x) x c s (.trap t) := by
  unfold Ctx.low Ctx.sum at h
  exact ⟨_, by unfold exec; exact rfl, by simp only [h]⟩

variable {ps : Lanes (List Place)} (hps : c.reach s c.low .read 8 (fun _ => c.sum) = .ok ps)
include hps

theorem answers_sld_of_race {t : Trouble} (h : c.raceOf s (fun _ => true) (fun _ => false) c.low (fun _ => c.sum) ps = some t) :
    Answers (.sld x) x c s (.trap t) := by
  unfold Ctx.low Ctx.sum at hps h
  exact ⟨_, by unfold exec; exact rfl, by simp only [hps, h]⟩

theorem answers_sld_of_none (h : c.raceOf s (fun _ => true) (fun _ => false) c.low (fun _ => c.sum) ps = none) :
    ∃ u, SameButRaces s u ∧
      Answers (.sld x) x c s (.ok { s := u, dst := some (Lanes.all (s.readPlaces (vget ps (lowest c.active)))), late := some (.here, 0) }) := by
  unfold Ctx.low Ctx.sum at hps h
  have ha : Answers (.sld x) x c s _ := ⟨_, by unfold exec; exact rfl, rfl⟩
  simp only [hps, h] at ha
  exact ⟨_, (SameButRaces.noteAll ..).trans (.ctxHb ..), ha⟩

end

/-! ### LDC: a load from the launch image, inside extent slot 0 (R145) -/

/-- The address of a lane in the launch image. -/
def Ctx.imageAddr (c : Ctx) (t : Task) (k : Fin 32) : Nat := (t.image.toNat + c.off k) % 2 ^ 64

/-- Where n bytes of an active lane lie in extent slot 0, none where a byte is not granted. -/
def Ctx.imagePlaces (c : Ctx) (t : Task) (n : Nat) (k : Fin 32) : List (Option Place) :=
  if inMask c.active k then (List.range n).map fun b => extentPlace c.chip (t.extents.take 1) .read (c.imageAddr t k + b) else []

/-- The active lanes whose image address is misaligned. -/
def Ctx.imageBad (c : Ctx) (t : Task) (n : Nat) : LaneMask := maskOf fun k => inMask c.active k && c.imageAddr t k % n != 0

/-- The active lanes of whose image bytes one is not granted. -/
def Ctx.imageOut (c : Ctx) (t : Task) (n : Nat) : LaneMask := maskOf fun k => (c.imagePlaces t n k).any Option.isNone

/-- A fault of some lanes at the image address of the lowest. -/
def Ctx.imageFault (c : Ctx) (t : Task) (cause : Nat) (m : LaneMask) : Trouble :=
  { cause, lanes := m, addr := BitVec.ofNat 64 (c.imageAddr t (Fin.ofNat 32 (lowest m))) }

/-- LDC of a size code for a gang of a task. -/
def Ctx.loadImage (c : Ctx) (s : State) (t : Task) (sz : Nat) : Res :=
  if c.imageBad t (szBytes sz) ≠ 0 then .trap (c.imageFault t 7 (c.imageBad t (szBytes sz)))
  else if c.imageOut t (szBytes sz) ≠ 0 then .trap (c.imageFault t 5 (c.imageOut t (szBytes sz)))
  else c.loadFrom s false (szBytes sz) (c.imageAddr t) (lanesFrom fun k => (c.imagePlaces t (szBytes sz) k).filterMap id) (loadExt sz)

theorem answers_ldc {s : State} {x : Ops} {c : Ctx} {g : GangRef} {lanes : LaneMask} {t : Task} (hw : c.w = .gang g lanes)
    (ht : s.task? g.chip g.task = some t) : Answers (.ldc x) x c s (c.loadImage s t (x.sb 2 0)) := by
  refine ⟨_, by unfold exec; exact rfl, ?_⟩
  simp only [hw, ht, Option.map_some, Option.getD_some, fin_lanesFrom, vget_lanesFrom, map_lanesFrom]
  rfl

section
variable {c : Ctx} {s : State} {t : Task} {sz : Nat}

theorem Ctx.loadImage_of_misaligned (h : c.imageBad t (szBytes sz) ≠ 0) :
    c.loadImage s t sz = .trap (c.imageFault t 7 (c.imageBad t (szBytes sz))) := if_pos h

theorem Ctx.loadImage_of_not_granted (hbad : c.imageBad t (szBytes sz) = 0) (hout : c.imageOut t (szBytes sz) ≠ 0) :
    c.loadImage s t sz = .trap (c.imageFault t 5 (c.imageOut t (szBytes sz))) :=
  (if_neg (not_not.mpr hbad)).trans (if_pos hout)

/-- With every byte granted LDC is a load from the places. -/
theorem Ctx.loadImage_of_granted {ps : Lanes (List Place)} (hbad : c.imageBad t (szBytes sz) = 0)
    (hin : ∀ k : Fin 32, c.imagePlaces t (szBytes sz) k = ps[k].map some) :
    c.loadImage s t sz = c.loadFrom s false (szBytes sz) (c.imageAddr t) ps (loadExt sz) := by
  have hout : c.imageOut t (szBytes sz) = 0 := maskOf_none fun k => by simp [hin]
  have hplaces : (lanesFrom fun k => (c.imagePlaces t (szBytes sz) k).filterMap id) = ps :=
    Lanes.ext_of fun k => by rw [fin_lanesFrom, hin]; simp
  unfold Ctx.loadImage
  rw [if_neg (not_not.mpr hbad), if_neg (not_not.mpr hout), hplaces]

theorem Ctx.imageBad_eq_zero {n : Nat} : c.imageBad t n = 0 ↔ ∀ k : Fin 32, inMask c.active k = true → c.imageAddr t k % n = 0 := by
  refine ⟨fun h k hk => ?_, fun h => maskOf_in_none fun k hk => by simp [h k hk]⟩
  simpa [hk] using of_maskOf_zero h k

end

end Sys2Proof.Machine
end

section
/-! SUPPORT. Full/empty words (R147 to R149): how LDF, STF and TESTF end by the state of the words that the active lanes name. -/

namespace Sys2Proof.Machine

theorem mem_lanesOf {m : LaneMask} {k : Fin 32} : k ∈ lanesOf m ↔ inMask m k = true := by
  simp [lanesOf, laneList]

section
variable {c : Ctx} {s : State} {x : Ops} {t : Trouble}

/-! ### LDF (R148, R149) -/

/-- No EMPTY_ORPHAN has found the bundle's active lanes at its address (R149). -/
def Ctx.unorphaned (c : Ctx) : Prop := ∀ m ∈ c.g.orphaned, m.2 ≠ c.pc ∨ m.1 &&& c.active = 0

theorem Ctx.any_orphaned (h : c.unorphaned) : (c.g.frame.isNone && c.g.orphaned.any fun o => o.2 == c.pc && o.1 &&& c.active != 0) = false := by
  rw [Bool.and_eq_false_iff, List.any_eq_false]
  refine .inr fun o ho => ?_
  rcases h o ho with hpc | hlanes
  · simp [hpc]
  · simp [hlanes]

theorem Ctx.ldf_of_error (h : c.reach s c.active .read 4 c.scratchAddr = .error t) : c.ldf s = .trap t := by
  simp only [Ctx.ldf, h]

variable {ps : Lanes (List Place)} (hps : c.reach s c.active .read 4 c.scratchAddr = .ok ps) (horphan : c.unorphaned)
include hps horphan

theorem Ctx.ldf_of_empty {k : Fin 32} (hk : inMask c.active k = true) (hempty : s.fullAt c.chip ps[k] = false) :
    c.ldf s = .wait .ldf (BitVec.ofNat 64 (c.scratchAddr (Fin.ofNat 32 (lowest c.active)))) 0 := by
  have hall : (lanesOf c.active).all (fun k => s.fullAt c.chip ps[k]) = false :=
    List.all_eq_false.mpr ⟨k, mem_lanesOf.mpr hk, by rw [hempty]; exact Bool.false_ne_true⟩
  simp only [Ctx.ldf, hps, Ctx.any_orphaned horphan]
  change (if (!(lanesOf c.active).all fun k => s.fullAt c.chip ps[k]) = true then _ else _) = _
  rw [hall]
  rfl

/-- A lane takes in what the filling of its word has released (R148). -/
def Ctx.observed (c : Ctx) (s : State) (ps : List Place) (k : Fin 32) : State :=
  match scratchOf ps with
  | some (t, o) => c.hb s fun h => h.acquireFrom (c.actor s k).agent (keyScratch t (o / 4 * 4))
  | none => s

/-- The words of the active lanes after LDF: empty, but for .keep. -/
def Ctx.taken (c : Ctx) (s : State) (ps : Lanes (List Place)) : State :=
  if c.x.sub = 0 then (lanesOf c.active).foldl (fun s k => s.markWord c.chip ps[k] 0) s else s

theorem Ctx.ldf_of_full (hfull : ∀ k : Fin 32, inMask c.active k = true → s.fullAt c.chip ps[k] = true) :
    ∃ u, SameButRaces (c.taken s ps) u ∧
      c.ldf s = .ok { s := u, dst := some (c.lanesOnly fun k => s.readPlaces ps[k]), late := some (.here, 0) } := by
  have hall : (lanesOf c.active).all (fun k => s.fullAt c.chip ps[k]) = true :=
    List.all_eq_true.mpr fun k hk => hfull k (mem_lanesOf.mp hk)
  simp only [Ctx.ldf, hps, Ctx.any_orphaned horphan]
  change ∃ u, _ ∧ (if (!(lanesOf c.active).all fun k => s.fullAt c.chip ps[k]) = true then _ else _) = _
  rw [hall]
  refine ⟨_, ?_, rfl⟩
  have htake (s : State) (k : Fin 32) : SameButRaces s (c.observed s ps[k] k) := by
    unfold Ctx.observed
    split
    · exact .ctxHb ..
    · exact .refl s
  have hread := (SameButRaces.atomicAll c s c.active ps { read := true }).trans (.fold (lanesOf c.active) _ htake _)
  unfold Ctx.taken
  by_cases hsub : c.x.sub = 0
  · rw [if_pos hsub, if_neg (not_not.mpr hsub)]
    refine SameButRaces.fold₂ _ _ _ (fun s u k h => ?_) hread
    unfold State.markWord
    cases scratchOf ps[k] with
    | none => exact h
    | some w => exact (h.trans (.ctxHb ..)).updTask ..
  · rw [if_neg hsub, if_pos hsub]
    exact hread

end

/-! ### STF (R148) -/

section
variable {c : Ctx} {s : State} {x : Ops}

theorem answers_stf_of_error {t : Trouble} (h : c.reach s c.active .write 4 c.scratchAddr = .error t) : Answers (.stf x) x c s (.trap t) :=
  ⟨_, by unfold exec; exact rfl, by simp only [h]⟩

theorem answers_testf_of_error {t : Trouble} (h : c.reach s c.active .read 4 c.scratchAddr = .error t) : Answers (.testf x) x c s (.trap t) :=
  ⟨_, by unfold exec; exact rfl, by simp only [h]⟩

variable {ps : Lanes (List Place)}

/-- A scratchpad word written and marked full by a lane. -/
def Ctx.filled (c : Ctx) (ps : Lanes (List Place)) (s : State) (k : Fin 32) : State :=
  match scratchOf ps[k] with
  | some _ => (s.writePlaces ps[k] c.vd[k]).markWord c.chip ps[k] 1
  | none => s

theorem answers_stf_of_ok (hps : c.reach s c.active .write 4 c.scratchAddr = .ok ps) :
    ∃ u, SameButRaces ((lanesOf c.active).foldl (c.filled ps) s) u ∧ Answers (.stf x) x c s (.ok { s := u }) := by
  have ha : Answers (.stf x) x c s _ := ⟨_, by unfold exec; exact rfl, rfl⟩
  simp only [hps] at ha
  refine ⟨_, (SameButRaces.fold₂ _ _ _ (fun s u k h => ?_) (.refl s)).trans (.atomicAll ..), ha⟩
  unfold Ctx.filled
  cases hword : scratchOf ps[k] with
  | none => exact h
  | some w =>
    unfold State.markWord
    rw [hword]
    exact ((h.trans (.ctxHb ..)).writePlaces ..).updTask ..

/-! ### TESTF (R148) -/

theorem answers_testf_of_ok (hps : c.reach s c.active .read 4 c.scratchAddr = .ok ps) :
    ∃ u, SameButRaces s u ∧ Answers (.testf x) x c s (c.value u fun k => if s.fullAt c.chip ps[k] then 1 else 0) := by
  have ha : Answers (.testf x) x c s _ := ⟨_, by unfold exec; exact rfl, rfl⟩
  simp only [hps] at ha
  refine ⟨_, SameButRaces.trans (.fold _ _ (fun s k => ?_) s) (.atomicAll ..), ha⟩
  split
  · exact .ctxHb ..
  · exact .refl s

end

/-! ### What the instructions end in -/

/-- An LDF that is ready ends as its issue does, with the EMPTY_ORPHAN test made after it (R149, R246). -/
theorem exec_ldf {s t : State} {x : Ops} {c : Ctx} {g : GangRef} {lanes : LaneMask} (hr : Ready s (.ldf x) x c) (hw : c.w = .gang g lanes)
    (h : issue s (.ldf x) x Ctx.ldf = .next t) : exec (.ldf x) s = .next (t.orphanTest g.chip g.task) := by
  change execLdf x s = _
  simp only [execLdf, h, ready_issuer hr, hw]

/-- Settles O14: LDF takes its words where all are full and waits where one is empty, STF fills them, and TESTF reads the marks. -/
theorem fullEmptyWords : Obligations.FullEmptyWords := by
  refine fun s x c ps => ⟨fun g lanes hr hroom hw hps horphan hfull => ?full, fun g lanes k hr hw hps horphan hk hempty => ?empty,
    fun hr hps => ?stf, fun hr hroom hps => ?testf⟩
  case full =>
    obtain ⟨u, hsame, hdone⟩ := Ctx.ldf_of_full hps horphan hfull
    rw [Ctx.taken, ready_x hr] at hsame
    exact ⟨u, hsame, exec_ldf hr hw (issue_ok hr hdone (fun _ => hroom) (.inr rfl))⟩
  case empty => exact exec_ldf hr hw (issue_wait hr (Ctx.ldf_of_empty hps horphan hk hempty))
  case stf =>
    obtain ⟨u, hsame, ha⟩ := answers_stf_of_ok hps
    exact ⟨u, hsame, ha.does hr rfl⟩
  case testf =>
    obtain ⟨u, hsame, ha⟩ := answers_testf_of_ok hps
    exact ⟨u, hsame, ha.value hr hroom rfl⟩

end Sys2Proof.Machine
end

section
/-! SUPPORT. Loads, stores and atomics that nothing stops complete, and the others fault by the first check that fails (R142, R144, R145, R150 to R152,
R159, R299, R301). -/

namespace Sys2Proof.Machine

/-- Settles O11: each load answers a load from the places it has reached, or for SLD from those of its lowest lane, and such a load completes. -/
theorem loadsComplete : Obligations.LoadsComplete := by
  refine fun s x => ⟨fun c ps hr hroom hps hrace => ?ld, fun c ps hr hroom hps hrace => ?lds, fun c ps g lanes t hr hroom hw ht => ?ldc,
    fun c ps hr hroom => ?sld⟩
  case ld =>
    obtain rfl := ready_x hr
    exact (Ctx.load_of_ok hps ▸ answers_ld s c.x c).load_completes hr hroom hrace
  case lds =>
    obtain rfl := ready_x hr
    exact (Ctx.load_of_ok hps ▸ answers_lds s c.x c).load_completes hr hroom hrace
  case ldc =>
    intro addr hin hout hrace
    have hplaces (k : Fin 32) : c.imagePlaces t (szBytes (x.sb 2 0)) k = ps[k].map some := by
      unfold Ctx.imagePlaces
      split
      · next hk => exact (hin k hk).2
      · next hk => rw [hout k (by simpa using hk)]; rfl
    have hbad := Ctx.imageBad_eq_zero.mpr fun k hk => (hin k hk).1
    exact (Ctx.loadImage_of_granted hbad hplaces ▸ answers_ldc hw ht).load_completes hr hroom hrace
  case sld =>
    intro a low hps hrace
    obtain ⟨u, hsame, ha⟩ := answers_sld_of_none hps hrace
    exact ⟨u, hsame, ha.late hr hroom rfl⟩

/-! ### The faults of accesses (R142, R150, R159, R299, R301) -/

section
variable {s : State} {x : Ops} {c : Ctx}

theorem exec_load_misreached {i : Instr} {addr : Fin 32 → Nat} (ha : Answers i x c s (c.load s addr)) (hr : Ready s i x c) :
    ∀ t, c.reach s c.active .read (szBytes (x.sb 2 0)) addr = .error t → exec i s = .next (c.fault s t) := by
  intro t h
  obtain rfl := ready_x hr
  exact ha.fault hr (Ctx.load_of_error h)

theorem exec_store_misreached {i : Instr} {n : Nat} {addr val : Fin 32 → Nat} {bind : Bool} (ha : Answers i x c s (c.storeTo s n addr val bind))
    (hr : Ready s i x c) : ∀ t, c.reach s c.active .write n addr = .error t → exec i s = .next (c.fault s t) :=
  fun _ h => ha.fault hr (Ctx.storeTo_of_error h)

end

/-- Settles O13: an atomic answers by the first of its checks that fails, and completes where none does. -/
theorem atomicsComplete : Obligations.AtomicsComplete := by
  refine fun s x c ps => ⟨fun hr hroom h => ?atom, fun hr hroom h => ?cas, fun hr h => ?red, ?index, fun e t h => Ctx.scopeTrouble_some h⟩
  case atom =>
    obtain ⟨he, hscope, hps, hrace⟩ := h
    exact (answers_atom s x c).atomic_completes hscope hps he hr (fun _ => hroom) hrace
  case cas =>
    obtain ⟨he, hscope, hps, hrace⟩ := h
    exact (answers_atomCas s x c).atomic_completes hscope hps he hr (fun _ => hroom) hrace
  case red =>
    obtain ⟨he, hscope, hps, hrace⟩ := h
    exact (answers_red s x c).atomic_completes hscope hps he hr nofun hrace
  case index =>
    have checks {i : Instr} {e n ord : Nat} {new : Fin 32 → Nat → Option Nat} {fetch : Bool}
        (ha : Answers i x c s (c.atomics s n e ord new fetch)) (hr : Ready s i x c) :
        (∀ t, c.scopeTrouble s e = some t → exec i s = .next (c.fault s t)) ∧
        (63 < e → c.reach s c.active .both n (fun k => c.va[k]) = .ok ps → exec i s = .next (c.fault s { cause := 2, lanes := c.active })) :=
      ⟨fun t h => ha.fault hr (Ctx.atomics_of_stale h),
       fun he hps => ha.fault hr (Ctx.atomics_of_index (Ctx.scopeTrouble_of_large he) hps he)⟩
    exact ⟨checks (answers_atom s x c), checks (answers_red s x c), checks (answers_atomCas s x c)⟩

/-- Settles O12: a store answers by the first of its checks that fails, and completes where none does; so do the faults of the other accesses. -/
theorem storesAndFaults : Obligations.StoresAndFaults := by
  refine ⟨fun s x => ⟨fun c ps hr hps hrace => ?st, fun c ps hr hps hrace => ?sts⟩, fun s x c => ?faults⟩
  case st => exact (answers_st s x c).store_completes hps hr hrace
  case sts => exact (answers_sts s x c).store_completes hps hr hrace
  case faults =>
    intro n refused racing m moment atomic w op
    have hatomic {i : Instr} {e n ord : Nat} {new : Fin 32 → Nat → Option Nat} {fetch : Bool}
        (ha : Answers i x c s (c.atomics s n e ord new fetch)) : atomic i n e new := fun hr hscope =>
      ⟨fun t h => ha.fault hr (Ctx.atomics_of_error hscope h), fun ps t hps he hrace => ha.fault hr (Ctx.atomics_of_race hscope hps he hrace)⟩
    refine ⟨exec_load_misreached (answers_ld s x c), exec_load_misreached (answers_lds s x c), exec_store_misreached (answers_st s x c),
      exec_store_misreached (answers_sts s x c), fun hr ps t hps hrace => ?ldRace, fun hr ps t hps hrace => ?stRace, fun hr => ⟨fun t h => ?mld, fun ps t hps hrace => ?mldRace⟩,
      fun hr => ⟨fun t h => ?mst, fun ps t hps hrace => ?mstRace⟩, fun hr t h => (answers_stf_of_error h).fault hr rfl,
      fun hr t h => (answers_testf_of_error h).fault hr rfl, fun g lanes hr hw t h => exec_ldf hr hw (issue_trap hr (Ctx.ldf_of_error h)),
      hatomic (answers_atom s x c), hatomic (answers_red s x c), hatomic (answers_atomCas s x c), fun hr => ?sld, fun g lanes k hr hw ht => ?ldc,
      fun m need addr t h => Ctx.reach_error h, fun atomic write m addr ps t h => Ctx.raceOf_some h⟩
    case ldRace =>
      obtain rfl := ready_x hr
      exact (Ctx.load_of_ok hps ▸ answers_ld s c.x c).load_fault hr hrace
    case stRace => exact (answers_st s x c).fault hr (Ctx.storeTo_of_race hps hrace)
    case mld => exact (answers_mld_of_error h).fault hr rfl
    case mldRace => exact (answers_mld_of_ok hps).load_fault hr hrace
    case mst => exact (answers_mst s x c).fault hr (Ctx.storeTo_of_error h)
    case mstRace => exact (answers_mst s x c).fault hr (Ctx.storeTo_of_race hps hrace)
    case sld =>
      exact ⟨fun t h => (answers_sld_of_error h).fault hr rfl, fun ps t hps hrace => (answers_sld_of_race hps hrace).fault hr rfl⟩
    case ldc =>
      intro addr place bad out
      have ha := answers_ldc (x := x) hw ht
      have hplaces (j : Fin 32) : c.imagePlaces k n j = if inMask c.active j then place j else [] := rfl
      have hout : out = c.imageOut k n := by
        refine congrArg maskOf (funext fun j => ?_)
        rw [hplaces]
        cases inMask c.active j <;> rfl
      refine ⟨fun hbad => ha.fault hr (Ctx.loadImage_of_misaligned hbad), fun hbad h => ?_, fun ps t hbad hin hoff hrace => ?_⟩
      · rw [hout] at h ⊢
        exact ha.fault hr (Ctx.loadImage_of_not_granted hbad h)
      · have hgranted (j : Fin 32) : c.imagePlaces k n j = ps[j].map some := by
          rw [hplaces]
          split
          · next hj => exact hin j hj
          · next hj => rw [hoff j (by simpa using hj)]; rfl
        exact (Ctx.loadImage_of_granted hbad hgranted ▸ ha).load_fault hr hrace

end Sys2Proof.Machine
end

section
/-! SUPPORT. What stores and atomics leave as it was (R144, R145, R150 to R152, R203): every byte outside the places of their active lanes, every
gang, and all that is not memory. -/

namespace Sys2Proof.Machine

/-! ### Bytes that a write does not reach -/

/-- A byte of a chip's device memory as a read sees it. -/
def Chip.seenByte (c : Chip) (a : Nat) : Byte := if c.revoked then 0xFF else Mem.get c.mem a

/-- A chip after a byte of its device memory is written. -/
def Chip.setByte (c : Chip) (a : Nat) (b : Byte) : Chip := if c.revoked then c else { c.touch a with mem := Mem.set c.mem a b }

theorem State.writeByte_dram (s : State) (k a : Nat) (r : Bool) (b : Byte) : s.writeByte (.dram k a r) b = s.updChip k (·.setByte a b) := rfl

theorem State.readByte_dram (s : State) (k a : Nat) (r : Bool) : s.readByte (.dram k a r) = ((s.chip? k).map (·.seenByte a)).getD 0 := by
  simp only [State.readByte]
  cases s.chip? k <;> rfl

theorem State.readByte_scratch (s : State) (k t a : Nat) : s.readByte (.scratch k t a) = ((s.task? k t).map (Mem.get ·.scratch a)).getD 0 := by
  simp only [State.readByte]
  cases s.task? k t <;> rfl

theorem Chip.seenByte_written (c : Chip) {a e : Nat} (b : Byte) (h : a ≠ e) : (c.setByte a b).seenByte e = c.seenByte e := by
  unfold Chip.setByte
  split
  · rfl
  · next hrevoked =>
    have htouch : (c.touch a).revoked = c.revoked := by unfold Chip.touch; split <;> rfl
    simp only [Chip.seenByte, htouch, Mem.get_set_ne _ _ h]

@[simp] theorem Chip.tasks_setByte (c : Chip) (a : Nat) (b : Byte) : (c.setByte a b).tasks = c.tasks := by
  unfold Chip.setByte Chip.touch
  split
  · rfl
  · split <;> rfl

/-- Of a chip's rewrite what it leaves of the chip is left. -/
theorem State.chip?_map_updChip {α : Type} (s : State) (n k : Nat) {f : Chip → Chip} {p : Chip → α} (h : ∀ c, p (f c) = p c) :
    ((s.updChip n f).chip? k).map p = (s.chip? k).map p := by
  rw [State.chip?_updChip]
  split
  · simp only [Option.map_map, Function.comp_def, h]
  · rfl

theorem State.task?_updChip_of_tasks (s : State) (n : Nat) {f : Chip → Chip} (h : ∀ c, (f c).tasks = c.tasks) (k t : Nat) :
    (s.updChip n f).task? k t = s.task? k t := by
  have htasks := s.chip?_map_updChip n k (p := fun c => Tab.find c.tasks t) fun c => by rw [h]
  simpa only [State.task?, Option.bind_map, Function.id_comp, Function.comp_def, id] using congrArg (Option.bind · id) htasks

theorem State.readByte_writeByte_apart (s : State) {q p : Place} (b : Byte) (h : q.sameByte p = false) :
    (s.writeByte q b).readByte p = s.readByte p := by
  cases q with
  | host a =>
    cases p with
    | host e => exact Mem.get_set_ne _ _ (by simpa [Place.sameByte] using h)
    | _ => rfl
  | dram k a r =>
    rw [State.writeByte_dram]
    cases p with
    | host e => rfl
    | scratch j t e => rw [State.readByte_scratch, State.readByte_scratch, s.task?_updChip_of_tasks k fun c => c.tasks_setByte a b]
    | dram j e r' =>
      rw [State.readByte_dram, State.readByte_dram]
      by_cases hk : k = j
      · have hne : a ≠ e := by simpa [Place.sameByte, hk] using h
        rw [s.chip?_map_updChip k j fun c => c.seenByte_written b hne]
      · rw [State.chip?_updChip_ne s _ hk]
  | scratch k t a =>
    cases p with
    | host e => rfl
    | dram j e r => rw [State.readByte_dram, State.readByte_dram]; exact congrArg (Option.getD · 0) (s.chip?_map_updChip k j fun _ => rfl)
    | scratch j u e =>
      rw [State.readByte_scratch, State.readByte_scratch]
      show (((s.updTask k t _).task? j u).map _).getD 0 = _
      rw [State.task?_updTask]
      split
      · next hkt =>
        have hne : a ≠ e := by simpa [Place.sameByte, hkt] using h
        simp only [Option.map_map, Function.comp_def, Mem.get_set_ne _ _ hne]
      · rfl

/-! ### What a write of memory keeps of the machine -/

/-- Only memory and the race record differ: the devices, the tables, the fabric and every gang are the same. -/
structure State.OnlyMemory (s t : State) : Prop where
  devs : t.devs = s.devs
  guests : t.guests = s.guests
  packets : t.packets = s.packets
  irqs : t.irqs = s.irqs
  due : t.due = s.due
  agenda : t.agenda = s.agenda
  fresh : t.fresh = s.fresh
  gangs : ∀ g, t.gang? g = s.gang? g

namespace State.OnlyMemory

theorem refl (s : State) : s.OnlyMemory s := ⟨rfl, rfl, rfl, rfl, rfl, rfl, rfl, fun _ => rfl⟩

theorem trans {s t u : State} (a : s.OnlyMemory t) (b : t.OnlyMemory u) : s.OnlyMemory u :=
  ⟨b.devs.trans a.devs, b.guests.trans a.guests, b.packets.trans a.packets, b.irqs.trans a.irqs, b.due.trans a.due, b.agenda.trans a.agenda,
   b.fresh.trans a.fresh, fun g => (b.gangs g).trans (a.gangs g)⟩

theorem of_sameButRaces {s u : State} (h : SameButRaces s u) : s.OnlyMemory u :=
  have ⟨hdevs, hguests, _, hpackets, hirqs, _, hdue, hagenda, hfresh, _⟩ := h
  ⟨hdevs, hguests, hpackets, hirqs, hdue, hagenda, hfresh, h.gang?_eq⟩

theorem writeByte (s : State) (p : Place) (b : Byte) : s.OnlyMemory (s.writeByte p b) := by
  cases p with
  | dram k a r =>
    refine ⟨rfl, rfl, rfl, rfl, rfl, rfl, rfl, fun g => ?_⟩
    rw [State.writeByte_dram]
    unfold State.gang?
    rw [s.task?_updChip_of_tasks k fun c => c.tasks_setByte a b]
  | host a => exact ⟨rfl, rfl, rfl, rfl, rfl, rfl, rfl, fun _ => rfl⟩
  | scratch k t a =>
    refine ⟨rfl, rfl, rfl, rfl, rfl, rfl, rfl, fun g => ?_⟩
    show ((s.updTask k t _).task? g.chip g.task).bind _ = _
    rw [State.task?_updTask]
    unfold State.gang?
    split
    · cases s.task? g.chip g.task <;> rfl
    · rfl

end State.OnlyMemory

theorem State.rmw_state (s : State) (ps : List Place) (new : Nat → Option Nat) :
    (s.rmw ps new).2.2 = s ∨ ∃ v, (s.rmw ps new).2.2 = s.writePlaces ps v := by
  unfold State.rmw
  dsimp only
  split
  · exact .inr ⟨_, rfl⟩
  · exact .inl rfl

/-! ### Stores in the places of the active lanes -/

/-- A byte lies at no place of an active lane. -/
def Ctx.apart (c : Ctx) (ps : Lanes (List Place)) (p : Place) : Prop :=
  ∀ k : Fin 32, inMask c.active k = true → ∀ q ∈ ps[k], q.sameByte p = false

/-- A change of memory in the places of the active lanes. -/
structure Ctx.StoresIn (c : Ctx) (ps : Lanes (List Place)) (s t : State) : Prop where
  rest : s.OnlyMemory t
  bytes : ∀ p, c.apart ps p → t.readByte p = s.readByte p

namespace Ctx.StoresIn

variable {c : Ctx} {ps : Lanes (List Place)}

theorem refl (s : State) : c.StoresIn ps s s := ⟨.refl s, fun _ _ => rfl⟩

theorem trans {s t u : State} (a : c.StoresIn ps s t) (b : c.StoresIn ps t u) : c.StoresIn ps s u :=
  ⟨a.rest.trans b.rest, fun p hp => (b.bytes p hp).trans (a.bytes p hp)⟩

theorem of_sameButRaces {s u : State} (h : SameButRaces s u) : c.StoresIn ps s u := ⟨.of_sameButRaces h, fun p _ => h.readByte_eq p⟩

theorem writePlaces {k : Fin 32} (hk : inMask c.active k = true) (qs : List Place) (hqs : ∀ q ∈ qs, q ∈ ps[k]) (s : State) (v : Nat) :
    c.StoresIn ps s (s.writePlaces qs v) := by
  induction qs generalizing s v with
  | nil => exact refl s
  | cons q qs ih =>
    have hbyte : c.StoresIn ps s (s.writeByte q (BitVec.ofNat 8 v)) :=
      ⟨.writeByte .., fun p hp => s.readByte_writeByte_apart _ (hp k hk q (hqs q (List.mem_cons_self ..)))⟩
    exact hbyte.trans (ih (fun q hq => hqs q (List.mem_cons_of_mem _ hq)) _ _)

/-- A fold over the active lanes of steps that each store in the lane's places. -/
theorem fold {α : Type} (f : α → Fin 32 → α) (st : α → State)
    (h : ∀ r (k : Fin 32), inMask c.active k = true → c.StoresIn ps (st r) (st (f r k))) (r : α) :
    c.StoresIn ps (st r) (st ((lanesOf c.active).foldl f r)) :=
  List.foldlRecOn (motive := fun q => c.StoresIn ps (st r) (st q)) _ _ (refl _) fun q hq k hk => hq.trans (h q k (mem_lanesOf.mp hk))

theorem storedAt (s : State) (val : Fin 32 → Nat) : c.StoresIn ps s (c.storedAt s ps val) :=
  fold _ id (fun s k hk => writePlaces hk ps[k] (fun _ hq => hq) s _) s

theorem rmwAt (s : State) (new : Fin 32 → Nat → Option Nat) : c.StoresIn ps s (c.rmwAt s ps new).1 := by
  rw [Ctx.rmwAt_eq]
  refine fold _ Prod.fst (fun r k hk => ?_) (s, Lanes.all 0)
  show c.StoresIn ps r.1 (r.1.rmw ps[k] (new k)).2.2
  rcases r.1.rmw_state ps[k] (new k) with hsame | ⟨v, hwritten⟩
  · rw [hsame]; exact refl r.1
  · rw [hwritten]; exact writePlaces hk ps[k] (fun _ hq => hq) r.1 v

end Ctx.StoresIn

/-! ### The frame of a completion that has stored -/

/-- A gang's instruction that completes without a flag, after a change of memory in the places of its active lanes, changes no other byte, and of
the machine and its gang no more than a completion does. -/
theorem Ctx.StoresIn.finish_frame {s : State} {i : Instr} {x : Ops} {c : Ctx} {o : Out} {g : GangRef} {lanes : LaneMask} {ps : Lanes (List Place)}
    (h : c.StoresIn ps s o.s) (hr : Ready s i x c) (hw : c.w = .gang g lanes) (hflags : o.flags = Lanes.all 0) (hmflags : o.mflags = Lanes.all 0) :
    (∀ p, c.apart ps p → (c.finish o).readByte p = s.readByte p) ∧ OthersKept s (c.finish o) g ∧
      ∃ q, (c.finish o).gang? g = some q ∧ c.kept q ∧ q.fpflag = c.g.fpflag ∧ q.mflag = c.g.mflag := by
  obtain ⟨⟨hdevs, hguests, hpackets, hirqs, hdue, hagenda, hfresh, hgangs⟩, hgang, -, -, -, -, hbytes⟩ := c.finish_gang o hw
  obtain ⟨rest, hstored⟩ := h
  have hdest := ready_destOk hr
  rw [rest.gangs g, (ready_gang hr hw).2.1] at hgang
  refine ⟨fun p hp => (hbytes p).trans (hstored p hp), ⟨hdevs.trans rest.devs, hguests.trans rest.guests, hpackets.trans rest.packets,
    hirqs.trans rest.irqs, hdue.trans (by rw [rest.due]), hagenda.trans rest.agenda, hfresh.trans rest.fresh,
    fun k hk => (hgangs k hk).trans (rest.gangs k)⟩, _, hgang, c.kept_retireGang o hdest, c.fpflag_retireGang o hdest (.inl hflags),
    c.mflag_retireGang o hdest hmflags⟩

/-- An instruction completes without a flag, after a change of memory in the places of its active lanes. -/
def Ctx.StoresAndEnds (c : Ctx) (ps : Lanes (List Place)) (s : State) (i : Instr) : Prop :=
  ∃ o : Out, c.StoresIn ps s o.s ∧ o.flags = Lanes.all 0 ∧ o.mflags = Lanes.all 0 ∧ exec i s = .next (c.finish o)

section
variable {s : State} {i : Instr} {c : Ctx} {ps : Lanes (List Place)}

theorem Ctx.StoresAndEnds.of_store {val : Fin 32 → Nat} (h : ∃ u, SameButRaces (c.storedAt s ps val) u ∧ exec i s = .next (c.finish { s := u })) :
    c.StoresAndEnds ps s i := by
  obtain ⟨u, hsame, hdone⟩ := h
  exact ⟨{ s := u }, (Ctx.StoresIn.storedAt s val).trans (.of_sameButRaces hsame), rfl, rfl, hdone⟩

theorem Ctx.StoresAndEnds.of_atomic {new : Fin 32 → Nat → Option Nat} {fetch : Bool}
    (h : ∃ u, SameButRaces (c.rmwAt s ps new).1 u ∧ exec i s = .next (c.finish (fetchOut fetch u (c.rmwAt s ps new).2))) : c.StoresAndEnds ps s i := by
  obtain ⟨u, hsame, hdone⟩ := h
  have hstores : c.StoresIn ps s u := (Ctx.StoresIn.rmwAt s new).trans (.of_sameButRaces hsame)
  refine ⟨_, ?_, ?_, ?_, hdone⟩ <;> cases fetch
  case refine_1.false | refine_1.true => exact hstores
  all_goals rfl

end

/-- Settles O55: a store or an atomic that nothing stops completes after changes in the places of its active lanes. -/
theorem storeFrames : Obligations.StoreFrames := by
  intro s t i x c g lanes ps hr hw hroom hexec n w op cas clear hkind
  have hdone : c.StoresAndEnds ps s i := by
    rcases hkind with ⟨rfl, hps, hrace⟩ | ⟨rfl, hps, hrace⟩ | ⟨rfl, hps, hrace⟩ | ⟨rfl, he, hscope, hps, hrace⟩ | ⟨rfl, he, hscope, hps, hrace⟩ |
      ⟨rfl, he, hscope, hps, hrace⟩
    · exact .of_store ((answers_st s x c).store_completes hps hr hrace)
    · exact .of_store ((answers_sts s x c).store_completes hps hr hrace)
    · exact .of_store ((answers_mst s x c).store_completes hps hr hrace)
    · exact .of_atomic ((answers_atom s x c).atomic_completes hscope hps he hr (fun _ => hroom) hrace)
    · exact .of_atomic ((answers_red s x c).atomic_completes hscope hps he hr nofun hrace)
    · exact .of_atomic ((answers_atomCas s x c).atomic_completes hscope hps he hr (fun _ => hroom) hrace)
  obtain ⟨o, hstores, hflags, hmflags, hfin⟩ := hdone
  obtain rfl : c.finish o = t := Host.Outcome.next.inj (hfin.symm.trans hexec)
  exact hstores.finish_frame hr hw hflags hmflags

end Sys2Proof.Machine
end

section
/-! SUPPORT. Barrier objects (R162 to R165): what arrivals, expected bytes and landed bytes make of one, and how the BAR instructions end. -/

namespace Sys2Proof.Machine

/-! ### The object (R164) -/

/-- The object at the end of its phase. -/
def BarObj.ended (b : BarObj) : BarObj := { b with phase := (b.phase + 1) % 2 ^ 31, count := 0, arrived := 0 }

/-- All have arrived and no byte is due. -/
def BarObj.Done (b : BarObj) : Prop := b.v = true ∧ b.count ≠ 0 ∧ b.arrived = b.count ∧ b.bytes = 0

theorem BarObj.settle_of_done {b : BarObj} (h : b.Done) : b.settle = b.ended := by
  obtain ⟨hv, hcount, harrived, hbytes⟩ := h
  unfold BarObj.settle
  rw [if_pos (by simp [hv, hcount, harrived, hbytes])]
  rfl

theorem BarObj.settle_of_not_done {b : BarObj} (h : ¬ b.Done) : b.settle = b := by
  unfold BarObj.settle
  refine if_neg fun hdone => h ?_
  simpa [BarObj.Done, and_assoc] using hdone

/-- The end of the phase is decided by any condition that says the same. -/
theorem BarObj.settle_eq {b : BarObj} {p : Prop} [Decidable p] (h : b.Done ↔ p) : b.settle = if p then b.ended else b := by
  split
  · next hp => exact settle_of_done (h.mpr hp)
  · next hp => exact settle_of_not_done fun hd => hp (h.mp hd)

theorem BarObj.arrive_counted {b : BarObj} {k n : Nat} (hv : b.v = true) (hn : n ≠ 0) (hcount : b.count = 0 ∨ b.count = n) (hroom : b.arrived + k ≤ n) :
    b.arrive k n = some ({ b with count := n, arrived := b.arrived + k }).settle := by
  unfold BarObj.arrive
  rw [if_neg (by simp [hv, hn]), if_neg (by rcases hcount with h | h <;> simp [h]), if_neg (by omega)]

theorem BarObj.arrive_mismatch {b : BarObj} {k n : Nat} (h : b.v = false ∨ n = 0 ∨ (b.count ≠ 0 ∧ b.count ≠ n) ∨ n < b.arrived + k) :
    b.arrive k n = none := by
  unfold BarObj.arrive
  split_ifs with hvalid hcount hroom
  · rfl
  · rfl
  · rfl
  · simp only [Bool.or_eq_true, Bool.not_eq_true', beq_iff_eq, not_or, Bool.not_eq_false] at hvalid
    simp only [ne_eq, Bool.and_eq_true, decide_eq_true_eq] at hcount
    simp only [hvalid, hcount, hroom, Bool.true_eq_false, or_self, ne_eq] at h

/-- One byte fewer is due, modulo 2^32. -/
theorem sext_wrapNat_pred {n : Int} (hlow : -2 ^ 31 ≤ n) (hhigh : n < 2 ^ 31) :
    sext (wrapNat (n - 1) 32) 32 = if n = -2 ^ 31 then 2 ^ 31 - 1 else n - 1 := by
  unfold sext wrapNat
  split_ifs <;> omega

/-- Settles O16: each operation ends the phase where all have arrived by it and no byte is due. -/
theorem barrierObject : Obligations.BarrierObject := by
  refine fun b k n => ⟨fun hv hn hcount hroom => ?arrive, BarObj.arrive_mismatch, fun hv hbytes => ?expect, fun h => ?mismatch, rfl, rfl, rfl, rfl,
    fun hlow hhigh => ?land⟩
  case arrive =>
    rw [BarObj.arrive_counted hv hn hcount hroom]
    exact congrArg some (BarObj.settle_eq (by simp [BarObj.Done, hv, hn]))
  case expect =>
    unfold BarObj.expect
    rw [if_neg (by simpa [hv] using hbytes)]
    exact congrArg some (BarObj.settle_eq (by simp [BarObj.Done, hv]))
  case mismatch =>
    exact if_pos (by simpa using h)
  case land =>
    show b.landOne = _
    unfold BarObj.landOne
    rw [sext_wrapNat_pred hlow hhigh]
    refine BarObj.settle_eq (and_congr_right fun _ => and_congr_right fun _ => and_congr_right fun _ => ?_)
    dsimp only
    split_ifs <;> omega

/-! ### BAR instructions (R162 to R165) -/

section
variable {s : State} {x : Ops} {c : Ctx} {ps : List Place} {need : Acc} {f : State → BarObj → List Place → Res}

/-- A barrier instruction acts on its object where this is reached and nothing races with the access (R162, R299). -/
def Ctx.barFree (c : Ctx) (s : State) (ps : List Place) (need : Acc) (write : Bool) : Prop :=
  c.barReach s need (c.once c.va) = .ok ps ∧ c.raceOf s (fun _ => true) (fun _ => write) c.active (fun _ => c.once c.va) (Lanes.all ps) = none

/-- A barrier instruction acts on the fields of its object, in a state with another race record. -/
theorem Ctx.bar_of_free (h : c.barFree s ps need (need != .read)) :
    ∃ u, SameButRaces s u ∧ c.bar s need f = f u (BarObj.ofNat (s.readPlaces ps)) ps := by
  obtain ⟨hps, hrace⟩ := h
  simp only [Ctx.bar, hps, hrace]
  exact ⟨_, (SameButRaces.noteAll ..).trans (.atomicAll ..), rfl⟩

theorem Answers.bar {i : Instr} (ha : Answers i x c s (c.bar s need f)) (h : c.barFree s ps need (need != .read)) :
    ∃ u, SameButRaces s u ∧ Answers i x c s (f u (BarObj.ofNat (s.readPlaces ps)) ps) := by
  obtain ⟨u, hsame, hbar⟩ := Ctx.bar_of_free (f := f) h
  exact ⟨u, hsame, hbar ▸ ha⟩

theorem SameButRaces.barAcquire (c : Ctx) (s : State) (m : LaneMask) (ps : List Place) : SameButRaces s (c.barAcquire s m ps) :=
  .foldHb c s _ _

theorem exec_barInit (hr : Ready s (.barInit x) x c) (h : c.barFree s ps .write true) :
    ∃ u, SameButRaces (s.writePlaces ps (2 ^ 127)) u ∧ exec (.barInit x) s = .next (c.finish { s := u }) := by
  have ha : Answers (.barInit x) x c s _ := ⟨_, by unfold exec; exact rfl, rfl⟩
  obtain ⟨u, hsame, ha⟩ := ha.bar h
  exact ⟨_, (hsame.writePlaces ..).trans (.ctxHb ..), ha.does hr rfl⟩

theorem exec_barArrive_counted {b : BarObj} (hr : Ready s (.barArrive x) x c) (hroom : c.room s = true) (h : c.barFree s ps .both true)
    (hb : (BarObj.ofNat (s.readPlaces ps)).arrive (laneCount c.active) (c.once c.vb) = some b) :
    ∃ u, SameButRaces (s.writePlaces ps b.toNat) u ∧
      exec (.barArrive x) s = .next (c.finish { s := u, dst := some (c.lanesOnly fun _ => (BarObj.ofNat (s.readPlaces ps)).phase) }) := by
  have ha : Answers (.barArrive x) x c s _ := ⟨_, by unfold exec; exact rfl, rfl⟩
  obtain ⟨u, hsame, ha⟩ := ha.bar h
  simp only [hb] at ha
  exact ⟨_, (hsame.writePlaces ..).trans (.foldHb ..), ha.value hr hroom rfl⟩

theorem exec_barArrive_mismatch (hr : Ready s (.barArrive x) x c) (h : c.barFree s ps .both true)
    (hb : (BarObj.ofNat (s.readPlaces ps)).arrive (laneCount c.active) (c.once c.vb) = none) :
    exec (.barArrive x) s = .next (c.fault s { cause := 13, lanes := c.active, addr := BitVec.ofNat 64 (c.once c.va) }) := by
  have ha : Answers (.barArrive x) x c s _ := ⟨_, by unfold exec; exact rfl, rfl⟩
  obtain ⟨u, -, ha⟩ := ha.bar h
  simp only [hb] at ha
  exact ha.fault hr rfl

theorem exec_barExpect {b : BarObj} (hr : Ready s (.barExpect x) x c) (h : c.barFree s ps .both true) (hn : c.once c.vb < 2 ^ 31)
    (hb : (BarObj.ofNat (s.readPlaces ps)).expects (c.once c.vb) (laneCount c.active) = some b) :
    ∃ u, SameButRaces (s.writePlaces ps b.toNat) u ∧ exec (.barExpect x) s = .next (c.finish { s := u }) := by
  have ha : Answers (.barExpect x) x c s _ := ⟨_, by unfold exec; exact rfl, rfl⟩
  simp only [h.1, if_neg (Nat.not_le.mpr hn)] at ha
  obtain ⟨u, hsame, ha⟩ := ha.bar h
  simp only [hb] at ha
  exact ⟨_, hsame.writePlaces .., ha.does hr rfl⟩

/-! #### BAR.WAIT and BAR.TEST (R163) -/

/-- The active lanes whose token is not the object's phase. -/
def Ctx.turned (c : Ctx) (b : BarObj) : LaneMask := maskOf fun k => inMask c.active k && c.vb[k] != b.phase

theorem Ctx.lanesOnly_turned (b : BarObj) :
    (c.lanesOnly fun k => if inMask (c.turned b) k then 1 else 0) = c.lanesOnly fun k => if c.vb[k] ≠ b.phase then 1 else 0 :=
  Ctx.lanesOnly_congr fun k hk => by simp only [Ctx.turned, inMask_maskOf, hk, Bool.true_and, bne_iff_ne]

variable (h : c.barFree s ps .read false)
include h

theorem Ctx.barWait_of_turned (hturned : ∀ k : Fin 32, inMask c.active k = true → c.vb[k] ≠ (BarObj.ofNat (s.readPlaces ps)).phase) :
    ∃ u, SameButRaces s u ∧ c.barWait s = .ok { s := u } := by
  obtain ⟨u, hsame, hbar⟩ := Ctx.bar_of_free (need := .read) h
  refine ⟨_, hsame.trans (.barAcquire ..), hbar.trans (if_pos (List.all_eq_true.mpr fun k hk => ?_))⟩
  exact bne_iff_ne.mpr (hturned k (mem_lanesOf.mp hk))

theorem Ctx.barWait_of_phase {k : Fin 32} (hk : inMask c.active k = true) (hphase : c.vb[k] = (BarObj.ofNat (s.readPlaces ps)).phase) :
    c.barWait s = .wait .barWait (BitVec.ofNat 64 (c.once c.va)) (BitVec.ofNat 32 (c.once c.vb)) := by
  obtain ⟨u, -, hbar⟩ := Ctx.bar_of_free (need := .read) h
  refine hbar.trans (if_neg fun hall => ?_)
  exact bne_iff_ne.mp (List.all_eq_true.mp hall k (mem_lanesOf.mpr hk)) hphase

theorem exec_barTest (hr : Ready s (.barTest x) x c) (hroom : c.room s = true) :
    ∃ u, SameButRaces s u ∧ exec (.barTest x) s =
      .next (c.finish { s := u, dst := some (c.lanesOnly fun k => if c.vb[k] ≠ (BarObj.ofNat (s.readPlaces ps)).phase then 1 else 0) }) := by
  have ha : Answers (.barTest x) x c s _ := ⟨_, by unfold exec; exact rfl, rfl⟩
  obtain ⟨u, hsame, ha⟩ := ha.bar h
  have hdone := ha.value (f := fun k => if inMask (c.turned (BarObj.ofNat (s.readPlaces ps))) k then 1 else 0) hr hroom rfl
  rw [Ctx.lanesOnly_turned] at hdone
  exact ⟨_, hsame.trans (.barAcquire ..), hdone⟩

end

/-- Settles O17: each BAR instruction acts on the object that it has reached. -/
theorem barriersComplete : Obligations.BarriersComplete := by
  intro s x c ps a b free
  have hwait : Answers (.barWait x) x c s (c.barWait s) := ⟨_, by unfold exec; exact rfl, rfl⟩
  refine ⟨exec_barInit, fun b' => exec_barArrive_counted, exec_barArrive_mismatch, fun b' => exec_barExpect, fun hr h hturned => ?turned,
    fun k hr h hk hphase => hwait.hold hr (Ctx.barWait_of_phase h hk hphase), fun hr hroom h => exec_barTest h hr hroom⟩
  case turned =>
    obtain ⟨u, hsame, hdone⟩ := Ctx.barWait_of_turned h hturned
    exact ⟨u, hsame, hwait.does hr hdone⟩

end Sys2Proof.Machine
end

section
/-! SUPPORT. Fences and windows (R153 to R156, R275), timeline counters and scope entries (R157 to R160, R304 to R309): what each instruction of
them answers. -/

namespace Sys2Proof.Machine

/-! ### Fences (R153) -/

section
variable {s : State} {x : Ops} {c : Ctx}

theorem answers_fence_of_trouble {t : Trouble} (h : c.scopeTrouble s (c.once c.va) = some t) : Answers (.fence x) x c s (.trap t) :=
  ⟨_, by unfold exec; exact rfl, by simp only [h]⟩

theorem answers_fence_of_large (h : 63 < c.once c.va) : Answers (.fence x) x c s (.trap { cause := 2, lanes := c.active }) :=
  ⟨_, by unfold exec; exact rfl, by simp only [Ctx.scopeTrouble_of_large h, Ctx.scopeIndex_of_large h]⟩

theorem answers_fence_of_serving (he : c.once c.va ≤ 63) (h : c.scopeTrouble s (c.once c.va) = none) :
    ∃ u, SameButRaces s u ∧ Answers (.fence x) x c s (.ok { s := u }) := by
  have ha : Answers (.fence x) x c s _ := ⟨_, by unfold exec; exact rfl, rfl⟩
  simp only [h, Ctx.scopeIndex_of_le he] at ha
  exact ⟨_, .foldHb .., ha⟩

end

/-! ### Windows (R155, R275) -/

theorem inWin_iff {base size a : Nat} : inWin base size a = true ↔ base ≤ a ∧ a < base + size := by simp [inWin]

/-- A condition of each active lane is a value of 1 or 0. -/
theorem yields_of_test {s : State} {i : Instr} {x : Ops} {body : Ctx → State → Res} {f : Ctx → Fin 32 → Bool} {p : Ctx → Fin 32 → Prop}
    [∀ c k, Decidable (p c k)] (hexec : exec i s = issue s i x body) (hb : ∀ c, body c s = c.test s (f c)) (hp : ∀ c k, f c k = true ↔ p c k) :
    Yields s i x (fun _ => s) fun c k => if p c k then 1 else 0 := by
  refine yields_of_value hexec fun c => (hb c).trans (congrArg (c.value s) (funext fun k => ?_))
  simp only [hp]

/-- Settles O15: at each case of the scope entry, the window and the address, the body of the instruction computes what is stated. -/
theorem fencesWindows : Obligations.FencesWindows := by
  refine fun s x => ⟨fun c hr he h => ?fence, fun c t hr h => (answers_fence_of_trouble h).fault hr rfl,
    fun c hr h => (answers_fence_of_large h).fault hr rfl, ?ifence, ?pref, ?awin, fun hsub => ?window, fun hsub => ?host, fun hsub => ?device⟩
  case fence =>
    obtain ⟨u, hsame, ha⟩ := answers_fence_of_serving he h
    exact ⟨u, hsame, ha.does hr rfl⟩
  case ifence => exact does_of_ok (by unfold exec; exact rfl) fun _ => rfl
  case pref => exact does_of_ok (by unfold exec; exact rfl) fun _ => rfl
  case awin =>
    refine yields_of_value (by unfold exec; exact rfl) fun c => congrArg (c.value s) (funext fun k => ?_)
    simp only [inWin_iff]
  case window =>
    refine yields_of_test (by unfold exec; exact rfl) (fun c => congrArg (c.test s) (funext fun k => ?_)) fun c k => inWin_iff
    dsimp only
    split
    · omega
    · omega
    · rfl
  case host =>
    refine yields_of_test (by unfold exec; exact rfl) (fun c => congrArg (c.test s) (funext fun k => ?_)) fun c k => decide_eq_true_iff
    rw [hsub]
    rfl
  case device =>
    refine yields_of_test (f := fun c k => deviceHalf c.va[k]) (by unfold exec; exact rfl) (fun c => congrArg (c.test s) (funext fun k => ?_))
      fun c k => by simp [deviceHalf]
    rw [hsub]
    rfl

/-! ### Timeline counters (R160) -/

section
variable {s : State} {x : Ops} {c : Ctx}

theorem answers_tlwait (s : State) (x : Ops) (c : Ctx) : Answers (.tlwait x) x c s (c.tlwait s) := ⟨_, by unfold exec; exact rfl, rfl⟩

theorem Ctx.tlwait_of_reached (h : c.once c.vb ≤ c.counter s (opndBits c.x.a.opnd % 8)) : ∃ u, SameButRaces s u ∧ c.tlwait s = .ok { s := u } := by
  refine ⟨_, ?_, if_pos h⟩
  split
  · exact .refl s
  · exact .foldHb ..

theorem Ctx.tlwait_of_before (h : c.counter s (opndBits c.x.a.opnd % 8) < c.once c.vb) :
    c.tlwait s = .wait .tlwait (BitVec.ofNat 64 (opndBits c.x.a.opnd % 8)) (BitVec.ofNat 32 (c.once c.vb)) :=
  if_neg (Nat.not_le.mpr h)

/-! ### Records that a bundle reads once (R142, R143) -/

variable {a align n : Nat} {u : State} {bs : List Byte}

theorem Ctx.record_ok (h : c.record s a align n = .ok (u, bs)) : SameButRaces s u ∧ ∃ ps, c.recordAt s a align n = .ok ps ∧ bs = s.bytesAt ps := by
  unfold Ctx.record at h
  split at h
  · cases h
  · next ps hps =>
    dsimp only at h
    split at h
    · cases h
    · cases h
      exact ⟨.noteAll .., ps, hps, rfl⟩

/-! ### Scope entries (R157 to R159) -/

/-- An entry that SCOPEW and SCOPERET cannot write. -/
theorem scopeFixed_iff {e : Nat} : (decide (e < 5) || decide (63 < e)) = true ↔ e < 5 ∨ 63 < e := by simp

theorem answers_scopew_of_fixed {ps : List Place} (he : c.once c.va < 5 ∨ 63 < c.once c.va) (hps : c.recordAt s (c.once c.vb) 64 64 = .ok ps) :
    Answers (.scopew x) x c s (.trap { cause := 2, lanes := c.active }) := by
  have ha : Answers (.scopew x) x c s _ := ⟨_, by unfold exec; exact rfl, rfl⟩
  simp only [hps] at ha
  rwa [if_pos (scopeFixed_iff.mpr he)] at ha

theorem answers_scoperet_of_fixed (he : c.once c.va < 5 ∨ 63 < c.once c.va) :
    Answers (.scoperet x) x c s (.trap { cause := 2, lanes := c.active }) :=
  ⟨_, by unfold exec; exact rfl, if_pos (scopeFixed_iff.mpr he)⟩

theorem not_scopeFixed {e : Nat} (h5 : 5 ≤ e) (h63 : e ≤ 63) : ¬ (decide (e < 5) || decide (63 < e)) = true := by
  rw [scopeFixed_iff]
  omega

theorem answers_scoperet (h5 : 5 ≤ c.once c.va) (h63 : c.once c.va ≤ 63) :
    Answers (.scoperet x) x c s (.ok { s := c.writeScope s (c.once c.va) 0 false false }) :=
  ⟨_, by unfold exec; exact rfl, if_neg (not_scopeFixed h5 h63)⟩

theorem answers_scopew {k : Chip} (h5 : 5 ≤ c.once c.va) (h63 : c.once c.va ≤ 63) (hrec : c.record s (c.once c.vb) 64 64 = .ok (u, bs))
    (hk : s.chip? c.chip = some k) (hmask : (BitVec.ofNat 160 (field bs 0 20) : CoreMask) ≠ 0)
    (hown : (BitVec.ofNat 160 (field bs 0 20) : CoreMask) &&& ~~~k.coreMask = 0) (hag : field bs 0x14 1 ≤ 3) (hrest : field bs 0x15 43 = 0) :
    Answers (.scopew x) x c s
      (.ok { s := c.writeScope u (c.once c.va) (BitVec.ofNat 160 (field bs 0 20)) ((field bs 0x14 1).testBit 0) ((field bs 0x14 1).testBit 1) }) := by
  obtain ⟨hsame, ps, hps, -⟩ := Ctx.record_ok hrec
  have hcores : ((u.chip? c.chip).map Chip.coreMask).getD 0 = k.coreMask := by
    rw [hsame.chip?_map c.chip (f := Chip.coreMask) fun _ => rfl, hk]
    rfl
  have ha : Answers (.scopew x) x c s _ := ⟨_, by unfold exec; exact rfl, rfl⟩
  simp only [hps] at ha
  rw [if_neg (not_scopeFixed h5 h63)] at ha
  simp only [hrec, hcores] at ha
  have hgood : ¬ (decide ((BitVec.ofNat 160 (field bs 0 20) : CoreMask) = 0) || BitVec.ofNat 160 (field bs 0 20) &&& ~~~k.coreMask != 0 ||
      decide (3 < field bs 0x14 1) || field bs 0x15 43 != 0) = true := by
    simpa [hown, hag, hrest] using hmask
  rwa [if_neg hgood] at ha

theorem answers_scopebind_of_large (h : 63 < c.once c.va) : Answers (.scopebind x) x c s (.trap { cause := 2, lanes := c.active }) :=
  ⟨_, by unfold exec; exact rfl, if_pos h⟩

theorem answers_scopeq_of_large (h : 63 < c.once c.va) : Answers (.scopeq x) x c s (.trap { cause := 2, lanes := c.active }) :=
  ⟨_, by unfold exec; exact rfl, if_pos h⟩

/-- A gang's binding to the version of an entry, which its frame notes in a handler (R158, R307). -/
def Gang.bound (g : Gang) (e : Nat) (version : BitVec 24) : Gang := { g with bind := vset g.bind e (some version), mark := g.mark.map (·.rebind e) }

theorem answers_scopebind {k : Chip} (h : c.once c.va ≤ 63) (hk : s.chip? c.chip = some k) :
    Answers (.scopebind x) x c s (.ok { s := s.updGangOf c.w fun g => g.bound (c.once c.va) (vget k.scopes (c.once c.va)).version }) := by
  have ha : Answers (.scopebind x) x c s _ := ⟨_, by unfold exec; exact rfl, if_neg (Nat.not_lt.mpr h)⟩
  simp only [hk, Option.map_some, Option.getD_some] at ha
  exact ha

theorem answers_scopeq {k : Chip} (h : c.once c.va ≤ 63) (hk : s.chip? c.chip = some k) :
    Answers (.scopeq x) x c s (c.value s fun _ => scopeWord k c.g (c.once c.va) c.core.core) := by
  have ha : Answers (.scopeq x) x c s _ := ⟨_, by unfold exec; exact rfl, if_neg (Nat.not_lt.mpr h)⟩
  simp only [hk, Option.map_some, Option.getD_some] at ha
  exact ha

end

/-- Settles O18: the checks of the counter's value, of the index and of the record pick the branch of each instruction. -/
theorem countersScopes : Obligations.CountersScopes := by
  intro s x c e n
  refine ⟨fun hr h => ?reached, fun hr h => ?before, fun u bs k hr h5 h63 hrec hk => ?scopew, fun hr h5 h63 => (answers_scoperet h5 h63).does hr rfl,
    fun ps hr he hps => (answers_scopew_of_fixed he hps).fault hr rfl, fun hr he => (answers_scoperet_of_fixed he).fault hr rfl,
    fun hr h => (answers_scopebind_of_large h).fault hr rfl, fun hr h => (answers_scopeq_of_large h).fault hr rfl,
    fun k hr h hk => (answers_scopebind h hk).does hr rfl, fun k hr hroom h hk => (answers_scopeq h hk).value hr hroom rfl⟩
  case reached =>
    obtain rfl := ready_x hr
    obtain ⟨u, hsame, hdone⟩ := Ctx.tlwait_of_reached h
    exact ⟨u, hsame, (answers_tlwait s c.x c).does hr hdone⟩
  case before =>
    obtain rfl := ready_x hr
    exact (answers_tlwait s c.x c).hold hr (Ctx.tlwait_of_before h)
  case scopew =>
    intro mask ag hmask hown hag hrest
    exact ⟨(Ctx.record_ok hrec).1, (answers_scopew h5 h63 hrec hk hmask hown hag hrest).does hr rfl⟩

end Sys2Proof.Machine
end

section
/-! SUPPORT. Tensor copies (R166 to R170): what HMK, CPY and CPYG answer, and the events of the copy engine. -/

namespace Sys2Proof.Machine

/-! ### Issue (R166 to R168) -/

section
variable {s v u : State} {x : Ops} {c : Ctx} {bs : List Byte} {h : Handle}

theorem answers_hmk (hrec : c.record s ((c.once c.va + c.once c.vb) % 2 ^ 64) 64 256 = .ok (u, bs)) (hh : handleOf bs = some h) :
    Answers (.hmk x) x c s (.ok { s := u.updGangOf c.w fun g => { g with hand := vset g.hand (opndBits x.dst % 16) (some h) } }) :=
  ⟨_, by unfold exec; exact rfl, by simp only [hrec, hh]⟩

theorem answers_cpy (s : State) (x : Ops) (c : Ctx) : Answers (.cpy x) x c s (c.copy s 1 none) := ⟨_, by unfold exec; exact rfl, rfl⟩

theorem answers_cpyg (s : State) (x : Ops) (c : Ctx) : Answers (.cpyg x) x c s (c.copy s 2 (some ((lanesOf c.active).map fun k => c.vc[k]))) :=
  ⟨_, by unfold exec; exact rfl, rfl⟩

/-- A handle is read from the gang, or by the control core from a record. -/
theorem Ctx.handle_ok {o : Option Handle} (hh : c.handle v = .ok (u, o)) : SameButRaces v u := by
  unfold Ctx.handle at hh
  split at hh
  · split at hh
    · cases hh
    · next hrec =>
      cases hh
      exact (Ctx.record_ok hrec).1
  · cases hh
    exact .refl v

/-- A command whose record, box and ranges pass the checks goes to the copy queue (R168). -/
theorem Ctx.copy_queued {kind : Nat} {rows : Option (List Nat)} (hrec : c.record s (c.once c.vb) 64 128 = .ok (v, bs))
    (hh : c.handle v = .ok (u, some h)) (hgood : c.copyFault u ⟨h, CopyRec.of bs, rows⟩ bs (c.copyTask u) = none)
    (hfree : u.copyHeld c.chip ⟨h, CopyRec.of bs, rows⟩ = none) :
    c.copy s kind rows = c.queueCopy u kind bs (some h) (rows.getD []) (u.regionsSeen c.chip ⟨h, CopyRec.of bs, rows⟩) := by
  unfold Ctx.copy
  simp only [hrec, hh, hgood, hfree]

end

/-! ### The copy engine (R169, R170) -/

section
variable {s : State} {core : CoreRef} {k n : Nat} {q : CopyCmd} (hq : s.copyAt core k = some q)
include hq

theorem copyStart_next (hkind : q.kind ≠ 3) (hphase : q.phase = .queued) :
    exec (.copyStart core k) s = .next (s.setCopy core k fun q => { q with phase := .moving }) := by
  change execCopyStart core k s = _
  simp [execCopyStart, hq, hkind, hphase]

theorem copyComplete_next (hkind : q.kind ≠ 3)
    (hphase : q.phase = .entered ∨ (q.phase = .landed ∧ ((CopyRec.of q.record).fmm = false ∨ ∃ t, s.task? q.chip q.task = some t ∧ t.ended = true))) :
    exec (.copyComplete core k) s = .next ((s.dropCopy core k).finishOp q.chip q.task q.tl q.by_) := by
  change execCopyComplete core k s = _
  simp only [execCopyComplete, hq]
  refine if_pos ?_
  rcases hphase with hphase | ⟨hphase, hfollow | ⟨t, ht, hended⟩⟩
  · simp [hkind, hphase]
  · simp [hkind, hphase, hfollow]
  · simp [hkind, hphase, ht, hended]

/-- What a landing answers by the elements that move. -/
theorem copyByteLanding_eq {b : Box} (hb : q.toBox = some b) (hkind : q.kind ≠ 3) (hphase : q.phase = .moving) (hn : n ≠ 0) :
    let m := min n (b.count - q.prog)
    let r := s.moveElems core q b q.prog (m + b.inWord (q.prog + m) 3)
    exec (.copyByteLanding core k n) s =
      match r.2.2 with
      | some e => .next (((r.1.landBytes q b (r.2.1 * b.es)).dropCopy core k).engineFault q.chip q.task q.by_ e)
      | none =>
        if r.2.1 ≠ 0 then .next ((r.1.landBytes q b (r.2.1 * b.es)).copyOn core q b r.2.1)
        else
          match s.askElem q b with
          | some (u, num) => .next (u.setCopy core k fun q => { q with asked := some num })
          | none => notEnabled s := by
  change execCopyByteLanding core k n s = _
  simp only [execCopyByteLanding, hq, hb]
  exact if_neg (by simp [hkind, hphase, hn])

end

/-- Taking the array changes the core alone (R171). -/
theorem State.holdArray_core {s u : State} {core : CoreRef} {chip task : Nat} (h : s.holdArray core chip task = some u) :
    u = s ∨ ∃ f, u = s.updCore core f := by
  unfold State.holdArray at h
  split at h
  · split at h
    · cases h
      exact .inl rfl
    · cases h
  · cases h
    exact .inr ⟨_, rfl⟩

theorem State.task?_holdArray {s u : State} {core : CoreRef} {chip task : Nat} (h : s.holdArray core chip task = some u) (k t : Nat) :
    u.task? k t = s.task? k t := by
  obtain rfl | ⟨f, rfl⟩ := State.holdArray_core h
  · rfl
  · rfl

/-- The matrix command of a copy with a follow-on command, by its issuer (R170, R183). -/
def CopyCmd.followOn (q : CopyCmd) (by_ : IssuedBy) : MCmd :=
  let r := CopyRec.of q.record
  ⟨if r.op = 1 then 3 else 2, r.tile, r.tl, 0, r.aoff, BitVec.ofNat 64 r.mcw, 0, by_⟩

/-- The number of the next engine command of a chip (R292). -/
def State.nextEngine (s : State) (chip : Nat) : Nat := ((s.chip? chip).map fun c => c.hb.next).getD 0

/-- The issuer of a copy's follow-on command in its task (R170 step 2). -/
def State.followIssuer (s : State) (q : CopyCmd) (t : Task) : IssuedBy :=
  { q.by_ with
    ticket := (t.enlist (CopyRec.of q.record).tl).1, seq := t.seq, clock := q.by_.result, agent := engineAgent (s.nextEngine q.chip), clk := 1 }

/-- The task with the follow-on command in its matrix queue. -/
def State.withFollowOn (s : State) (q : CopyCmd) (t : Task) : Task :=
  let e := (t.enlist (CopyRec.of q.record).tl).2
  { e with seq := t.seq + 1, arr := { e.arr with queue := e.arr.queue ++ [q.followOn (s.followIssuer q t)] } }

section
variable {s u : State} {core : CoreRef} {k : Nat} {q : CopyCmd} {t : Task}

/-- A landed copy's follow-on command enters the matrix queue (R170). -/
theorem copyFollowOnEntry_next (hq : s.copyAt core k = some q) (hphase : q.phase = .landed) (hfollow : (CopyRec.of q.record).fmm = true)
    (ht : s.task? q.chip q.task = some t) (hu : s.holdArray core q.chip q.task = some u) (hdue : t.arrayDue = false) (hended : t.ended = false)
    (hres : t.mresWaits = false) (hdepth : t.arr.depth < 16) :
    exec (.copyFollowOnEntry core k) s =
      .next (((u.updTask q.chip q.task fun _ => s.withFollowOn q t).updChip q.chip
        fun c => { c with hb := { c.hb with next := s.nextEngine q.chip + 1 } }).setCopy core k fun q => { q with phase := .entered }) := by
  change execCopyFollowOnEntry core k s = _
  simp only [execCopyFollowOnEntry, hq, hphase, hfollow, ht, hu, beq_self_eq_true, Bool.and_self]
  exact if_neg (by simp [hdue, hended, hres, hdepth])

end

/-- The race record's next number is no part of a task. -/
theorem State.task?_updChip_next (s : State) (chip num k t : Nat) :
    (s.updChip chip fun c => { c with hb := { c.hb with next := num } }).task? k t = s.task? k t := by
  unfold State.task?
  rw [State.chip?_updChip]
  split
  · cases s.chip? k with
    | none => rfl
    | some c => rfl
  · rfl

/-- Settles O21: the copy instructions answer by their checks, and an event of the engine by the command's phase and the elements that move. -/
theorem tensorCopies : Obligations.TensorCopies := by
  refine ⟨fun s x c => ⟨fun u bs h hr hrec hh => ?hmk, fun v u bs h gather hr hrec hh => ?copy⟩, fun s core k q hq hkind =>
    ⟨copyStart_next hq hkind, fun b n hb hphase hn hdone hmoved => ?moved,
      fun b n u num hb hphase hn hdone hstuck hask => ?asks, fun b n e hb hphase hn hrace => ?races,
      fun t u hphase hfollow ht hu hdue hended hres hdepth => ?follows, copyComplete_next hq hkind⟩⟩
  case hmk => exact ⟨(Ctx.record_ok hrec).1, (answers_hmk hrec hh).does hr rfl⟩
  case copy =>
    intro rows b r task hgood hfree hroom cmd
    refine ⟨(Ctx.record_ok hrec).1.trans (Ctx.handle_ok hh), ?_⟩
    cases gather with
    | false =>
      obtain rfl := ready_x hr
      exact (answers_cpy s c.x c).does hr ((Ctx.copy_queued hrec hh hgood hfree).trans (if_neg (Nat.not_le.mpr hroom)))
    | true =>
      obtain rfl := ready_x hr
      exact (answers_cpyg s c.x c).does hr ((Ctx.copy_queued hrec hh hgood hfree).trans (if_neg (Nat.not_le.mpr hroom)))
  case moved =>
    rw [copyByteLanding_eq hq hb hkind hphase hn, hdone]
    exact if_pos hmoved
  case asks =>
    rw [copyByteLanding_eq hq hb hkind hphase hn, hdone]
    simp only [if_neg (not_not.mpr hstuck), hask]
  case races => rw [copyByteLanding_eq hq hb hkind hphase hn, hrace]
  case follows =>
    refine ⟨_, s.withFollowOn q t, q.followOn (s.followIssuer q t), copyFollowOnEntry_next hq hphase hfollow ht hu hdue hended hres hdepth, ?_, rfl,
      rfl, rfl, rfl, rfl, rfl, ?_⟩
    · rw [State.setCopy, State.task?_updCore, State.task?_updChip_next, State.task?_updTask_self, State.task?_holdArray hu, ht]
      rfl
    · obtain rfl | ⟨f, rfl⟩ := State.holdArray_core hu
      · exact ⟨rfl, rfl⟩
      · exact ⟨rfl, rfl⟩

end Sys2Proof.Machine
end

section
/-! SUPPORT. The end of a wait where a bundle keeps a joined wait of a thread that is not its own: a state in which a late TIDE.CLOSE does not end
its wait. -/

namespace Sys2Proof.Machine

/-- The operands of a TIDE.CLOSE of the integer 0 of R23. -/
def strayCloseOps : Ops :=
  { form := .A, gn := false, gp := 15, la := 0, dst := .main 0, a := ⟨.special 0x40, false, 0⟩, b := ⟨.main 0, false, 0⟩, c := ⟨.main 0, false, 0⟩,
    sub := 0, clp := 0, scl := 0, imm := 0 }

/-- The wait of this TIDE.CLOSE. -/
def strayClose : Wait := ⟨.tideClose, 0, 0, .tideClose strayCloseOps, [], 0⟩

/-- Thread 0 waits in a bundle of its own, and a bundle that holds no lane keeps a wait of thread 0 as one that joined it. -/
def strayCloseBundles : List Bundle := [⟨0, 0, some strayClose, [(1, strayClose)]⟩, ⟨1, 0, some strayClose, []⟩]

/-- The placed machine with these bundles and a replay of thread 0's instruction, on a chip whose tide has passed 0. Thread 0 has exited, so that
the end of its replay takes no lane out of any bundle. -/
def strayLate : State :=
  ((placed false false []).updGang strayGang fun g => { g with exited := 1, replay := [strayReplay], bundles := strayCloseBundles }).updChip 0 fun c =>
    { c with tide := { c.tide with c := 1 } }

/-- The state in which thread 0 is free to complete its instruction. -/
def strayLateReleased : State := strayLate.released strayGang 1

/-- The waiting TIDE.CLOSE is ready to complete and late, and its completion ends the replay. -/
theorem strayLateReleased_completion_ends_replay : ∃ c, Ready strayLateReleased strayClose.instr strayCloseOps c ∧
    (∃ k, strayLateReleased.chip? c.chip = some k ∧ c.once c.va < k.tide.c.toNat) ∧
    strayReplays (.next (c.finish { s := strayLateReleased })) = some [] := by
  have htest : (readyCtx? strayLateReleased strayClose.instr strayCloseOps).any (fun c =>
      (strayLateReleased.chip? c.chip).any (fun k => decide (c.once c.va < k.tide.c.toNat)) &&
        decide (strayReplays (.next (c.finish { s := strayLateReleased })) = some [])) = true := by decide +kernel
  obtain ⟨c, hctx, hc⟩ := (Option.any_eq_true _ _).mp htest
  obtain ⟨hlate, hends⟩ := Bool.and_eq_true_iff.mp hc
  obtain ⟨k, hk, hbefore⟩ := (Option.any_eq_true _ _).mp hlate
  exact ⟨c, ready_of_readyCtx? hctx, ⟨k, hk, of_decide_eq_true hbefore⟩, of_decide_eq_true hends⟩

/-- With its replay the wait that joined the empty bundle would become that of a bundle of thread 0, which then waits still: so the event does not
happen, and the replay stays due. -/
theorem strayLate_keeps_replay : strayReplays (exec (.tideCloseUnblock strayGang 1) strayLate) = some [strayReplay] := by decide +kernel

/-- Refutes O32: the end of a wait (`EndsWait`) asks that no bundle shares a lane with the waiting one, and says nothing of the lanes of the waits
that have joined a bundle; the statement ranges over all states, ill-formed ones too. In `strayLate` a bundle without lanes keeps such a wait of the
waiting thread. The completion of the thread's replay would make it the thread's bundle, so a late TIDE.CLOSE does not end its wait. -/
theorem not_waitsEnd : ¬ Obligations.WaitsEnd := by
  intro h
  obtain ⟨-, -, -, -, -, hclose, -, -, -⟩ := h strayLate strayGang 1
  obtain ⟨q, hq, hbundles⟩ := Option.map_eq_some_iff.mp
    (show (strayLate.gang? strayGang).map Gang.bundles = some strayCloseBundles by decide +kernel)
  have hwaiting : strayLate.waiting strayGang 1 .tideClose = some strayClose := by decide +kernel
  have hmay : strayLate.mayIssue strayGang = true := by decide +kernel
  have hapart : ∀ b ∈ q.bundles, b.lanes = 1 ∨ b.lanes &&& 1 = 0 := by rw [hbundles]; decide
  obtain ⟨c, hready, ⟨k, hk, hbefore⟩, hends⟩ := strayLateReleased_completion_ends_replay
  obtain ⟨o, rfl, hexec⟩ := hclose strayClose strayCloseOps c q hwaiting hmay rfl rfl hq hapart hready ⟨k, hk, .inl hbefore⟩
  have hkeeps := strayLate_keeps_replay
  rw [hexec] at hkeeps
  cases hends.symm.trans hkeeps

end Sys2Proof.Machine
end

section
/-! SUPPORT. The commands of the matrix array (R171, R175, R177, R181, R184, R185, R187): which command the array runs, and what each event makes of
its head command. -/

namespace Sys2Proof.Machine

theorem rangeIn_of_le {alloc off len : Nat} (h : off + len ≤ alloc) : rangeIn alloc off len = true := decide_eq_true h

/-! ### The command that the array runs (R171) -/

theorem Arr.ready_of_head {a : Arr} {m : MCmd} {rest : List MCmd} {ops : List Nat} (hidle : a.flight = none) (hhead : a.queue = m :: rest)
    (hop : m.op ∈ ops) : a.ready ops = some (m, rest) := by
  unfold Arr.ready
  rw [hidle, hhead]
  exact if_pos (List.contains_iff_mem.mpr hop)

/-- The array runs a command of some operations, with the rest of its queue: the one in flight, or the head of its queue at its beginning. -/
inductive Arr.Runs (a : Arr) (ops : List Nat) : Flight → List MCmd → Prop
  | flying {f : Flight} (hflight : a.flight = some f) (hrun : f.finished = false) (hop : f.cmd.op ∈ ops) : a.Runs ops f a.queue
  | starting {m : MCmd} {rest : List MCmd} (hidle : a.flight = none) (hhead : a.queue = m :: rest) (hop : m.op ∈ ops) : a.Runs ops m.begun rest

/-! ### What the commands make of the array -/

/-- The state after what a pass takes, which is a new array state, or a fault of its command. -/
def State.passed (s : State) (k t : Nat) (f : Flight) : Except Nat Arr → Ans
  | .error d => .next (s.matrixFault k t f.cmd d f.cmd.addr)
  | .ok a => .next (s.updArr k t fun _ => a)

/-- A task after a row of a drain, whose first row reads the column vectors and whose last one clears the tiles where it is to. -/
def Task.drainedRow (u : Task) (f : Flight) (rest : List MCmd) (v : Task) : Task :=
  let d := Dw.of f.cmd.w0.toNat f.cmd.w1.toNat
  let cvs := if d.ep && f.cvs.isEmpty then d.vectors u.scratch else f.cvs
  let last := decide (d.m ≤ f.row + 1)
  { v with
    scratch := if d.ep then runProgram d f.row (u.arr.eprog.getD []) (drainRow u.arr d cvs f.cmd.tile f.row) u.scratch
      else plainRow u.arr d f.cmd.tile f.row u.scratch
    arr := { u.arr with
      queue := rest, flight := some { f with row := f.row + 1, finished := last, cvs }
      tiles := if last && d.clr then Mem.clear u.arr.tiles (65536 * f.cmd.tile) (65536 * (if 2 ≤ d.kind then 2 else 1)) else u.arr.tiles } }

/-- The array with a block of weights in a slot, and the command that has loaded it in flight, finished. -/
def Arr.withBlock (a : Arr) (mem : Mem) (m : MCmd) (rest : List MCmd) (len : Nat) (slot : WSlot) : Arr :=
  { a with wbuf := Mem.paste a.wbuf (128 * slot.woff) len (Mem.slice mem m.aoff len),
           slots := Tab.put (a.slots.filter fun e => !(e.2.meets slot)) m.tile slot, queue := rest, flight := some m.done }

/-- The address of the words that EPLD loads. -/
def Task.programAt (u : Task) (m : MCmd) : Nat := (u.image.toNat + m.aoff) % 2 ^ 64

/-- The places of the words that EPLD may load, in extent slot 0. -/
def Task.programPlaces (u : Task) (k : Nat) (m : MCmd) : List Place :=
  (List.range 128).filterMap fun j => extentPlace k (u.extents.take 1) .read (u.programAt m + j)

/-- The words that stand there. -/
def Task.programWords (u : Task) (s : State) (k : Nat) (m : MCmd) : List Word :=
  (List.range 32).map fun j => BitVec.ofNat 32 (field (s.bytesAt (u.programPlaces k m)) (4 * j) 4)

/-- The places that EPLD reads: those of the words up to EEND. -/
def Task.programRead (u : Task) (s : State) (k : Nat) (m : MCmd) : List Place :=
  (u.programPlaces k m).take (4 * loadedWords (u.programWords s k m))

section
variable {s : State} {core : CoreRef} {k t : Nat} {u : Task} (hu : s.holderOf core = some (k, t, u))
include hu

/-! ### Passes, a cycle's terms or a row at a time (R181, R340) -/

section
variable {f : Flight} {rest : List MCmd} (h : u.arr.Runs [2, 3] f rest)
include h

/-- MMA_PASS answers by the terms or the row that the pass takes, or by its fault. -/
theorem mmaPass_eq : exec (.mmaPass core) s = s.passed k t f (u.runRow { u.arr with queue := rest } f) := by
  change execMmaPass core s = _
  unfold execMmaPass
  cases h with
  | flying hflight hrun hop =>
    have hpass : (f.cmd.op == 2 || f.cmd.op == 3) = true := by simpa using hop
    simp only [hu, hflight, hpass, hrun, Bool.not_false, Bool.and_self, if_true]
    rfl
  | starting hidle hhead hop =>
    simp only [hu, hidle, Arr.ready_of_head hidle hhead hop, Option.map_some]
    rfl

theorem mmaPass_goes_on {a : Arr} (hrow : u.runRow { u.arr with queue := rest } f = .ok a) :
    exec (.mmaPass core) s = .next (s.updArr k t fun _ => a) := by
  rw [mmaPass_eq hu h, hrow]
  rfl

theorem mmaPass_fails {d : Nat} (hrow : u.runRow { u.arr with queue := rest } f = .error d) :
    exec (.mmaPass core) s = .next (s.matrixFault k t f.cmd d f.cmd.addr) := by
  rw [mmaPass_eq hu h, hrow]
  rfl

end

/-! ### Drains, row by row (R187) -/

section
variable {f : Flight} {rest : List MCmd} (h : u.arr.Runs [5] f rest)
include h

/-- DRAIN answers by the checks of R187: a fault, or a row. -/
theorem drain_eq : exec (.drain core) s =
    (drainCheck (u.scrp * 2048) u.arr (Dw.of f.cmd.w0.toNat f.cmd.w1.toNat)).elim (.next (s.updTask k t (u.drainedRow f rest)))
      fun n => .next (s.matrixFault k t f.cmd n f.cmd.addr) := by
  change execDrain core s = _
  unfold execDrain
  cases h with
  | flying hflight hrun hop =>
    have hdrain : (f.cmd.op == 5) = true := by simpa using hop
    simp only [hu, hflight, hdrain, hrun, Bool.not_false, Bool.and_self, if_true]
    cases drainCheck (u.scrp * 2048) u.arr (Dw.of f.cmd.w0.toNat f.cmd.w1.toNat) <;> rfl
  | @starting m rest hidle hhead hop =>
    simp only [hu, hidle, Arr.ready_of_head hidle hhead hop, Option.map_some]
    cases drainCheck (u.scrp * 2048) u.arr (Dw.of m.begun.cmd.w0.toNat m.begun.cmd.w1.toNat) <;> rfl

theorem drain_goes_on (hgood : drainCheck (u.scrp * 2048) u.arr (Dw.of f.cmd.w0.toNat f.cmd.w1.toNat) = none) :
    exec (.drain core) s = .next (s.updTask k t (u.drainedRow f rest)) := by
  rw [drain_eq hu h, hgood]
  rfl

theorem drain_fails {n : Nat} (hbad : drainCheck (u.scrp * 2048) u.arr (Dw.of f.cmd.w0.toNat f.cmd.w1.toNat) = some n) :
    exec (.drain core) s = .next (s.matrixFault k t f.cmd n f.cmd.addr) := by
  rw [drain_eq hu h, hbad]
  rfl

end

/-! ### Commands that run whole (R175, R177, R184, R185) -/

variable {m : MCmd} {rest : List MCmd}

/-- A good block that lies in the allocation and fits in the weight buffer enters its slot. -/
theorem wldExecute_loads {fmt fl len : Nat} (hready : u.arr.ready [0] = some (m, rest)) (hfirst : m.aoff + 16 ≤ u.scrp * 2048)
    (hblock : blockHead u.scratch m.aoff = some (fmt, fl, len)) (hlen : m.aoff + len ≤ u.scrp * 2048)
    (hfit : 128 * bitsOf m.w0.toNat 19 6 + len ≤ 2 ^ 21) (hgroups : (blockGroups u.scratch m.aoff).isSome = true) :
    exec (.wldExecute core) s = .next (s.updArr k t fun a => a.withBlock u.scratch m rest len ⟨bitsOf m.w0.toNat 19 6, (len + 127) / 128, fmt⟩) := by
  have hinside : decide (2 ^ 21 < 128 * bitsOf m.w0.toNat 19 6 + len) = false := decide_eq_false (Nat.not_lt.mpr hfit)
  have hsome : (blockGroups u.scratch m.aoff).isNone = false := by rw [← Option.not_isSome, hgroups]; rfl
  change execWldExecute core s = _
  simp only [execWldExecute, hu, hready, rangeIn_of_le hfirst, hblock, rangeIn_of_le hlen, hinside, hsome, Bool.not_true, Bool.or_self,
    Bool.false_eq_true, if_false]
  rfl

theorem wselLatch_latches {l : Latch} (hready : u.arr.ready [1] = some (m, rest)) (hslot : u.arr.latchSlot m.tile = some l) :
    exec (.wselLatch core) s = .next (s.updArr k t fun a => { a with latch := some l, queue := rest, flight := some m.done }) := by
  change execWselLatch core s = _
  simp only [execWselLatch, hu, hready, hslot]

theorem wselLatch_fails (hready : u.arr.ready [1] = some (m, rest)) (hslot : u.arr.latchSlot m.tile = none) :
    exec (.wselLatch core) s = .next (s.matrixFault k t m 1 0) := by
  change execWselLatch core s = _
  simp only [execWselLatch, hu, hready, hslot]

theorem aclrExecute_clears (hready : u.arr.ready [4] = some (m, rest)) : exec (.aclrExecute core) s =
    .next (s.updArr k t fun a =>
      { a with tiles := Mem.clear a.tiles (65536 * m.tile) (65536 * m.count), queue := rest, flight := some m.done }) := by
  change execAclrExecute core s = _
  simp only [execAclrExecute, hu, hready]

theorem epldLoad_loads {p : List Word} (hready : u.arr.ready [6] = some (m, rest))
    (hrace : s.engineRace k t m.by_ false (u.programAt m) (u.programRead s k m) = none) (hprogram : programOf (u.programWords s k m) = some p) :
    exec (.epldLoad core) s = .next ((s.noteAccess (s.engineActor k t m.by_) false false (u.programRead s k m)).updArr k t fun a =>
      { a with eprog := some p, queue := rest, flight := some m.done }) := by
  unfold Task.programRead Task.programWords Task.programPlaces Task.programAt at *
  change execEpldLoad core s = _
  simp only [execEpldLoad, hu, hready, hrace, hprogram]

/-- A finished command leaves the array, and its counter advances where it names one. -/
theorem matrixCommandComplete_ends {f : Flight} (hflight : u.arr.flight = some f) (hdone : f.finished = true) :
    exec (.matrixCommandComplete core) s =
      let v := s.updArr k t fun a => { a with flight := none }
      .next ((if f.cmd.counts then v.finishOp k t f.cmd.tl f.cmd.by_ else v).updChip k
        fun c => { c with hb := c.hb.carry (keyQ t 1) f.cmd.by_.result }) := by
  change execMatrixCommandComplete core s = _
  simp only [execMatrixCommandComplete, hu, hflight, hdone, if_true]

end

/-- Settles O34: a command that runs is the one in flight or the head at its beginning, and the event of its operation answers by its own checks. -/
theorem matrixCommandsRun : Obligations.MatrixCommandsRun := by
  intro s core k t u hu drains passes
  have hdrains {f : Flight} {rest : List MCmd} (h : u.arr.Runs [5] f rest) : drains f rest := ⟨drain_goes_on hu h, fun _ => drain_fails hu h⟩
  have hpasses {f : Flight} {rest : List MCmd} (h : u.arr.Runs [2, 3] f rest) : passes f rest :=
    ⟨fun _ => mmaPass_goes_on hu h, fun _ => mmaPass_fails hu h⟩
  have hready {m : MCmd} {rest : List MCmd} {op : Nat} (hidle : u.arr.flight = none) (hhead : u.arr.queue = m :: rest) (hop : m.op = op) :
      u.arr.ready [op] = some (m, rest) := Arr.ready_of_head hidle hhead (List.mem_singleton.mpr hop)
  refine ⟨fun m rest hidle hhead => ⟨fun hop => ?wld, fun hop l => wselLatch_latches hu (hready hidle hhead hop),
      fun hop => wselLatch_fails hu (hready hidle hhead hop), fun hop => aclrExecute_clears hu (hready hidle hhead hop), fun hop p => ?epld,
      fun hop => hpasses (.starting hidle hhead (by simpa using hop)), fun hop => hdrains (.starting hidle hhead (by simpa using hop))⟩,
    fun f hflight hrun => ⟨fun hop => hdrains (.flying hflight hrun (by simpa using hop)),
      fun hop => hpasses (.flying hflight hrun (by simpa using hop))⟩,
    fun f hflight hdone => matrixCommandComplete_ends hu hflight hdone⟩
  case wld =>
    intro fmt fl len woff hfirst hblock hlen hfit hgroups
    exact wldExecute_loads hu (hready hidle hhead hop) hfirst hblock hlen hfit hgroups
  case epld =>
    intro at_ all ws ps hrace hprogram
    exact epldLoad_loads hu (hready hidle hhead hop) hrace hprogram

end Sys2Proof.Machine
end

section
/-! SUPPORT. The matrix queue and the array's image (R171, R175, R177 to R180, R184 to R186, R192 to R194): what each instruction answers once its own
checks have passed, and what the stalls make of it. -/

namespace Sys2Proof.Machine

/-! ### The stalls (R171) -/

section
variable {s u : State} {c : Ctx} {chip task : Nat} {t : Task} {counter : Option Nat} {mk : IssuedBy → MCmd}

/-- A command that no stall holds enters the queue. -/
theorem Ctx.enqueue_of_mayQueue (h : c.mayQueue s chip task t u) : c.enqueue s counter mk = .ok { s := c.queued u chip task counter mk } := by
  obtain ⟨hown, hhold, hdue, hdepth, hres⟩ := h
  have hroom : ¬ (decide (16 ≤ t.arr.depth) || t.mresWaits) = true := by simp [hdepth, hres]
  simp only [Ctx.enqueue, hown, hhold, hdue, Bool.false_eq_true, if_false, if_neg hroom]
  rfl

theorem State.holdArray_mine {core : CoreRef} (h : (s.core core).holder = some (chip, task)) : s.holdArray core chip task = some s := by
  simp only [State.holdArray, h, if_true]

theorem State.holdArray_other {core : CoreRef} {p : Nat × Nat} (h : (s.core core).holder = some p) (hp : p ≠ (chip, task)) :
    s.holdArray core chip task = none := by
  simp only [State.holdArray, h, hp, if_false]

variable (hown : c.ownTask s = some (chip, task, t))
include hown

theorem Ctx.scratchBytes_of_own : c.scratchBytes s = t.scrp * 2048 := by
  unfold Ctx.scratchBytes
  rw [hown]
  rfl

theorem Ctx.enqueue_of_held (h : s.holdArray c.core chip task = none) : c.enqueue s counter mk = .wait .arrayHeld 0 0 := by
  simp only [Ctx.enqueue, hown, h]

theorem Ctx.enqueue_of_due (h : t.arrayDue = true) : c.enqueue s counter mk = .wait .arrayHeld 0 0 := by
  cases hhold : s.holdArray c.core chip task with
  | none => exact Ctx.enqueue_of_held hown hhold
  | some u => simp only [Ctx.enqueue, hown, hhold, h, if_true]

theorem Ctx.enqueue_of_full (hhold : s.holdArray c.core chip task = some u) (hdue : t.arrayDue = false)
    (h : 16 ≤ t.arr.depth ∨ t.mresWaits = true) : c.enqueue s counter mk = .wait .queueFull 0 0 := by
  have hfull : (decide (16 ≤ t.arr.depth) || t.mresWaits) = true := by simpa using h
  simp only [Ctx.enqueue, hown, hhold, hdue, Bool.false_eq_true, if_false, hfull, if_true]

end

/-! ### What the instructions enter (R175, R177 to R180, R184 to R186) -/

section
variable {s : State} {x : Ops} {c : Ctx} {chip task : Nat} {t : Task}

theorem bitsOf_low6 (n : Nat) : bitsOf n 5 0 = n % 64 := rfl

theorem answers_wld (hctl : c.once c.vb < 2 ^ 20) (hoff : c.once c.va % 4 = 0) : Answers (.wld x) x c s
    (c.enqueue s (some (opndBits x.dst % 8)) fun b =>
      ⟨0, c.once c.vb % 64, opndBits x.dst % 8, 0, c.once c.va, BitVec.ofNat 64 (c.once c.vb), 0, b⟩) :=
  ⟨_, by unfold exec; exact rfl, by simp only [if_neg (Nat.not_le.mpr hctl), if_neg (not_not.mpr hoff), bitsOf_low6]⟩

theorem answers_wsel (h : c.once c.va ≤ 63) : Answers (.wsel x) x c s (c.enqueue s none fun b => ⟨1, c.once c.va, 0, 0, 0, 0, 0, b⟩) :=
  ⟨_, by unfold exec; exact rfl, if_neg (Nat.not_lt.mpr h)⟩

/-- A good MMA or MMAM enters its command. -/
theorem Ctx.mma_of_good {moment : Bool} (hown : c.ownTask s = some (chip, task, t))
    (h : mcwFault (t.scrp * 2048) (Mcw.of (c.once c.vb)) (c.once c.va) (opndBits c.x.dst % 256) moment = none) :
    c.mma s moment = c.enqueue s (some (opndBits c.x.c.opnd % 8)) fun b =>
      ⟨if moment then 3 else 2, opndBits c.x.dst % 256, opndBits c.x.c.opnd % 8, 0, c.once c.va, BitVec.ofNat 64 (c.once c.vb), 0, b⟩ := by
  simp only [Ctx.mma, Ctx.scratchBytes_of_own hown, h]

theorem answers_mma (s : State) (x : Ops) (c : Ctx) : Answers (.mma x) x c s (c.mma s false) := ⟨_, by unfold exec; exact rfl, rfl⟩

theorem answers_mmam (s : State) (x : Ops) (c : Ctx) : Answers (.mmam x) x c s (c.mma s true) := ⟨_, by unfold exec; exact rfl, rfl⟩

theorem answers_aclr (h : opndBits x.dst % 256 + (x.sb 3 0 + 1) ≤ 16) :
    Answers (.aclr x) x c s (c.enqueue s none fun b => ⟨4, opndBits x.dst % 256, 0, x.sb 3 0 + 1, 0, 0, 0, b⟩) :=
  ⟨_, by unfold exec; exact rfl, if_neg (Nat.not_lt.mpr h)⟩

variable (hown : c.ownTask s = some (chip, task, t))
include hown

theorem answers_adrn (h : (Dw.of (c.once c.va) (c.once c.vb)).fault (t.scrp * 2048) (opndBits x.dst % 256) = none) :
    Answers (.adrn x) x c s (c.enqueue s (some (Dw.of (c.once c.va) (c.once c.vb)).tl) fun b =>
      ⟨5, opndBits x.dst % 256, (Dw.of (c.once c.va) (c.once c.vb)).tl, 0, (Dw.of (c.once c.va) (c.once c.vb)).o0,
        BitVec.ofNat 64 (c.once c.va), BitVec.ofNat 64 (c.once c.vb), b⟩) :=
  ⟨_, by unfold exec; exact rfl, by simp only [Ctx.scratchBytes_of_own hown, h]⟩

theorem answers_epld (hoff : c.once c.va % 64 = 0) (hreach : t.epldReach chip (c.once c.va) = true) :
    Answers (.epld x) x c s (c.enqueue s none fun b => ⟨6, 0, 0, 0, c.once c.va, 0, 0, b⟩) :=
  ⟨_, by unfold exec; exact rfl, by simp only [hown, hoff, hreach, ne_eq, not_true_eq_false, Bool.not_true, Bool.false_eq_true, if_false]⟩

end

/-! ### The image of the array (R192 to R194) -/

/-- A list of bytes written on both sides. -/
theorem SameButRaces.writeBytes {s u : State} (h : SameButRaces s u) (ps : List Place) (bs : List Byte) :
    SameButRaces (s.writeBytes ps bs) (u.writeBytes ps bs) := by
  induction ps generalizing s u bs with
  | nil => exact h
  | cons p ps ih =>
    cases bs with
    | nil => exact h
    | cons b bs => exact ih (h.writeByte p b) bs

theorem Ctx.imageAccess_ok {c : Ctx} {s t : State} {write : Bool} {ps : List Place} (h : c.imageAccess s write ps = .ok t) : SameButRaces s t := by
  unfold Ctx.imageAccess at h
  dsimp only at h
  split at h
  · cases h
  · cases h
    exact .noteAll ..

section
variable {s v w : State} {c : Ctx} {ps : List Place} {chip task : Nat} {u : Task} (hown : c.ownTask s = some (chip, task, u))
  (hhold : s.holdArray c.core chip task = some v) (hdue : u.arrayDue = false)
include hown hhold hdue

/-- MSAVE of an array that can stop writes its image and empties the queue; beside the race record nothing else changes. -/
theorem Ctx.msave_of_mayStop (hps : c.imageReach s .write = .ok ps) (hstop : u.arr.mayStop = true) (hw : c.imageAccess v true ps = .ok w) :
    ∃ y, SameButRaces (v.writeBytes ps u.stopArr.image) y ∧
      c.msave s = .ok { s := y.updArr chip task fun a => { a with flight := none, queue := [] } } := by
  simp only [Ctx.msave, hps, hown, hhold, hdue, hstop, hw, Bool.not_true, Bool.false_eq_true, if_false]
  exact ⟨_, ((Ctx.imageAccess_ok hw).writeBytes ps _).trans (.endSequences ..), rfl⟩

/-- MRES of a checked image, with no matrix command outstanding, restores it. -/
theorem Ctx.mres_of_checked (hps : c.imageReach s .read = .ok ps) (hdepth : u.arr.depth = 0) (hw : c.imageAccess v false ps = .ok w)
    (himage : imageOk (u.scrp * 2048) (u.epldReach chip) (s.bytesAt ps) = true) :
    let back (t : Task) : Task := t.restoreArr (s.ticketsHeld chip task) (c.issueBy w none).1 (s.bytesAt ps)
    c.mres s = .ok { s := (c.issueBy w none).2.updTask chip task back } := by
  simp only [Ctx.mres, hps, hown, hhold, hdue, hdepth, hw, himage, ne_eq, not_true_eq_false, Bool.not_true, Bool.false_eq_true, if_false]

end

theorem answers_msave (s : State) (x : Ops) (c : Ctx) : Answers (.msave x) x c s (c.msave s) := ⟨_, by unfold exec; exact rfl, rfl⟩

theorem answers_mres (s : State) (x : Ops) (c : Ctx) : Answers (.mres x) x c s (c.mres s) := ⟨_, by unfold exec; exact rfl, rfl⟩

/-- Settles O19: each matrix instruction whose checks pass answers that its command enters the queue, which the stalls decide; MSAVE and MRES answer
by the array's state. -/
theorem matrixInstructions : Obligations.MatrixInstructions := by
  refine ⟨⟨fun s x c chip task t u hmay => ?enters, fun s x c chip task t hr hslot hown => ?waits⟩,
    fun s v w x c ps chip task u hown hhold hdue => ⟨fun hr hps hstop hw => ?msave, fun hr hps hdepth hw himage => ?mres⟩⟩
  case enters =>
    intro va vb tile alloc enters
    have ⟨hown, _⟩ := hmay
    have does {i : Instr} {counter : Option Nat} {mk : IssuedBy → MCmd} (ha : Answers i x c s (c.enqueue s counter mk)) (hr : Ready s i x c) :
        enters i counter mk := ha.does hr (Ctx.enqueue_of_mayQueue hmay)
    refine ⟨fun hr hctl hoff => does (answers_wld hctl hoff) hr, fun hr h => does (answers_wsel h) hr, fun hr h => ?mma, fun hr h => ?mmam,
      fun hr h => does (answers_aclr h) hr, fun hr h => does (answers_adrn hown h) hr, fun hr hoff hreach => ?epld⟩
    case mma =>
      obtain rfl := ready_x hr
      exact does (Ctx.mma_of_good hown h ▸ answers_mma s c.x c) hr
    case mmam =>
      obtain rfl := ready_x hr
      exact does (Ctx.mma_of_good hown h ▸ answers_mmam s c.x c) hr
    case epld => exact does (answers_epld hown hoff (List.all_eq_true.mpr fun k hk => hreach k (List.mem_range.mp hk))) hr
  case waits =>
    have ha := answers_wsel (s := s) (x := x) hslot
    exact ⟨fun p hp hne => ha.hold hr (Ctx.enqueue_of_held hown (State.holdArray_other hp hne)),
      fun hdue => ha.hold hr (Ctx.enqueue_of_due hown hdue),
      fun hmine hdue hfull => ha.hold hr (Ctx.enqueue_of_full hown (State.holdArray_mine hmine) hdue hfull)⟩
  case msave =>
    obtain ⟨y, hsame, hdone⟩ := Ctx.msave_of_mayStop hown hhold hdue hps hstop hw
    exact ⟨y, hsame, (answers_msave s x c).does hr hdone⟩
  case mres =>
    exact ⟨Ctx.imageAccess_ok hw, (answers_mres s x c).does hr (Ctx.mres_of_checked hown hhold hdue hps hdepth hw himage)⟩

end Sys2Proof.Machine
end

section
/-! SUPPORT. The quantiser (R195 to R197, R342): what QNT and QWAIT answer, and the two events of its engine. -/

namespace Sys2Proof.Machine

/-! ### QNT and QWAIT (R195, R197) -/

/-- The state with a command at the end of its die's quantiser queue, an operation of its counter. -/
def Ctx.quantQueued (c : Ctx) (u : State) (chip task tl : Nat) (bs : List Byte) : State :=
  (c.issueBy u (some tl)).2.updDev c.core.dev fun d =>
    d.setQuant (dieOf c.core.core) (d.quant (dieOf c.core.core) ++ [⟨chip, task, tl, (c.issueBy u (some tl)).1, bs, false⟩])

/-- The engines that QWAIT names have commands outstanding that were issued before it. -/
def State.enginesBusy (s : State) (chip task : Nat) (t : Task) (k : Nat) : Prop :=
  (k ≠ 1 ∧ s.quantBusy chip task t.seq = true) ∨ (k ≠ 0 ∧ t.matrixBusy t.seq = true)

theorem State.enginesBusy_iff {s : State} {chip task k : Nat} {t : Task} :
    ((k != 1 && s.quantBusy chip task t.seq) || (k != 0 && t.matrixBusy t.seq)) = true ↔ s.enginesBusy chip task t k := by
  simp [State.enginesBusy]

section
variable {s u : State} {x : Ops} {c : Ctx} {chip task : Nat} {t : Task} (hown : c.ownTask s = some (chip, task, t))
include hown

theorem answers_qnt {bs : List Byte} {d : Device} {ins outs : List (Nat × List Place)} (hrec : c.record s (c.once c.va) 64 64 = .ok (u, bs))
    (hd : u.dev? c.core.dev = some d) (hgood : (QRec.of bs).ok bs = true) (hins : t.ranges chip .read (QRec.of bs).sources = .ok ins)
    (houts : t.ranges chip .write (QRec.of bs).outputs = .ok outs) (hroom : (d.quant (dieOf c.core.core)).length < 256) :
    Answers (.qnt x) x c s (.ok { s := c.quantQueued u chip task (opndBits x.dst % 8) bs }) := by
  refine ⟨_, by unfold exec; exact rfl, ?_⟩
  simp only [hown, hrec, hd, hgood, hins, houts, Bool.not_true, Bool.false_eq_true, if_false, Option.map_some, Option.getD_some,
    if_neg (Nat.not_le.mpr hroom)]
  rfl

theorem Ctx.qwait_of_idle (h : ¬ s.enginesBusy chip task t (c.x.sub.toNat % 4)) : ∃ u, SameButRaces s u ∧ c.qwait none s = .ok { s := u } := by
  simp only [Ctx.qwait, hown]
  exact ⟨_, .foldHb .., if_neg (mt State.enginesBusy_iff.mp h)⟩

theorem Ctx.qwait_of_busy (h : s.enginesBusy chip task t (c.x.sub.toNat % 4)) : c.qwait none s = .wait .qwait 0 0 := by
  simp only [Ctx.qwait, hown]
  exact if_pos (State.enginesBusy_iff.mpr h)

end

theorem answers_qwait (s : State) (x : Ops) (c : Ctx) : Answers (.qwait x) x c s (c.qwait none s) := ⟨_, by unfold exec; exact rfl, rfl⟩

/-! ### What the engine's accesses change beside memory (R296, R310) -/

theorem SameButRaces.engineNotes (s : State) (chip task : Nat) (b : IssuedBy) (write : Bool) (rs : List (Nat × List Place)) :
    SameButRaces s (s.engineNotes chip task b write rs) :=
  .fold rs _ (fun s _ => .noteAccess s _ _ _ _) s

theorem SameButRaces.endSequence (s : State) (p : Place) : SameButRaces s (s.endSequence p) := by
  cases p with
  | dram k a r => exact .hb s k fun h => h.plainWrite [placeKey (.dram k a r)]
  | host a => exact .refl s
  | scratch k t o => exact .refl s

theorem SameButRaces.engineWrite {s u : State} (h : SameButRaces s u) (ps : List Place) (bs : List Byte) :
    SameButRaces (s.writeBytes ps bs) (u.engineWrite ps bs) :=
  (h.writeBytes ps bs).trans (.fold ps _ .endSequence _)

/-! ### The engine (R196, R342) -/

/-- What a quantiser command writes: addresses, places and bytes, by the places of its source and of its outputs. -/
def QCmd.writes (q : QCmd) (s : State) (rs os : List (Nat × List Place)) : List (Nat × List Place × List Byte) :=
  (((QRec.of q.record).results (rs.map fun p => s.bytesAt p.2) ((os.getLast?.map fun o => s.bytesAt o.2).getD [])).zip os).map
    fun p => (p.1.1, p.2.2.take p.1.2.length, p.1.2)

/-- The state after the writes of a quantiser command, with their record. -/
def State.quantWritten (s : State) (q : QCmd) (ws : List (Nat × List Place × List Byte)) : State :=
  ws.foldl (fun s w => s.engineWrite w.2.1 w.2.2) (s.engineNotes q.chip q.task q.by_ true (ws.map fun w => (w.1, w.2.1)))

theorem SameButRaces.quantWritten (s : State) (q : QCmd) (ws : List (Nat × List Place × List Byte)) :
    SameButRaces (ws.foldl (fun s w => s.writeBytes w.2.1 w.2.2) s) (s.quantWritten q ws) :=
  .fold₂ _ _ _ (fun _ _ w h => h.engineWrite w.2.1 w.2.2) (.engineNotes ..)

section
variable {s : State} {dev die : Nat} {d : Device} {q : QCmd} {rest : List QCmd} {t : Task} (hd : s.dev? dev = some d) (hdie : die ≤ 1)
  (hq : d.quant die = q :: rest) (ht : s.task? q.chip q.task = some t)
include hd hdie hq ht

/-- The oldest command starts where its source is granted and races with nothing. -/
theorem qntExecute_starts {rs : List (Nat × List Place)} (hrun : q.running = false)
    (hrs : t.ranges q.chip .read (QRec.of q.record).sources = .ok rs) (hrace : s.engineRaces q.chip q.task q.by_ false rs = none) :
    exec (.qntExecute dev die) s =
      .next ((s.engineNotes q.chip q.task q.by_ false rs).updDev dev fun d => d.setQuant die ({ q with running := true } :: rest)) := by
  have hmay : ¬ (q.running || decide (1 < die)) = true := by simp [hrun, hdie]
  change execQntExecute dev die s = _
  simp only [execQntExecute, hd, Option.map_some, hq, if_neg hmay, ht, hrs, hrace]

/-- A running command whose outputs are granted and race with nothing writes them, and its counter advances. -/
theorem qntComplete_ends {rs os : List (Nat × List Place)} (hrun : q.running = true)
    (hrs : t.ranges q.chip .read (QRec.of q.record).sources = .ok rs) (hos : t.ranges q.chip .write (QRec.of q.record).outputs = .ok os)
    (hrace : s.engineRaces q.chip q.task q.by_ true ((q.writes s rs os).map fun w => (w.1, w.2.1)) = none) :
    ∃ written u, SameButRaces ((q.writes s rs os).foldl (fun s w => s.writeBytes w.2.1 w.2.2) s) written ∧
      SameButRaces (((written.quantPop dev die).finishOp q.chip q.task q.tl q.by_).resealTask q.chip q.task) u ∧
      exec (.qntComplete dev die) s = .next u := by
  have hmay : (q.running && decide (die ≤ 1)) = true := by simp [hrun, hdie]
  refine ⟨s.quantWritten q (q.writes s rs os), _, .quantWritten .., .hb _ q.chip fun h => h.carry (keyQ q.task 0) q.by_.result, ?_⟩
  unfold QCmd.writes at hrace
  change execQntComplete dev die s = _
  simp only [execQntComplete, hd, Option.map_some, hq, ht, hmay, hrs, hos, hrace]
  rfl

end

/-- Settles O20: QNT and QWAIT answer by the record and by the outstanding commands, and an event of the engine by its oldest command. -/
theorem quantiser : Obligations.Quantiser := by
  refine ⟨fun s x c chip task t hown => ⟨fun u bs d ins outs hr hrec hd hgood hins houts hroom => ?qnt, ?qwait⟩,
    fun s dev die d q rest t hd hdie hq ht => ⟨fun rs => qntExecute_starts hd hdie hq ht, fun rs os => qntComplete_ends hd hdie hq ht⟩⟩
  case qnt => exact ⟨(Ctx.record_ok hrec).1, (answers_qnt hown hrec hd hgood hins houts hroom).does hr rfl⟩
  case qwait =>
    refine ⟨fun hr hidle => ?_, fun hr hbusy => ?_⟩
    · obtain rfl := ready_x hr
      obtain ⟨u, hsame, hdone⟩ := Ctx.qwait_of_idle hown hidle
      exact ⟨u, hsame, (answers_qwait s c.x c).does hr hdone⟩
    · obtain rfl := ready_x hr
      exact (answers_qwait s c.x c).hold hr (Ctx.qwait_of_busy hown hbusy)

end Sys2Proof.Machine
end

section
/-! SUPPORT. Moment instructions (R199 to R204, R344 to R347): moments in the active lanes with their flags, the checks of the correlation and of the
variances, and what each instruction answers by them. -/

namespace Sys2Proof.Machine

/-! ### Moments in the active lanes (R55, R200) -/

theorem Ctx.moments_eq (c : Ctx) (s : State) (f : Fin 32 → Nat × BitVec 3) :
    c.moments s f = .ok { s, dst := some (c.lanesOnly fun k => (f k).1),
                          mflags := lanesFrom fun k => if inMask c.active k then (f k).2 else 0 } := by
  have hword : (lanesFrom fun k => if inMask c.active k then f k else ((0 : Nat), (0 : BitVec 3))).map Prod.fst = c.lanesOnly fun k => (f k).1 :=
    (map_lanesFrom _ _).trans (congrArg lanesFrom (funext fun _ => apply_ite Prod.fst _ _ _))
  have hflags : (lanesFrom fun k => if inMask c.active k then f k else ((0 : Nat), (0 : BitVec 3))).map Prod.snd =
      lanesFrom fun k => if inMask c.active k then (f k).2 else 0 :=
    (map_lanesFrom _ _).trans (congrArg lanesFrom (funext fun _ => apply_ite Prod.snd _ _ _))
  rw [← hword, ← hflags]
  rfl

/-- An instruction that answers moments delivers them with their flags. -/
theorem yieldsMoment_of_answers {s : State} {i : Instr} {x : Ops} {ok : Ctx → Prop} {f : Ctx → Fin 32 → Nat × BitVec 3}
    (h : ∀ c, ok c → Answers i x c s (c.moments s (f c))) : YieldsMoment s i x ok f := by
  intro c hr hroom hok
  obtain ⟨body, hexec, hb⟩ := h c hok
  exact hexec.trans (issue_ok hr (hb.trans (c.moments_eq s (f c))) (fun _ => hroom) (.inl (trapLanes_none _ _)))

/-- An instruction that answers rounded results delivers them, or takes FP_TRAP. -/
theorem Answers.floats {s : State} {i : Instr} {x : Ops} {c : Ctx} {f : Fin 32 → Rounded} (ha : Answers i x c s (c.floats s f)) (hr : Ready s i x c)
    (hroom : c.room s = true) :
    (c.trapping f = 0 → exec i s = .next (c.finish { s := s, dst := some (c.lanesOnly fun k => (f k).code), flags := c.flagsOf f })) ∧
    (c.trapping f ≠ 0 → exec i s =
      .next (s.takeFault c.w { cause := 18, lanes := c.trapping f, xd := flagStream c.active (c.flagsOf f) } c.active c.pc c.next [])) := by
  obtain ⟨body, hexec, hb⟩ := ha
  have hbody := hb.trans (c.floats_eq s f)
  have htraps := c.trapLanes_flagsOf f
  refine ⟨fun hnone => ?completes, fun hsome => ?traps⟩
  case completes => exact hexec.trans (issue_ok hr hbody (fun _ => hroom) (.inl (htraps.trans hnone)))
  case traps =>
    rw [← htraps] at hsome ⊢
    have hfault := issue_fpTrap hr hbody hroom hsome rfl
    exact hexec.trans hfault

/-! ### The checks (R199) -/

/-- NVAR of the active lanes in which a variance is bad. -/
def Ctx.badVariance (c : Ctx) (bad : Fin 32 → Bool) : Trouble := { cause := 10, lanes := maskOf fun k => inMask c.active k && bad k }

section
variable {c : Ctx} {vars : Fin 32 → List Val} {bad : Fin 32 → Bool} (hbad : ∀ k, (vars k).any badVar = bad k)
include hbad

theorem Ctx.nvar_of_good (h : ∀ k : Fin 32, inMask c.active k = true → bad k = false) : c.nvar vars = none := by
  obtain rfl : (fun k => (vars k).any badVar) = bad := funext hbad
  exact if_pos (maskOf_in_none h)

theorem Ctx.nvar_of_bad {k : Fin 32} (hk : inMask c.active k = true) (h : bad k = true) : c.nvar vars = some (c.badVariance bad) := by
  obtain rfl : (fun k => (vars k).any badVar) = bad := funext hbad
  refine if_neg fun hnone => ?_
  have hlane := of_maskOf_zero hnone k
  rw [hk, Bool.true_and] at hlane
  exact Bool.false_ne_true (hlane.symm.trans h)

end

theorem any_badVar_one (a : Val) : [a].any badVar = badVar a := by
  simp only [List.any_cons, List.any_nil, Bool.or_false]

theorem any_badVar_two (a b : Val) : [a, b].any badVar = (badVar a || badVar b) := by
  simp only [List.any_cons, List.any_nil, Bool.or_false]

theorem any_badVar_three (a b c : Val) : [a, b, c].any badVar = (badVar a || badVar b || badVar c) := by
  simp only [List.any_cons, List.any_nil, Bool.or_false, Bool.or_assoc]

section
variable {s : State} {x : Ops} {c : Ctx}

/-! ### Sums, differences and products (R201) -/

section
variable {f : Option Val → Mo → Mo → Option Val × Option Val}

theorem Ctx.binary_badRho (h : c.rho = .error ()) : c.binary s f = .trap { cause := 11, lanes := c.active } := by
  simp only [Ctx.binary, h]
  rfl

variable {rho : Option Val} (hrho : c.rho = .ok rho)
include hrho

theorem Ctx.binary_moments (ha : c.varsOk c.va) (hb : c.varsOk c.vb) : c.binary s f = c.moments s fun k =>
    writeMoment ((Mo.of c.va[k]).mean.isNan || (Mo.of c.vb[k]).mean.isNan) (f rho (Mo.of c.va[k]) (Mo.of c.vb[k])).1
      (f rho (Mo.of c.va[k]) (Mo.of c.vb[k])).2 := by
  have hvars : (c.nvar fun k => [(Mo.of c.va[k]).var, (Mo.of c.vb[k]).var]) = none :=
    Ctx.nvar_of_good (fun _ => any_badVar_two _ _) fun k hk => Bool.or_eq_false_iff.mpr ⟨ha k hk, hb k hk⟩
  simp only [Ctx.binary, hrho, hvars]

theorem Ctx.binary_badVars {k : Fin 32} (hk : inMask c.active k = true)
    (h : (badVar (Mo.of c.va[k]).var || badVar (Mo.of c.vb[k]).var) = true) :
    c.binary s f = .trap (c.badVariance fun k => badVar (Mo.of c.va[k]).var || badVar (Mo.of c.vb[k]).var) := by
  have hvars := Ctx.nvar_of_bad (fun k => any_badVar_two (Mo.of c.va[k]).var (Mo.of c.vb[k]).var) hk h
  simp only [Ctx.binary, hrho, hvars]

end

theorem answers_madd (s : State) (x : Ops) (c : Ctx) : Answers (.madd x) x c s (c.binary s (moSum false)) := ⟨_, by unfold exec; exact rfl, rfl⟩
theorem answers_msub (s : State) (x : Ops) (c : Ctx) : Answers (.msub x) x c s (c.binary s (moSum true)) := ⟨_, by unfold exec; exact rfl, rfl⟩
theorem answers_mmul (s : State) (x : Ops) (c : Ctx) : Answers (.mmul x) x c s (c.binary s moProd) := ⟨_, by unfold exec; exact rfl, rfl⟩

/-- MFMA of moments: a product, and then its sum with the third source, each written by write_moment. -/
def fusedMoment (rho : Option Val) (a b k : Mo) : Nat × BitVec 3 :=
  let p := writeMoment (a.mean.isNan || b.mean.isNan) (moProd rho a b).1 (moProd rho a b).2
  let t := moSum false none (Mo.of p.1) k
  let w := writeMoment ((Mo.of p.1).mean.isNan || k.mean.isNan) t.1 t.2
  (w.1, w.2 ||| p.2)

theorem answers_mfma_badRho (h : c.rho = .error ()) : Answers (.mfma x) x c s (.trap { cause := 11, lanes := c.active }) :=
  ⟨_, by unfold exec; exact rfl, by simp only [h]; rfl⟩

theorem answers_mfma_moments {rho : Option Val} (hrho : c.rho = .ok rho) (ha : c.varsOk c.va) (hb : c.varsOk c.vb) (hc : c.varsOk c.vc) :
    Answers (.mfma x) x c s (c.moments s fun k => fusedMoment rho (Mo.of c.va[k]) (Mo.of c.vb[k]) (Mo.of c.vc[k])) := by
  have hvars : (c.nvar fun k => [(Mo.of c.va[k]).var, (Mo.of c.vb[k]).var, (Mo.of c.vc[k]).var]) = none :=
    Ctx.nvar_of_good (fun _ => any_badVar_three _ _ _) fun k hk =>
      Bool.or_eq_false_iff.mpr ⟨Bool.or_eq_false_iff.mpr ⟨ha k hk, hb k hk⟩, hc k hk⟩
  exact ⟨_, by unfold exec; exact rfl, by simp only [hrho, hvars]; rfl⟩

theorem answers_mfma_badVars {rho : Option Val} (hrho : c.rho = .ok rho) {k : Fin 32} (hk : inMask c.active k = true)
    (h : (badVar (Mo.of c.va[k]).var || badVar (Mo.of c.vb[k]).var || badVar (Mo.of c.vc[k]).var) = true) : Answers (.mfma x) x c s
      (.trap (c.badVariance fun k => badVar (Mo.of c.va[k]).var || badVar (Mo.of c.vb[k]).var || badVar (Mo.of c.vc[k]).var)) := by
  have hvars := Ctx.nvar_of_bad (fun k => any_badVar_three (Mo.of c.va[k]).var (Mo.of c.vb[k]).var (Mo.of c.vc[k]).var) hk h
  exact ⟨_, by unfold exec; exact rfl, by simp only [hrho, hvars]⟩

/-! ### Instructions with one variance (R201 to R204) -/

/-- An instruction that checks the variance of a value in each active lane, and else answers as its body does. -/
def ChecksVariance (i : Instr) (x : Ops) (c : Ctx) (s : State) (var : Fin 32 → Val) (r : Res) : Prop :=
  Answers i x c s (match c.nvar fun k => [var k] with | some t => .trap t | none => r)

section
variable {i : Instr} {var : Fin 32 → Val} {r : Res} (h : ChecksVariance i x c s var r)
include h

theorem ChecksVariance.of_good (hgood : ∀ k : Fin 32, inMask c.active k = true → badVar (var k) = false) : Answers i x c s r := by
  have hvars : (c.nvar fun k => [var k]) = none := Ctx.nvar_of_good (fun _ => any_badVar_one _) hgood
  simpa only [ChecksVariance, hvars] using h

theorem ChecksVariance.of_bad {k : Fin 32} (hk : inMask c.active k = true) (hbad : badVar (var k) = true) :
    Answers i x c s (.trap (c.badVariance fun k => badVar (var k))) := by
  have hvars := Ctx.nvar_of_bad (fun k => any_badVar_one (var k)) hk hbad
  simpa only [ChecksVariance, hvars] using h

end

/-- What MSCL delivers in a lane. -/
def Ctx.scaledMoment (c : Ctx) (k : Fin 32) : Nat × BitVec 3 :=
  let a := Mo.of c.va[k]
  let b := Fm.decode .f32 c.vb[k]
  writeMoment (a.mean.isNan || b.isNan) (mulDef (some a.mean) (some b)) (mulAll [a.var, b, b])

/-- What MSET delivers in a lane. -/
def Ctx.setMoment (c : Ctx) (k : Fin 32) : Nat × BitVec 3 :=
  let a := Fm.decode .f32 c.va[k]
  writeMoment a.isNan (some a) (some (Fm.decode .f32 c.vb[k]))

/-- What a unary function delivers in a lane (R202, R345). -/
def Ctx.unaryMoment (c : Ctx) (f : Nat → Mo → Unary) (k : Fin 32) : Nat × BitVec 3 :=
  let a := Mo.of c.va[k]
  if a.mean.isNan then writeMoment true none none
  else ((writeMoment false (f c.va[k] a).mean (f c.va[k] a).var).1, (writeMoment false (f c.va[k] a).mean (f c.va[k] a).var).2 ||| (f c.va[k] a).extra)

/-- What MCOL delivers in a lane (R204). -/
def Ctx.collapsed (c : Ctx) (x : Ops) (k : Fin 32) : Rounded :=
  (collapse (x.sb 2 0) (c.rm (x.sb 5 3) k) (Mo.of c.va[k]) (Fm.decode .f32 c.vb[k])).write .f32 (c.rm (x.sb 5 3) k) false x.clp x.scl

section
variable (s : State) (x : Ops) (c : Ctx)

theorem checks_mscl : ChecksVariance (.mscl x) x c s (fun k => (Mo.of c.va[k]).var) (c.moments s c.scaledMoment) :=
  ⟨_, by unfold exec; exact rfl, rfl⟩

theorem checks_mset : ChecksVariance (.mset x) x c s (fun k => Fm.decode .f32 c.vb[k]) (c.moments s c.setMoment) :=
  ⟨_, by unfold exec; exact rfl, rfl⟩

theorem checks_mrelu : ChecksVariance (.mrelu x) x c s (fun k => (Mo.of c.va[k]).var) (c.moments s (c.unaryMoment reluOf)) :=
  ⟨_, by unfold exec; exact rfl, rfl⟩

theorem checks_mexp : ChecksVariance (.mexp x) x c s (fun k => (Mo.of c.va[k]).var) (c.moments s (c.unaryMoment mexpOf)) :=
  ⟨_, by unfold exec; exact rfl, rfl⟩

theorem checks_msigm : ChecksVariance (.msigm x) x c s (fun k => (Mo.of c.va[k]).var) (c.moments s (c.unaryMoment (msigmOf false))) :=
  ⟨_, by unfold exec; exact rfl, rfl⟩

theorem checks_mtanh : ChecksVariance (.mtanh x) x c s (fun k => (Mo.of c.va[k]).var) (c.moments s (c.unaryMoment (msigmOf true))) :=
  ⟨_, by unfold exec; exact rfl, rfl⟩

theorem checks_mrcp : ChecksVariance (.mrcp x) x c s (fun k => (Mo.of c.va[k]).var) (c.moments s (c.unaryMoment mrcpOf)) :=
  ⟨_, by unfold exec; exact rfl, rfl⟩

theorem checks_mcol : ChecksVariance (.mcol x) x c s (fun k => (Mo.of c.va[k]).var) (c.floats s (c.collapsed x)) :=
  ⟨_, by unfold exec; exact rfl, rfl⟩

end

end

/-- Settles O22: the sums, differences and products answer moments once the correlation and the variances have passed, MSCL and MSET once their
variance has; MMOV is a value. -/
theorem momentResults : Obligations.MomentResults := by
  intro s x two mean
  refine ⟨fun rho => ?madd, fun rho => ?msub, fun rho => ?mmul, fun rho => ?mfma, ?mscl, ?mset, ?mmov⟩
  case madd => exact yieldsMoment_of_answers fun c ⟨hrho, ha, hb⟩ => Ctx.binary_moments hrho ha hb ▸ answers_madd s x c
  case msub => exact yieldsMoment_of_answers fun c ⟨hrho, ha, hb⟩ => Ctx.binary_moments hrho ha hb ▸ answers_msub s x c
  case mmul => exact yieldsMoment_of_answers fun c ⟨hrho, ha, hb⟩ => Ctx.binary_moments hrho ha hb ▸ answers_mmul s x c
  case mfma => exact yieldsMoment_of_answers fun c ⟨hrho, ⟨ha, hb⟩, hc⟩ => answers_mfma_moments hrho ha hb hc
  case mscl => exact yieldsMoment_of_answers fun c hgood => (checks_mscl s x c).of_good hgood
  case mset => exact yieldsMoment_of_answers fun c hgood => (checks_mset s x c).of_good hgood
  case mmov => exact yields_of_value (by unfold exec; exact rfl) fun _ => rfl

/-- Settles O23: each instruction answers by its checks, of the correlation first and then of the variances; MLD is a load and MST a store. -/
theorem momentFunctionsFaults : Obligations.MomentFunctionsFaults := by
  refine ⟨fun s x => ?functions, fun s x c => ?faults⟩
  case functions =>
    intro unary
    have delivers {i : Instr} {f : Nat → Mo → Unary}
        (h : ∀ c : Ctx, ChecksVariance i x c s (fun k => (Mo.of c.va[k]).var) (c.moments s (c.unaryMoment f))) : unary i f :=
      yieldsMoment_of_answers fun c hgood => (h c).of_good hgood
    exact ⟨delivers (checks_mrelu s x), delivers (checks_mexp s x), delivers (checks_msigm s x), delivers (checks_mtanh s x),
      delivers (checks_mrcp s x), fun c hr hroom hgood => ((checks_mcol s x c).of_good hgood).floats hr hroom⟩
  case faults =>
    intro nvar badRho badVars a b
    have rho {i : Instr} {f : Option Val → Mo → Mo → Option Val × Option Val} (ha : Answers i x c s (c.binary s f)) : badRho i :=
      fun hr h => ha.fault hr (Ctx.binary_badRho h)
    have vars {i : Instr} {f : Option Val → Mo → Mo → Option Val × Option Val} (ha : Answers i x c s (c.binary s f)) {r : Option Val}
        (hrho : c.rho = .ok r) : badVars i fun k => a k || b k :=
      fun k hr hk h => ha.fault hr (Ctx.binary_badVars hrho hk h)
    have checks {i : Instr} {var : Fin 32 → Val} {r : Res} (h : ChecksVariance i x c s var r) : badVars i fun k => badVar (var k) :=
      fun k hr hk hbad => (h.of_bad hk hbad).fault hr rfl
    exact ⟨rho (answers_madd s x c), rho (answers_msub s x c), rho (answers_mmul s x c), fun hr h => (answers_mfma_badRho h).fault hr rfl,
      fun r hrho => ⟨vars (answers_madd s x c) hrho, vars (answers_msub s x c) hrho, vars (answers_mmul s x c) hrho,
        fun k hr hk h => (answers_mfma_badVars hrho hk h).fault hr rfl⟩,
      checks (checks_mscl s x c), checks (checks_mset s x c), checks (checks_mrelu s x c), checks (checks_mexp s x c), checks (checks_msigm s x c),
      checks (checks_mtanh s x c), checks (checks_mrcp s x c), checks (checks_mcol s x c),
      fun ps hr hroom hps hrace => (answers_mld_of_ok hps).load_completes hr hroom hrace,
      fun ps hr hps hrace => (answers_mst s x c).store_completes hps hr hrace⟩

end Sys2Proof.Machine
end

section
/-! SUPPORT. Pod accesses (R206 to R209, R214 to R216, R377, R405): what the active lanes of TST and TRED write, and what RLD and RATOM request. -/

namespace Sys2Proof.Machine

/-! ### The lanes of a pod access (R206) -/

/-- Each active lane of a pod access whose checks pass has reached something. -/
theorem Ctx.podReach_lane {α : Type} {c : Ctx} {n : Nat} {addr : Fin 32 → Nat} {at_ : Nat → Option α} {v : Lanes (Option α)}
    (h : c.podReach n addr at_ = .ok v) {k : Fin 32} (hk : inMask c.active k = true) : ∃ a, v[k] = some a := by
  unfold Ctx.podReach at h
  simp only [] at h
  split at h
  · cases h
  · split at h
    · cases h
    · next hout =>
      cases h
      have hsome := of_maskOf_zero (not_not.mp hout) k
      rw [hk, Bool.true_and] at hsome
      exact Option.ne_none_iff_exists'.mp fun hnone => by simp [hnone] at hsome

/-! ### TST and TRED (R207 to R209) -/

section
variable {s : State} {c : Ctx} {v : Lanes (Option (PodAddr × Region))}

/-- The interfaces of all chips that the active lanes write to take writes (R385). -/
def Ctx.targetsOpen (c : Ctx) (s : State) (v : Lanes (Option (PodAddr × Region))) : Prop :=
  ∀ (k : Fin 32) p, inMask c.active k = true → v[k] = some p →
    ∀ d ∈ s.regionTargets c.guest p.1.vchip p.2, s.heldTo c.guest (c.chip % 1024) d = false

/-- A tidal store whose regions suit it and whose targets take writes issues its lanes' element writes. -/
theorem Ctx.tidal_ok {n : Nat} {ok : Region → Bool} {write : State → PodAddr → Region → Nat → State}
    (hv : c.podReach n c.ea (s.tidalAt c.guest) = .ok v) (hok : ∀ (k : Fin 32) p, inMask c.active k = true → v[k] = some p → ok p.2 = true)
    (hopen : c.targetsOpen s v) : c.tidal s n ok write =
      .ok { s := (lanesOf c.active).foldl (fun s i => match v[i] with | some p => write s p.1 p.2 c.vd[i] | none => s) s } := by
  have hbad : maskOf (fun i => inMask c.active i && !((v[i].map fun p => ok p.2).getD false)) = 0 :=
    maskOf_in_none fun k hk => by
      obtain ⟨p, hp⟩ := Ctx.podReach_lane hv hk
      simp [hp, hok k p hk hp]
  have hheld : ((lanesOf c.active).find? fun i =>
      ((v[i].map fun p => s.regionTargets c.guest p.1.vchip p.2).getD []).any fun d => s.heldTo c.guest (c.chip % 1024) d) = none := by
    refine List.find?_eq_none.mpr fun k hk => ?_
    obtain ⟨p, hp⟩ := Ctx.podReach_lane hv (mem_lanesOf.mp hk)
    simpa [hp] using hopen k p (mem_lanesOf.mp hk) hp
  simp only [Ctx.tidal, hv, hbad, hheld, ne_eq, not_true_eq_false, if_false] <;> rfl

/-- One element write: its packet, and what it makes of its chip and of the others (R209, R358, R378). -/
theorem State.tidalWrite_of_chip {k : Chip} (hk : s.chip? c.chip = some k) (vchip : Nat) (r : Region) (off width : Nat) (value : DWord) :
    s.tidalWrite c.chip vchip r off width value =
      { s with packets := s.packets ++ [{ Packet.new k.guest k.num vchip (.tidal k.tide.openTide off width r.rule r.et value) with
                                            mset := if r.mc then some r.mset else none }] }.updChip c.chip
        fun j => { j with tide := j.tide.updOpen fun h => (s.regionTargets k.guest vchip r).foldl Half.count h } := by
  simp only [State.tidalWrite, hk]
  rfl

end

/-- Settles O24: a tidal store of lanes whose regions suit it writes each lane's elements, and an element write is one packet. -/
theorem tidalStores : Obligations.TidalStores := by
  intro s x c v wide op e open_ write tst tred
  refine ⟨fun hr hv hrule hopen => ?tst, fun hr hv hrule hopen => ?tred, fun k p off width n hk => ?write⟩
  case tst =>
    have ha : Answers (.tst x) x c s _ := ⟨_, by unfold exec; exact rfl, rfl⟩
    simp only [decide_eq_true_eq, wide] at hv
    refine ha.does hr ((Ctx.tidal_ok hv ?_ hopen).trans ?_)
    · intro k p hk hp
      simpa using hrule k p hk hp
    · congr 3
      funext s k
      dsimp only [tst, write]
      cases v[k] with
      | none => rfl
      | some p => simp [wide]
  case tred =>
    have ha : Answers (.tred x) x c s _ := ⟨_, by unfold exec; exact rfl, rfl⟩
    refine ha.does hr ((Ctx.tidal_ok hv ?_ hopen).trans ?_)
    · intro k p hk hp
      simpa [and_assoc] using hrule k p hk hp
    · congr 3
      funext s k
      dsimp only [tred, write]
      cases v[k] <;> rfl
  case write =>
    intro packet count tide
    have hw : write p s off width n = _ := State.tidalWrite_of_chip hk ..
    rw [hw]
    refine ⟨rfl, ?_, fun j hj => State.chip?_updChip_ne _ _ (Ne.symm hj)⟩
    rw [State.chip?_updChip_self]
    change (s.chip? c.chip).map _ = _
    rw [hk]
    rfl

/-! ### Results of either sort (R30, R41) -/

/-- A meaning that raises no flag, or whose result is outstanding, completes where its destination finds its registers. -/
theorem Answers.completes {i : Instr} {x : Ops} {c : Ctx} {s : State} {r : Res} {o : Out} (h : Answers i x c s r) (hr : Ready s i x c)
    (hroom : c.room s = true) (hflags : o.flags = Lanes.all 0 ∨ o.late.isSome = true) (e : r = .ok o) : exec i s = .next (c.finish o) := by
  obtain ⟨body, hexec, hb⟩ := h
  refine hexec.trans (issue_ok hr (hb.trans e) (fun _ => hroom) (hflags.imp_left fun hnone => ?_))
  rw [hnone]
  exact trapLanes_none ..

/-! ### RLD (R214) -/

/-- What RLD reads: an element of a tidal region, or a mailbox word. -/
def Ctx.rldAt (c : Ctx) (s : State) (a : Nat) : Option PodAddr :=
  match s.tidalAt c.guest a with | some p => some p.1 | none => s.mailboxAt c.guest a

section
variable {s : State} {x : Ops} {c : Ctx} {g : GangRef} {lanes : LaneMask} {v : Lanes (Option PodAddr)} (hw : c.w = .gang g lanes)
include hw

/-- The requests of an RLD, one for each active lane, with the reader's tide. -/
def Ctx.rldRequests (c : Ctx) (s : State) (x : Ops) (g : GangRef) (v : Lanes (Option PodAddr)) : List Packet :=
  (lanesOf c.active).filterMap fun k => v[k].map fun p =>
    Packet.new c.guest (c.chip % 1024) p.vchip (.rld g c.g.freshId k.val p.off p.mailbox (decide (x.sb 0 0 = 1))
      (((s.chip? c.chip).map fun k => k.tide.c).getD 0) (((s.chip? c.chip).map fun k => k.tide.closed).getD false))

theorem answers_rld (hv : c.podReach (if x.sb 0 0 = 1 then 8 else 4) c.ea (c.rldAt s) = .ok v) : Answers (.rld x) x c s
    (if c.g.remoteFull then .wait .remote 0 0
     else .ok { s := { s with packets := s.packets ++ c.rldRequests s x g v }, dst := some (Lanes.all 0),
                late := some (.rld (decide (x.sb 0 0 = 1)), c.active) }) := by
  refine ⟨_, by unfold exec; exact rfl, ?_⟩
  dsimp only
  split
  · next herr => exact absurd (hv.symm.trans herr) (by simp)
  · next hctrl => exact absurd (hw.symm.trans hctrl) (by simp)
  · next hok hgang =>
    cases hv.symm.trans hok
    cases hw.symm.trans hgang
    rfl

end

/-! ### RATOM (R215, R216) -/

section
variable {s : State} {x : Ops} {c : Ctx} {g : GangRef} {lanes : LaneMask} {v : Lanes (Option PodAddr)}

/-- A group of lanes of an atomic begins with an active lane. -/
def Ctx.leads (c : Ctx) (a : Nat × List (Fin 32)) : Prop := ∃ k rest, a.2 = k :: rest ∧ inMask c.active k = true

/-- Every group of lanes begins with an active lane. -/
theorem ratomGroups_lead (combine : Bool) (addr : Fin 32 → Nat) {is : List (Fin 32)} (his : ∀ i ∈ is, inMask c.active i = true)
    {acc : List (Nat × List (Fin 32))} (hacc : ∀ a ∈ acc, c.leads a) : ∀ a ∈ ratomGroups combine addr is acc, c.leads a := by
  induction is generalizing acc with
  | nil => exact hacc
  | cons i is ih =>
    have hi := his i (List.mem_cons_self ..)
    unfold ratomGroups
    split
    · refine ih (fun j hj => his j (List.mem_cons_of_mem _ hj)) fun a ha => ?_
      obtain ⟨b, hb, rfl⟩ := List.mem_map.mp ha
      obtain ⟨k, rest, hlist, hk⟩ := hacc b hb
      split
      · exact ⟨k, rest ++ [i], by rw [hlist]; rfl, hk⟩
      · exact ⟨k, rest, hlist, hk⟩
    · refine ih (fun j hj => his j (List.mem_cons_of_mem _ hj)) fun a ha => ?_
      rcases List.mem_append.mp ha with ha | ha
      · exact hacc a ha
      · rw [List.mem_singleton.mp ha]
        exact ⟨i, [], rfl, hi⟩

/-- The request of a group of lanes, with some clock and some releases (R216). -/
def Ctx.atomicRequest (c : Ctx) (x : Ops) (g : GangRef) (p : PodAddr) (group : List (Fin 32)) (past : VClock) (rels : List Release) : Packet :=
  Packet.new c.guest (c.chip % 1024) p.vchip (.ratom g c.g.freshId (group.map Fin.val) p.off (x.sb 3 0) (x.sb 5 4) (decide (x.sb 6 6 = 1))
    (group.map fun j => (BitVec.ofNat 64 c.vd[j], BitVec.ofNat 64 c.vb[j])) past rels)

/-- A packet is the request of a group of lanes for the word that its first lane names. -/
def Ctx.isRequest (c : Ctx) (x : Ops) (g : GangRef) (v : Lanes (Option PodAddr)) (a : Nat × List (Fin 32)) (p : Packet) : Prop :=
  ∃ k at_ past rels, a.2.head? = some k ∧ v[k] = some at_ ∧ p = c.atomicRequest x g at_ a.2 past rels

/-- A state that has sent some packets and differs in the happens-before record alone. -/
def SameButRaces.Sent (s : State) (made : List Packet) (u : State) : Prop := SameButRaces { s with packets := s.packets ++ made } u

theorem SameButRaces.Sent.one {s t : State} (h : SameButRaces s t) (p : Packet) : Sent s [p] { t with packets := t.packets ++ [p] } := by
  obtain ⟨hdevs, hguests, hhost, hpackets, hrest⟩ := h
  exact ⟨hdevs, hguests, hhost, congrArg (· ++ [p]) hpackets, hrest⟩

theorem SameButRaces.Sent.trans {s t u : State} {ps qs : List Packet} (a : Sent s ps t) (b : Sent t qs u) : Sent s (ps ++ qs) u := by
  obtain ⟨hdevs, hguests, hhost, hpackets, hrest⟩ := a
  have hmore : SameButRaces { s with packets := s.packets ++ (ps ++ qs) } { t with packets := t.packets ++ qs } :=
    ⟨hdevs, hguests, hhost, by simp [hpackets], hrest⟩
  exact hmore.trans b

/-- Steps of which each sends one packet send a packet for each. -/
theorem SameButRaces.Sent.fold {α : Type} {P : α → Packet → Prop} {f : State → α → State} {l : List α}
    (h : ∀ a ∈ l, ∀ s, ∃ p, P a p ∧ Sent s [p] (f s a)) (s : State) : ∃ made, Sent s made (l.foldl f s) ∧ List.Forall₂ P l made := by
  induction l generalizing s with
  | nil =>
    refine ⟨[], ?_, .nil⟩
    unfold Sent
    rw [List.append_nil]
    exact .refl s
  | cons a l ih =>
    obtain ⟨p, hp, hsent⟩ := h a (List.mem_cons_self ..) s
    obtain ⟨made, hmade, hall⟩ := ih (fun b hb => h b (List.mem_cons_of_mem _ hb)) (f s a)
    exact ⟨p :: made, hsent.trans hmade, .cons hp hall⟩

theorem answers_ratom (hw : c.w = .gang g lanes)
    (hv : c.podReach (if x.sb 6 6 = 1 then 8 else 4) (fun k => c.va[k]) (s.mailboxAt c.guest) = .ok v) : ∃ u, Answers (.ratom x) x c s
      (if c.g.remoteFull then .wait .remote 0 0
       else .ok { s := u, dst := some (Lanes.all 0), late := some (.ratom (decide (x.sb 6 6 = 1)), c.active) }) ∧
    ∃ made, SameButRaces.Sent s made u ∧
      List.Forall₂ (c.isRequest x g v) (ratomGroups (ratomCombines (x.sb 3 0)) (fun k => c.va[k]) (lanesOf c.active) []) made := by
  have ha : Answers (.ratom x) x c s _ := ⟨_, by unfold exec; exact rfl, rfl⟩
  simp only [hv, hw] at ha
  refine ⟨_, ha, SameButRaces.Sent.fold (fun a hmem t => ?_) s⟩
  obtain ⟨k, rest, hgroup, hk⟩ := ratomGroups_lead (c := c) _ _ (fun i hi => mem_lanesOf.mp hi) (fun a ha => absurd ha List.not_mem_nil) a hmem
  obtain ⟨p, hp⟩ := Ctx.podReach_lane hv hk
  have hhead : a.2.head? = some k := by rw [hgroup]; rfl
  simp only [hhead, hp]
  refine ⟨_, ⟨k, p, _, _, hhead, hp, rfl⟩, SameButRaces.Sent.one ?_ _⟩
  split
  · exact .foldHb ..
  · exact .refl t

end

/-- Settles O26: RLD sends a request for each active lane, and RATOM one for each group of lanes, which begins with an active one. -/
theorem remoteAccesses : Obligations.RemoteAccesses := by
  intro s x c g lanes v hw reach wide big
  refine ⟨fun hr hroom hv hfree => ?rld, fun hr hv hfull => ?rldFull, fun hr hroom hv hfree => ?ratom, fun hr hv hfull => ?ratomFull⟩
  case rld =>
    intro tide closed made
    simp only [decide_eq_true_eq, wide] at hv
    exact (answers_rld hw hv).completes hr hroom (.inr rfl) (if_neg (by simp [hfree]))
  case rldFull =>
    simp only [decide_eq_true_eq, wide] at hv
    exact (answers_rld hw hv).hold hr (if_pos hfull)
  case ratom =>
    simp only [decide_eq_true_eq, big] at hv
    obtain ⟨u, ha, made, hsent, hall⟩ := answers_ratom hw hv
    exact ⟨u, made, ha.completes hr hroom (.inr rfl) (if_neg (by simp [hfree])), hsent, hall⟩
  case ratomFull =>
    simp only [decide_eq_true_eq, big] at hv
    obtain ⟨u, ha, -⟩ := answers_ratom hw hv
    exact ha.hold hr (if_pos hfull)

end Sys2Proof.Machine
end

section
/-! SUPPORT. Tides (R210 to R213, R378 to R382): what TIDE.CLOSE, TIDE.WAIT and TIDE.QUERY answer, and the two steps of a turn. -/

namespace Sys2Proof.Machine

/-! ### TIDE.CLOSE (R211) -/

section
variable {s : State} {c : Ctx} {k : Chip} (hk : s.chip? c.chip = some k)
include hk

theorem Ctx.tideClose_of_done (h : c.once c.va < k.tide.c.toNat ∨ c.once c.va = k.tide.c.toNat ∧ k.tide.closed = true) :
    c.tideClose s = .ok { s } := by
  simp only [Ctx.tideClose, hk]
  rcases h with hlt | ⟨heq, hclosed⟩
  · rw [if_pos hlt]
  · rw [if_neg (by omega), if_pos heq, if_pos hclosed]

/-- The threads that close the open tide have issued tidal copies that still have bytes to hand over (R211). -/
def Ctx.copiesLeft (c : Ctx) (s : State) : Bool := (lanesOf c.active).any fun j => s.copiesBefore c.chip (c.actor s j).clock

omit hk in
theorem Ctx.copiesLeft_iff : c.copiesLeft s = true ↔ ∃ j : Fin 32, inMask c.active j = true ∧ s.copiesBefore c.chip (c.actor s j).clock = true := by
  simp only [Ctx.copiesLeft, List.any_eq_true, mem_lanesOf]

theorem Ctx.tideClose_of_open (heq : c.once c.va = k.tide.c.toNat) (hopen : k.tide.closed = false) :
    c.tideClose s = if c.copiesLeft s then .wait .tideClose (BitVec.ofNat 64 (c.once c.va)) (BitVec.ofNat 32 (c.once c.va)) else .ok { s := c.closeTide s } := by
  simp only [Ctx.tideClose, hk]
  rw [if_neg (by omega), if_pos heq, if_neg (by simp [hopen])]
  rfl

theorem Ctx.tideClose_of_next (heq : c.once c.va = k.tide.c.toNat + 1) (hclosed : k.tide.closed = true) :
    c.tideClose s = .wait .tideClose (BitVec.ofNat 64 (c.once c.va)) (BitVec.ofNat 32 (c.once c.va)) := by
  simp only [Ctx.tideClose, hk]
  rw [if_neg (by omega), if_neg (by omega), if_pos (by simp [heq, hclosed])]

theorem Ctx.tideClose_of_later (hlt : k.tide.c.toNat < c.once c.va) (hnext : ¬ (c.once c.va = k.tide.c.toNat + 1 ∧ k.tide.closed = true)) :
    c.tideClose s = .trap { cause := 2, lanes := c.active } := by
  simp only [Ctx.tideClose, hk]
  rw [if_neg (by omega), if_neg (by omega), if_neg (by simpa using hnext)]
  rfl

/-! ### TIDE.WAIT and TIDE.QUERY (R212, R213) -/

theorem Ctx.tideWait_of_turned (hlt : c.once c.va < k.tide.c.toNat) : ∃ u, SameButRaces s u ∧ c.tideWait s = .ok { s := u } := by
  simp only [Ctx.tideWait, hk, if_pos hlt]
  exact ⟨_, .foldHb .., rfl⟩

theorem Ctx.tideWait_of_before (hle : k.tide.c.toNat ≤ c.once c.va) :
    c.tideWait s = .wait .tideWait (BitVec.ofNat 64 (c.once c.va)) (BitVec.ofNat 32 (c.once c.va)) := by
  simp only [Ctx.tideWait, hk, if_neg (Nat.not_lt.mpr hle)]

theorem answers_tideQuery (x : Ops) : Answers (.tideQuery x) x c s
    (c.value (if x.sub = 1 then s.updChip c.chip fun k => { k with tide := { k.tide with satw := false, conf := false } } else s)
      fun _ => tideWord k.tide (s.peers k.guest)) :=
  ⟨_, by unfold exec; exact rfl, by simp only [hk]⟩

end

theorem answers_tideClose (s : State) (x : Ops) (c : Ctx) : Answers (.tideClose x) x c s (c.tideClose s) := ⟨_, by unfold exec; exact rfl, rfl⟩

theorem answers_tideWait (s : State) (x : Ops) (c : Ctx) : Answers (.tideWait x) x c s (c.tideWait s) := ⟨_, by unfold exec; exact rfl, rfl⟩

/-! ### The turn (R378 to R382) -/

/-- A turn begins once its writes have all come, and completes once no granule of its regions is being moved. -/
theorem exec_tideTurn {s : State} {chip : Nat} {c : Chip} (hc : s.chip? chip = some c) : exec (.tideTurn chip) s = .next
    (if c.tide.apply then (if c.regionMoves then s else s.turn chip c)
     else if s.turnReady c then s.updChip chip fun c => { c with tide := { c.tide with apply := true } } else s) := by
  change execTideTurn chip s = _
  simp only [execTideTurn, hc, notEnabled]
  split
  · split <;> rfl
  · split <;> rfl

/-- Settles O25: TIDE.CLOSE and TIDE.WAIT answer by the tide that they name, and a turn's steps by APPLY and by what each waits for. -/
theorem tides : Obligations.Tides := by
  refine ⟨fun s x c k hk => ?instructions, fun s chip c hc => ?turn⟩
  case instructions =>
    intro n now waits
    have hclose := answers_tideClose s x c
    have hwait := answers_tideWait s x c
    refine ⟨fun hr => ⟨fun h => hclose.does hr (Ctx.tideClose_of_done hk h), fun heq hopen hnone => ?closes, fun j heq hopen hj hleft => ?copies,
        fun heq hclosed => hclose.hold hr (Ctx.tideClose_of_next hk heq hclosed),
        fun hlt hnext => hclose.fault hr (Ctx.tideClose_of_later hk hlt hnext)⟩,
      fun hr => ⟨fun hlt => ?turned, fun hle => hwait.hold hr (Ctx.tideWait_of_before hk hle)⟩,
      fun hr hroom => (answers_tideQuery hk x).value hr hroom rfl⟩
    case closes =>
      have hnot : c.copiesLeft s ≠ true := fun h => by
        obtain ⟨j, hj, hleft⟩ := Ctx.copiesLeft_iff.mp h
        exact absurd hleft (by simp [hnone j hj])
      exact hclose.does hr ((Ctx.tideClose_of_open hk heq hopen).trans (if_neg hnot))
    case copies =>
      exact hclose.hold hr ((Ctx.tideClose_of_open hk heq hopen).trans (if_pos (Ctx.copiesLeft_iff.mpr ⟨j, hj, hleft⟩)))
    case turned =>
      obtain ⟨u, hsame, hdone⟩ := Ctx.tideWait_of_turned hk hlt
      exact ⟨u, hsame, hwait.does hr hdone⟩
  case turn =>
    rw [exec_tideTurn hc]
    refine ⟨fun happly hready => ?_, fun happly hmoves => ?_, fun happly hready => ?_, fun happly hmoves => ?_⟩
    · simp [happly, hready]
    · simp [happly, hmoves]
    · simp [happly, hready]
    · simp only [happly, hmoves, if_true, Bool.false_eq_true, if_false]
      rfl

end Sys2Proof.Machine
end

section
/-! SUPPORT. Messages and launches that instructions start (R217 to R223): what SEND, ARM, DISARM, LAUNCH and HINT answer. -/

namespace Sys2Proof.Machine

section
variable {s u : State} {x : Ops} {c : Ctx} {k : Chip} {bs : List Byte}

/-! ### SEND (R217, R218) -/

/-- The task of an issue's engine commands: the gang's, or the number that stands for the control core. -/
def Ctx.engineTask (c : Ctx) : Nat := match c.w with | .gang g _ => g.task | .ctrl _ => ctrlTask

theorem answers_send {ps : List Place} (hrec : c.record s (c.once c.va) 32 32 = .ok (u, bs)) (hgood : u.sendOk c.guest bs = true)
    (hps : u.enginePlaces c.chip c.engineTask .read (SendRec.of bs).paddr (SendRec.of bs).len = .ok ps) :
    Answers (.send x) x c s (c.queueCopy u 3 bs none [] []) := by
  refine ⟨_, by unfold exec; exact rfl, ?_⟩
  simp only [hrec, hgood, Bool.not_true, Bool.false_eq_true, if_false]
  split
  · next herr => exact absurd (hps.symm.trans herr) (by simp)
  · rfl

/-! ### ARM and DISARM (R220, R221) -/

/-- A record of a launch that an instruction hands over is sound, and its queue takes records (R222, R255). -/
def State.arms (s : State) (chip : Nat) (k : Chip) (r : LaunchRec) : Prop :=
  s.issueOk chip r = true ∧ r.aq ≤ 63 ∧ (vget k.queues r.aq).open_ = true

/-- A chip with a record armed at a tag, fired for the slots that have waited (R220). -/
def Chip.armed (tag : Nat) (e : ArmEntry) (k : Chip) : Chip :=
  (Tab.getD k.rx tag RxTag.reset).unfired.foldl (fun k slot => k.fire tag slot e)
    { k with arm := Tab.put k.arm tag e, rx := Tab.upd k.rx tag fun r => { r with unfired := [] } }

/-- The state in which a context's record is armed at its tag, with the arguments that ARM copies (R220). -/
def Ctx.withArmed (c : Ctx) (u : State) (bs : List Byte) : State :=
  let a := u.armArgs c.chip (LaunchRec.of bs)
  a.2.updChip c.chip (Chip.armed (c.once c.va) ⟨bs, a.1, c.g.pl == .firmware⟩)

theorem answers_arm (hrec : c.record s (c.once c.vb) 64 128 = .ok (u, bs)) (hk : u.chip? c.chip = some k) (htag : c.once c.va ≤ 255)
    (hok : u.arms c.chip k (LaunchRec.of bs)) : Answers (.arm x) x c s (.ok { s := c.withArmed u bs }) := by
  obtain ⟨hissue, haq, hopen⟩ := hok
  refine ⟨_, by unfold exec; exact rfl, ?_⟩
  simp only [hrec, hk]
  exact if_neg (by simp [htag, hissue, haq, hopen])

theorem answers_disarm (htag : c.once c.va ≤ 255) : Answers (.disarm x) x c s
    (.ok { s := s.updChip c.chip fun k => { k with arm := Tab.drop k.arm (c.once c.va) } }) :=
  ⟨_, by unfold exec; exact rfl, if_neg (Nat.not_lt.mpr htag)⟩

/-! ### LAUNCH (R222) -/

section
variable (hrec : c.record s (c.once c.va) 64 128 = .ok (u, bs)) (hk : u.chip? c.chip = some k) (hq : c.once c.vb ≤ 63)
include hrec hk hq

theorem answers_launch_closed (hclosed : (vget k.queues (c.once c.vb)).open_ = false) :
    Answers (.launch x) x c s (.trap { cause := 19, lanes := c.active }) := by
  refine ⟨_, by unfold exec; exact rfl, ?_⟩
  simp only [hrec, hk, if_neg (Nat.not_lt.mpr hq), hclosed]
  rfl

variable (hopen : (vget k.queues (c.once c.vb)).open_ = true) (hissue : u.issueOk c.chip (LaunchRec.of bs) = true)
include hopen hissue

theorem answers_launch_room (hroom : k.queueFull (c.once c.vb) = false) : ∃ t past, SameButRaces u t ∧
    Answers (.launch x) x c s (.ok { s := t.enqueueRecord c.chip (c.once c.vb) bs none (c.g.pl == .firmware) past }) := by
  have ha : Answers (.launch x) x c s _ := ⟨_, by unfold exec; exact rfl, rfl⟩
  simp only [hrec, hk, if_neg (Nat.not_lt.mpr hq), hopen, hissue, hroom, Bool.not_true, Bool.false_eq_true, if_false] at ha
  exact ⟨_, _, .foldHb .., ha⟩

theorem answers_launch_full (hfull : k.queueFull (c.once c.vb) = true) :
    Answers (.launch x) x c s (.wait .queueFull (BitVec.ofNat 64 (c.once c.vb)) 0) := by
  refine ⟨_, by unfold exec; exact rfl, ?_⟩
  simp only [hrec, hk, if_neg (Nat.not_lt.mpr hq), hopen, hissue, hfull, Bool.not_true, Bool.false_eq_true, if_false, if_true]

end

end

/-- Settles O27: each instruction answers by its record, its tag or its queue, in the order of its checks. -/
theorem messagesLaunches : Obligations.MessagesLaunches := by
  refine fun s x c u bs => ⟨fun hr hrec hgood => ?send, fun k hr hrec hk htag hissue haq hopen => ?arm,
    fun hr htag => (answers_disarm htag).does hr rfl, fun k hr hrec hk hq hopen hissue => ⟨fun hroom => ?room, fun hfull => ?full⟩,
    fun k hr hrec hk hq hclosed => (answers_launch_closed hrec hk hq hclosed).fault hr rfl, does_of_ok (by unfold exec; exact rfl) fun _ => rfl⟩
  case send =>
    intro task r cmd hreach hroom
    obtain ⟨ps, hps⟩ := hreach
    obtain rfl := ready_x hr
    exact ⟨(Ctx.record_ok hrec).1, (answers_send hrec hgood hps).does hr (if_neg (Nat.not_le.mpr hroom))⟩
  case arm =>
    intro a tag e armed
    exact ⟨(Ctx.record_ok hrec).1, (answers_arm hrec hk htag ⟨hissue, haq, hopen⟩).does hr rfl⟩
  case room =>
    obtain ⟨t, past, hsame, ha⟩ := answers_launch_room (x := x) hrec hk hq hopen hissue hroom
    exact ⟨t, past, (Ctx.record_ok hrec).1.trans hsame, ha.does hr rfl⟩
  case full => exact (answers_launch_full hrec hk hq hopen hissue hfull).hold hr rfl

end Sys2Proof.Machine
end

section
/-! SUPPORT. Traps, returns and gang images (R224, R396, R401, R407): what TRAP, TRET, CSAVE and CREST answer, and what a return makes of the threads
that a handler has made exit. -/

namespace Sys2Proof.Machine

/-! ### Exits and returns (R103, R307, R401) -/

@[simp] theorem Gang.bind_settleExits (g : Gang) : g.settleExits.bind = g.bind := by
  unfold Gang.settleExits
  dsimp only
  split
  · rfl
  · rfl

/-- Threads that exit leave those that have been made to: none is lost. -/
theorem Gang.gone_settleExits (g : Gang) : g.settleExits.exited ||| g.settleExits.exiting = g.exited ||| g.exiting := by
  unfold Gang.settleExits
  dsimp only
  split
  · rfl
  · generalize hheld : (g.pend.foldl (fun m p => m ||| p.lanes ||| if p.traps != 0 then p.active else 0) 0 : LaneMask) = held
    change g.exited ||| (g.exiting &&& ~~~held) ||| (g.exiting &&& ~~~(g.exiting &&& ~~~held)) = g.exited ||| g.exiting
    apply BitVec.eq_of_getLsbD_eq
    intro k hk
    simp only [BitVec.getLsbD_or, BitVec.getLsbD_and, BitVec.getLsbD_not, hk, decide_true, Bool.true_and]
    cases g.exited.getLsbD k <;> cases g.exiting.getLsbD k <;> cases held.getLsbD k <;> rfl

/-- What TRET's ACTION does to a gang keeps its scope bindings. -/
theorem Gang.bind_act (g : Gang) (mark : FaultMark) (action : Nat) (deferred sup : Bool) (repl : List (Lanes (BitVec 128))) :
    (g.act mark action deferred sup repl).bind = g.bind := by
  unfold Gang.act
  dsimp only
  split
  · split
    · rfl
    · rfl
  · split
    · rfl
    · rfl
  · exact Gang.bind_settleExits _

/-- ACTION 2 makes the faulting threads exit: at once, or once they await no result. -/
theorem Gang.gone_act_two (g : Gang) (mark : FaultMark) (deferred sup : Bool) (repl : List (Lanes (BitVec 128))) :
    (g.act mark 2 deferred sup repl).exited ||| (g.act mark 2 deferred sup repl).exiting =
      g.exited ||| g.exiting ||| (mark.active &&& ~~~g.exited) :=
  (Gang.gone_settleExits _).trans (BitVec.or_assoc ..).symm

/-- A returned gang has the bindings of its handler where that has bound, and those of the image elsewhere (R307). -/
theorem Gang.bind_bringBack (g r : Gang) (mark : FaultMark) (k : Fin 64) :
    (g.bringBack r mark).bind[k] = if mark.rebound.getLsbD k.val then g.bind[k] else r.bind[k] := by
  simp [Gang.bringBack]

/-! ### TRAP and TRET (R224, R401) -/

theorem Answers.whole {i : Instr} {x : Ops} {c : Ctx} {s t : State} {r : Res} (h : Answers i x c s r) (hr : Ready s i x c) (e : r = .whole t) :
    exec i s = .next t := by
  obtain ⟨body, hexec, hb⟩ := h
  exact hexec.trans (issue_whole hr (hb.trans e))

/-- The code of a TRAP (R224). -/
def trapCode (x : Ops) : Nat := if x.form = .A then opndBits x.b.opnd % 256 - 0x40 else x.imm.toNat % 2 ^ 32

theorem answers_trap (s : State) (x : Ops) (c : Ctx) :
    Answers (.trap x) x c s (.trap { cause := 20, lanes := c.active, addr := BitVec.ofNat 64 (trapCode x) }) :=
  ⟨_, by unfold exec; exact rfl, rfl⟩

section
variable {s : State} {x : Ops} {c : Ctx} {g : GangRef} {lanes : LaneMask} {f : Nat}

theorem answers_tret (hw : c.w = .gang g lanes) (hf : c.g.frame = some f) : Answers (.tret x) x c s
    (if c.g.inTret ||| c.active = ~~~c.g.exited then c.tret s g f else .wait .tret 0 0) :=
  ⟨_, by unfold exec; exact rfl, by simp only [hw, hf]⟩

/-- The image in a gang's trap frame, as TRET reads it (R399, R401). -/
def State.frameImage (s : State) (g : GangRef) (k : Chip) (f : Nat) : List Byte :=
  s.leaseRead g.chip k.trap.area (k.trap.tfbase.toNat + 65536 * f + 0x40) 61568

/-- The record in a gang's trap frame. -/
def State.frameHead (s : State) (g : GangRef) (k : Chip) (f : Nat) : List Byte := s.leaseRead g.chip k.trap.area (k.trap.tfbase.toNat + 65536 * f) 64

/-- The gang that returns with an image read into it, before what its handler left beside the image comes back (R401). -/
def Gang.unframed (g r : Gang) (image : List Byte) : Gang :=
  { r with pl := levelOf (field image 6 1 % 4), frame := none, saved := [], mark := none, pend := returned g.saved r.pend }

/-- The gang as it goes on after TRET (R401). -/
def Gang.afterReturn (g r : Gang) (mark : FaultMark) (head image : List Byte) : Gang :=
  g.bringBack ((g.unframed r image).act mark (field head 0xC 1) ((field head 0 4).testBit 17) ((field head 0 4).testBit 16) (replOf image)) mark

/-- The state in which a gang's frame is free, and its results are renumbered for its return (R401, R405). -/
def Ctx.freeFrame (c : Ctx) (s : State) (g : GangRef) (f : Nat) : State :=
  ((c.leaveFence s).renumber g fun id => if 32 ≤ id then 2 ^ 40 else id).updChip g.chip fun k =>
    { k with trap := { k.trap with frames := k.trap.frames.filter fun n => n != f } }

theorem Ctx.tret_of_good {k : Chip} {mark : FaultMark} {r : Gang} (hk : s.chip? g.chip = some k) (hmark : c.g.mark = some mark)
    (hr : c.g.restore (s.frameImage g k f) = some r) (haction : field (s.frameHead g k f) 0xC 1 ≤ 2)
    (hpool : s.poolHas c.w (r.vmap.length - c.g.vmap.length) = true) :
    let after := c.g.afterReturn r mark (s.frameHead g k f) (s.frameImage g k f)
    let t := ((c.freeFrame s g f).updGang g fun _ => after).orphanTest g.chip g.task
    c.tret s g f = .whole { t with issuer := after.replay.head?.map fun p => .gang g p.lanes } := by
  unfold State.frameImage at hr
  unfold State.frameHead at haction
  simp only [Ctx.tret, hk, hmark, hr, hpool, if_neg (Nat.not_lt.mpr haction), Bool.not_true, Bool.false_eq_true, if_false]
  rfl

end

/-- Settles O28: TRET waits for the rest of its gang, and then its gang goes on as its frame and ACTION say. -/
theorem trapAndReturn : Obligations.TrapAndReturn := by
  refine ⟨fun s x c hr => (answers_trap s x c).fault hr rfl, fun s x c g lanes f hr hw hf =>
    ⟨fun hrest => (answers_tret hw hf).hold hr (if_neg hrest), fun k mark r hall hk hmark => ?returns⟩⟩
  intro base head image action himage haction hpool back after t
  have ha : Answers (.tret x) x c s (c.tret s g f) := by
    have ha := answers_tret (s := s) (x := x) hw hf
    rwa [if_pos hall] at ha
  refine ⟨ha.whole hr (Ctx.tret_of_good hk hmark himage haction hpool), fun k => ?binds, fun htwo => ?exits⟩
  case binds => exact (Gang.bind_bringBack ..).trans (by rw [Gang.bind_act])
  case exits =>
    have hgone := Gang.gone_act_two back mark ((field head 0 4).testBit 17) ((field head 0 4).testBit 16) (replOf image)
    rw [← htwo] at hgone
    exact hgone

/-! ### CSAVE and CREST (R224, R407) -/

section
variable {s u : State} {x : Ops} {c : Ctx}

/-- The image that CSAVE writes: of a gang past the instruction, its destination predicate true (R224). -/
def Ctx.savedImage (c : Ctx) (k : Nat) : List Byte :=
  c.g.image (Lanes.sel c.active (Lanes.all c.next) c.g.pc) (c.g.writeP k c.active (Lanes.all true)).pred c.g.frame true []

theorem answers_csave {k : BitVec 8} {ps : List Place} (hdst : x.dst = .main k) (hall : c.active = ~~~c.g.exited) (halign : c.once c.va % 256 = 0)
    (hps : c.span s .write (c.once c.va) (c.savedImage k.toNat).length = .ok ps) (hu : c.imageAccess s true ps = .ok u) :
    Answers (.csave x) x c s (.ok { s := u.writeBytes ps (c.savedImage k.toNat), dst := some (Lanes.all 0) }) := by
  unfold Ctx.savedImage at hps
  refine ⟨_, by unfold exec; exact rfl, ?_⟩
  simp only [hall, halign, hdst, ne_eq, not_true_eq_false, if_false]
  rw [hall] at hps
  simp only [hps, hu]
  unfold Ctx.savedImage
  rw [hall]

/-- The bytes of an image that CREST can read, up to the first that its thread does not reach. -/
def Ctx.crestPlaces (c : Ctx) (s : State) : List Place := c.readable s (c.once c.va) 61568

/-- CREST's gang with an image read into it. -/
theorem answers_crest {g : GangRef} {lanes : LaneMask} {n : Nat} {r : Gang} (hw : c.w = .gang g lanes)
    (hlong : 0x4700 ≤ (s.bytesAt (c.crestPlaces s)).length) (hn : recordsLength 512 ((s.bytesAt (c.crestPlaces s)).drop 0x4700) = some n)
    (hu : c.imageAccess s false ((c.crestPlaces s).take (0x4700 + n)) = .ok u) (hr : c.g.restore (s.bytesAt (c.crestPlaces s)) = some r)
    (hpool : u.poolHas c.w (r.vmap.length - c.g.vmap.length) = true) :
    let back := c.g.rebuilt r (levelOf (field (s.bytesAt (c.crestPlaces s)) 6 1 % 4))
    let t := (((c.leaveFence u).renumber g fun _ => 2 ^ 40).updGang g fun _ => back).orphanTest g.chip g.task
    Answers (.crest x) x c s (.whole { t with issuer := none }) := by
  have hread : (if (s.bytesAt (c.crestPlaces s)).length < 0x4700 then none else recordsLength 512 ((s.bytesAt (c.crestPlaces s)).drop 0x4700)) =
      some n := (if_neg (Nat.not_lt.mpr hlong)).trans hn
  unfold Ctx.crestPlaces at hread hu hr
  refine ⟨_, by unfold exec; exact rfl, ?_⟩
  dsimp only
  rw [hread]
  simp only [hu, hr, hw]
  rw [hw] at hpool
  simp only [hpool, Bool.not_true, Bool.false_eq_true, if_false]
  rfl

end

/-- Settles O29: CSAVE writes the image of its gang past the instruction, and CREST puts the gang that its image holds in its place. -/
theorem gangImages : Obligations.GangImages := by
  intro s x c u a
  refine ⟨fun k ps hr hroom hdst hall halign => ?csave, fun g lanes n r hr hw => ?crest⟩
  case csave =>
    intro pcs bytes hps hu
    exact ⟨Ctx.imageAccess_ok hu, (answers_csave hdst hall halign hps hu).completes hr hroom (.inl rfl) rfl⟩
  case crest =>
    intro ps bs hlong hn hu hback hpool mine back
    exact ⟨Ctx.imageAccess_ok hu, (answers_crest hw hlong hn hu hback hpool).whole hr rfl⟩

end Sys2Proof.Machine
end

section
/-! SUPPORT. The system instructions (R225, R227 to R229, R264): what each answers, and what order 5 of R37 knows of a system register. -/

namespace Sys2Proof.Machine

/-! ### SYSR and SYSW (R225) -/

section
variable {s t : State} {x : Ops} {c : Ctx}

theorem answers_sysr {v : Nat} (h : s.sysRead c.chip (some c.core) c.g.pl (c.once c.vb) = .ok v) : Answers (.sysr x) x c s (c.value s fun _ => v) :=
  ⟨_, by unfold exec; exact rfl, by simp only [h]⟩

theorem answers_sysr_of_undefined (h : s.sysRead c.chip (some c.core) c.g.pl (c.once c.vb) = .undefined) :
    Answers (.sysr x) x c s (.trap { cause := 2, lanes := c.active }) :=
  ⟨_, by unfold exec; exact rfl, by simp only [h]; rfl⟩

theorem answers_sysw (h : s.sysWrite c.chip c.g.pl (c.once c.vb) (BitVec.ofNat 64 (c.once c.va)) = .ok t) : Answers (.sysw x) x c s (.ok { s := t }) :=
  ⟨_, by unfold exec; exact rfl, by simp only [h]⟩

theorem answers_sysw_of_priv (h : s.sysWrite c.chip c.g.pl (c.once c.vb) (BitVec.ofNat 64 (c.once c.va)) = .priv) :
    Answers (.sysw x) x c s (.trap { cause := 19, lanes := c.active }) :=
  ⟨_, by unfold exec; exact rfl, by simp only [h]; rfl⟩

theorem answers_sysw_of_undefined (h : s.sysWrite c.chip c.g.pl (c.once c.vb) (BitVec.ofNat 64 (c.once c.va)) = .undefined) :
    Answers (.sysw x) x c s (.trap { cause := 2, lanes := c.active }) :=
  ⟨_, by unfold exec; exact rfl, by simp only [h]; rfl⟩

end

/-- What order 5 compares with the gang's level, of a register whose index it knows. -/
theorem Ctx.regPriv_of_index {c : Ctx} {s : State} {r : Reads} {n : Nat} (hn : c.regIndex r = some n) (hi : ∃ y, c.i = .sysr y ∨ c.i = .sysw y) :
    c.regPriv s r = match regLevels (((s.chip? c.chip).map Chip.slot).getD 0) n with
      | some l => decide (levelCode c.g.pl < levelCode (match c.i with | .sysr _ => l.1 | _ => l.2))
      | none => false := by
  unfold Ctx.regPriv
  simp only [hn, Option.bind_some]
  obtain ⟨y, hr | hw⟩ := hi
  · cases regLevels (((s.chip? c.chip).map Chip.slot).getD 0) n <;> simp only [hr]
  · cases regLevels (((s.chip? c.chip).map Chip.slot).getD 0) n <;> simp only [hw]

/-- A bundle whose register is above its level is PRIV at order 5 (R37). -/
theorem exec_of_regPriv {s : State} {i : Instr} {sp : OpSpec} {x : Ops} {w : Issuer} {q : Gang} {core : CoreRef} {chip : Nat} {lanes : LaneMask}
    (hissuing : s.issuing = some (w, q, core, chip, lanes)) (hx : i.ops = some x) (hsp : i.spec = some sp)
    (henc : (ctxOf s i sp x w q core chip lanes).1.encoded = true)
    (hop : opndOk (modeOf s w q core) (ctxOf s i sp x w q core chip lanes).1.sp x = true)
    (hpriv : (ctxOf s i sp x w q core chip lanes).1.regPriv s (ctxOf s i sp x w q core chip lanes).2 = true) :
    let c := (ctxOf s i sp x w q core chip lanes).1
    exec i s = .next ((s.takeFault w { cause := 19, lanes } c.active c.pc c.next []).afterIssue i w) := by
  intro c
  have hpro : prologue s i sp x = c.stop cPriv c.lanes 0 := by
    unfold prologue
    rw [hissuing]
    exact Ctx.checks_priv henc hop fun hallowed => absurd (hallowed.2.2.symm.trans hpriv) Bool.false_ne_true
  exact exec_of_issue hx (State.issuing_some hissuing).1 (issue_of_trap hsp hpro)

/-! ### CAP, HALT, EVQ.POP and TREL (R227 to R229, R264) -/

section
variable {s : State} {x : Ops} {c : Ctx}

/-- The head of a capability at a position, or of the first of some identifier (R433). -/
def Ctx.capValue (c : Ctx) (x : Ops) (k : Chip) : Nat :=
  if x.sub = 1 then k.capHead (c.once c.va) else (((List.range 5).map k.capHead).find? fun h => h / 2 ^ 48 == c.once c.va % 65536).getD 0

theorem answers_cap {k : Chip} (hk : s.chip? c.chip = some k) : Answers (.cap x) x c s (c.value s fun _ => c.capValue x k) :=
  ⟨_, by unfold exec; exact rfl, by simp only [hk, Option.map_some, Option.getD_some]; rfl⟩

theorem answers_halt_of_remote (h : s.awaitsRemote c.core = true) : Answers (.halt x) x c s (.wait .result 0 0) :=
  ⟨_, by unfold exec; exact rfl, by simp only [h, if_true]⟩

/-- The state past a HALT in which every outstanding result of its core is written (R228). -/
def Ctx.halting (c : Ctx) (s : State) : State :=
  let p := c.pass s
  let w := (p.tasksOn c.core).foldl (fun t k => k.2.2.gangs.foldl (fun t g => t.settleResults ⟨k.1, k.2.1, g.1⟩) t) p
  w.updGangOf (.ctrl c.core) fun g => g.pend.foldl Gang.settle g

theorem answers_halt (h : s.awaitsRemote c.core = false) : Answers (.halt x) x c s
    (.whole { (c.halting s).updCore c.core (fun k => { k with halted := true }) with
      issuer := none, due := (c.halting s).due.filter fun o => s.coreOf o != some c.core }) :=
  ⟨_, by unfold exec; exact rfl, by simp only [h, Bool.false_eq_true, if_false]; rfl⟩

theorem answers_evqPop {r : DWord} {rest : List DWord} (h : Tab.getD (s.core c.core).evq c.chip [] = r :: rest) : Answers (.evqPop x) x c s
    (c.value (s.updCore c.core fun k => { k with evq := Tab.put k.evq c.chip rest }) fun _ => r.toNat) :=
  ⟨_, by unfold exec; exact rfl, by simp only [h]⟩

theorem answers_evqPop_of_empty (h : Tab.getD (s.core c.core).evq c.chip [] = []) : Answers (.evqPop x) x c s
    (if x.sub = 1 then .wait .evq 0 0 else c.value s fun _ => 0) :=
  ⟨_, by unfold exec; exact rfl, by simp only [h]⟩

theorem answers_trel : Answers (.trel x) x c s (.ok { s := s.updChip c.chip fun k =>
    (k.unhold (bitsOf (c.once c.va) 63 48) (c.once c.va % 2 ^ 32)).getD { k with cc := { k.cc with drop := true } } }) :=
  ⟨_, by unfold exec; exact rfl, rfl⟩

end

/-- Settles O30: each system instruction completes, waits or faults as its register, its core or its queue stands. -/
theorem systemInstructions : Obligations.SystemInstructions := by
  intro s x
  refine ⟨fun c v hr hroom hv => (answers_sysr hv).value hr hroom rfl, fun w q core chip lanes i sp hissuing hi hsp => ?priv,
    fun c r n hn hi => Ctx.regPriv_of_index hn hi, fun c hr h => (answers_sysr_of_undefined h).fault hr rfl,
    fun c t hr h => (answers_sysw h).does hr rfl, fun c hr h => (answers_sysw_of_priv h).fault hr rfl,
    fun c hr h => (answers_sysw_of_undefined h).fault hr rfl, fun c k hr hroom hk => (answers_cap hk).value hr hroom rfl,
    fun c hr h => (answers_halt_of_remote h).hold hr rfl, fun c d hr _ h => (answers_halt h).whole hr rfl,
    fun c r rest hr hroom h => (answers_evqPop h).value hr hroom rfl, fun c hr h => ⟨fun hwait => ?waits, fun hpoll hroom => ?polls⟩,
    fun c k hr _ => answers_trel.does hr rfl⟩
  case priv =>
    intro c henc hop hpriv
    obtain rfl | rfl := hi
    · exact exec_of_regPriv hissuing rfl hsp henc hop hpriv
    · exact exec_of_regPriv hissuing rfl hsp henc hop hpriv
  case waits => exact (answers_evqPop_of_empty h).hold hr (if_pos hwait)
  case polls => exact (answers_evqPop_of_empty h).value hr hroom (if_neg hpoll)

end Sys2Proof.Machine
end

section
/-! SUPPORT. Packets and messages in the fabric (R214 to R221, R353, R358 to R369, R383 to R385, R405, R416): when a packet leaves, what it does where it
lands, and how messages move. -/

namespace Sys2Proof.Machine

/-! ### Landing (R358, R362, R364, R365, R415, R416) -/

/-- A packet that lands is delivered to the chip it is for. -/
theorem Lands.landing {s : State} {k : Nat} {p : Packet} {key : Nat} {c : Chip} (h : Lands s k p key c) {ok : PBody → Bool}
    (hok : ok p.body = true) : s.landing k ok = .at_ p key c := by
  obtain ⟨hp, hleft, hpassed, hdelivered, hcut, hseal, rfl, hc, ⟨d, hd, hslot⟩, hfirst⟩ := h
  have hbehind : ((s.packets.take k).any fun q => q.left && !q.delivered && q.plane == p.plane && q.body.vc == p.body.vc && q.toDev == p.toDev &&
      s.devOf q.guest q.src == s.devOf p.guest p.src) = false := by
    refine List.any_eq_false.mpr fun q hq hall => hfirst q hq ?_
    simpa [and_assoc] using hall
  unfold State.landing
  simp only [hp, hleft, hpassed, hdelivered, hok, hcut, hbehind, hd, hslot, hc, hseal, Option.bind_some]
  rfl

/-! ### Messages (R217 to R221, R256, R366, R367) -/

/-- What happens to a message that lands. -/
theorem execMessageDelivery_of_lands {s : State} {k : Nat} {p : Packet} {key : Nat} {c : Chip} {m : Msg} (h : Lands s k p key c)
    (hm : p.body = .msg m) : execMessageDelivery k s =
      if !c.takes m then .next (s.refuse k p)
      else if c.descheduled then .next (((s.delivered k).freePlace p).updChip key fun c => { c with inlog := c.inlog ++ [m] })
      else .next (((s.delivered k).freePlace p).deliver key m) := by
  unfold execMessageDelivery
  rw [h.landing]
  · simp only [hm]
  · rw [hm]

/-- Settles O40: each step of a message, from its SEND to its receive buffer, is what its event does. -/
theorem messagesMove : Obligations.MessagesMove := by
  intro s
  refine ⟨fun core k q c hq hc hkind hfirst hroom => ?outbound, fun chip k c o ps hc ho hread hfirst hps hrace => ?payload,
    fun k p key c m hland hm => ⟨fun hfull => ?refused, fun htakes hoff => ?logged, fun htakes hon => ?delivered⟩,
    fun chip c m rest hc hlog hon htakes => ?consumed, fun chip k c f hc hf hfirst => ?placed⟩
  case outbound =>
    have hearlier : ((s.core core).copyq.take k).any (fun p => p.kind == 3 && p.chip == q.chip) = false :=
      List.any_eq_false.mpr fun p hp hboth => hfirst p hp (by simpa using hboth)
    change execSendOutboundEntry core k s = _
    simp only [execSendOutboundEntry, hq, hc, hkind, hearlier, Nat.not_le.mpr hroom]
    rfl
  case payload =>
    have hearlier : (c.outbound.take k).any (fun p => !p.read && p.msg.dst == o.msg.dst) = false :=
      List.any_eq_false.mpr fun p hp hboth => hfirst p hp (by simpa using hboth)
    change execSendPayloadRead chip k s = _
    simp only [execSendPayloadRead, hc, ho, hread, hearlier, hps, hrace]
    rfl
  case refused =>
    refine (execMessageDelivery_of_lands hland hm).trans ?_
    rw [hfull]
    rfl
  case logged =>
    refine (execMessageDelivery_of_lands hland hm).trans ?_
    rw [htakes, hoff]
    rfl
  case delivered =>
    refine (execMessageDelivery_of_lands hland hm).trans ?_
    rw [htakes, hon]
    rfl
  case consumed =>
    change execInboundLogConsume chip s = _
    simp only [execInboundLogConsume, hc, hlog, hon, htakes]
    rfl
  case placed =>
    intro q hopen herr hfull
    have hearlier : (c.fired.take k).any (fun e => e.at_.tag == f.at_.tag) = false :=
      List.any_eq_false.mpr fun e he htag => hfirst e he (by simpa using htag)
    change execFiredLaunchPlacement chip k s = _
    simp only [execFiredLaunchPlacement, hc, hf, hearlier]
    exact if_neg (by simp [q, hopen, herr, hfull] : ¬ _)

end Sys2Proof.Machine
end

section
/-! SUPPORT. Packets travel (R353, R358 to R364, R416): what a switch lets pass, when a packet leaves its sender, and what each packet does where it lands. -/

namespace Sys2Proof.Machine

/-! ### Switches let packets pass (R362, R364) -/

/-- A packet as it stands at its switch: whether it is past it left out. -/
def Packet.atSwitch (p : Packet) : Packet := { p with passed := false }

theorem State.passAt_packets (s : State) (k : Nat) :
    ∃ ps, s.passAt k = { s with packets := ps } ∧ ps.map Packet.atSwitch = s.packets.map Packet.atSwitch := by
  unfold State.passAt
  split
  · exact ⟨s.packets, rfl, rfl⟩
  · dsimp only
    split
    · refine ⟨_, rfl, List.ext_getElem? fun n => ?_⟩
      simp only [List.getElem?_map, List.getElem?_modify]
      cases s.packets[n]? with
      | none => rfl
      | some q => split <;> rfl
    · exact ⟨s.packets, rfl, rfl⟩

/-- What the switches let pass changes nothing but that. -/
theorem State.passOn_packets (s : State) : ∃ ps, s.passOn = { s with packets := ps } ∧ ps.map Packet.atSwitch = s.packets.map Packet.atSwitch := by
  unfold State.passOn
  generalize List.range s.packets.length = ks
  induction ks generalizing s with
  | nil => exact ⟨s.packets, rfl, rfl⟩
  | cons k ks ih =>
    obtain ⟨ps, hps, hsame⟩ := s.passAt_packets k
    obtain ⟨qs, hqs, hboth⟩ := ih (s.passAt k)
    rw [List.foldl_cons, hqs, hps]
    rw [hps] at hboth
    exact ⟨qs, rfl, hboth.trans hsame⟩

theorem State.passOn_packet {s : State} {k : Nat} {p : Packet} (h : s.packets[k]? = some p) :
    ∃ q, s.passOn.packets[k]? = some q ∧ q.atSwitch = p.atSwitch := by
  obtain ⟨ps, hps, hsame⟩ := s.passOn_packets
  have hk := congrArg (·[k]?) hsame
  simp only [List.getElem?_map, h, Option.map_some] at hk
  obtain ⟨q, hq, hqp⟩ := Option.map_eq_some_iff.mp hk
  exact ⟨q, by rw [hps]; exact hq, hqp⟩

/-! ### Departure (R353, R358, R361, R364, R369, R416) -/

/-- The first of its flow, of a guest that is not held, leaves or waits as `State.leave` says, to each of its targets. -/
theorem execPacketDeparture_of_first {s : State} {k : Nat} {p : Packet} {g : Guest} (hp : s.packets[k]? = some p) (hleft : p.left = false)
    (hg : Tab.find s.guests p.guest = some g) (hheld : g.held = false) (hremap : g.remap = false)
    (hfirst : ∀ q ∈ s.packets.take k, ¬ (q.left = false ∧ q.sameFlow p = true)) :
    execPacketDeparture k s = ((s.copiesOf p).foldlM State.leave (s.passOn.dropPacket k)).elim (.next s) .next := by
  have hbehind : (s.packets.take k).any (fun q => !q.left && q.sameFlow p) = false :=
    List.any_eq_false.mpr fun q hq hboth => hfirst q hq (by simpa using hboth)
  simp only [execPacketDeparture, hp, hleft, hg, hheld, hremap, hbehind, Option.map_some, Option.getD_some, Bool.or_self, Bool.false_eq_true, if_false]
  cases (s.copiesOf p).foldlM State.leave (s.passOn.dropPacket k) <;> rfl

section
variable {s : State} {p : Packet}

/-- A packet leaves unless its target has refused it, or it is a message, and its target would not take it (R218, R353, R367, R385). -/
theorem State.mayLeave_iff : s.mayLeave p = true ↔
    ((p.refused = true ∨ ∃ m, p.body = .msg m) → ∀ c, s.chip? (chipKey p.guest p.dst) = some c → c.accepts p = true) := by
  unfold State.mayLeave Chip.accepts
  cases hbody : p.body <;> cases p.refused <;> cases s.chip? (chipKey p.guest p.dst) <;> simp

/-- The label of a packet's target in its guest's tables (R358). -/
def State.labelOf (s : State) (g : Guest) (p : Packet) : DWord := Tab.getD g.rlt (bitsOf (s.vctEntry p.guest p.dst).toNat 9 0) 0

/-- The planes that a packet's target is on (R361). -/
def State.planesOf (s : State) (g : Guest) (p : Packet) : BitVec 16 := BitVec.ofNat 16 (bitsOf (s.labelOf g p).toNat 25 10)

/-- A packet that leaves on a plane, translated (R358). -/
def State.sentOn (s : State) (g : Guest) (p : Packet) (plane : Nat) (cipher : Option LinkSeal) : Packet :=
  { p with left := true, passed := false, refused := false, plane, toDev := bitsOf (s.labelOf g p).toNat 9 0,
           toSlot := bitsOf (s.vctEntry p.guest p.dst).toNat 25 21, cipher }

theorem State.leave_of_barred (h : s.mayLeave p = false) : s.leave p = none := by
  simp only [State.leave, h, Bool.not_false, if_true]

variable {g : Guest} {d : Device} (hmay : s.mayLeave p = true) (hg : Tab.find s.guests p.guest = some g)
include hmay hg

/-- Where the tables name no target, a packet is discarded (R358). -/
theorem State.leave_of_unrouted (h : (s.vctEntry p.guest p.dst).getLsbD 31 = false ∨ (s.labelOf g p).getLsbD 31 = false) :
    s.leave p = some ((s.discarded p (s.devOf p.guest p.src)).freePlace p) := by
  have hno : (!(s.vctEntry p.guest p.dst).getLsbD 31 || !(s.labelOf g p).getLsbD 31) = true := by simpa using h
  unfold State.labelOf at hno
  simp only [State.leave, hmay, hg, hno, Option.map_some, Option.getD_some, Bool.not_true, Bool.false_eq_true, if_true, if_false]

variable (hv : (s.vctEntry p.guest p.dst).getLsbD 31 = true) (hlabel : (s.labelOf g p).getLsbD 31 = true)
  (hd : s.dev? (s.devOf p.guest p.src) = some d)
include hv hlabel hd

theorem State.leave_of_planeless (h : p.choose d.live (s.planesOf g p) = none) : s.leave p = none := by
  unfold State.planesOf at h
  unfold State.labelOf at hlabel h
  simp only [State.leave, hmay, hg, hv, hlabel, hd, h, Option.map_some, Option.getD_some, Bool.not_true, Bool.or_self, Bool.false_eq_true, if_false]

variable {plane : Nat} (hplane : p.choose d.live (s.planesOf g p) = some plane)
include hplane

/-- A packet whose link is open or free of keys leaves once its switch has credits (R364). -/
theorem State.leave_of_unsealed (hgate : s.linkGate (s.devOf p.guest p.src) p = (1, none)) : s.leave p =
    if s.credits (s.devOf p.guest p.src) plane p.body.vc p.body.flits true then some (s.depart (s.sentOn g p plane none)) else none := by
  unfold State.planesOf at hplane
  unfold State.sentOn
  unfold State.labelOf at hlabel hplane ⊢
  simp only [State.leave, hmay, hg, hv, hlabel, hd, hplane, hgate, Option.map_some, Option.getD_some, Bool.not_true, Bool.or_self, Bool.false_eq_true,
    if_false, OfNat.one_ne_ofNat, one_ne_zero]
  cases s.credits (s.devOf p.guest p.src) plane p.body.vc p.body.flits true <;> rfl

/-- A packet under a LINK key leaves sealed, and counts under the key (R416). -/
theorem State.leave_of_sealed {slot : Nat} (hgate : s.linkGate (s.devOf p.guest p.src) p = (1, some slot)) : s.leave p =
    if s.credits (s.devOf p.guest p.src) plane p.body.vc p.body.flits true then
      some ((s.updDev (s.devOf p.guest p.src) fun d => { d with linkCtr := Tab.put d.linkCtr slot (Tab.getD d.linkCtr slot 0 + 1) }).depart
        (s.sentOn g p plane (some (d.sealFor slot p))))
    else none := by
  unfold State.planesOf at hplane
  unfold State.sentOn
  unfold State.labelOf at hlabel hplane ⊢
  simp only [State.leave, hmay, hg, hv, hlabel, hd, hplane, hgate, Option.map_some, Option.getD_some, Bool.not_true, Bool.or_self, Bool.false_eq_true,
    if_false, OfNat.one_ne_ofNat, one_ne_zero]
  cases s.credits (s.devOf p.guest p.src) plane p.body.vc p.body.flits true <;> rfl

/-- A packet whose LINK key has no count left waits (R416). -/
theorem State.leave_of_spent {slot : Nat} (hgate : s.linkGate (s.devOf p.guest p.src) p = (0, some slot)) : s.leave p = none := by
  unfold State.planesOf at hplane
  unfold State.labelOf at hlabel hplane
  simp only [State.leave, hmay, hg, hv, hlabel, hd, hplane, hgate, Option.map_some, Option.getD_some, Bool.not_true, Bool.or_self, Bool.false_eq_true,
    if_false, if_true]

/-- A packet whose LINK key is revoked is discarded (R415). -/
theorem State.leave_of_revoked (hgate : s.linkGate (s.devOf p.guest p.src) p = (2, none)) :
    s.leave p = some ((s.discarded p (s.devOf p.guest p.src)).freePlace p) := by
  unfold State.planesOf at hplane
  unfold State.labelOf at hlabel hplane
  simp only [State.leave, hmay, hg, hv, hlabel, hd, hplane, hgate, Option.map_some, Option.getD_some, Bool.not_true, Bool.or_self, Bool.false_eq_true,
    if_false, if_true, OfNat.ofNat_ne_zero]

end

/-! ### Link keys (R416) -/

section
variable {s : State} {p : Packet} {g : Guest} {d : Device} {dev slot : Nat} (hg : Tab.find s.guests p.guest = some g)
include hg

theorem State.linkGate_of_clear (h : g.prot = false ∨ p.src = p.dst) : s.linkGate dev p = (1, none) := by
  have hclear : s.sealedLink p = false := by
    unfold State.sealedLink
    obtain h | h := h <;> simp [hg, h]
  simp only [State.linkGate, hclear, Bool.not_false, if_true]

variable (hprot : g.prot = true) (hne : p.src ≠ p.dst) (hd : s.dev? dev = some d)
include hprot hne hd

theorem State.linkGate_of_slot (h : d.linkSlot p.guest p.src p.dst 2 = some slot) :
    s.linkGate dev p = (if Tab.getD d.linkCtr slot 0 < 2 ^ 48 then 1 else 0, some slot) := by
  have hsealed : s.sealedLink p = true := by simp [State.sealedLink, hg, hprot, hne]
  simp only [State.linkGate, hsealed, hd, h, Bool.not_true, Bool.false_eq_true, if_false]

theorem State.linkGate_of_revoked (h : d.linkSlot p.guest p.src p.dst 2 = none) (hgone : (d.linkSlot p.guest p.src p.dst 4).isSome = true) :
    s.linkGate dev p = (2, none) := by
  have hsealed : s.sealedLink p = true := by simp [State.sealedLink, hg, hprot, hne]
  simp only [State.linkGate, hsealed, hd, h, hgone, Bool.not_true, Bool.false_eq_true, if_true, if_false]

end

/-! ### What a packet does where it lands (R214 to R216, R366, R377, R383 to R385, R405) -/

/-- A chip's rewrite that keeps all but its record. -/
theorem SameButRaces.updRecord (s : State) (n : Nat) {f : Chip → Chip} (hf : ∀ c, (f c).noRaces = c.noRaces) : SameButRaces s (s.updChip n f) := by
  refine ⟨rfl, rfl, rfl, rfl, rfl, rfl, rfl, rfl, rfl, fun k => ?_⟩
  rw [State.chip?_updChip]
  split
  · cases s.chip? k with
    | none => rfl
    | some c => exact congrArg some (hf c)
  · rfl

/-- The record of an atomic at a mailbox, with the releases that its writes carry (R296, R305). -/
def State.recordAtomic (s : State) (key : Nat) (actor : Actor) (write : Bool) (ps : List Place) (releases : List Release) : State :=
  let t := s.noteAccess actor true write ps
  if write then t.updChip key fun c => { c with hb := c.hb.putReleases (ps.map placeKey) releases true } else t

theorem SameButRaces.recordAtomic (s : State) (key : Nat) (actor : Actor) (write : Bool) (ps : List Place) (releases : List Release) :
    SameButRaces s (s.recordAtomic key actor write ps releases) := by
  refine (SameButRaces.noteAccess s actor true write ps).trans ?_
  cases write with
  | true => exact .hb _ key fun h => h.putReleases (ps.map placeKey) releases true
  | false => exact .refl _

/-- A saved task sealed on both sides: its chip has the same keys. -/
theorem SameButRaces.sealTask {s u : State} (h : SameButRaces s u) (chip key place : Nat) :
    SameButRaces (s.sealTask chip key place) (u.sealTask chip key place) := by
  have hkeys := h.chip?_map chip (f := fun c => (c.dev, c.slot, c.guest, c.num)) fun _ => rfl
  have hdev (n : Nat) : u.dev? n = s.dev? n := by
    obtain ⟨hdevs, -⟩ := h
    unfold State.dev?
    rw [hdevs]
  unfold State.sealTask
  cases hs : s.chip? chip with
  | none =>
    cases hu : u.chip? chip with
    | none => exact h
    | some d => simp [hs, hu] at hkeys
  | some c =>
    cases hu : u.chip? chip with
    | none => simp [hs, hu] at hkeys
    | some d =>
      simp only [hs, hu, Option.map_some, Option.some.injEq, Prod.mk.injEq] at hkeys
      obtain ⟨hdevice, hslot, hguest, hnum⟩ := hkeys
      simp only [Option.bind_some, hdevice, hdev]
      cases s.dev? c.dev with
      | none => exact h
      | some e =>
        simp only [Option.map_some, hslot, hguest, hnum]
        exact h.updTask ..

/-- A saved task sealed again on both sides (R412). -/
theorem SameButRaces.resealTask {s u : State} (h : SameButRaces s u) (chip key : Nat) :
    SameButRaces (s.resealTask chip key) (u.resealTask chip key) := by
  unfold State.resealTask
  rw [h.task?_eq]
  cases (s.task? chip key).bind Task.sealed with
  | none => exact h
  | some z => exact h.sealTask ..

section
variable {s : State} {k : Nat} {p : Packet} {key : Nat} {c : Chip} (hland : Lands s k p key c)
include hland

theorem execTidalWriteArrival_of_lands {n off width rule et : Nat} {value : DWord} {h : Half} (hb : p.body = .tidal n off width rule et value)
    (hh : c.tide.half n = some h) : execTidalWriteArrival k s =
      if !c.tide.room h off then .next (s.refuse k p)
      else
        let e := Tab.getD h.elems off ⟨width, []⟩
        let spills : Bool := (Tab.find h.elems off).isNone && decide (c.tide.tibq * 4096 < 32 * (c.tide.now.elems.length + c.tide.next.elems.length + 1))
        let filled : Half := { h with elems := Tab.put h.elems off { e with writes := e.writes ++ [⟨p.src, rule, et, value⟩] },
                                      got := Tab.put h.got p.src (Tab.getD h.got p.src 0 + 1), spilled := h.spilled || spills }
        .next ((s.delivered k).updChip key fun c => { c with tide := c.tide.setHalf n filled }) := by
  have haccepts : c.accepts p = c.tide.room h off := by simp only [Chip.accepts, hb, hh]
  unfold execTidalWriteArrival
  rw [hland.landing]
  · simp only [hb, haccepts, hh]
  · rw [hb]
    rfl

theorem execCloseRecordArrival_of_lands {n count : Nat} {h : Half} (hb : p.body = .close n count) (hh : c.tide.half n = some h) :
    execCloseRecordArrival k s = .next ((s.delivered k).updChip key fun c =>
      { c with tide := c.tide.setHalf n { h with closes := Tab.put h.closes p.src count } }) := by
  unfold execCloseRecordArrival
  rw [hland.landing]
  · simp only [hb, hh]
  · rw [hb]

theorem execRldServe_of_lands {off n : Nat} {mb : Bool} {tide : DWord} {shut : Bool} (hb : p.body.reads = some (off, n, mb, tide, shut)) :
    execRldServe k s = if tide ≤ c.tide.c then .next (s.serveRead k p key c) else .next (s.received k true) := by
  have hread : p.body.isRead = true := by
    cases hbody : p.body <;> simp [hbody, PBody.reads, PBody.isRead] at hb ⊢
  simp only [execRldServe, hland.landing hread, hb, decide_eq_true_eq]

theorem execMailboxAtomicArrival_of_lands {g : GangRef} {id : Nat} {lanes : List Nat} {off op ord : Nat} {wide : Bool}
    {vals : List (DWord × DWord)} {past : VClock} {rels : List Release} {ps : List Place} (hb : p.body = .ratom g id lanes off op ord wide vals past rels)
    (hps : c.podPlaces key off (if wide then 8 else 4) true = some ps) :
    let at_ := ps.map Place.tracked
    let r := mailboxSteps op (if wide then 64 else 32) (lanes.zip vals) (s.readPlaces at_)
    let write := mailboxWrites op (if wide then 64 else 32) vals r.1
    let race := s.findRace (s.podActor p g (lanes.headD 0) past) true write (podBase + p.dst * 2 ^ 32 + 2 ^ 31 + off) at_
    let u := if write then (s.delivered k).writePlaces at_ r.2 else s.delivered k
    (race = none → ∃ v seen, SameButRaces { u with packets := u.packets ++ [replyTo p (.reply g id r.1 seen (ord % 2 == 1))] } v ∧
      execMailboxAtomicArrival k s = .next v) ∧
    (∀ a e, race = some (a, e) → execMailboxAtomicArrival k s =
      .next (if s.gangBusy g then s else s.podRace k g id (maskOf fun i => lanes.contains i.val) write a e)) := by
  intro at_ r write race u
  have hbits : 8 * (if wide then 8 else 4) = if wide then 64 else 32 := by cases wide <;> rfl
  unfold execMailboxAtomicArrival
  rw [hland.landing (by rw [hb])]
  simp only [hb, hps, hbits]
  refine ⟨fun hnone => ?serves, fun a e hsome => ?races⟩
  case serves =>
    rw [show s.findRace _ _ _ _ _ = none from hnone]
    exact ⟨_, _, SameButRaces.Sent.one (.recordAtomic u key (s.podActor p g (lanes.headD 0) past) write at_
      (if p.src = p.dst then rels else rels.map fun r => { r with clock := r.clock.home key })) _, rfl⟩
  case races =>
    rw [show s.findRace _ _ _ _ _ = some (a, e) from hsome]
    dsimp only
    split
    · rfl
    · rfl

theorem execRemoteReplyArrival_of_reply {g : GangRef} {id : Nat} {vals : List (Nat × DWord)} {rels : List Release} {acq : Bool} {q : Gang} {e : Pend}
    (hb : p.body = .reply g id vals rels acq) (hq : s.gang? g = some q) (he : e ∈ q.pend) (hid : e.id = id) :
    let filled := (s.delivered k).updGang g fun q => { q with pend := q.pend.map fun e => if e.id = id then e.fill vals else e }
    ∃ v, SameButRaces (filled.resealTask g.chip g.task) v ∧ execRemoteReplyArrival k s = .next v := by
  intro filled
  have hany : q.pend.any (fun e => e.id == id) = true := List.any_eq_true.mpr ⟨e, he, by simpa using hid⟩
  unfold execRemoteReplyArrival
  rw [hland.landing (by rw [hb])]
  simp only [hb, hq, hany, if_true]
  refine ⟨_, ?_, rfl⟩
  refine ((SameButRaces.updRecord _ key ?_).updTask ..).resealTask ..
  exact fun _ => rfl

theorem execRemoteReplyArrival_of_fetched {chip task seq num : Nat} {bs : List Byte} (hb : p.body = .fetched chip task seq num bs) :
    execRemoteReplyArrival k s = .next ((s.delivered k).landFetched chip task seq num bs) := by
  unfold execRemoteReplyArrival
  rw [hland.landing (by rw [hb])]
  simp only [hb]

end

/-- A remote read that stands at its target is served or still stands, as its tide has come (R214). -/
theorem execRldServe_of_standing {s : State} {k : Nat} {p : Packet} {c : Chip} {off n : Nat} {mb : Bool} {tide : DWord} {shut : Bool}
    (hp : s.packets[k]? = some p) (hdelivered : p.delivered = true) (hstands : p.standing = true) (hc : s.chip? (chipKey p.guest p.dst) = some c)
    (hb : p.body.reads = some (off, n, mb, tide, shut)) :
    execRldServe k s = if tide ≤ c.tide.c then .next (s.serveRead k p (chipKey p.guest p.dst) c) else .next s := by
  obtain ⟨q, hq, hsame⟩ := State.passOn_packet hp
  have hkept := congrArg Packet.delivered hsame
  have hdone : q.delivered = true := hkept.trans hdelivered
  have hno : s.landing k PBody.isRead = .no := by simp [State.landing, hq, hdone]
  simp only [execRldServe, hno, hp, hstands, hc, hb, decide_eq_true_eq]
  rfl

/-! ### The packet's way -/

/-- What waits changes nothing, and what leaves is the step's outcome. -/
theorem exec_of_leave {s t : State} {k : Nat} {p : Packet} (h : exec (.packetDeparture k) s = (t.leave p).elim (.next s) .next) :
    (t.leave p = none → exec (.packetDeparture k) s = .next s) ∧ ∀ u, t.leave p = some u → exec (.packetDeparture k) s = .next u :=
  ⟨fun hnone => by rw [h, hnone]; rfl, fun u hsome => by rw [h, hsome]; rfl⟩

/-- Settles O39: a packet leaves as its guest's tables, its plane's credits and its link's key say, and does at its target what its kind does. -/
theorem packetsTravel : Obligations.PacketsTravel := by
  refine ⟨fun s k p hp => ⟨fun g hleft hg hheld hremap hfirst => ?departs, fun hdelivered hstands => ?acknowledged,
    fun c off n mb tide shut hdelivered hstands hc hb => ⟨fun hdue => ?standingServed, fun hearly => ?standing⟩⟩,
    fun s k p key c hland => ⟨fun n off width rule et value h hb hh hroom => ?joins, fun n off width rule et value h hb hh hfull => ?returns,
      fun n count h hb hh => execCloseRecordArrival_of_lands hland hb hh, fun off n mb tide shut hb => ?reads,
      fun g id lanes off op ord wide vals past rels ps hb hps => execMailboxAtomicArrival_of_lands hland hb hps,
      fun g id vals rels acq q e hb hq he hid => execRemoteReplyArrival_of_reply hland hb hq he hid,
      fun chip task seq num bs hb => execRemoteReplyArrival_of_fetched hland hb⟩⟩
  case departs =>
    intro t may v label dev stays lost
    have hdeparts : exec (.packetDeparture k) s = ((s.copiesOf p).foldlM State.leave t).elim (.next s) .next :=
      execPacketDeparture_of_first hp hleft hg hheld hremap hfirst
    obtain ⟨ps, hps⟩ : ∃ ps, t = { s with packets := ps } := by
      obtain ⟨ps, hps, -⟩ := s.passOn_packets
      exact ⟨ps.eraseIdx k, by simp only [t, hps, State.dropPacket]⟩
    clear_value t
    subst hps
    refine ⟨fun hmset => ?alone, fun m hmset => ?multicast⟩
    case multicast =>
      have hcopies : s.copiesOf p = (g.members m).map fun n => { p with dst := n, mset := none } := by
        simp only [State.copiesOf, hmset, hg, Option.map_some, Option.getD_some]
      rw [hcopies] at hdeparts
      refine ⟨fun u hu => ?_, fun hu => ?_⟩
      · rw [hdeparts, hu]
        rfl
      · exact hdeparts.trans (by rw [hu]; rfl)
    case alone =>
      have hcopies : s.copiesOf p = [p] := by simp only [State.copiesOf, hmset]
      rw [hcopies, List.foldlM_cons] at hdeparts
      simp only [List.foldlM_nil, bind_pure] at hdeparts
      obtain ⟨hstays, hleaves⟩ := exec_of_leave hdeparts
      have hmayLeave : State.mayLeave { s with packets := ps } p = true ↔ may := State.mayLeave_iff
      refine ⟨fun hbarred => hstays (State.leave_of_barred (Bool.eq_false_iff.mpr fun h => hbarred (hmayLeave.mp h))),
        fun hmay hroute => hleaves _ (State.leave_of_unrouted (hmayLeave.mpr hmay) hg hroute),
        fun d hmay hv hlabel hd hnone => hstays (State.leave_of_planeless (hmayLeave.mpr hmay) hg hv hlabel hd hnone),
        fun d plane hmay hv hlabel hd hplane => ?routed⟩
      intro gone credit
      replace hmay := hmayLeave.mpr hmay
      have hopen (h : g.prot = false ∨ p.src = p.dst) := State.leave_of_unsealed hmay hg hv hlabel hd hplane (State.linkGate_of_clear hg h)
      refine ⟨fun hclear hcredit => hleaves _ ((hopen hclear).trans (if_pos hcredit)),
        fun hclear hcredit => hstays ((hopen hclear).trans (if_neg (Bool.eq_false_iff.mp hcredit))),
        fun hprot hne hnone hrevoked => ?revoked, fun slot hprot hne hslot => ?sealed⟩
      case revoked =>
        have hgate := State.linkGate_of_revoked (s := { s with packets := ps }) hg hprot hne hd hnone hrevoked
        exact hleaves _ (State.leave_of_revoked hmay hg hv hlabel hd hplane hgate)
      case sealed =>
        have hgate := State.linkGate_of_slot (s := { s with packets := ps }) hg hprot hne hd hslot
        have hcounts (h : Tab.getD d.linkCtr slot 0 < 2 ^ 48) := State.leave_of_sealed hmay hg hv hlabel hd hplane (by rwa [if_pos h] at hgate)
        refine ⟨fun hcount hcredit => hleaves _ ((hcounts hcount).trans (if_pos hcredit)),
          fun hcount hcredit => hstays ((hcounts hcount).trans (if_neg (Bool.eq_false_iff.mp hcredit))), fun hspent => ?_⟩
        rw [if_neg (Nat.not_lt.mpr hspent)] at hgate
        exact hstays (State.leave_of_spent hmay hg hv hlabel hd hplane hgate)
  case acknowledged =>
    change execDeliveryAcknowledgement k s = _
    simp only [execDeliveryAcknowledgement, hp, hdelivered, hstands]
    rfl
  case standingServed => exact (execRldServe_of_standing hp hdelivered hstands hc hb).trans (if_pos hdue)
  case standing => exact (execRldServe_of_standing hp hdelivered hstands hc hb).trans (if_neg (BitVec.not_le.mpr hearly))
  case joins =>
    refine (execTidalWriteArrival_of_lands hland hb hh).trans ?_
    rw [hroom]
    rfl
  case returns =>
    refine (execTidalWriteArrival_of_lands hland hb hh).trans ?_
    rw [hfull]
    rfl
  case reads =>
    have hserve := execRldServe_of_lands hland hb
    refine ⟨fun v hdue hkept => ?_, fun ps hdue hkept hps => ?_, fun hearly => hserve.trans (if_neg (BitVec.not_le.mpr hearly))⟩
    · refine (hserve.trans (if_pos hdue)).trans ?_
      simp only [State.serveRead, hb, hkept]
      rfl
    · refine (hserve.trans (if_pos hdue)).trans ?_
      simp only [State.serveRead, hb, hkept, hps]
      rfl

end Sys2Proof.Machine
end

section
/-! SUPPORT. Turns, CORES, control routines and pages (R228, R257, R265 to R270, R286 to R288, R391): what the tests of their events are, and what a write
of CORES leaves of a chip that has nothing on cores. -/

namespace Sys2Proof.Machine

/-! ### Turns (R267) -/

/-- What a filter takes of a table's other keys stands as it was after a put. -/
theorem Tab.filter_put {α : Type} (t : Tab α) (n : Nat) (a : α) (p : Nat × α → Bool) (hp : ∀ b, p (n, b) = false) :
    (Tab.put t n a).filter p = t.filter p := by
  induction t with
  | nil => simp [Tab.put, hp]
  | cons e t ih =>
    obtain ⟨k, v⟩ := e
    simp only [Tab.put]
    split
    · simp [hp]
    · split
      · subst_vars
        simp [hp]
      · simp only [List.filter_cons, ih]

/-- The rivals of a chip are others: a change of its own record changes none. -/
theorem State.rivals_updChip (s : State) (chip : Nat) (f : Chip → Chip) (c : Chip) : (s.updChip chip f).rivals chip c = s.rivals chip c := by
  have hall : (s.updChip chip f).chips.filter (fun o => o.1 != chip && o.2.dev == c.dev && o.2.sliced && (c.cores &&& o.2.cores) % 2 ^ 20 != 0) =
      s.chips.filter (fun o => o.1 != chip && o.2.dev == c.dev && o.2.sliced && (c.cores &&& o.2.cores) % 2 ^ 20 != 0) := by
    change (Tab.upd s.chips chip f).filter _ = _
    unfold Tab.upd
    split
    · exact Tab.filter_put _ _ _ _ fun b => by simp
    · rfl
  unfold State.rivals
  rw [hall]

/-- A task stands on a core that a set of clusters has not. -/
def Task.lostTo (cores : Nat) (t : Task) : Bool := match t.core with | some r => !(clusterCores cores).getLsbD r.core | none => false

/-- A task is placed together with another (R249). -/
def Chip.together (c : Chip) (t u : Task) : Bool :=
  u.handle == t.handle && ((Tab.find c.launches t.handle).map fun l => (l.closure [t.num]).contains u.num).getD false

/-- The tasks that a change of clusters takes from their cores, with those that are placed together with them (R391). -/
def Chip.movedOff (c : Chip) (cores : Nat) : List Nat :=
  (c.tasks.filter fun u => u.2.core.isSome && c.tasks.any fun t => t.2.lostTo cores && (t.1 == u.1 || c.together t.2 u.2)).map Prod.fst

/-- The tasks that leave, found from those that lose their cores. -/
theorem Chip.movedOff_eq (c : Chip) (cores : Nat) : c.movedOff cores =
    (c.tasks.filter fun u => u.2.core.isSome && (c.tasks.filter fun t => t.2.lostTo cores).any fun t => t.1 == u.1 ||
      (t.2.handle == u.2.handle && ((Tab.find c.launches t.2.handle).map fun l => (l.closure [t.2.num]).contains u.2.num).getD false)).map Prod.fst := by
  unfold Chip.movedOff Chip.together
  refine congrArg _ (List.filter_congr fun u _ => ?_)
  rw [List.any_filter]
  refine congrArg (u.2.core.isSome && ·) (congrArg c.tasks.any (funext fun t => ?_))
  rw [BEq.comm (a := u.2.handle)]

/-- A chip without a task on a core moves none. -/
theorem Chip.movedOff_of_unplaced {c : Chip} (h : c.placed = []) (cores : Nat) : c.movedOff cores = [] := by
  unfold Chip.placed at h
  have hnone := List.filter_eq_nil_iff.mp (List.map_eq_nil_iff.mp h)
  refine List.map_eq_nil_iff.mpr (List.filter_eq_nil_iff.mpr fun u hu hboth => hnone u hu ?_)
  exact (Bool.and_eq_true_iff.mp hboth).1

/-- What CORES makes of its chip's record. -/
def Chip.withCores (value : DWord) (c : Chip) : Chip :=
  { c with cores := value.toNat % 2 ^ 20, sliced := value.getLsbD 20, parked := false,
           waitRun := c.waitRun.filter fun w => (clusterCores (value.toNat % 2 ^ 20)).getLsbD w.1 }

section
variable {s : State} {chip : Nat} {c : Chip} (hc : s.chip? chip = some c)
include hc

/-- A context without slices has no turn to start. -/
theorem State.startTurn_of_unsliced (h : c.sliced = false) : s.startTurn chip = s := by
  simp only [State.startTurn, hc, h, Bool.not_false, Bool.or_true, Bool.true_or, if_true]

/-- An unsliced context without rivals holds no turn after a change of its clusters, and none passes on. -/
theorem State.turnsAfter_of_alone {old : Chip} (h : c.sliced = false) (hrivals : s.rivals chip old = []) :
    s.turnsAfter chip old = s.updChip chip fun c => { c with turnHeld := false } := by
  have hnow : (s.updChip chip fun c => { c with turnHeld := false }).chip? chip = some { c with turnHeld := false } := by
    rw [State.chip?_updChip_self, hc]
    rfl
  unfold State.turnsAfter
  simp only [hc, h, Bool.false_and, Bool.false_eq_true, if_false, State.startTurn_of_unsliced hnow h, State.rivals_updChip, hrivals]
  rfl

theorem State.preempt_nil : s.preempt chip [] = s := by
  simp only [State.preempt, hc, List.isEmpty_nil, if_true]

/-- A write of CORES that a chip does not take changes nothing (R391, R418). -/
theorem State.writeCores_of_barred {value : DWord} {d : Device} (hd : s.dev? c.dev = some d) (hcores : value.toNat % 2 ^ 20 ≠ 0)
    (h : c.stopped = true ∨ (d.iface c.slot).state = .creating ∨ c.prot = true ∧ (d.iface c.slot).state ≠ .run) : s.writeCores chip value = s := by
  unfold Device.iface at h
  have hbar : (value.toNat % 2 ^ 20 != 0 && (c.stopped || (Tab.getD d.tdi c.slot Tdi.reset).state == .creating ||
      (c.prot && (Tab.getD d.tdi c.slot Tdi.reset).state != .run))) = true := by
    simpa [or_assoc] using And.intro hcores h
  simp only [State.writeCores, hc, hd, Option.map_some, Option.getD_some, hbar, if_true]

/-- A write of CORES that a chip takes moves its tasks off the cores that it loses, and its turn follows (R267, R391). -/
theorem State.writeCores_of_open {value : DWord} {d : Device} (hd : s.dev? c.dev = some d)
    (h : value.toNat % 2 ^ 20 ≠ 0 → c.stopped = false ∧ (d.iface c.slot).state ≠ .creating ∧ (c.prot = true → (d.iface c.slot).state = .run)) :
    s.writeCores chip value =
      (((if value.toNat % 2 ^ 20 = 0 then s.preemptChip chip else s.preempt chip (c.movedOff (value.toNat % 2 ^ 20))).updChip chip
        (Chip.withCores value)).turnsAfter chip c) := by
  unfold Device.iface at h
  have hbar : (value.toNat % 2 ^ 20 != 0 && (c.stopped || (Tab.getD d.tdi c.slot Tdi.reset).state == .creating ||
      (c.prot && (Tab.getD d.tdi c.slot Tdi.reset).state != .run))) = false := by
    refine Bool.eq_false_iff.mpr fun hyes => ?_
    simp only [Bool.and_eq_true, bne_iff_ne, ne_eq, Bool.or_eq_true, beq_iff_eq] at hyes
    obtain ⟨hcores, hwhy⟩ := hyes
    obtain ⟨hstopped, hcreating, hrun⟩ := h hcores
    obtain (hstop | hcreate) | ⟨hprot, hstate⟩ := hwhy
    · exact absurd (hstopped.symm.trans hstop) Bool.false_ne_true
    · exact hcreating hcreate
    · exact hstate (hrun hprot)
  rw [Chip.movedOff_eq]
  simp only [State.writeCores, hc, hd, Option.map_some, Option.getD_some, hbar, Bool.false_eq_true, if_false]
  rfl

end

/-- A chip that has no task on a core and no rival takes clusters without a turn. -/
theorem State.writeCores_of_alone {s : State} {chip : Nat} {c : Chip} (hc : s.chip? chip = some c) {value : DWord} {d : Device}
    (hd : s.dev? c.dev = some d) (hcores : value.toNat % 2 ^ 20 ≠ 0)
    (h : value.toNat % 2 ^ 20 ≠ 0 → c.stopped = false ∧ (d.iface c.slot).state ≠ .creating ∧ (c.prot = true → (d.iface c.slot).state = .run))
    (hplaced : c.placed = []) (hrivals : s.rivals chip c = []) (hsliced : value.getLsbD 20 = false) :
    s.writeCores chip value = s.updChip chip fun c => { c.withCores value with turnHeld := false } := by
  have hnow : (s.updChip chip (Chip.withCores value)).chip? chip = some (c.withCores value) := by
    rw [State.chip?_updChip_self, hc]
    rfl
  have hlone : (s.updChip chip (Chip.withCores value)).rivals chip c = [] := (State.rivals_updChip ..).trans hrivals
  rw [State.writeCores_of_open hc hd h, if_neg hcores, Chip.movedOff_of_unplaced hplaced, State.preempt_nil hc,
    State.turnsAfter_of_alone hnow hsliced hlone, State.updChip_updChip]

/-- A context that has nothing to run or to dispatch gives its turn up where another waits with work (R267). -/
theorem execTurnGivenUpEarly_of_idle {s : State} {chip : Nat} {c : Chip} (hc : s.chip? chip = some c) (hsliced : c.sliced = true)
    (hturn : c.turnHeld = true) (hleave : c.mayLeave = true) (hidle : ∀ t ∈ c.tasks, ∀ r, t.2.core = some r → c.readyOn r = false)
    (hdone : ∀ l ∈ c.launches, l.2.nextTask = none) (hnext : ∃ k ∈ s.rivals chip c, ∃ o, s.chip? k = some o ∧ o.hasWork = true) :
    execTurnGivenUpEarly chip s = .next (s.endTurn chip) := by
  obtain ⟨k, hk, o, ho, hwork⟩ := hnext
  have hready : c.tasks.any (fun t => match t.2.core with | some r => c.readyOn r | none => false) = false :=
    List.any_eq_false.mpr fun t ht => by
      cases hcore : t.2.core with
      | none => exact Bool.false_ne_true
      | some r => exact Bool.eq_false_iff.mp (hidle t ht r hcore)
  have hlaunches : c.launches.any (fun l => l.2.nextTask.isSome) = false := List.any_eq_false.mpr fun l hl => by simp [hdone l hl]
  have hrival : (s.rivals chip c).any (fun k => ((s.chip? k).map Chip.hasWork).getD false) = true :=
    List.any_eq_true.mpr ⟨k, hk, by simp [ho, hwork]⟩
  have htest : (c.sliced && c.turnHeld && c.mayLeave && !(c.tasks.any fun t => match t.2.core with | some r => c.readyOn r | none => false) &&
      !(c.launches.any fun l => l.2.nextTask.isSome) && (s.rivals chip c).any fun k => ((s.chip? k).map Chip.hasWork).getD false) = true := by
    rw [hsliced, hturn, hleave, hready, hlaunches, hrival]
    rfl
  simp only [execTurnGivenUpEarly, hc]
  exact if_pos htest

/-! ### The waiting budget (R269, R270, R385) -/

/-- The snapshot as the host reads it: of a protected chip the head alone, without its count of entries (R270). -/
def Chip.shownSnap (c : Chip) (snap : List Byte × List (List Byte)) : List Byte :=
  if c.prot then snap.1.take 6 ++ zeros 2 ++ snap.1.drop 8 else snap.1 ++ snap.2.flatten

/-- The lowest core whose waiting run has reached the budget ends it. -/
theorem execWaitBudgetExpiry_of_spent {s : State} {chip : Nat} {c : Chip} (hc : s.chip? chip = some c) {core : Nat} (hset : 0 < c.wbudget.toNat)
    (hspent : c.wbudget.toNat ≤ Tab.getD c.waitRun core 0) (hfirst : ∀ k < core, Tab.getD c.waitRun k 0 < c.wbudget.toNat)
    (hleave : c.mayLeave = true) :
    let snap := s.snapshot chip c ⟨c.dev, core⟩
    let v := ((s.snapWrite chip c.snapa.toNat (c.shownSnap snap)).updChip chip fun c => { c with snap := snap.1 ++ snap.2.flatten }).preemptChip chip
    let u := if c.turnHeld then v.endTurn chip else v.updChip chip fun c => { c with parked := true }
    let held := c.tasks.any fun t => t.2.core.isSome && t.2.gangs.any fun g => g.2.bundles.any Bundle.tideHeld
    execWaitBudgetExpiry chip ⟨c.dev, core⟩ s = .next { u with irqs := u.irqs ++ [.host c.dev (if held then cTideOverflow else cWaitBudget)] } := by
  have hlower : (List.range core).any (fun k => decide (c.wbudget.toNat ≤ Tab.getD c.waitRun k 0)) = false :=
    List.any_eq_false.mpr fun k hk => by simpa using hfirst k (List.mem_range.mp hk)
  simp only [execWaitBudgetExpiry, hc, ne_eq, not_true_eq_false, decide_false, hset, hspent, hleave, decide_true, Bool.true_and, hlower, Bool.not_true,
    Bool.or_self, Bool.false_eq_true, if_false]
  unfold Chip.shownSnap
  cases c.prot <;> rfl

/-! ### Pages (R286 to R288) -/

/-- A granule that every lease of device memory and every task's backing lies apart from is held by none. -/
theorem Chip.granuleLeased_of_apart {c : Chip} {granule : Nat}
    (hleases : ∀ l ∈ c.leases false, l.host = true ∨ rangesMeet l.frame l.bytes (granule * 2 ^ 21) (2 ^ 21) = false)
    (htasks : ∀ t ∈ c.tasks, rangesMeet t.2.priv t.2.backing (granule * 2 ^ 21) (2 ^ 21) = false) : c.granuleLeased granule = false := by
  have hbacks : c.granuleBacks granule = false := List.any_eq_false.mpr fun u hu => Bool.eq_false_iff.mp (htasks u hu)
  have hleased : (c.leases false).any (fun l => !l.host && rangesMeet l.frame l.bytes (granule * 2 ^ 21) (2 ^ 21)) = false := by
    refine List.any_eq_false.mpr fun l hl hboth => ?_
    obtain ⟨hdevice, hmeets⟩ := Bool.and_eq_true_iff.mp hboth
    obtain hhost | hapart := hleases l hl
    · exact absurd hdevice (by rw [hhost]; exact Bool.false_ne_true)
    · exact absurd (hapart.symm.trans hmeets) Bool.false_ne_true
  simp only [Chip.granuleLeased, hbacks, hleased, Bool.or_self]

section
variable {s : State} {chip : Nat} {c : Chip} (hc : s.chip? chip = some c)
include hc

/-- A granule that nothing holds moves to a tier that its pages name and that has room. -/
theorem execGranuleMigration_of_free {granule tier : Nat} (htier : 0 < tier) (hle : tier ≤ 3) (hstill : c.moving.contains granule = false)
    (hquota : granule * 2 ^ 21 < c.quota) (helse : Tab.getD c.tiers granule 3 ≠ tier)
    (hleases : ∀ l ∈ c.leases false, l.host = true ∨ rangesMeet l.frame l.bytes (granule * 2 ^ 21) (2 ^ 21) = false)
    (htasks : ∀ t ∈ c.tasks, rangesMeet t.2.priv t.2.backing (granule * 2 ^ 21) (2 ^ 21) = false) :
    let d : Chip := { c with tiers := Tab.drop c.tiers granule }
    let t := s.updChip chip fun _ => d
    (c.wantedTier granule = 0 ∨ c.wantedTier granule = tier ∨ tier = 3 ∧ t.nearRoom d (c.wantedTier granule) granule = false) →
    (if tier = 3 then t.tierRoom c.dev 3 0 else t.nearRoom d tier granule) = true →
    execGranuleMigration chip granule tier s = .next (s.updChip chip fun c =>
      { c with moving := granule :: c.moving, tiers := if tier = 3 then Tab.drop c.tiers granule else Tab.put c.tiers granule tier }) := by
  intro d t hwanted hroom
  have hfree := Chip.granuleLeased_of_apart hleases htasks
  have hwant : (c.wantedTier granule == 0 || tier == c.wantedTier granule || (tier == 3 && !t.nearRoom d (c.wantedTier granule) granule)) = true := by
    simpa [or_assoc, eq_comm (a := tier) (b := c.wantedTier granule)] using hwanted
  simp only [execGranuleMigration, hc]
  rw [if_neg]
  · refine congrArg _ (State.updChip_congr fun k hk => ?_)
    cases hc.symm.trans hk
    rfl
  · change ¬ (c.granuleLeased granule || c.moving.contains granule || decide (tier = 0) || decide (3 < tier) || decide (c.quota ≤ granule * 2 ^ 21) ||
      Tab.getD c.tiers granule 3 == tier || !(c.wantedTier granule == 0 || tier == c.wantedTier granule ||
        (tier == 3 && !t.nearRoom d (c.wantedTier granule) granule)) || !(if tier = 3 then t.tierRoom c.dev 3 0 else t.nearRoom d tier granule)) = true
    rw [hwant, hroom, hfree, hstill, decide_eq_false (Nat.not_le.mpr hquota)]
    simp [Nat.ne_of_gt htier, hle, helse]

end

/-! ### Control routines (R228, R265, R266) -/

/-- A core that runs a routine stands on a device. -/
theorem State.dev?_of_ctrl {s : State} {core : CoreRef} {run : CtrlRun} (h : (s.core core).ctrl = some run) : ∃ d, s.dev? core.dev = some d := by
  cases hd : s.dev? core.dev with
  | some d => exact ⟨d, rfl⟩
  | none =>
    simp only [State.core, hd, Option.map_none, Option.getD_none] at h
    cases h

/-- A routine that has run too long stops its context's service: the core is idle, and the supervisor hears of it (R266). -/
theorem execControlCoreLimit_of_late {s : State} {chip : Nat} {c : Chip} {core : CoreRef} {run : CtrlRun} (hc : s.chip? chip = some c)
    (hrun : (s.core core).ctrl = some run) (hchip : run.chip = chip) (hlate : run.began + 65536 < s.cycle core) :
    ∃ t, execControlCoreLimit core s = .next t ∧ t.irqs = (s.notice chip 1).irqs ∧ (t.core core).ctrl = none ∧
      (t.core core).scrub = ((s.core core).scrub || (c.prot && !(c.tasks.any fun u => u.2.core == some core))) ∧
      t.chip? chip = some { c with cc := { c.cc with stop := true, limit := true } } := by
  subst hchip
  obtain ⟨d, hd⟩ := State.dev?_of_ctrl hrun
  have hstopped : (s.updChip run.chip fun c => { c with cc := { c.cc with stop := true, limit := true } }).chip? run.chip =
      some { c with cc := { c.cc with stop := true, limit := true } } := by
    rw [State.chip?_updChip_self, hc]
    rfl
  simp only [execControlCoreLimit, hrun, if_pos hlate, State.endRoutine_of_run (s := s.updChip run.chip _) hrun, hstopped, Option.map_some,
    Option.getD_some]
  have hcore := State.core_updCore_self (s := s.updChip run.chip fun c => { c with cc := { c.cc with stop := true, limit := true } }) (c := core)
    (fun k => { k with ctrl := none, scrub := k.scrub || (c.prot && !(c.tasks.any fun u => u.2.core == some core)),
                       gated := k.gated || (c.prot && !(c.tasks.any fun u => u.2.core == some core)) }) hd
  exact ⟨_, rfl, rfl, congrArg Core.ctrl hcore, congrArg Core.scrub hcore, hstopped⟩

/-- Settles O36: turns and budgets end, CORES moves a context, pages move and translate, and control routines run, each as its event says. -/
theorem turnsControlPages : Obligations.TurnsControlPages := by
  refine ⟨⟨fun s chip c hc => ⟨fun hsliced hturn hleave hover => ?slice, fun hsliced hturn hleave hidle hdone hnext => ?early,
      fun dev d peer hd hdev => ?hint, fun dev d hd hhint => ?timeout,
      fun core hset hspent hfirst hleave => execWaitBudgetExpiry_of_spent hc hset hspent hfirst hleave, fun value d hd => ?cores⟩,
    fun s chip c hc => ⟨fun page answer hpage hleases => ?translation,
      fun granule tier htier hle hstill hquota helse hleases htasks =>
        execGranuleMigration_of_free hc htier hle hstill hquota helse hleases htasks, fun granule hmoving => ?moved⟩⟩,
    fun s chip c core hc => ⟨fun hidle hgoes hclean hnext => ?entry, fun run hrun hchip hlate => execControlCoreLimit_of_late hc hrun hchip hlate,
      fun value => ?ccstat, fun hhalted => ⟨?resumed, ?reset⟩⟩⟩
  case slice =>
    change execSliceExpiry chip s = _
    simp only [execSliceExpiry, hc, hsliced, hturn, hleave, hover, decide_true, Bool.and_self, if_true]
  case early => exact execTurnGivenUpEarly_of_idle hc hsliced hturn hleave hidle hdone hnext
  case hint =>
    change execArrivalHintReceive dev chip peer s = _
    simp only [execArrivalHintReceive, hd, hc, hdev, ne_eq, not_true_eq_false, if_false]
  case timeout =>
    obtain ⟨h, hh, hchip⟩ := hhint
    have hany : d.hints.any (fun h => h.1 == chip) = true := List.any_eq_true.mpr ⟨h, hh, by simpa using hchip⟩
    change execHintAgreementTimeout dev chip s = _
    simp only [execHintAgreementTimeout, hd, hany, if_true]
  case cores =>
    intro cores state now lost together keys
    have hwrite : exec (.coresWrite chip value) s = .next (s.writeCores chip value) := by
      change execCoresWrite chip value s = _
      simp only [execCoresWrite, hc]
    refine ⟨fun hcores hbarred => ?_, fun hcores hstopped hcreating hprot => ?_, fun hnone => ?_,
      fun hcores hstopped hcreating hprot hplaced hrivals hsliced => ?_⟩
    · rw [hwrite, State.writeCores_of_barred hc hd hcores hbarred]
    · rw [hwrite, State.writeCores_of_open hc hd fun _ => ⟨hstopped, hcreating, hprot⟩, if_neg hcores]
      rfl
    · rw [hwrite, State.writeCores_of_open hc hd fun h => absurd hnone h, if_pos hnone]
      rfl
    · rw [hwrite, State.writeCores_of_alone hc hd hcores (fun _ => ⟨hstopped, hcreating, hprot⟩) hplaced hrivals hsliced]
      rfl
  case translation =>
    have hfree : (c.leases true).any (fun l => l.host && l.va == page * 4096) = false :=
      List.any_eq_false.mpr fun l hl hboth => by
        obtain ⟨hhost, hva⟩ := Bool.and_eq_true_iff.mp hboth
        exact hleases l hl hhost (by simpa using hva)
    constructor
    · change execAtsPriResponse chip page answer s = _
      simp only [execAtsPriResponse, hc, hfree, Nat.not_le.mpr hpage, decide_false, Bool.or_self, Bool.false_eq_true, if_false]
    · change execHostInvalidation chip page s = _
      simp only [execHostInvalidation, hc, hfree, Bool.false_eq_true, if_false]
  case moved =>
    change execGranuleMigrationComplete chip granule s = _
    simp only [execGranuleMigrationComplete, hc, hmoving, if_true]
  case entry =>
    change execControlRoutineEntry core chip s = _
    simp only [execControlRoutineEntry, hc, hidle, hgoes, hclean, hnext, Option.isSome_none, bne_self_eq_false, Bool.or_self, Bool.false_eq_true,
      if_false]
  case ccstat =>
    change execCcstatWrite chip value s = _
    simp only [execCcstatWrite, hc]
    rfl
  case resumed =>
    change execHaltedCoreResume core false s = _
    simp only [execHaltedCoreResume, hhalted, if_true]
    rfl
  case reset =>
    change execHaltedCoreResume core true s = _
    simp only [execHaltedCoreResume, hhalted, if_true]

end Sys2Proof.Machine
end

section
/-! SUPPORT. Tasks (R243 to R246, R252, R259, R268, R276, R394, R412): what a retirement leaves of a chip's tasks and launches, and that each event of
a task goes through where its tests hold. -/

namespace Sys2Proof.Machine

/-! ### Operations that bring no new task and keep the launches -/

@[simp] theorem Chip.launches_setByte (c : Chip) (a : Nat) (b : Byte) : (c.setByte a b).launches = c.launches := by
  unfold Chip.setByte Chip.touch
  split
  · rfl
  · split <;> rfl

/-- A step that leaves no task where there was none, and the launches of every chip as they were. -/
structure State.NoNewTasks (s t : State) : Prop where
  absent : ∀ k n, s.task? k n = none → t.task? k n = none
  launches : ∀ k, (t.chip? k).map Chip.launches = (s.chip? k).map Chip.launches

namespace State.NoNewTasks

theorem refl (s : State) : s.NoNewTasks s := ⟨fun _ _ => id, fun _ => rfl⟩

theorem trans {s t u : State} (a : s.NoNewTasks t) (b : t.NoNewTasks u) : s.NoNewTasks u :=
  ⟨fun k n => b.absent k n ∘ a.absent k n, fun k => (b.launches k).trans (a.launches k)⟩

/-- The chips are untouched. -/
theorem of_chips {s t : State} (h : t.chips = s.chips) : s.NoNewTasks t := by
  refine ⟨fun k n hnone => ?_, fun k => ?_⟩
  · unfold State.task? State.chip? at hnone ⊢
    rwa [h]
  · unfold State.chip?
    rw [h]

/-- A rewrite of a chip that leaves its tasks and its launches. -/
theorem updChip (s : State) (k : Nat) {f : Chip → Chip} (htasks : ∀ c, (f c).tasks = c.tasks) (hlaunches : ∀ c, (f c).launches = c.launches) :
    s.NoNewTasks (s.updChip k f) :=
  ⟨fun j n hnone => (s.task?_updChip_of_tasks k htasks j n).trans hnone, fun j => s.chip?_map_updChip k j hlaunches⟩

theorem updTask (s : State) (k t : Nat) (f : Task → Task) : s.NoNewTasks (s.updTask k t f) := by
  refine ⟨fun j n hnone => ?_, fun j => s.chip?_map_updChip k j fun _ => rfl⟩
  rw [State.task?_updTask, hnone]
  split <;> rfl

theorem updCore (s : State) (k : CoreRef) (f : Core → Core) : s.NoNewTasks (s.updCore k f) := of_chips rfl

/-- A rewrite of a core or none. -/
theorem ite_updCore {s t : State} (h : s.NoNewTasks t) (b : Prop) [Decidable b] (k : CoreRef) (f : Core → Core) :
    s.NoNewTasks (if b then t.updCore k f else t) := by
  split
  · exact h.trans (updCore ..)
  · exact h

theorem writeByte (s : State) (p : Place) (b : Byte) : s.NoNewTasks (s.writeByte p b) := by
  cases p with
  | dram k a r =>
    rw [State.writeByte_dram]
    exact updChip s k (fun c => c.tasks_setByte a b) fun c => c.launches_setByte a b
  | host a => exact of_chips rfl
  | scratch k t o => exact updTask ..

theorem endSequence (s : State) (p : Place) : s.NoNewTasks (s.endSequence p) := by
  cases p with
  | dram k a r => exact updChip s k (fun _ => rfl) fun _ => rfl
  | host a => exact refl s
  | scratch k t o => exact refl s

theorem devWrite (s : State) (chip a : Nat) (bs : List Byte) : s.NoNewTasks (s.devWrite chip a bs) := by
  induction bs generalizing s a with
  | nil => exact refl s
  | cons b bs ih =>
    unfold State.devWrite
    split
    · exact ((writeByte ..).trans (endSequence ..)).trans (ih ..)
    · exact ih ..

theorem releaseStore (s : State) (chip a : Nat) (bs : List Byte) (clock : VClock) : s.NoNewTasks (s.releaseStore chip a bs clock) := by
  refine (devWrite s chip a bs).trans (updChip _ chip (fun c => ?_) fun c => ?_) <;> split <;> rfl

theorem freeArray (s : State) (core : CoreRef) : s.NoNewTasks (s.freeArray core) := by
  unfold State.freeArray
  split
  · exact refl s
  · split
    · exact updCore ..
    · exact (updTask ..).trans (updCore ..)

end State.NoNewTasks

/-! ### Completion (R259) -/

/-- A chip that a launch is no launch of any more. -/
def Chip.withoutLaunch (handle : Nat) (c : Chip) : Chip := { c with launches := Tab.drop c.launches handle }

/-- Once it has dropped the launch, a completion brings no task and keeps the other launches. -/
theorem State.NoNewTasks.complete {s : State} {chip handle : Nat} {c : Chip} {l : Launch} (hc : s.chip? chip = some c)
    (hl : Tab.find c.launches handle = some l) (final : LState) (reason : Nat) :
    (s.updChip chip (Chip.withoutLaunch handle)).NoNewTasks (s.complete chip handle final reason) := by
  unfold State.complete
  simp only [hc, Option.bind_some, hl]
  refine ite_updCore (.trans (releaseStore ..) (updChip _ _ (fun c => ?_) fun c => ?_)) .. <;> cases l.fired <;> rfl

/-- A completed launch is no launch of its chip, and no task is new. -/
theorem State.complete_gone {s : State} {chip handle : Nat} {c : Chip} {l : Launch} (hc : s.chip? chip = some c)
    (hl : Tab.find c.launches handle = some l) (hrising : Tab.rising none c.launches = true) (final : LState) (reason : Nat) :
    (∀ key, s.task? chip key = none → (s.complete chip handle final reason).task? chip key = none) ∧
      ∀ d, (s.complete chip handle final reason).chip? chip = some d → Tab.find d.launches handle = none := by
  have hcomplete := State.NoNewTasks.complete hc hl final reason
  refine ⟨fun key hnone => hcomplete.absent chip key ?_, fun d hd => ?_⟩
  · exact (s.task?_updChip_of_tasks chip (f := Chip.withoutLaunch handle) (fun _ => rfl) chip key).trans hnone
  · have hkept := hcomplete.launches chip
    rw [hd, State.chip?_updChip_self, hc] at hkept
    rw [Option.some.inj hkept]
    exact Tab.find_drop_self hrising

/-! ### Retirement (R245, R246, R259) -/

/-- A launch that has counted the retirement of a task of its chip. -/
def Launch.counting (l : Launch) (c : Chip) (key : Nat) (t : Task) : Launch :=
  { l with made := VClock.join l.made (c.hb.ofTask t key), retired := l.retired + 1, faulted := l.faulted || t.ended, core := t.core.getD l.core }

/-- A chip without a task that has retired, which its launch has counted. -/
def Chip.withoutTask (key : Nat) (t : Task) (l : Launch) (c : Chip) : Chip :=
  ({ c with tasks := Tab.drop c.tasks key, hb := c.hb.dropTask key, launches := Tab.put c.launches t.handle (l.counting c key t),
            trap := { c.trap with
              frames := c.trap.frames.filter fun f => !(t.gangs.filterMap fun g : Nat × Gang => g.2.frame).contains f } }).retrack

/-- A task is off the core that it stands on, if on any. -/
def State.offCore (s : State) (chip key : Nat) (c : Chip) (t : Task) : State :=
  match t.core with
  | some r => s.leaveCore chip key r c.prot
  | none => s

/-- A task has retired, and its launch is still to complete where it was the last. -/
def State.retireTask (s : State) (chip key : Nat) (c : Chip) (t : Task) (l : Launch) : State :=
  let core := t.core.getD l.core
  let v := ((s.offCore chip key c t).updChip chip (Chip.withoutTask key t l)).freeArray core
  if l.record.flags.testBit 1 then v.updCore core fun k => k.post chip (eventWord t.handle (if t.ended then 2 else 1) t.num) else v

/-- A task that leaves its core changes of its chip the runs of waiting cycles alone. -/
theorem State.chip?_leaveCore {s : State} {chip : Nat} {c : Chip} (hc : s.chip? chip = some c) (key : Nat) (core : CoreRef) (prot : Bool) :
    ∃ w, (s.leaveCore chip key core prot).chip? chip = some { c with waitRun := w } := by
  unfold State.leaveCore
  dsimp only
  split
  · refine ⟨Tab.drop c.waitRun core.core, ?_⟩
    change (s.updChip chip _).chip? chip = _
    rw [State.chip?_updChip_self, hc]
    rfl
  · exact ⟨c.waitRun, hc⟩

theorem State.chip?_offCore {s : State} {chip : Nat} {c : Chip} (hc : s.chip? chip = some c) (key : Nat) (t : Task) :
    ∃ w, (s.offCore chip key c t).chip? chip = some { c with waitRun := w } := by
  unfold State.offCore
  split
  · exact State.chip?_leaveCore hc ..
  · exact ⟨c.waitRun, hc⟩

/-- A retired task is no task of its chip, and its launch has counted it. -/
theorem State.retireTask_gone {s : State} {chip : Nat} {c : Chip} (hc : s.chip? chip = some c) {key : Nat}
    (hrising : Tab.rising none c.tasks = true) (t : Task) (l : Launch) :
    (s.retireTask chip key c t l).task? chip key = none ∧
      ((s.retireTask chip key c t l).chip? chip).map Chip.launches = some (Tab.put c.launches t.handle (l.counting c key t)) := by
  obtain ⟨w, hoff⟩ := State.chip?_offCore hc key t
  have hdropped : ((s.offCore chip key c t).updChip chip (Chip.withoutTask key t l)).chip? chip =
      some (Chip.withoutTask key t l { c with waitRun := w }) := by
    rw [State.chip?_updChip_self, hoff]
    rfl
  have hrest : State.NoNewTasks ((s.offCore chip key c t).updChip chip (Chip.withoutTask key t l)) (s.retireTask chip key c t l) :=
    .ite_updCore (.freeArray ..) ..
  refine ⟨hrest.absent chip key ?_, ?_⟩
  · rw [State.task?, hdropped]
    exact Tab.find_drop_self hrising
  · rw [hrest.launches, hdropped]
    rfl

/-- All of a task's gangs have retired on its core, or a fault has ended it and its record is delivered. -/
def Task.done (t : Task) : Bool := ((t.gangs.all fun g => g.2.retired) && t.core.isSome || t.ended) && !(t.ended && t.undelivered)

theorem Task.done_iff {t : Task} : t.done = true ↔
    ((∀ g ∈ t.gangs, g.2.exited = BitVec.allOnes 32) ∧ t.core.isSome = true ∨ t.ended = true) ∧
      (t.ended = true → t.undelivered = false) := by
  cases h : t.ended <;> simp [Task.done, Gang.retired, h]

/-- A task that is done and has nothing under way retires; the last of its launch completes it. -/
theorem execTaskRetire_of_done {s : State} {chip key : Nat} {c : Chip} {t : Task} {l : Launch} (hc : s.chip? chip = some c)
    (ht : s.task? chip key = some t) (hl : Tab.find c.launches t.handle = some l) (hquiet : s.taskQuiet chip key t = true) (hdone : t.done = true) :
    execTaskRetire chip key s = .next (if l.retired + 1 = l.record.ntask then
      (s.retireTask chip key c t l).complete chip t.handle (if l.faulted || t.ended then .ended else .done) 0
    else s.retireTask chip key c t l) := by
  have hmay : (((t.gangs.all fun g => g.2.retired) || t.ended) && !(t.ended && t.undelivered) && s.taskQuiet chip key t &&
      (t.core.isSome || t.ended)) = true := by
    simp only [Task.done, Bool.and_eq_true, Bool.or_eq_true] at hdone ⊢
    obtain ⟨hwhy, hdelivered⟩ := hdone
    exact ⟨⟨⟨hwhy.imp_left And.left, hdelivered⟩, hquiet⟩, hwhy.imp_left And.right⟩
  simp only [execTaskRetire, hc, ht, hl, hmay, Bool.not_true, Bool.false_eq_true, if_false]
  split <;> rfl

/-! ### Dispatch, resumption, migration (R243, R249, R252, R268, R394, R412) -/

/-- A task that is served next and has places for itself and its groups is dispatched with them. -/
theorem execTaskDispatch_of_fits {s : State} {chip handle task base priv : Nat} {core : CoreRef} {c : Chip} {l : Launch} {first t : Task}
    {more : List Task} (hc : s.chip? chip = some c) (hturn : c.onTurn = true) (hbase : base < 4) (hl : Tab.find c.launches handle = some l)
    (hserved : c.servedNext handle task = true) (hseat : s.seat chip c [] (c.newTask l handle task priv) core base = some first)
    (hspread : s.spread chip c l first (((l.closure [task]).filter fun m => m != task).map fun m => c.newTask l handle m 0) = some (t :: more))
    (hfree : ∀ u ∈ t :: c.assignPriv (priv + t.backing) more, c.backingFree u = true) :
    execTaskDispatch chip handle task core base priv s = .next (s.updChip chip fun d =>
      (((t :: c.assignPriv (priv + t.backing) more).foldl (fun d u => d.enterTask handle u) d).tookTurn handle).retrack) := by
  have hall : (t :: c.assignPriv (priv + t.backing) more).all c.backingFree = true := List.all_eq_true.mpr hfree
  simp only [execTaskDispatch, hc, hl, hturn, hbase, hserved, hseat, hspread, hall, decide_true, Bool.and_self, Bool.not_true, Bool.false_eq_true,
    if_false, Option.bind_some]

/-- A saved task that has places for itself and its groups resumes with them, or stops a chip whose seal fails. -/
theorem execTaskResume_of_fits {s : State} {chip task base : Nat} {core : CoreRef} {c : Chip} {t : Task} {l : Launch} {first : Task}
    {ts : List Task} (hc : s.chip? chip = some c) (hturn : c.onTurn = true) (hbase : base < 4) (ht : s.task? chip task = some t)
    (hl : Tab.find c.launches t.handle = some l) (hsaved : t.core = none) (hlives : t.ended = false)
    (hseat : s.seat chip c [] t core base = some first)
    (hcluster : l.clusterOk ((c.tasks.filter fun u => u.2.handle == t.handle && u.2.core.isSome).map Prod.snd) first = true)
    (harray : s.arrayPlaceOk chip c l first = true) (hplace : s.placeAll chip c l first ((c.savedWith l t).map Prod.snd) = some ts) :
    execTaskResume chip task core base s = .next (if (t :: (c.savedWith l t).map Prod.snd).all (s.sealHolds c) then s.loadAll chip ts
      else s.tdiError c.dev c.slot 2) := by
  simp only [execTaskResume, hc, ht, hl, hsaved, hlives, hturn, hseat, hcluster, harray, hplace, Nat.not_le.mpr hbase, Option.isSome_none,
    Bool.not_true, Bool.or_self, Bool.false_eq_true, decide_false, if_false]

/-- The tasks that move to a core with one: it alone within its cluster, and otherwise its cluster groups' (R252). -/
def Chip.movers (c : Chip) (l : Launch) (t : Task) (old core : CoreRef) : List Nat :=
  ((if clusterOf core.core = clusterOf old.core then [t.num] else l.movesWith t.num).map (taskKey t.handle)).filter fun k =>
    match Tab.find c.tasks k with
    | some u => u.core.isSome && !u.ended
    | none => false

/-- A task that has places for itself and its groups, once they have left their cores, moves there with them. -/
theorem execTaskMigration_of_fits {s v : State} {chip task base : Nat} {core old : CoreRef} {c d : Chip} {t u : Task} {l : Launch} {first : Task}
    {ts : List Task} (hc : s.chip? chip = some c) (hturn : c.onTurn = true) (hbase : base < 4) (ht : s.task? chip task = some t)
    (hl : Tab.find c.launches t.handle = some l) (hold : t.core = some old) (hlives : t.ended = false) (hother : core ≠ old)
    (hentering : c.entering (c.movers l t old core) = false) (hv : s.preempt chip (c.movers l t old core) = v) (hd : v.chip? chip = some d)
    (hu : v.task? chip task = some u) :
    let rest := ((c.movers l t old core).filter fun k => k != task).filterMap fun k => Tab.find d.tasks k
    (∀ w ∈ u :: rest, w.ended = false ∧ w.core = none) → v.seat chip d [] u core base = some first →
    v.arrayPlaceOk chip d l first = true → v.placeAll chip d l first rest = some ts →
    execTaskMigration chip task core base s = .next (v.loadAll chip ts) := by
  intro rest hrest hseat harray hplace
  have hsaved : (u :: rest).any (fun w => w.ended || w.core.isSome) = false :=
    List.any_eq_false.mpr fun w hw => by simp [hrest w hw]
  simp only [execTaskMigration, hc, ht, hl, hold]
  generalize hkeys : List.filter _ (List.map _ _) = keys
  obtain rfl : keys = c.movers l t old core := hkeys.symm
  simp only [hlives, hturn, hother, hentering, hv, hd, hu, hseat, harray, Nat.not_le.mpr hbase, Bool.not_true, Bool.or_self, Bool.false_eq_true,
    decide_false, if_false, Option.bind_some, if_true]
  exact (if_neg (Bool.eq_false_iff.mp hsaved)).trans (by rw [hplace])

/-- Settles O35: a task goes where its tests place it, and one that is done is dropped from a rising table, its launch with the last of them. -/
theorem tasksPlacedRetired : Obligations.TasksPlacedRetired := by
  refine ⟨fun s chip task c core base hc hturn hbase =>
      ⟨fun handle priv l first t more hl hserved hseat hspread hfree =>
        execTaskDispatch_of_fits hc hturn hbase hl hserved hseat hspread hfree,
      fun t l first ts ht hl hsaved hlives hseat hcluster harray hplace =>
        execTaskResume_of_fits hc hturn hbase ht hl hsaved hlives hseat hcluster harray hplace,
      fun t l old d u first ts ht hl hold hlives hother hentering hd hu hrest hseat harray hplace =>
        execTaskMigration_of_fits hc hturn hbase ht hl hold hlives hother hentering rfl hd hu hrest hseat harray hplace⟩,
    fun s chip task c t l hc ht hl hrising hlaunches hquiet hwhy hdelivered => ?retires⟩
  case retires =>
    obtain ⟨hgone, hcounted⟩ := State.retireTask_gone hc hrising t l
    have hretire := execTaskRetire_of_done hc ht hl hquiet (Task.done_iff.mpr ⟨hwhy, hdelivered⟩)
    by_cases hlast : l.retired + 1 = l.record.ntask
    · obtain ⟨d, hd, hput⟩ := Option.map_eq_some_iff.mp hcounted
      have hfind : Tab.find d.launches t.handle = some (l.counting c task t) := hput ▸ Tab.find_put_self ..
      have hstill : Tab.rising none d.launches = true := hput ▸ Tab.rising_put _ hlaunches nofun
      obtain ⟨habsent, hdropped⟩ := State.complete_gone hd hfind hstill (if l.faulted || t.ended then .ended else .done) 0
      rw [if_pos hlast] at hretire
      exact ⟨_, hretire, habsent task hgone, fun d hd => (if_pos hlast).mpr (hdropped d hd)⟩
    · rw [if_neg hlast] at hretire
      refine ⟨_, hretire, hgone, fun d hd => (if_neg hlast).mpr ⟨l.counting c task t, ?_, rfl, rfl⟩⟩
      rw [hd] at hcounted
      rw [Option.some.inj hcounted]
      exact Tab.find_put_self ..

end Sys2Proof.Machine
end

section
/-! SUPPORT. The doorbell of a queue in which the scheduler produces (R256, R257): on a table of chips in canonical form it changes nothing, and on
one out of order it lists its chip a second time. -/

namespace Sys2Proof.Machine

/-! ### Tables in canonical form -/

/-- The entry that a rising table holds at a key, put there again, leaves the table. -/
theorem Tab.put_of_find {α : Type} {t : Tab α} {lo : Option Nat} {n : Nat} {a : α} (hrising : Tab.rising lo t = true)
    (ha : Tab.find t n = some a) : Tab.put t n a = t := by
  induction t generalizing lo with
  | nil => cases ha
  | cons p t ih =>
    obtain ⟨k, v⟩ := p
    obtain ⟨-, hrest⟩ := Bool.and_eq_true_iff.mp hrising
    by_cases hk : k = n
    · subst hk
      simp only [Tab.find, if_true, Option.some.injEq] at ha
      simp [Tab.put, ha]
    · simp only [Tab.find, hk, if_false] at ha
      have hafter : ¬ n < k := fun hlt => by simp [Tab.find_low hrest hlt.le] at ha
      simp only [Tab.put, hafter, Ne.symm hk, if_false, ih hrest ha]

/-- A rewrite that leaves its chip as it is leaves the state, where the table of chips is rising. -/
theorem State.updChip_of_fixed {s : State} {chip : Nat} {c : Chip} {f : Chip → Chip} (hrising : Tab.rising none s.chips = true)
    (hc : s.chip? chip = some c) (hf : f c = c) : s.updChip chip f = s := by
  unfold State.updChip Tab.upd
  rw [show Tab.find s.chips chip = some c from hc]
  simp only [hf, Tab.put_of_find hrising hc]

@[simp] theorem vset_vget {α : Type} {n : Nat} [NeZero n] (v : Vector α n) (k : Nat) : vset v k (vget v k) = v := by
  simp [vset, vget]

/-! ### The doorbell of a device's queue -/

/-- The supervisor's doorbell leaves a queue in which the scheduler produces. -/
theorem Queue.writeTail_of_dev {k : Queue} (hdev : k.dev = true) (value : Nat) (firm : Bool) : k.writeTail value firm = k := if_pos hdev

/-- The clause of O37 that fails in general holds of every state whose chips are in canonical form. -/
theorem exec_qtailWrite_of_dev {s : State} {chip q : Nat} {c : Chip} (hrising : Tab.rising none s.chips = true) (hc : s.chip? chip = some c)
    (hq : q ≤ 63) (hdev : (vget c.queues q).dev = true) (value : Nat) : exec (.qtailWrite chip q value) s = .next s := by
  change execQtailWrite chip q value s = _
  simp only [execQtailWrite, hc, Nat.not_lt.mpr hq, if_false]
  rw [State.updChip_of_fixed hrising hc (by rw [Queue.writeTail_of_dev hdev, vset_vget])]

/-! ### Chips out of order -/

/-- A chip in whose queue 0 the scheduler produces. -/
def producingChip : Chip :=
  let c := placedChip false []
  { c with queues := vset c.queues 0 { vget c.queues 0 with dev := true, lg := 4 } }

/-- The placed machine with this chip at key 0 and another at key 1, listed in falling order. -/
def misordered : State := { placed false false [] with chips := [(1, placedChip false []), (0, producingChip)] }

/-- The doorbell writes the unchanged chip back, and a put into a table out of order adds an entry. -/
theorem misordered_doorbell_lists_chip_again :
    (Ans.state (exec (.qtailWrite 0 0 0) misordered) misordered).chips.map Prod.fst = [0, 1, 0] := by decide +kernel

/-- Refutes O37: a doorbell write of a queue in which the scheduler produces is to leave the state, and the statement ranges over all states, those
with a table out of canonical form too. In `misordered` the chips are listed in falling order, so that writing the unchanged chip back lists it a
second time. -/
theorem not_launchesProceed : ¬ Obligations.LaunchesProceed := by
  intro h
  obtain ⟨c, hc, hdev⟩ := Option.map_eq_some_iff.mp
    (show (misordered.chip? 0).map (fun c => (vget c.queues 0).dev) = some true by decide +kernel)
  obtain ⟨-, -, -, -, -, hdoorbell, -⟩ := h misordered 0 c hc
  have hkeys := misordered_doorbell_lists_chip_again
  rw [hdoorbell 0 0 (Nat.zero_le 63) hdev] at hkeys
  exact absurd hkeys (by decide)

end Sys2Proof.Machine
end

section
/-! SUPPORT. Canonical memories (log entry 1): of a task, of a chip and of the machine, and the operations of the state that keep them. A
function that touches no memory keeps them by the definitions alone; one that writes bytes does so through the memory's own operations. -/

namespace Sys2Proof.Machine

/-- The memories of a task are canonical. -/
def Task.Wf (t : Task) : Prop := t.memWf = true

/-- The memories of a chip are canonical. -/
def Chip.Wf (c : Chip) : Prop := c.memWf = true

/-- Every memory of the machine is canonical. -/
def State.Wf (s : State) : Prop := Memory.wf s = true

/-- What a meaning answers has canonical memories where it is a next state. -/
def Ans.Wf : Ans → Prop
  | .next s => s.Wf
  | .fault _ => True
  | .refused _ => True

/-- What a meaning makes of the state has canonical memories. -/
def Res.Wf : Res → Prop
  | .ok o => o.s.Wf
  | .whole s => s.Wf
  | .trap _ => True
  | .wait .. => True

/-- The memories of an array are canonical. -/

abbrev Arr.Wf (a : Arr) : Prop := Mem.wf a.tiles = true ∧ Mem.wf a.wbuf = true ∧ ∀ l ∈ a.latch, Mem.wf l.block = true

theorem Arr.Wf.tiles {a : Arr} (h : a.Wf) : Mem.wf a.tiles = true := h.1

theorem Arr.Wf.wbuf {a : Arr} (h : a.Wf) : Mem.wf a.wbuf = true := h.2.1

theorem Arr.Wf.latch {a : Arr} (h : a.Wf) : ∀ l ∈ a.latch, Mem.wf l.block = true := h.2.2

theorem Task.wf_iff {t : Task} : t.Wf ↔ Mem.wf t.scratch = true ∧ Mem.wf t.full = true ∧ t.arr.Wf := by
  simp [Task.Wf, Task.memWf, and_assoc, Option.all_eq_true]

theorem Chip.wf_iff {c : Chip} : c.Wf ↔ Mem.wf c.mem = true ∧ (∀ m ∈ c.mig.staging, Mem.wf m = true) ∧ ∀ t ∈ c.tasks, t.2.Wf := by
  simp [Chip.Wf, Chip.memWf, Task.Wf, and_assoc, Option.all_eq_true]

theorem State.wf_iff {s : State} : s.Wf ↔ Mem.wf s.hostMem = true ∧ ∀ c ∈ s.chips, c.2.Wf := by
  simp [State.Wf, Memory.wf, Chip.Wf]

theorem Tab.forall_put {α : Type} {P : α → Prop} {t : Tab α} {n : Nat} {a : α} (h : ∀ p ∈ t, P p.2) (ha : P a) : ∀ p ∈ Tab.put t n a, P p.2 := by
  intro p hp
  rcases Tab.eq_or_mem_of_mem_put hp with rfl | hp
  · exact ha
  · exact h p hp

theorem Tab.forall_upd {α : Type} {P : α → Prop} {t : Tab α} {n : Nat} {f : α → α} (h : ∀ p ∈ t, P p.2) (hf : ∀ a, P a → P (f a)) :
    ∀ p ∈ Tab.upd t n f, P p.2 := by
  unfold Tab.upd
  split
  · exact Tab.forall_put h (hf _ (h _ (Tab.mem_of_find ‹_›)))
  · exact h

theorem Tab.forall_drop {α : Type} {P : α → Prop} {t : Tab α} {n : Nat} (h : ∀ p ∈ t, P p.2) : ∀ p ∈ Tab.drop t n, P p.2 := by
  induction t with
  | nil => exact h
  | cons q t ih =>
    obtain ⟨hq, ht⟩ := List.forall_mem_cons.mp h
    unfold Tab.drop
    split
    · exact ht
    · exact List.forall_mem_cons.mpr ⟨hq, ih ht⟩

/-- Chips that hold the same memories. -/
theorem Chip.wf_of_eq {c d : Chip} (h : c.Wf) (hmem : d.mem = c.mem) (hstaging : d.mig.staging = c.mig.staging) (htasks : d.tasks = c.tasks) : d.Wf := by
  rw [Chip.wf_iff] at h ⊢
  rwa [hmem, hstaging, htasks]

/-- States that hold the same memories. -/
theorem State.wf_of_eq {s t : State} (h : s.Wf) (hhost : t.hostMem = s.hostMem) (hchips : t.chips = s.chips) : t.Wf := by
  rw [State.wf_iff] at h ⊢
  rwa [hhost, hchips]

/-! ### Folds -/

theorem State.wf_foldl {α : Type} {f : State → α → State} {l : List α} {s : State} (h : s.Wf) (hf : ∀ t a, t.Wf → (f t a).Wf) : (l.foldl f s).Wf :=
  List.foldlRecOn l f h fun t ht a _ => hf t a ht

theorem State.wf_foldl_fst {α β : Type} {f : State × β → α → State × β} {l : List α} {r : State × β} (h : r.1.Wf)
    (hf : ∀ r a, r.1.Wf → (f r a).1.Wf) : (l.foldl f r).1.Wf :=
  List.foldlRecOn (motive := fun r => r.1.Wf) l f h fun r hr a _ => hf r a hr

theorem State.wf_foldl_snd {α β : Type} {f : β × State → α → β × State} {l : List α} {r : β × State} (h : r.2.Wf)
    (hf : ∀ r a, r.2.Wf → (f r a).2.Wf) : (l.foldl f r).2.Wf :=
  List.foldlRecOn (motive := fun r => r.2.Wf) l f h fun r hr a _ => hf r a hr

theorem Chip.wf_foldl {α : Type} {f : Chip → α → Chip} {l : List α} {c : Chip} (h : c.Wf) (hf : ∀ d a, d.Wf → (f d a).Wf) : (l.foldl f c).Wf :=
  List.foldlRecOn l f h fun t ht a _ => hf t a ht

/-! ### Parts of the state -/

theorem State.wf_chip {s : State} {k : Nat} {c : Chip} (h : s.Wf) (hc : s.chip? k = some c) : c.Wf :=
  (State.wf_iff.mp h).2 _ (Tab.mem_of_find hc)

theorem Chip.wf_task {c : Chip} {k : Nat} {t : Task} (h : c.Wf) (ht : Tab.find c.tasks k = some t) : t.Wf :=
  (Chip.wf_iff.mp h).2.2 _ (Tab.mem_of_find ht)

theorem State.wf_task {s : State} {k n : Nat} {t : Task} (h : s.Wf) (ht : s.task? k n = some t) : t.Wf := by
  obtain ⟨c, hc, ht⟩ := Option.bind_eq_some_iff.mp ht
  exact Chip.wf_task (State.wf_chip h hc) ht

theorem State.wf_updChip {s : State} {k : Nat} {f : Chip → Chip} (h : s.Wf) (hf : ∀ c, c.Wf → (f c).Wf) : (s.updChip k f).Wf := by
  rw [State.wf_iff] at h ⊢
  exact ⟨h.1, Tab.forall_upd h.2 hf⟩

theorem State.wf_updTask {s : State} {k t : Nat} {f : Task → Task} (h : s.Wf) (hf : ∀ u, u.Wf → (f u).Wf) : (s.updTask k t f).Wf := by
  refine State.wf_updChip h fun c hc => ?_
  rw [Chip.wf_iff] at hc ⊢
  obtain ⟨hmem, hstaging, htasks⟩ := hc
  exact ⟨hmem, hstaging, Tab.forall_upd htasks hf⟩

theorem State.wf_updGang {s : State} {g : GangRef} {f : Gang → Gang} (h : s.Wf) : (s.updGang g f).Wf := State.wf_updTask h fun _ ht => ht

theorem State.wf_updDev {s : State} {k : Nat} {f : Device → Device} (h : s.Wf) : (s.updDev k f).Wf := h

theorem State.wf_updCore {s : State} {k : CoreRef} {f : Core → Core} (h : s.Wf) : (s.updCore k f).Wf := h

theorem State.wf_updGangOf {s : State} {w : Issuer} {f : Gang → Gang} (h : s.Wf) : (s.updGangOf w f).Wf := by
  cases w with
  | gang g lanes => exact State.wf_updGang h
  | ctrl r => exact State.wf_updCore h

theorem State.wf_free {s : State} (h : s.Wf) : s.free.2.Wf := h

theorem State.wf_freeWords {s : State} {n : Nat} (h : s.Wf) : (s.freeWords n).2.Wf := by
  induction n generalizing s with
  | zero => exact h
  | succ n ih => exact ih (State.wf_free h)

/-- A state that may be has canonical memories where it is. -/
def State.OptWf (o : Option State) : Prop := ∀ s, o = some s → s.Wf

theorem State.optWf_none : State.OptWf none := fun _ h => nomatch h

theorem State.optWf_some {s : State} (h : s.Wf) : State.OptWf (some s) := fun _ e => Option.some.inj e ▸ h

theorem State.wf_of_some {o : Option State} {s : State} (h : State.OptWf o) (e : o = some s) : s.Wf := h s e

theorem Ans.wf_of_next {a : Ans} {s : State} (h : a.Wf) (e : a = .next s) : s.Wf := by rwa [e] at h

/-! ### Bytes -/

theorem State.wf_withHostMem {s : State} {m : Mem} (h : s.Wf) (hm : Mem.wf m = true) : ({ s with hostMem := m } : State).Wf :=
  State.wf_iff.mpr ⟨hm, (State.wf_iff.mp h).2⟩

theorem State.wf_hostMem {s : State} (h : s.Wf) : Mem.wf s.hostMem = true := (State.wf_iff.mp h).1

theorem Chip.wf_mem {c : Chip} (h : c.Wf) : Mem.wf c.mem = true := (Chip.wf_iff.mp h).1

theorem Chip.wf_withMem {c : Chip} {m : Mem} (h : c.Wf) (hm : Mem.wf m = true) : ({ c with mem := m } : Chip).Wf :=
  Chip.wf_iff.mpr ⟨hm, (Chip.wf_iff.mp h).2⟩

theorem Chip.wf_touch {c : Chip} {a} (hc : c.Wf) : (c.touch a).Wf := by
  unfold Chip.touch
  split <;> exact hc

theorem Chip.wf_touchRange {c : Chip} {a n} (hc : c.Wf) : (c.touchRange a n).Wf := by
  unfold Chip.touchRange
  split
  · exact hc
  · exact Chip.wf_foldl hc fun _ _ h => Chip.wf_touch h

theorem Chip.wf_writeMem {c : Chip} {a bs} (hc : c.Wf) : (c.writeMem a bs).Wf :=
  Chip.wf_withMem (Chip.wf_touchRange hc) (Mem.wf_write a bs (Chip.wf_mem hc))

theorem Task.wf_withScratch {t : Task} {m : Mem} (h : t.Wf) (hm : Mem.wf m = true) : ({ t with scratch := m } : Task).Wf :=
  Task.wf_iff.mpr ⟨hm, (Task.wf_iff.mp h).2⟩

theorem Task.wf_withFull {t : Task} {m : Mem} (h : t.Wf) (hm : Mem.wf m = true) : ({ t with full := m } : Task).Wf :=
  have ⟨hscratch, _, harr⟩ := Task.wf_iff.mp h
  Task.wf_iff.mpr ⟨hscratch, hm, harr⟩

theorem Task.wf_withArr {t : Task} {a : Arr} (h : t.Wf) (ha : a.Wf) : ({ t with arr := a } : Task).Wf :=
  have ⟨hscratch, hfull, _⟩ := Task.wf_iff.mp h
  Task.wf_iff.mpr ⟨hscratch, hfull, ha⟩

theorem Task.wf_full {t : Task} (h : t.Wf) : Mem.wf t.full = true := (Task.wf_iff.mp h).2.1

theorem Task.wf_arr {t : Task} (h : t.Wf) : t.arr.Wf := (Task.wf_iff.mp h).2.2

theorem Chip.wf_withTasks {c : Chip} {ts : Tab Task} (h : c.Wf) (ht : ∀ t ∈ ts, t.2.Wf) : ({ c with tasks := ts } : Chip).Wf :=
  have ⟨hmem, hstaging, _⟩ := Chip.wf_iff.mp h
  Chip.wf_iff.mpr ⟨hmem, hstaging, ht⟩

theorem Chip.wf_withMig {c : Chip} {m : Mig} (h : c.Wf) (hm : ∀ x ∈ m.staging, Mem.wf x = true) : ({ c with mig := m } : Chip).Wf :=
  have ⟨hmem, _, htasks⟩ := Chip.wf_iff.mp h
  Chip.wf_iff.mpr ⟨hmem, hm, htasks⟩

theorem Chip.wf_staging {c : Chip} (h : c.Wf) : ∀ m ∈ c.mig.staging, Mem.wf m = true := (Chip.wf_iff.mp h).2.1

theorem Chip.wf_tasks {c : Chip} (h : c.Wf) : ∀ t ∈ c.tasks, t.2.Wf := (Chip.wf_iff.mp h).2.2

theorem State.wf_withChips {s : State} {cs : Tab Chip} (h : s.Wf) (hc : ∀ c ∈ cs, c.2.Wf) : ({ s with chips := cs } : State).Wf :=
  State.wf_iff.mpr ⟨(State.wf_iff.mp h).1, hc⟩

theorem State.wf_chips {s : State} (h : s.Wf) : ∀ c ∈ s.chips, c.2.Wf := (State.wf_iff.mp h).2

theorem Mem.wf_nil : Mem.wf [] = true := rfl

theorem Task.wf_scratch {t : Task} (h : t.Wf) : Mem.wf t.scratch = true := (Task.wf_iff.mp h).1

theorem State.wf_writeByte {s : State} {p b} (h : s.Wf) : (s.writeByte p b).Wf := by
  cases p with
  | dram k a raced =>
    refine State.wf_updChip h fun c hc => ?_
    split
    · exact hc
    · exact Chip.wf_withMem (Chip.wf_touch hc) (Mem.wf_set a b (Chip.wf_mem hc))
  | host a => exact State.wf_withHostMem h (Mem.wf_set a b (State.wf_hostMem h))
  | scratch k t o => exact State.wf_updTask h fun u hu => Task.wf_withScratch hu (Mem.wf_set o b (Task.wf_scratch hu))

theorem State.wf_writePlaces {s : State} {ps v} (h : s.Wf) : (s.writePlaces ps v).Wf := by
  induction ps generalizing s v with
  | nil => exact h
  | cons p ps ih => exact ih (State.wf_writeByte h)

theorem State.wf_writeBytes {s : State} {ps bs} (h : s.Wf) : (s.writeBytes ps bs).Wf := by
  induction ps generalizing s bs with
  | nil => exact h
  | cons p ps ih =>
    cases bs with
    | nil => exact h
    | cons b bs => exact ih (State.wf_writeByte h)

theorem State.wf_endSequence {s : State} {p} (h : s.Wf) : (s.endSequence p).Wf := by
  unfold State.endSequence
  split
  · exact State.wf_updChip h fun _ hc => hc
  · exact h

theorem State.wf_devWrite {s : State} {chip a bs} (h : s.Wf) : (s.devWrite chip a bs).Wf := by
  induction bs generalizing s a with
  | nil => exact h
  | cons b bs ih =>
    unfold State.devWrite
    split
    · exact ih (State.wf_endSequence (State.wf_writeByte h))
    · exact ih h

end Sys2Proof.Machine
end

section
/-! SUPPORT. Faults, waits and the checks before an instruction's effect keep memories canonical. -/

namespace Sys2Proof.Machine

theorem State.wf_noteAccess {s : State} {a atomic write ps} (h : s.Wf) : (s.noteAccess a atomic write ps).Wf := by
  unfold State.noteAccess
  refine State.wf_foldl h fun _ _ h1 => ?_
  split
  · exact State.wf_updChip h1 fun _ => id
  · exact h1

theorem State.wf_freeBytes {s : State} {n} (h : s.Wf) : (s.freeBytes n).2.Wf := State.wf_freeWords h

theorem State.wf_deliverFault {s : State} {chip bs task} (h : s.Wf) : (s.deliverFault chip bs task).1.Wf := by
  unfold State.deliverFault
  split
  · exact h
  · dsimp only
    split
    · exact State.wf_updChip (State.wf_devWrite h) fun _ => id
    · exact State.wf_updChip h fun _ => id

theorem State.wf_endTask {s : State} {chip task record} (h : s.Wf) : (s.endTask chip task record).Wf := by
  unfold State.endTask
  split
  · exact h
  · extract_lets +onlyGivenNames d s1 s2
    have hd : d.1.Wf := State.wf_deliverFault h
    have hs1 : s1.Wf := State.wf_updTask hd fun _ => id
    have hs2 : s2.Wf := by
      unfold s2
      split
      · exact State.wf_updCore hs1
      · exact hs1
    exact hs2

theorem State.wf_renumber {s : State} {g f} (h : s.Wf) : (s.renumber g f).Wf := h

theorem State.wf_enterHandler {s : State} {g record repl frame} (h : s.Wf) : (s.enterHandler g record repl frame).Wf := by
  unfold State.enterHandler
  split
  · extract_lets +onlyGivenNames _ _ _ _ c _ running _ _ _
    have hc : c.Wf := by
      unfold c
      split
      · exact Chip.wf_writeMem (Chip.wf_writeMem (State.wf_chip h ‹_› :))
      · exact (State.wf_chip h ‹_› :)
    have hrunning : running.Wf := hc
    exact State.wf_updGang (State.wf_updChip (State.wf_renumber h) fun _ hc1 => hrunning)
  · exact h

theorem State.wf_faultGang {s : State} {g t active pc resume repl} (h : s.Wf) : (s.faultGang g t active pc resume repl).Wf := by
  unfold State.faultGang
  split
  · dsimp only
    split
    · exact State.wf_endTask h
    · split
      · exact State.wf_enterHandler h
      · exact State.wf_updGang h
  · exact h

theorem State.wf_endRoutine {s : State} {r} (h : s.Wf) : (s.endRoutine r).Wf := by
  unfold State.endRoutine
  split
  · exact h
  · exact State.wf_updCore h

theorem State.wf_faultCtrl {s : State} {r cause pc} (h : s.Wf) : (s.faultCtrl r cause pc).Wf := by
  unfold State.faultCtrl
  split
  · exact h
  · exact State.wf_endRoutine (State.wf_updChip h fun _ => id)

theorem State.wf_faultOfReplay {s : State} {w t resume repl} (h : s.Wf) : (s.faultOfReplay w t resume repl).1.Wf := by
  unfold State.faultOfReplay
  split
  · exact h
  · split
    · extract_lets +onlyGivenNames s1
      have hs1 : s1.Wf := by
        unfold s1
        split
        · exact State.wf_updGang h
        · exact h
      exact hs1
    · exact h

theorem State.wf_takeDeferred {s : State} {g p} (h : s.Wf) : (s.takeDeferred g p).Wf := State.wf_faultGang (State.wf_updGang h)

theorem State.wf_takeFault {s : State} {w t active pc resume repl} (h : s.Wf) : (s.takeFault w t active pc resume repl).Wf := by
  unfold State.takeFault
  extract_lets +onlyGivenNames s1
  have hs1 : s1.Wf := h
  split
  · exact State.wf_faultCtrl hs1
  · split
    · exact State.wf_takeDeferred hs1
    · exact State.wf_faultGang (State.wf_faultOfReplay hs1)

theorem State.wf_handOver {s : State} {w} (h : s.Wf) : (s.handOver w).Wf := by
  unfold State.handOver
  split <;> exact h

theorem State.wf_wantArray {s : State} {w k} (h : s.Wf) : (s.wantArray w k).Wf := by
  unfold State.wantArray
  split
  · split
    · exact State.wf_updCore h
    · exact h
  · exact h

theorem State.wf_stall {s : State} {w lanes k} (h : s.Wf) : (s.stall w lanes k).Wf := State.wf_handOver (State.wf_updGangOf (State.wf_wantArray h))

theorem Ctx.wf_leaveFence {c : Ctx} {s : State} (h : s.Wf) : (c.leaveFence s).Wf := State.wf_updChip h fun _ => id

theorem Ctx.wf_stallAlloc {c : Ctx} {s : State} (h : s.Wf) : (c.stallAlloc s).Wf := State.wf_stall h

theorem Ctx.wf_finish {c : Ctx} {o : Out} (ho : o.s.Wf) : (c.finish o).Wf := State.wf_handOver (State.wf_updGangOf (Ctx.wf_leaveFence ho))

theorem Ctx.wf_retire {c : Ctx} {s : State} {o : Out} (h : s.Wf) (ho : o.s.Wf) : (c.retire s o).Wf := by
  unfold Ctx.retire
  dsimp only
  split
  · exact Ctx.wf_stallAlloc h
  · split
    · exact State.wf_takeFault h
    · exact Ctx.wf_finish ho

theorem Ctx.wf_pass {c : Ctx} {s : State} (h : s.Wf) : (c.pass s).Wf := State.wf_handOver (State.wf_updGangOf (Ctx.wf_leaveFence h))

theorem Ctx.wf_hold {c : Ctx} {s : State} {k addr expect} (h : s.Wf) : (c.hold s k addr expect).Wf := by
  unfold Ctx.hold
  dsimp only
  split
  · exact State.wf_stall h
  · split
    · exact Ctx.wf_stallAlloc h
    · exact State.wf_handOver (State.wf_updGangOf h)

theorem Ctx.wf_fault {c : Ctx} {s : State} {t} (h : s.Wf) : (c.fault s t).Wf := by
  unfold Ctx.fault
  dsimp only
  refine State.wf_takeFault ?_
  split
  · exact Ctx.wf_pass h
  · exact h

theorem wf_issueWith {s : State} {saved i x} {body : Ctx → State → Res} (h : s.Wf) (hb : ∀ c, (body c s).Wf) :
    Ans.Wf (issueWith saved s i x body) := by
  unfold issueWith
  split
  · trivial
  · split
    · trivial
    · exact State.wf_takeFault h
    · exact State.wf_stall h
    · exact Ctx.wf_pass h
    · rename_i c _
      have hbody (d : Ctx) (r : Res) (e : body d s = r) : r.Wf := e ▸ hb d
      dsimp only
      split
      case h_1 o e => exact Ctx.wf_retire h (hbody _ _ e)
      case h_2 => exact Ctx.wf_fault h
      case h_3 => exact Ctx.wf_hold h
      case h_4 t e => exact hbody _ _ e

theorem wf_issue {s : State} {i x} {body : Ctx → State → Res} (h : s.Wf) (hb : ∀ c, (body c s).Wf) : Ans.Wf (issue s i x body) :=
  wf_issueWith h hb

end Sys2Proof.Machine
end

section
/-! SUPPORT. Instructions of a gang keep memories canonical: results, control, memory accesses, waits, scopes. -/

namespace Sys2Proof.Machine

theorem Ctx.wf_value {c : Ctx} {s : State} {f} (h : s.Wf) : (c.value s f).Wf := h

theorem Ctx.wf_test {c : Ctx} {s : State} {f} (h : s.Wf) : (c.test s f).Wf := Ctx.wf_value h

theorem Ctx.wf_floats {c : Ctx} {s : State} {f} (h : s.Wf) : (c.floats s f).Wf := h

theorem Ctx.wf_floatsLate {c : Ctx} {s : State} {f} (h : s.Wf) : (c.floatsLate s f).Wf := h

theorem wf_fmaAt {c : Ctx} {s : State} {f} (h : s.Wf) : (fmaAt f c s).Wf := Ctx.wf_floats h

theorem Ctx.wf_minMax {c : Ctx} {s : State} {wantMax} (h : s.Wf) : (c.minMax wantMax s).Wf := Ctx.wf_floats h

theorem wf_execDot4 {s : State} {x} (h : s.Wf) : Ans.Wf (execDot4 x s) := wf_issue h fun _ => by
  dsimp only
  split
  · exact Ctx.wf_value h
  · exact Ctx.wf_floats h

theorem wf_execFstat {s : State} {x} (h : s.Wf) : Ans.Wf (execFstat x s) := wf_issue h fun _ => by
  extract_lets +onlyGivenNames _ _ _ _ _ _ s'
  have hs' : s'.Wf := by
    unfold s'
    split
    · exact State.wf_updGangOf h
    · exact h
  exact Ctx.wf_value hs'

theorem Ctx.wf_approx {c : Ctx} {s : State} {fn g} (h : s.Wf) : (c.approx s fn g).Wf := Ctx.wf_floats h

theorem wf_arith2 {c : Ctx} {s : State} {t f} (h : s.Wf) : (arith2 t f c s).Wf := Ctx.wf_value h

theorem wf_bits2 {c : Ctx} {s : State} {w f} (h : s.Wf) : (bits2 w f c s).Wf := Ctx.wf_value h

theorem wf_bits1 {c : Ctx} {s : State} {w f} (h : s.Wf) : (bits1 w f c s).Wf := Ctx.wf_value h

theorem wf_execMovs {s : State} {x} (h : s.Wf) : Ans.Wf (execMovs x s) := wf_issue h fun _ => by
  dsimp only
  split
  · exact Ctx.wf_value h
  · split
    · split
      · exact h
      · split
        · exact State.wf_updCore h
        · trivial
    · exact State.wf_updGangOf h

theorem wf_execPmov {s : State} {x} (h : s.Wf) : Ans.Wf (execPmov x s) := wf_issue h fun _ => by
  split
  · exact Ctx.wf_value h
  · exact State.wf_updGangOf h

theorem State.wf_orphanTest {s : State} {chip task} (h : s.Wf) : (s.orphanTest chip task).Wf := by
  unfold State.orphanTest
  split
  · exact h
  · split
    · exact h
    · split
      · exact h
      · exact State.wf_takeFault (State.wf_updGang h)

theorem wf_indirect {c : Ctx} {s : State} (h : s.Wf) : (indirect c s).Wf := by
  unfold indirect
  dsimp only
  split
  · trivial
  · exact h

theorem wf_execRet {s : State} {x} (h : s.Wf) : Ans.Wf (execRet x s) := wf_issue h fun _ => by
  split
  · exact State.wf_endRoutine h
  · exact wf_indirect h

theorem wf_execExit {s : State} {x} (h : s.Wf) : Ans.Wf (execExit x s) := by
  have hissue : Ans.Wf (issue s (.exit x) x fun c s => .ok { s := s.updGangOf c.w fun g => g.exitLanes c.active }) :=
    wf_issue h fun _ => State.wf_updGangOf h
  unfold execExit
  split
  · have ht := Ans.wf_of_next hissue ‹_›
    split
    · exact State.wf_orphanTest ht
    · exact ht
  · exact hissue

theorem wf_execFillWord {s : State} (h : s.Wf) : Ans.Wf (execFillWord s) := by
  unfold execFillWord
  split
  · trivial
  · exact State.wf_updGangOf h

theorem wf_execUnassignedOpcode {s : State} {w} (h : s.Wf) : Ans.Wf (execUnassignedOpcode w s) := by
  unfold execUnassignedOpcode
  split
  · trivial
  · exact State.wf_takeFault h

theorem Ctx.wf_noteAll {c : Ctx} {s : State} {atomic write m ps} (h : s.Wf) : (c.noteAll s atomic write m ps).Wf :=
  State.wf_foldl h fun _ _ h1 => State.wf_noteAccess h1

theorem Ctx.wf_hb {c : Ctx} {s : State} {f} (h : s.Wf) : (c.hb s f).Wf := State.wf_updChip h fun _ => id

theorem Ctx.wf_atomicAll {c : Ctx} {s : State} {m ps k} (h : s.Wf) : (c.atomicAll s m ps k).Wf := State.wf_foldl h fun _ _ h1 => Ctx.wf_hb h1

theorem Ctx.wf_endSequences {c : Ctx} {s : State} {m ps} (h : s.Wf) : (c.endSequences s m ps).Wf := Ctx.wf_hb h

theorem Ctx.wf_loadFrom {c : Ctx} {s : State} {mayBind n addr ps val} (h : s.Wf) : (c.loadFrom s mayBind n addr ps val).Wf := by
  unfold Ctx.loadFrom
  dsimp only
  split
  · trivial
  · exact Ctx.wf_atomicAll (Ctx.wf_noteAll h)

theorem Ctx.wf_load {c : Ctx} {s : State} {addr} (h : s.Wf) : (c.load s addr).Wf := by
  unfold Ctx.load
  dsimp only
  split
  · trivial
  · exact Ctx.wf_loadFrom h

theorem Ctx.wf_storeTo {c : Ctx} {s : State} {n addr val mayBind} (h : s.Wf) : (c.storeTo s n addr val mayBind).Wf := by
  unfold Ctx.storeTo
  split
  · trivial
  · dsimp only
    split
    · trivial
    · refine State.wf_foldl (Ctx.wf_endSequences h) fun _ _ h1 => ?_
      split
      · exact Ctx.wf_hb (State.wf_noteAccess (State.wf_writePlaces h1))
      · exact State.wf_noteAccess (State.wf_writePlaces h1)

theorem wf_execLdc {s : State} {x} (h : s.Wf) : Ans.Wf (execLdc x s) := wf_issue h fun _ => by
  dsimp only
  split
  · split
    · trivial
    · split
      · trivial
      · exact Ctx.wf_loadFrom h
  · split
    · trivial
    · split
      · trivial
      · exact Ctx.wf_loadFrom h

theorem wf_execSld {s : State} {x} (h : s.Wf) : Ans.Wf (execSld x s) := wf_issue h fun _ => by
  dsimp only
  split
  · trivial
  · split
    · trivial
    · exact Ctx.wf_hb (Ctx.wf_noteAll h)

/-- Full/empty words marked where they are read or written. -/
theorem State.wf_markFull {s : State} {chip t o} {v : Byte} (h : s.Wf) : (s.updTask chip t fun u => { u with full := Mem.set u.full o v }).Wf :=
  State.wf_updTask h fun _ ht => Task.wf_withFull ht (Mem.wf_set o v (Task.wf_full ht))

theorem Ctx.wf_ldf {c : Ctx} {s : State} (h : s.Wf) : (c.ldf s).Wf := by
  unfold Ctx.ldf
  split
  · trivial
  · dsimp only
    split
    · trivial
    · split
      · trivial
      · have hread {f : State → Fin 32 → State} (hf : ∀ t i, t.Wf → (f t i).Wf) {ps} :
            ((lanesOf c.active).foldl f (c.atomicAll s c.active ps { read := true })).Wf := State.wf_foldl (Ctx.wf_atomicAll h) hf
        change State.Wf (if _ then _ else _)
        split
        · exact hread fun t i ht => by split <;> [exact Ctx.wf_hb ht; exact ht]
        · refine State.wf_foldl (hread fun t i ht => by split <;> [exact Ctx.wf_hb ht; exact ht]) fun t i ht => ?_
          split
          · exact State.wf_markFull (Ctx.wf_hb ht)
          · exact ht

theorem wf_execLdf {s : State} {x} (h : s.Wf) : Ans.Wf (execLdf x s) := by
  have hissue : Ans.Wf (issue s (.ldf x) x Ctx.ldf) := wf_issue h fun _ => Ctx.wf_ldf h
  unfold execLdf
  split
  · have ht := Ans.wf_of_next hissue ‹_›
    split
    · exact State.wf_orphanTest ht
    · exact ht
  · exact hissue

theorem wf_execStf {s : State} {x} (h : s.Wf) : Ans.Wf (execStf x s) := wf_issue h fun c => by
  split
  · trivial
  · refine Ctx.wf_atomicAll (State.wf_foldl h fun t i ht => ?_)
    split
    · exact State.wf_markFull (State.wf_writePlaces (Ctx.wf_hb ht))
    · exact ht

theorem wf_execTestf {s : State} {x} (h : s.Wf) : Ans.Wf (execTestf x s) := wf_issue h fun _ => by
  split
  · trivial
  · extract_lets +onlyGivenNames _ s1
    have hs1 : s1.Wf := by
      unfold s1
      refine State.wf_foldl h fun _ _ h1 => ?_
      split
      · exact Ctx.wf_hb h1
      · exact h1
    exact Ctx.wf_test (Ctx.wf_atomicAll hs1)

theorem State.wf_rmw {s : State} {ps new} (h : s.Wf) : (s.rmw ps new).2.2.Wf := by
  unfold State.rmw
  dsimp only
  split
  · exact State.wf_writePlaces h
  · exact h

theorem Ctx.wf_atomics {c : Ctx} {s : State} {n scope ord new fetch} (h : s.Wf) : (c.atomics s n scope ord new fetch).Wf := by
  unfold Ctx.atomics
  split
  · trivial
  · dsimp only
    split
    · trivial
    · split
      · trivial
      · split
        · trivial
        · have hstep (f : State × Lanes Nat → Fin 32 → State × Lanes Nat) (hf : ∀ r i, r.1.Wf → (f r i).1.Wf) {v} :
              ((lanesOf c.active).foldl f (s, v)).1.Wf := State.wf_foldl_fst h hf
          split <;> exact hstep _ fun r i hr => Ctx.wf_hb (State.wf_noteAccess (State.wf_rmw hr))

theorem wf_execFence {s : State} {x} (h : s.Wf) : Ans.Wf (execFence x s) := wf_issue h fun _ => by
  dsimp only
  split
  · trivial
  · trivial
  · exact State.wf_foldl h fun _ _ h1 => Ctx.wf_hb h1

theorem State.wf_after {s : State} {e : State → Ans} (h : s.Wf) (he : (e s).Wf) : (s.after e).Wf := by
  unfold State.after
  split
  · exact Ans.wf_of_next he ‹_›
  · exact h

theorem State.wf_released {s : State} {g m} (h : s.Wf) : (s.released g m).Wf := State.wf_updGang h

theorem State.wf_endPart {s : State} {g p} {body : Wait → Ctx → State → Res} (h : s.Wf) (hb : ∀ k c t, t.Wf → (body k c t).Wf) :
    State.OptWf (s.endPart g body p) := by
  unfold State.endPart
  split
  · exact State.optWf_none
  · split
    · have hnext := Ans.wf_of_next (wf_issueWith (State.wf_released h) fun c => hb p.2 c _ (State.wf_released h)) ‹_›
      split
      · exact State.optWf_none
      · exact State.optWf_some hnext
    · exact State.optWf_none

theorem State.wf_endWait {s : State} {g lanes kind mine} {body : Wait → Ctx → State → Res} (h : s.Wf)
    (hb : ∀ k c t, t.Wf → (body k c t).Wf) : Ans.Wf (s.endWait g lanes kind mine body) := by
  unfold State.endWait
  split
  · rename_i b _ _
    extract_lets r
    have hr : r.1.Wf := State.wf_foldl_fst h fun r p hr => by
      split
      · split
        · exact State.wf_of_some (State.wf_endPart hr hb) ‹_›
        · exact hr
      · exact hr
    split
    · exact h
    · exact hr
    · exact State.wf_updGang hr
  · exact h

theorem wf_execLdfWaitEnd {s : State} {g lanes} (h : s.Wf) : Ans.Wf (execLdfWaitEnd g lanes s) := State.wf_endWait h fun _ _ _ h1 => Ctx.wf_ldf h1

theorem Ctx.wf_bar {c : Ctx} {s : State} {need} {f : State → BarObj → List Place → Res} (h : s.Wf) (hf : ∀ t b ps, t.Wf → (f t b ps).Wf) :
    (c.bar s need f).Wf := by
  unfold Ctx.bar
  dsimp only
  split
  · trivial
  · split
    · trivial
    · exact hf _ _ _ (Ctx.wf_atomicAll (Ctx.wf_noteAll h))

theorem wf_execBarInit {s : State} {x} (h : s.Wf) : Ans.Wf (execBarInit x s) :=
  wf_issue h fun _ => Ctx.wf_bar h fun _ _ _ h1 => Ctx.wf_hb (State.wf_writePlaces h1)

theorem wf_execBarArrive {s : State} {x} (h : s.Wf) : Ans.Wf (execBarArrive x s) := wf_issue h fun _ => by
  refine Ctx.wf_bar h fun _ _ _ h1 => ?_
  split
  · trivial
  · exact Ctx.wf_value (State.wf_foldl (State.wf_writePlaces h1) fun _ _ h2 => Ctx.wf_hb h2)

theorem wf_execBarExpect {s : State} {x} (h : s.Wf) : Ans.Wf (execBarExpect x s) := wf_issue h fun _ => by
  dsimp only
  split
  · trivial
  · split
    · trivial
    · refine Ctx.wf_bar h fun _ _ _ h1 => ?_
      split
      · trivial
      · exact State.wf_writePlaces h1

theorem Ctx.wf_barAcquire {c : Ctx} {s : State} {m ps} (h : s.Wf) : (c.barAcquire s m ps).Wf := State.wf_foldl h fun _ _ h1 => Ctx.wf_hb h1

theorem Ctx.wf_barWait {c : Ctx} {s : State} (h : s.Wf) : (c.barWait s).Wf := by
  unfold Ctx.barWait
  refine Ctx.wf_bar h fun _ _ _ h1 => ?_
  split
  · exact Ctx.wf_barAcquire h1
  · trivial

theorem wf_execBarWaitEnd {s : State} {g lanes} (h : s.Wf) : Ans.Wf (execBarWaitEnd g lanes s) :=
  State.wf_endWait h fun _ _ _ h1 => Ctx.wf_barWait h1

theorem wf_execBarTest {s : State} {x} (h : s.Wf) : Ans.Wf (execBarTest x s) :=
  wf_issue h fun _ => Ctx.wf_bar h fun _ _ _ h1 => Ctx.wf_test (Ctx.wf_barAcquire h1)

theorem Task.wf_advance {t : Task} {n} (ht : t.Wf) : (t.advance n).Wf := ht

theorem Task.wf_finish {t : Task} {n ticket} (ht : t.Wf) : (t.finish n ticket).Wf := Task.wf_advance ht

theorem Ctx.wf_tlwait {c : Ctx} {s : State} (h : s.Wf) : (c.tlwait s).Wf := by
  unfold Ctx.tlwait
  dsimp only
  split
  · split
    · exact h
    · exact State.wf_foldl h fun _ _ h1 => Ctx.wf_hb h1
  · trivial

theorem wf_execTlwaitEnd {s : State} {g lanes} (h : s.Wf) : Ans.Wf (execTlwaitEnd g lanes s) := State.wf_endWait h fun _ _ _ h1 => Ctx.wf_tlwait h1

theorem Chip.wf_unbindAll {c : Chip} {e} (hc : c.Wf) : (c.unbindAll e).Wf :=
  Chip.wf_withTasks hc (List.forall_mem_map.mpr fun t ht => (Chip.wf_tasks hc t ht :))

theorem Ctx.wf_writeScope {c : Ctx} {s : State} {e mask hostif fabif} (h : s.Wf) : (c.writeScope s e mask hostif fabif).Wf := by
  unfold Ctx.writeScope
  split
  · exact h
  · have hc := State.wf_chip h ‹_›
    refine State.wf_updGangOf (State.wf_updChip h fun _ _ => ?_)
    split
    · exact (Chip.wf_unbindAll hc :)
    · exact hc

theorem Ctx.wf_record {c : Ctx} {s t : State} {a align n bs} (h : s.Wf) (ht : c.record s a align n = .ok (t, bs)) : t.Wf := by
  unfold Ctx.record at ht
  split at ht
  · cases ht
  · dsimp only at ht
    split at ht
    · cases ht
    · cases ht
      exact Ctx.wf_noteAll h

theorem wf_execScopew {s : State} {x} (h : s.Wf) : Ans.Wf (execScopew x s) := wf_issue h fun c => by
  dsimp only
  split
  · trivial
  · split
    · trivial
    · split
      · trivial
      · have ht := Ctx.wf_record h ‹_›
        split
        · trivial
        · exact Ctx.wf_writeScope ht

theorem wf_execScoperet {s : State} {x} (h : s.Wf) : Ans.Wf (execScoperet x s) := wf_issue h fun _ => by
  dsimp only
  split
  · trivial
  · exact Ctx.wf_writeScope h

theorem wf_execScopebind {s : State} {x} (h : s.Wf) : Ans.Wf (execScopebind x s) := wf_issue h fun _ => by
  dsimp only
  split
  · trivial
  · exact State.wf_updGangOf h

theorem wf_execScopeq {s : State} {x} (h : s.Wf) : Ans.Wf (execScopeq x s) := wf_issue h fun _ => by
  dsimp only
  split
  · trivial
  · exact Ctx.wf_value h

end Sys2Proof.Machine
end

section
/-! SUPPORT. The engines of a core and of a die keep memories canonical: tickets, arrays, drains, array images, quantisation, Lovage. -/

namespace Sys2Proof.Machine

theorem Ctx.wf_issueBy {c : Ctx} {s : State} {counter} (h : s.Wf) : (c.issueBy s counter).2.Wf := by
  unfold Ctx.issueBy
  extract_lets lane a num gang by_ t
  have ht : t.Wf := Ctx.wf_hb h
  split
  · split
    · have hu := State.wf_task ht ‹_›
      refine State.wf_updTask ht fun _ _ => ?_
      cases counter <;> exact hu
    · exact ht
  · split
    · exact State.wf_updChip ht fun _ => id
    · exact ht

theorem State.wf_finishOp {s : State} {chip task n b} (h : s.Wf) : (s.finishOp chip task n b).Wf := by
  unfold State.finishOp
  split
  · exact State.wf_updChip h fun _ => id
  · exact State.wf_updChip (State.wf_updTask h fun _ ht => Task.wf_finish ht) fun _ => id

theorem State.wf_stopService {s : State} {chip b t} (h : s.Wf) : (s.stopService chip b t).Wf := by
  unfold State.stopService
  split
  · exact h
  · extract_lets +onlyGivenNames _ s1 s2
    have hs1 : s1.Wf := State.wf_updChip h fun _ => id
    have hs2 : s2.Wf := by
      unfold s2
      split
      · exact State.wf_endRoutine hs1
      · exact hs1
    exact hs2

theorem State.wf_engineFault {s : State} {chip task b t} (h : s.Wf) : (s.engineFault chip task b t).Wf := by
  unfold State.engineFault
  split
  · exact State.wf_stopService h
  · split
    · exact h
    · split
      · exact h
      · exact State.wf_endTask h

theorem State.wf_engineWrite {s : State} {ps bs} (h : s.Wf) : (s.engineWrite ps bs).Wf :=
  State.wf_foldl (State.wf_writeBytes h) fun _ _ h1 => State.wf_endSequence h1

theorem State.wf_holdArray {s : State} {core chip task} (h : s.Wf) : State.OptWf (s.holdArray core chip task) := by
  unfold State.holdArray
  split
  · split
    · exact State.optWf_some h
    · exact State.optWf_none
  · exact State.optWf_some (State.wf_updCore h)

theorem State.wf_updArr {s : State} {chip task} {f : Arr → Arr} (h : s.Wf) (hf : ∀ a, a.Wf → (f a).Wf) : (s.updArr chip task f).Wf :=
  State.wf_updTask h fun _ ht => Task.wf_withArr ht (hf _ (Task.wf_arr ht))

theorem Ctx.wf_enqueue {c : Ctx} {s : State} {counter mk} (h : s.Wf) : (c.enqueue s counter mk).Wf := by
  unfold Ctx.enqueue
  split
  · trivial
  · split
    · trivial
    · split
      · trivial
      · split
        · trivial
        · exact State.wf_updArr (Ctx.wf_issueBy (State.wf_of_some (State.wf_holdArray h) ‹_› :)) fun _ => id

theorem Ctx.wf_forward {c : Ctx} {s : State} {k} (h : s.Wf) : (c.forward s k).Wf := by
  unfold Ctx.forward
  split
  · trivial
  · dsimp only
    split
    · trivial
    · split
      · trivial
      · exact State.wf_updDev (Ctx.wf_hold h)

theorem Ctx.wf_served {c : Ctx} {s : State} {k} (h : s.Wf) : (Ctx.served k c s).Wf := by
  unfold Ctx.served
  split
  · exact Ctx.wf_value h
  · trivial

theorem wf_execRetiredOperation {s : State} {k x} (h : s.Wf) : Ans.Wf (execRetiredOperation k x s) := wf_issue h fun _ => Ctx.wf_forward h

theorem State.wf_serveLovage {s : State} {e} (h : s.Wf) : (s.serveLovage e).Wf := by
  unfold State.serveLovage
  split
  · split
    · exact State.wf_after h (State.wf_endWait h fun _ _ _ h1 => Ctx.wf_served h1)
    · exact h
  · exact h

theorem State.wf_lovageStep {s : State} {dev die} (h : s.Wf) : (s.lovageStep dev die).Wf := by
  unfold State.lovageStep
  split
  · exact State.wf_serveLovage (State.wf_updDev h)
  · exact h

theorem wf_execLovageService {s : State} {dev die} (h : s.Wf) : Ans.Wf (execLovageService dev die s) := by
  unfold execLovageService
  split
  · exact h
  · exact State.wf_lovageStep h

theorem State.wf_serveUntil {s : State} {dev die g n} (h : s.Wf) : (s.serveUntil dev die g n).Wf := by
  induction n generalizing s with
  | zero => exact h
  | succ n ih =>
    unfold State.serveUntil
    split
    · exact ih (State.wf_lovageStep h)
    · exact h

theorem State.wf_answerLovage {s : State} {g} (h : s.Wf) : (s.answerLovage g).Wf := by
  unfold State.answerLovage
  split
  · exact h
  · exact State.wf_serveUntil h

theorem wf_execWld {s : State} {x} (h : s.Wf) : Ans.Wf (execWld x s) := wf_issue h fun _ => by
  dsimp only
  split
  · trivial
  · split
    · trivial
    · exact Ctx.wf_enqueue h

theorem wf_execWsel {s : State} {x} (h : s.Wf) : Ans.Wf (execWsel x s) := wf_issue h fun _ => by
  dsimp only
  split
  · trivial
  · exact Ctx.wf_enqueue h

theorem Ctx.wf_mma {c : Ctx} {s : State} {moment} (h : s.Wf) : (c.mma s moment).Wf := by
  unfold Ctx.mma
  dsimp only
  split
  · trivial
  · exact Ctx.wf_enqueue h

theorem wf_execAclr {s : State} {x} (h : s.Wf) : Ans.Wf (execAclr x s) := wf_issue h fun _ => by
  dsimp only
  split
  · trivial
  · exact Ctx.wf_enqueue h

theorem State.wf_matrixFault {s : State} {chip task m detail addr} (h : s.Wf) : (s.matrixFault chip task m detail addr).Wf :=
  State.wf_updArr (State.wf_engineFault h) fun _ => id

/-! ### Arrays -/

/-- The task that holds the array of a core. -/
theorem State.wf_of_holderOf {s : State} {core k t u} (h : s.Wf) (hu : s.holderOf core = some (k, t, u)) : u.Wf := by
  unfold State.holderOf at hu
  split at hu
  · obtain ⟨v, hv, hu⟩ := Option.bind_eq_some_iff.mp hu
    obtain ⟨-, e⟩ := Option.ite_none_right_eq_some.mp hu
    cases e
    exact State.wf_task h hv
  · cases hu

/-- A latch of a slot is cut out of the weight buffer. -/
theorem Arr.wf_latchSlot {a : Arr} {n} (ha : a.Wf) : ∀ l ∈ a.latchSlot n, Mem.wf l.block = true := by
  intro l hl
  obtain ⟨e, -, rfl⟩ := Option.map_eq_some_iff.mp hl
  exact Mem.wf_slice _ _ ha.wbuf

theorem Arr.wf_withLatch {a : Arr} {l : Option Latch} (ha : a.Wf) (hl : ∀ x ∈ l, Mem.wf x.block = true) : ({ a with latch := l } : Arr).Wf :=
  ⟨ha.tiles, ha.wbuf, hl⟩

theorem Arr.wf_passLatch {a : Arr} {f} (ha : a.Wf) : ∀ l ∈ a.passLatch f, Mem.wf l.block = true := by
  unfold Arr.passLatch
  dsimp only
  split
  · exact Arr.wf_latchSlot ha
  · exact ha.latch

theorem wf_passRow {mem : Mem} {a : Arr} {f c moment w} (ha : a.Wf) : Mem.wf (passRow mem a f c moment w) = true :=
  List.foldlRecOn (motive := fun m => Mem.wf m = true) _ _ ha.tiles fun m hm n _ => by
    dsimp only
    split
    · exact Mem.wf_store _ _ _ (Mem.wf_store _ _ _ hm)
    · exact Mem.wf_store _ _ _ hm

theorem Arr.wf_endRow {a : Arr} {mem f c w} (ha : a.Wf) {l : Option Flight} : ({ (a.endRow mem f c w).1 with flight := l } : Arr).Wf :=
  ⟨wf_passRow ha, ha.wbuf, ha.latch⟩

theorem Task.wf_runRow {u : Task} {a b : Arr} {f} (ha : a.Wf) (hb : u.runRow a f = .ok b) : b.Wf := by
  unfold Task.runRow at hb
  dsimp only at hb
  split at hb
  · cases hb
  · split at hb
    · cases hb
    · rename_i l hl
      split at hb
      · cases hb
      · have hstart := Arr.wf_withLatch ha (l := some l) fun x hx => Arr.wf_passLatch ha x (Option.mem_some.mp hx ▸ hl)
        split at hb
        · cases hb
          exact ⟨hstart.tiles, hstart.wbuf, hstart.latch⟩
        · cases hb
          split
          · exact Arr.wf_endRow (Arr.wf_endRow hstart)
          · exact Arr.wf_endRow hstart

theorem wf_execWldExecute {s : State} {core} (h : s.Wf) : Ans.Wf (execWldExecute core s) := by
  unfold execWldExecute
  split
  · exact h
  · split
    · exact h
    · dsimp only
      split
      · exact State.wf_matrixFault h
      · split
        · exact State.wf_matrixFault h
        · split
          · exact State.wf_matrixFault h
          · split
            · exact State.wf_matrixFault h
            · exact State.wf_updArr h fun a ha => ⟨ha.tiles, Mem.wf_paste _ _ _ ha.wbuf, ha.latch⟩

theorem wf_execWselLatch {s : State} {core} (h : s.Wf) : Ans.Wf (execWselLatch core s) := by
  unfold execWselLatch
  split
  · exact h
  · have hu := State.wf_of_holderOf h ‹_›
    split
    · exact h
    · split
      · exact State.wf_matrixFault h
      · rename_i l hl
        exact State.wf_updArr h fun a ha =>
          ⟨ha.tiles, ha.wbuf, fun x hx => Arr.wf_latchSlot (Task.wf_arr hu) x (Option.mem_some.mp hx ▸ hl)⟩

theorem wf_execAclrExecute {s : State} {core} (h : s.Wf) : Ans.Wf (execAclrExecute core s) := by
  unfold execAclrExecute
  split
  · exact h
  · split
    · exact h
    · exact State.wf_updArr h fun a ha => ⟨Mem.wf_clear _ _ ha.tiles, ha.wbuf, ha.latch⟩

theorem Task.wf_stopArr {u : Task} (hu : u.Wf) : u.stopArr.Wf := by
  unfold Task.stopArr
  dsimp only
  split
  · exact Task.wf_arr hu
  · split <;> exact Task.wf_arr hu
  · exact Task.wf_arr hu

theorem wf_execMmaPass {s : State} {core} (h : s.Wf) : Ans.Wf (execMmaPass core s) := by
  unfold execMmaPass
  split
  · exact h
  · rename_i k t u hholder
    have hu := State.wf_of_holderOf h hholder
    extract_lets at_
    clear_value at_
    split
    · exact h
    · split
      · exact State.wf_matrixFault h
      · have harr := Task.wf_arr hu
        rename_i q _ a hrow
        have hq : Arr.Wf { u.arr with queue := q } := ⟨harr.tiles, harr.wbuf, harr.latch⟩
        have ha : a.Wf := Task.wf_runRow hq hrow
        exact State.wf_updArr h fun _ _ => ha

theorem wf_execMatrixCommandComplete {s : State} {core} (h : s.Wf) : Ans.Wf (execMatrixCommandComplete core s) := by
  unfold execMatrixCommandComplete
  split
  · exact h
  · split
    · split
      · extract_lets +onlyGivenNames s1 s2
        have hs1 : s1.Wf := State.wf_updArr h fun _ => id
        have hs2 : s2.Wf := by
          unfold s2
          split
          · exact State.wf_finishOp hs1
          · exact hs1
        exact State.wf_updChip hs2 fun _ => id
      · exact h
    · exact h

theorem wf_execEpld {s : State} {x} (h : s.Wf) : Ans.Wf (execEpld x s) := wf_issue h fun _ => by
  dsimp only
  split
  · trivial
  · split
    · trivial
    · split
      · trivial
      · exact Ctx.wf_enqueue h

theorem wf_execEpldLoad {s : State} {core} (h : s.Wf) : Ans.Wf (execEpldLoad core s) := by
  unfold execEpldLoad
  split
  · exact h
  · split
    · exact h
    · dsimp only
      split
      · exact State.wf_updArr (State.wf_engineFault h) fun _ => id
      · split
        · exact State.wf_matrixFault h
        · exact State.wf_updArr (State.wf_noteAccess h) fun _ => id

theorem wf_execAdrn {s : State} {x} (h : s.Wf) : Ans.Wf (execAdrn x s) := wf_issue h fun _ => by
  dsimp only
  split
  · trivial
  · exact Ctx.wf_enqueue h

/-! ### Drains -/

theorem wf_setScale {m : Mem} {base i code} (h : Mem.wf m = true) : Mem.wf (setScale m base i code) = true := Mem.wf_store _ _ _ h

theorem wf_putBits {m : Mem} {base w codes} (h : Mem.wf m = true) : Mem.wf (putBits m base w codes) = true := Mem.wf_write _ _ h

theorem wf_estr {m : Mem} {d row layout a b} (h : Mem.wf m = true) : Mem.wf (estr m d row layout a b) = true := by
  unfold estr
  dsimp only
  split
  case h_8 => exact List.foldlRecOn (motive := fun m => Mem.wf m = true) _ _ h fun m hm j _ => wf_setScale hm
  all_goals exact wf_putBits h

theorem wf_runProgram {m : Mem} {d row ws r} (h : Mem.wf m = true) : Mem.wf (runProgram d row ws r m) = true := by
  induction ws generalizing m r with
  | nil => exact h
  | cons w ws ih =>
    unfold runProgram
    dsimp only
    split
    · exact h
    · split
      · exact ih (wf_estr h)
      · exact ih h

theorem wf_plainRow {m : Mem} {a d tile row} (h : Mem.wf m = true) : Mem.wf (plainRow a d tile row m) = true := by
  unfold plainRow
  dsimp only
  split <;> exact wf_putBits h

theorem wf_execDrain {s : State} {core} (h : s.Wf) : Ans.Wf (execDrain core s) := by
  unfold execDrain
  split
  · exact h
  · have hu := State.wf_of_holderOf h ‹_›
    extract_lets at_
    clear_value at_
    split
    · exact h
    · extract_lets d
      split
      · exact State.wf_matrixFault h
      · refine State.wf_updTask h fun v hv => Task.wf_iff.mpr ⟨?_, (Task.wf_full hv :), ?_⟩
        · change Mem.wf (if _ then _ else _) = true
          split
          · exact wf_runProgram (Task.wf_scratch hu)
          · exact wf_plainRow (Task.wf_scratch hu)
        · have harr := Task.wf_arr hu
          refine ⟨?_, harr.wbuf, harr.latch⟩
          change Mem.wf (if _ then _ else _) = true
          split
          · exact Mem.wf_clear _ _ harr.tiles
          · exact harr.tiles

theorem Task.wf_adopt {t : Task} {taken by_ bs} (ht : t.Wf) : (t.adopt taken by_ bs).2.1.Wf := by
  unfold Task.adopt
  dsimp only
  split
  · exact ht
  · split <;> exact ht

theorem Task.wf_adoptAll {t : Task} {taken by_ entries} (ht : t.Wf) : (t.adoptAll taken by_ entries).2.1.Wf := by
  induction entries generalizing t taken with
  | nil => exact ht
  | cons bs rest ih => exact ih (Task.wf_adopt ht)

theorem Task.wf_restoreArr {t : Task} {taken by_ bs} (ht : t.Wf) : (t.restoreArr taken by_ bs).Wf := by
  unfold Task.restoreArr
  extract_lets nq fl slots entries r flight queue a
  have hr : r.2.1.Wf := Task.wf_adoptAll ht
  have harr := Task.wf_arr hr
  have ha : a.Wf := ⟨harr.tiles, harr.wbuf, harr.latch⟩
  refine Task.wf_withArr hr (Arr.wf_withLatch ha ?_)
  split
  · exact fun _ hl => nomatch hl
  · exact Arr.wf_latchSlot ha

theorem Ctx.wf_imageAccess {c : Ctx} {s t : State} {write ps} (h : s.Wf) (ht : c.imageAccess s write ps = .ok t) : t.Wf := by
  unfold Ctx.imageAccess at ht
  dsimp only at ht
  split at ht
  · cases ht
  · cases ht
    exact Ctx.wf_noteAll h

theorem Ctx.wf_msave {c : Ctx} {s : State} (h : s.Wf) : (c.msave s).Wf := by
  unfold Ctx.msave
  split
  · trivial
  · split
    · trivial
    · have hv := State.wf_holdArray h _ ‹_›
      split
      · trivial
      · split
        · trivial
        · split
          · trivial
          · have hu := Ctx.wf_imageAccess hv ‹_›
            exact State.wf_updArr (Ctx.wf_endSequences (State.wf_writeBytes hu)) fun a ha => ⟨ha.tiles, ha.wbuf, ha.latch⟩
  · trivial

theorem wf_execMsaveDone {s : State} {g lanes} (h : s.Wf) : Ans.Wf (execMsaveDone g lanes s) := State.wf_endWait h fun _ _ _ h1 => Ctx.wf_msave h1

theorem Ctx.wf_mres {c : Ctx} {s : State} (h : s.Wf) : (c.mres s).Wf := by
  unfold Ctx.mres
  split
  · trivial
  · split
    · trivial
    · have hv := State.wf_holdArray h _ ‹_›
      split
      · trivial
      · split
        · trivial
        · split
          · trivial
          · have hu := Ctx.wf_imageAccess hv ‹_›
            dsimp only
            split
            · trivial
            · exact State.wf_updTask (Ctx.wf_issueBy hu) fun _ => Task.wf_restoreArr
  · trivial

theorem wf_execMresDone {s : State} {g lanes} (h : s.Wf) : Ans.Wf (execMresDone g lanes s) := State.wf_endWait h fun _ _ _ h1 => Ctx.wf_mres h1

theorem State.wf_sealTask {s : State} {chip key place} (h : s.Wf) : (s.sealTask chip key place).Wf := by
  unfold State.sealTask
  split
  · exact State.wf_updTask h fun _ => id
  · exact h

theorem State.wf_sealHead {s : State} {chip} (h : s.Wf) : (s.sealHead chip).Wf := by
  unfold State.sealHead
  split
  · exact State.wf_updChip h fun _ => id
  · exact h

theorem State.wf_sealChip {s : State} {chip} (h : s.Wf) : (s.sealChip chip).Wf := by
  unfold State.sealChip
  split
  · split
    · exact State.wf_foldl (State.wf_sealHead h) fun _ _ h1 => State.wf_sealTask h1
    · exact h
  · exact h

theorem State.wf_resealTask {s : State} {chip key} (h : s.Wf) : (s.resealTask chip key).Wf := by
  unfold State.resealTask
  split
  · exact State.wf_sealTask h
  · exact h

theorem wf_execQnt {s : State} {x} (h : s.Wf) : Ans.Wf (execQnt x s) := wf_issue h fun c => by
  dsimp only
  split
  · trivial
  · split
    · trivial
    · have ht := Ctx.wf_record h ‹_›
      split
      · trivial
      · split
        · trivial
        · trivial
        · split
          · trivial
          · exact State.wf_updDev (Ctx.wf_issueBy ht)

theorem State.wf_engineNotes {s : State} {chip task b write rs} (h : s.Wf) : (s.engineNotes chip task b write rs).Wf :=
  State.wf_foldl h fun _ _ h1 => State.wf_noteAccess h1

theorem State.wf_quantPop {s : State} {dev die} (h : s.Wf) : (s.quantPop dev die).Wf := State.wf_updDev h

theorem wf_execQntExecute {s : State} {dev die} (h : s.Wf) : Ans.Wf (execQntExecute dev die s) := by
  unfold execQntExecute
  split
  · split
    · exact h
    · split
      · exact h
      · split
        · exact h
        · split
          · exact State.wf_engineFault (State.wf_quantPop h)
          · exact State.wf_updDev (State.wf_engineNotes h)
  · exact h

theorem wf_execQntComplete {s : State} {dev die} (h : s.Wf) : Ans.Wf (execQntComplete dev die s) := by
  unfold execQntComplete
  split
  · split
    · exact h
    · dsimp only
      split
      · split
        · exact State.wf_engineFault (State.wf_quantPop h)
        · exact State.wf_updChip (State.wf_resealTask (State.wf_finishOp (State.wf_quantPop
            (State.wf_foldl (State.wf_engineNotes h) fun _ _ => State.wf_engineWrite)))) fun _ => id
      · exact h
  · exact h

theorem Ctx.wf_qwait {c : Ctx} {s : State} {mark} (h : s.Wf) : (Ctx.qwait mark c s).Wf := by
  unfold Ctx.qwait
  split
  · trivial
  · dsimp only
    split
    · trivial
    · exact State.wf_foldl h fun _ _ h1 => Ctx.wf_hb h1

theorem wf_execQwaitEnd {s : State} {g lanes} (h : s.Wf) : Ans.Wf (execQwaitEnd g lanes s) := State.wf_endWait h fun _ _ _ h1 => Ctx.wf_qwait h1

end Sys2Proof.Machine
end

section
/-! SUPPORT. The pod keeps memories canonical: tides, packets and what arrives with them. -/

namespace Sys2Proof.Machine

theorem Chip.wf_ask {c : Chip} {va} (hc : c.Wf) : (c.ask va).Wf := hc

theorem Chip.wf_markLeases {c : Chip} {write ls} (hc : c.Wf) : (c.markLeases write ls).Wf := by
  refine Chip.wf_foldl hc fun d l hd => ?_
  split
  · exact hd
  · split
    · exact hd
    · exact Chip.wf_withMem (Chip.wf_touch hd) (Mem.wf_set _ _ (Chip.wf_mem hd))

theorem State.wf_leaseWrite {s : State} {chip ls a bs} (h : s.Wf) : (s.leaseWrite chip ls a bs).Wf := by
  induction bs generalizing s a with
  | nil => exact h
  | cons b bs ih =>
    unfold State.leaseWrite
    split
    · exact ih (State.wf_writeByte h)
    · exact ih h

theorem State.wf_releaseStore {s : State} {chip a bs clock} (h : s.Wf) : (s.releaseStore chip a bs clock).Wf := by
  unfold State.releaseStore
  refine State.wf_updChip (State.wf_devWrite h) fun _ hc => ?_
  split <;> exact hc

theorem State.wf_tidalWrite {s : State} {chip vchip r off width value} (h : s.Wf) : (s.tidalWrite chip vchip r off width value).Wf := by
  unfold State.tidalWrite
  split
  · exact h
  · exact State.wf_updChip h fun _ => id

theorem Ctx.wf_tidal {c : Ctx} {s : State} {n ok} {write : State → PodAddr → Region → Nat → State} (h : s.Wf)
    (hw : ∀ t p r v, t.Wf → (write t p r v).Wf) : (c.tidal s n ok write).Wf := by
  unfold Ctx.tidal
  dsimp only
  split
  · trivial
  · split
    · trivial
    · split
      · trivial
      · refine State.wf_foldl h fun t i ht => ?_
        split
        · exact hw _ _ _ _ ht
        · exact ht

theorem wf_execTst {s : State} {x} (h : s.Wf) : Ans.Wf (execTst x s) := wf_issue h fun _ => by
  dsimp only
  refine Ctx.wf_tidal h fun _ _ _ _ h1 => ?_
  split
  · exact State.wf_tidalWrite (State.wf_tidalWrite h1)
  · exact State.wf_tidalWrite h1

theorem wf_execTred {s : State} {x} (h : s.Wf) : Ans.Wf (execTred x s) :=
  wf_issue h fun _ => Ctx.wf_tidal h fun _ _ _ _ h1 => State.wf_tidalWrite h1

theorem Ctx.wf_closeTide {c : Ctx} {s : State} (h : s.Wf) : (c.closeTide s).Wf := by
  unfold Ctx.closeTide
  split
  · exact h
  · exact State.wf_foldl (State.wf_updChip h fun _ => id) fun _ _ h1 => Ctx.wf_hb h1

theorem Ctx.wf_tideClose {c : Ctx} {s : State} (h : s.Wf) : (c.tideClose s).Wf := by
  unfold Ctx.tideClose
  split
  · exact h
  · dsimp only
    split
    · exact h
    · split
      · split
        · exact h
        · split
          · trivial
          · exact Ctx.wf_closeTide h
      · split <;> trivial

theorem wf_execTideCloseUnblock {s : State} {g lanes} (h : s.Wf) : Ans.Wf (execTideCloseUnblock g lanes s) :=
  State.wf_endWait h fun _ _ _ h1 => Ctx.wf_tideClose h1

theorem Ctx.wf_tideWait {c : Ctx} {s : State} (h : s.Wf) : (c.tideWait s).Wf := by
  unfold Ctx.tideWait
  split
  · exact h
  · dsimp only
    split
    · exact State.wf_foldl h fun _ _ h1 => Ctx.wf_hb h1
    · trivial

theorem wf_execTideWaitEnd {s : State} {g lanes} (h : s.Wf) : Ans.Wf (execTideWaitEnd g lanes s) :=
  State.wf_endWait h fun _ _ _ h1 => Ctx.wf_tideWait h1

theorem wf_execTideQuery {s : State} {x} (h : s.Wf) : Ans.Wf (execTideQuery x s) := wf_issue h fun _ => by
  split
  · exact h
  · extract_lets +onlyGivenNames _ s1
    have hs1 : s1.Wf := by
      unfold s1
      split
      · exact State.wf_updChip h fun _ => id
      · exact h
    exact Ctx.wf_value hs1

theorem wf_execRld {s : State} {x} (h : s.Wf) : Ans.Wf (execRld x s) := wf_issue h fun _ => by
  dsimp only
  split
  · trivial
  · trivial
  · split
    · trivial
    · exact h

theorem wf_execRatom {s : State} {x} (h : s.Wf) : Ans.Wf (execRatom x s) := wf_issue h fun _ => by
  dsimp only
  split
  · trivial
  · trivial
  · split
    · trivial
    · refine State.wf_foldl h fun _ _ h1 => ?_
      split
      · exact h1
      · split
        · exact h1
        · split
          · exact State.wf_foldl h1 fun _ _ h2 => Ctx.wf_hb h2
          · exact h1

theorem State.wf_countDiscard {s : State} {dev} (h : s.Wf) : (s.countDiscard dev).Wf := State.wf_updDev h

theorem State.wf_noRoute {s : State} {g id} (h : s.Wf) : (s.noRoute g id).Wf := by
  unfold State.noRoute
  split
  · split
    · exact h
    · exact State.wf_endTask h
  · exact h

theorem State.wf_dropPacket {s : State} {k} (h : s.Wf) : (s.dropPacket k).Wf := h

theorem State.wf_discarded {s : State} {p dev} (h : s.Wf) : (s.discarded p dev).Wf := by
  unfold State.discarded
  have hs : (s.countDiscard dev).Wf := State.wf_countDiscard h
  dsimp only
  split
  case h_1 | h_2 | h_3 => exact State.wf_noRoute hs
  case h_4 | h_5 =>
    split
    · exact State.wf_engineFault hs
    · exact hs
  case h_6 => exact hs

theorem State.wf_discard {s : State} {k p dev} (h : s.Wf) : (s.discard k p dev).Wf := State.wf_discarded (State.wf_dropPacket h)

theorem State.wf_accept {s : State} {p} (h : s.Wf) : (s.accept p).Wf := by
  unfold State.accept
  split
  · split
    · exact State.wf_updDev h
    · exact h
  · exact h

theorem State.wf_depart {s : State} {p} (h : s.Wf) : (s.depart p).Wf := h

theorem State.wf_backAtSender {s : State} {ps} (h : s.Wf) : (s.backAtSender ps).Wf := h

theorem Chip.wf_freeOutbound {c : Chip} {m} (hc : c.Wf) : (c.freeOutbound m).Wf := hc

theorem State.wf_freePlace {s : State} {p} (h : s.Wf) : (s.freePlace p).Wf := by
  unfold State.freePlace
  split
  · exact State.wf_updChip h fun _ hc => Chip.wf_freeOutbound hc
  · exact h

theorem State.wf_passAt {s : State} {k} (h : s.Wf) : (s.passAt k).Wf := by
  unfold State.passAt
  split
  · exact h
  · dsimp only
    split <;> exact h

theorem State.wf_passOn {s : State} (h : s.Wf) : (s.passOn).Wf := State.wf_foldl h fun _ _ h1 => State.wf_passAt h1

theorem State.wf_leave {s : State} {p} (h : s.Wf) : State.OptWf (s.leave p) := by
  unfold State.leave
  dsimp only
  split
  · exact State.optWf_none
  · split
    · exact State.optWf_some (State.wf_freePlace (State.wf_discarded h))
    · split
      · exact State.optWf_none
      · split
        · exact State.optWf_none
        · split
          · exact State.optWf_some (State.wf_freePlace (State.wf_discarded h))
          · split
            · exact State.optWf_none
            · refine State.optWf_some ?_
              refine State.wf_depart ?_
              split
              · exact State.wf_updDev h
              · exact h

theorem wf_execPacketDeparture {s : State} {k} (h : s.Wf) : Ans.Wf (execPacketDeparture k s) := by
  have hleave (ps : List Packet) (t : State) (ht : t.Wf) : State.OptWf (ps.foldlM State.leave t) := by
    induction ps generalizing t with
    | nil => exact State.optWf_some ht
    | cons p ps ih =>
      intro u hu
      obtain ⟨v, hv, hu⟩ := Option.bind_eq_some_iff.mp hu
      exact ih v (State.wf_leave ht v hv) u hu
  unfold execPacketDeparture
  split
  · exact h
  · dsimp only
    split
    · exact h
    · split
      · exact hleave _ _ (State.wf_dropPacket (State.wf_passOn h)) _ ‹_›
      · exact h

/-- A packet that lands in a slot that does not hold its chip is discarded. -/
theorem State.wf_of_lost {s t : State} {k ok p} (h : s.Wf) (ht : s.landing k ok = .lost p t) : t.Wf := by
  unfold State.landing at ht
  split at ht
  · cases ht
  · dsimp only at ht
    split at ht
    · cases ht
    · have hlost (q : Packet) (n : Nat) : ((s.discard k q n).freePlace q).Wf := State.wf_freePlace (State.wf_discard h)
      split at ht
      · split at ht <;> cases ht
        exact hlost _ _
      · cases ht
        exact hlost _ _

/-- The chip at which a packet lands. -/
theorem State.wf_received {s : State} {k standing} (h : s.Wf) : (s.received k standing).Wf := by
  unfold State.received
  split
  · exact h
  · extract_lets +onlyGivenNames t
    have ht : t.Wf := by
      unfold t
      split
      · exact h
      · exact State.wf_accept h
    exact ht

theorem State.wf_delivered {s : State} {k} (h : s.Wf) : (s.delivered k).Wf := State.wf_received h

theorem State.wf_refuse {s : State} {k p} (h : s.Wf) : (s.refuse k p).Wf := State.wf_backAtSender h

theorem wf_execTidalWriteArrival {s : State} {k} (h : s.Wf) : Ans.Wf (execTidalWriteArrival k s) := by
  unfold execTidalWriteArrival
  split
  · exact h
  · exact State.wf_of_lost h ‹_›
  · split
    · split
      · exact State.wf_refuse h
      · split
        · exact State.wf_delivered h
        · exact State.wf_updChip (State.wf_delivered h) fun _ => id
    · exact h

theorem wf_execCloseRecordArrival {s : State} {k} (h : s.Wf) : Ans.Wf (execCloseRecordArrival k s) := by
  unfold execCloseRecordArrival
  split
  · exact h
  · exact State.wf_of_lost h ‹_›
  · split
    · split
      · exact State.wf_delivered h
      · exact State.wf_updChip (State.wf_delivered h) fun _ => id
    · exact h

theorem State.wf_serveRead {s : State} {k p key c} (h : s.Wf) : (s.serveRead k p key c).Wf := by
  unfold State.serveRead
  split
  · exact h
  · extract_lets f r t
    have hr : r.2.Wf := by
      unfold r
      split
      · exact h
      · exact h
      · exact State.wf_freeBytes h
    have ht : t.Wf := State.wf_received hr
    exact ht

theorem wf_execRldServe {s : State} {k} (h : s.Wf) : Ans.Wf (execRldServe k s) := by
  unfold execRldServe
  extract_lets due
  split
  · exact State.wf_of_lost h ‹_›
  · split
    · exact State.wf_serveRead h
    · exact State.wf_received h
  · split
    · split
      · split
        · exact State.wf_serveRead h
        · exact h
      · exact h
    · exact h

theorem State.wf_podRace {s : State} {k g id m write a e} (h : s.Wf) : (s.podRace k g id m write a e).Wf := by
  unfold State.podRace
  extract_lets +onlyGivenNames s1
  have hs1 : s1.Wf := State.wf_dropPacket h
  split
  · exact hs1
  · split
    · exact hs1
    · exact State.wf_faultGang (State.wf_updGang hs1)

theorem wf_execMailboxAtomicArrival {s : State} {k} (h : s.Wf) : Ans.Wf (execMailboxAtomicArrival k s) := by
  unfold execMailboxAtomicArrival
  split
  · exact h
  · exact State.wf_of_lost h ‹_›
  · split
    · extract_lets n r0 t0 actor mine
      split
      · have hr : r0.2.Wf := by
          refine State.wf_foldl_snd ?_ fun _ _ ht => ?_
          · exact h
          · exact ht
        have ht : t0.Wf := State.wf_delivered hr
        exact ht
      · extract_lets ps r write t addrs seq u seen
        have ht : t.Wf := by
          refine State.wf_noteAccess ?_
          split
          · exact State.wf_writePlaces (State.wf_delivered h)
          · exact State.wf_delivered h
        have hu : u.Wf := by
          unfold u
          split
          · exact State.wf_updChip ht fun _ => id
          · exact ht
        split
        · split
          · exact h
          · exact State.wf_podRace h
        · exact hu
    · exact h

theorem State.wf_fillFrame {s : State} {g frame p vals} (h : s.Wf) : (s.fillFrame g frame p vals).Wf := by
  unfold State.fillFrame
  split
  · exact h
  · extract_lets base t
    have ht : t.Wf := State.wf_foldl h fun _ _ => State.wf_leaseWrite
    split
    · exact State.wf_leaseWrite ht
    · exact ht

theorem wf_execDeliveryAcknowledgement {s : State} {k} (h : s.Wf) : Ans.Wf (execDeliveryAcknowledgement k s) := by
  unfold execDeliveryAcknowledgement
  split
  · split
    · exact State.wf_dropPacket h
    · exact h
  · exact h

theorem Turn.wf_elem {t : Turn} {chip n e} (h : t.s.Wf) : (t.elem chip n e).s.Wf := by
  unfold Turn.elem
  split
  · exact h
  · dsimp only
    split
    · have hput (ps v) : (t.s.writePlaces ps v).Wf := State.wf_writePlaces h
      split
      case h_1 => split <;> exact hput _ _
      case h_2 | h_3 | h_4 | h_5 => exact hput _ _
      case h_6 =>
        split
        · exact h
        · split
          · exact hput _ _
          · split <;> exact hput _ _
    · exact h

theorem State.wf_conflict {s : State} {chip r} (h : s.Wf) : (s.conflict chip r).Wf := by
  unfold State.conflict
  split
  · exact h
  · split
    · exact State.wf_updChip h fun _ => id
    · exact State.wf_updChip (State.wf_devWrite h) fun _ => id

theorem Chip.wf_applyStaged {c : Chip} (hc : c.Wf) : (c.applyStaged).Wf := Chip.wf_foldl hc fun _ _ hc1 => Chip.wf_markLeases hc1

theorem State.wf_turn {s : State} {chip c} (h : s.Wf) : (s.turn chip c).Wf := by
  unfold State.turn
  extract_lets n s1 t s2 s3
  have ht : t.s.Wf := List.foldlRecOn (motive := fun t : Turn => t.s.Wf) _ _ (State.wf_of_eq h rfl rfl) fun t ht e _ => Turn.wf_elem ht
  have hs2 : s2.Wf := State.wf_foldl ht fun _ _ hs => by split <;> [exact hs; exact State.wf_releaseStore hs]
  have hs3 : s3.Wf := State.wf_foldl hs2 fun _ _ => State.wf_conflict
  refine State.wf_updChip hs3 fun c hc => ?_
  split
  · exact Chip.wf_applyStaged hc
  · exact hc

theorem wf_execTideTurn {s : State} {chip} (h : s.Wf) : Ans.Wf (execTideTurn chip s) := by
  unfold execTideTurn
  split
  · exact h
  · split
    · split
      · exact h
      · exact State.wf_turn h
    · split
      · exact State.wf_updChip h fun _ => id
      · exact h

end Sys2Proof.Machine
end

section
/-! SUPPORT. Copies keep memories canonical. -/

namespace Sys2Proof.Machine

theorem wf_execHmk {s : State} {x} (h : s.Wf) : Ans.Wf (execHmk x s) := wf_issue h fun c => by
  split
  · trivial
  · have ht := Ctx.wf_record h ‹_›
    split
    · trivial
    · exact State.wf_updGangOf ht

theorem Ctx.wf_queueCopy {c : Ctx} {s : State} {kind bs h rows seen} (hs : s.Wf) : (c.queueCopy s kind bs h rows seen).Wf := by
  unfold Ctx.queueCopy
  dsimp only
  split
  · trivial
  · exact State.wf_updCore (Ctx.wf_issueBy hs)

theorem Ctx.wf_handle {c : Ctx} {s t : State} {o} (h : s.Wf) (ht : c.handle s = .ok (t, o)) : t.Wf := by
  unfold Ctx.handle at ht
  split at ht
  · split at ht
    · cases ht
    · cases ht
      exact Ctx.wf_record h ‹_›
  · cases ht
    exact h

theorem Ctx.wf_copy {c : Ctx} {s : State} {kind rows} (h : s.Wf) : (c.copy s kind rows).Wf := by
  unfold Ctx.copy
  split
  · trivial
  · have ht := Ctx.wf_record h ‹_›
    split
    · trivial
    · trivial
    · have hu := Ctx.wf_handle ht ‹_›
      dsimp only
      split
      · trivial
      · split
        · trivial
        · exact Ctx.wf_queueCopy hu

theorem State.wf_setCopy {s : State} {core k f} (h : s.Wf) : (s.setCopy core k f).Wf := State.wf_updCore h

theorem State.wf_dropCopy {s : State} {core k} (h : s.Wf) : (s.dropCopy core k).Wf := State.wf_updCore h

theorem wf_execCopyStart {s : State} {core k} (h : s.Wf) : Ans.Wf (execCopyStart core k s) := by
  unfold execCopyStart
  split
  · split
    · exact State.wf_setCopy h
    · exact h
  · exact h

theorem State.wf_sideWrite {s : State} {chip side o bs} (h : s.Wf) : (s.sideWrite chip side o bs).Wf :=
  State.wf_updTask h fun _ ht => Task.wf_withScratch ht (Mem.wf_write _ _ (Task.wf_scratch ht))

theorem State.wf_moveElem {s t : State} {core q b j} (h : s.Wf) (ht : s.moveElem core q b j = .ok t) : t.Wf := by
  unfold State.moveElem at ht
  split at ht
  · cases ht
  · split at ht <;> cases ht
    · exact h
    · exact State.wf_sideWrite h
  · split at ht
    · cases ht
    · dsimp only at ht
      split at ht
      · split at ht
        · split at ht
          · cases ht
            exact h
          · split at ht <;> cases ht
            exact State.wf_foldl h fun _ _ => State.wf_tidalWrite
        · cases ht
      · split at ht
        · cases ht
        · split at ht
          · cases ht
          · split at ht <;> cases ht
            · exact State.wf_engineWrite (State.wf_noteAccess h)
            · exact State.wf_sideWrite (State.wf_noteAccess h)

theorem State.wf_askElem {s t : State} {q b num} (h : s.Wf) (ht : s.askElem q b = some (t, num)) : t.Wf := by
  unfold State.askElem at ht
  split at ht
  · cases ht
    exact h
  · cases ht

theorem State.wf_moveElems {s : State} {core q b j n} (h : s.Wf) : (s.moveElems core q b j n).1.Wf := by
  induction n generalizing s j with
  | zero => exact h
  | succ n ih =>
    unfold State.moveElems
    split
    · exact ih (State.wf_moveElem h ‹_›)
    · exact h

theorem State.wf_landBytes {s : State} {q b n} (h : s.Wf) : (s.landBytes q b n).Wf := by
  unfold State.landBytes
  split
  · exact h
  · split
    · exact h
    · exact State.wf_updChip (State.wf_writePlaces h) fun _ => id

theorem State.wf_copyOn {s : State} {core q b n} (h : s.Wf) : (s.copyOn core q b n).Wf := by
  unfold State.copyOn
  extract_lets +onlyGivenNames _ s1
  have hs1 : s1.Wf := State.wf_updCore h
  split
  · exact State.wf_wantArray hs1
  · exact hs1

theorem wf_execCopyByteLanding {s : State} {core k n} (h : s.Wf) : Ans.Wf (execCopyByteLanding core k n s) := by
  unfold execCopyByteLanding
  split
  · exact h
  · split
    · exact h
    · split
      · exact h
      · dsimp only
        split
        · exact State.wf_engineFault (State.wf_dropCopy (State.wf_landBytes (State.wf_moveElems h)))
        · split
          · exact State.wf_copyOn (State.wf_landBytes (State.wf_moveElems h))
          · split
            · exact State.wf_setCopy (State.wf_askElem h ‹_›)
            · exact h

theorem State.wf_landFetched {s : State} {chip task seq num bs} (h : s.Wf) : (s.landFetched chip task seq num bs).Wf := by
  unfold State.landFetched
  refine State.wf_foldl h fun _ _ h1 => ?_
  refine State.wf_foldl h1 fun _ _ h2 => ?_
  split
  · dsimp only
    split
    · split
      · exact State.wf_copyOn (State.wf_landBytes (State.wf_sideWrite h2))
      · exact h2
    · exact h2
  · exact h2

theorem wf_execRemoteReplyArrival {s : State} {k} (h : s.Wf) : Ans.Wf (execRemoteReplyArrival k s) := by
  unfold execRemoteReplyArrival
  split
  · exact h
  · exact State.wf_of_lost h ‹_›
  · split
    · exact State.wf_landFetched (State.wf_delivered h)
    · extract_lets t core view rels sync u
      have hu : u.Wf := State.wf_updChip (State.wf_delivered h) fun _ => id
      split
      · exact hu
      · split
        · exact State.wf_resealTask (State.wf_updGang hu)
        · split
          · exact State.wf_updGang (State.wf_fillFrame hu)
          · exact hu
    · exact h

theorem wf_execCopyFollowOnEntry {s : State} {core k} (h : s.Wf) : Ans.Wf (execCopyFollowOnEntry core k s) := by
  unfold execCopyFollowOnEntry
  split
  · exact h
  · dsimp only
    split
    · have ht := State.wf_task h ‹_›
      have hu := State.wf_holdArray h _ ‹_›
      split
      · exact h
      · have harr := Task.wf_arr ht
        have hq (q) := Task.wf_withArr ht (a := { (Task.arr _) with queue := q }) ⟨harr.tiles, harr.wbuf, harr.latch⟩
        exact State.wf_setCopy (State.wf_updChip (State.wf_updTask hu fun _ _ => (hq _ :)) fun _ => id)
    · exact h

theorem wf_execCopyComplete {s : State} {core k} (h : s.Wf) : Ans.Wf (execCopyComplete core k s) := by
  unfold execCopyComplete
  split
  · exact h
  · dsimp only
    split
    · exact State.wf_finishOp (State.wf_dropCopy h)
    · exact h

end Sys2Proof.Machine
end

section
/-! SUPPORT. Launches, queues, messages and migration of granules keep memories canonical. -/

namespace Sys2Proof.Machine

theorem Ans.wf_ite {p : Prop} [Decidable p] {a b : Ans} (ha : p → a.Wf) (hb : ¬p → b.Wf) : Ans.Wf (if p then a else b) := by
  split
  · exact ha ‹_›
  · exact hb ‹_›

theorem State.wf_of_argCopy {s t : State} {chip r argw given kept l k} (h : s.Wf) (ht : s.argCopy chip r argw given kept = (.ok (l, t), k)) : t.Wf := by
  unfold State.argCopy at ht
  split at ht
  · cases ht
    exact State.wf_freeWords h
  · split at ht
    · cases ht
      exact h
    · cases ht

theorem State.wf_judge {s : State} {chip c handle at_ bs fired firm kept} (h : s.Wf) : (s.judge chip c handle at_ bs fired firm kept).2.Wf := by
  unfold State.judge
  dsimp only
  split
  · exact h
  · split
    · exact h
    · split
      · exact h
      · split
        · exact h
        · split
          · exact h
          · rename_i hargs
            exact State.wf_of_argCopy h hargs

theorem Chip.wf_freeSlot {c : Chip} {m} (hc : c.Wf) : (c.freeSlot m).Wf := hc

theorem State.wf_complete {s : State} {chip handle final reason} (h : s.Wf) : (s.complete chip handle final reason).Wf := by
  unfold State.complete
  split
  · exact h
  · extract_lets s1 status s2 n q s3
    have hs2 : s2.Wf := State.wf_releaseStore (State.wf_updChip h fun _ => id)
    have hs3 : s3.Wf := State.wf_updChip hs2 fun c hc => by
      dsimp only
      split
      · exact (Chip.wf_freeSlot (m := ‹_›) hc :)
      · exact hc
    split
    · exact State.wf_updCore hs3
    · exact hs3

theorem State.wf_rejectRecord {s : State} {chip handle at_ bs fired code} (h : s.Wf) : (s.rejectRecord chip handle at_ bs fired code).Wf :=
  State.wf_complete (State.wf_updChip h fun _ => id)

theorem Chip.wf_nameTimeline {c : Chip} {r handle} (hc : c.Wf) : (c.nameTimeline r handle).Wf := by
  unfold Chip.nameTimeline
  split <;> exact hc

theorem Chip.wf_advanceHead {c : Chip} {q} (hc : c.Wf) : (c.advanceHead q).Wf := hc

theorem State.wf_notice {s : State} {chip n} (h : s.Wf) : (s.notice chip n).Wf := h

theorem State.wf_holdLaunch {s : State} {chip handle va} (h : s.Wf) : (s.holdLaunch chip handle va).Wf :=
  State.wf_notice (State.wf_updChip h fun _ => id)

theorem State.wf_reachLater {s : State} {chip handle why} (h : s.Wf) : (s.reachLater chip handle why).Wf := by
  unfold State.reachLater
  split
  · split
    · exact State.wf_holdLaunch h
    · exact h
  · exact State.wf_updChip h fun _ hc => Chip.wf_ask hc
  · exact h

theorem wf_execLaunchAcceptance {s : State} {chip q} (h : s.Wf) : Ans.Wf (execLaunchAcceptance chip q s) := by
  unfold execLaunchAcceptance
  split
  · exact h
  · dsimp only
    split
    · exact h
    · split
      · exact State.wf_reachLater (State.wf_updChip h fun _ => id)
      · split
        · exact State.wf_reachLater (State.wf_updChip h fun _ => id)
        · exact State.wf_rejectRecord (State.wf_updChip h fun _ hc => Chip.wf_nameTimeline (Chip.wf_advanceHead hc))
        · exact State.wf_updChip (State.wf_updChip (State.wf_judge h) fun _ hc => Chip.wf_nameTimeline (Chip.wf_advanceHead hc)) fun _ => id

theorem Chip.wf_shapeScopes {c : Chip} {handle groups} (hc : c.Wf) : (c.shapeScopes handle groups).Wf := by
  unfold Chip.shapeScopes
  refine Chip.wf_foldl hc fun _ _ hc1 => ?_
  split
  · exact hc1
  · dsimp only
    split
    · exact Chip.wf_unbindAll hc1
    · exact hc1

theorem State.wf_placeGranule {s : State} {chip granule tier} (h : s.Wf) : (s.placeGranule chip granule tier).Wf := by
  unfold State.placeGranule
  split
  · exact h
  · have hc := State.wf_chip h ‹_›
    split
    · exact h
    · extract_lets d far
      have hfar : far.Wf := State.wf_updChip h fun _ _ => (hc :)
      split
      · exact State.wf_updChip h fun _ => id
      · split
        · exact hfar
        · exact h

theorem Chip.wf_startLaunch {c : Chip} {handle l es} (hc : c.Wf) : (c.startLaunch handle l es).Wf := Chip.wf_shapeScopes hc

theorem State.wf_takeLeases {s : State} {chip handle l es} (h : s.Wf) : (s.takeLeases chip handle l es).Wf := by
  unfold State.takeLeases
  split
  · exact h
  · exact State.wf_updChip (State.wf_foldl h fun _ _ h1 => State.wf_placeGranule h1) fun _ hc => Chip.wf_foldl hc fun _ _ hc1 => Chip.wf_markLeases hc1

theorem wf_execLaunchTranslation {s : State} {chip handle} (h : s.Wf) : Ans.Wf (execLaunchTranslation chip handle s) := by
  unfold execLaunchTranslation
  split
  · exact h
  · split
    · exact h
    · dsimp only
      split
      · exact h
      · split
        · split
          · exact State.wf_updChip h fun _ => id
          · exact h
        · split
          · split
            · exact State.wf_complete (State.wf_updChip h fun _ => id)
            · split
              · exact State.wf_complete (State.wf_updChip h fun _ => id)
              · split
                · exact State.wf_reachLater (State.wf_takeLeases h)
                · split
                  · exact State.wf_complete (State.wf_takeLeases h)
                  · split
                    · exact State.wf_takeLeases h
                    · exact State.wf_updChip (State.wf_takeLeases h) fun _ hc => Chip.wf_startLaunch hc
          · split
            · exact State.wf_complete (State.wf_updChip h fun _ => id)
            · split
              · exact State.wf_complete (State.wf_updChip h fun _ => id)
              · split
                · exact State.wf_reachLater (State.wf_takeLeases h)
                · split
                  · exact State.wf_complete (State.wf_takeLeases h)
                  · split
                    · exact State.wf_takeLeases h
                    · exact State.wf_updChip (State.wf_takeLeases h) fun _ hc => Chip.wf_startLaunch hc

theorem wf_execXlfaultRetry {s : State} {chip} (h : s.Wf) : Ans.Wf (execXlfaultRetry chip s) := by
  unfold execXlfaultRetry
  split
  · exact State.wf_updChip h fun _ => id
  · exact h

theorem wf_execXlfaultAbort {s : State} {chip} (h : s.Wf) : Ans.Wf (execXlfaultAbort chip s) := by
  unfold execXlfaultAbort
  split
  · exact h
  · split
    · exact h
    · extract_lets +onlyGivenNames _ s1
      have hs1 : s1.Wf := State.wf_updChip h fun _ => id
      split
      · exact State.wf_complete hs1
      · exact State.wf_rejectRecord (State.wf_updChip hs1 fun _ hc => Chip.wf_nameTimeline (Chip.wf_advanceHead hc))

theorem wf_execQtailWrite {s : State} {chip q value} (h : s.Wf) : Ans.Wf (execQtailWrite chip q value s) := by
  unfold execQtailWrite
  split
  · exact h
  · split
    · exact h
    · exact State.wf_updChip h fun _ => id

theorem wf_execQueueResume {s : State} {chip q} (h : s.Wf) : Ans.Wf (execQueueResume chip q s) := by
  unfold execQueueResume
  split
  · exact h
  · split
    · have hc := State.wf_chip h ‹_›
      exact State.wf_updChip h fun _ _ => (hc :)
    · exact h

theorem State.wf_enqueueRecord {s : State} {chip q bs fired firm clock} (h : s.Wf) : (s.enqueueRecord chip q bs fired firm clock).Wf := by
  unfold State.enqueueRecord
  split
  · exact h
  · exact State.wf_updChip (State.wf_devWrite h) fun _ => id

theorem wf_execLtWrite {s : State} {chip n value} (h : s.Wf) : Ans.Wf (execLtWrite chip n value s) := by
  unfold execLtWrite
  split
  · exact h
  · split
    · have hc := State.wf_chip h ‹_›
      exact State.wf_updChip h fun _ _ => (hc :)
    · exact h

theorem wf_execEventRecordPost {s : State} {core chip} (h : s.Wf) : Ans.Wf (execEventRecordPost core chip s) := by
  unfold execEventRecordPost
  dsimp only
  split
  · exact h
  · split
    · exact h
    · exact State.wf_updCore h

theorem wf_execAtsPriResponse {s : State} {chip page answer} (h : s.Wf) : Ans.Wf (execAtsPriResponse chip page answer s) := by
  unfold execAtsPriResponse
  split
  · exact h
  · split
    · exact h
    · exact State.wf_updChip h fun _ => id

theorem wf_execHostInvalidation {s : State} {chip page} (h : s.Wf) : Ans.Wf (execHostInvalidation chip page s) := by
  unfold execHostInvalidation
  split
  · exact h
  · split
    · exact h
    · exact State.wf_updChip h fun _ => id

theorem wf_execGranuleMigration {s : State} {chip granule tier} (h : s.Wf) : Ans.Wf (execGranuleMigration chip granule tier s) := by
  unfold execGranuleMigration
  split
  · exact h
  · extract_lets want d t room wanted tiers
    clear_value room wanted
    split
    · exact h
    · exact State.wf_updChip h fun _ => id

theorem wf_execGranuleMigrationComplete {s : State} {chip granule} (h : s.Wf) : Ans.Wf (execGranuleMigrationComplete chip granule s) := by
  unfold execGranuleMigrationComplete
  split
  · exact h
  · split
    · exact State.wf_updChip h fun _ => id
    · exact h

theorem wf_execSend {s : State} {x} (h : s.Wf) : Ans.Wf (execSend x s) := wf_issue h fun c => by
  dsimp only
  split
  · trivial
  · have ht := Ctx.wf_record h ‹_›
    split
    · trivial
    · split
      · trivial
      · exact Ctx.wf_queueCopy ht

theorem wf_execSendOutboundEntry {s : State} {core k} (h : s.Wf) : Ans.Wf (execSendOutboundEntry core k s) := by
  unfold execSendOutboundEntry
  split
  · exact h
  · dsimp only
    split
    · exact h
    · split
      · exact h
      · exact State.wf_updChip (State.wf_dropCopy h) fun _ => id

theorem wf_execSendPayloadRead {s : State} {chip k} (h : s.Wf) : Ans.Wf (execSendPayloadRead chip k s) := by
  unfold execSendPayloadRead
  split
  · exact h
  · split
    · exact h
    · split
      · exact h
      · dsimp only
        split
        · exact State.wf_finishOp (State.wf_updChip (State.wf_freeBytes h) fun _ => id)
        · split
          · exact State.wf_engineFault (State.wf_updChip h fun _ => id)
          · exact State.wf_finishOp (State.wf_updChip (State.wf_noteAccess h) fun _ => id)

theorem Chip.wf_fire {c : Chip} {tag slot e} (hc : c.Wf) : (c.fire tag slot e).Wf := hc

theorem State.wf_storeFlag {s : State} {chip m} (h : s.Wf) : (s.storeFlag chip m).Wf := by
  unfold State.storeFlag
  split
  · split
    · exact State.wf_updChip (State.wf_writePlaces h) fun _ => id
    · exact h
  · exact h

theorem State.wf_deliver {s : State} {chip m} (h : s.Wf) : (s.deliver chip m).Wf := by
  unfold State.deliver
  split
  · exact h
  · dsimp only
    split
    · exact State.wf_updChip h fun _ => id
    · refine State.wf_updChip (State.wf_storeFlag (State.wf_devWrite h)) fun _ hc => ?_
      split
      · exact Chip.wf_fire hc
      · exact hc

theorem wf_execMessageDelivery {s : State} {k} (h : s.Wf) : Ans.Wf (execMessageDelivery k s) := by
  unfold execMessageDelivery
  split
  · exact h
  · exact State.wf_of_lost h ‹_›
  · split
    · have ht := fun p => State.wf_freePlace (p := p) (State.wf_delivered (k := k) h)
      split
      · exact State.wf_refuse h
      · split
        · exact State.wf_updChip (ht _) fun _ => id
        · exact State.wf_deliver (ht _)
    · exact h

theorem wf_execInboundLogConsume {s : State} {chip} (h : s.Wf) : Ans.Wf (execInboundLogConsume chip s) := by
  unfold execInboundLogConsume
  split
  · exact h
  · split
    · exact h
    · dsimp only
      split
      · exact h
      · exact State.wf_deliver (State.wf_updChip h fun _ => id)

theorem State.wf_armArgs {s : State} {chip r} (h : s.Wf) : (s.armArgs chip r).2.Wf := by
  unfold State.armArgs
  split
  · exact State.wf_freeWords h
  · dsimp only
    split
    · exact h
    · exact State.wf_freeWords h

theorem wf_execArm {s : State} {x} (h : s.Wf) : Ans.Wf (execArm x s) := wf_issue h fun c => by
  dsimp only
  split
  · trivial
  · have ht := Ctx.wf_record h ‹_›
    split
    · trivial
    · split
      · trivial
      · exact State.wf_updChip (State.wf_armArgs ht) fun d hd => Chip.wf_foldl hd fun _ _ => Chip.wf_fire

theorem wf_execDisarm {s : State} {x} (h : s.Wf) : Ans.Wf (execDisarm x s) := wf_issue h fun _ => by
  dsimp only
  split
  · trivial
  · exact State.wf_updChip h fun _ => id

theorem wf_execFiredLaunchPlacement {s : State} {chip k} (h : s.Wf) : Ans.Wf (execFiredLaunchPlacement chip k s) := by
  unfold execFiredLaunchPlacement
  split
  · exact h
  · split
    · exact h
    · dsimp only
      split
      · exact h
      · exact State.wf_enqueueRecord (State.wf_updChip h fun _ => id)

theorem wf_execLaunch {s : State} {x} (h : s.Wf) : Ans.Wf (execLaunch x s) := wf_issue h fun c => by
  dsimp only
  split
  · trivial
  · have ht := Ctx.wf_record h ‹_›
    split
    · trivial
    · split
      · trivial
      · split
        · trivial
        · split
          · trivial
          · split
            · trivial
            · exact State.wf_enqueueRecord (State.wf_foldl ht fun _ _ => Ctx.wf_hb)

end Sys2Proof.Machine
end

section
/-! SUPPORT. Tasks keep memories canonical: placing, entering, saving, loading, turns. -/

namespace Sys2Proof.Machine

theorem Chip.wf_retrack {c : Chip} (hc : c.Wf) : c.retrack.Wf := by
  unfold Chip.retrack
  exact Chip.wf_of_eq hc rfl rfl rfl

theorem Chip.wf_tookTurn {c : Chip} {handle} (hc : c.Wf) : (c.tookTurn handle).Wf := hc

theorem Chip.wf_newTask {c : Chip} {l handle num priv} : (c.newTask l handle num priv).Wf :=
  Task.wf_iff.mpr ⟨Mem.wf_nil, Mem.wf_nil, Mem.wf_nil, Mem.wf_nil, fun _ hl => nomatch hl⟩

theorem Chip.wf_enterTask {c : Chip} {handle t} (hc : c.Wf) (ht : t.Wf) : (c.enterTask handle t).Wf := by
  have hcleared := Chip.wf_withMem (Chip.wf_touchRange (a := t.priv) (n := t.backing) hc) (Mem.wf_clear t.priv t.backing (Chip.wf_mem hc))
  exact (Chip.wf_withTasks hcleared (Tab.forall_put (Chip.wf_tasks hcleared) ht) :)

/-! ### Placing tasks -/

theorem State.wf_of_seat {s : State} {chip c placed t core base u} (ht : t.Wf) (hu : s.seat chip c placed t core base = some u) : u.Wf := by
  unfold State.seat at hu
  split at hu
  · cases hu
  · dsimp only at hu
    split at hu <;> cases hu
    exact ht

theorem State.wf_of_seatAll {s : State} {chip c placed rest ts} (hp : ∀ t ∈ placed, Task.Wf t)
    (hr : ∀ p ∈ rest, Task.Wf (Prod.fst p)) (hts : s.seatAll chip c placed rest = some ts) : ∀ t ∈ ts, t.Wf := by
  induction rest generalizing placed with
  | nil =>
    cases hts
    exact hp
  | cons p rest ih =>
    obtain ⟨hhead, htail⟩ := List.forall_mem_cons.mp hr
    unfold State.seatAll at hts
    split at hts
    · exact ih (List.forall_mem_append.mpr ⟨hp, List.forall_mem_singleton.mpr (State.wf_of_seat hhead ‹_›)⟩) htail hts
    · cases hts

theorem State.wf_of_spread {s : State} {chip c l first rest ts} (hf : Task.Wf first) (hr : ∀ t ∈ rest, Task.Wf t)
    (hts : s.spread chip c l first rest = some ts) : ∀ t ∈ ts, t.Wf := by
  unfold State.spread at hts
  split at hts
  · cases hts
    exact List.forall_mem_singleton.mpr hf
  · dsimp only at hts
    split at hts
    · cases hts
    · split at hts
      · cases hts
      · refine State.wf_of_seatAll (List.forall_mem_singleton.mpr hf) (fun p hp => ?_) hts
        obtain ⟨t, ht, hp⟩ := List.mem_filterMap.mp hp
        obtain ⟨e, -, rfl⟩ := Option.map_eq_some_iff.mp hp
        exact hr t ht

theorem Chip.wf_assignPriv {c : Chip} {n ts} (h : ∀ t ∈ ts, Task.Wf t) : ∀ t ∈ c.assignPriv n ts, t.Wf := by
  induction ts generalizing n with
  | nil => exact h
  | cons t ts ih =>
    obtain ⟨ht, hts⟩ := List.forall_mem_cons.mp h
    exact List.forall_mem_cons.mpr ⟨ht, ih hts⟩

theorem wf_execTaskDispatch {s : State} {chip handle task core base priv} (h : s.Wf) :
    Ans.Wf (execTaskDispatch chip handle task core base priv s) := by
  unfold execTaskDispatch
  split
  · exact h
  · rename_i c hc
    split
    · exact h
    · dsimp only
      split
      · exact h
      · split
        · exact h
        · rename_i ts hseat
          obtain ⟨first, hfirst, hts⟩ := Option.bind_eq_some_iff.mp hseat
          have hwf := State.wf_of_spread (State.wf_of_seat Chip.wf_newTask hfirst)
            (List.forall_mem_map.mpr fun _ _ => Chip.wf_newTask) hts
          have hpriv : ∀ t ∈ (match ts with | t :: more => t :: c.assignPriv (priv + t.backing) more | [] => []), t.Wf := by
            cases ts with
            | nil => exact hwf
            | cons t more =>
              obtain ⟨ht, hmore⟩ := List.forall_mem_cons.mp hwf
              exact List.forall_mem_cons.mpr ⟨ht, Chip.wf_assignPriv hmore⟩
          refine Ans.wf_ite (fun _ => h) fun _ => State.wf_updChip h fun c hc => Chip.wf_retrack (Chip.wf_tookTurn ?_)
          exact List.foldlRecOn _ _ hc fun d hd t ht => Chip.wf_enterTask hd (hpriv t ht)

theorem State.wf_forget {s : State} {chip key} (h : s.Wf) : (s.forget chip key).Wf := h

theorem Arr.wf_relatch {a : Arr} (ha : a.Wf) : a.relatch.Wf := by
  refine Arr.wf_withLatch ha fun l hl => ?_
  obtain ⟨k, -, hl⟩ := Option.bind_eq_some_iff.mp hl
  exact Arr.wf_latchSlot ha l hl

theorem State.wf_freeArray {s : State} {core} (h : s.Wf) : (s.freeArray core).Wf := by
  unfold State.freeArray
  split
  · exact h
  · split
    · exact State.wf_updCore h
    · refine State.wf_updCore (State.wf_updTask h fun t ht => ?_)
      split
      · exact (Task.wf_withArr ht (Arr.wf_relatch (Task.wf_arr ht)) :)
      · exact ht

theorem State.wf_leaveCore {s : State} {chip key core prot} (h : s.Wf) : (s.leaveCore chip key core prot).Wf := by
  unfold State.leaveCore
  extract_lets +onlyGivenNames _ s1
  have hs1 : s1.Wf := by
    unfold s1
    split
    · exact State.wf_updChip h fun _ => id
    · exact h
  exact State.wf_forget (State.wf_updCore hs1)

theorem State.wf_scrubCores {s : State} (h : s.Wf) : (s.scrubCores).Wf := h

theorem wf_execTaskRetire {s : State} {chip task} (h : s.Wf) : Ans.Wf (execTaskRetire chip task s) := by
  unfold execTaskRetire
  split
  · refine Ans.wf_ite (fun _ => h) fun _ => ?_
    split
    · exact h
    · extract_lets core frames s1 s2 s3 s4
      have hs1 : s1.Wf := by
        unfold s1
        split
        · exact State.wf_leaveCore h
        · exact h
      have hs2 : s2.Wf := State.wf_updChip hs1 fun d hd =>
        Chip.wf_retrack (Chip.wf_withTasks hd (Tab.forall_drop (Chip.wf_tasks hd)) :)
      have hs3 : s3.Wf := State.wf_freeArray hs2
      have hs4 : s4.Wf := by
        unfold s4
        split
        · exact State.wf_updCore hs3
        · exact hs3
      split
      · exact State.wf_complete hs4
      · exact hs4
  · exact h

theorem State.wf_settleGang {s : State} {g} (h : s.Wf) : (s.settleGang g).Wf := by
  unfold State.settleGang
  extract_lets +onlyGivenNames s1 s2
  have hs1 : s1.Wf := State.wf_answerLovage h
  have hs2 : s2.Wf := by
    unfold s2
    split
    · exact State.wf_takeDeferred hs1
    · exact hs1
  exact State.wf_updGang hs2

theorem State.wf_finishReads {s : State} {chip n} (h : s.Wf) : (s.finishReads chip n).Wf := by
  induction n generalizing s with
  | zero => exact h
  | succ n ih =>
    unfold State.finishReads
    split
    · exact h
    · split
      · exact ih (Ans.wf_of_next (wf_execSendPayloadRead h) ‹_›)
      · exact h

theorem State.wf_settleArray {s : State} {core chip key} (h : s.Wf) : (s.settleArray core chip key).Wf := by
  unfold State.settleArray
  split
  · extract_lets +onlyGivenNames s1
    have hs1 : s1.Wf := State.wf_after h (wf_execMatrixCommandComplete h)
    split
    · exact hs1
    · have hloaded := State.wf_after hs1 (wf_execWldExecute (core := core) hs1)
      have hlatched := State.wf_after hloaded (wf_execWselLatch (core := core) hloaded)
      have hcleared := State.wf_after hlatched (wf_execAclrExecute (core := core) hlatched)
      have hepilogue := State.wf_after hcleared (wf_execEpldLoad (core := core) hcleared)
      exact State.wf_after hepilogue (wf_execMatrixCommandComplete hepilogue)
  · exact h

theorem Arr.wf_onward {a : Arr} (ha : a.Wf) : (a.onward).Wf := ha

theorem State.wf_saveTask {s : State} {chip key} (h : s.Wf) : (s.saveTask chip key).Wf := by
  unfold State.saveTask
  split
  · extract_lets s1 mine k holds under s2 quants s3 s4 s5
    have hs2 : s2.Wf := State.wf_updTask (State.wf_settleArray h) fun t ht => Task.wf_withArr (t := { t with core := none }) ht (by
      split
      · exact Arr.wf_onward (Task.wf_stopArr ht)
      · exact Arr.wf_onward (Task.wf_arr ht))
    have hs4 : s4.Wf := State.wf_updChip (s := s3) hs2 fun _ => id
    exact State.wf_freeArray (State.wf_leaveCore (State.wf_updCore hs4))
  · exact h

theorem State.wf_preempt {s : State} {chip keys} (h : s.Wf) : (s.preempt chip keys).Wf := by
  unfold State.preempt
  extract_lets mark t
  have hmark (u : State) (hu : u.Wf) : (mark u).Wf := State.wf_foldl hu fun _ _ hv => State.wf_updTask hv fun _ => id
  have ht : t.Wf := State.wf_foldl h fun _ _ hu => State.wf_foldl hu fun _ _ => State.wf_settleGang
  split
  · exact h
  · split
    · exact h
    · split
      · exact hmark s h
      · split
        · exact ht
        · split
          · exact hmark t ht
          · refine State.wf_sealChip (State.wf_updChip (State.wf_foldl (State.wf_finishReads ?_) fun _ _ => State.wf_saveTask)
              fun _ => Chip.wf_retrack)
            split
            · exact State.wf_updDev ht
            · exact ht

theorem State.wf_finishLeaving {s : State} {chip} (h : s.Wf) : (s.finishLeaving chip).Wf := by
  unfold State.finishLeaving
  split
  · exact h
  · dsimp only
    split
    · exact h
    · exact State.wf_preempt h

theorem State.wf_preemptChip {s : State} {chip} (h : s.Wf) : (s.preemptChip chip).Wf := State.wf_updChip (State.wf_preempt h) fun _ => id

theorem State.wf_startTurn {s : State} {chip} (h : s.Wf) : (s.startTurn chip).Wf := by
  unfold State.startTurn
  split
  · exact h
  · split
    · exact h
    · exact State.wf_updChip h fun _ => id

theorem State.wf_passTurn {s : State} {order} (h : s.Wf) : (s.passTurn order).Wf := State.wf_foldl h fun _ _ h1 => State.wf_startTurn h1

theorem State.wf_clearCores {s : State} {chip} (h : s.Wf) : (s.clearCores chip).Wf := by
  unfold State.clearCores
  split
  · exact h
  · extract_lets +onlyGivenNames s1 s2 _ s3
    have hs1 : s1.Wf := by
      unfold s1
      refine State.wf_foldl h fun _ _ h1 => ?_
      split
      · exact State.wf_updTask (State.wf_leaveCore h1) fun _ => id
      · exact h1
    have hs2 : s2.Wf := State.wf_updDev hs1
    have hs3 : s3.Wf := hs2
    refine State.wf_foldl hs3 fun _ _ h1 => ?_
    split
    · exact State.wf_freeArray h1
    · exact h1

theorem State.wf_leaveTurn {s : State} {old : Chip} {chip} (h : s.Wf) : (s.leaveTurn chip old).Wf := by
  unfold State.leaveTurn
  split
  · exact State.wf_passTurn h
  · exact h

theorem State.wf_stopChip {s : State} {chip} (h : s.Wf) : (s.stopChip chip).Wf := by
  unfold State.stopChip
  split
  · exact h
  · exact State.wf_leaveTurn (State.wf_updChip (State.wf_clearCores h) fun d hd =>
      (Chip.wf_withTasks hd fun t ht => Chip.wf_tasks hd t (List.mem_of_mem_filter ht) :))

theorem State.wf_setTdi {s : State} {dev slot t} (h : s.Wf) : (s.setTdi dev slot t).Wf := State.wf_updDev h

theorem State.wf_tdiError {s : State} {dev slot reason} (h : s.Wf) : (s.tdiError dev slot reason).Wf := by
  unfold State.tdiError
  split
  · exact h
  · dsimp only
    split
    · split
      · exact State.wf_stopChip (State.wf_setTdi h)
      · exact State.wf_setTdi h
    · exact h

theorem State.wf_loadTask {s : State} {chip key t} (h : s.Wf) : (s.loadTask chip key t).Wf := by
  unfold State.loadTask
  split
  · exact h
  · refine State.wf_updCore (State.wf_updChip (State.wf_updTask h fun u hu => ?_) fun _ => id)
    refine Task.wf_withArr (t := { u with core := t.core }) hu ?_
    split
    · exact Arr.wf_relatch (Task.wf_arr hu)
    · exact Task.wf_arr hu

theorem State.wf_loadAll {s : State} {chip ts} (h : s.Wf) : (s.loadAll chip ts).Wf :=
  State.wf_updChip (State.wf_foldl h fun _ _ => State.wf_loadTask) fun _ => Chip.wf_retrack

theorem wf_execTaskResume {s : State} {chip task core base} (h : s.Wf) : Ans.Wf (execTaskResume chip task core base s) := by
  unfold execTaskResume
  split
  · split
    · exact h
    · dsimp only
      split
      · exact h
      · split
        · exact h
        · split
          · exact h
          · split
            · exact h
            · split
              · exact State.wf_loadAll h
              · exact State.wf_tdiError h
  · exact h

theorem wf_execTaskMigration {s : State} {chip task core base} (h : s.Wf) : Ans.Wf (execTaskMigration chip task core base s) := by
  unfold execTaskMigration
  split
  · split
    · dsimp only
      split
      · split
        · exact h
        · split
          · split
            · exact h
            · split
              · exact State.wf_loadAll (State.wf_preempt h)
              · exact h
          · exact h
      · split
        · exact h
        · split
          · split
            · exact h
            · split
              · exact State.wf_loadAll (State.wf_preempt h)
              · exact h
          · exact h
    · exact h
  · exact h

theorem State.wf_endTurn {s : State} {chip} (h : s.Wf) : (s.endTurn chip).Wf := by
  unfold State.endTurn
  split
  · exact h
  · exact State.wf_passTurn (State.wf_updChip (State.wf_preemptChip h) fun _ => id)

theorem wf_execSliceExpiry {s : State} {chip} (h : s.Wf) : Ans.Wf (execSliceExpiry chip s) := by
  unfold execSliceExpiry
  split
  · split
    · exact State.wf_endTurn h
    · exact h
  · exact h

theorem wf_execTurnGivenUpEarly {s : State} {chip} (h : s.Wf) : Ans.Wf (execTurnGivenUpEarly chip s) := by
  unfold execTurnGivenUpEarly
  split
  · dsimp only
    split
    · exact State.wf_endTurn h
    · exact h
  · exact h

theorem wf_execArrivalHintReceive {s : State} {dev chip peer} (h : s.Wf) : Ans.Wf (execArrivalHintReceive dev chip peer s) := by
  unfold execArrivalHintReceive
  split
  · split
    · exact h
    · exact State.wf_updDev h
  · exact h

theorem wf_execHintAgreementTimeout {s : State} {dev chip} (h : s.Wf) : Ans.Wf (execHintAgreementTimeout dev chip s) := by
  unfold execHintAgreementTimeout
  split
  · split
    · exact State.wf_updDev h
    · exact h
  · exact h

theorem State.wf_turnsAfter {s : State} {old : Chip} {chip} (h : s.Wf) : (s.turnsAfter chip old).Wf := by
  unfold State.turnsAfter
  split
  · exact h
  · extract_lets +onlyGivenNames _ _ s1 s2 s3
    have hs1 : s1.Wf := State.wf_updChip h fun _ => id
    have hs2 : s2.Wf := by
      unfold s2
      split
      · exact hs1
      · exact State.wf_startTurn hs1
    have hs3 : s3.Wf := by
      unfold s3
      split
      · exact State.wf_preemptChip hs2
      · exact hs2
    exact State.wf_passTurn hs3

theorem State.wf_writeCores {s : State} {chip value} (h : s.Wf) : (s.writeCores chip value).Wf := by
  unfold State.writeCores
  split
  · exact h
  · dsimp only
    split
    · exact h
    · refine State.wf_turnsAfter ?_
      refine State.wf_updChip ?_ (fun _ => id)
      split
      · exact State.wf_preemptChip h
      · exact State.wf_preempt h

theorem wf_execCoresWrite {s : State} {chip value} (h : s.Wf) : Ans.Wf (execCoresWrite chip value s) := by
  unfold execCoresWrite
  split
  · exact State.wf_writeCores h
  · exact h

theorem State.wf_snapWrite {s : State} {chip a bs} (h : s.Wf) : (s.snapWrite chip a bs).Wf := by
  unfold State.snapWrite
  split
  · exact State.wf_devWrite h
  · split
    · exact State.wf_withHostMem h (Mem.wf_write _ _ (State.wf_hostMem h))
    · exact h

theorem wf_execWaitBudgetExpiry {s : State} {chip core} (h : s.Wf) : Ans.Wf (execWaitBudgetExpiry chip core s) := by
  unfold execWaitBudgetExpiry
  split
  · exact h
  · extract_lets spent held p head s1 s2 s3
    split
    · exact h
    · have hs1 : s1.Wf := State.wf_snapWrite h
      have hs2 : s2.Wf := State.wf_preemptChip (State.wf_updChip hs1 fun _ => id)
      have hs3 : s3.Wf := by
        unfold s3
        split
        · exact State.wf_endTurn hs2
        · exact State.wf_updChip hs2 fun _ => id
      exact hs3

end Sys2Proof.Machine
end

section
/-! SUPPORT. A gang's own events, traps and the control core keep memories canonical. -/

namespace Sys2Proof.Machine

theorem wf_execBundleReformation {s : State} {core sub} (h : s.Wf) : Ans.Wf (execBundleReformation core sub s) := by
  unfold execBundleReformation
  dsimp only
  split
  · exact h
  · refine State.wf_updCore ?_
    iterate 4 refine State.wf_foldl ?_ fun _ _ h1 => State.wf_updGang h1
    exact h

theorem wf_execRegisterAllocation {s : State} {g lanes} (h : s.Wf) : Ans.Wf (execRegisterAllocation g lanes s) := by
  unfold execRegisterAllocation
  split
  · split
    · exact State.wf_updGang h
    · exact h
  · exact h

theorem State.wf_spillFault {s : State} {g} (h : s.Wf) : (s.spillFault g).Wf := by
  unfold State.spillFault
  split
  · exact State.wf_endTask h
  · exact h

theorem wf_execSpillComplete {s : State} {g} (h : s.Wf) : Ans.Wf (execSpillComplete g s) := by
  unfold execSpillComplete
  split
  · split
    · exact h
    · dsimp only
      split
      · exact h
      · split
        · exact State.wf_spillFault h
        · exact State.wf_updGang (State.wf_updChip h fun _ hc => Chip.wf_writeMem hc)
  · exact h

theorem wf_execGangRefill {s : State} {g} (h : s.Wf) : Ans.Wf (execGangRefill g s) := by
  unfold execGangRefill
  split
  · split
    · exact h
    · dsimp only
      split
      · exact h
      · split
        · exact State.wf_updGang h
        · exact State.wf_spillFault h
  · exact h

theorem State.wf_settleExits {s : State} {g} (h : s.Wf) : (s.settleExits g).Wf := by
  unfold State.settleExits
  split
  · exact h
  · exact State.wf_orphanTest (State.wf_updGang h)

theorem wf_execResultArrival {s : State} {g k} (h : s.Wf) : Ans.Wf (execResultArrival g k s) := by
  unfold execResultArrival
  split
  · split
    · exact h
    · split
      · exact h
      · split
        · exact State.wf_takeDeferred h
        · exact State.wf_settleExits (State.wf_updGang h)
  · exact h

theorem wf_execTrapEntry {s : State} {g} (h : s.Wf) : Ans.Wf (execTrapEntry g s) := by
  unfold execTrapEntry
  split
  · split
    · exact State.wf_finishLeaving (State.wf_endTask h)
    · exact State.wf_finishLeaving (State.wf_enterHandler (State.wf_forget h))
    · exact h
  · exact h

theorem Ctx.wf_tret {c : Ctx} {s : State} {g frame} (h : s.Wf) : (c.tret s g frame).Wf := by
  unfold Ctx.tret
  split
  · dsimp only
    split
    · trivial
    · split
      · trivial
      · split
        · trivial
        · exact State.wf_orphanTest (State.wf_updGang (State.wf_updChip (State.wf_renumber (Ctx.wf_leaveFence h)) fun _ => id))
  · trivial

theorem wf_execTret {s : State} {x} (h : s.Wf) : Ans.Wf (execTret x s) := wf_issue h fun _ => by
  split
  · split
    · exact Ctx.wf_tret h
    · trivial
  · trivial

theorem wf_execCsave {s : State} {x} (h : s.Wf) : Ans.Wf (execCsave x s) := wf_issue h fun c => by
  dsimp only
  split
  · trivial
  · split
    · trivial
    · split
      · trivial
      · split
        · trivial
        · exact State.wf_writeBytes (Ctx.wf_imageAccess h ‹_›)

theorem wf_execCrest {s : State} {x} (h : s.Wf) : Ans.Wf (execCrest x s) := wf_issue h fun c => by
  dsimp only
  split
  · trivial
  · split
    · trivial
    · have ht := Ctx.wf_imageAccess h ‹_›
      split
      · split
        · trivial
        · have hrenumbered (g : GangRef) (f : Nat → Nat) := State.wf_renumber (g := g) (f := f) (Ctx.wf_leaveFence (c := c) ht)
          have hu (f g q n m) := State.wf_orphanTest (chip := n) (task := m) (State.wf_updGang (g := g) (f := q) (hrenumbered g f))
          exact hu _ _ _ _ _
      · trivial

theorem State.wf_settleResults {s : State} {g} (h : s.Wf) : (s.settleResults g).Wf := by
  unfold State.settleResults
  extract_lets +onlyGivenNames s1
  have hs1 : s1.Wf := State.wf_answerLovage h
  split
  · exact State.wf_takeDeferred hs1
  · exact State.wf_updGang hs1

theorem wf_execHalt {s : State} {x} (h : s.Wf) : Ans.Wf (execHalt x s) := wf_issue h fun c => by
  split
  · trivial
  · extract_lets t u v
    have hu : u.Wf := State.wf_foldl (Ctx.wf_pass h) fun _ _ ht => State.wf_foldl ht fun _ _ => State.wf_settleResults
    have hv : v.Wf := State.wf_updGangOf hu
    exact hv

theorem wf_execHaltedCoreResume {s : State} {core reset} (h : s.Wf) : Ans.Wf (execHaltedCoreResume core reset s) := by
  unfold execHaltedCoreResume
  split
  · exact State.wf_updCore h
  · exact h

theorem wf_execEvqPop {s : State} {x} (h : s.Wf) : Ans.Wf (execEvqPop x s) := wf_issue h fun _ => by
  split
  · exact Ctx.wf_value (State.wf_updCore h)
  · split
    · trivial
    · exact Ctx.wf_value h

theorem Chip.wf_of_unhold {c d : Chip} {handle task} (h : c.Wf) (hd : c.unhold handle task = some d) : d.Wf := by
  unfold Chip.unhold at hd
  split at hd
  · cases hd
  · extract_lets n live holds at hd
    clear_value live
    split at hd <;> cases hd
    exact h

theorem wf_execTrel {s : State} {x} (h : s.Wf) : Ans.Wf (execTrel x s) := wf_issue h fun c => by
  refine State.wf_updChip h fun d hd => ?_
  cases hu : d.unhold (bitsOf (c.once c.va) 63 48) (c.once c.va % 2 ^ 32) with
  | none => exact hd
  | some e => exact Chip.wf_of_unhold hd hu

theorem wf_execControlRoutineEntry {s : State} {core chip} (h : s.Wf) : Ans.Wf (execControlRoutineEntry core chip s) := by
  unfold execControlRoutineEntry
  split
  · exact h
  · dsimp only
    split
    · exact h
    · exact State.wf_updCore h

theorem wf_execControlCoreLimit {s : State} {core} (h : s.Wf) : Ans.Wf (execControlCoreLimit core s) := by
  unfold execControlCoreLimit
  split
  · split
    · extract_lets s1 s2 mine t
      have ht : t.Wf := State.wf_notice (State.wf_endRoutine (State.wf_updChip h fun _ => id))
      exact ht
    · exact h
  · exact h

theorem wf_execCcstatWrite {s : State} {chip value} (h : s.Wf) : Ans.Wf (execCcstatWrite chip value s) := by
  unfold execCcstatWrite
  split
  · exact State.wf_updChip h fun _ => id
  · exact h

end Sys2Proof.Machine
end

section
/-! SUPPORT. Writes of a chip's registers and its migration keep memories canonical. -/

namespace Sys2Proof.Machine

theorem Chip.wf_settleMoves {c : Chip} {ls} (hc : c.Wf) : (c.settleMoves ls).Wf := hc

theorem Chip.wf_writeTctl {c : Chip} {value} (hc : c.Wf) : (c.writeTctl value).Wf := by
  unfold Chip.writeTctl
  extract_lets en t tfn still
  clear_value tfn still
  split
  · split <;> exact hc
  · split
    · exact hc
    · split
      · split
        · exact hc
        · have hmoved (ls) := Chip.wf_settleMoves (ls := ls) hc
          have hd (l m) := Chip.wf_markLeases (ls := m) (write := true) (Chip.wf_markLeases (ls := l) (write := false) (hmoved (l ++ m)))
          exact hd _ _
      · exact hc

theorem wf_execTrapHandlerEnable {s : State} {chip value} (h : s.Wf) : Ans.Wf (execTrapHandlerEnable chip value s) := by
  unfold execTrapHandlerEnable
  split
  · split
    · exact State.wf_updChip h fun _ hc => Chip.wf_writeTctl (State.wf_chip h ‹_› :)
    · exact h
  · exact h

theorem wf_execTrapHandlerDisable {s : State} {chip} (h : s.Wf) : Ans.Wf (execTrapHandlerDisable chip s) := by
  unfold execTrapHandlerDisable
  split
  · exact State.wf_updChip h fun _ hc => Chip.wf_writeTctl (State.wf_chip h ‹_› :)
  · exact h

theorem wf_execFaultRecordDelivery {s : State} {chip} (h : s.Wf) : Ans.Wf (execFaultRecordDelivery chip s) := by
  unfold execFaultRecordDelivery
  split
  · exact h
  · split
    · exact h
    · extract_lets +onlyGivenNames d
      have hd : d.1.Wf := State.wf_deliverFault (State.wf_updChip h fun _ => id)
      split
      · exact h
      · exact State.wf_updTask (State.wf_updChip hd fun _ => id) fun _ => id

theorem wf_execFqheadWrite {s : State} {chip value} (h : s.Wf) : Ans.Wf (execFqheadWrite chip value s) := by
  unfold execFqheadWrite
  split
  · exact State.wf_updChip h fun _ => id
  · exact h

theorem Chip.wf_tideErr {c : Chip} (hc : c.Wf) : (c.tideErr).Wf := hc

theorem Chip.wf_leaseMailbox {c : Chip} {r} (hc : c.Wf) : (c.leaseMailbox r).Wf := Chip.wf_markLeases (Chip.wf_settleMoves hc)

theorem Chip.wf_writeMbxBase {c : Chip} {r v} (hc : c.Wf) : (c.writeMbxBase r v).Wf := by
  unfold Chip.writeMbxBase
  dsimp only
  split
  · exact Chip.wf_tideErr hc
  · exact Chip.wf_leaseMailbox hc

theorem Chip.wf_writeMbxSize {c : Chip} {r v} (hc : c.Wf) : (c.writeMbxSize r v).Wf := by
  unfold Chip.writeMbxSize
  dsimp only
  split
  · exact Chip.wf_tideErr hc
  · exact Chip.wf_leaseMailbox hc

theorem Chip.wf_writeRxBase {c : Chip} {t v} (hc : c.Wf) : (c.writeRxBase t v).Wf := by
  unfold Chip.writeRxBase
  dsimp only
  split
  · exact Chip.wf_tideErr hc
  · exact hc

theorem Chip.wf_writeRxctl {c : Chip} {t v} (hc : c.Wf) : (c.writeRxctl t v).Wf := by
  unfold Chip.writeRxctl
  dsimp only
  split
  · split
    · exact Chip.wf_tideErr hc
    · exact hc
  · split
    · exact Chip.wf_tideErr hc
    · exact hc

theorem State.wf_chipWrite {s : State} {chip ok f} (h : s.Wf) (hf : ∀ c : Chip, c.Wf → (f c).Wf) : Ans.Wf (s.chipWrite chip ok f) := by
  unfold State.chipWrite
  split
  · split
    · exact State.wf_updChip h hf
    · exact h
  · exact h

theorem wf_execMbxbaseWrite {s : State} {chip n value} (h : s.Wf) : Ans.Wf (execMbxbaseWrite chip n value s) :=
  State.wf_chipWrite h fun _ hc => Chip.wf_writeMbxBase hc

theorem wf_execMbxsizeWrite {s : State} {chip n value} (h : s.Wf) : Ans.Wf (execMbxsizeWrite chip n value s) :=
  State.wf_chipWrite h fun _ hc => Chip.wf_writeMbxSize hc

theorem wf_execRxbaseWrite {s : State} {chip n value} (h : s.Wf) : Ans.Wf (execRxbaseWrite chip n value s) :=
  State.wf_chipWrite h fun _ hc => Chip.wf_writeRxBase hc

theorem wf_execRxctlWrite {s : State} {chip n value} (h : s.Wf) : Ans.Wf (execRxctlWrite chip n value s) :=
  State.wf_chipWrite h fun _ hc => Chip.wf_writeRxctl hc

theorem Chip.wf_stage {c : Chip} {n r fieldsOk mcOk} (hc : c.Wf) : (c.stage n r fieldsOk mcOk).Wf := by
  unfold Chip.stage
  split
  · exact Chip.wf_tideErr hc
  · dsimp only
    split
    · exact Chip.wf_applyStaged hc
    · exact hc

theorem State.wf_writeRegion {s : State} {chip n which v} (h : s.Wf) : (s.writeRegion chip n which v).Wf := by
  unfold State.writeRegion
  split
  · exact h
  · exact State.wf_updChip h fun _ hc => Chip.wf_stage hc

theorem State.wf_regionEvent {s : State} {chip n which v} (h : s.Wf) : Ans.Wf (s.regionEvent chip n which v) := by
  unfold State.regionEvent
  split
  · split
    · exact State.wf_writeRegion h
    · exact h
  · exact h

theorem wf_execTrbaseWrite {s : State} {chip n value} (h : s.Wf) : Ans.Wf (execTrbaseWrite chip n value s) := State.wf_regionEvent h

theorem wf_execTrwinWrite {s : State} {chip n value} (h : s.Wf) : Ans.Wf (execTrwinWrite chip n value s) := State.wf_regionEvent h

theorem wf_execTrctlWrite {s : State} {chip n value} (h : s.Wf) : Ans.Wf (execTrctlWrite chip n value s) := State.wf_regionEvent h

theorem wf_execTrflagWrite {s : State} {chip n value} (h : s.Wf) : Ans.Wf (execTrflagWrite chip n value s) := State.wf_regionEvent h

theorem wf_execTlogWrite {s : State} {chip value} (h : s.Wf) : Ans.Wf (execTlogWrite chip value s) := State.wf_chipWrite h fun _ => id

theorem State.wf_writeTibq {s : State} {chip v} (h : s.Wf) : (s.writeTibq chip v).Wf := by
  unfold State.writeTibq
  split
  · exact h
  · dsimp only
    split
    · exact h
    · exact State.wf_updChip h fun _ => id

theorem wf_execGselWrite {s : State} {dev value} (h : s.Wf) : Ans.Wf (execGselWrite dev value s) := by
  unfold execGselWrite
  split
  · split
    · exact h
    · exact State.wf_updDev h
  · exact h

theorem State.wf_recount {s : State} {guest n old new} (h : s.Wf) : (s.recount guest n old new).Wf := by
  unfold State.recount
  refine State.wf_foldl h fun _ _ h1 => ?_
  split
  · split
    · exact State.wf_updChip h1 fun _ => id
    · exact h1
  · exact h1

theorem wf_execMcsetWrite {s : State} {dev n value} (h : s.Wf) : Ans.Wf (execMcsetWrite dev n value s) := by
  unfold execMcsetWrite
  split
  · exact h
  · split
    · exact h
    · split
      · exact h
      · split
        · split
          · exact State.wf_recount h
          · exact State.wf_updDev h
        · exact State.wf_updDev h

theorem State.wf_migEnable {s : State} {chip v} (h : s.Wf) : (s.migEnable chip v).Wf := by
  unfold State.migEnable
  split
  · exact h
  · refine State.wf_updChip h fun c hc => Chip.wf_withMig hc ?_
    split
    · exact fun m hm => Option.mem_some.mp hm ▸ Mem.wf_nil
    · exact Chip.wf_staging hc

theorem wf_execMigrationEnable {s : State} {chip value} (h : s.Wf) : Ans.Wf (execMigrationEnable chip value s) := by
  unfold execMigrationEnable
  split
  · split
    · exact State.wf_migEnable h
    · exact h
  · exact h

theorem State.wf_roundStart {s : State} {chip} (h : s.Wf) : (s.roundStart chip).Wf := by
  unfold State.roundStart
  split
  · exact h
  · exact State.wf_updChip (State.wf_withHostMem h (Mem.wf_write _ _ (State.wf_hostMem h))) fun _ => id

theorem wf_execMigrationRound {s : State} {chip} (h : s.Wf) : Ans.Wf (execMigrationRound chip s) := by
  unfold execMigrationRound
  split
  · split
    · exact State.wf_roundStart h
    · exact h
  · exact h

theorem Chip.wf_roundCopy {c : Chip} (hc : c.Wf) : c.roundCopy.Wf := by
  refine Chip.wf_withMig hc fun m hm => ?_
  obtain rfl := Option.mem_some.mp hm
  refine List.foldlRecOn (motive := fun m => Mem.wf m = true) _ _ ?_ fun m hm p _ => Mem.wf_paste _ _ _ hm
  cases hs : c.mig.staging with
  | none => exact Mem.wf_nil
  | some m => exact Chip.wf_staging hc m hs

theorem wf_execMigrationRoundComplete {s : State} {chip} (h : s.Wf) : Ans.Wf (execMigrationRoundComplete chip s) := by
  unfold execMigrationRoundComplete
  split
  · split
    · exact State.wf_updChip h fun _ hc => Chip.wf_roundCopy hc
    · exact h
  · exact h

theorem wf_execMigrationDisable {s : State} {chip} (h : s.Wf) : Ans.Wf (execMigrationDisable chip s) :=
  State.wf_chipWrite h fun _ hc => Chip.wf_withMig hc fun _ hm => nomatch hm

theorem State.wf_writeMigctl {s : State} {chip v} (h : s.Wf) : (s.writeMigctl chip v).Wf := by
  unfold State.writeMigctl
  split
  · exact h
  · dsimp only
    split
    · split
      · exact State.wf_migEnable h
      · exact State.wf_updChip h fun _ => id
    · split
      · split
        · exact (Ans.wf_of_next (wf_execMigrationDisable h) ‹_› :)
        · exact h
      · split
        · split
          · exact (Ans.wf_of_next (wf_execMigrationRound h) ‹_› :)
          · exact h
        · exact h

end Sys2Proof.Machine
end

section
/-! SUPPORT. Samphire commands and links keep memories canonical. -/

namespace Sys2Proof.Machine

theorem wf_execSamtailWrite {s : State} {dev value} (h : s.Wf) : Ans.Wf (execSamtailWrite dev value s) := by
  unfold execSamtailWrite
  split
  · split
    · exact State.wf_updDev h
    · exact h
  · exact h

theorem State.wf_status {s : State} {dev code} (h : s.Wf) : (s.status dev code).Wf := by
  unfold State.status
  split
  · exact h
  · extract_lets t head u
    have ht : t.Wf := State.wf_withHostMem h (Mem.wf_write _ _ (State.wf_hostMem h))
    split <;> exact ht

theorem State.wf_updGuest {s : State} {guest f} (h : s.Wf) : (s.updGuest guest f).Wf := h

theorem wf_execHold {s : State} {dev} (h : s.Wf) : Ans.Wf (execHold dev s) := by
  unfold execHold
  split
  · exact h
  · split
    · exact h
    · split
      · exact State.wf_status h
      · split
        · exact State.wf_status h
        · extract_lets +onlyGivenNames s'
          have hs' : s'.Wf := State.wf_updGuest h
          split
          · exact State.wf_status hs'
          · split
            · exact h
            · exact hs'

theorem wf_execRelease {s : State} {dev} (h : s.Wf) : Ans.Wf (execRelease dev s) := by
  unfold execRelease
  split
  · exact h
  · split
    · exact h
    · split
      · exact State.wf_status h
      · split
        · exact State.wf_status h
        · split
          · exact State.wf_status h
          · split
            · exact h
            · exact State.wf_status (State.wf_updGuest h)

theorem State.wf_tableWrite {s : State} {dev op mask names may} {f : State → SamCmd → State} (h : s.Wf) (hf : ∀ c, (f s c).Wf) :
    Ans.Wf (s.tableWrite dev op mask names may f) := by
  unfold State.tableWrite
  split
  · exact h
  · split
    · exact h
    · split
      · exact State.wf_status h
      · split
        · exact State.wf_status h
        · split
          · exact State.wf_status h
          · exact State.wf_status (hf _)

theorem wf_execWvct {s : State} {dev} (h : s.Wf) : Ans.Wf (execWvct dev s) := by
  unfold execWvct
  refine State.wf_tableWrite h fun c => ?_
  have ht {f : Guest → Guest} : (s.updGuest c.guest f).Wf := h
  dsimp only
  split
  · exact State.wf_updChip ht fun _ => id
  · exact ht

theorem wf_execWrlt {s : State} {dev} (h : s.Wf) : Ans.Wf (execWrlt dev s) := State.wf_tableWrite h fun _ => State.wf_updGuest h

theorem State.wf_moveEvents {s : State} {chip from_ dest} (h : s.Wf) : (s.moveEvents chip from_ dest).Wf := by
  unfold State.moveEvents
  split
  · exact h
  · refine State.wf_foldl h fun _ _ h1 => ?_
    extract_lets +onlyGivenNames _ _ s1
    have hs1 : s1.Wf := State.wf_updCore h1
    split
    · exact hs1
    · exact State.wf_updCore hs1

theorem State.wf_moveProtection {s : State} {c : Chip} {dev slot} (h : s.Wf) : (s.moveProtection c dev slot).Wf := by
  unfold State.moveProtection
  split
  · exact State.wf_updDev (State.wf_updDev h)
  · exact h

theorem State.wf_moveLinks {s : State} {c : Chip} {dev} (h : s.Wf) : (s.moveLinks c dev).Wf := by
  unfold State.moveLinks
  split
  · refine State.wf_foldl h fun _ _ h1 => ?_
    extract_lets +onlyGivenNames _ s1
    have hs1 : s1.Wf := State.wf_updDev h1
    split
    · exact hs1
    · exact State.wf_updDev hs1
  · exact h

theorem Chip.wf_moved {c : Chip} {dev slot tiers} (hc : c.Wf) : (c.moved dev slot tiers).Wf := by
  have h := Chip.wf_withMig (m := Mig.reset) hc fun _ hm => nomatch hm
  exact h

theorem State.wf_moveChip {s : State} {c : Chip} {key dev slot tiers} (h : s.Wf) : (s.moveChip key c dev slot tiers).Wf := by
  unfold State.moveChip
  extract_lets +onlyGivenNames s1 s2 s3 s4
  have hs1 : s1.Wf := by
    unfold s1
    split
    · exact h
    · exact State.wf_moveLinks (State.wf_moveEvents h)
  have hs2 : s2.Wf := by
    unfold s2
    split
    · exact State.wf_moveProtection hs1
    · exact hs1
  have hs3 : s3.Wf := State.wf_updDev hs2
  have hs4 : s4.Wf := State.wf_updDev hs3
  exact State.wf_updChip hs4 fun _ hc1 => Chip.wf_moved hc1

theorem wf_execXfer {s : State} {dev} (h : s.Wf) : Ans.Wf (execXfer dev s) := by
  unfold execXfer
  split
  · exact h
  · split
    · exact h
    · dsimp only
      split
      · split
        · exact State.wf_status h
        · split
          · exact State.wf_status h
          · split
            · exact State.wf_status h
            · split
              · exact State.wf_status h
              · split
                · exact State.wf_status h
                · split
                  · exact h
                  · refine State.wf_status ?_
                    refine State.wf_moveChip ?_
                    split
                    · exact State.wf_roundStart h
                    · exact h
      · exact State.wf_status h

theorem State.wf_updLink {s : State} {dev plane f} (h : s.Wf) : (s.updLink dev plane f).Wf := State.wf_updDev h

theorem State.wf_remapping {s : State} {on} (h : s.Wf) : (s.remapping on).Wf := h

theorem State.wf_setPlanes {s : State} {dev plane on} (h : s.Wf) : (s.setPlanes dev plane on).Wf := h

theorem State.wf_setLive {s : State} {dev plane on} (h : s.Wf) : (s.setLive dev plane on).Wf := State.wf_updDev h

theorem State.wf_resend {s : State} {dev plane} (h : s.Wf) : (s.resend dev plane).Wf := State.wf_backAtSender h

theorem State.wf_endRemap {s : State} (h : s.Wf) : (s.endRemap).Wf := State.wf_remapping h

theorem State.wf_remap {s : State} {dev plane} (h : s.Wf) : (s.remap dev plane).Wf :=
  State.wf_endRemap (State.wf_resend (State.wf_setPlanes (State.wf_setLive h)))

theorem State.wf_failLink {s : State} {dev plane} (h : s.Wf) : (s.failLink dev plane).Wf := State.wf_endRemap (State.wf_updLink h)

theorem wf_execLinkLaneLoss {s : State} {dev plane lanes} (h : s.Wf) : Ans.Wf (execLinkLaneLoss dev plane lanes s) := by
  unfold execLinkLaneLoss
  split
  · exact h
  · dsimp only
    split
    · exact h
    · split
      · split
        · exact State.wf_remap h
        · exact h
      · split
        · exact h
        · split
          · exact State.wf_failLink (State.wf_updLink h)
          · exact State.wf_updLink h

theorem wf_execLinkBufferRetire {s : State} {dev plane flits} (h : s.Wf) : Ans.Wf (execLinkBufferRetire dev plane flits s) := by
  unfold execLinkBufferRetire
  split
  · exact h
  · dsimp only
    split
    · exact h
    · split
      · exact State.wf_failLink (State.wf_updLink h)
      · exact State.wf_updLink h

theorem wf_execLinkRetrainComplete {s : State} {dev plane} (h : s.Wf) : Ans.Wf (execLinkRetrainComplete dev plane s) := by
  unfold execLinkRetrainComplete
  split
  · exact h
  · split
    · exact h
    · exact State.wf_updLink h

theorem wf_execLinkRepair {s : State} {dev plane} (h : s.Wf) : Ans.Wf (execLinkRepair dev plane s) := by
  unfold execLinkRepair
  split
  · exact h
  · split
    · exact h
    · split
      · split
        · exact State.wf_endRemap (State.wf_setPlanes (State.wf_setLive h))
        · exact h
      · split
        · exact h
        · exact State.wf_remapping (State.wf_updLink h)

end Sys2Proof.Machine
end

section
/-! SUPPORT. Keys, interfaces, devices and the host keep memories canonical. -/

namespace Sys2Proof.Machine

theorem State.wf_revokeGuest {s : State} {guest} (h : s.Wf) : (s.revokeGuest guest).Wf :=
  State.wf_foldl h fun _ _ h1 => State.wf_updChip (State.wf_stopChip (State.wf_updDev h1)) fun _ => id

theorem State.wf_generate {s : State} {n} (h : s.Wf) : (s.generate n).2.Wf := h

theorem State.wf_ksRun {s : State} {dev c} (h : s.Wf) : (s.ksRun dev c).Wf := by
  unfold State.ksRun
  split
  · exact h
  · dsimp only
    split
    · exact State.wf_updDev (State.wf_generate h)
    · exact State.wf_updDev h
    · exact State.wf_updDev h
    · split
      · exact State.wf_revokeGuest (State.wf_updDev h)
      · exact State.wf_updDev h
    · exact State.wf_updDev h

theorem State.wf_writeKscmd {s : State} {dev v} (h : s.Wf) : (s.writeKscmd dev v).Wf := by
  unfold State.writeKscmd
  split
  · exact h
  · dsimp only
    split
    · exact State.wf_updDev h
    · exact State.wf_updDev (State.wf_ksRun h)

theorem State.wf_keyEvent {s : State} {dev v ok} (h : s.Wf) : Ans.Wf (s.keyEvent dev v ok) := by
  unfold State.keyEvent
  split
  · split
    · exact h
    · split
      · exact State.wf_writeKscmd h
      · exact h
  · exact h

theorem wf_execGen {s : State} {dev cmd} (h : s.Wf) : Ans.Wf (execGen dev cmd s) := State.wf_keyEvent h

theorem wf_execLoad {s : State} {dev cmd} (h : s.Wf) : Ans.Wf (execLoad dev cmd s) := State.wf_keyEvent h

theorem wf_execActivate {s : State} {dev cmd} (h : s.Wf) : Ans.Wf (execActivate dev cmd s) := State.wf_keyEvent h

theorem wf_execRevoke {s : State} {dev cmd} (h : s.Wf) : Ans.Wf (execRevoke dev cmd s) := State.wf_keyEvent h

theorem wf_execErase {s : State} {dev cmd} (h : s.Wf) : Ans.Wf (execErase dev cmd s) := State.wf_keyEvent h

theorem State.wf_endDrain {s : State} {dev slot kind ok} (h : s.Wf) : Ans.Wf (s.endDrain dev slot kind ok) := by
  unfold State.endDrain
  split
  · dsimp only
    split
    · exact State.wf_updDev h
    · exact h
  · exact h

theorem wf_execKeyReencryptComplete {s : State} {dev slot} (h : s.Wf) : Ans.Wf (execKeyReencryptComplete dev slot s) := State.wf_endDrain h

theorem wf_execLinkQueuesDrained {s : State} {dev slot} (h : s.Wf) : Ans.Wf (execLinkQueuesDrained dev slot s) := State.wf_endDrain h

theorem wf_execLinkCounterWarn {s : State} {dev slot} (h : s.Wf) : Ans.Wf (execLinkCounterWarn dev slot s) := by
  unfold execLinkCounterWarn
  split
  · dsimp only
    split
    · exact State.wf_notice (State.wf_updDev h)
    · exact h
  · exact h

theorem wf_execLinkCounterExhausted {s : State} {dev slot} (h : s.Wf) : Ans.Wf (execLinkCounterExhausted dev slot s) := by
  unfold execLinkCounterExhausted
  split
  · split <;> exact h
  · exact h

theorem State.wf_answer {s : State} {dev request ok payload} (h : s.Wf) : (s.answer dev request ok payload).Wf := State.wf_updDev h

theorem State.wf_tdisp {s : State} {dev slot request f payload} (h : s.Wf) (hf : ∀ d t, State.OptWf (f d t)) :
    Ans.Wf (s.tdisp dev slot request f payload) := by
  unfold State.tdisp
  split
  · exact h
  · split
    · exact h
    · dsimp only
      split
      · exact State.wf_answer (State.wf_of_some (hf _ _) ‹_›)
      · exact State.wf_answer h

theorem wf_execLockInterface {s : State} {dev slot} (h : s.Wf) : Ans.Wf (execLockInterface dev slot s) := by
  unfold execLockInterface
  refine State.wf_tdisp h fun _ _ => ?_
  split
  · split
    · exact State.optWf_some (State.wf_setTdi h)
    · exact State.optWf_none
  · exact State.optWf_none

theorem State.wf_protKey {s : State} {dev guest kind chipA} (h : s.Wf) : (s.protKey dev guest kind chipA).Wf := by
  unfold State.protKey
  split
  · exact h
  · exact State.wf_updDev (State.wf_generate h)

theorem State.wf_linkKey {s : State} {guest a b} (h : s.Wf) : (s.linkKey guest a b).Wf := by
  unfold State.linkKey
  dsimp only
  split
  · split
    · exact State.wf_updDev (State.wf_generate h)
    · exact State.wf_updDev (State.wf_updDev (State.wf_generate h))
  · exact h

theorem State.wf_linkKeys {s : State} {guest num} (h : s.Wf) : (s.linkKeys guest num).Wf :=
  State.wf_foldl h fun _ _ h1 => State.wf_linkKey (State.wf_linkKey h1)

theorem State.wf_protKeys {s : State} {guest} (h : s.Wf) : (s.protKeys guest).Wf := h

theorem wf_execProtectedCreationCommit {s : State} {dev slot} (h : s.Wf) : Ans.Wf (execProtectedCreationCommit dev slot s) := by
  unfold execProtectedCreationCommit
  split
  · exact h
  · split
    · exact h
    · split
      · exact h
      · extract_lets s1 s2 s3 s4 f s5
        have hs1 : s1.Wf := State.wf_updChip h fun c hc => (Chip.wf_withMem (Chip.wf_touchRange hc) Mem.wf_nil :)
        have hs2 : s2.Wf := hs1
        have hs3 : s3.Wf := State.wf_protKey (State.wf_protKey (State.wf_protKey (State.wf_protKeys hs2)))
        have hs4 : s4.Wf := State.wf_linkKeys hs3
        exact State.wf_setTdi (State.wf_updDev (State.wf_free hs4))

theorem wf_execStartInterface {s : State} {dev slot} (h : s.Wf) : Ans.Wf (execStartInterface dev slot s) := by
  unfold execStartInterface
  refine State.wf_tdisp h fun _ _ => ?_
  split
  · exact State.optWf_some (State.wf_setTdi h)
  · exact State.optWf_none

theorem wf_execTdispGetVersion {s : State} {dev slot} (h : s.Wf) : Ans.Wf (execTdispGetVersion dev slot s) :=
  State.wf_tdisp h fun _ _ => State.optWf_some h

theorem wf_execTdispGetCapabilities {s : State} {dev slot} (h : s.Wf) : Ans.Wf (execTdispGetCapabilities dev slot s) :=
  State.wf_tdisp h fun _ _ => State.optWf_some h

theorem wf_execGetDeviceInterfaceReport {s : State} {dev slot} (h : s.Wf) : Ans.Wf (execGetDeviceInterfaceReport dev slot s) := by
  unfold execGetDeviceInterfaceReport
  refine State.wf_tdisp h fun _ _ => ?_
  split
  · exact State.optWf_some h
  · exact State.optWf_none

theorem wf_execGetDeviceInterfaceState {s : State} {dev slot} (h : s.Wf) : Ans.Wf (execGetDeviceInterfaceState dev slot s) :=
  State.wf_tdisp h fun _ _ => State.optWf_some h

theorem wf_execConfigurationChange {s : State} {dev slot} (h : s.Wf) : Ans.Wf (execConfigurationChange dev slot s) := by
  unfold execConfigurationChange
  split
  · dsimp only
    split
    · exact State.wf_tdiError h
    · exact h
  · exact h

theorem wf_execFunctionReset {s : State} {dev slot} (h : s.Wf) : Ans.Wf (execFunctionReset dev slot s) := by
  unfold execFunctionReset
  split
  · dsimp only
    split
    · exact State.wf_tdiError h
    · exact h
  · exact h

theorem State.wf_spdmStep {s : State} {dev request ok f payload} (h : s.Wf) : Ans.Wf (s.spdmStep dev request ok f payload) := by
  unfold State.spdmStep
  split
  · exact h
  · split
    · exact h
    · split
      · exact State.wf_answer (State.wf_updDev h)
      · exact State.wf_answer h

theorem wf_execSpdmGetVersion {s : State} {dev request} (h : s.Wf) : Ans.Wf (execSpdmGetVersion dev request s) := State.wf_spdmStep h

theorem wf_execSpdmGetCapabilities {s : State} {dev request} (h : s.Wf) : Ans.Wf (execSpdmGetCapabilities dev request s) := State.wf_spdmStep h

theorem wf_execNegotiateAlgorithms {s : State} {dev request} (h : s.Wf) : Ans.Wf (execNegotiateAlgorithms dev request s) := State.wf_spdmStep h

theorem wf_execGetDigests {s : State} {dev request} (h : s.Wf) : Ans.Wf (execGetDigests dev request s) := State.wf_spdmStep h

theorem wf_execGetCertificate {s : State} {dev request} (h : s.Wf) : Ans.Wf (execGetCertificate dev request s) := State.wf_spdmStep h

theorem wf_execChallenge {s : State} {dev request} (h : s.Wf) : Ans.Wf (execChallenge dev request s) := State.wf_spdmStep h

theorem wf_execGetMeasurements {s : State} {dev request} (h : s.Wf) : Ans.Wf (execGetMeasurements dev request s) := State.wf_spdmStep h

theorem wf_execKeyExchange {s : State} {dev request} (h : s.Wf) : Ans.Wf (execKeyExchange dev request s) := State.wf_spdmStep h

theorem wf_execFinish {s : State} {dev request} (h : s.Wf) : Ans.Wf (execFinish dev request s) := State.wf_spdmStep h

theorem wf_execIdeKm {s : State} {dev slot} (h : s.Wf) : Ans.Wf (execIdeKm dev slot s) := by
  unfold execIdeKm
  refine State.wf_tdisp h fun _ _ => ?_
  split
  · exact State.optWf_some (State.wf_setTdi h)
  · exact State.optWf_none

theorem wf_execDebugUnlockRequest {s : State} {dev addr} (h : s.Wf) : Ans.Wf (execDebugUnlockRequest dev addr s) := by
  unfold execDebugUnlockRequest
  split
  · exact h
  · split
    · exact h
    · split <;> exact State.wf_updDev h

theorem wf_execDebugTokenVerified {s : State} {dev verdict} (h : s.Wf) : Ans.Wf (execDebugTokenVerified dev verdict s) := by
  unfold execDebugTokenVerified
  split
  · exact h
  · split
    · exact h
    · exact State.wf_updDev h

theorem Chip.wf_new {guest num dev slot quota near tiers csarea} : (Chip.new guest num dev slot quota near tiers csarea).Wf :=
  Chip.wf_iff.mpr ⟨Mem.wf_nil, fun _ hm => (nomatch hm), fun _ ht => nomatch ht⟩

theorem wf_execChipCreation {s : State} {chip dev slot quota near} (h : s.Wf) : Ans.Wf (execChipCreation chip dev slot quota near s) := by
  unfold execChipCreation
  split
  · exact Ans.wf_ite (fun _ => h) fun _ => h
  · refine Ans.wf_ite (fun _ => h) fun _ => ?_
    have hput (c : Chip) (hc : c.Wf) := State.wf_withChips h (Tab.forall_put (n := chip) (State.wf_chips h) hc)
    exact hput _ Chip.wf_new

theorem State.wf_purge {s : State} {chip} (h : s.Wf) : (s.purge chip).Wf := by
  unfold State.purge
  split
  · exact h
  · have hs : (s.clearCores chip).Wf := State.wf_clearCores h
    dsimp only
    exact State.wf_foldl (hs :) fun _ _ => State.wf_discarded

theorem wf_execChipDestruction {s : State} {chip} (h : s.Wf) : Ans.Wf (execChipDestruction chip s) := by
  unfold execChipDestruction
  split
  · exact h
  · extract_lets t u
    have ht : t.Wf := State.wf_purge (State.wf_tdiError h)
    have hu : u.Wf := State.wf_withChips ht (Tab.forall_drop (State.wf_chips ht))
    exact State.wf_leaveTurn (State.wf_updDev hu)

theorem State.wf_eraseKeys {s : State} {dev guest} (h : s.Wf) : (s.eraseKeys dev guest).Wf := by
  unfold State.eraseKeys
  split
  · exact h
  · extract_lets +onlyGivenNames _ s1
    have hs1 : s1.Wf := by
      unfold s1
      split
      · exact State.wf_revokeGuest h
      · exact h
    exact State.wf_updDev hs1

theorem wf_execStopInterface {s : State} {dev slot} (h : s.Wf) : Ans.Wf (execStopInterface dev slot s) := State.wf_tdisp h fun d t => by
  split
  · exact State.optWf_none
  · refine State.optWf_some (State.wf_updDev (State.wf_setTdi ?_))
    split
    · exact h
    · extract_lets u v
      have hu : u.Wf := State.wf_eraseKeys (State.wf_purge h)
      have hv : v.Wf := State.wf_leaveTurn (State.wf_updChip hu fun _ _ => Chip.wf_new)
      exact hv

theorem wf_execDeviceReset {s : State} {dev} (h : s.Wf) : Ans.Wf (execDeviceReset dev s) := by
  unfold execDeviceReset
  split
  · exact h
  · extract_lets mine t kept
    have ht : t.Wf := State.wf_foldl h fun _ _ => State.wf_purge
    have hkept (p) := State.wf_withChips ht (cs := t.chips.filter p) fun c hc => State.wf_chips ht c (List.mem_of_mem_filter hc)
    exact State.wf_endRemap (hkept _ :)

theorem wf_execBringUpStage {s : State} {dev err} (h : s.Wf) : Ans.Wf (execBringUpStage dev err s) := by
  unfold execBringUpStage
  split
  · exact h
  · split
    · exact h
    · split
      · exact State.wf_updDev h
      · split
        · exact State.wf_updDev h
        · exact h

theorem wf_execCoreClockReduction {s : State} {dev draw} (h : s.Wf) : Ans.Wf (execCoreClockReduction dev draw s) := by
  unfold execCoreClockReduction
  split
  · exact State.wf_updDev h
  · exact h

theorem wf_execPowerUngate {s : State} {core} (h : s.Wf) : Ans.Wf (execPowerUngate core s) := by
  unfold execPowerUngate
  split
  · dsimp only
    split
    · exact h
    · exact State.wf_updCore h
  · exact h

theorem Chip.wf_hostWrote {c : Chip} {a n} (hc : c.Wf) : (c.hostWrote a n).Wf := hc

theorem wf_execHostMemoryWrite {s : State} {place addr bytes} (h : s.Wf) : Ans.Wf (execHostMemoryWrite place addr bytes s) := by
  unfold execHostMemoryWrite
  split
  · split
    · exact State.wf_withHostMem h (Mem.wf_write _ _ (State.wf_hostMem h))
    · exact h
  · split
    · exact h
    · split
      · exact h
      · split
        · exact h
        · exact State.wf_updChip (State.wf_writeBytes h) fun _ => Chip.wf_hostWrote

theorem wf_execHostAtomicOp {s : State} {chip addr op wide value cmp phase} (h : s.Wf) : Ans.Wf (execHostAtomicOp chip addr op wide value cmp phase s) := by
  unfold execHostAtomicOp
  split
  · exact h
  · dsimp only
    split
    · exact h
    · split
      · exact h
      · split
        · split
          · exact h
          · split
            · split
              · exact State.wf_writePlaces h
              · exact State.wf_updChip (State.wf_writePlaces h) fun _ hc => Chip.wf_hostWrote hc
            · exact State.wf_writePlaces h
        · split
          · exact h
          · exact State.wf_updChip h fun _ => id
        · refine State.wf_updChip ?_ (fun _ => id)
          split
          · exact h
          · split
            · split
              · exact State.wf_writePlaces h
              · exact State.wf_updChip (State.wf_writePlaces h) fun _ hc => Chip.wf_hostWrote hc
            · exact State.wf_writePlaces h
        · exact h

end Sys2Proof.Machine
end

section
/-! SUPPORT. Cross-lane and moment instructions and register writes from an instruction or from outside keep memories canonical. -/

namespace Sys2Proof.Machine

theorem wf_execVote {s : State} {x} (h : s.Wf) : Ans.Wf (execVote x s) := wf_issue h fun _ => by
  dsimp only
  split
  · exact Ctx.wf_test h
  · exact Ctx.wf_test h
  · exact Ctx.wf_value h

theorem wf_execMatchLanes {s : State} {x} (h : s.Wf) : Ans.Wf (execMatchLanes x s) := wf_issue h fun _ => by
  dsimp only
  split <;> exact Ctx.wf_value h

theorem Ctx.wf_moments {c : Ctx} {s : State} {f} (h : s.Wf) : (c.moments s f).Wf := h

theorem Ctx.wf_binary {c : Ctx} {s : State} {f} (h : s.Wf) : (c.binary s f).Wf := by
  unfold Ctx.binary
  split
  · trivial
  · split
    · trivial
    · exact Ctx.wf_moments h

theorem wf_execMfma {s : State} {x} (h : s.Wf) : Ans.Wf (execMfma x s) := wf_issue h fun _ => by
  split
  · trivial
  · split
    · trivial
    · exact Ctx.wf_moments h

theorem wf_execMscl {s : State} {x} (h : s.Wf) : Ans.Wf (execMscl x s) := wf_issue h fun _ => by
  split
  · trivial
  · exact Ctx.wf_moments h

theorem wf_execMset {s : State} {x} (h : s.Wf) : Ans.Wf (execMset x s) := wf_issue h fun _ => by
  split
  · trivial
  · exact Ctx.wf_moments h

theorem wf_execMld {s : State} {x} (h : s.Wf) : Ans.Wf (execMld x s) := wf_issue h fun _ => by
  split
  · trivial
  · exact Ctx.wf_loadFrom h

theorem Ctx.wf_unary {c : Ctx} {s : State} {f} (h : s.Wf) : (c.unary s f).Wf := by
  unfold Ctx.unary
  split
  · trivial
  · exact Ctx.wf_moments h

theorem wf_execMcol {s : State} {x} (h : s.Wf) : Ans.Wf (execMcol x s) := wf_issue h fun _ => by
  split
  · trivial
  · exact Ctx.wf_floats h

theorem Ans.wf_state {a : Ans} {s : State} (h : s.Wf) (ha : a.Wf) : (Ans.state a s).Wf := by
  cases a with
  | next t => exact ha
  | fault d => exact h
  | refused r => exact h

theorem State.wf_writeQueue {s : State} {key q which v firm} (h : s.Wf) : (s.writeQueue key q which v firm).Wf := by
  unfold State.writeQueue
  split
  · refine State.wf_updChip h fun _ hc => ?_
    dsimp only
    split <;> exact hc
  · exact State.wf_updChip h fun _ => id
  · exact State.wf_updChip h fun _ => id
  · exact h

theorem State.wf_writeSched {s : State} {key lv idx v} (h : s.Wf) : (s.writeSched key lv idx v).Wf := by
  have hlt (n : Nat) := Ans.wf_state h (wf_execLtWrite (chip := key) (n := n) (value := v) h)
  unfold State.writeSched
  split
  · exact State.wf_writeQueue h
  · split
    · exact hlt _
    · split
      · exact State.wf_writeCores h
      · exact State.wf_updChip h fun _ => id
      · exact State.wf_updChip h fun _ => id
      · exact State.wf_updChip h fun _ => id
      · split
        · exact Ans.wf_state h (wf_execXlfaultRetry h)
        · split
          · exact Ans.wf_state h (wf_execXlfaultAbort h)
          · exact h
      · exact State.wf_updChip h fun _ => id
      · exact State.wf_updChip h fun _ => id
      · exact State.wf_updChip h fun _ => id
      · exact State.wf_writeMigctl h
      · exact State.wf_updChip h fun _ => id
      · exact h

theorem Chip.wf_writeTrap {c : Chip} {idx v} (hc : c.Wf) : (c.writeTrap idx v).Wf := by
  unfold Chip.writeTrap
  dsimp only
  split
  · split <;> exact hc
  · split <;> exact hc
  · split <;> exact hc
  · exact Chip.wf_writeTctl hc
  · exact hc
  · exact hc
  · exact hc

theorem State.wf_writeTide {s : State} {key idx v} (h : s.Wf) : (s.writeTide key idx v).Wf := by
  unfold State.writeTide
  split
  · exact State.wf_writeRegion h
  · split
    · exact State.wf_updChip h fun _ => id
    · exact State.wf_updChip h fun _ => id
    · exact State.wf_updChip h fun _ => id
    · exact State.wf_writeTibq h
    · exact Ans.wf_state h (wf_execTlogWrite h)
    · exact h

theorem Chip.wf_writeInbox {c : Chip} {idx v} (hc : c.Wf) : (c.writeInbox idx v).Wf := by
  unfold Chip.writeInbox
  split
  · dsimp only
    split
    · exact Chip.wf_writeMbxBase hc
    · exact Chip.wf_writeMbxSize hc
  · dsimp only
    split
    · exact Chip.wf_writeRxBase hc
    · exact Chip.wf_writeRxctl hc

theorem State.wf_writeDev {s : State} {dev idx v} (h : s.Wf) : (s.writeDev dev idx v).Wf := by
  unfold State.writeDev
  split
  · exact Ans.wf_state h (wf_execMcsetWrite h)
  · split
    · exact State.wf_updDev h
    · split
      · exact State.wf_updDev h
      · exact Ans.wf_state h (wf_execSamtailWrite h)
      · exact Ans.wf_state h (wf_execGselWrite h)
      · split
        · refine State.wf_updChip h fun _ hc => ?_
          split <;> exact hc
        · exact h
      · exact State.wf_updDev h
      · exact State.wf_writeKscmd h
      · exact Ans.wf_state h (wf_execDebugUnlockRequest h)
      · exact h

theorem wf_execSysr {s : State} {x} (h : s.Wf) : Ans.Wf (execSysr x s) := wf_issue h fun _ => by
  split
  · exact Ctx.wf_value h
  · trivial
  · trivial

theorem Chip.wf_of_writeCapctl {c d : Chip} {n v lv} (h : c.Wf) (hd : c.writeCapctl n v lv = some d) : d.Wf := by
  unfold Chip.writeCapctl at hd
  extract_lets host bits at hd
  split at hd
  · obtain ⟨b, -, rfl⟩ := Option.map_eq_some_iff.mp hd
    exact h
  · obtain ⟨b, -, rfl⟩ := Option.map_eq_some_iff.mp hd
    exact h
  · cases hd
    exact h

theorem State.wf_of_writeReg {s t : State} {key c lv idx v} (h : s.Wf) (hc : s.chip? key = some c) (ht : s.writeReg key c lv idx v = .ok t) : t.Wf := by
  have hok {u : State} (hu : u.Wf) (e : RegRes.ok u = .ok t) : t.Wf := by
    cases e
    exact hu
  unfold State.writeReg at ht
  split at ht
  · exact hok h ht
  · split at ht
    · exact hok (State.wf_writeSched h) ht
    · split at ht
      · exact hok (State.wf_updChip h fun _ => Chip.wf_writeTrap) ht
      · split at ht
        · exact hok (State.wf_writeTide h) ht
        · split at ht
          · exact hok (State.wf_updChip h fun _ => Chip.wf_writeInbox) ht
          · split at ht
            · exact hok (State.wf_writeDev h) ht
            · split at ht
              · exact hok h ht
              · split at ht
                · exact hok (State.wf_updChip h fun _ _ => Chip.wf_of_writeCapctl (State.wf_chip h hc) ‹_›) ht
                · cases ht

theorem State.wf_of_sysWrite {s t : State} {key lv idx v} (h : s.Wf) (ht : s.sysWrite key lv idx v = .ok t) : t.Wf := by
  unfold State.sysWrite at ht
  split at ht
  · cases ht
  · split at ht
    · cases ht
    · split at ht
      · cases ht
      · exact State.wf_of_writeReg h ‹_› ht

theorem wf_execSysw {s : State} {x} (h : s.Wf) : Ans.Wf (execSysw x s) := wf_issue h fun c => by
  split
  · exact State.wf_of_sysWrite h ‹_›
  · trivial
  · trivial

theorem wf_execCapctlWrite {s : State} {chip n value level} (h : s.Wf) : Ans.Wf (execCapctlWrite chip n value level s) := by
  unfold execCapctlWrite
  split
  · exact h
  · split
    · exact h
    · split
      · exact State.wf_of_sysWrite h ‹_›
      · exact h

theorem wf_execRegisterWrite {s : State} {place index value level} (h : s.Wf) : Ans.Wf (execRegisterWrite place index value level s) := by
  unfold execRegisterWrite
  split
  · split
    · have ht := State.wf_of_sysWrite h ‹_›
      split
      · exact ht
      · exact h
    · exact h
    · exact h
  · split
    · exact h
    · split
      · exact h
      · split
        · exact State.wf_writeDev h
        · exact h
  · split
    · exact h
    · split
      · exact State.wf_updDev h
      · exact h

end Sys2Proof.Machine
end

section
/-! SUPPORT. The step keeps memories canonical (O58): every instruction and event, every event that the hardware may choose, a cycle of every die. -/

namespace Sys2Proof.Machine

/-- Every instruction and every event keeps memories canonical: what it makes of the state is made by operations that do. -/
theorem wf_exec {s : State} (h : s.Wf) : ∀ i : Instr, Ans.Wf (exec i s)
  | .fillWord => wf_execFillWord h
  | .iadd x => (wf_issue h fun _ => wf_arith2 h : Ans.Wf (execIadd x s))
  | .isub x => (wf_issue h fun _ => wf_arith2 h : Ans.Wf (execIsub x s))
  | .iaddc x => (wf_issue h fun _ => Ctx.wf_value (State.wf_updGangOf h) : Ans.Wf (execIaddc x s))
  | .imul x => (wf_issue h fun _ => Ctx.wf_value h : Ans.Wf (execImul x s))
  | .imin x => (wf_issue h fun _ => wf_arith2 h : Ans.Wf (execImin x s))
  | .imax x => (wf_issue h fun _ => wf_arith2 h : Ans.Wf (execImax x s))
  | .iabs x => (wf_issue h fun _ => Ctx.wf_value h : Ans.Wf (execIabs x s))
  | .imad x => (wf_issue h fun _ => Ctx.wf_value h : Ans.Wf (execImad x s))
  | .shl x => (wf_issue h fun _ => wf_bits2 h : Ans.Wf (execShl x s))
  | .shr x => (wf_issue h fun _ => wf_bits2 h : Ans.Wf (execShr x s))
  | .rot x => (wf_issue h fun _ => wf_bits2 h : Ans.Wf (execRot x s))
  | .and x => (wf_issue h fun _ => wf_bits2 h : Ans.Wf (execAnd x s))
  | .or x => (wf_issue h fun _ => wf_bits2 h : Ans.Wf (execOr x s))
  | .xor x => (wf_issue h fun _ => wf_bits2 h : Ans.Wf (execXor x s))
  | .not x => (wf_issue h fun _ => wf_bits1 h : Ans.Wf (execNot x s))
  | .popc x => (wf_issue h fun _ => wf_bits1 h : Ans.Wf (execPopc x s))
  | .clz x => (wf_issue h fun _ => wf_bits1 h : Ans.Wf (execClz x s))
  | .ctz x => (wf_issue h fun _ => wf_bits1 h : Ans.Wf (execCtz x s))
  | .brev x => (wf_issue h fun _ => wf_bits1 h : Ans.Wf (execBrev x s))
  | .bfe x => (wf_issue h fun _ => Ctx.wf_value h : Ans.Wf (execBfe x s))
  | .bfi x => (wf_issue h fun _ => Ctx.wf_value h : Ans.Wf (execBfi x s))
  | .bternTableBit7Clear x => (wf_issue h fun _ => Ctx.wf_value h : Ans.Wf (execBternTableBit7Clear x s))
  | .bternTableBit7Set x => (wf_issue h fun _ => Ctx.wf_value h : Ans.Wf (execBternTableBit7Set x s))
  | .icmp x => (wf_issue h fun _ => Ctx.wf_test h : Ans.Wf (execIcmp x s))
  | .isel x => (wf_issue h fun _ => Ctx.wf_value h : Ans.Wf (execIsel x s))
  | .lea x => (wf_issue h fun _ => Ctx.wf_value h : Ans.Wf (execLea x s))
  | .mov x => (wf_issue h fun _ => Ctx.wf_value h : Ans.Wf (execMov x s))
  | .movi x => (wf_issue h fun _ => Ctx.wf_value h : Ans.Wf (execMovi x s))
  | .movu x => (wf_issue h fun _ => Ctx.wf_value h : Ans.Wf (execMovu x s))
  | .icvt x => (wf_issue h fun _ => Ctx.wf_value h : Ans.Wf (execIcvt x s))
  | .movs _ => wf_execMovs h
  | .pset x => (wf_issue h fun _ => Ctx.wf_test h : Ans.Wf (execPset x s))
  | .plop x => (wf_issue h fun _ => Ctx.wf_test h : Ans.Wf (execPlop x s))
  | .pmov _ => wf_execPmov h
  | .sadd x => (wf_issue h fun _ => Ctx.wf_value h : Ans.Wf (execSadd x s))
  | .smul x => (wf_issue h fun _ => Ctx.wf_value h : Ans.Wf (execSmul x s))
  | .smov x => (wf_issue h fun _ => Ctx.wf_value h : Ans.Wf (execSmov x s))
  | .sld _ => wf_execSld h
  | .scmp x => (wf_issue h fun _ => Ctx.wf_test h : Ans.Wf (execScmp x s))
  | .bra x => (wf_issue h fun _ => h : Ans.Wf (execBra x s))
  | .call x => (wf_issue h fun _ => h : Ans.Wf (execCall x s))
  | .brx x => (wf_issue h fun _ => wf_indirect h : Ans.Wf (execBrx x s))
  | .ret _ => wf_execRet h
  | .exit _ => wf_execExit h
  | .yield x => (wf_issue h fun _ => State.wf_updGangOf h : Ans.Wf (execYield x s))
  | .nop x => (wf_issue h fun _ => h : Ans.Wf (execNop x s))
  | .shfl x => (wf_issue h fun _ => Ctx.wf_value h : Ans.Wf (execShfl x s))
  | .vote _ => wf_execVote h
  | .matchLanes _ => wf_execMatchLanes h
  | .lredux x => (wf_issue h fun _ => Ctx.wf_value h : Ans.Wf (execLredux x s))
  | .lprfx x => (wf_issue h fun _ => Ctx.wf_value h : Ans.Wf (execLprfx x s))
  | .elect x => (wf_issue h fun _ => Ctx.wf_test h : Ans.Wf (execElect x s))
  | .uniassert x => (wf_issue h fun _ => h : Ans.Wf (execUniassert x s))
  | .fadd x => (wf_issue h fun _ => Ctx.wf_floats h : Ans.Wf (execFadd x s))
  | .fsub x => (wf_issue h fun _ => Ctx.wf_floats h : Ans.Wf (execFsub x s))
  | .fmul x => (wf_issue h fun _ => Ctx.wf_floats h : Ans.Wf (execFmul x s))
  | .ffma x => (wf_issue h fun _ => wf_fmaAt h : Ans.Wf (execFfma x s))
  | .ffmaF64Short x => (wf_issue h fun _ => wf_fmaAt h : Ans.Wf (execFfmaF64Short x s))
  | .fdiv x => (wf_issue h fun _ => Ctx.wf_floatsLate h : Ans.Wf (execFdiv x s))
  | .fsqrt x => (wf_issue h fun _ => Ctx.wf_floatsLate h : Ans.Wf (execFsqrt x s))
  | .fmin x => (wf_issue h fun _ => Ctx.wf_minMax h : Ans.Wf (execFmin x s))
  | .fmax x => (wf_issue h fun _ => Ctx.wf_minMax h : Ans.Wf (execFmax x s))
  | .frcp x => (wf_issue h fun _ => Ctx.wf_approx h : Ans.Wf (execFrcp x s))
  | .frsq x => (wf_issue h fun _ => Ctx.wf_approx h : Ans.Wf (execFrsq x s))
  | .fex2 x => (wf_issue h fun _ => Ctx.wf_approx h : Ans.Wf (execFex2 x s))
  | .flg2 x => (wf_issue h fun _ => Ctx.wf_approx h : Ans.Wf (execFlg2 x s))
  | .fsin x => (wf_issue h fun _ => Ctx.wf_approx h : Ans.Wf (execFsin x s))
  | .fcos x => (wf_issue h fun _ => Ctx.wf_approx h : Ans.Wf (execFcos x s))
  | .fcmp x => (wf_issue h fun _ => Ctx.wf_floats h : Ans.Wf (execFcmp x s))
  | .fclass x => (wf_issue h fun _ => Ctx.wf_value h : Ans.Wf (execFclass x s))
  | .frnd x => (wf_issue h fun _ => Ctx.wf_floats h : Ans.Wf (execFrnd x s))
  | .fgetexp x => (wf_issue h fun _ => Ctx.wf_floats h : Ans.Wf (execFgetexp x s))
  | .fldexp x => (wf_issue h fun _ => Ctx.wf_floats h : Ans.Wf (execFldexp x s))
  | .fcpys x => (wf_issue h fun _ => Ctx.wf_value h : Ans.Wf (execFcpys x s))
  | .fcvt x => (wf_issue h fun _ => Ctx.wf_floats h : Ans.Wf (execFcvt x s))
  | .f2i x => (wf_issue h fun _ => Ctx.wf_floats h : Ans.Wf (execF2i x s))
  | .i2f x => (wf_issue h fun _ => Ctx.wf_floats h : Ans.Wf (execI2f x s))
  | .fstat _ => wf_execFstat h
  | .pkadd x => (wf_issue h fun _ => Ctx.wf_floats h : Ans.Wf (execPkadd x s))
  | .pkfma x => (wf_issue h fun _ => Ctx.wf_floats h : Ans.Wf (execPkfma x s))
  | .dot4 _ => wf_execDot4 h
  | .dot2 x => (wf_issue h fun _ => Ctx.wf_floats h : Ans.Wf (execDot2 x s))
  | .ld x => (wf_issue h fun _ => Ctx.wf_load h : Ans.Wf (execLd x s))
  | .lds x => (wf_issue h fun _ => Ctx.wf_load h : Ans.Wf (execLds x s))
  | .ldc _ => wf_execLdc h
  | .st x => (wf_issue h fun _ => Ctx.wf_storeTo h : Ans.Wf (execSt x s))
  | .sts x => (wf_issue h fun _ => Ctx.wf_storeTo h : Ans.Wf (execSts x s))
  | .ldf _ => wf_execLdf h
  | .stf _ => wf_execStf h
  | .testf _ => wf_execTestf h
  | .atom x => (wf_issue h fun _ => Ctx.wf_atomics h : Ans.Wf (execAtom x s))
  | .atomCas x => (wf_issue h fun _ => Ctx.wf_atomics h : Ans.Wf (execAtomCas x s))
  | .red x => (wf_issue h fun _ => Ctx.wf_atomics h : Ans.Wf (execRed x s))
  | .fence _ => wf_execFence h
  | .ifence x => (wf_issue h fun _ => h : Ans.Wf (execIfence x s))
  | .awin x => (wf_issue h fun _ => Ctx.wf_value h : Ans.Wf (execAwin x s))
  | .isspace x => (wf_issue h fun _ => Ctx.wf_test h : Ans.Wf (execIsspace x s))
  | .pref x => (wf_issue h fun _ => h : Ans.Wf (execPref x s))
  | .barInit _ => wf_execBarInit h
  | .barArrive _ => wf_execBarArrive h
  | .barExpect _ => wf_execBarExpect h
  | .barWait x => (wf_issue h fun _ => Ctx.wf_barWait h : Ans.Wf (execBarWait x s))
  | .barTest _ => wf_execBarTest h
  | .tlwait x => (wf_issue h fun _ => Ctx.wf_tlwait h : Ans.Wf (execTlwait x s))
  | .tlread x => (wf_issue h fun _ => Ctx.wf_value h : Ans.Wf (execTlread x s))
  | .scopew _ => wf_execScopew h
  | .scopebind _ => wf_execScopebind h
  | .scopeq _ => wf_execScopeq h
  | .scoperet _ => wf_execScoperet h
  | .hmk _ => wf_execHmk h
  | .cpy x => (wf_issue h fun _ => Ctx.wf_copy h : Ans.Wf (execCpy x s))
  | .cpyg x => (wf_issue h fun _ => Ctx.wf_copy h : Ans.Wf (execCpyg x s))
  | .wld _ => wf_execWld h
  | .wsel _ => wf_execWsel h
  | .mma x => (wf_issue h fun _ => Ctx.wf_mma h : Ans.Wf (execMma x s))
  | .mmam x => (wf_issue h fun _ => Ctx.wf_mma h : Ans.Wf (execMmam x s))
  | .aclr _ => wf_execAclr h
  | .adrn _ => wf_execAdrn h
  | .epld _ => wf_execEpld h
  | .msave x => (wf_issue h fun _ => Ctx.wf_msave h : Ans.Wf (execMsave x s))
  | .mres x => (wf_issue h fun _ => Ctx.wf_mres h : Ans.Wf (execMres x s))
  | .qnt _ => wf_execQnt h
  | .qwait x => (wf_issue h fun _ => Ctx.wf_qwait h : Ans.Wf (execQwait x s))
  | .mld _ => wf_execMld h
  | .mst x => (wf_issue h fun _ => Ctx.wf_storeTo h : Ans.Wf (execMst x s))
  | .mset _ => wf_execMset h
  | .mmov x => (wf_issue h fun _ => Ctx.wf_value h : Ans.Wf (execMmov x s))
  | .madd x => (wf_issue h fun _ => Ctx.wf_binary h : Ans.Wf (execMadd x s))
  | .msub x => (wf_issue h fun _ => Ctx.wf_binary h : Ans.Wf (execMsub x s))
  | .mmul x => (wf_issue h fun _ => Ctx.wf_binary h : Ans.Wf (execMmul x s))
  | .mscl _ => wf_execMscl h
  | .mfma _ => wf_execMfma h
  | .mrelu x => (wf_issue h fun _ => Ctx.wf_unary h : Ans.Wf (execMrelu x s))
  | .mexp x => (wf_issue h fun _ => Ctx.wf_unary h : Ans.Wf (execMexp x s))
  | .msigm x => (wf_issue h fun _ => Ctx.wf_unary h : Ans.Wf (execMsigm x s))
  | .mtanh x => (wf_issue h fun _ => Ctx.wf_unary h : Ans.Wf (execMtanh x s))
  | .mrcp x => (wf_issue h fun _ => Ctx.wf_unary h : Ans.Wf (execMrcp x s))
  | .mcol _ => wf_execMcol h
  | .tst _ => wf_execTst h
  | .tred _ => wf_execTred h
  | .tideClose x => (wf_issue h fun _ => Ctx.wf_tideClose h : Ans.Wf (execTideClose x s))
  | .tideWait x => (wf_issue h fun _ => Ctx.wf_tideWait h : Ans.Wf (execTideWait x s))
  | .tideQuery _ => wf_execTideQuery h
  | .rld _ => wf_execRld h
  | .ratom _ => wf_execRatom h
  | .send _ => wf_execSend h
  | .arm _ => wf_execArm h
  | .disarm _ => wf_execDisarm h
  | .launch _ => wf_execLaunch h
  | .hint x => (wf_issue h fun _ => h : Ans.Wf (execHint x s))
  | .trap x => (wf_issue h fun _ => trivial : Ans.Wf (execTrap x s))
  | .tret _ => wf_execTret h
  | .csave _ => wf_execCsave h
  | .crest _ => wf_execCrest h
  | .sysr _ => wf_execSysr h
  | .sysw _ => wf_execSysw h
  | .cap x => (wf_issue h fun _ => Ctx.wf_value h : Ans.Wf (execCap x s))
  | .halt _ => wf_execHalt h
  | .evqPop _ => wf_execEvqPop h
  | .trel _ => wf_execTrel h
  | .byteAbsDiffSum x => (wf_issue h fun _ => Ctx.wf_forward h : Ans.Wf (execByteAbsDiffSum x s))
  | .unassignedOpcode _ => wf_execUnassignedOpcode h
  | .retiredOperation _ _ => wf_execRetiredOperation h
  | .resultArrival _ _ => wf_execResultArrival h
  | .registerAllocation _ _ => wf_execRegisterAllocation h
  | .spillComplete _ => wf_execSpillComplete h
  | .gangRefill _ => wf_execGangRefill h
  | .bundleReformation _ _ => wf_execBundleReformation h
  | .ldfWaitEnd _ _ => wf_execLdfWaitEnd h
  | .barWaitEnd _ _ => wf_execBarWaitEnd h
  | .tlwaitEnd _ _ => wf_execTlwaitEnd h
  | .qwaitEnd _ _ => wf_execQwaitEnd h
  | .tideWaitEnd _ _ => wf_execTideWaitEnd h
  | .tideCloseUnblock _ _ => wf_execTideCloseUnblock h
  | .msaveDone _ _ => wf_execMsaveDone h
  | .mresDone _ _ => wf_execMresDone h
  | .copyStart _ _ => wf_execCopyStart h
  | .copyByteLanding _ _ _ => wf_execCopyByteLanding h
  | .copyFollowOnEntry _ _ => wf_execCopyFollowOnEntry h
  | .copyComplete _ _ => wf_execCopyComplete h
  | .wldExecute _ => wf_execWldExecute h
  | .wselLatch _ => wf_execWselLatch h
  | .mmaPass _ => wf_execMmaPass h
  | .aclrExecute _ => wf_execAclrExecute h
  | .epldLoad _ => wf_execEpldLoad h
  | .drain _ => wf_execDrain h
  | .matrixCommandComplete _ => wf_execMatrixCommandComplete h
  | .qntExecute _ _ => wf_execQntExecute h
  | .qntComplete _ _ => wf_execQntComplete h
  | .lovageService _ _ => wf_execLovageService h
  | .taskDispatch _ _ _ _ _ _ => wf_execTaskDispatch h
  | .taskRetire _ _ => wf_execTaskRetire h
  | .taskMigration _ _ _ _ => wf_execTaskMigration h
  | .sliceExpiry _ => wf_execSliceExpiry h
  | .taskResume _ _ _ _ => wf_execTaskResume h
  | .arrivalHintReceive _ _ _ => wf_execArrivalHintReceive h
  | .hintAgreementTimeout _ _ => wf_execHintAgreementTimeout h
  | .waitBudgetExpiry _ _ => wf_execWaitBudgetExpiry h
  | .qtailWrite _ _ _ => wf_execQtailWrite h
  | .queueResume _ _ => wf_execQueueResume h
  | .launchAcceptance _ _ => wf_execLaunchAcceptance h
  | .launchTranslation _ _ => wf_execLaunchTranslation h
  | .xlfaultRetry _ => wf_execXlfaultRetry h
  | .xlfaultAbort _ => wf_execXlfaultAbort h
  | .ltWrite _ _ _ => wf_execLtWrite h
  | .eventRecordPost _ _ => wf_execEventRecordPost h
  | .controlRoutineEntry _ _ => wf_execControlRoutineEntry h
  | .controlCoreLimit _ => wf_execControlCoreLimit h
  | .ccstatWrite _ _ => wf_execCcstatWrite h
  | .coresWrite _ _ => wf_execCoresWrite h
  | .granuleMigration _ _ _ => wf_execGranuleMigration h
  | .granuleMigrationComplete _ _ => wf_execGranuleMigrationComplete h
  | .hostInvalidation _ _ => wf_execHostInvalidation h
  | .hostAtomicOp _ _ _ _ _ _ _ => wf_execHostAtomicOp h
  | .packetDeparture _ => wf_execPacketDeparture h
  | .sendOutboundEntry _ _ => wf_execSendOutboundEntry h
  | .sendPayloadRead _ _ => wf_execSendPayloadRead h
  | .messageDelivery _ => wf_execMessageDelivery h
  | .firedLaunchPlacement _ _ => wf_execFiredLaunchPlacement h
  | .inboundLogConsume _ => wf_execInboundLogConsume h
  | .rldServe _ => wf_execRldServe h
  | .mailboxAtomicArrival _ => wf_execMailboxAtomicArrival h
  | .remoteReplyArrival _ => wf_execRemoteReplyArrival h
  | .tidalWriteArrival _ => wf_execTidalWriteArrival h
  | .closeRecordArrival _ => wf_execCloseRecordArrival h
  | .tideTurn _ => wf_execTideTurn h
  | .samtailWrite _ _ => wf_execSamtailWrite h
  | .hold _ => wf_execHold h
  | .xfer _ => wf_execXfer h
  | .wvct _ => wf_execWvct h
  | .wrlt _ => wf_execWrlt h
  | .release _ => wf_execRelease h
  | .linkLaneLoss _ _ _ => wf_execLinkLaneLoss h
  | .linkBufferRetire _ _ _ => wf_execLinkBufferRetire h
  | .linkRetrainComplete _ _ => wf_execLinkRetrainComplete h
  | .linkRepair _ _ => wf_execLinkRepair h
  | .mcsetWrite _ _ _ => wf_execMcsetWrite h
  | .gselWrite _ _ => wf_execGselWrite h
  | .mbxbaseWrite _ _ _ => wf_execMbxbaseWrite h
  | .mbxsizeWrite _ _ _ => wf_execMbxsizeWrite h
  | .rxbaseWrite _ _ _ => wf_execRxbaseWrite h
  | .rxctlWrite _ _ _ => wf_execRxctlWrite h
  | .trbaseWrite _ _ _ => wf_execTrbaseWrite h
  | .trwinWrite _ _ _ => wf_execTrwinWrite h
  | .trctlWrite _ _ _ => wf_execTrctlWrite h
  | .trflagWrite _ _ _ => wf_execTrflagWrite h
  | .tlogWrite _ _ => wf_execTlogWrite h
  | .migrationEnable _ _ => wf_execMigrationEnable h
  | .migrationRound _ => wf_execMigrationRound h
  | .migrationRoundComplete _ => wf_execMigrationRoundComplete h
  | .migrationDisable _ => wf_execMigrationDisable h
  | .trapEntry _ => wf_execTrapEntry h
  | .trapHandlerEnable _ _ => wf_execTrapHandlerEnable h
  | .trapHandlerDisable _ => wf_execTrapHandlerDisable h
  | .faultRecordDelivery _ => wf_execFaultRecordDelivery h
  | .fqheadWrite _ _ => wf_execFqheadWrite h
  | .gen _ _ => wf_execGen h
  | .load _ _ => wf_execLoad h
  | .activate _ _ => wf_execActivate h
  | .revoke _ _ => wf_execRevoke h
  | .erase _ _ => wf_execErase h
  | .keyReencryptComplete _ _ => wf_execKeyReencryptComplete h
  | .linkCounterWarn _ _ => wf_execLinkCounterWarn h
  | .linkCounterExhausted _ _ => wf_execLinkCounterExhausted h
  | .lockInterface _ _ => wf_execLockInterface h
  | .protectedCreationCommit _ _ => wf_execProtectedCreationCommit h
  | .startInterface _ _ => wf_execStartInterface h
  | .stopInterface _ _ => wf_execStopInterface h
  | .tdispGetVersion _ _ => wf_execTdispGetVersion h
  | .tdispGetCapabilities _ _ => wf_execTdispGetCapabilities h
  | .getDeviceInterfaceReport _ _ => wf_execGetDeviceInterfaceReport h
  | .getDeviceInterfaceState _ _ => wf_execGetDeviceInterfaceState h
  | .configurationChange _ _ => wf_execConfigurationChange h
  | .functionReset _ _ => wf_execFunctionReset h
  | .spdmGetVersion _ _ => wf_execSpdmGetVersion h
  | .spdmGetCapabilities _ _ => wf_execSpdmGetCapabilities h
  | .negotiateAlgorithms _ _ => wf_execNegotiateAlgorithms h
  | .getDigests _ _ => wf_execGetDigests h
  | .getCertificate _ _ => wf_execGetCertificate h
  | .challenge _ _ => wf_execChallenge h
  | .getMeasurements _ _ => wf_execGetMeasurements h
  | .keyExchange _ _ => wf_execKeyExchange h
  | .finish _ _ => wf_execFinish h
  | .debugUnlockRequest _ _ => wf_execDebugUnlockRequest h
  | .debugTokenVerified _ _ => wf_execDebugTokenVerified h
  | .capctlWrite _ _ _ _ => wf_execCapctlWrite h
  | .deviceReset _ => wf_execDeviceReset h
  | .bringUpStage _ _ => wf_execBringUpStage h
  | .registerWrite _ _ _ _ => wf_execRegisterWrite h
  | .coreClockReduction _ _ => wf_execCoreClockReduction h
  | .haltedCoreResume _ _ => wf_execHaltedCoreResume h
  | .chipCreation _ _ _ _ _ => wf_execChipCreation h
  | .chipDestruction _ => wf_execChipDestruction h
  | .deliveryAcknowledgement _ => wf_execDeliveryAcknowledgement h
  | .atsPriResponse _ _ _ => wf_execAtsPriResponse h
  | .ideKm _ _ => wf_execIdeKm h
  | .powerUngate _ => wf_execPowerUngate h
  | .linkQueuesDrained _ _ => wf_execLinkQueuesDrained h
  | .hostMemoryWrite _ _ _ => wf_execHostMemoryWrite h
  | .turnGivenUpEarly _ => wf_execTurnGivenUpEarly h

theorem State.wf_issueNow {s : State} (h : s.Wf) : s.issueNow.Wf := by
  unfold State.issueNow
  split
  · exact h
  · dsimp only
    split
    · exact wf_exec h _
    · exact State.wf_takeFault h
    · exact State.wf_takeFault h
    · exact State.wf_takeFault (State.wf_free h)

theorem State.wf_passFills {s : State} {w n} (h : s.Wf) : (s.passFills w n).Wf := by
  induction n generalizing s with
  | zero => exact h
  | succ n ih =>
    unfold State.passFills
    split
    · exact h
    · split
      · split
        · rename_i t ht
          have hfill : t.Wf := Ans.wf_of_next (wf_exec (s := { s with issuer := some w }) h _) ht
          exact ih (s := { t with issuer := s.issuer }) hfill
        · exact h
      · exact h

theorem State.wf_refresh {s : State} {r lanes} (h : s.Wf) : (s.refresh r lanes).Wf := by
  unfold State.refresh
  extract_lets ready given t
  have hready (t : State) (ht : t.Wf) : (ready t).Wf := by
    unfold ready
    split
    · exact ht
    · exact State.wf_updGang (State.wf_wantArray ht)
  have hgiven : given.Wf := State.wf_after h (wf_execRegisterAllocation h)
  have ht : t.Wf := State.wf_updGang h
  split
  · exact h
  · exact hready _ (State.wf_passFills h)
  · split
    · exact h
    · split
      · exact hgiven
      · split
        · exact h
        · exact ht

theorem State.wf_refreshSub {s : State} {core sub} (h : s.Wf) : (s.refreshSub core sub).Wf := by
  unfold State.refreshSub
  refine State.wf_foldl h fun _ _ h1 => ?_
  split
  · exact State.wf_foldl (State.wf_updGang h1) fun _ _ h2 => State.wf_refresh h2
  · exact h1

theorem State.wf_pairs {s : State} {r a b} (h : s.Wf) : (s.pairs r a b).2.Wf := by
  unfold State.pairs
  split
  · dsimp only
    split
    · exact h
    · split
      · exact State.wf_free h
      · exact h
  · exact h

theorem State.wf_choose {s : State} {core sub} (h : s.Wf) : (s.choose core sub).Wf := by
  unfold State.choose
  extract_lets b
  split
  · exact h
  · extract_lets t
    split
    · exact State.wf_updCore h
    · split
      · exact State.wf_updCore h
      · extract_lets p two t1 t2 t3
        have htwo : two.2.Wf := by
          unfold two
          split
          · exact h
          · exact State.wf_pairs (s := t) h
        have ht1 : t1.Wf := State.wf_updGang htwo
        have ht2 : t2.Wf := by
          unfold t2
          split
          · split
            · exact State.wf_updGang ht1
            · exact ht1
          · exact ht1
        have ht3 : t3.Wf := State.wf_updChip ht2 fun _ => id
        exact ht3

theorem State.wf_chooseCtrl {s : State} {core} (h : s.Wf) : (s.chooseCtrl core).Wf := by
  unfold State.chooseCtrl
  split
  · exact h
  · extract_lets w settled t
    have hsettled : settled.Wf := State.wf_updGangOf h
    have ht : t.Wf := State.wf_passFills (State.wf_updGangOf hsettled)
    split
    · extract_lets waits
      clear_value waits
      split
      · exact hsettled
      · exact ht
    · exact hsettled

theorem State.wf_passCycles {s : State} (h : s.Wf) : (s.passCycles).Wf := h

theorem State.wf_countWaits {s : State} {cores n} (h : s.Wf) : (s.countWaits cores n).Wf :=
  State.wf_withChips h (List.forall_mem_map.mpr fun c hc => (State.wf_chips h c hc :))

theorem State.wf_cycleCore {s : State} {core} (h : s.Wf) : (s.cycleCore core).Wf := by
  unfold State.cycleCore
  extract_lets +onlyGivenNames s1
  have hs1 : s1.Wf := by
    unfold s1
    refine State.wf_foldl h fun _ _ h1 => ?_
    split
    · exact (Ans.wf_of_next (wf_execBundleReformation h1) ‹_› :)
    · exact h1
  split
  · exact hs1
  · exact State.wf_chooseCtrl (State.wf_foldl (State.wf_foldl hs1 fun _ _ h1 => State.wf_refreshSub h1) fun _ _ h1 => State.wf_choose h1)

theorem State.wf_unpark {s : State} (h : s.Wf) : (s.unpark).Wf := by
  unfold State.unpark
  refine State.wf_foldl h fun _ _ h1 => ?_
  split
  · exact State.wf_updChip (State.wf_free h1) fun _ => id
  · exact h1

theorem State.wf_settleCores {s : State} (h : s.Wf) : (s.settleCores).Wf :=
  State.wf_scrubCores (State.wf_foldl h fun _ _ h1 => State.wf_finishLeaving h1)

theorem State.wf_tick {s : State} (h : s.Wf) : (s.tick).Wf :=
  State.wf_foldl (State.wf_settleCores (State.wf_countWaits (State.wf_unpark (State.wf_passCycles h)))) fun _ _ h1 => State.wf_cycleCore h1

/-! ### Events that the hardware does by itself -/

/-- An event that keeps memories canonical. -/
def Event.KeepsWf (e : Event) : Prop := ∀ s : State, s.Wf → Ans.Wf (e s)

theorem keepsWf_gangEvents {r q} : ∀ e ∈ gangEvents r q, Event.KeepsWf e := by
  unfold gangEvents
  simp only [List.forall_mem_append, List.forall_mem_map, List.forall_mem_cons, List.not_mem_nil, false_imp_iff, implies_true, and_true]
  refine ⟨⟨fun _ _ _ => wf_execResultArrival, List.forall_mem_flatMap.mpr fun b _ => ?_⟩, fun _ => wf_execSpillComplete, fun _ => wf_execGangRefill,
    fun _ => wf_execTrapEntry⟩
  split
  · exact List.forall_mem_singleton.mpr fun _ => wf_execLdfWaitEnd
  · exact List.forall_mem_singleton.mpr fun _ => wf_execBarWaitEnd
  · exact List.forall_mem_singleton.mpr fun _ => wf_execTlwaitEnd
  · exact List.forall_mem_singleton.mpr fun _ => wf_execQwaitEnd
  · exact List.forall_mem_singleton.mpr fun _ => wf_execTideWaitEnd
  · exact List.forall_mem_singleton.mpr fun _ => wf_execTideCloseUnblock
  · exact List.forall_mem_cons.mpr ⟨fun _ => wf_execMsaveDone, List.forall_mem_singleton.mpr fun _ => wf_execMresDone⟩
  · exact List.forall_mem_singleton.mpr fun _ => wf_execRegisterAllocation
  · exact List.forall_mem_nil _

theorem keepsWf_coreEvents {r k} : ∀ e ∈ coreEvents r k, Event.KeepsWf e := by
  unfold coreEvents
  simp only [List.forall_mem_append, List.forall_mem_map, List.forall_mem_cons, List.not_mem_nil, false_imp_iff, implies_true, and_true]
  refine ⟨⟨⟨⟨List.forall_mem_flatMap.mpr fun n _ => ?_, fun _ => wf_execWldExecute, fun _ => wf_execWselLatch, fun _ => wf_execMmaPass,
    fun _ => wf_execAclrExecute, fun _ => wf_execEpldLoad, fun _ => wf_execDrain, fun _ => wf_execMatrixCommandComplete⟩,
    fun _ _ _ => wf_execEventRecordPost⟩, fun _ _ _ => wf_execControlRoutineEntry⟩, fun _ => wf_execControlCoreLimit⟩
  simp only [List.forall_mem_cons, List.not_mem_nil, false_imp_iff, implies_true, and_true]
  exact ⟨fun _ => wf_execCopyStart, fun _ => wf_execCopyByteLanding, fun _ => wf_execCopyByteLanding, fun _ => wf_execCopyFollowOnEntry,
    fun _ => wf_execCopyComplete, fun _ => wf_execSendOutboundEntry⟩

theorem keepsWf_devEvents {d v} : ∀ e ∈ devEvents d v, Event.KeepsWf e := by
  unfold devEvents
  simp only [List.forall_mem_append, List.forall_mem_map, List.forall_mem_cons, List.not_mem_nil, false_imp_iff, implies_true, and_true]
  refine ⟨⟨⟨⟨⟨fun _ => wf_execBringUpStage, fun _ => wf_execQntExecute, fun _ => wf_execQntExecute, fun _ => wf_execQntComplete,
    fun _ => wf_execQntComplete, fun _ => wf_execLovageService, fun _ => wf_execLovageService, fun _ => wf_execHold, fun _ => wf_execXfer,
    fun _ => wf_execWvct, fun _ => wf_execWrlt, fun _ => wf_execRelease⟩, List.forall_mem_flatMap.mpr fun k _ => ?_⟩,
    fun _ _ _ => wf_execProtectedCreationCommit⟩, fun _ _ _ => wf_execHintAgreementTimeout⟩, List.forall_mem_flatMap.mpr fun p _ => ?_⟩
  · simp only [List.forall_mem_cons, List.not_mem_nil, false_imp_iff, implies_true, and_true]
    exact ⟨fun _ => wf_execKeyReencryptComplete, fun _ => wf_execLinkCounterWarn, fun _ => wf_execLinkQueuesDrained⟩
  · refine List.forall_mem_append.mpr ⟨List.forall_mem_append.mpr ⟨?_, ?_⟩, List.forall_mem_singleton.mpr fun _ => wf_execLinkRetrainComplete⟩
    · split
      · exact List.forall_mem_singleton.mpr fun _ => wf_execLinkLaneLoss
      · exact List.forall_mem_nil _
    · split
      · exact List.forall_mem_singleton.mpr fun _ => wf_execLinkRepair
      · exact List.forall_mem_nil _

theorem keepsWf_chipEvents {k c} : ∀ e ∈ chipEvents k c, Event.KeepsWf e := by
  unfold chipEvents
  simp only [List.forall_mem_append, List.forall_mem_map, List.forall_mem_cons, List.not_mem_nil, false_imp_iff, implies_true, and_true]
  refine ⟨⟨⟨⟨⟨⟨⟨⟨⟨⟨fun _ _ _ => wf_execLaunchAcceptance, fun _ _ _ => wf_execLaunchTranslation⟩, fun _ _ _ => wf_execTaskRetire⟩,
    List.forall_mem_flatMap.mpr fun l _ => ?_⟩, List.forall_mem_flatMap.mpr fun t _ => ?_⟩, fun _ => wf_execSliceExpiry, fun _ => wf_execTurnGivenUpEarly⟩,
    fun _ _ _ => wf_execWaitBudgetExpiry⟩, fun _ _ _ => wf_execGranuleMigrationComplete⟩, fun _ _ _ => wf_execSendPayloadRead⟩,
    fun _ _ _ => wf_execFiredLaunchPlacement⟩, fun _ => wf_execInboundLogConsume, fun _ => wf_execTideTurn, fun _ => wf_execMigrationRoundComplete,
    fun _ => wf_execFaultRecordDelivery⟩
  · split
    · exact List.forall_mem_nil _
    · exact List.forall_mem_flatMap.mpr fun p _ => List.forall_mem_map.mpr fun _ _ _ => wf_execTaskDispatch
  · split
    · exact List.forall_mem_map.mpr fun _ _ _ => wf_execTaskResume
    · exact List.forall_mem_nil _

theorem keepsWf_packetEvents {n} : ∀ e ∈ packetEvents n, Event.KeepsWf e := by
  unfold packetEvents
  simp only [List.forall_mem_cons, List.not_mem_nil, false_imp_iff, implies_true, and_true]
  exact ⟨fun _ => wf_execPacketDeparture, fun _ => wf_execMessageDelivery, fun _ => wf_execRldServe, fun _ => wf_execMailboxAtomicArrival,
    fun _ => wf_execRemoteReplyArrival, fun _ => wf_execTidalWriteArrival, fun _ => wf_execCloseRecordArrival, fun _ => wf_execDeliveryAcknowledgement⟩

theorem State.keepsWf_offers {s : State} : ∀ e ∈ s.offers, Event.KeepsWf e := by
  unfold State.offers
  simp only [List.forall_mem_append]
  exact ⟨⟨⟨⟨List.forall_mem_flatMap.mpr fun _ _ => keepsWf_gangEvents,
    List.forall_mem_flatMap.mpr fun _ _ => List.forall_mem_flatMap.mpr fun _ _ => keepsWf_coreEvents⟩,
    List.forall_mem_flatMap.mpr fun _ _ => keepsWf_devEvents⟩, List.forall_mem_flatMap.mpr fun _ _ => keepsWf_chipEvents⟩,
    List.forall_mem_flatMap.mpr fun _ _ => keepsWf_packetEvents⟩

/-- A move whose event keeps memories canonical. -/
def Move.KeepsWf : Move → Prop
  | .event e => Event.KeepsWf e
  | .issue _ => True
  | .tick => True

theorem State.keepsWf_moves {s : State} : ∀ m ∈ s.moves, m.KeepsWf := by
  refine List.forall_mem_append.mpr ⟨List.forall_mem_map.mpr fun e he => State.keepsWf_offers e (List.mem_of_mem_filter he), ?_⟩
  split
  · exact List.forall_mem_singleton.mpr trivial
  · exact List.forall_mem_map.mpr fun _ _ => trivial

theorem State.wf_make {s : State} {m : Move} (h : s.Wf) (hm : m.KeepsWf) : Ans.Wf (s.make m) := by
  cases m with
  | event e => exact hm s h
  | issue w => exact h
  | tick => exact State.wf_tick h

theorem State.wf_nextMove {s : State} (h : s.Wf) : Ans.Wf s.nextMove := by
  have hmoves := State.keepsWf_moves (s := s)
  unfold State.nextMove
  split
  · rename_i m hm
    exact State.wf_make h (hmoves m (hm ▸ List.mem_singleton_self m))
  · refine State.wf_make (State.wf_free h) ?_
    rcases lt_or_ge (s.free.1.toNat % s.moves.length) s.moves.length with hlt | hge
    · rw [List.getD_eq_getElem _ _ hlt]
      exact hmoves _ (List.getElem_mem hlt)
    · rw [List.getD_eq_default _ _ hge]
      trivial

theorem State.wf_proceed {s : State} (h : s.Wf) : Ans.Wf s.proceed := by
  unfold State.proceed
  split
  · exact State.wf_issueNow h
  · split
    · rename_i i rest _
      have hrest : State.Wf { s with agenda := rest } := h
      exact wf_exec hrest i
    · exact State.wf_nextMove h

/-- Settles O58: what comes next is an instruction or an event, and each keeps every memory canonical. -/
theorem stepKeepsMemoryCanonical : Obligations.StepKeepsMemoryCanonical := by
  intro s t hs ht
  exact Ans.wf_of_next (State.wf_proceed hs) ht

end Sys2Proof.Machine
end

section
/-! SUPPORT. Host accesses (R284, R312, R388, R415, R419): which a chip takes, and what its writes and AtomicOps make of the state. -/

namespace Sys2Proof.Machine

/-! ### Requests that a chip takes -/

theorem State.hostMay_iff {s : State} {c : Chip} {tbit : Bool} :
    s.hostMay c tbit = true ↔ c.prot = false ∨ tbit = true ∧ ∃ d, s.dev? c.dev = some d ∧ (d.iface c.slot).ide = true ∧ (d.iface c.slot).state = .run := by
  unfold State.hostMay
  cases s.dev? c.dev with
  | none => simp
  | some d => simp

theorem State.hostBytes_of_chip {s : State} {key addr n : Nat} {c : Chip} {tbit : Bool} (hc : s.chip? key = some c) :
    s.hostBytes key addr n tbit = if s.hostMay c tbit then s.bytesAt ((List.range n).map fun k => Place.dram key (addr + k) false)
      else List.replicate n 0xFF := by
  unfold State.hostBytes
  rw [hc]

/-- The end of release sequences where the host wrote is a change of the happens-before record. -/
theorem SameButRaces.hostWrote (s : State) (key a n : Nat) : SameButRaces s (s.updChip key fun c => c.hostWrote a n) :=
  .updRecord s key fun _ => rfl

/-! ### Writes -/

section
variable {s : State} {key : Nat} {c : Chip} {addr : DWord} {bytes : List Byte} {tbit : Bool} (hc : s.chip? key = some c)
  (hquota : addr.toNat + bytes.length ≤ c.quota)
include hc hquota

theorem exec_hostMemoryWrite_discarded (hmay : s.hostMay c tbit = false) : exec (.hostMemoryWrite (.chip key tbit) addr bytes) s = .next s := by
  change execHostMemoryWrite (.chip key tbit) addr bytes s = _
  simp [execHostMemoryWrite, hc, Nat.not_lt.mpr hquota, hmay]

theorem exec_hostMemoryWrite_taken (hmay : s.hostMay c tbit = true) :
    exec (.hostMemoryWrite (.chip key tbit) addr bytes) s =
      .next ((s.writeBytes ((List.range bytes.length).map fun k => Place.dram key (addr.toNat + k) false) bytes).updChip key
        fun c => c.hostWrote addr.toNat bytes.length) := by
  change execHostMemoryWrite (.chip key tbit) addr bytes s = _
  simp [execHostMemoryWrite, hc, Nat.not_lt.mpr hquota, hmay]

end

/-! ### AtomicOps -/

section
variable {s : State} {key op : Nat} {c : Chip} {addr : DWord} {wide tbit sysa : Bool} {value cmp : DWord} {ps : List Place}

/-- The word of a host AtomicOp written with its operation's result for an old value. -/
def State.hostCombined (s : State) (ps : List Place) (op : Nat) (wide : Bool) (value cmp : DWord) (old : Nat) : State :=
  let n := if wide then 8 else 4
  s.writePlaces ps (hostAtomic op (8 * n) old (value.toNat % 2 ^ (8 * n)) (cmp.toNat % 2 ^ (8 * n)))

variable (hc : s.chip? key = some c) (hop : op ≤ 12) (hword : c.hostWord key addr.toNat (if wide then 8 else 4) = some (ps, sysa))
include hc hop hword

theorem exec_hostAtomicOp_whole_discarded (hmay : s.hostMay c tbit = false) :
    exec (.hostAtomicOp key addr op wide value cmp (.whole tbit)) s = .next s := by
  change execHostAtomicOp key addr op wide value cmp (.whole tbit) s = _
  simp [execHostAtomicOp, hc, hword, Nat.not_lt.mpr hop, HostAtomicPhase.tbit, hmay]

theorem exec_hostAtomicOp_whole (hmay : s.hostMay c tbit = true) (hsysa : sysa = true) :
    exec (.hostAtomicOp key addr op wide value cmp (.whole tbit)) s = .next (s.hostCombined ps op wide value cmp (s.readPlaces ps)) := by
  change execHostAtomicOp key addr op wide value cmp (.whole tbit) s = _
  simp only [execHostAtomicOp, hc, hword, Nat.not_lt.mpr hop, HostAtomicPhase.tbit, hmay, hsysa, Bool.not_true, Bool.false_eq_true, if_false, if_true]
  split <;> rfl

theorem exec_hostAtomicOp_read (hsysa : sysa = false) :
    exec (.hostAtomicOp key addr op wide value cmp (.readHalf tbit)) s = .next (s.updChip key fun c' =>
      { c' with hostRead := c'.hostRead ++ [⟨addr, op, wide, value, cmp,
        if s.hostMay c tbit then BitVec.ofNat 64 (s.readPlaces ps) else BitVec.allOnes 64⟩] }) := by
  change execHostAtomicOp key addr op wide value cmp (.readHalf tbit) s = _
  simp only [execHostAtomicOp, hc, hword, Nat.not_lt.mpr hop, HostAtomicPhase.tbit, hsysa, Bool.false_eq_true, if_false]
  rfl

variable {h : HostHalf} (hread : (c.hostRead.find? fun h => h.same addr op wide value cmp) = some h)
include hread

theorem exec_hostAtomicOp_write_discarded (hmay : s.hostMay c tbit = false) :
    exec (.hostAtomicOp key addr op wide value cmp (.writeHalf tbit)) s =
      .next (s.updChip key fun c => { c with hostRead := c.hostRead.erase h }) := by
  change execHostAtomicOp key addr op wide value cmp (.writeHalf tbit) s = _
  simp [execHostAtomicOp, hc, hword, Nat.not_lt.mpr hop, HostAtomicPhase.tbit, hmay, hread]

theorem exec_hostAtomicOp_write (hmay : s.hostMay c tbit = true) (hsysa : sysa = false) :
    ∃ u, SameButRaces (s.hostCombined ps op wide value cmp h.old.toNat) u ∧
      exec (.hostAtomicOp key addr op wide value cmp (.writeHalf tbit)) s =
        .next (u.updChip key fun c => { c with hostRead := c.hostRead.erase h }) := by
  change ∃ u, _ ∧ execHostAtomicOp key addr op wide value cmp (.writeHalf tbit) s = _
  simp only [execHostAtomicOp, hc, hword, Nat.not_lt.mpr hop, HostAtomicPhase.tbit, hmay, hsysa, hread, Bool.not_true, Bool.false_eq_true, if_false]
  split
  · exact ⟨_, .hostWrote .., rfl⟩
  · exact ⟨_, .refl _, rfl⟩

end

/-- What a state owes to the host's read halves is not part of the happens-before record. -/
theorem SameButRaces.eraseHostRead {s u : State} (h : SameButRaces s u) (key : Nat) (r : HostHalf) :
    SameButRaces (s.updChip key fun c => { c with hostRead := c.hostRead.erase r }) (u.updChip key fun c => { c with hostRead := c.hostRead.erase r }) := by
  refine h.updChip key _ _ fun c d e => ?_
  have hreads : d.hostRead = c.hostRead := show d.noRaces.hostRead = c.noRaces.hostRead from congrArg Chip.hostRead e
  exact congrArg₂ (fun (c : Chip) l => { c with hostRead := List.erase l r }) e hreads

/-- Settles O38: each access by its own equation; where the host wrote, release sequences end, which changes the happens-before record alone. -/
theorem hostAccesses : Obligations.HostAccesses := by
  intro s addr
  refine ⟨fun bytes hhost => ?_, fun key c tbit hc => ⟨State.hostMay_iff, fun n => State.hostBytes_of_chip hc, fun bytes hquota =>
    ⟨exec_hostMemoryWrite_discarded hc hquota, fun hmay => ⟨_, .hostWrote .., exec_hostMemoryWrite_taken hc hquota hmay⟩⟩⟩, ?_⟩
  · change execHostMemoryWrite .hostHalf addr bytes s = _
    simp [execHostMemoryWrite, hhost]
  · intro key c op wide value cmp tbit ps sysa hc hop n hword
    refine ⟨exec_hostAtomicOp_whole_discarded hc hop hword, exec_hostAtomicOp_whole hc hop hword, exec_hostAtomicOp_read hc hop hword,
      fun h hread => ⟨exec_hostAtomicOp_write_discarded hc hop hword hread, fun hmay hsysa => ?_⟩⟩
    obtain ⟨u, hu, hexec⟩ := exec_hostAtomicOp_write hc hop hword hread hmay hsysa
    exact ⟨_, hu.eraseHostRead key h, hexec⟩

end Sys2Proof.Machine
end

section
/-! SUPPORT. Writes of mailbox, receive, region and tide-log registers, of GSEL and of the multicast sets (R366 to R371, R374 to R376, R385). -/

namespace Sys2Proof.Machine

/-! ### Registers of a chip -/

section
variable {s : State} {chip n : Nat} {c : Chip} (hc : s.chip? chip = some c)
include hc

/-- A rewrite of a chip, by what it makes of the chip that there is. -/
theorem State.updChip_congr_chip {f g : Chip → Chip} (hfg : f c = g c) : s.updChip chip f = s.updChip chip g := by
  refine State.updChip_congr fun d hd => ?_
  obtain rfl := Option.some.inj (hc.symm.trans hd)
  exact hfg

/-- A register write of a chip, by what it makes of the chip that there is. -/
theorem State.chipWrite_eq {ok : Bool} {f g : Chip → Chip} (hok : ok = true) (hfg : f c = g c) : s.chipWrite chip ok f = .next (s.updChip chip g) := by
  unfold State.chipWrite
  rw [hc]
  simp only [hok, if_true]
  rw [State.updChip_congr_chip hc hfg]

theorem exec_mbxbaseWrite (hn : n < 8) (value : DWord) {g : Chip → Chip} (hg : c.writeMbxBase n value = g c) :
    exec (.mbxbaseWrite chip n value) s = .next (s.updChip chip g) := State.chipWrite_eq hc (decide_eq_true hn) hg

theorem exec_mbxsizeWrite (hn : n < 8) (value : DWord) {g : Chip → Chip} (hg : c.writeMbxSize n value = g c) :
    exec (.mbxsizeWrite chip n value) s = .next (s.updChip chip g) := State.chipWrite_eq hc (decide_eq_true hn) hg

theorem exec_rxbaseWrite (hn : n < 256) (value : DWord) {g : Chip → Chip} (hg : c.writeRxBase n value = g c) :
    exec (.rxbaseWrite chip n value) s = .next (s.updChip chip g) := State.chipWrite_eq hc (decide_eq_true hn) hg

theorem exec_rxctlWrite (hn : n < 256) (value : DWord) {g : Chip → Chip} (hg : c.writeRxctl n value = g c) :
    exec (.rxctlWrite chip n value) s = .next (s.updChip chip g) := State.chipWrite_eq hc (decide_eq_true hn) hg

/-- The tide log grows at once; a smaller one waits until both halves fit. -/
theorem exec_tlogWrite (value : DWord) {g : Chip → Chip} (hg : g c = { c with tide :=
      if c.tide.tlog ≤ value.toNat % 2 ^ 24 then { c.tide with tlog := value.toNat % 2 ^ 24, tlogDue := none }
      else ({ c.tide with tlogDue := some (value.toNat % 2 ^ 24) } : Tide).shrink }) :
    exec (.tlogWrite chip value) s = .next (s.updChip chip g) := State.chipWrite_eq hc rfl hg.symm

/-! ### Staged writes of a region (R375, R376) -/

/-- What a staged write does: refused with ERR alone, or staged, and in effect at once before the first tide closes. -/
def StagesRegion (s : State) (chip n : Nat) (c : Chip) (i : Instr) (w : Region) (fields : Bool) : Prop :=
  let ok : Bool := fields && s.mcOk c.guest w && (!w.valid || c.regionOk n w)
  let made : Chip := { c with tide := { c.tide with staged := Tab.put c.tide.staged n w, pend := true } }
  (ok = false → exec i s = .next (s.updChip chip fun c => { c with tide := { c.tide with err := true } })) ∧
  (ok = true → ¬ (c.tide.c = 0 ∧ c.tide.closed = false) → exec i s = .next (s.updChip chip fun _ => made)) ∧
  (ok = true → c.tide.c = 0 → c.tide.closed = false → exec i s = .next (s.updChip chip fun _ => made.applyStaged))

theorem stagesRegion {i : Instr} {w : Region} {fields : Bool}
    (hexec : exec i s = .next (s.updChip chip fun d => d.stage n w fields (s.mcOk c.guest w))) : StagesRegion s chip n c i w fields := by
  have hmade {g : Chip → Chip} (hg : c.stage n w fields (s.mcOk c.guest w) = g c) : exec i s = .next (s.updChip chip g) := by
    rw [hexec, State.updChip_congr_chip hc hg]
  refine ⟨fun hok => hmade ?_, fun hok hlater => hmade ?_, fun hok h0 hclosed => hmade ?_⟩
  · unfold Chip.stage
    rw [hok]
    rfl
  · unfold Chip.stage
    rw [hok]
    simp only [Bool.not_true, Bool.false_eq_true, if_false, Bool.and_eq_true, decide_eq_true_eq, Bool.not_eq_true']
    exact if_neg hlater
  · unfold Chip.stage
    rw [hok]
    simp only [Bool.not_true, Bool.false_eq_true, if_false, h0, hclosed, Bool.not_false, decide_true, Bool.and_self, if_true]

/-- A region with one of its registers written: TRBASE, TRWIN, TRCTL, TRFLAG. -/
def Region.written (r : Region) (which : Nat) (v : DWord) : Region :=
  match which with
  | 0 => { r with base := v &&& ~~~0xFFFF }
  | 1 => { r with win := v &&& 0x0000FFFF7FFF0000 }
  | 2 => { r with ctl := v }
  | _ => { r with flag := v &&& ~~~7 }

/-- What R376 asks of the fields that a write brings. -/
def Region.fieldsOk (w : Region) (which : Nat) (v : DWord) : Bool := match which with | 1 => w.placed | 2 => ctlOk v | _ => true

/-- A staged write is judged on the chip that there is. -/
theorem State.regionEvent_eq (hn : n < 64) (which : Nat) (v : DWord) :
    let w := (Tab.getD c.tide.staged n Region.zero).written which v
    s.regionEvent chip n which v = .next (s.updChip chip fun d => d.stage n w (w.fieldsOk which v) (s.mcOk c.guest w)) := by
  intro w
  have hstaged (f : Chip → Chip) (hf : f c = c.stage n w (w.fieldsOk which v) (s.mcOk c.guest w)) :
      s.updChip chip f = s.updChip chip fun d => d.stage n w (w.fieldsOk which v) (s.mcOk c.guest w) := State.updChip_congr_chip hc hf
  unfold State.regionEvent State.writeRegion
  simp only [hc, hn, if_true]
  rw [hstaged _ rfl]

end

/-! ### GSEL and the multicast sets (R370, R371) -/

section
variable {s : State} {dev n : Nat} {d : Device} (hd : s.dev? dev = some d) (value : DWord)
include hd

theorem exec_gselWrite_unready (hready : d.ready = false) : exec (.gselWrite dev value) s = .next s := by
  change execGselWrite dev value s = _
  simp [execGselWrite, hd, hready]

theorem exec_mcsetWrite_unready (hready : d.ready = false) (hn : n ≤ 63) : exec (.mcsetWrite dev n value) s = .next s := by
  change execMcsetWrite dev n value s = _
  simp [execMcsetWrite, hd, hready, Nat.not_lt.mpr hn]

variable (hready : d.ready = true)
include hready

theorem exec_gselWrite : exec (.gselWrite dev value) s = .next (s.updDev dev fun d =>
    { d with gselGuest := bitsOf value.toNat 11 0, gselChip := bitsOf value.toNat 21 12, gselErr := false }) := by
  change execGselWrite dev value s = _
  simp [execGselWrite, hd, hready]

variable (hn : n ≤ 63)
include hn

theorem exec_mcsetWrite_noGuest (hg : Tab.find s.guests d.gselGuest = none) :
    exec (.mcsetWrite dev n value) s = .next (s.updDev dev fun d => { d with gselErr := true }) := by
  change execMcsetWrite dev n value s = _
  simp [execMcsetWrite, hd, hready, Nat.not_lt.mpr hn, hg]

variable {g : Guest} (hg : Tab.find s.guests d.gselGuest = some g)
include hg

theorem exec_mcsetWrite_refused (hok : (s.isHeld d.gselGuest && g.setOk value) = false) :
    exec (.mcsetWrite dev n value) s = .next (s.updDev dev fun d => { d with gselErr := true }) := by
  change execMcsetWrite dev n value s = _
  simp [execMcsetWrite, hd, hready, Nat.not_lt.mpr hn, hg, hok]

theorem exec_mcsetWrite (hheld : s.isHeld d.gselGuest = true) (hok : g.setOk value = true) :
    let after : Guest := { g with mcset := if value.getLsbD 63 then Tab.put g.mcset n (value &&& 0x800000003FFFFFFF) else Tab.drop g.mcset n }
    exec (.mcsetWrite dev n value) s =
      .next (State.recount { s with guests := Tab.put s.guests d.gselGuest after } d.gselGuest n (g.members n) (after.members n)) := by
  intro after
  change execMcsetWrite dev n value s = _
  simp [execMcsetWrite, hd, hready, Nat.not_lt.mpr hn, hg, hheld, hok, after]

end

theorem State.isHeld_of_find {s : State} {guest : Nat} {g : Guest} (hg : Tab.find s.guests guest = some g) :
    s.isHeld guest = (g.held && s.drained guest) := by
  unfold State.isHeld
  rw [hg]
  rfl

theorem Guest.setOk_iff {g : Guest} {value : DWord} :
    g.setOk value = true ↔ (value.getLsbD 63 = true → ∀ m ∈ setMembers value, m ≤ 1023 ∧ (Tab.getD g.vct m 0).getLsbD 31 = true) := by
  unfold Guest.setOk
  cases value.getLsbD 63 <;> simp

/-- Settles O41: each register's write by its own equation, on the chip or the device that there is. -/
theorem fabricRegisterWrites : Obligations.FabricRegisterWrites := by
  intro s chip n value c hc refused base size
  refine ⟨fun hn => ⟨fun h => ?_, fun h => ?_, fun h => ?_, rfl, fun h => ?_⟩, fun hn => ?_, fun hn => ?_, fun h => ?_, fun h => ?_,
    fun dev d hd hready hn => ⟨exec_gselWrite_unready hd value hready, exec_mcsetWrite_unready hd value hready hn⟩, fun dev d hd hready hn => ?_⟩
  · exact exec_mbxbaseWrite hc hn value (if_neg (ne_true_of_eq_false h))
  · exact exec_mbxbaseWrite hc hn value (if_pos h)
  · exact exec_mbxsizeWrite hc hn value (if_neg (ne_true_of_eq_false h))
  · exact exec_mbxsizeWrite hc hn value (if_pos h)
  · intro r based clr kept wide meets
    refine ⟨fun h => ?_, fun h => ?_, fun h => ?_, fun h h' => ?_, fun h h' h'' => ?_⟩
    · exact exec_rxbaseWrite hc hn value (if_neg (ne_true_of_eq_false h))
    · exact exec_rxbaseWrite hc hn value (if_pos h)
    · refine exec_rxctlWrite hc hn value ?_
      have hbusy : (Tab.getD c.rx n RxTag.reset).busy ≠ 0 := h
      simp only [Chip.writeRxctl, if_neg hbusy, bne_self_eq_false, Bool.false_and, Bool.false_eq_true, if_false]
      rfl
    · refine exec_rxctlWrite hc hn value ?_
      have hwide : (value.toNat % 8 != r.nslot && meets) = false := by
        rcases h' with hmeets | hsame
        · rw [hmeets, Bool.and_false]
        · rw [hsame, bne_self_eq_false, Bool.false_and]
      have hfree : (Tab.getD c.rx n RxTag.reset).busy = 0 := h
      simp only [Chip.writeRxctl, if_pos hfree]
      exact if_neg (ne_true_of_eq_false hwide)
    · refine exec_rxctlWrite hc hn value ?_
      have hwide : (value.toNat % 8 != r.nslot && meets) = true := by rw [h', Bool.and_true, bne_iff_ne]; exact h''
      have hfree : (Tab.getD c.rx n RxTag.reset).busy = 0 := h
      simp only [Chip.writeRxctl, if_pos hfree]
      exact if_pos hwide
  · intro r writes
    refine ⟨?_, ?_, ?_, ?_⟩
    · exact stagesRegion hc (State.regionEvent_eq hc hn 0 value)
    · exact stagesRegion hc (State.regionEvent_eq hc hn 1 value)
    · exact stagesRegion hc (State.regionEvent_eq hc hn 2 value)
    · exact stagesRegion hc (State.regionEvent_eq hc hn 3 value)
  · exact exec_tlogWrite hc value (by rw [if_pos h])
  · exact exec_tlogWrite hc value (by rw [if_neg (Nat.not_le.mpr h)])
  · refine ⟨exec_gselWrite hd value hready, fun g hg hheld hdrained => ?_, fun g hg hbad => ?_, exec_mcsetWrite_noGuest hd value hready hn⟩
    · have hisHeld : s.isHeld d.gselGuest = true := by rw [State.isHeld_of_find hg, hheld, hdrained, Bool.and_self]
      refine ⟨fun hoff => ?_, fun hon hmembers => ?_⟩
      · have hset := exec_mcsetWrite hd value hready hn hg hisHeld (Guest.setOk_iff.mpr fun h => absurd h (ne_true_of_eq_false hoff))
        rw [hset, hoff]
        rfl
      · have hset := exec_mcsetWrite hd value hready hn hg hisHeld (Guest.setOk_iff.mpr fun _ => hmembers)
        rw [hset, hon]
        rfl
    · refine exec_mcsetWrite_refused hd value hready hn hg (Bool.eq_false_iff.mpr fun h => ?_)
      obtain ⟨hisHeld, hok⟩ := Bool.and_eq_true_iff.mp h
      rw [State.isHeld_of_find hg, Bool.and_eq_true_iff] at hisHeld
      obtain ⟨hheld, hdrained⟩ := hisHeld
      rcases hbad with hfree | hbusy | ⟨hon, m, hm, hbad⟩
      · exact absurd hheld (ne_true_of_eq_false hfree)
      · exact absurd hdrained (ne_true_of_eq_false hbusy)
      · obtain ⟨hlow, hthere⟩ := Guest.setOk_iff.mp hok hon m hm
        rcases hbad with hhigh | hgone
        · exact absurd hlow (Nat.not_le.mpr hhigh)
        · exact absurd hthere (ne_true_of_eq_false hgone)

end Sys2Proof.Machine
end

section
/-! SUPPORT. Taking a fault (R395, R398, R399, R402): what a gang that stops keeps, the delivery of a record, and the three ways in which a fault goes. -/

namespace Sys2Proof.Machine

/-! ### What a gang keeps that stops (R399) -/

theorem Gang.pc_writeV (g : Gang) (k : Nat) (m : LaneMask) (v : Lanes Nat) (n : Nat) : (g.writeV k m v n).pc = g.pc := by
  induction n generalizing g k v with
  | zero => rfl
  | succ n ih => exact (ih ..).trans rfl

theorem Gang.pc_writeO (g : Gang) (k : Nat) (m : LaneMask) (v : Lanes Nat) (n : Nat) : (g.writeO k m v n).pc = g.pc := by
  induction n generalizing g k v with
  | zero => rfl
  | succ n ih => exact (ih ..).trans rfl

theorem Gang.pc_writePend (g : Gang) (p : Pend) (m : LaneMask) : (g.writePend p m).pc = g.pc := by
  unfold Gang.writePend
  split
  · rfl
  · unfold Gang.writeName
    split
    · exact g.pc_writeV ..
    · exact g.pc_writeO ..
    all_goals rfl

theorem Gang.exited_writePend (g : Gang) (p : Pend) (m : LaneMask) : (g.writePend p m).exited = g.exited := by
  unfold Gang.writePend
  split
  · rfl
  · exact show (g.writeName _ _ _).rest.exited = g.rest.exited from congrArg Gang.exited (g.rest_writeName ..)

theorem Gang.pc_settle (g : Gang) (p : Pend) : (g.settle p).pc = g.pc := Gang.pc_writePend ..

theorem Gang.exited_settle (g : Gang) (p : Pend) : (g.settle p).exited = g.exited := Gang.exited_writePend ..

theorem Gang.stop_pc (g : Gang) : g.stop.pc = g.pc :=
  List.foldlRecOn (motive := fun q : Gang => q.pc = g.pc) _ Gang.settle rfl fun q hq p _ => (q.pc_settle p).trans hq

theorem Gang.stop_exited (g : Gang) : g.stop.exited = g.exited :=
  List.foldlRecOn (motive := fun q : Gang => q.exited = g.exited) _ Gang.settle rfl fun q hq p _ => (q.exited_settle p).trans hq

/-! ### The delivery of a record (R397) -/

theorem State.OnlyMemory.devWrite (s : State) (chip a : Nat) (bs : List Byte) : s.OnlyMemory (s.devWrite chip a bs) := by
  induction bs generalizing s a with
  | nil => exact refl s
  | cons b bs ih =>
    unfold State.devWrite
    split
    · exact ((writeByte s _ b).trans (of_sameButRaces (.endSequence ..))).trans (ih ..)
    · exact ih ..

theorem State.issuer_devWrite (s : State) (chip a : Nat) (bs : List Byte) : (s.devWrite chip a bs).issuer = s.issuer := by
  induction bs generalizing s a with
  | nil => rfl
  | cons b bs ih =>
    unfold State.devWrite
    split
    · next p _ =>
      refine (ih ..).trans ?_
      cases p <;> rfl
    · exact ih ..

theorem State.issuer_deliverFault (s : State) (chip : Nat) (bs : List Byte) (task : Nat) : (s.deliverFault chip bs task).1.issuer = s.issuer := by
  unfold State.deliverFault
  split
  · rfl
  · dsimp only
    split
    · exact s.issuer_devWrite ..
    · rfl

theorem State.gang?_deliverFault (s : State) (chip : Nat) (bs : List Byte) (task : Nat) (g : GangRef) :
    (s.deliverFault chip bs task).1.gang? g = s.gang? g := by
  have htasks {t : State} {f : Chip → Chip} (hf : ∀ c, (f c).tasks = c.tasks) : (t.updChip chip f).gang? g = t.gang? g := by
    unfold State.gang?
    rw [State.task?_updChip_of_tasks t chip hf]
  unfold State.deliverFault
  split
  · rfl
  · dsimp only
    split
    · exact (htasks (t := s.devWrite ..) (f := fun d => { d with trap := { d.trap with fqtail := (d.trap.fqtail + 1) % 64 } }) fun _ => rfl).trans
        ((State.OnlyMemory.devWrite ..).gangs g)
    · exact htasks fun _ => rfl

/-- A task that ends is there still, and has ended. -/
theorem State.task?_endTask {s : State} {g : GangRef} {c : Chip} {q : Gang} {record : List Byte} (hc : s.chip? g.chip = some c)
    (hq : s.gang? g = some q) : ∃ v, (s.endTask g.chip g.task record).task? g.chip g.task = some v ∧ v.ended = true := by
  obtain ⟨k, hk, -⟩ := Option.bind_eq_some_iff.mp ((s.gang?_deliverFault g.chip record g.task g).trans hq)
  have hended (f : Task → Task) (hf : (f k).ended = true) :
      ∃ v, ((s.deliverFault g.chip record g.task).1.updTask g.chip g.task f).task? g.chip g.task = some v ∧ v.ended = true :=
    ⟨f k, by rw [State.task?_updTask_self, hk]; rfl, hf⟩
  unfold State.endTask
  rw [hc]
  dsimp only
  split <;> exact hended _ rfl

theorem State.issuer_endTask {s : State} {chip task : Nat} {record : List Byte} : (s.endTask chip task record).issuer = s.issuer := by
  unfold State.endTask
  split
  · rfl
  · dsimp only
    split <;> exact s.issuer_deliverFault ..

/-! ### The three ways of a fault -/

/-- A fault after which the task ends. -/
def Trouble.Ends (t : Trouble) (c : Chip) (q : Gang) : Prop := q.frame.isSome = true ∨ c.trap.en = false ∨ t.cause = 5 ∨ t.cause = 22

theorem Trouble.ends_iff {t : Trouble} {c : Chip} {q : Gang} : (q.frame.isSome || !c.trap.en || endsTask t.cause) = true ↔ t.Ends c q := by
  simp [Trouble.Ends, endsTask, cExtent, cEngineFault, or_assoc]

/-- The record of a fault of a gang. -/
def Trouble.recordOf (t : Trouble) (g : GangRef) (k : Task) (q : Gang) (active : LaneMask) (pc resume : DWord) (ends : Bool) : List Byte :=
  faultRecord t q.frame.isSome ends false active g.gang k.handle k.num pc resume

section
variable {s : State} {g : GangRef} {c : Chip} {k : Task} {q : Gang} {t : Trouble} {active : LaneMask} {pc resume : DWord}
  {repl : List (Lanes (BitVec 128))} (hc : s.chip? g.chip = some c) (hk : s.task? g.chip g.task = some k) (hq : s.gang? g = some q)
include hc hk hq

theorem State.faultGang_ends (h : t.Ends c q) :
    s.faultGang g t active pc resume repl = s.endTask g.chip g.task (t.recordOf g k q active pc resume true) := by
  unfold State.faultGang
  simp only [hc, hk, hq, if_pos (Trouble.ends_iff.mpr h)]
  rfl

theorem State.faultGang_handler (h : ¬ t.Ends c q) {n : Nat} (hn : c.trap.freeFrame = some n) :
    s.faultGang g t active pc resume repl = s.enterHandler g (t.recordOf g k q active pc resume false) repl n := by
  unfold State.faultGang
  simp only [hc, hk, hq, if_neg (Trouble.ends_iff.not.mpr h), hn]
  rfl

theorem State.faultGang_waits (h : ¬ t.Ends c q) (hn : c.trap.freeFrame = none) :
    s.faultGang g t active pc resume repl =
      s.updGang g fun r => { r.stop with waiting := some (t.recordOf g k q active pc resume false, repl) } := by
  unfold State.faultGang
  simp only [hc, hk, hq, if_neg (Trouble.ends_iff.not.mpr h), hn]
  rfl

end

/-- A bundle's fault where the gang has no earlier one outstanding and replays nothing. -/
theorem State.takeFault_gang {s : State} {g : GangRef} {q : Gang} (hq : s.gang? g = some q) (hreplay : q.replay = []) (hpend : ∀ p ∈ q.pend, p.traps = 0)
    (lanes active : LaneMask) (t : Trouble) (pc resume : DWord) (repl : List (Lanes (BitVec 128))) :
    s.takeFault (.gang g lanes) t active pc resume repl =
      State.faultGang { s with issuer := none, due := s.due.filter fun o => !Issuer.together o (.gang g lanes) } g t active pc resume repl := by
  have hnone : q.pend.find? (fun p => p.traps != 0) = none := List.find?_eq_none.mpr fun p hp => by simp [hpend p hp]
  have hnoReplay : q.replaying lanes = none := by unfold Gang.replaying; rw [hreplay]
  unfold State.takeFault
  have hgang : State.gang? { s with issuer := none, due := s.due.filter fun o => !Issuer.together o (.gang g lanes) } g = some q := hq
  simp only [hgang, Option.bind_some, hnone, State.faultOfReplay, hnoReplay]

theorem Chip.tasks_touchRange (c : Chip) (a n : Nat) : (c.touchRange a n).tasks = c.tasks ∧ (c.touchRange a n).trap = c.trap := by
  unfold Chip.touchRange
  split
  · exact ⟨rfl, rfl⟩
  · refine List.foldlRecOn (motive := fun d : Chip => d.tasks = c.tasks ∧ d.trap = c.trap) _ _ ⟨rfl, rfl⟩ fun d hd k _ => ?_
    unfold Chip.touch
    split <;> exact hd

/-- Bytes written in a chip's memory leave its tasks and its trap registers. -/
theorem Chip.tasks_writeMem (c : Chip) (a : Nat) (bs : List Byte) : (c.writeMem a bs).tasks = c.tasks ∧ (c.writeMem a bs).trap = c.trap :=
  c.tasks_touchRange a bs.length

/-- A gang rewritten on a chip that keeps its tasks. -/
theorem State.gang?_rewritten {s : State} {g : GangRef} {c d : Chip} {q : Gang} (hc : s.chip? g.chip = some c) (hq : s.gang? g = some q)
    (hd : d.tasks = c.tasks) (r : Gang) : ((s.updChip g.chip fun _ => d).updGang g fun _ => r).gang? g = some r := by
  have htask : (s.updChip g.chip fun _ => d).task? g.chip g.task = s.task? g.chip g.task := by
    simp only [State.task?, State.chip?_updChip_self, hc, Option.map_some, Option.bind_some, hd]
  have hgang : (s.updChip g.chip fun _ => d).gang? g = some q := by
    unfold State.gang?
    rw [htask]
    exact hq
  rw [State.gang?_updGang_self, hgang]
  rfl

theorem State.chip?_rewritten {s : State} {g : GangRef} {c d : Chip} (hc : s.chip? g.chip = some c) (f : Gang → Gang) :
    ∃ e, ((s.updChip g.chip fun _ => d).updGang g f).chip? g.chip = some e ∧ e.trap = d.trap := by
  have hchip : (s.updChip g.chip fun _ => d).chip? g.chip = some d := by rw [State.chip?_updChip_self, hc]; rfl
  refine ⟨_, (State.chip?_updChip_self ..).trans (congrArg (Option.map _) hchip), rfl⟩

/-- The chip with the record and the image of a gang in a frame, where its area is leased. -/
def Chip.framed (c : Chip) (key : Nat) (q : Gang) (record : List Byte) (n : Nat) : Chip :=
  let image := q.image q.pc q.pred none false []
  let image := image.take 0x1C ++ le 2 n ++ image.drop 0x1E
  match leasePlace key c.trap.area (c.trap.tfbase.toNat + 65536 * n) with
  | some (.dram _ a _) => (c.writeMem a record).writeMem (a + 0x40) image
  | _ => c

theorem Chip.framed_keeps (c : Chip) (key : Nat) (q : Gang) (record : List Byte) (n : Nat) :
    (c.framed key q record n).tasks = c.tasks ∧ (c.framed key q record n).trap = c.trap := by
  unfold Chip.framed
  dsimp only
  split
  · next a _ _ =>
    obtain ⟨htasks, htrap⟩ := c.tasks_writeMem a record
    obtain ⟨htasks', htrap'⟩ := (c.writeMem a record).tasks_writeMem (a + 0x40) _
    exact ⟨htasks'.trans htasks, htrap'.trans htrap⟩
  · exact ⟨rfl, rfl⟩

/-- A gang in the handler: its running threads at TCBASE, the frame's address and the cause's word in s62 and s63. -/
structure Gang.Entered (c : Chip) (q : Gang) (record : List Byte) (n : Nat) (r : Gang) : Prop where
  pl : r.pl = .supervisor
  frame : r.frame = some n
  exited : r.exited = q.exited
  pc : ∀ i : Fin 32, r.pc[i] = if inMask q.exited i then q.pc[i] else c.trap.tcbase
  fpctl : r.fpctl = Lanes.all 0
  pend : r.pend = []
  s62 : vget r.sreg 62 = BitVec.ofNat 64 (c.trap.tfbase.toNat + 65536 * n)
  s63 : vget r.sreg 63 = BitVec.ofNat 64 (field record 0 4)

/-- The chip with a frame more held. -/
def Chip.holdFrame (d : Chip) (n : Nat) : Chip := { d with trap := { d.trap with frames := n :: d.trap.frames } }

theorem inMask_not (m : LaneMask) (i : Fin 32) : inMask (~~~m) i = !inMask m i := by
  unfold inMask
  rw [BitVec.getLsbD_not]
  simp [i.isLt]

/-- R399: where the threads of a gang stand in a handler. -/
theorem handlerPcs {c d : Chip} (h : d.trap.tcbase = c.trap.tcbase) (exited : LaneMask) (pc : Lanes DWord) (i : Fin 32) :
    (lanesFrom fun i => if inMask (~~~exited) i then d.trap.tcbase else pc[i])[i] = if inMask exited i then pc[i] else c.trap.tcbase := by
  rw [fin_lanesFrom, inMask_not, h]
  cases inMask exited i <;> rfl

theorem State.enterHandler_eq {s : State} {g : GangRef} {c : Chip} {q : Gang} {record : List Byte} {n : Nat} (hc : s.chip? g.chip = some c)
    (hq : s.gang? g = some q) :
    ∃ r, Gang.Entered c q record n r ∧ s.enterHandler g record [] n =
      (((s.renumber g q.stop.remotePlace).updChip g.chip fun _ => (c.framed g.chip q.stop record n).holdFrame n).updGang g fun _ => r) := by
  unfold State.enterHandler
  rw [hc, hq]
  refine ⟨_, ?_, rfl⟩
  refine ⟨rfl, rfl, q.stop_exited, fun i => ?_, rfl, rfl, ?_, ?_⟩
  · have htrap := congrArg Trap.tcbase (c.framed_keeps g.chip q.stop record n).2
    rw [← q.stop_exited, ← q.stop_pc]
    exact handlerPcs (d := (c.framed g.chip q.stop record n).holdFrame n) htrap ..
  · exact (vget_vset_ne _ _ (by decide) (by decide) (by decide)).trans (vget_vset_self ..)
  · exact vget_vset_self ..

/-- What a handler is entered with. -/
theorem State.enterHandler_entered {s : State} {g : GangRef} {c : Chip} {q : Gang} {record : List Byte} {n : Nat} (hc : s.chip? g.chip = some c)
    (hq : s.gang? g = some q) :
    ∃ r d, (s.enterHandler g record [] n).gang? g = some r ∧ (s.enterHandler g record [] n).chip? g.chip = some d ∧
      Gang.Entered c q record n r ∧ d.trap = { c.trap with frames := n :: c.trap.frames } ∧ (s.enterHandler g record [] n).issuer = s.issuer := by
  obtain ⟨r, hr, heq⟩ := State.enterHandler_eq (record := record) (n := n) hc hq
  obtain ⟨htasks, htrap⟩ := c.framed_keeps g.chip q.stop record n
  have hc' : (s.renumber g q.stop.remotePlace).chip? g.chip = some c := hc
  obtain ⟨d, hd, hdtrap⟩ := State.chip?_rewritten (d := (c.framed g.chip q.stop record n).holdFrame n) hc' fun _ => r
  rw [heq]
  refine ⟨r, d, State.gang?_rewritten (d := (c.framed g.chip q.stop record n).holdFrame n) hc' hq htasks r, hd, hr, ?_, rfl⟩
  rw [hdtrap, ← htrap]
  rfl

/-- Settles O56: the three ways of a fault, from the gang's chip, task and record. -/
theorem faultTaken : Obligations.FaultTaken := by
  intro s g lanes active t pc resume c k q hc hk hq hreplay hpend u ends record
  have hu : u = State.faultGang { s with issuer := none, due := s.due.filter fun o => !Issuer.together o (.gang g lanes) } g t active pc resume [] :=
    State.takeFault_gang hq hreplay hpend lanes active t pc resume []
  generalize hv : ({ s with issuer := none, due := s.due.filter fun o => !Issuer.together o (.gang g lanes) } : State) = v at hu
  have hnone : v.issuer = none := hv ▸ rfl
  replace hc : v.chip? g.chip = some c := hv ▸ hc
  replace hk : v.task? g.chip g.task = some k := hv ▸ hk
  replace hq : v.gang? g = some q := hv ▸ hq
  rw [hu]
  refine ⟨fun n hgoes hn => ?_, fun hgoes hn => ?_, fun hends => ?_⟩
  · rw [State.faultGang_handler hc hk hq hgoes hn]
    obtain ⟨r, d, hr, hd, hin, htrap, hissuer⟩ := State.enterHandler_entered (record := t.recordOf g k q active pc resume false) (n := n) hc hq
    exact ⟨r, d, hr, hd, hin.pl, hin.frame, hin.exited, hin.pc, hin.fpctl, hin.pend, hin.s62, hin.s63, htrap, hissuer.trans hnone⟩
  · rw [State.faultGang_waits hc hk hq hgoes hn]
    exact ⟨(State.gang?_updGang_self ..).trans (congrArg (Option.map _) hq), hnone⟩
  · rw [State.faultGang_ends hc hk hq hends]
    obtain ⟨w, hw, hended⟩ := State.task?_endTask (record := t.recordOf g k q active pc resume true) hc hq
    exact ⟨w, hw, hended, State.issuer_endTask.trans hnone⟩

end Sys2Proof.Machine
end

section
/-! SUPPORT. The machine after reset, and a new chip (R436, R306). -/

namespace Sys2Proof.Machine

/-- Settles O57: each value stands in `State.reset`, in `Device.reset` or in `Chip.new`. -/
theorem resetState : Obligations.ResetState := by
  refine ⟨⟨Device.reset, rfl, rfl, rfl, rfl, rfl, rfl, rfl⟩, fun n hn => ?_, fun _ => rfl, rfl, rfl, rfl, rfl, ?_⟩
  · exact if_neg (Ne.symm hn)
  · intro guest num dev slot quota near tiers csarea c
    have hqueues (q : Fin 64) : (Vector.replicate 64 Queue.reset)[q].en = false := by simp [Queue.reset]
    exact ⟨rfl, rfl, rfl, rfl, rfl, rfl, rfl, rfl, rfl, hqueues, fun _ => rfl⟩

end Sys2Proof.Machine
end

section
/-! SUPPORT. Samphire's commands (R351, R352, R360): what each makes of its checks. -/

namespace Sys2Proof.Machine

/-- Whether a WVCT makes its chip join the pod. -/
def State.joins (s : State) (x : SamCmd) : Bool := x.value.getLsbD 31 && !s.inPod x.guest x.index

/-- The state with the entry that a WVCT writes. -/
def State.vctWritten (s : State) (x : SamCmd) : State := s.updGuest x.guest fun g => { g with vct := putEntry g.vct x.index x.value }

/-- The state that a WVCT leaves whose checks pass: a chip that joins starts at the pod's tide counter. -/
def State.joined (s : State) (x : SamCmd) : State :=
  match s.joins x, (s.podCounters x.guest).head? with
  | true, some n => (s.vctWritten x).updChip (chipKey x.guest x.index) fun k => { k with tide := { k.tide with c := n } }
  | _, _ => s.vctWritten x

theorem State.joined_stays {s : State} {x : SamCmd} (hstays : s.joins x = false) : s.joined x = s.vctWritten x := by
  unfold State.joined
  rw [hstays]

theorem State.joined_first {s : State} {x : SamCmd} (hnone : s.podCounters x.guest = []) : s.joined x = s.vctWritten x := by
  unfold State.joined
  rw [hnone]
  cases s.joins x <;> rfl

theorem State.joined_start {s : State} {x : SamCmd} {n : DWord} {rest : List DWord} (hjoins : s.joins x = true)
    (hcounters : s.podCounters x.guest = n :: rest) :
    s.joined x = (s.vctWritten x).updChip (chipKey x.guest x.index) fun k => { k with tide := { k.tide with c := n } } := by
  unfold State.joined
  rw [hjoins, hcounters]
  rfl

section
variable {s : State} {dev : Nat} {x : SamCmd} {g : Guest} (hx : s.command dev = some x) (hg : Tab.find s.guests x.guest = some g)
include hx hg

/-! ### HOLD and RELEASE -/

theorem execHold_eq (hop : x.op = 1) (hbare : x.bare = true) :
    execHold dev s =
      let held : State := s.updGuest x.guest fun g => { g with held := true }
      if s.drained x.guest && !g.remap then .next (held.status dev 1) else if g.held then .next s else .next held := by
  unfold execHold
  simp only [hx, hg, hop, hbare]
  rfl

theorem execRelease_eq (hop : x.op = 5) (hbare : x.bare = true) :
    execRelease dev s =
      if !g.held then .next (s.status dev 2) else if g.remap then .next s
      else .next ((s.updGuest x.guest fun g => { g with held := false }).status dev 1) := by
  unfold execRelease
  simp only [hx, hg, hop, hbare]
  rfl

/-! ### The tables -/

theorem State.tableWrite_eq {op : Nat} {mask : DWord} {names may : SamCmd → Bool} {f : State → SamCmd → State} (hop : x.op = op)
    (hclean : x.clean = true) (hindex : x.index < 1024) (hvalue : x.value &&& ~~~mask = 0) (hnames : names x = true) :
    s.tableWrite dev op mask names may f =
      if !s.isHeld x.guest then .next (s.status dev 2) else if !may x then .next (s.status dev 4) else .next ((f s x).status dev 1) := by
  unfold State.tableWrite
  simp only [hx, hg, hop, hclean, hvalue, hnames]
  rw [if_neg (by simp), if_neg (by simpa using hindex)]

omit hg in
theorem State.tableWrite_unnamed {op : Nat} {mask : DWord} {names may : SamCmd → Bool} {f : State → SamCmd → State} (hop : x.op = op)
    (hnames : names x = false) : s.tableWrite dev op mask names may f = .next (s.status dev 4) := by
  unfold State.tableWrite
  simp only [hx, hop, hnames]
  rw [if_neg (by simp), if_pos (by simp)]

theorem execWvct_eq (hop : x.op = 3) (hclean : x.clean = true) (hindex : x.index < 1024) (hvalue : x.value &&& ~~~0x83E003FF = 0)
    (hthere : (s.chip? (chipKey x.guest x.index)).isSome = true) :
    execWvct dev s =
      if !s.isHeld x.guest then .next (s.status dev 2)
      else if !(!s.joins x || s.mayJoin x.guest x.index) then .next (s.status dev 4)
      else .next ((s.joined x).status dev 1) := by
  unfold execWvct
  rw [State.tableWrite_eq hx hg hop hclean hindex hvalue (by simp [hthere])]
  rfl

omit hg in
theorem execWvct_noChip (hop : x.op = 3) (hon : x.value.getLsbD 31 = true) (hgone : s.chip? (chipKey x.guest x.index) = none) :
    execWvct dev s = .next (s.status dev 4) := by
  unfold execWvct
  exact State.tableWrite_unnamed hx hop (by simp [hgone, hon])

/-! ### XFER -/

theorem execXfer_eq {c : Chip} {dest slot key : Nat} {staged : Bool} (hop : x.op = 2) (hclean : x.clean = true) (hindex : x.index < 1024)
    (hvalue : bitsOf x.value.toNat 63 15 = 0) (hdest : bitsOf x.value.toNat 9 0 = dest) (hslot : bitsOf x.value.toNat 14 10 = slot)
    (hkey : chipKey x.guest x.index = key) (hc : s.chip? key = some c)
    (hstaged : (c.mig.en && c.mig.tdev == dest && c.mig.tslot == slot && decide (1 ≤ c.mig.rounds)) = staged)
    (hthere : (s.dev? dest).isSome = true) :
    execXfer dev s =
      if !s.isHeld x.guest then .next (s.status dev 2)
      else if !s.dsch key c then .next (s.status dev 3)
      else if !s.slotFree key dest slot then .next (s.status dev 5)
      else
        match s.tiersAt key c dest with
        | none => .next (s.status dev 5)
        | some tiers =>
          if staged && c.mig.busy then .next s
          else .next (((if staged then s.roundStart key else s).moveChip key c dest slot tiers).status dev 1) := by
  unfold execXfer
  simp only [hx, hg, hop, hkey, hc, hdest, hslot, hstaged, hclean, hvalue]
  rw [if_neg (by simp), if_neg (by simpa using ⟨hindex, Option.isSome_iff_ne_none.mp hthere⟩)]
  rfl

end

/-- R4: a device without room for a chip's share of the inbound buffer has no place for it. -/
theorem State.tiersAt_noRoom {s : State} {key dest : Nat} {c : Chip} (hdest : dest ≠ c.dev)
    (hroom : 4096 < s.tibqTaken dest key + max c.tide.tibq (c.tide.tibqDue.getD 0)) : s.tiersAt key c dest = none := by
  unfold State.tiersAt
  rw [if_neg hdest, if_pos hroom]

/-- Settles O44: each command's checks in their order, decided by the clause's hypotheses. -/
theorem samphireCommands : Obligations.SamphireCommands := by
  intro s dev
  refine ⟨fun d value hd => ?_, fun x g hx hg => ?_⟩
  · change execSamtailWrite dev value s = _
    unfold execSamtailWrite
    rw [hd]
  intro holds held
  have hisHeld : s.isHeld x.guest = held := State.isHeld_of_find hg
  refine ⟨fun hop hbare => ?_, fun hop hclean hindex hvalue hthere => ?_, fun hop hon hgone => execWvct_noChip hx hop hon hgone,
    fun hop hclean hindex hvalue => ?_, fun hop hbare => ?_, fun c hop hclean hindex hvalue hc => ?_⟩
  · have hhold := execHold_eq hx hg hop hbare
    refine ⟨fun hdrained hremap => hhold.trans ?_, fun hdrained hfree => hhold.trans ?_, fun hdrained hheld => hhold.trans ?_⟩
    · simp [hdrained, hremap, holds]
    · simp [hdrained, hfree, holds]
    · simp [hdrained, hheld]
  · have hwvct := execWvct_eq hx hg hop hclean hindex hvalue hthere
    rw [hisHeld] at hwvct
    intro written joins
    refine ⟨fun hfree => hwvct.trans ?_, fun hon (hstays : s.joins x = false) => hwvct.trans ?_,
      fun hon (hjoins : s.joins x = true) hmay => hwvct.trans ?_, fun hon (hjoins : s.joins x = true) hmay =>
        ⟨fun hnone => hwvct.trans ?_, fun n rest hcounters => hwvct.trans ?_⟩⟩
    · simp [hfree]
    · simp only [hon, hstays, State.joined_stays hstays]
      rfl
    · simp [hon, hjoins, hmay]
    · simp only [hon, hjoins, hmay, State.joined_first hnone]
      rfl
    · simp only [hon, hjoins, hmay, State.joined_start hjoins hcounters]
      rfl
  · have hwrlt : execWrlt dev s = _ := State.tableWrite_eq hx hg hop hclean hindex hvalue rfl
    rw [hisHeld] at hwrlt
    refine ⟨fun hon => hwrlt.trans ?_, fun hfree => hwrlt.trans ?_⟩
    · simp [hon]
    · simp [hfree]
  · have hrelease := execRelease_eq hx hg hop hbare
    refine ⟨fun hfree => hrelease.trans ?_, fun hheld hremap => hrelease.trans ?_⟩
    · simp [hfree]
    · simp [hheld, hremap, holds]
  · intro dest slot key staged hdest
    have hxfer := execXfer_eq hx hg hop hclean hindex hvalue (dest := dest) (slot := slot) (key := key) (staged := staged) rfl rfl rfl hc rfl hdest
    rw [hisHeld] at hxfer
    refine ⟨State.tiersAt_noRoom, fun hfree => hxfer.trans ?_, fun hon hruns => hxfer.trans ?_, fun hon hrests hnoRoom => hxfer.trans ?_,
      fun tiers hon hrests hslot htiers => ?_⟩
    · simp [hfree]
    · simp [hon, hruns]
    · cases hslot : s.slotFree key dest slot with
      | false => simp [hon, hrests]
      | true =>
        have htiers := hnoRoom.resolve_left (ne_false_of_eq_true hslot)
        simp [hon, hrests, htiers]
    · simp only [hon, hrests, hslot, htiers] at hxfer
      refine ⟨fun hnot => hxfer.trans ?_, fun hstaged hidle => hxfer.trans ?_⟩
      · rw [hnot]
        rfl
      · rw [hstaged, hidle]
        rfl

end Sys2Proof.Machine
end

section
/-! SUPPORT. Links that fail and return (R363, R365): what an event makes of a link, and what a failure leaves due. -/

namespace Sys2Proof.Machine

/-! ### One link of a device -/

/-- The device with a link changed. -/
def Device.withLink (d : Device) (plane : Nat) (f : Link → Link) : Device := { d with links := Tab.put d.links plane (f (d.link plane)) }

theorem Device.link_withLink (d : Device) (plane : Nat) (f : Link → Link) : (d.withLink plane f).link plane = f (d.link plane) := by
  unfold Device.link Device.withLink Tab.getD
  rw [Tab.find_put_self]
  rfl

theorem State.dev?_updLink {s : State} {dev : Nat} {d : Device} (hd : s.dev? dev = some d) (plane : Nat) (f : Link → Link) :
    (s.updLink dev plane f).dev? dev = some (d.withLink plane f) := by
  unfold State.updLink
  rw [State.dev?_updDev_self, hd]
  rfl

/-- The end of a remap holds every guest where another is due (R363 step 5). -/
theorem State.endRemap_due {s : State} {dev plane : Nat} {d : Device} (hd : s.dev? dev = some d) (hplane : plane ≤ 15)
    (hdue : d.remapDue plane = true) : s.endRemap = s.remapping true := by
  unfold State.endRemap
  have hany : (s.devs.any fun d => (List.range 16).any fun p => d.2.remapDue p || d.2.restoreDue p) = true := by
    refine List.any_eq_true.mpr ⟨(dev, d), Tab.mem_of_find hd, List.any_eq_true.mpr ⟨plane, List.mem_range.mpr (by omega), ?_⟩⟩
    simp [hdue]
  rw [hany]

/-- A link that a loss has made fail: the loss stands, and where LIVE names the link its remap is due and every guest is held. -/
theorem State.failLink_updLink {s : State} {dev plane : Nat} {d : Device} (hd : s.dev? dev = some d) (hplane : plane ≤ 15) (f : Link → Link) :
    ∃ (t : State) (e : Device), (s.updLink dev plane f).failLink dev plane = t.endRemap ∧ t.guests = s.guests ∧ t.packets = s.packets ∧ t.dev? dev = some e ∧
      e.link plane = { f (d.link plane) with state := .failed } ∧ (d.live.getLsbD plane = true → t.endRemap = t.remapping true) := by
  have he := State.dev?_updLink (State.dev?_updLink hd plane f) plane fun l => { l with state := .failed }
  have hlink : ((d.withLink plane f).withLink plane fun l => { l with state := .failed }).link plane = { f (d.link plane) with state := .failed } := by
    rw [Device.link_withLink, Device.link_withLink]
  refine ⟨_, _, rfl, rfl, rfl, he, hlink, fun hlive => State.endRemap_due he hplane ?_⟩
  unfold Device.remapDue
  rw [hlink]
  exact hlive

/-! ### The events -/

section
variable {s : State} {dev plane n : Nat} {d : Device} (hd : s.dev? dev = some d) (hplane : plane ≤ 15)
include hd hplane

theorem execLinkLaneLoss_works (hworks : (d.link plane).state ≠ .failed) (hless : n < (d.link plane).lanes) (hdue : ¬ d.remapDue plane = true) :
    execLinkLaneLoss dev plane n s =
      if n < 2 then .next ((s.updLink dev plane fun l => { l with lanes := n }).failLink dev plane)
      else .next (s.updLink dev plane fun l => { l with lanes := n, state := .degraded }) := by
  unfold execLinkLaneLoss
  rw [hd]
  dsimp only
  rw [if_neg (by omega), if_neg hdue, if_neg (by simp [hworks, hless])]

theorem execLinkLaneLoss_due (hdue : d.remapDue plane = true) (hquiet : s.quiet = true) :
    execLinkLaneLoss dev plane n s = .next (s.remap dev plane) := by
  unfold execLinkLaneLoss
  rw [hd]
  dsimp only
  rw [if_neg (by omega), if_pos hdue, if_pos hquiet]

theorem execLinkBufferRetire_works (hworks : (d.link plane).state ≠ .failed) (hsome : n ≠ 0) (hfits : n ≤ (d.link plane).flits) :
    execLinkBufferRetire dev plane n s =
      .next (if (d.link plane).flits - n < 384 then (s.updLink dev plane fun l => { l with flits := l.flits - n }).failLink dev plane
        else s.updLink dev plane fun l => { l with flits := l.flits - n }) := by
  unfold execLinkBufferRetire
  rw [hd]
  dsimp only
  rw [if_neg (by simp [hworks, hsome, hfits, hplane])]

theorem execLinkRetrainComplete_degraded (hdegraded : (d.link plane).state = .degraded) :
    execLinkRetrainComplete dev plane s = .next (s.updLink dev plane fun l => { l with lanes := 8, state := .up }) := by
  unfold execLinkRetrainComplete
  rw [hd]
  dsimp only
  rw [if_neg (by simp [hdegraded, hplane])]

theorem execLinkRepair_failed (hfailed : (d.link plane).state = .failed) (hlive : d.live.getLsbD plane = false) :
    execLinkRepair dev plane s = .next ((s.updLink dev plane fun _ => Link.whole).remapping true) := by
  unfold execLinkRepair
  rw [hd]
  dsimp only
  rw [if_neg (by omega), if_neg (by simp [Device.restoreDue, hfailed]), if_neg (by simp [hfailed, hlive])]

theorem execLinkRepair_works (hworks : (d.link plane).state ≠ .failed) (hlive : d.live.getLsbD plane = false) (hquiet : s.quiet = true) :
    execLinkRepair dev plane s = .next (((s.setLive dev plane true).setPlanes dev plane true).endRemap) := by
  unfold execLinkRepair
  rw [hd]
  dsimp only
  rw [if_neg (by omega), if_pos (by simp [Device.restoreDue, hworks, hlive]), if_pos hquiet]

end

/-- Settles O45: the event of each clause, by the state of the link and of LIVE. -/
theorem linksFailAndReturn : Obligations.LinksFailAndReturn := by
  intro s dev plane n d hd hplane l set allHeld
  refine ⟨fun hworks hless hdue => ?_, execLinkLaneLoss_due hd hplane, fun hworks hsome hfits => ?_,
    execLinkRetrainComplete_degraded hd hplane, execLinkRepair_failed hd hplane, execLinkRepair_works hd hplane⟩
  · have hloss := execLinkLaneLoss_works hd hplane hworks hless hdue
    refine ⟨fun hmany => hloss.trans (if_neg (by omega)), fun hfew => ?_⟩
    obtain ⟨t, e, ht, hrest⟩ := State.failLink_updLink hd hplane fun l => { l with lanes := n }
    exact ⟨t, e, hloss.trans ((if_pos hfew).trans (congrArg Host.Outcome.next ht)), hrest⟩
  · have hretire := execLinkBufferRetire_works hd hplane hworks hsome hfits
    refine ⟨fun hmany => hretire.trans (congrArg Host.Outcome.next (if_neg (Nat.not_lt.mpr hmany))), fun hfew => ?_⟩
    obtain ⟨t, e, ht, hrest⟩ := State.failLink_updLink hd hplane fun l => { l with flits := l.flits - n }
    exact ⟨t, e, hretire.trans (congrArg Host.Outcome.next ((if_pos hfew).trans ht)), hrest⟩

end Sys2Proof.Machine
end

section
/-! SUPPORT. The key store (R414 to R417): its commands, its slots that drain, and the counters of its link keys. -/

namespace Sys2Proof.Machine

/-! ### Commands -/

/-- R414, R417: a slot of a protected guest is Ilcia's to activate. -/
theorem Device.ksCheck_protected {d : Device} {protGuest : Nat → Bool} {x : KsCmd} (hop : x.op = 3) (hok : x.ok = true)
    (hkind : (d.key x.slot).state = 1 → (d.key x.slot).kind = x.kind) (hprot : protGuest x.guest = true) : d.ksCheck protGuest x = some 3 := by
  have hbad : ¬ (!x.ok || (x.op == 3 && (d.key x.slot).state == 1 && (d.key x.slot).kind != x.kind)) = true := by simpa [hok, hop] using hkind
  unfold Device.ksCheck
  dsimp only
  rw [if_neg hbad, if_pos (by simp [hop, hprot])]

section
variable {s : State} {dev : Nat} {d : Device} (hd : s.dev? dev = some d) {cmd : DWord} {may : Nat → Bool} (hmay : may (KsCmd.of cmd).op = true)
include hd hmay

theorem State.keyEvent_notReady (hready : d.ready = false) : s.keyEvent dev cmd may = .next s := by
  unfold State.keyEvent
  simp only [hd, hmay, hready]
  rfl

theorem State.keyEvent_ready (hready : d.ready = true) : s.keyEvent dev cmd may = .next (s.writeKscmd dev cmd) := by
  unfold State.keyEvent
  simp only [hd, hmay, hready]
  rfl

end

theorem State.writeKscmd_fails {s : State} {dev : Nat} {d : Device} (hd : s.dev? dev = some d) {cmd : DWord} {code : Nat}
    (hcheck : d.ksCheck s.protGuest (KsCmd.of cmd) = some code) : s.writeKscmd dev cmd = s.updDev dev fun d => { d with ksResult := code } := by
  unfold State.writeKscmd
  simp only [hd, hcheck]

theorem State.writeKscmd_runs {s : State} {dev : Nat} {d : Device} (hd : s.dev? dev = some d) {cmd : DWord}
    (hcheck : d.ksCheck s.protGuest (KsCmd.of cmd) = none) :
    s.writeKscmd dev cmd = (s.ksRun dev (KsCmd.of cmd)).updDev dev fun d => { d with ksResult := 1 } := by
  unfold State.writeKscmd
  simp only [hd, hcheck]

/-- What the write of a command does that makes `t` of the key store where its checks pass. -/
theorem State.keyEvent_cases {s : State} {dev : Nat} {d : Device} (hd : s.dev? dev = some d) {cmd : DWord} {may : Nat → Bool} {t : State} {op : Nat}
    (hop : (KsCmd.of cmd).op = op) (hmay : may op = true) (hrun : s.ksRun dev (KsCmd.of cmd) = t) :
    (d.ready = false → s.keyEvent dev cmd may = .next s) ∧
    (∀ code, d.ready = true → d.ksCheck s.protGuest (KsCmd.of cmd) = some code →
      s.keyEvent dev cmd may = .next (s.updDev dev fun d => { d with ksResult := code })) ∧
    (d.ready = true → d.ksCheck s.protGuest (KsCmd.of cmd) = none →
      s.keyEvent dev cmd may = .next (t.updDev dev fun d => { d with ksResult := 1 })) := by
  rw [← hop] at hmay
  refine ⟨State.keyEvent_notReady hd hmay, fun code hready hcheck => ?_, fun hready hcheck => ?_⟩
  · rw [State.keyEvent_ready hd hmay hready, State.writeKscmd_fails hd hcheck]
  · rw [State.keyEvent_ready hd hmay hready, State.writeKscmd_runs hd hcheck, hrun]

section
variable {s : State} {dev : Nat} {d : Device} {x : KsCmd} (hd : s.dev? dev = some d)
include hd

theorem State.ksRun_gen (hop : x.op = 1) :
    s.ksRun dev x = (s.generate (keyWords x.kind)).2.updDev dev fun d => d.fillKey x.slot x.kind false (s.generate (keyWords x.kind)).1 := by
  unfold State.ksRun
  simp only [hd, hop]

theorem State.ksRun_load (hop : x.op = 2) :
    s.ksRun dev x = s.updDev dev fun d => d.fillKey x.slot x.kind false (d.keyData.toList.take (keyWords x.kind)) := by
  unfold State.ksRun
  simp only [hd, hop]

theorem State.ksRun_activate (hop : x.op = 3) :
    s.ksRun dev x = s.updDev dev fun d => d.bindKey x.slot x.guest x.chipA x.chipB (s.protGuest x.guest) := by
  unfold State.ksRun
  simp only [hd, hop]

theorem State.ksRun_revoke (hop : x.op = 4) :
    s.ksRun dev x = 
      let gone := s.updDev dev fun d => { d with keys := Tab.upd d.keys x.slot fun k => { k with state := 4, drain := false } }
      if (d.key x.slot).state = 2 && ((d.key x.slot).kind = 1 || (d.key x.slot).kind = 3) then gone.revokeGuest (d.key x.slot).guest else gone := by
  unfold State.ksRun
  simp only [hd, hop]

theorem State.ksRun_erase (hop : x.op = 5) :
    s.ksRun dev x = s.updDev dev fun d => { d with keys := Tab.drop d.keys x.slot } := by
  unfold State.ksRun
  simp only [hd, hop]

end

/-! ### Slots that drain, and link counters -/

theorem State.endDrain_eq {s : State} {dev slot kind : Nat} {d : Device} {ok : KeySlot → Bool} (hd : s.dev? dev = some d)
    (hstate : (d.key slot).state = 3) (hkind : (d.key slot).kind = kind) (hdrain : (d.key slot).drain = true) (hok : ok (d.key slot) = true) :
    s.endDrain dev slot kind ok = .next (s.updDev dev fun e => { e with keys := Tab.put e.keys slot { d.key slot with drain := false } }) := by
  unfold State.endDrain
  simp only [hd]
  rw [if_pos (by simp [hstate, hkind, hdrain, hok])]

/-- No packet that a slot's key has sealed is under way. -/
def unsent (s : State) (k : KeySlot) : Bool :=
  !(s.packets.any fun p => p.guest == k.guest && p.src == k.chipA && p.dst == k.chipB && p.left && !p.delivered && p.cipher.any fun q => q.bits == k.bits)

theorem noneUnderWay {s : State} {k : KeySlot}
    (hnone : ∀ p ∈ s.packets, p.guest = k.guest → p.src = k.chipA → p.dst = k.chipB → p.left = true → p.delivered = false →
      ∀ q, p.cipher = some q → q.bits ≠ k.bits) : unsent s k = true := by
  unfold unsent
  rw [Bool.not_eq_true', List.any_eq_false]
  intro p hp hunder
  simp only [Bool.and_eq_true, beq_iff_eq, Bool.not_eq_true', Option.any_eq_true_iff_get] at hunder
  obtain ⟨⟨⟨⟨⟨hguest, hsrc⟩, hdst⟩, hleft⟩, hdelivered⟩, hcipher, hbits⟩ := hunder
  exact hnone p hp hguest hsrc hdst hleft hdelivered _ (Option.some_get hcipher).symm hbits

theorem execLinkCounterWarn_eq {s : State} {dev slot : Nat} {d : Device} (hd : s.dev? dev = some d) (hstate : (d.key slot).state = 2)
    (hkind : (d.key slot).kind = 2) (hctr : 2 ^ 47 ≤ Tab.getD d.linkCtr slot 0) (hfirst : d.warned.contains slot = false) :
    execLinkCounterWarn dev slot s =
      .next ((s.updDev dev fun d => { d with warned := slot :: d.warned }).notice (chipKey (d.key slot).guest (d.key slot).chipA) 2) := by
  unfold execLinkCounterWarn
  simp only [hd]
  rw [if_pos]
  rw [hfirst, decide_eq_true hstate, decide_eq_true hkind, decide_eq_true hctr]
  rfl

theorem execLinkCounterExhausted_eq (s : State) (dev slot : Nat) : execLinkCounterExhausted dev slot s = .next s := by
  unfold execLinkCounterExhausted notEnabled
  split
  · exact ite_self _
  · rfl

/-- Settles O46: each command by what its run makes, and each event by its slot. -/
theorem keyStore : Obligations.KeyStore := by
  intro s dev d hd
  constructor
  · intro cmd x k bits gone runs
    refine ⟨fun hop => ?_, fun hop => ?_, Device.ksCheck_protected, fun hop => ?_, fun hop => ?_, fun hop => ?_⟩
    · exact State.keyEvent_cases (may := fun op => op == 0 || op == 1 || decide (5 < op)) hd hop rfl (State.ksRun_gen hd hop)
    · exact State.keyEvent_cases (may := fun op => op == 2) hd hop rfl (State.ksRun_load hd hop)
    · exact State.keyEvent_cases (may := fun op => op == 3) hd hop rfl (State.ksRun_activate hd hop)
    · exact State.keyEvent_cases (may := fun op => op == 4) hd hop rfl (State.ksRun_revoke hd hop)
    · exact State.keyEvent_cases (may := fun op => op == 5) hd hop rfl (State.ksRun_erase hd hop)
  · intro slot k done
    refine ⟨fun hstate hkind hdrain => ?_, fun hstate hkind hdrain hnone => ?_, execLinkCounterWarn_eq hd, fun _ _ _ => ?_⟩
    · exact State.endDrain_eq (ok := fun _ => true) hd hstate hkind hdrain rfl
    · exact State.endDrain_eq (ok := unsent s) hd hstate hkind hdrain (noneUnderWay hnone)
    · exact execLinkCounterExhausted_eq s dev slot

end Sys2Proof.Machine
end

section
/-! SUPPORT. Protected creation (R414, R416, R418): the slots that are filled for a protected guest, and what the guest's other slots keep. -/

namespace Sys2Proof.Machine

/-! ### Tables rewritten throughout -/

/-- A table rewritten entry by entry, at its keys. -/
theorem Tab.find_map {α β : Type} {F : Nat × α → Nat × β} {f : Nat → α → β} (hF : ∀ p, F p = (p.1, f p.1 p.2)) (t : Tab α) (n : Nat) :
    Tab.find (t.map F) n = (Tab.find t n).map (f n) := by
  induction t with
  | nil => rfl
  | cons p t ih =>
    rw [List.map_cons, hF]
    simp only [Tab.find]
    split
    · next h => rw [h, Option.map_some]
    · exact ih

theorem State.dev?_mapDevs {s : State} {F : Nat × Device → Nat × Device} {f : Nat → Device → Device} (hF : ∀ p, F p = (p.1, f p.1 p.2)) (n : Nat) :
    ({ s with devs := s.devs.map F } : State).dev? n = (s.dev? n).map (f n) :=
  Tab.find_map hF s.devs n

/-! ### A slot that is filled and bound for a protected guest -/

/-- The device with a key made and bound in a slot for a protected guest. -/
def Device.madeKey (d : Device) (slot kind guest a b : Nat) (bits : List DWord) : Device :=
  (d.fillKey slot kind true bits).bindKey slot guest a b true

/-- A slot that a new key of the same binding retires (R414). -/
def KeySlot.succeeded (k : KeySlot) (kind guest a b : Nat) : KeySlot :=
  if k.state == 2 && k.sameBinding kind guest a b then { k with state := 3, drain := kind == 1 || kind == 2 } else k

theorem KeySlot.succeeded_other {k : KeySlot} {kind guest a b : Nat} (h : k.kind ≠ kind) : k.succeeded kind guest a b = k := by
  unfold KeySlot.succeeded KeySlot.sameBinding
  rw [if_neg (by simp [h])]

theorem KeySlot.succeeded_keeps (k : KeySlot) (kind guest a b : Nat) :
    (k.succeeded kind guest a b).guest = k.guest ∧ (k.succeeded kind guest a b).prot = k.prot ∧
      ((k.succeeded kind guest a b).state = k.state ∨ k.state = 2) := by
  unfold KeySlot.succeeded
  split
  · next h =>
    rw [Bool.and_eq_true, beq_iff_eq] at h
    exact ⟨rfl, rfl, .inr h.1⟩
  · exact ⟨rfl, rfl, .inl rfl⟩

theorem Device.find_madeKey (d : Device) (slot kind guest a b : Nat) (bits : List DWord) (n : Nat) :
    Tab.find (d.madeKey slot kind guest a b bits).keys n =
      if slot = n then some ⟨2, kind, false, guest, a, b, true, bits⟩ else (Tab.find d.keys n).map fun k => k.succeeded kind guest a b := by
  have hkind : ((d.fillKey slot kind true bits).key slot).kind = kind := by
    unfold Device.key Device.fillKey Tab.getD
    rw [Tab.find_put_self]
    rfl
  unfold Device.madeKey Device.bindKey
  rw [hkind, Tab.find_upd, Tab.find_map (f := fun n k => if n ≠ slot then k.succeeded kind guest a b else k)]
  · rw [Device.fillKey, Tab.find_put]
    split
    · next h => simp [h]
    · next h => simp [Ne.symm h]
  · rintro ⟨m, k⟩
    unfold KeySlot.succeeded
    by_cases h : m = slot
    · simp [h]
    · simp only [h, bne_iff_ne, ne_eq, not_false_eq_true, Bool.and_eq_true, true_and, if_true]
      split <;> rfl

/-! ### What the slots of a guest hold -/

/-- An active slot of a kind that belongs to a protected guest. -/
def Device.Holds (d : Device) (guest kind : Nat) : Prop :=
  ∃ n k, Tab.find d.keys n = some k ∧ k.kind = kind ∧ k.state = 2 ∧ k.guest = guest ∧ k.prot = true

/-- Every slot that is bound to a guest is marked as a protected one's. -/
def Device.Marked (d : Device) (guest : Nat) : Prop := ∀ n k, Tab.find d.keys n = some k → k.guest = guest → 2 ≤ k.state → k.prot = true

section
variable {d : Device} {slot kind guest a b : Nat} {bits : List DWord}

theorem Device.Marked.madeKey (h : d.Marked guest) : (d.madeKey slot kind guest a b bits).Marked guest := by
  intro n k hk hguest hstate
  rw [Device.find_madeKey] at hk
  split at hk
  · rw [← Option.some.inj hk]
  · obtain ⟨j, hj, rfl⟩ := Option.map_eq_some_iff.mp hk
    obtain ⟨hkguest, hkprot, hkstate⟩ := j.succeeded_keeps kind guest a b
    rw [hkprot]
    exact h n j hj (hkguest ▸ hguest) (by omega)

theorem Device.holds_madeKey : (d.madeKey slot kind guest a b bits).Holds guest kind :=
  ⟨slot, _, (Device.find_madeKey ..).trans (if_pos rfl), rfl, rfl, rfl, rfl⟩

/-- A slot of another kind stays as it is where the new key goes into an empty slot. -/
theorem Device.Holds.madeKey {other : Nat} (h : d.Holds guest other) (hfree : (d.key slot).state = 0) (hkind : other ≠ kind) :
    (d.madeKey slot kind guest a b bits).Holds guest other := by
  obtain ⟨n, k, hk, hkkind, hstate, hrest⟩ := h
  have hne : slot ≠ n := by
    rintro rfl
    unfold Device.key Tab.getD at hfree
    rw [hk, Option.getD_some, hstate] at hfree
    cases hfree
  refine ⟨n, k, ?_, hkkind, hstate, hrest⟩
  rw [Device.find_madeKey, if_neg hne, hk, Option.map_some, KeySlot.succeeded_other (hkkind ▸ hkind)]

/-! ### Empty slots -/

theorem Device.state_freeKey {n : Nat} (h : d.freeKey = some n) : (d.key n).state = 0 :=
  beq_iff_eq.mp (List.find?_some h :)

theorem Device.freeKey_of_freeKeys (h : 0 < d.freeKeys) : ∃ n, d.freeKey = some n := by
  obtain ⟨n, hn⟩ := List.exists_mem_of_length_pos h
  obtain ⟨hrange, hstate⟩ := List.mem_filter.mp hn
  exact Option.isSome_iff_exists.mp (List.find?_isSome.mpr ⟨n, hrange, hstate⟩)

/-- A device has one empty slot less at most where the others stay empty. -/
theorem Device.freeKeys_le {e : Device} (n : Nat) (h : ∀ m, m ≠ n → (d.key m).state = 0 → (e.key m).state = 0) : d.freeKeys ≤ e.freeKeys + 1 := by
  unfold Device.freeKeys
  rw [← List.length_cons (a := n)]
  refine (List.subperm_of_subset (List.nodup_range.filter _) fun m hm => ?_).length_le
  obtain ⟨hrange, hstate⟩ := List.mem_filter.mp hm
  by_cases hmn : m = n
  · exact List.mem_cons.mpr (.inl hmn)
  · exact List.mem_cons_of_mem _ (List.mem_filter.mpr ⟨hrange, by simpa using h m hmn (by simpa using hstate)⟩)

theorem Device.freeKeys_madeKey : d.freeKeys ≤ (d.madeKey slot kind guest a b bits).freeKeys + 1 := by
  refine Device.freeKeys_le slot fun m hm hstate => ?_
  unfold Device.key Tab.getD at hstate ⊢
  rw [Device.find_madeKey, if_neg (Ne.symm hm)]
  cases hfind : Tab.find d.keys m with
  | none => rfl
  | some k =>
    rw [hfind, Option.getD_some] at hstate
    rw [Option.map_some, Option.getD_some]
    unfold KeySlot.succeeded
    rw [if_neg (by simp [hstate])]
    exact hstate

end

/-! ### The guest's slots are marked -/

/-- A slot of a guest that is protected from now on. -/
def KeySlot.markedFor (k : KeySlot) (guest : Nat) : KeySlot := if k.guest == guest && decide (2 ≤ k.state) then { k with prot := true } else k

theorem Device.find_protKeys (d : Device) (guest n : Nat) :
    Tab.find (d.protKeys guest).keys n = (Tab.find d.keys n).map fun k => k.markedFor guest := by
  refine Tab.find_map (f := fun _ k => k.markedFor guest) (fun p => ?_) d.keys n
  unfold KeySlot.markedFor
  split <;> rfl

theorem Device.marked_protKeys (d : Device) (guest : Nat) : (d.protKeys guest).Marked guest := by
  intro n k hk hguest hstate
  rw [Device.find_protKeys] at hk
  obtain ⟨j, hj, rfl⟩ := Option.map_eq_some_iff.mp hk
  unfold KeySlot.markedFor at hguest hstate ⊢
  split
  · rfl
  · next hnot =>
    rw [if_neg hnot] at hguest hstate
    exact absurd (by simp [hguest, hstate]) hnot

theorem Device.freeKeys_protKeys (d : Device) (guest : Nat) : (d.protKeys guest).freeKeys = d.freeKeys := by
  unfold Device.freeKeys
  refine congrArg List.length (List.filter_congr fun m _ => ?_)
  unfold Device.key Tab.getD
  rw [Device.find_protKeys]
  cases Tab.find d.keys m with
  | none => rfl
  | some k =>
    rw [Option.map_some, Option.getD_some, Option.getD_some]
    unfold KeySlot.markedFor
    split <;> rfl

/-! ### The keys that the creation makes -/

/-- A key of the protected guest goes into an empty slot of its device. -/
theorem State.dev?_protKey {s : State} {dev : Nat} {d : Device} (hd : s.dev? dev = some d) (hroom : 0 < d.freeKeys) (guest kind chipA : Nat) :
    ∃ slot bits, (d.key slot).state = 0 ∧ (s.protKey dev guest kind chipA).dev? dev = some (d.madeKey slot kind guest chipA 0 bits) := by
  obtain ⟨slot, hslot⟩ := Device.freeKey_of_freeKeys hroom
  refine ⟨slot, (s.generate (keyWords kind)).1, Device.state_freeKey hslot, ?_⟩
  unfold State.protKey
  rw [hd, Option.bind_some, hslot]
  exact (State.dev?_updDev_self ..).trans (congrArg _ hd)

/-- A device's key of a link is put into an empty slot, or the device is as it was. -/
def Device.LinkKeyed (d : Device) (guest : Nat) (e : Device) : Prop :=
  e = d ∨ ∃ slot a b bits, (d.key slot).state = 0 ∧ e = d.madeKey slot 2 guest a b bits

/-- A device may change where another's key, or its own in an empty slot, is put. -/
theorem State.dev?_putLink {s : State} {dev : Nat} {d : Device} (hd : s.dev? dev = some d) {n slot : Nat}
    (hfree : n = dev → (d.key slot).state = 0) (guest a b : Nat) (bits : List DWord) :
    ∃ e, (s.updDev n fun d => (d.fillKey slot 2 true bits).bindKey slot guest a b true).dev? dev = some e ∧ d.LinkKeyed guest e ∧ (n ≠ dev → e = d) := by
  rw [State.dev?_updDev, hd]
  split
  · next h => exact ⟨_, rfl, .inr ⟨slot, a, b, bits, hfree h, rfl⟩, fun hne => absurd h hne⟩
  · exact ⟨d, rfl, .inl rfl, fun _ => rfl⟩

theorem State.state_freeKey {s : State} {dev slot : Nat} {d : Device} (hd : s.dev? dev = some d)
    (hslot : (s.dev? dev).bind Device.freeKey = some slot) : (d.key slot).state = 0 := by
  rw [hd, Option.bind_some] at hslot
  exact Device.state_freeKey hslot

theorem State.dev?_linkKey {s : State} {dev : Nat} {d : Device} (hd : s.dev? dev = some d) (guest a b : Nat) :
    ∃ e, (s.linkKey guest a b).dev? dev = some e ∧ d.LinkKeyed guest e := by
  unfold State.linkKey
  dsimp only
  split
  · next ka kb _ hka hkb =>
    have hd' : (s.generate 4).2.dev? dev = some d := hd
    generalize s.generate 4 = r at hd' ⊢
    obtain ⟨e, he, hkeyed, hother⟩ := State.dev?_putLink hd' (n := s.devOf guest a) (slot := ka)
      (by rintro rfl; exact State.state_freeKey hd hka) guest a b r.1
    split
    · exact ⟨e, he, hkeyed⟩
    · next hne =>
      by_cases hdev : s.devOf guest a = dev
      · have hdb : s.devOf guest b ≠ dev := fun h => hne (hdev.trans h.symm)
        refine ⟨e, ?_, hkeyed⟩
        exact (State.dev?_updDev ..).trans ((if_neg hdb).trans he)
      · obtain rfl := hother hdev
        obtain ⟨f, hf, hfkeyed, -⟩ := State.dev?_putLink he (n := s.devOf guest b) (slot := kb)
          (by rintro rfl; exact State.state_freeKey hd hkb) guest a b r.1
        exact ⟨f, hf, hfkeyed⟩
  · exact ⟨d, hd, .inl rfl⟩

/-- A device with the active keys of a protected guest, all of whose slots are marked. -/
structure Device.Guarded (d : Device) (guest : Nat) : Prop where
  marked : d.Marked guest
  holds : ∀ kind ∈ [1, 3, 4], d.Holds guest kind

theorem Device.Guarded.linkKeyed {d e : Device} {guest : Nat} (h : d.Guarded guest) (he : d.LinkKeyed guest e) : e.Guarded guest := by
  rcases he with rfl | ⟨slot, a, b, bits, hfree, rfl⟩
  · exact h
  · refine ⟨h.marked.madeKey, fun kind hkind => (h.holds kind hkind).madeKey hfree ?_⟩
    rintro rfl
    simp at hkind

theorem State.guarded_linkKeys {s : State} {dev : Nat} {d : Device} {guest : Nat} (hd : s.dev? dev = some d) (h : d.Guarded guest) (num : Nat) :
    ∃ e, (s.linkKeys guest num).dev? dev = some e ∧ e.Guarded guest := by
  refine List.foldlRecOn (motive := fun t : State => ∃ e, t.dev? dev = some e ∧ e.Guarded guest) _ _ ⟨d, hd, h⟩ fun t ht c _ => ?_
  obtain ⟨e, he, hguarded⟩ := ht
  obtain ⟨e', he', hthere⟩ := State.dev?_linkKey he guest num c.2.num
  obtain ⟨e'', he'', hback⟩ := State.dev?_linkKey he' guest c.2.num num
  exact ⟨e'', he'', (hguarded.linkKeyed hthere).linkKeyed hback⟩

/-- The three keys of a protected chip, in three empty slots. -/
theorem State.guarded_protKeys {s : State} {dev : Nat} {d : Device} (hd : s.dev? dev = some d) (hroom : 3 ≤ d.freeKeys) (guest num : Nat) :
    ∃ e, ((((s.protKeys guest).protKey dev guest 1 0).protKey dev guest 3 num).protKey dev guest 4 num).dev? dev = some e ∧ e.Guarded guest := by
  have hmarked : (s.protKeys guest).dev? dev = some (d.protKeys guest) := by
    refine (State.dev?_mapDevs (f := fun _ d => d.protKeys guest) (fun _ => rfl) dev).trans ?_
    rw [hd, Option.map_some]
  have hroom₀ := d.freeKeys_protKeys guest
  obtain ⟨n₁, bits₁, hfree₁, hd₁⟩ := State.dev?_protKey hmarked (by omega) guest 1 0
  have hroom₁ := (d.protKeys guest).freeKeys_madeKey (slot := n₁) (kind := 1) (guest := guest) (a := 0) (b := 0) (bits := bits₁)
  obtain ⟨n₂, bits₂, hfree₂, hd₂⟩ := State.dev?_protKey hd₁ (by omega) guest 3 num
  have hroom₂ := ((d.protKeys guest).madeKey n₁ 1 guest 0 0 bits₁).freeKeys_madeKey (slot := n₂) (kind := 3) (guest := guest) (a := num) (b := 0)
    (bits := bits₂)
  obtain ⟨n₃, bits₃, hfree₃, hd₃⟩ := State.dev?_protKey hd₂ (by omega) guest 4 num
  refine ⟨_, hd₃, (d.marked_protKeys guest).madeKey.madeKey.madeKey, fun kind hkind => ?_⟩
  simp only [List.mem_cons, List.not_mem_nil, or_false] at hkind
  rcases hkind with rfl | rfl | rfl
  · exact (Device.holds_madeKey.madeKey hfree₂ (by decide)).madeKey hfree₃ (by decide)
  · exact Device.holds_madeKey.madeKey hfree₃ (by decide)
  · exact Device.holds_madeKey

/-! ### The chip -/

theorem State.chips_protKey (s : State) (dev guest kind chipA : Nat) : (s.protKey dev guest kind chipA).chips = s.chips := by
  unfold State.protKey
  split <;> rfl

theorem State.chips_linkKey (s : State) (guest a b : Nat) : (s.linkKey guest a b).chips = s.chips := by
  unfold State.linkKey
  dsimp only
  split
  · split <;> rfl
  · rfl

theorem State.chips_linkKeys (s : State) (guest num : Nat) : (s.linkKeys guest num).chips = s.chips :=
  List.foldlRecOn (motive := fun t : State => t.chips = s.chips) _ _ rfl fun _ ht _ _ =>
    (State.chips_linkKey ..).trans ((State.chips_linkKey ..).trans ht)

/-- R418: the creation of a protected chip locks its interface, with the guest's keys active and its slots marked, and zeroes its memory. -/
theorem exec_protectedCreationCommit {s : State} {dev slot key : Nat} {d : Device} {c : Chip} (hd : s.dev? dev = some d)
    (hkey : Tab.find d.slots slot = some key) (hc : s.chip? key = some c) (hcreating : (d.iface slot).state = .creating) (hroom : 3 ≤ d.freeKeys) :
    ∃ u e, exec (.protectedCreationCommit dev slot) s = .next u ∧ u.dev? dev = some e ∧ (e.iface slot).state = .locked ∧ e.Guarded c.guest ∧
      ∃ k, u.chip? key = some k ∧ k.prot = true ∧ k.mem = [] := by
  change ∃ u e, execProtectedCreationCommit dev slot s = .next u ∧ _
  unfold execProtectedCreationCommit
  simp only [hd, hkey, hc, Option.bind_some, Option.map_some]
  rw [if_neg (by simp [hcreating, hroom])]
  generalize hzeroed : (s.updChip key fun c => { c.touchRange 0 c.quota with mem := [], prot := true }).updGuest c.guest _ = v
  have hv : v.dev? dev = some d := hzeroed ▸ hd
  have hvc : v.chip? key = some { c.touchRange 0 c.quota with mem := [], prot := true } := by
    rw [← hzeroed]
    exact (State.chip?_updChip_self ..).trans (congrArg _ hc)
  obtain ⟨d₁, hd₁, hguarded₁⟩ := State.guarded_protKeys hv hroom c.guest c.num
  obtain ⟨e, he, hguarded⟩ := State.guarded_linkKeys hd₁ hguarded₁ c.num
  have hchips := (State.chips_linkKeys ((((v.protKeys c.guest).protKey dev c.guest 1 0).protKey dev c.guest 3 c.num).protKey dev c.guest 4 c.num)
    c.guest c.num).trans ((State.chips_protKey ..).trans ((State.chips_protKey ..).trans (State.chips_protKey ..)))
  refine ⟨_, _, rfl, (State.dev?_updDev_self ..).trans (congrArg _ ((State.dev?_updDev_self ..).trans (congrArg _ he))), ?_,
    ⟨hguarded.marked, hguarded.holds⟩, _, (congrArg (Tab.find · key) hchips).trans hvc, rfl, rfl⟩
  unfold Device.iface Tab.getD
  rw [Tab.find_put_self]
  rfl

end Sys2Proof.Machine
end

section
/-! SUPPORT. What the end of a protected chip leaves of its device (R418): the SPDM responder stands as it stood. -/

namespace Sys2Proof.Machine

/-- Every device has the SPDM responder that it had. -/
structure SameSpdm (ds es : Tab Device) : Prop where
  spdm : ∀ n, (Tab.find es n).map Device.spdm = (Tab.find ds n).map Device.spdm

namespace SameSpdm

theorem refl (ds : Tab Device) : SameSpdm ds ds := ⟨fun _ => rfl⟩

theorem trans {ds es fs : Tab Device} (a : SameSpdm ds es) (b : SameSpdm es fs) : SameSpdm ds fs := ⟨fun n => (b.spdm n).trans (a.spdm n)⟩

theorem of_eq {ds es : Tab Device} (h : es = ds) : SameSpdm ds es := h ▸ refl ds

theorem fold {α : Type} {f : State → α → State} (h : ∀ (s : State) a, SameSpdm s.devs (f s a).devs) (l : List α) (s : State) :
    SameSpdm s.devs (l.foldl f s).devs :=
  List.foldlRecOn (motive := fun t => SameSpdm s.devs t.devs) l f (refl _) fun t ht a _ => ht.trans (h t a)

theorem updDev (s : State) (k : Nat) (f : Device → Device) (hf : ∀ d, (f d).spdm = d.spdm := by intros; rfl) :
    SameSpdm s.devs (s.updDev k f).devs := by
  refine ⟨fun n => (congrArg _ (State.dev?_updDev s k f n)).trans ?_⟩
  split
  · rw [Option.map_map]
    exact congrArg (fun g => (s.dev? n).map g) (funext hf)
  · rfl

theorem map (ds : Tab Device) (F : Nat × Device → Nat × Device) (hF : ∀ p, (F p).1 = p.1 ∧ (F p).2.spdm = p.2.spdm := by exact fun _ => ⟨rfl, rfl⟩) :
    SameSpdm ds (ds.map F) := by
  refine ⟨fun n => ?_⟩
  rw [Tab.find_map (f := fun n d => (F (n, d)).2) (fun p => Prod.ext (hF p).1 rfl), Option.map_map]
  exact congrArg (fun g => (Tab.find ds n).map g) (funext fun d => (hF (n, d)).2)

theorem updCore (s : State) (r : CoreRef) (f : Core → Core) : SameSpdm s.devs (s.updCore r f).devs := updDev ..

/-! ### A fault of what is on its way to the chip (R358) -/

theorem deliverFault (s : State) (chip : Nat) (bs : List Byte) (task : Nat) : SameSpdm s.devs (s.deliverFault chip bs task).1.devs := by
  unfold State.deliverFault
  split
  · exact refl _
  · dsimp only
    split
    · exact of_eq (State.OnlyMemory.devWrite ..).devs
    · exact refl _

theorem endTask (s : State) (chip task : Nat) (record : List Byte) : SameSpdm s.devs (s.endTask chip task record).devs := by
  unfold State.endTask
  split
  · exact refl _
  · dsimp only
    have delivered := deliverFault s chip record task
    split
    · exact (delivered.trans (updCore ((s.deliverFault chip record task).1.updTask ..) ..)).trans (map ..)
    · exact delivered.trans (map ..)

theorem endRoutine (s : State) (r : CoreRef) : SameSpdm s.devs (s.endRoutine r).devs := by
  unfold State.endRoutine
  split
  · exact refl _
  · exact updCore ..

theorem stopService (s : State) (chip : Nat) (b : IssuedBy) (t : Trouble) : SameSpdm s.devs (s.stopService chip b t).devs := by
  unfold State.stopService
  split
  · exact refl _
  · dsimp only
    split
    · exact endRoutine (s.updChip chip _) _
    · exact refl _

theorem engineFault (s : State) (chip task : Nat) (b : IssuedBy) (t : Trouble) : SameSpdm s.devs (s.engineFault chip task b t).devs := by
  unfold State.engineFault
  split
  · exact stopService ..
  · split
    · exact refl _
    · split
      · exact refl _
      · exact endTask ..

theorem noRoute (s : State) (g : GangRef) (id : Nat) : SameSpdm s.devs (s.noRoute g id).devs := by
  unfold State.noRoute
  split
  · split
    · exact refl _
    · exact endTask ..
  · exact refl _

theorem discarded (s : State) (p : Packet) (dev : Nat) : SameSpdm s.devs (s.discarded p dev).devs := by
  have counted : SameSpdm s.devs (s.countDiscard dev).devs := updDev ..
  unfold State.discarded
  dsimp only
  split
  case h_1 | h_2 | h_3 => exact counted.trans (noRoute ..)
  case h_4 | h_5 =>
    split
    · exact counted.trans (engineFault ..)
    · exact counted
  case h_6 => exact counted

/-! ### What a chip has on its device's cores, and its turn (R267, R413) -/

theorem forget (s : State) (chip key : Nat) : SameSpdm s.devs (s.forget chip key).devs := refl _

theorem leaveCore (s : State) (chip key : Nat) (core : CoreRef) (prot : Bool) : SameSpdm s.devs (s.leaveCore chip key core prot).devs := by
  unfold State.leaveCore
  dsimp only
  split
  · exact (updCore (s.updChip chip _) core _).trans (forget ..)
  · exact (updCore s core _).trans (forget ..)

theorem freeArray (s : State) (core : CoreRef) : SameSpdm s.devs (s.freeArray core).devs := by
  unfold State.freeArray
  split
  · exact refl _
  · split
    · exact updCore ..
    · exact updCore (s.updTask _ _ _) core _

theorem clearCores (s : State) (chip : Nat) : SameSpdm s.devs (s.clearCores chip).devs := by
  unfold State.clearCores
  split
  · exact refl _
  · next c _ =>
    dsimp only
    refine trans ?_ (fold (fun s k => ?_) _ _)
    · refine trans (fold (fun s k => ?_) c.placed s) (updDev _ c.dev _)
      split
      · exact leaveCore ..
      · exact refl _
    · split
      · exact freeArray ..
      · exact refl _

theorem startTurn (s : State) (chip : Nat) : SameSpdm s.devs (s.startTurn chip).devs := by
  unfold State.startTurn
  split
  · exact refl _
  · split <;> exact refl _

theorem leaveTurn (s : State) (chip : Nat) (old : Chip) : SameSpdm s.devs (s.leaveTurn chip old).devs := by
  unfold State.leaveTurn
  split
  · exact fold startTurn _ s
  · exact refl _

theorem stopChip (s : State) (chip : Nat) : SameSpdm s.devs (s.stopChip chip).devs := by
  unfold State.stopChip
  split
  · exact refl _
  · exact (clearCores s chip).trans (leaveTurn ((s.clearCores chip).updChip chip _) chip _)

/-! ### The end of a protected chip (R418) -/

theorem purge (s : State) (chip : Nat) : SameSpdm s.devs (s.purge chip).devs := by
  unfold State.purge
  split
  · exact refl _
  · next c _ =>
    dsimp only
    refine trans ?_ (fold (fun s p => discarded s p _) _ _)
    exact (clearCores s chip).trans (updDev _ c.dev _)

theorem revokeGuest (s : State) (guest : Nat) : SameSpdm s.devs (s.revokeGuest guest).devs := by
  unfold State.revokeGuest
  refine fold (fun s c => ?_) _ s
  exact (updDev s c.2.dev _).trans (stopChip _ c.1)

theorem eraseKeys (s : State) (dev guest : Nat) : SameSpdm s.devs (s.eraseKeys dev guest).devs := by
  unfold State.eraseKeys
  split
  · exact refl _
  · dsimp only
    split
    · exact (revokeGuest s guest).trans (updDev ..)
    · exact updDev ..

end SameSpdm

end Sys2Proof.Machine
end

section
/-! SUPPORT. Requests to an interface, to the SPDM responder and for a debug unlock (R418 to R420): what each makes of its device. -/

namespace Sys2Proof.Machine

/-! ### The end of a protected chip (R418) -/

/-- The state that a stop leaves of the chip in a slot: discarded, its guest's keys erased, a new chip in its place. -/
def State.discardChip (s : State) (dev slot : Nat) (d : Device) : State :=
  match (Tab.find d.slots slot).bind fun k => (s.chip? k).map fun c => (k, c) with
  | none => s
  | some (key, c) =>
    let s := (s.purge key).eraseKeys dev c.guest
    let s := (s.updChip key fun _ => Chip.new c.guest c.num c.dev c.slot c.quota c.nearQuota c.tiers c.trap.csarea).leaveTurn key c
    s.updGuest c.guest fun g => { g with prot := s.chips.any fun k => k.2.guest == c.guest && k.2.prot }

theorem SameSpdm.discardChip (s : State) (dev slot : Nat) (d : Device) : SameSpdm s.devs (s.discardChip dev slot d).devs := by
  unfold State.discardChip
  split
  · exact refl _
  · next key c _ =>
    exact ((purge s key).trans (eraseKeys _ dev c.guest)).trans (leaveTurn (((s.purge key).eraseKeys dev c.guest).updChip key _) key c)

theorem SameSpdm.dev? {s t : State} (h : SameSpdm s.devs t.devs) {dev : Nat} {d : Device} (hd : s.dev? dev = some d) :
    ∃ e, t.dev? dev = some e ∧ e.spdm = d.spdm :=
  Option.map_eq_some_iff.mp ((h.spdm dev).trans (congrArg _ hd))

/-! ### Requests to an interface (R418) -/

section
variable {s : State} {dev slot : Nat} {d : Device} (hd : s.dev? dev = some d) (hready : d.ready = true) (hslot : slot ≤ 31)
include hd hready hslot

theorem State.tdisp_some {request : Nat} {f : Device → Tdi → Option State} {payload : Tdi → List DWord} {u : State} (hf : f d (d.iface slot) = some u) :
    s.tdisp dev slot request f payload = .next (u.answer dev request true (payload (d.iface slot))) := by
  unfold State.tdisp
  simp only [hd, hf, hready]
  rw [if_neg (by simp [hslot])]

theorem State.tdisp_none {request : Nat} {f : Device → Tdi → Option State} {payload : Tdi → List DWord} (hf : f d (d.iface slot) = none) :
    s.tdisp dev slot request f payload = .next (s.answer dev request false []) := by
  unfold State.tdisp
  simp only [hd, hf, hready]
  rw [if_neg (by simp [hslot])]

/-! ### Locking an interface -/

theorem execLockInterface_accepted {key : Nat} {c : Chip} (hkey : Tab.find d.slots slot = some key) (hc : s.chip? key = some c)
    (hfree : (d.iface slot).state = .unlocked) (hdsch : c.descheduled = true) (htasks : ∀ u ∈ c.tasks, u.2.core = none) :
    execLockInterface dev slot s = .next ((s.setTdi dev slot { d.iface slot with state := .creating, reason := 0 }).answer dev 0x83 true []) := by
  have hoff : (c.tasks.all fun u => u.2.core.isNone) = true := List.all_eq_true.mpr fun u hu => by simp [htasks u hu]
  refine State.tdisp_some hd hready hslot ?_
  simp only [hkey, hc, Option.bind_some, hfree, hdsch, hoff]
  rfl

theorem execLockInterface_refused (hused : (d.iface slot).state ≠ .unlocked) : execLockInterface dev slot s = .next (s.answer dev 0x83 false []) := by
  refine State.tdisp_none hd hready hslot ?_
  split
  · rw [if_neg (by simp [hused])]
  · rfl

/-! ### The other requests -/

theorem execStartInterface_accepted (hlocked : (d.iface slot).state = .locked) :
    execStartInterface dev slot s = .next ((s.setTdi dev slot { d.iface slot with state := .run }).answer dev 0x86 true []) :=
  State.tdisp_some hd hready hslot (if_pos hlocked)

theorem execStartInterface_refused (hother : (d.iface slot).state ≠ .locked) :
    execStartInterface dev slot s = .next (s.answer dev 0x86 false []) :=
  State.tdisp_none hd hready hslot (if_neg hother)

theorem execTdispGetVersion_answered : execTdispGetVersion dev slot s = .next (s.answer dev 0x81 true [0x10]) :=
  State.tdisp_some hd hready hslot rfl

theorem execTdispGetCapabilities_answered :
    execTdispGetCapabilities dev slot s = .next (s.answer dev 0x82 true [0x81, 0x82, 0x83, 0x84, 0x85, 0x86, 0x87]) :=
  State.tdisp_some hd hready hslot rfl

theorem execGetDeviceInterfaceReport_accepted (hstate : (d.iface slot).state = .locked ∨ (d.iface slot).state = .run) :
    execGetDeviceInterfaceReport dev slot s = .next (s.answer dev 0x84 true [Config.secret (2 ^ 40 + 64 * dev + slot)]) :=
  State.tdisp_some hd hready hslot (if_pos (by simpa using hstate))

theorem execGetDeviceInterfaceReport_refused (hnotLocked : (d.iface slot).state ≠ .locked) (hnotRun : (d.iface slot).state ≠ .run) :
    execGetDeviceInterfaceReport dev slot s = .next (s.answer dev 0x84 false []) :=
  State.tdisp_none hd hready hslot (if_neg (by simp [hnotLocked, hnotRun]))

theorem execGetDeviceInterfaceState_answered :
    execGetDeviceInterfaceState dev slot s = .next (s.answer dev 0x85 true [BitVec.ofNat 64 (d.iface slot).state.code]) :=
  State.tdisp_some hd hready hslot rfl

theorem execIdeKm_accepted (hfinished : d.spdm.finished = true) :
    execIdeKm dev slot s = .next ((s.setTdi dev slot { d.iface slot with ide := true }).answer dev 0x80 true []) :=
  State.tdisp_some hd hready hslot (if_pos hfinished)

theorem execIdeKm_refused (hunfinished : d.spdm.finished = false) : execIdeKm dev slot s = .next (s.answer dev 0x80 false []) :=
  State.tdisp_none hd hready hslot (if_neg (ne_true_of_eq_false hunfinished))

/-! ### Stopping an interface -/

theorem execStopInterface_refused (hfree : (d.iface slot).state = .unlocked) : execStopInterface dev slot s = .next (s.answer dev 0x87 false []) :=
  State.tdisp_none hd hready hslot (if_pos hfree)

theorem execStopInterface_accepted (hused : (d.iface slot).state ≠ .unlocked) :
    execStopInterface dev slot s = .next ((((s.discardChip dev slot d).setTdi dev slot Tdi.reset).updDev dev fun d =>
      { d with sealCnt := Tab.drop d.sealCnt slot, stagBase := Tab.drop d.stagBase slot }).answer dev 0x87 true []) :=
  State.tdisp_some hd hready hslot (if_neg hused)

/-- The interface is unlocked again, and the SPDM responder has its answer. -/
theorem exec_stopInterface (hused : (d.iface slot).state ≠ .unlocked) :
    ∃ u e, exec (.stopInterface dev slot) s = .next u ∧ u.dev? dev = some e ∧ (e.iface slot).state = .unlocked ∧
      e.spdm.answers = d.spdm.answers ++ [⟨0x87, true, []⟩] := by
  obtain ⟨e, he, hspdm⟩ := (SameSpdm.discardChip s dev slot d).dev? hd
  refine ⟨_, _, execStopInterface_accepted hd hready hslot hused, (State.dev?_updDev_self ..).trans (congrArg _ ((State.dev?_updDev_self ..).trans
    (congrArg _ ((State.dev?_updDev_self ..).trans (congrArg _ he))))), ?_, congrArg (fun p : Spdm => p.answers ++ _) hspdm⟩
  unfold Device.iface Tab.getD
  rw [Tab.find_put_self]
  rfl

end

/-! ### SPDM requests (R419) -/

section
variable {s : State} {dev request : Nat} {d : Device} {ok : Spdm → Bool} {f : Spdm → Spdm} {payload : Device → List DWord}
  (hd : s.dev? dev = some d) (hready : d.ready = true) (hok : ok d.spdm = true)
include hd hready hok

theorem State.spdmStep_taken :
    s.spdmStep dev request ok f payload = .next (s.updDev dev fun e =>
      { e with spdm := { f e.spdm with answers := (f e.spdm).answers ++ [⟨request, true, payload d⟩] } }) := by
  unfold State.spdmStep State.answer
  simp only [hd, hready, hok]
  rw [State.updDev_updDev]
  rfl

/-- A signature is made under the next index. -/
theorem State.spdmStep_signed {ws : List DWord} (hf : f = fun p => { p with sigIndex := p.sigIndex + 1 })
    (hws : payload d = BitVec.ofNat 64 d.spdm.sigIndex :: ws) :
    s.spdmStep dev request ok f payload = .next (s.updDev dev fun e =>
      { e with spdm := { e.spdm with sigIndex := e.spdm.sigIndex + 1,
                                     answers := e.spdm.answers ++ [⟨request, true, BitVec.ofNat 64 e.spdm.sigIndex :: ws⟩] } }) := by
  rw [State.spdmStep_taken hd hready hok, hf, hws]
  refine congrArg Host.Outcome.next (State.updDev_congr fun e he => ?_)
  obtain rfl := Option.some.inj (hd.symm.trans he)
  rfl

end

/-! ### Debug unlock (R420) -/

section
variable {s : State} {dev : Nat} {d : Device} (hd : s.dev? dev = some d)
include hd

theorem execDebugUnlockRequest_asked (hready : d.ready = true) (addr : DWord) (hnone : ∀ t ∈ d.tdi, t.2.state ≠ .creating) :
    execDebugUnlockRequest dev addr s = .next (s.updDev dev fun d => { d with dbgReq := addr &&& ~~~0xFFF, dbgStat := 5 }) := by
  have hidle : (d.tdi.any fun t => t.2.state == .creating) = false := List.any_eq_false.mpr fun t ht => by simp [hnone t ht]
  unfold execDebugUnlockRequest
  simp only [hd, hready, hidle]
  rfl

theorem execDebugUnlockRequest_refused (hready : d.ready = true) (addr : DWord) {t : Nat × Tdi} (ht : t ∈ d.tdi) (hcreating : t.2.state = .creating) :
    execDebugUnlockRequest dev addr s = .next (s.updDev dev fun d => { d with dbgStat := 2 }) := by
  have hbusy : (d.tdi.any fun t => t.2.state == .creating) = true := List.any_eq_true.mpr ⟨t, ht, by simp [hcreating]⟩
  unfold execDebugUnlockRequest
  simp only [hd, hready, hbusy]
  rfl

theorem execDebugTokenVerified_eq (hasked : d.dbgStat = 5) (verdict : TokenVerdict) :
    execDebugTokenVerified dev verdict s = .next (s.updDev dev fun d =>
      match verdict with
      | .accepted => { d with dbgStat := 1, unlocked := true }
      | .badSignature => { d with dbgStat := 3 }
      | .otherDevice => { d with dbgStat := 4 }) := by
  unfold execDebugTokenVerified
  simp only [hd, hasked]
  rfl

theorem execConfigurationChange_eq {slot : Nat} (hstate : (d.iface slot).state = .locked ∨ (d.iface slot).state = .run) :
    execConfigurationChange dev slot s = .next (s.tdiError dev slot 1) := by
  unfold execConfigurationChange
  simp only [hd]
  rw [if_pos (by simpa using hstate)]

theorem execFunctionReset_eq {slot : Nat} (hstate : (d.iface slot).state = .locked ∨ (d.iface slot).state = .run) :
    execFunctionReset dev slot s = .next (s.tdiError dev slot 4) := by
  unfold execFunctionReset
  simp only [hd]
  rw [if_pos (by simpa using hstate)]

end

/-- Settles O47: each request by whether its interface or its responder takes it; the creation by the slots that it fills, the stop by what it leaves. -/
theorem securityRequests : Obligations.SecurityRequests := by
  refine ⟨fun s dev slot d hd hready hslot => ?_, fun s dev request d hd hready => ?_⟩
  · intro t reply set
    refine ⟨fun key c hkey hc => execLockInterface_accepted hd hready hslot hkey hc, execLockInterface_refused hd hready hslot,
      fun key c hkey hc hcreating hroom _ => ?_, execStartInterface_accepted hd hready hslot, execStartInterface_refused hd hready hslot,
      exec_stopInterface hd hready hslot, execStopInterface_refused hd hready hslot, execTdispGetVersion_answered hd hready hslot,
      ⟨_, execTdispGetCapabilities_answered hd hready hslot⟩, fun hstate => ⟨_, execGetDeviceInterfaceReport_accepted hd hready hslot hstate⟩,
      execGetDeviceInterfaceReport_refused hd hready hslot, execGetDeviceInterfaceState_answered hd hready hslot,
      fun hstate => ⟨execConfigurationChange_eq hd hstate, execFunctionReset_eq hd hstate⟩, execIdeKm_accepted hd hready hslot,
      execIdeKm_refused hd hready hslot⟩
    obtain ⟨u, e, hexec, he, hlocked, ⟨hmarked, hholds⟩, hchip⟩ := exec_protectedCreationCommit hd hkey hc hcreating hroom
    exact ⟨u, e, hexec, he, hlocked, hholds, hmarked, hchip⟩
  · intro p gives answers signed
    refine ⟨show execSpdmGetVersion dev request s = _ from State.spdmStep_taken hd hready rfl,
      fun hversion => show execSpdmGetCapabilities dev request s = _ from State.spdmStep_taken hd hready hversion,
      fun hcaps => show execNegotiateAlgorithms dev request s = _ from State.spdmStep_taken hd hready hcaps, fun halgorithms => ⟨?_, ?_, ?_⟩,
      fun halgorithms hindex => ?_, fun hsession => ?_, fun addr => execDebugUnlockRequest_asked hd hready addr,
      fun addr t => execDebugUnlockRequest_refused hd hready addr, fun hasked => ⟨?_, ?_, ?_⟩⟩
    · exact ⟨_, show execGetDigests dev request s = _ from State.spdmStep_taken hd hready halgorithms⟩
    · exact ⟨_, show execGetCertificate dev request s = _ from State.spdmStep_taken hd hready halgorithms⟩
    · exact ⟨_, show execKeyExchange dev request s = _ from State.spdmStep_taken hd hready halgorithms⟩
    · have hsign : d.spdm.maySign = true := Bool.and_eq_true_iff.mpr ⟨halgorithms, decide_eq_true hindex⟩
      exact ⟨⟨_, show execChallenge dev request s = _ from State.spdmStep_signed hd hready hsign rfl rfl⟩,
        ⟨_, show execGetMeasurements dev request s = _ from State.spdmStep_signed hd hready hsign rfl rfl⟩⟩
    · exact ⟨_, show execFinish dev request s = _ from State.spdmStep_taken hd hready hsession⟩
    · exact execDebugTokenVerified_eq hd hasked .accepted
    · exact execDebugTokenVerified_eq hd hasked .badSignature
    · exact execDebugTokenVerified_eq hd hasked .otherDevice

end Sys2Proof.Machine
end
